-- ==== Sys2Proof/Word.lean ====
section
/-! DEFINITION. The word types of the device and the sparse table its storage is held in. -/
namespace Sys2Proof

/-- One byte. -/
abbrev Byte := BitVec 8
/-- A 32-bit register (07, table of registers). -/
abbrev Word := BitVec 32
/-- A 64-bit register (R11). -/
abbrev DWord := BitVec 64

/-- A sparse table: keys strictly rising, no entry equal to what an unlisted key reads as
(`default`), so that equal contents are equal lists. -/
abbrev Tbl (α : Type) := List (Nat × α)

/-- The value at a key; `default` where the key is not listed. -/
def Tbl.get {α : Type} [Inhabited α] : Tbl α → Nat → α
  | [], _ => default
  | (k, v) :: t, n => if k = n then v else Tbl.get t n

/-- Take a key out of a table. -/
def Tbl.drop {α : Type} : Tbl α → Nat → Tbl α
  | [], _ => []
  | (k, v) :: t, n => if k = n then Tbl.drop t n else (k, v) :: Tbl.drop t n

/-- Put `v` in front of a table unless it is what an unlisted key reads as. -/
def Tbl.cons {α : Type} [Inhabited α] [DecidableEq α] (n : Nat) (v : α) (t : Tbl α) : Tbl α :=
  if v = default then t else (n, v) :: t

/-- Write a key, keeping the canonical form. It holds of any list, canonical or not, that the key then reads as
`v` and every other key as before. -/
def Tbl.put {α : Type} [Inhabited α] [DecidableEq α] : Tbl α → Nat → α → Tbl α
  | [], n, v => Tbl.cons n v []
  | (k, w) :: t, n, v =>
    if k < n then (k, w) :: Tbl.put t n v
    else Tbl.cons n v (Tbl.drop ((k, w) :: t) n)

/-- Change the value at a key. -/
def Tbl.upd {α : Type} [Inhabited α] [DecidableEq α] (t : Tbl α) (n : Nat) (f : α → α) : Tbl α :=
  t.put n (f (t.get n))

/-- Change every listed value. -/
def Tbl.mapAll {α : Type} [Inhabited α] [DecidableEq α] : Tbl α → (α → α) → Tbl α
  | [], _ => []
  | (k, v) :: t, f => Tbl.put (Tbl.mapAll t f) k (f v)

/-- Replace the entries with keys in [lo, lo + n) by a block of rising keys in that range. -/
def Tbl.splice {α : Type} (t : Tbl α) (lo n : Nat) (block : List (Nat × α)) : Tbl α :=
  (t.filter fun x => x.1 < lo) ++ block ++ t.filter fun x => lo + n ≤ x.1

/-- Every key of a table is at least `lo`, the keys rise strictly, no entry is the default. -/
def Tbl.wfFrom {α : Type} [Inhabited α] [DecidableEq α] : Nat → Tbl α → Bool
  | _, [] => true
  | lo, (k, v) :: t => decide (lo ≤ k) && decide (v ≠ default) && Tbl.wfFrom (k + 1) t

/-- The canonical form. -/
def Tbl.wf {α : Type} [Inhabited α] [DecidableEq α] (t : Tbl α) : Bool := Tbl.wfFrom 0 t

end Sys2Proof
end

