-- ==== Sys2Proof/Syntax.lean ====
section
/-! DEFINITION. The commands the device takes: every operation and event of the opcode table, with
its operands. The table gives no operands and no bits, so each constructor carries what its rules
say the operation names (notes/assumptions/2.md). -/
namespace Sys2Proof

/-- The assembly variants of R1. -/
inductive Variant where | v12M4X | v8M8X | v14M2X
  deriving DecidableEq, Repr, Inhabited

/-- Region types of R252. -/
inductive Region where | normal | stream | ctrl | hostw
  deriving DecidableEq, Repr, Inhabited

/-- Rounding modes of R95. -/
inductive Rnd where | rne | rtz | rup | rdn | sr
  deriving DecidableEq, Repr, Inhabited

/-- Condition suffixes of R174. -/
inductive Cond where | eq | ne | lt | le | gt | ge | un
  deriving DecidableEq, Repr, Inhabited

/-- Placement modifier of an atomic (R227). -/
inductive Place where | auto | near | far
  deriving DecidableEq, Repr, Inhabited

/-- A source operand (R153 R175): a vector register with its reuse bit, a uniform register or an
immediate. Vector register 255 names no register and reads 0. -/
inductive Src where
  | v (n : Nat) (reuse : Bool)
  | u (n : Nat)
  | imm (x : DWord)
  deriving DecidableEq, Repr, Inhabited

/-- The fields common to all instructions (R175), with the set that issues: the threads of group
slot `slot` of logical core `core` that stand at `pc` (R165). `rivals`: the other sets of the core, each by group slot
and address, whose next instruction has its operands, pipe and window space in this step (R165); instruction words are
not decoded, so the command says so. `rsvd`: an opcode without an operation or a non-zero reserved field. `regErr`: error
of its register reads (R157): 0 none, 1 corrected, 2 double-bit, 3 parity of the cache entry of register `errReg`.
`residue`: failures in a row of the vector residue check (R381). -/
structure Ins where
  core : Nat := 0
  slot : Nat := 0
  pc : Nat := 0
  guard : Option (Nat × Bool) := none
  dst : Nat := 255
  a : Src := .v 255 false
  b : Src := .v 255 false
  c : Src := .v 255 false
  is64 : Bool := false
  rivals : List (Nat × Nat) := []
  rsvd : Bool := false
  regErr : Nat := 0
  errReg : Nat := 255
  residue : Nat := 0
  deriving DecidableEq, Repr, Inhabited

/-- What hardware errors do to one plane step (R71 to R74). `cells`: outputs of cells that are not the AND they form, as
row, k, column and the output; `cksCol`: errors in what the checksum column forms for a row; `cksRow`: errors in what the
checksum row forms for a column; `residue`: the residue, modulo 3, by which the shifters, the shift-accumulator or the adder
miss their residue code. Without errors every field is empty. -/
structure Check where
  cells : List (Nat × Nat × Nat × Int) := []
  cksCol : List (Nat × Int) := []
  cksRow : List (Nat × Int) := []
  residue : Nat := 0
  deriving DecidableEq, Repr, Inhabited

/-- What the code of a granule reports (R206 R211): no error, a correctable one at a bit or symbol position, or an
uncorrectable one. -/
inductive ScrubErr where
  | none_
  | correctable (bit : Nat)
  | uncorrectable
  deriving DecidableEq, Repr, Inhabited

/-- Kind of a request at a home slice (R234 R238). -/
inductive HomeKind where
  | read          -- coherent read
  | own           -- request for ownership
  | write         -- uncached coherent write
  | bulkRead
  | bulkWrite
  deriving DecidableEq, Repr, Inhabited

/-- What the meter of one island shows (R334). -/
structure Meter where
  /-- The core quad (36 die + quad), none for another island or the management domain. -/
  quad : Option Nat := none
  /-- Energy of the last 1 ms, in mJ. -/
  mj : Nat := 0
  /-- Of an island that is no core quad: the bytes through it by context; nothing of the management domain. -/
  bytes : List (Nat × Nat) := []
  deriving DecidableEq, Repr, Inhabited

/-- A request at a home slice: issuer (source number, physical core + 1 of a caching core, context and
generation, management tag) and access. `err`: the code error its read meets (R206). `remote`: device and context of a remote requester (R349). -/
structure HomeReq where
  kind : HomeKind := .bulkRead
  pa : Nat := 0
  len : Nat := 8
  data : List Byte := []
  agent : Nat := 0
  core : Nat := 0
  ctx : Nat := 0
  gen : BitVec 8 := 0
  mgmt : Bool := false
  remote : Option (Nat × Nat) := none
  err : ScrubErr := .none_
  /-- The L1 that owns the line does not answer (R235). -/
  silent : Bool := false
  deriving DecidableEq, Repr, Inhabited

/-- A unit that is remapped or retired (R212 R213): segment of a bank of a slice, or a 64 KiB frame
of a stack. -/
inductive SpareUnit where
  | segment (die slice seg : Nat)
  | frame (stack frame : Nat)
  deriving DecidableEq, Repr, Inhabited

/-- A counter operation as it reaches its sync unit (R272 R273): 0x01 ADD, 0x02 SUB, 0x03 SET, 0x04
TRYDEC, 0x10 WAIT_GE, 0x11 WAIT_EQ, 0x12 WAIT_NZ. `thr`: the issuing thread (group key, lane). -/
structure CtrOp where
  op : Nat := 1
  id : Nat := 0
  v : DWord := 0
  timeout : Nat := 0
  ctx : Nat := 0
  gen : BitVec 8 := 0
  src : Nat := 0
  thr : Option (Nat × Nat) := none
  deriving DecidableEq, Repr, Inhabited

/-- A sync doorbell (R281): the bytes VALUE, ID, FLAGS and TAG, and whether size and alignment of the
write are right and whether its OP is one of the table, the command's own. -/
structure Door where
  value : DWord := 0
  id : Word := 0
  flags : BitVec 8 := 0
  tag : BitVec 16 := 0
  sized : Bool := true
  listed : Bool := true
  deriving DecidableEq, Repr, Inhabited

/-- Request header of the management interface (R310). `ctx` 0xFFFF names none; `payAddr` PAYLOAD_ADDR; `odd`: the CODE of a
request that is not well formed, which comes as any of these commands: a code that R313 does not list, or one whose PAYLOAD_LEN
or payload the operands cannot spell (R312). Reserved fields are ignored (R13). -/
structure Hdr where
  fn : Nat := 0
  tag : Word := 0
  notify : Bool := false
  ctx : Nat := 0xFFFF
  gen : BitVec 8 := 0
  payAddr : Nat := 0
  odd : Option Nat := none
  deriving DecidableEq, Repr, Inhabited

/-- A ring configuration (R262). -/
structure RingCfg where
  addr : Nat := 0
  size : Nat := 64
  tailAddr : Nat := 0
  vector : Nat := 0
  deriving DecidableEq, Repr, Inhabited

/-- A MAP request (R248 to R253, R365). `pageSize`: 0 64 KiB, 1 2 MiB, 2 1 GiB. `pa`: local physical
address; `device`: target device, none for this one. -/
structure MapReq where
  va : Nat := 0
  len : Nat := 0
  pa : Nat := 0
  device : Option Nat := none
  region : Nat := 0
  pageSize : Nat := 0
  read : Bool := true
  write : Bool := true
  exec : Bool := false
  shared : Bool := false
  sset : Nat := 0
  host : Nat := 0
  bar2 : Option Nat := none
  deriving DecidableEq, Repr, Inhabited

/-- QUEUE_CREATE payload (R315). -/
structure QueueCfg where
  kind : Nat := 0
  inst : Nat := 0
  be : Bool := true
  s : Nat := 4
  c : Nat := 4
  f : Nat := 16
  vector : Nat := 0
  ring : Nat := 0
  cring : Nat := 0
  ctail : Nat := 0
  head : Nat := 0
  fail : Nat := 0
  deriving DecidableEq, Repr, Inhabited

/-- A fabric packet other than LINK and TIME (R340). -/
structure FPkt where
  type : Nat := 0
  flits : Nat := 1
  vc : Nat := 0
  hops : Nat := 0
  dst : Nat := 0
  src : Nat := 0
  sctx : Nat := 0
  sgen : BitVec 8 := 0
  phys : Bool := false
  poison : Bool := false
  count : Bool := false
  dctx : Nat := 0
  status : Nat := 0
  txn : Nat := 0
  len : Nat := 0
  addr : Nat := 0
  counter : Word := 0
  lseq : BitVec 16 := 0
  value : DWord := 0
  mask : List Nat := []
  data : List Byte := []
  rsvd : Bool := false
  /-- Bits of each written byte that a PUT with PHYS writes: all of them, but for a bitmap write (R121). DESIGN CHOICE
  (notes/assumptions/63.md): R340 gives no place for it in the packet. -/
  bits : Nat := 255
  deriving DecidableEq, Repr, Inhabited

/-- A LINK packet (R344): ACK_LSEQ, NAK, CREDIT per VC, the sender's device ID and port. -/
structure LinkPkt where
  ack : BitVec 16 := 0
  nak : Bool := false
  credit : List (BitVec 16) := []
  device : BitVec 16 := 0
  port : BitVec 6 := 0
  deriving DecidableEq, Repr, Inhabited

/-- A TIME packet (R356). `crcOk`: its CRC is right as it arrives; `rsvd`: a reserved field is not 0, or FLITS is not 1. -/
structure TimePkt where
  tSend : DWord := 0
  echoSend : DWord := 0
  echoRecv : DWord := 0
  master : BitVec 16 := 0
  prio : BitVec 8 := 0xFF
  hops : BitVec 8 := 0
  pps : Bool := false
  crcOk : Bool := true
  rsvd : Bool := false
  deriving DecidableEq, Repr, Inhabited

/-- A register access (R11): `fn` the host function, or none for a CTRL access of a physical core;
`pa` the control-space address (a BAR4 offset is carried to it by R367); `msix`: instead an offset in the function's
MSI-X table (R363). -/
structure RegAcc where
  fn : Option Nat := some 0
  core : Nat := 0
  pa : Nat := 0
  size : Nat := 8
  msix : Option Nat := none
  deriving DecidableEq, Repr, Inhabited

/-- TAP instructions of R407. -/
inductive Tap where | bypass | extest | intest | acTest | idcode | undefined
  deriving DecidableEq, Repr, Inhabited

/-- Units that restart alone (R391). -/
inductive Unit_ where
  | engine (e : Nat)
  | ioDie (x : Nat)
  | hbm (h : Nat)
  deriving DecidableEq, Repr, Inhabited

/-- The commands: one constructor per row of the opcode table, in its order. -/
inductive Instr where
  /-- MMA: checks R54 R62 R79 R91; takes the array; queues the MMA (a = P offset, b = Q offset, uniform). -/
  | mma (i : Ins) (g : Nat) (pf : Nat) (qf : Nat) (accT : Nat) (bank : Bool) (zero : Bool) (retake : Nat)
  /-- ACC_READ: row of a bank into a vector register, SAT into a predicate. -/
  | accRead (i : Ins) (bank : Bool) (row : Nat) (status : Option Nat)
  /-- ACC_CLEAR: zeroes banks, sets n, releases the array. -/
  | accClear (i : Ins) (banks : BitVec 2) (release : Bool) (setN : Option Nat)
  /-- TSEQ_START: copies and validates the descriptor at offset a; queues the program. -/
  | tseqStart (i : Ins)
  /-- TSEQ_WAIT: status and tile index of the oldest unwaited program. -/
  | tseqWait (i : Ins) (us : Nat) (ut : Nat)
  /-- EXTENT_SET: EM, EN, EK from uniform a, b, c. -/
  | extentSet (i : Ins)
  /-- LDL: local-store load at offset a. -/
  | ldl (i : Ins) (size : Nat)
  /-- STL: local-store store of b at offset a. -/
  | stl (i : Ins) (size : Nat)
  /-- LD: load issued; its reply is LOAD_REPLY. -/
  | ld (i : Ins) (size : Nat)
  /-- ST: store of b at address pair a into the store buffer. -/
  | st (i : Ins) (size : Nat)
  /-- LD_RSV: as LD, and the reservation. -/
  | ldRsv (i : Ins) (size : Nat)
  /-- ST_CND: conditional store of b; predicate dst. -/
  | stCnd (i : Ins) (size : Nat)
  /-- ATOM_ADD: [a] += b, old value to dst. -/
  | atomAdd (i : Ins) (size : Nat) (place : Place)
  /-- ATOM_SUB: [a] -= b. -/
  | atomSub (i : Ins) (size : Nat) (place : Place)
  /-- ATOM_AND: and. -/
  | atomAnd (i : Ins) (size : Nat) (place : Place)
  /-- ATOM_OR: or. -/
  | atomOr (i : Ins) (size : Nat) (place : Place)
  /-- ATOM_XOR: xor. -/
  | atomXor (i : Ins) (size : Nat) (place : Place)
  /-- ATOM_MIN: min. -/
  | atomMin (i : Ins) (size : Nat) (place : Place) (signed : Bool)
  /-- ATOM_MAX: max. -/
  | atomMax (i : Ins) (size : Nat) (place : Place) (signed : Bool)
  /-- ATOM_EXCH: exchange. -/
  | atomExch (i : Ins) (size : Nat) (place : Place)
  /-- ATOM_CAS: compare with b, write c. -/
  | atomCas (i : Ins) (size : Nat) (place : Place)
  /-- ATOM_FADD: FP32 add, RNE. -/
  | atomFadd (i : Ins) (place : Place)
  /-- FENCE_O: store buffer entries of the thread drained first. -/
  | fenceO (i : Ins)
  /-- FENCE_C: and stores performed at their end points. -/
  | fenceC (i : Ins)
  /-- FENCE_C_INV: and the L1 written back and invalidated. -/
  | fenceCInv (i : Ins)
  /-- SYNC_ADD: a = ID, b = value pair, c = timeout, rd = READ register or 255. -/
  | syncAdd (i : Ins) (rd : Nat)
  /-- SYNC_SUB: SUB. -/
  | syncSub (i : Ins) (rd : Nat)
  /-- SYNC_SET: SET. -/
  | syncSet (i : Ins) (rd : Nat)
  /-- SYNC_TRYDEC: TRYDEC. -/
  | syncTrydec (i : Ins) (rd : Nat)
  /-- SYNC_WAIT_GE: wait. -/
  | syncWaitGe (i : Ins) (rd : Nat)
  /-- SYNC_WAIT_EQ: wait. -/
  | syncWaitEq (i : Ins) (rd : Nat)
  /-- SYNC_WAIT_NZ: wait on a counter or a fence. -/
  | syncWaitNz (i : Ins) (rd : Nat)
  /-- SYNC_RESULT_RETURN: results of a set's counter operation reach its threads. -/
  | syncResultReturn (core : Nat) (slot : Nat) (pc : Nat)
  /-- SHFL_IDX: source lane b. -/
  | shflIdx (i : Ins)
  /-- SHFL_UP: lane t - b. -/
  | shflUp (i : Ins)
  /-- SHFL_DOWN: lane t + b. -/
  | shflDown (i : Ins)
  /-- SHFL_XOR: lane t xor b. -/
  | shflXor (i : Ins)
  /-- VOTE_ALL: predicate dst = all. -/
  | voteAll (i : Ins) (q : Nat)
  /-- VOTE_ANY: predicate dst = any. -/
  | voteAny (i : Ins) (q : Nat)
  /-- VOTE_BALLOT: mask to dst. -/
  | voteBallot (i : Ins) (q : Nat)
  /-- VOTE_MATCH: mask of equal operands. -/
  | voteMatch (i : Ins)
  /-- GSYNC: arrival and wait. -/
  | gsync (i : Ins) (mask : Word)
  /-- BRA: branch in 16 B units. -/
  | bra (i : Ins) (target : Int) (join : Int)
  /-- JOIN_HOLD_EXPIRE: a join hold ends after 63 issues. -/
  | joinHoldExpire (core : Nat) (slot : Nat) (addr : Nat)
  /-- EXIT: threads end. -/
  | exit (i : Ins)
  /-- CUT: cut point. -/
  | cut (i : Ins) (idx : Nat)
  /-- CHECKPOINT_WRITE_COMPLETE: checkpoint slot becomes the replay point. -/
  | checkpointWriteComplete (core : Nat) (slot : Nat)
  /-- TSC_READ: device time into a register pair. -/
  | tscRead (i : Ins) (uni : Option Nat)
  /-- INT_ADD: a + b. -/
  | intAdd (i : Ins)
  /-- INT_SUB: a - b. -/
  | intSub (i : Ins)
  /-- INT_AND: and. -/
  | intAnd (i : Ins)
  /-- INT_OR: or. -/
  | intOr (i : Ins)
  /-- INT_XOR: xor. -/
  | intXor (i : Ins)
  /-- INT_SHL: a << b. -/
  | intShl (i : Ins)
  /-- INT_SHR: a >> b. -/
  | intShr (i : Ins)
  /-- INT_TEST: predicate dst. -/
  | intTest (i : Ins) (cond : Cond)
  /-- INT_MUL: low 32 bits of a * b. -/
  | intMul (i : Ins)
  /-- INT_MAC: a * b + c. -/
  | intMac (i : Ins)
  /-- INT_MUL_WIDE: 64-bit product. -/
  | intMulWide (i : Ins) (signed : Bool)
  /-- INT_MAC_WIDE: product + c pair. -/
  | intMacWide (i : Ins) (signed : Bool)
  /-- F32_ADD: FP32 add. -/
  | f32Add (i : Ins) (rnd : Rnd)
  /-- F32_MUL: multiply. -/
  | f32Mul (i : Ins) (rnd : Rnd)
  /-- F32_MAC: fused. -/
  | f32Mac (i : Ins) (rnd : Rnd)
  /-- F32_TEST: compare. -/
  | f32Test (i : Ins) (cond : Cond)
  /-- F32_MAX: maximum; prop = NaN-propagating. -/
  | f32Max (i : Ins) (prop : Bool)
  /-- F32_MIN: minimum. -/
  | f32Min (i : Ins) (prop : Bool)
  /-- F32_RECIP: correctly rounded reciprocal. -/
  | f32Recip (i : Ins)
  /-- F32_RSQRT: correctly rounded reciprocal square root. -/
  | f32Rsqrt (i : Ins)
  /-- F32_EXP2: within 1 ulp. -/
  | f32Exp2 (i : Ins)
  /-- F32_LOG2: within 1 ulp. -/
  | f32Log2 (i : Ins)
  /-- F32_SIN: within 1 ulp. -/
  | f32Sin (i : Ins)
  /-- F32_COS: within 1 ulp. -/
  | f32Cos (i : Ins)
  /-- F64_ADD: FP64 add. -/
  | f64Add (i : Ins) (rnd : Rnd)
  /-- F64_MUL: multiply. -/
  | f64Mul (i : Ins) (rnd : Rnd)
  /-- F64_MAC: fused. -/
  | f64Mac (i : Ins) (rnd : Rnd)
  /-- F64_TEST: compare. -/
  | f64Test (i : Ins) (cond : Cond)
  /-- F64_MAX: maximum. -/
  | f64Max (i : Ins) (prop : Bool)
  /-- F64_MIN: minimum. -/
  | f64Min (i : Ins) (prop : Bool)
  /-- CONV: conversion; b = SR draw. -/
  | conv (i : Ins) (src : Nat) (dst : Nat) (rnd : Rnd)
  /-- UNI_ADD: uniform add. -/
  | uniAdd (i : Ins)
  /-- UNI_MOV: uniform move. -/
  | uniMov (i : Ins)
  /-- UNI_SHL: uniform shift. -/
  | uniShl (i : Ins)
  /-- UNI_LDL: uniform load from local store. -/
  | uniLdl (i : Ins)
  /-- LOAD_REPLY: a pending load is performed, checked and retired; the host rejects its host-window reads. -/
  | loadReply (core : Nat) (slot : Nat) (id : Nat) (rejected : Bool)
  /-- GROUP_PARK: a faulting group parks and its record is written. -/
  | groupPark (core : Nat) (slot : Nat)
  /-- STORE_BUFFER_DRAIN: oldest store-buffer entry of physical core p drains. -/
  | storeBufferDrain (p : Nat)
  /-- PLANE_STEP: one plane step fed and checked. -/
  | planeStep (p : Nat) (check : Check)
  /-- SPARE_SWITCH_DONE: spare switch done. -/
  | spareSwitchDone (p : Nat)
  /-- KGROUP_UPDATE: accumulator update of the current K-group. -/
  | kgroupUpdate (p : Nat)
  /-- RETAKE_RUN_START: retake run fed and updated. -/
  | retakeRunStart (p : Nat)
  /-- MMA_RETIRE: oldest MMA retires. -/
  | mmaRetire (p : Nat)
  /-- TSEQ_PROGRAM_START: the program at the front starts; halos sent. -/
  | tseqProgramStart (p : Nat)
  /-- HALO_PLACE: an arriving region is placed. -/
  | haloPlace (p : Nat) (entry : Nat)
  /-- HALO_ACK: acknowledgement of a sent region. -/
  | haloAck (p : Nat) (entry : Nat)
  /-- HALO_TIMEOUT: an entry not placed in time. -/
  | haloTimeout (p : Nat) (entry : Nat)
  /-- TSEQ_FETCH_RETURN: operands of the current pass arrive. -/
  | tseqFetchReturn (p : Nat)
  /-- DETAIL_FETCH_RETURN: late detail planes arrive. -/
  | detailFetchReturn (p : Nat) (block : Nat)
  /-- TSEQ_PASS_START: K-loop of the pass enters the array queue. -/
  | tseqPassStart (p : Nat)
  /-- TSEQ_STORE_COMPLETE: the retired pass is stored. -/
  | tseqStoreComplete (p : Nat)
  /-- TSEQ_PROGRAM_COMPLETE: program completes. -/
  | tseqProgramComplete (p : Nat)
  /-- LM_BINS_MERGE: bins of core p added to the launch's record. -/
  | lmBinsMerge (p : Nat)
  /-- CLIP_TOTAL_UPDATE: clip counts of core p added to the launch's total. -/
  | clipTotalUpdate (p : Nat)
  /-- GOVERNOR_TICK: voltages set: sensor reading, measured load of a busy quad, cap not holdable, quads to pause. -/
  | governorTick (die : Nat) (tj : Nat) (load : Nat) (floor : Bool) (gated : List Nat)
  /-- BUDGET_TICK: budgets under the cap; measured power and sensor. -/
  | budgetTick (powerW : Nat) (maxTj : Nat) (budgets : List Nat)
  /-- CAP_TAKES_EFFECT: requested cap in force. -/
  | capTakesEffect
  /-- QUAD_IDLE_DROP: drop begins. -/
  | quadIdleDrop (die : Nat) (q : Nat)
  /-- QUAD_WRITEBACK_DONE: write-back finished, ramp begins. -/
  | quadWritebackDone (die : Nat) (q : Nat)
  /-- QUAD_RETENTION_REACHED: retention. -/
  | quadRetentionReached (die : Nat) (q : Nat)
  /-- BUDGET_LEND: budget lent. -/
  | budgetLend (die : Nat) (q : Nat)
  /-- QUAD_WAKE: waking event. -/
  | quadWake (die : Nat) (q : Nat)
  /-- QUAD_WAKE_COMPLETE: first step. -/
  | quadWakeComplete (die : Nat) (q : Nat)
  /-- BUDGET_RETURN: budget returned. -/
  | budgetReturn (die : Nat) (q : Nat)
  /-- TSC_TIME_LOW_READ: low half read by function who (0-63) or core who-64. -/
  | tscTimeLowRead (who : Nat)
  /-- TSC_REFERENCE_LOSS: reference lost. -/
  | tscReferenceLoss
  /-- TSC_REFERENCE_RETURN: reference returns. -/
  | tscReferenceReturn
  /-- HOME_REQUEST: request performed at its home. -/
  | homeRequest (r : HomeReq)
  /-- TIER_FILL_COMPLETE: fill installed. -/
  | tierFillComplete (die : Nat) (slice : Nat) (bank : Nat)
  /-- VICTIM_WRITEBACK_SEND: oldest dirty victim leaves. -/
  | victimWritebackSend (die : Nat) (slice : Nat)
  /-- VICTIM_WRITEBACK_ACK: oldest writeback in flight acknowledged. -/
  | victimWritebackAck (die : Nat) (slice : Nat)
  /-- L1_WRITEBACK: L1 line written back. -/
  | l1Writeback (p : Nat) (line : Nat)
  /-- HOME_ANSWER_TIMEOUT: owner's answer missing for 20 us. -/
  | homeAnswerTimeout (line : Nat)
  /-- DIE_RESTART_COMPLETE: restart ends. -/
  | dieRestartComplete (die : Nat) (ok : Bool)
  /-- TIER_CONVERSION_COMPLETE: conversion ends. -/
  | tierConversionComplete (die : Nat) (slice : Nat)
  /-- PATROL_SCRUB: a granule of the tier, or of the stack, scrubbed. -/
  | patrolScrub (pa : Nat) (stack : Bool) (err : ScrubErr)
  /-- SEGMENT_REMAP_START: remap or retirement begins. -/
  | segmentRemapStart (u : SpareUnit)
  /-- SEGMENT_REMAP_COMPLETE: and ends. -/
  | segmentRemapComplete (u : SpareUnit)
  /-- TLB_MISS_WALK_START: walk started or queued. -/
  | tlbMissWalkStart (stream : Nat) (ctx : Nat) (va : Nat) (need : Nat)
  /-- PAGE_WALK_COMPLETE: oldest running walk of the stream ends. -/
  | pageWalkComplete (stream : Nat)
  /-- ERR_FAULT_HEAD_WRITE: fault-queue head. -/
  | errFaultHeadWrite (fn : Nat) (v : Word)
  /-- FAULT_REPLAY: replay. -/
  | faultReplay (fn : Nat) (ctx : Nat) (gen : BitVec 8) (seq : Word) (upto : Bool)
  /-- FAULT_ABANDON: abandon. -/
  | faultAbandon (fn : Nat) (ctx : Nat) (gen : BitVec 8) (seq : Word) (upto : Bool)
  /-- MAPPING_CHANGE_COMPLETE: unmap or change answered. -/
  | mappingChangeComplete (id : Nat)
  /-- COUNTER_OP: operation arrives at its sync unit. -/
  | counterOp (o : CtrOp)
  /-- WAIT_REGISTER_DEFERRED: queued wait registered. -/
  | waitRegisterDeferred (die : Nat)
  /-- WAIT_TIMEOUT: n-th registered wait passes its deadline. -/
  | waitTimeout (n : Nat)
  /-- DOORBELL_ADD: ADD. -/
  | doorbellAdd (fn : Nat) (ctx : Nat) (d : Door)
  /-- DOORBELL_SUB: SUB. -/
  | doorbellSub (fn : Nat) (ctx : Nat) (d : Door)
  /-- DOORBELL_SET: SET. -/
  | doorbellSet (fn : Nat) (ctx : Nat) (d : Door)
  /-- WATCH_GE: watch. -/
  | watchGe (fn : Nat) (ctx : Nat) (d : Door)
  /-- WATCH_EQ: watch. -/
  | watchEq (fn : Nat) (ctx : Nat) (d : Door)
  /-- WATCH_NZ: watch. -/
  | watchNz (fn : Nat) (ctx : Nat) (d : Door)
  /-- DOORBELL_FENCE_SIGNAL: fence signal. -/
  | doorbellFenceSignal (fn : Nat) (ctx : Nat) (d : Door)
  /-- FENCE_CLEAR: fence clear. -/
  | fenceClear (fn : Nat) (ctx : Nat) (d : Door)
  /-- FENCE_ARM: fence arm. -/
  | fenceArm (fn : Nat) (ctx : Nat) (d : Door)
  /-- QDOOR_TAIL: submission tail. -/
  | qdoorTail (fn : Nat) (eng : Nat) (q : Nat) (v : Word)
  /-- QDOOR_CHEAD: completion head. -/
  | qdoorChead (fn : Nat) (eng : Nat) (q : Nat) (v : Word)
  /-- RING_ENTRY_FETCH: next submission entry read. -/
  | ringEntryFetch (eng : Nat) (q : Nat)
  /-- SUBMISSION_HEAD_WRITE: head written. -/
  | submissionHeadWrite (eng : Nat) (q : Nat)
  /-- NOP: next packet of the queue, a NOP. -/
  | nop (eng : Nat) (q : Nat)
  /-- JUMP: JUMP. -/
  | jump (eng : Nat) (q : Nat)
  /-- MARKER: MARKER. -/
  | marker (eng : Nat) (q : Nat)
  /-- TIMESTAMP: TIMESTAMP. -/
  | timestamp (eng : Nat) (q : Nat)
  /-- SIGNAL: SIGNAL. -/
  | signal (eng : Nat) (q : Nat)
  /-- WAIT: WAIT. -/
  | wait (eng : Nat) (q : Nat)
  /-- FENCE_SIGNAL: FENCE_SIGNAL. -/
  | fenceSignal (eng : Nat) (q : Nat)
  /-- LAUNCH: LAUNCH. -/
  | launch (eng : Nat) (q : Nat)
  /-- COPY: COPY; items whose host reads the host rejects. -/
  | copy (eng : Nat) (q : Nat) (rejected : List Nat)
  /-- COPY2D: COPY2D; items whose host reads the host rejects. -/
  | copy2d (eng : Nat) (q : Nat) (rejected : List Nat)
  /-- COPY3D: COPY3D; items whose host reads the host rejects. -/
  | copy3d (eng : Nat) (q : Nat) (rejected : List Nat)
  /-- FILL: FILL. -/
  | fill (eng : Nat) (q : Nat)
  /-- REMOTE_PUT: REMOTE_PUT; items whose host reads the host rejects. -/
  | remotePut (eng : Nat) (q : Nat) (rejected : List Nat)
  /-- REMOTE_GET: REMOTE_GET. -/
  | remoteGet (eng : Nat) (q : Nat)
  /-- REMOTE_WAIT: REMOTE_WAIT. -/
  | remoteWait (eng : Nat) (q : Nat)
  /-- PACKET_COMPLETE: oldest finished packet recorded. -/
  | packetComplete (eng : Nat) (q : Nat)
  /-- GROUP_PLACE: next group of a launch placed, or stops requested. -/
  | groupPlace (key : Nat)
  /-- GROUP_START: group starts. -/
  | groupStart (core : Nat) (slot : Nat)
  /-- LAUNCH_COMPLETE: completion of a launch. -/
  | launchComplete (key : Nat)
  /-- LAUNCH_DEFERRAL_TICK: deferral counted. -/
  | launchDeferralTick (key : Nat)
  /-- SLOT_GRANT: resident slot granted to queue q. -/
  | slotGrant (eng : Nat) (q : Nat)
  /-- RESIDENCY_ROTATE: q takes the slot of the longest resident. -/
  | residencyRotate (eng : Nat) (q : Nat)
  /-- SHARE_EVAL: share groups evaluated on the work of the last 100 ms, by the n-th engine of a kind (0 kernel, 1 copy, 2 link) of
  a die. -/
  | shareEval (kind : Nat) (die : Nat) (n : Nat)
  /-- GROUP_SAVE: stopped group saved. -/
  | groupSave (core : Nat) (slot : Nat)
  /-- STOP_BOUND_EXPIRE: 50 us bound. -/
  | stopBoundExpire (core : Nat) (slot : Nat)
  /-- HANG_DECLARE: 1 ms bound. -/
  | hangDeclare (core : Nat) (slot : Nat)
  /-- GROUP_RESTORE: n-th saved group restored into the slot. -/
  | groupRestore (core : Nat) (slot : Nat) (n : Nat)
  /-- ARRAY_BLOCK_TIMEOUT: blocked 10 us on the array. -/
  | arrayBlockTimeout (core : Nat) (slot : Nat)
  /-- OCCUPANCY_SAMPLE: occupancy sampled; what the islands' meters show is attributed to the contexts. -/
  | occupancySample (meters : List Meter)
  /-- DAILIES_PERIODIC_WRITE: periodic snapshots. -/
  | dailiesPeriodicWrite (fn : Nat)
  /-- MAILBOX_WRITE: host write into the mailbox area. -/
  | mailboxWrite (fn : Nat) (off : Nat) (data : List Byte)
  /-- PMI_RING_BASE_WRITE: ring base. -/
  | pmiRingBaseWrite (fn : Nat) (rsp : Bool) (v : DWord)
  /-- PMI_RSP_HEAD_WRITE: responses consumed. -/
  | pmiRspHeadWrite (fn : Nat) (v : Word)
  /-- CONTEXT_CREATE: new context. -/
  | contextCreate (h : Hdr) (flags : BitVec 8) (orphanTime : Nat) (rsvd : Bool)
  /-- CONTEXT_DESTROY: destroyed. -/
  | contextDestroy (h : Hdr)
  /-- CONTEXT_RESET: reset. -/
  | contextReset (h : Hdr) (addr : Nat) (size : Nat)
  /-- SNAPSHOT_ARM: buffer armed. -/
  | snapshotArm (h : Hdr) (addr : Nat) (size : Nat)
  /-- GENERATION_RAISE: generation raised. -/
  | generationRaise (ctx : Nat)
  /-- MAP: range mapped. -/
  | map (h : Hdr) (m : MapReq)
  /-- UNMAP: range unmapped. -/
  | unmap (h : Hdr) (va : Nat) (len : Nat)
  /-- SHARE_SET: membership. -/
  | shareSet (h : Hdr) (sset : Nat) (add : Bool) (dev : Option Nat) (member : Nat)
  /-- QUOTA_SET: quota. -/
  | quotaSet (h : Hdr) (kind : Nat) (fn : Option Nat) (v : Option Nat)
  /-- TIER_CONVERT: conversion of the slices of a mask, with the target of each, ascending; np 17 is DISABLE. -/
  | tierConvert (h : Hdr) (die : Nat) (mask : DWord) (nps : List Nat)
  /-- FAULT_QUEUE_CONFIG: fault ring. -/
  | faultQueueConfig (h : Hdr) (r : RingCfg)
  /-- NOTIFY_RING_CONFIG: notify ring. -/
  | notifyRingConfig (h : Hdr) (r : RingCfg)
  /-- COUNTER_ALLOC: 16 counters. -/
  | counterAlloc (h : Hdr) (first : Nat) (sset : Option Nat) (owned : Bool)
  /-- COUNTER_FREE: freed. -/
  | counterFree (h : Hdr) (first : Nat)
  /-- COUNTER_CONFIGURE: LIVE again. -/
  | counterConfigure (h : Hdr) (id : Nat) (v : DWord)
  /-- COUNTER_QUERY: values, modes, holders. -/
  | counterQuery (h : Hdr) (id : Nat)
  /-- FENCE_TABLE_REGISTER: fence table. -/
  | fenceTableRegister (h : Hdr) (addr : Nat) (sset : Option Nat)
  /-- QUEUE_CREATE: queue. -/
  | queueCreate (h : Hdr) (c : QueueCfg)
  /-- QUEUE_DESTROY: destroyed. -/
  | queueDestroy (h : Hdr) (eng : Nat) (q : Nat) (drain : Bool)
  /-- PARK_RING_CONFIG: park ring. -/
  | parkRingConfig (h : Hdr) (r : RingCfg)
  /-- PARK_DECIDE: decision. -/
  | parkDecide (h : Hdr) (core : Nat) (slot : Nat) (abandon : Bool)
  /-- MAILBOX_CONFIG: slots bound. -/
  | mailboxConfig (h : Hdr) (first : Nat) (count : Nat) (dest : Nat) (ctr : Nat)
  /-- DAILIES_QUERY: snapshots. -/
  | dailiesQuery (h : Hdr) (ctxs : List Nat)
  /-- DAILIES_PERIODIC: periodic ring. -/
  | dailiesPeriodic (h : Hdr) (r : RingCfg) (ms : Nat)
  /-- SHARE_GROUP_SET: share group. -/
  | shareGroupSet (h : Hdr) (n : Nat) (f : Nat) (members : List Nat)
  /-- DEVICE_INFO: information. -/
  | deviceInfo (h : Hdr)
  /-- CORE_MAP: map. -/
  | coreMap (h : Hdr)
  /-- SPARE_STATE: report. -/
  | spareState (h : Hdr) (addr : Nat)
  /-- SELF_TEST: queued test. -/
  | selfTest (h : Hdr) (target : Nat) (unit : Nat)
  /-- SELF_TEST_DONE: first queued test finishes with bad faulty units. -/
  | selfTestDone (bad : Nat)
  /-- COHERENCE_MODE: mode. -/
  | coherenceMode (h : Hdr) (down : Bool)
  /-- POWER_CAP: cap. -/
  | powerCap (h : Hdr) (w : Nat)
  /-- WITHDRAWN_RANGES: ranges. -/
  | withdrawnRanges (h : Hdr)
  /-- FW_STAGE: image staged. -/
  | fwStage (h : Hdr) (kind : Nat) (sigOk : Bool) (ver : Nat)
  /-- FW_ACTIVATE: activation. -/
  | fwActivate (h : Hdr) (kind : Nat) (dies : List Nat)
  /-- MICROCODE_DIE_DONE: a die's pause ends. -/
  | microcodeDieDone (die : Nat)
  /-- PLOWIN_COMMIT: commit after 10 s. -/
  | plowinCommit
  /-- ATTACH_READ: attach record. -/
  | attachRead (h : Hdr) (addr : Nat)
  /-- CLAIM: claim. -/
  | claim (h : Hdr) (token : DWord) (deliver : Bool)
  /-- HEARTBEAT: alive. -/
  | heartbeat (h : Hdr)
  /-- ORPHAN_LINK_TIMEOUT: both links down 100 ms. -/
  | orphanLinkTimeout
  /-- ORPHAN_HEARTBEAT_TIMEOUT: 10 s without a heartbeat. -/
  | orphanHeartbeatTimeout (fn : Nat)
  /-- ORPHAN_TIME_EXPIRE: policy 2. -/
  | orphanTimeExpire (ctx : Nat)
  /-- PCIE_LINK_DOWN: link lost. -/
  | pcieLinkDown (p : Nat)
  /-- PCIE_PORT_RETURN: traffic returns. -/
  | pciePortReturn (p : Nat)
  /-- PCIE_LINK_RESET: hot reset, disable or PERST. -/
  | pcieLinkReset (p : Nat) (perst : Bool)
  /-- FUNCTION_LEVEL_RESET: FLR. -/
  | functionLevelReset (fn : Nat)
  /-- VF_LEAVE_SERVICE: VF Enable and NumVFs are written; num: VFs now enabled. -/
  | vfLeaveService (num : Nat)
  /-- BAR_RESIZE: BAR2 size. -/
  | barResize (p : Nat) (size : Nat)
  /-- BAR2_READ: host read. -/
  | bar2Read (p : Nat) (fn : Nat) (off : Nat) (n : Nat)
  /-- BAR2_WRITE: host write. -/
  | bar2Write (p : Nat) (fn : Nat) (off : Nat) (data : List Byte)
  /-- BAR0_ACCESS_REFUSED: refused access. -/
  | bar0AccessRefused (fn : Nat) (off : Nat) (write : Bool)
  /-- UNTRUSTED_REQUEST: peer request. -/
  | untrustedRequest (p : Nat) (bus : BitVec 8)
  /-- PCIE_CFG_WRITE: trusted range. -/
  | pcieCfgWrite (p : Nat) (bus : BitVec 8) (v : DWord)
  /-- PORT_TRAINING_COMPLETE: port up. -/
  | portTrainingComplete (port : Nat) (peer : BitVec 16) (peerPort : BitVec 6)
  /-- LINK_PACKET_SEND: LINK packet sent. -/
  | linkPacketSend (port : Nat)
  /-- LINK_PACKET: LINK packet received. `rsvd`: a reserved field is not 0, or FLITS is not 1. -/
  | linkPacket (port : Nat) (crcOk : Bool) (rsvd : Bool) (k : LinkPkt)
  /-- PACKET_FORWARD: a packet the device sends, or one in transit at the I/O die, is routed. -/
  | packetForward (io : Nat) (k : FPkt)
  /-- PUT: PUT arrives. -/
  | put (port : Nat) (crcOk : Bool) (k : FPkt)
  /-- GET: GET arrives. -/
  | get (port : Nat) (crcOk : Bool) (k : FPkt)
  /-- FABRIC_WAIT: WAIT arrives. -/
  | fabricWait (port : Nat) (crcOk : Bool) (k : FPkt)
  /-- WAIT_CANCEL: WAIT_CANCEL arrives. -/
  | waitCancel (port : Nat) (crcOk : Bool) (k : FPkt)
  /-- PUT_ACK: PUT_ACK arrives. -/
  | putAck (port : Nat) (crcOk : Bool) (k : FPkt)
  /-- GET_DATA: GET_DATA arrives. -/
  | getData (port : Nat) (crcOk : Bool) (k : FPkt)
  /-- WAIT_DONE: WAIT_DONE arrives. -/
  | waitDone (port : Nat) (crcOk : Bool) (k : FPkt)
  /-- REMOTE_RETRY: request sent again. -/
  | remoteRetry (txn : Nat)
  /-- REMOTE_REQUEST_TIMEOUT: timeout. -/
  | remoteRequestTimeout (txn : Nat)
  /-- PORT_DOWN_TIMEOUT: 100 ms without retraining. -/
  | portDownTimeout (port : Nat)
  /-- LANE_LOCK_LOSS: lane lost. -/
  | laneLockLoss (port : Nat) (lane : Nat)
  /-- LANE_SPARE_RESUME: port resumes. -/
  | laneSpareResume (port : Nat)
  /-- LANE_RETRAIN_TICK: failed lane retrained. -/
  | laneRetrainTick (port : Nat) (lane : Nat) (ok : Bool)
  /-- SPARE_LANE_ROTATION: rotation step. -/
  | spareLaneRotation (port : Nat)
  /-- TIME_PACKET_SEND: TIME sent. -/
  | timePacketSend (port : Nat)
  /-- TIME_PACKET: TIME received. -/
  | timePacket (port : Nat) (k : TimePkt)
  /-- TIME_PARENT_TIMEOUT: parent silent 10 ms. -/
  | timeParentTimeout
  /-- PPS_PULSE: pulse. -/
  | ppsPulse
  /-- FAB_CONFIG_WRITE: FAB_CONFIG. -/
  | fabConfigWrite (v : DWord)
  /-- FAB_ROUTE_DATA_WRITE: routing entry. -/
  | fabRouteDataWrite (io : Nat) (v : DWord)
  /-- FAB_DROPS_READ: counts read and cleared. -/
  | fabDropsRead (io : Nat)
  /-- ROTATION_SWAP_START: rotation swap of a logical core. -/
  | rotationSwapStart (core : Nat)
  /-- STANDIN_ENTRY_CHECK_DONE: entry check ends. -/
  | standinEntryCheckDone (core : Nat) (ok : Bool)
  /-- STANDIN_IDENTITY_MOVE: identity moves. -/
  | standinIdentityMove (core : Nat)
  /-- CORE_SELF_TEST_DONE: 30 ms test ends. -/
  | coreSelfTestDone (p : Nat) (ok : Bool)
  /-- FENCED_CORE_RETEST: fenced core tested. -/
  | fencedCoreRetest (p : Nat) (ok : Bool)
  /-- CORE_WATCHDOG_TIMEOUT: core or die silent 1 ms. -/
  | coreWatchdogTimeout (die : Nat) (p : Option Nat)
  /-- MGMT_WATCHDOG_TIMEOUT: management core lost. -/
  | mgmtWatchdogTimeout (m : Nat)
  /-- ENGINE_INTERNAL_ERROR: engine, or 32 + x the data path of I/O die x, restarts. -/
  | engineInternalError (eng : Nat)
  /-- HBM_RETRAIN: controller retrains. -/
  | hbmRetrain (h : Nat)
  /-- FATAL_ENTER: FATAL. -/
  | fatalEnter (event : Nat)
  /-- DUMP_COPY_COMPLETE: copy done. -/
  | dumpCopyComplete
  /-- ERR_DUMP_CTL_WRITE: AUTO_RESTART and ADDR. -/
  | errDumpCtlWrite (v : DWord)
  /-- WARM_RESTART: warm restart. -/
  | warmRestart
  /-- RELEASE: dump released. -/
  | release
  /-- ERR_ERING_BASE_WRITE: error ring base. -/
  | errEringBaseWrite (v : DWord)
  /-- ERR_ERING_HEAD_WRITE: error ring head. -/
  | errEringHeadWrite (v : Word)
  /-- REGISTER_WRITE: register write; flags hardware sets in the same handshake. -/
  | registerWrite (a : RegAcc) (v : DWord) (hwSet : BitVec 8)
  /-- POWER_12V_APPLY: 12 V in range, straps. -/
  | power12vApply (mpos : BitVec 16) (smb : BitVec 2)
  /-- BOOT_IMAGE_VERIFIED: images verified. -/
  | bootImageVerified (okA : Bool) (okB : Bool)
  /-- MAIN_SWITCH_CLOSE: switch closes. -/
  | mainSwitchClose
  /-- HBM_TRAINING_DONE: stacks that trained. -/
  | hbmTrainingDone (ok : List Nat)
  /-- TIER_SELF_TEST_DONE: tier self-test. -/
  | tierSelfTestDone
  /-- PERST_DEASSERT: PERST. -/
  | perstDeassert (p : Nat)
  /-- READY: ready. -/
  | ready
  /-- MAIN_POWER_OFF: planned power-down. -/
  | mainPowerOff
  /-- MAIN_POWER_ON: power on. -/
  | mainPowerOn
  /-- BOARD_CAP_W_SET: board cap. -/
  | boardCapWSet (w : Nat)
  /-- PLDM_FIRMWARE_UPDATE: firmware recovered. -/
  | pldmFirmwareUpdate
  /-- JTAG_INSTRUCTION: TAP instruction. -/
  | jtagInstruction (t : Tap)
  /-- PROTECTION_STOP: protection stop. -/
  | protectionStop (event : Nat)
  /-- AUX_SUPPLY_LOSS: 12 V lost. -/
  | auxSupplyLoss
  /-- INPUT_48V_RETURN: 48 V in range again. -/
  | input48vReturn
  /-- FABRIC_REFCLK_LOSS: site reference lost. -/
  | fabricRefclkLoss (io : Nat)
  /-- VR_PHASE_FAILURE: phase fails; what the rest carries. -/
  | vrPhaseFailure (rail : Nat) (carry : Nat)
  /-- PCIE_LINK_UP: link up. -/
  | pcieLinkUp (p : Nat)
  /-- FABRIC_REFCLK_RETURN: site reference returns. -/
  | fabricRefclkReturn (io : Nat)
  /-- UNIT_RESTART_COMPLETE: unit restarts. -/
  | unitRestartComplete (u : Unit_)
  /-- PMI_REQ_TAIL_WRITE: requests handed over. -/
  | pmiReqTailWrite (fn : Nat) (v : Word)
  /-- RING_HEAD_WRITE: park (0), notify (1) or snapshot (2) ring head. -/
  | ringHeadWrite (fn : Nat) (ring : Nat) (v : Word)
  /-- REGISTER_READ_REFUSED: refused read. -/
  | registerReadRefused (a : RegAcc)
  deriving DecidableEq, Repr, Inhabited

end Sys2Proof
end

