-- ==== Sys2Proof/Config.lean ====
section
/-! DEFINITION. What the spec leaves open: constants without a body, so that no proof sees a value.
Each is applied to the plain counter `State.freeN`, or to the operands it depends on. -/
namespace Sys2Proof

/-- A value the spec does not fix (R174 within 1 ulp, R177 races, R239, R299). -/
opaque Config.freeValue : Nat → DWord
/-- A byte a racing read may return old or new (R239 R299). -/
opaque Config.freeByte : Nat → Byte
/-- The claim token Plowin draws for a context (R377). -/
opaque Config.token : Nat → DWord

/-- The voltage in mV at which a busy core quad draws its share of a die's budget, in W, under the load the governor
measures (R35; the spec gives no power of a voltage). -/
opaque Config.quadMv : Nat → Nat → Nat

/-- The set of a die's TLB that a page of a context lies in (R254 gives 8 ways and no index). -/
opaque Config.tlbSet : Nat → Nat → Nat
/-- The control-space page or host-window range is granted to the context: context, local address, bytes (R267; the spec does
not say how a grant is made). -/
opaque Config.granted : Nat → Nat → Nat → Bool

/-- Rails of the voltage regulators (R382 gives no number). -/
opaque Config.rails : Nat

end Sys2Proof
end

