-- ==== Sys2Proof/Machine/Num.lean ====
section
/-! DEFINITION. Number formats (ch. 04): exact values, decoding, rounding, conversion and the FP32 and
FP64 vector arithmetic (R78 to R107, R174). -/
namespace Sys2Proof.Machine

/-- A finite value (-1)^neg * m * 2^e. -/
structure Dy where
  neg : Bool := false
  m : Nat := 0
  e : Int := 0
  deriving DecidableEq, Repr, Inhabited

/-- A decoded element: NaN, a signed infinity or a finite value with a signed zero. -/
inductive FVal where
  | nan
  | inf (neg : Bool)
  | fin (d : Dy)
  deriving DecidableEq, Repr, Inhabited

/-- m * 2^k for an integer k; bits below the point are dropped. -/
def shl (m : Nat) (k : Int) : Nat := if 0 ≤ k then m * 2 ^ k.toNat else m / 2 ^ (-k).toNat

/-- floor(log2(|d|)) of a non-zero value. -/
def Dy.lg (d : Dy) : Int := (Nat.log2 d.m : Int) + d.e

/-- The signed integer of a value in units of 2^q, exact when q is at most its exponent. -/
def Dy.toInt (d : Dy) (q : Int) : Int := if d.neg then -(shl d.m (d.e - q) : Int) else (shl d.m (d.e - q) : Int)

def Dy.ofInt (i : Int) (q : Int) : Dy := { neg := decide (i < 0), m := i.natAbs, e := q }

/-- Exact sum; an exact zero is +0, or -0 when both are -0 (R107 gives the other modes). -/
def Dy.add (a b : Dy) : Dy :=
  let q := min a.e b.e
  let s := a.toInt q + b.toInt q
  if s = 0 then { neg := a.neg && b.neg && decide (a.m = 0) && decide (b.m = 0), m := 0, e := 0 } else Dy.ofInt s q

/-- Exact product. -/
def Dy.mul (a b : Dy) : Dy := { neg := xor a.neg b.neg, m := a.m * b.m, e := a.e + b.e }

/-- a < b as real numbers. -/
def Dy.lt (a b : Dy) : Bool := let q := min a.e b.e; decide (a.toInt q < b.toInt q)
def Dy.eqv (a b : Dy) : Bool := let q := min a.e b.e; decide (a.toInt q = b.toInt q)

/-- Round m * 2^e to a multiple of 2^q under a mode (R95 R96); `draw` is the 32-bit draw of SR. -/
def roundAt (mode : Rnd) (draw : Nat) (d : Dy) (q : Int) : Nat :=
  if q ≤ d.e then shl d.m (d.e - q)
  else
    let w := 2 ^ (q - d.e).toNat
    let lo := d.m / w
    let r := d.m % w
    let up : Bool := match mode with
      | .rne => decide (w < 2 * r) || (decide (2 * r = w) && decide (lo % 2 = 1))
      | .rtz => false
      | .rup => !d.neg && decide (r ≠ 0)
      | .rdn => d.neg && decide (r ≠ 0)
      | .sr => decide (r ≠ 0) && decide (draw * w < r * 2 ^ 32)
    if up then lo + 1 else lo

/-- A floating element format (R80): exponent and trailing bits, bias, and its special values:
0 neither infinity nor NaN, 1 as IEEE, 2 as E4M3. -/
structure Fmt where
  eb : Nat
  mb : Nat
  bias : Int
  spec : Nat
  deriving DecidableEq, Repr, Inhabited

/-- The floating format of a code (R78 R80). -/
def fmtOf (code : Nat) : Option Fmt :=
  match code with
  | 0x01 => some ⟨11, 52, 1023, 1⟩
  | 0x02 => some ⟨8, 23, 127, 1⟩
  | 0x03 => some ⟨5, 10, 15, 1⟩
  | 0x04 => some ⟨8, 7, 127, 1⟩
  | 0x05 | 0x08 => some ⟨4, 3, 7, 2⟩
  | 0x06 | 0x09 => some ⟨5, 2, 15, 1⟩
  | 0x0A => some ⟨2, 3, 1, 0⟩
  | 0x0B => some ⟨3, 2, 3, 0⟩
  | 0x0C => some ⟨2, 1, 1, 0⟩
  | _ => none

/-- Element width in bits (R94 R147). -/
def widthOf (code : Nat) : Nat :=
  match code with
  | 0x01 => 64 | 0x02 => 32 | 0x03 => 16 | 0x04 => 16
  | 0x05 => 8 | 0x06 => 8 | 0x08 => 8 | 0x09 => 8 | 0x0A => 6 | 0x0B => 6 | 0x0C => 4 | 0x0D => 8
  | 0x10 => 32 | 0x11 => 8 | 0x12 => 4 | _ => 0

/-- Two's complement value of the low w bits. -/
def sext (w x : Nat) : Int :=
  let y := x % 2 ^ w
  if 2 * y < 2 ^ w then (y : Int) else (y : Int) - 2 ^ w

/-- Value of sign, biased exponent field and trailing field in a format (R80 R89). -/
def decodeParts (f : Fmt) (neg : Bool) (ef mf : Nat) : FVal :=
  if f.spec = 1 && ef = 2 ^ f.eb - 1 then (if mf = 0 then .inf neg else .nan)
  else if f.spec = 2 && ef = 2 ^ f.eb - 1 && mf = 2 ^ f.mb - 1 then .nan
  else .fin { neg := neg, m := if ef = 0 then mf else 2 ^ f.mb + mf, e := (max ef 1 : Int) - f.bias - f.mb }

/-- Decode an element of a floating format (R80). -/
def decodeF (f : Fmt) (x : Nat) : FVal :=
  decodeParts f (x / 2 ^ (f.eb + f.mb) % 2 = 1) (x / 2 ^ f.mb % 2 ^ f.eb) (x % 2 ^ f.mb)

/-- Decode an element of any format with an element encoding (R80 R82 R83). -/
def decodeE (code x : Nat) : FVal :=
  match fmtOf code with
  | some f => decodeF f x
  | none =>
    if code = 0x0D then .fin (Dy.ofInt (sext 8 x) (-6))
    else .fin (Dy.ofInt (sext (widthOf code) x) 0)

/-- Largest finite value, as integer in units of its last place, and that place (R80). -/
def maxFin (f : Fmt) : Nat × Int :=
  let top : Nat := match f.spec with | 1 => 2 ^ f.eb - 2 | _ => 2 ^ f.eb - 1
  let mf : Nat := match f.spec with | 2 => 2 ^ f.mb - 2 | _ => 2 ^ f.mb - 1
  (2 ^ f.mb + mf, (top : Int) - f.bias - f.mb)

/-- Canonical NaN (R102, table of R100). -/
def canonNan (f : Fmt) : Nat :=
  match f.spec with
  | 1 => (2 ^ f.eb - 1) * 2 ^ f.mb + 2 ^ (f.mb - 1)
  | 2 => 0x7F
  | _ => 0

/-- Assemble sign, field and trailing bits from an integer k in units of 2^q. -/
def packF (f : Fmt) (neg : Bool) (k : Nat) (q : Int) : Nat :=
  let s := if neg then 2 ^ (f.eb + f.mb) else 0
  if k < 2 ^ f.mb then s + k
  else s + ((q + f.bias + f.mb).toNat) * 2 ^ f.mb + (k - 2 ^ f.mb)

/-- Round a finite non-zero value to a format: integer and place, renormalised. -/
def roundF (f : Fmt) (mode : Rnd) (draw : Nat) (d : Dy) : Nat × Int :=
  let q := max (d.lg - f.mb) (1 - f.bias - f.mb)
  let k := roundAt mode draw d q
  if k = 2 ^ (f.mb + 1) then (2 ^ f.mb, q + 1) else (k, q)

/-- Result of a conversion: bits, saturated, flushed (R100 R101). -/
structure Conv where
  bits : Nat := 0
  sat : Bool := false
  flush : Bool := false
  deriving DecidableEq, Repr, Inhabited

/-- Convert to a floating element format (R99 R100). Formats without infinity, and E5M2 on overflow,
saturate (`clip`); the IEEE formats follow the rounding mode. -/
def toF (f : Fmt) (clip : Bool) (mode : Rnd) (draw : Nat) (v : FVal) : Conv :=
  let sgn (n : Bool) : Nat := if n then 2 ^ (f.eb + f.mb) else 0
  let (mk, mq) := maxFin f
  let top (n : Bool) := packF f n mk mq
  let infB (n : Bool) := sgn n + (2 ^ f.eb - 1) * 2 ^ f.mb
  match v with
  | .nan => { bits := canonNan f }
  | .inf n => if f.spec = 1 then { bits := infB n } else { bits := top n, sat := true }
  | .fin d =>
    if d.m = 0 then { bits := sgn d.neg }
    else
      let (k, q) := roundF f mode draw d
      if k = 0 then { bits := sgn d.neg, flush := true }
      else if mq < q || (q = mq && mk < k) then
        if clip || f.spec ≠ 1 then { bits := top d.neg, sat := true }
        else
          let toInf : Bool := match mode with | .rne => true | .rtz => false | .rup => !d.neg | .rdn => d.neg | .sr => true
          { bits := if toInf then infB d.neg else top d.neg }
      else { bits := packF f d.neg k q }

/-- Convert to a two's complement integer of w bits in units of 2^q (R100). A non-zero number or an infinity that
becomes zero is flushed, saturated or not: under LI-1 every positive one (R101 R103; DEDUCED, notes/assumptions/63.md). -/
def toI (w : Nat) (q : Int) (mode : Rnd) (draw : Nat) (v : FVal) : Conv :=
  let hi : Int := 2 ^ (w - 1) - 1
  let lo : Int := -(2 ^ (w - 1))
  let enc (i : Int) : Nat := (i % 2 ^ w).toNat
  match v with
  | .nan => { bits := 0, sat := true }
  | .inf n => { bits := enc (if n then lo else hi), sat := true, flush := !n && decide (hi = 0) }
  | .fin d =>
    let k := roundAt mode draw d q
    let i : Int := if d.neg then -(k : Int) else k
    if hi < i then { bits := enc hi, sat := true, flush := decide (hi = 0) }
    else if i < lo then { bits := enc lo, sat := true }
    else { bits := enc i, flush := decide (d.m ≠ 0) && decide (k = 0) }

/-- Convert to a destination with an element encoding (R99 to R101). -/
def convTo (code : Nat) (mode : Rnd) (draw : Nat) (v : FVal) : Conv :=
  match fmtOf code with
  | some f => toF f (decide (5 ≤ code)) mode draw v
  | none => if code = 0x0D then toI 8 (-6) mode draw v else toI (widthOf code) 0 mode draw v

def f32 : Fmt := ⟨8, 23, 127, 1⟩
def f64 : Fmt := ⟨11, 52, 1023, 1⟩

/-- Sign of a value. -/
def FVal.neg : FVal → Bool
  | .nan => false | .inf n => n | .fin d => d.neg
def FVal.isZero : FVal → Bool
  | .fin d => d.m = 0 | _ => false

/-- Sum under a mode; zeros of opposite sign give +0, -0 under RDN (R107). -/
def fAdd (mode : Rnd) : FVal → FVal → FVal
  | .nan, _ => .nan
  | _, .nan => .nan
  | .inf a, .inf b => if a = b then .inf a else .nan
  | .inf a, .fin _ => .inf a
  | .fin _, .inf b => .inf b
  | .fin a, .fin b =>
    let s := a.add b
    if s.m = 0 && !(a.m = 0 && b.m = 0 && a.neg = b.neg) then .fin { neg := decide (mode = .rdn), m := 0, e := 0 }
    else .fin s

/-- Exact product. -/
def fMul : FVal → FVal → FVal
  | .nan, _ => .nan
  | _, .nan => .nan
  | .inf a, .inf b => .inf (xor a b)
  | .inf a, .fin d => if d.m = 0 then .nan else .inf (xor a d.neg)
  | .fin d, .inf b => if d.m = 0 then .nan else .inf (xor d.neg b)
  | .fin a, .fin b => .fin (a.mul b)

/-- IEEE comparison (R174): unordered satisfies only NE and UN. -/
def fCmp (c : Cond) (a b : FVal) : Bool :=
  let lt : FVal → FVal → Bool := fun
    | .inf n, .inf m => n && !m
    | .inf n, .fin _ => n
    | .fin _, .inf m => !m
    | .fin x, .fin y => x.lt y
    | _, _ => false
  match a, b with
  | .nan, _ => c = .un || c = .ne
  | _, .nan => c = .un || c = .ne
  | a, b =>
    match c with
    | .eq => !lt a b && !lt b a
    | .ne => lt a b || lt b a
    | .lt => lt a b
    | .le => !lt b a
    | .gt => lt b a
    | .ge => !lt a b
    | .un => false

/-- Maximum and minimum of R107; `prop` is the NaN-propagating form. -/
def fMaxMin (isMax prop : Bool) (a b : FVal) : FVal :=
  match a, b with
  | .nan, .nan => .nan
  | .nan, x => if prop then .nan else x
  | x, .nan => if prop then .nan else x
  | a, b =>
    if a.isZero && b.isZero then (if isMax then (if a.neg then b else a) else (if a.neg then a else b))
    else if fCmp .lt a b then (if isMax then b else a) else (if isMax then a else b)

def enc32 (mode : Rnd) (v : FVal) : Word := BitVec.ofNat 32 (toF f32 false mode 0 v).bits
def dec32 (w : Word) : FVal := decodeF f32 w.toNat
def enc64 (mode : Rnd) (v : FVal) : DWord := BitVec.ofNat 64 (toF f64 false mode 0 v).bits
def dec64 (w : DWord) : FVal := decodeF f64 w.toNat

/-- Integer square root by binary digits, from bit `k` down. -/
def isqrtGo (n : Nat) : Nat → Nat → Nat
  | 0, r => r
  | k + 1, r => let t := r + 2 ^ k; if t * t ≤ n then isqrtGo n k t else isqrtGo n k r
def isqrt (n : Nat) : Nat := isqrtGo n (Nat.log2 n / 2 + 1) 0

/-- Correctly rounded reciprocal (R174). -/
def fRecip : FVal → FVal
  | .nan => .nan
  | .inf n => .fin { neg := n, m := 0, e := 0 }
  | .fin d =>
    if d.m = 0 then .inf d.neg
    else
      let k := Nat.log2 d.m + 64
      let q := 2 ^ k / d.m
      .fin { neg := d.neg, m := 2 * q + (if 2 ^ k % d.m = 0 then 0 else 1), e := -(k : Int) - 1 - d.e }

/-- Correctly rounded reciprocal square root (R174); a negative operand gives NaN, a zero an infinity of
its sign. -/
def fRsqrt : FVal → FVal
  | .nan => .nan
  | .inf n => if n then .nan else .fin {}
  | .fin d =>
    if d.m = 0 then .inf d.neg
    else if d.neg then .nan
    else
      -- 1/sqrt(m 2^e) with e made even: m' 2^(2h)
      let (m, h) : Nat × Int := if d.e % 2 = 0 then (d.m, d.e / 2) else (2 * d.m, (d.e - 1) / 2)
      let k := 2 * (Nat.log2 m + 64)
      let n := 2 ^ (2 * k) / m
      let r := isqrt n
      let exact := decide (r * r = n) && decide (2 ^ (2 * k) % m = 0)
      .fin { neg := false, m := 2 * r + (if exact then 0 else 1), e := -(k : Int) - 1 - h }

/-! ### Special functions within 1 ulp: the exact value is bracketed in fixed point -/

/-- Fraction bits of the fixed-point work. -/
def fxK : Nat := 480

/-- Product of the 2^-i-th roots of 2 named by the fraction's bits, most significant first. -/
def exp2Go (frac : Nat) : Nat → Nat → Nat → Nat
  | 0, _, acc => acc
  | n + 1, root, acc =>
    let root' := isqrt (root * 2 ^ fxK)
    let bit := frac / 2 ^ n % 2
    exp2Go frac n root' (if bit = 1 then acc * root' / 2 ^ fxK else acc)

/-- 2^x as fixed-point mantissa and exponent. -/
def fxExp2 (d : Dy) : Dy :=
  let i := d.toInt (-(160 : Int))
  let ip := Int.fdiv i (2 ^ 160)
  let fr := (i - ip * 2 ^ 160).toNat
  { neg := false, m := exp2Go fr 160 (2 ^ (fxK + 1)) (2 ^ fxK), e := ip - fxK }

def log2Go : Nat → Nat → Nat → Nat
  | 0, _, acc => acc
  | n + 1, z, acc =>
    let z2 := z * z / 2 ^ fxK
    if 2 ^ (fxK + 1) ≤ z2 then log2Go n (z2 / 2) (2 * acc + 1) else log2Go n z2 (2 * acc)

/-- log2 of a positive value, 120 fraction bits. -/
def fxLog2 (d : Dy) : Dy :=
  let fr := log2Go 120 (d.m * 2 ^ fxK / 2 ^ (Nat.log2 d.m)) 0
  Dy.ofInt (d.lg * 2 ^ 120 + fr) (-120)

/-- Arctangent series of 1/x in fixed point. -/
def atanGo (x2 : Nat) : Nat → Nat → Nat → Int → Int
  | 0, _, _, acc => acc
  | n + 1, t, j, acc =>
    let term : Int := t / (2 * j + 1)
    atanGo x2 n (t / x2) (j + 1) (if j % 2 = 0 then acc + term else acc - term)

/-- 2 pi in fixed point with 160 more bits (Machin). -/
def fxTwoPi : Nat :=
  let one := 2 ^ (fxK + 160)
  (8 * (4 * atanGo 25 300 (one / 5) 0 0 - atanGo (239 * 239) 300 (one / 239) 0 0)).toNat

/-- Alternating series of sine (j0 = 1) or cosine (j0 = 0): terms x^j / j!. -/
def trigGo (x2 : Nat) : Nat → Nat → Nat → Bool → Int → Int
  | 0, _, _, _, acc => acc
  | n + 1, t, j, minus, acc =>
    trigGo x2 n (t * x2 / 2 ^ fxK / ((j + 1) * (j + 2))) (j + 2) (!minus) (if minus then acc - t else acc + t)

/-- Sine or cosine of a finite value. -/
def fxTrig (cosine : Bool) (d : Dy) : Dy :=
  let x : Nat := shl d.m (d.e + fxK + 160)
  let r := x % fxTwoPi / 2 ^ 160
  let s := if cosine then trigGo (r * r / 2 ^ fxK) 140 (2 ^ fxK) 0 false 0
           else trigGo (r * r / 2 ^ fxK) 140 r 1 false 0
  Dy.ofInt (if d.neg && !cosine then -s else s) (-(fxK : Int))

/-- An FP32 value within 1 ulp of the exact one: one of the two neighbours, or of an exact value itself
and its neighbours, chosen by the free value. -/
def within1 (free : DWord) (d : Dy) : Word :=
  if d.m = 0 then 0
  else
    let lo := (toF f32 false .rtz 0 (.fin d)).bits
    let exact : Bool := match decodeF f32 lo with | .fin x => x.eqv d | _ => false
    let pick := free.toNat % 3
    let r := if exact then (if pick = 0 then lo else if pick = 1 then lo + 1 else lo - 1)
             else if pick % 2 = 0 then lo else lo + 1
    BitVec.ofNat 32 r

/-- F32.EXP2, LOG2, SIN, COS (R174), with the special operands of IEEE 754-2019 (R102). -/
def f32Exp2 (free : DWord) (x : Word) : Word :=
  match dec32 x with
  | .nan => 0x7FC00000
  | .inf n => if n then 0 else 0x7F800000
  | .fin d =>
    if d.m = 0 then within1 free { m := 1 }
    else if !d.neg && decide (7 ≤ d.lg) then 0x7F800000
    else if d.neg && decide (8 ≤ d.lg) then within1 free { m := 1, e := -200 }
    else within1 free (fxExp2 d)

def f32Log2 (free : DWord) (x : Word) : Word :=
  match dec32 x with
  | .nan => 0x7FC00000
  | .inf n => if n then 0x7FC00000 else 0x7F800000
  | .fin d => if d.m = 0 then 0xFF800000 else if d.neg then 0x7FC00000 else within1 free (fxLog2 d)

def f32Trig (cosine : Bool) (free : DWord) (x : Word) : Word :=
  match dec32 x with
  | .nan => 0x7FC00000
  | .inf _ => 0x7FC00000
  | .fin d => if d.m = 0 then (if cosine then within1 free { m := 1 } else x) else within1 free (fxTrig cosine d)

/-! ### Stochastic rounding (R97) and block scales (R103) -/

/-- One step of the xorshift generator. -/
def xs (s : Word) : Word :=
  let a := s ^^^ (s <<< 13)
  let b := a ^^^ (a >>> 17)
  b ^^^ (b <<< 5)

def srStart (seed : Word) (va : Nat) : Word :=
  let s := seed ^^^ BitVec.ofNat 32 va ^^^ (BitVec.ofNat 32 (va / 2 ^ 32 % 2 ^ 20) <<< 12)
  let s := if s = 0 then 1 else s
  xs (xs (xs (xs s)))

/-- emax of an element format (R103). -/
def emaxOf (code : Nat) : Int :=
  match code with
  | 0x08 => 8 | 0x09 => 15 | 0x0A => 2 | 0x0B => 4 | 0x0C => 2 | 0x0D => 0
  | 0x30 => 0 | 0x40 => 2 | 0x41 => 4 | 0x42 => 8
  | _ => if 0x20 ≤ code && code ≤ 0x2F then (code : Int) - 0x20 + 1 - 2 else 0

/-- The scale byte of 32 values (R103). -/
def scaleByte (emax : Int) (v : List FVal) : Nat :=
  if v.any (· == .nan) then 0xFF
  else
    let lgs := v.filterMap fun | .fin d => if d.m = 0 then none else some d.lg | _ => none
    match lgs with
    | [] => 0
    | x :: xs =>
      let x := xs.foldl max x - emax
      (min (max x (-127)) 127 + 127).toNat

end Sys2Proof.Machine
end

