-- ==== Sys2Proof/Machine/State.lean ====
section
/-! DEFINITION. The state of the device: plain data, every field at its reset value by default. Each
field's comment gives its width, the file and rule of the spec that name it, and its reset value. -/
namespace Sys2Proof.Machine

/-- Why a step faults. No command of this device stops the machine with a fault: what the spec calls
an error is an error record, a status or a park, all of which are next states. -/
inductive Fault where
  /-- Raised by no command; it keeps the type inhabited. Safe. -/
  | none_
  deriving DecidableEq, Repr

/-- Why a command is refused. -/
inductive Refusal where
  /-- Raised by an arm of the dispatcher whose command has no meaning yet. Safe: nothing is claimed of it. -/
  | notModelled (mnemonic : String)
  deriving DecidableEq, Repr

/-- where a group stands (R150 R152 R178 R332). -/
inductive GStage where
  | empty
  | starting
  | running
  | parked
  deriving DecidableEq, Repr, Inhabited

/-- why a stop is requested (ch.13 Preemption). -/
inductive StopWhy where
  | displaced
  | swap
  | removal
  | orphan
  deriving DecidableEq, Repr, Inhabited

/-- state of a core quad (R27 R40). -/
inductive QMode where
  | off
  | retention
  | operating
  | dropping
  | ramping
  | waking
  deriving DecidableEq, Repr, Inhabited

/-- state of a tier way (R188). -/
inductive WayState where
  | cache
  | pinned
  | off
  deriving DecidableEq, Repr, Inhabited

/-- L1 line state (R234; I = not listed). -/
inductive Mesi where
  | M
  | E
  | S
  deriving DecidableEq, Repr, Inhabited

/-- fabric port state (R339). -/
inductive PortSt where
  | down
  | training
  | up
  | upDegraded
  deriving DecidableEq, Repr, Inhabited

/-- fence state (R283). -/
inductive FenceSt where
  | unsignalled
  | signalled
  | abandoned
  deriving DecidableEq, Repr, Inhabited

/-- MODULE_STATE (R405). -/
inductive ModSt where
  | boot
  | standby
  | starting
  | ready
  | protect
  | fatal
  deriving DecidableEq, Repr, Inhabited

/-- stage of an engine packet. -/
inductive PktStage where
  | waiting
  | running
  | done
  deriving DecidableEq, Repr, Inhabited

/-- use of a window entry. -/
inductive WUse where
  | reg
  | load
  | mma
  deriving DecidableEq, Repr, Inhabited

/-- who registered a wait (R274 R280-R282). -/
inductive WaitWho where
  | core
  | engine
  | watch
  | remote
  deriving DecidableEq, Repr, Inhabited

/-- a thread's reservation (R229). -/
structure Resv where
  /-- 48; 09 R229; address of the 128 B line. -/
  line : Nat := 0
  /-- 1; 09 R229; held at the home slice (else in the L1). -/
  atHome : Bool := false
  deriving DecidableEq, Repr, Inhabited

/-- a counter operation of one thread in flight, or its latched result (R276 R287). -/
structure SyncOp where
  /-- 8; 11 R275; register of the result code. -/
  dst : Nat := 255
  /-- 8; 11 R275; even register of READ. -/
  rd : Nat := 255
  /-- count; 11 R275; the issue of the group in which its set made it. -/
  set : Nat := 0
  /-- 1; 11 R276; released. -/
  fin : Bool := false
  /-- 8; 11 R276; result code. -/
  code : Nat := 0
  /-- 64; 11 R275; counter value read. -/
  value : DWord := 0
  deriving DecidableEq, Repr, Inhabited

/-- one thread (lane) of a group (R150 R165). -/
structure Thread where
  /-- 1; 07 R165; 0 at group start. -/
  exited : Bool := false
  /-- 64; 07 R165; ENTRY at group start (R297). -/
  pc : Nat := 0
  /-- 255x32; 07 registers R152; every vector register 0 at group start. -/
  v : Tbl Word := []
  /-- 8; 07 registers R152; predicates p0-p7, 0 at group start. -/
  p : BitVec 8 := 0
  /-- count; 07 R173; GSYNC arrival count. -/
  arrive : Nat := 0
  /-- 32; 07 R173; mask of the GSYNC the thread waits in. -/
  gsync : Option Word := none
  /-- -; 09 R229; the reservation, none at start. -/
  resv : Option Resv := none
  /-- -; 11 R276; the counter operation the thread waits for. -/
  sync : Option SyncOp := none
  /-- 16; 13 R329; held at the cut point of this index. -/
  cut : Option Nat := none
  deriving DecidableEq, Repr, Inhabited

/-- one register write that a squash takes back (R164). -/
structure Undo where
  /-- 6; 07 R164; lane, 32 for a uniform register. -/
  lane : Nat := 0
  /-- 9; 07 R164; register; 256 predicates, 257 arrival count. -/
  reg : Nat := 0
  /-- 32; 07 R164; content before. -/
  old : Word := 0
  /-- count; 07 R164; of a uniform register, the instruction that had written it. -/
  prev : Nat := 0
  deriving DecidableEq, Repr, Inhabited

/-- the accesses of a pending load (R162 R218). -/
structure Ld where
  /-- 32; 07 R170; participating threads. -/
  part : Word := 0
  /-- 32x64; 07 R162; address per lane. -/
  va : Tbl DWord := []
  /-- 1 2 4 8; 09 R217; bytes. -/
  size : Nat := 4
  /-- 8; 07 R175; destination. -/
  dst : Nat := 255
  /-- 1; 09 R229; LD.RSV. -/
  rsv : Bool := false
  /-- -; 14 R348; lines received from other devices, key full address / 128. -/
  got : Tbl (List Byte) := []
  /-- -; 14 R350; status of lines another device refused or did not send. -/
  bad : Tbl Nat := []
  /-- -; 09 R219; bytes of the lanes whose load has been performed. -/
  done : Tbl (Option (List Byte)) := []
  deriving DecidableEq, Repr, Inhabited

/-- an unretired instruction (R162). -/
structure Win where
  /-- count; 07 R162; issue order. -/
  id : Nat := 0
  /-- 32; 07 R162; threads of its set that hold it. -/
  lanes : Word := 0
  /-- 32; 07 R179; the issuing set. -/
  setm : Word := 0
  /-- 64; 07 R164; its address. -/
  pc : Nat := 0
  /-- -; 07 R162; register only, load or MMA. -/
  use : WUse := .reg
  /-- 1; 07 R162; its results are final. -/
  fin : Bool := false
  /-- -; 07 R162; of a load. -/
  ld : Ld := {}
  /-- -; 07 R164; what a squash restores. -/
  undo : List Undo := []
  /-- -; 06 R128; program result that a TSEQ.WAIT has returned: status, tile index. -/
  popped : Option (Nat × Nat) := none
  deriving DecidableEq, Repr, Inhabited

/-- a set held at a join address (R167). -/
structure Hold where
  /-- 32; 07 R167; held threads. -/
  lanes : Word := 0
  /-- 32; 07 R167; threads that diverged at the same branch. -/
  mates : Word := 0
  /-- 64; 07 R167; join address. -/
  addr : Nat := 0
  /-- count; 07 R167; group issue count at the set's last issue. -/
  since : Nat := 0
  deriving DecidableEq, Repr, Inhabited

/-- what the choice among ready sets goes by (R151 R166 R168). -/
structure Sched where
  /-- count; 07 R151; core issue number of the group's last issue; 0 none. -/
  last : Nat := 0
  /-- 64; 07 R166; address of the last instruction issued. -/
  at_ : Nat := 0
  /-- 32; 07 R166; the set whose turn it is; 0 none. -/
  turn : Word := 0
  /-- 2; 07 R166; its consecutive issues. -/
  turnN : Nat := 0
  /-- 32x6; 07 R168; per thread, issues of the group since its set's last issue or its unblocking. -/
  waits : Tbl Nat := []
  deriving DecidableEq, Repr, Inhabited

/-- a divergence whose join is not yet reached (R167). -/
structure Br where
  /-- count; 07 R164; issue number of the branch. -/
  id : Nat := 0
  /-- 32; 07 R167; threads of the branch. -/
  lanes : Word := 0
  /-- 64; 07 R167; join address. -/
  addr : Nat := 0
  deriving DecidableEq, Repr, Inhabited

/-- a pending stop (R329). -/
structure Stop where
  /-- -; 13 R329; reason. -/
  why : StopWhy := .displaced
  /-- 64; 13 R329; device time of the request. -/
  since : Nat := 0
  deriving DecidableEq, Repr, Inhabited

/-- a park (R178-R181). -/
structure Park where
  /-- 8; 07 R178; cause code. -/
  cause : Nat := 0
  /-- 8; 07 R178; ILLEGAL detail. -/
  detail : Nat := 0
  /-- 8; 06 R129; tile refusal reason. -/
  reason : Nat := 0
  /-- 8; 07 R179; 0 HOLD, 1 ABANDON, 2 in-flight rules. -/
  policy : Nat := 0
  /-- 64; 07 R179; faulting instruction. -/
  pc : Nat := 0
  /-- 32; 07 R179; THREAD_MASK. -/
  threads : Word := 0
  /-- 32; 07 R164; threads left at the faulting instruction. -/
  lanes : Word := 0
  /-- 32; 07 R179; SET_MASK. -/
  setm : Word := 0
  /-- 64; 07 R179; ADDRESS. -/
  addr : DWord := 0
  /-- 32 each; 10 R260; undecided fault records of a page-fault park. -/
  seqs : List Nat := []
  /-- -; 10 R260; faulting pages of the instruction: address, reason, permission, ACCESS. -/
  pages : List (Nat × Nat × Nat × Nat) := []
  deriving DecidableEq, Repr, Inhabited

/-- saved registers, local store and banks (R332 R389). -/
structure Snap where
  /-- -; 16 R389; bytes of its checkpoint slot. -/
  bytes : Nat := 0
  /-- -; 13 R332; threads. -/
  th : Tbl Thread := []
  /-- 64x32; 13 R332; uniform registers. -/
  u : Tbl Word := []
  /-- -; 13 R332; local store (live part). -/
  ls : Tbl Byte := []
  /-- 2048x32; 13 R332; bank 0. -/
  acc0 : Tbl Word := []
  /-- 2048x32; 13 R332; bank 1. -/
  acc1 : Tbl Word := []
  deriving DecidableEq, Repr, Inhabited

/-- a halo region being sent (R143). -/
structure HaloSend where
  /-- 2; 06 R143; entry index. -/
  entry : Nat := 0
  /-- 10; 06 R142; logical neighbour. -/
  dest : Nat := 0
  /-- 32; 06 R142; TAG. -/
  tag : Nat := 0
  /-- <=128 KiB; 06 R143; the send buffer. -/
  bytes : List Byte := []
  /-- 1; 06 R143; placed; the acknowledgement is on its way. -/
  placed : Bool := false
  /-- 1; 06 R143; placement acknowledged. -/
  acked : Bool := false
  deriving DecidableEq, Repr, Inhabited

/-- a panel that the sequencer keeps: the blocks of a row block of P or the tiles of a column group of Q (R135). -/
structure Pan where
  /-- 1; 06 R135; of Q. -/
  q : Bool := false
  /-- count; 06 R135; its row block, or its first column. -/
  pos : Nat := 0
  /-- count; 06 R138; live rows, or live columns. -/
  live : Nat := 0
  /-- 32; 06 R138; K extent. -/
  k : Nat := 0
  /-- count; 06 R135; last tile that reads it. -/
  tile : Nat := 0
  /-- -; 06 R135; blocks or tiles. -/
  data : List (List Byte) := []
  /-- -; 05 R110; detail-bitmap bit per block. -/
  elig : List Bool := []
  deriving DecidableEq, Repr, Inhabited

/-- a pass of a tile program, fetched or being run (R134 R145). -/
structure PassBuf where
  /-- count; 06 R134; tile in run order. -/
  tile : Nat := 0
  /-- count; 06 R134; pass of the tile. -/
  pass : Nat := 0
  /-- 1; 06 R134; bank in SINGLE mode, once started. -/
  bank : Bool := false
  /-- 3x32; 06 R138; extents latched for the tile. -/
  ext : Nat × Nat × Nat := (0,0,0)
  /-- -; 06 R135; plane blocks fetched. -/
  pbuf : List (List Byte) := []
  /-- -; 06 R135; Q tiles fetched. -/
  qbuf : List (List Byte) := []
  /-- -; 05 R110; detail-bitmap bit per block. -/
  elig : List Bool := []
  /-- -; 06 R145; rows of an ADD or SUB destination in virtual memory: address, bytes, poisoned offsets. -/
  cbuf : List (Nat × List Byte × List Nat) := []
  /-- bytes; 06 R136; operand-buffer space that its own fetches take. -/
  own : Nat := 0
  deriving DecidableEq, Repr, Inhabited

/-- a tile program of the sequencer (R127-R149). -/
structure Prog where
  /-- 256 B; 06 R127; the copied descriptor. -/
  desc : List Byte := []
  /-- 64; 07 R165; address of its TSEQ.START. -/
  pc : Nat := 0
  /-- 1; 06 R127; running. -/
  started : Bool := false
  /-- 64; 06 R144; device time of its start. -/
  startAt : Nat := 0
  /-- count; 06 R134; tile of the next pass to start. -/
  tile : Nat := 0
  /-- count; 06 R134; next pass of that tile. -/
  pass : Nat := 0
  /-- 1; 06 R134; bank of the next pass in SINGLE mode. -/
  bank : Bool := false
  /-- 3x32; 06 R138; extents of the tile whose first pass has started. -/
  tileExt : Option (Nat × Nat × Nat) := none
  /-- -; 06 R135; panels kept. -/
  panel : List Pan := []
  /-- 1; 06 R139; its last pass was stored when the extents changed; the new ones reopen no tile. -/
  ended : Bool := false
  /-- -; 06 R145; passes fetched and not started, in order. -/
  buf : List PassBuf := []
  /-- -; 06 R134; passes started and not stored, in order. -/
  flight : List PassBuf := []
  /-- 4; 06 R143; halo entries placed. -/
  placed : List Nat := []
  /-- 4; 06 R143; regions sent. -/
  sends : List HaloSend := []
  /-- -; 06 R128; what a fetch met: status, tile, pass, address, length. -/
  fetchBad : Option (Nat × Nat × Nat × Nat × Nat) := none
  /-- -; 06 R128; status of a halo entry and the first tile that needs it. -/
  haloBad : Option (Nat × Nat) := none
  /-- -; 06 R148; first tile with a poisoned store granule, address, length. -/
  storeBad : Option (Nat × Nat × Nat) := none
  /-- 4x32; 05 R122; clip record of the tile in progress. -/
  clips : Nat × Nat × Nat × Nat := (0,0,0,0)
  /-- -; 06 R145; lines received from other devices, key full address / 128. -/
  got : Tbl (List Byte) := []
  /-- -; 14 R350; status of lines another device refused or did not send. -/
  bad : Tbl Nat := []
  deriving DecidableEq, Repr, Inhabited

/-- a run of a K-group in the array's pipeline: being fed, or fed and not yet updated (R49 R65 R113). -/
structure Run where
  /-- 11; 03 R65; K-group. -/
  g : Nat := 0
  /-- 1; 05 R113; a retake run: the detail planes of the block. -/
  retake : Bool := false
  /-- -; 05 R114; detail planes fetched late. -/
  detail : List Byte := []
  /-- count; 03 R65; plane steps folded. -/
  step : Nat := 0
  /-- 4096; 03 R49; the shift-accumulator's running sum, key 64 row + column; 0 before the first plane step. -/
  sums : Tbl Int := []
  deriving DecidableEq, Repr, Inhabited

/-- one buffer of the word latch (R51 R71). -/
structure Latch where
  /-- 256x12; 03 R51; lanes, key 32 k + column; none given (DESIGN CHOICE 0). -/
  lanes : Tbl (BitVec 12) := []
  /-- 8x17; 03 R71; Qsum(k). -/
  qsum : Tbl Int := []
  deriving DecidableEq, Repr, Inhabited

/-- a queued MMA or K-loop (R62 R63). -/
structure Mma where
  /-- 6; 03 R58; holder slot. -/
  owner : Nat := 0
  /-- count; 07 R183; window entry of the MMA (0 for a K-loop). -/
  winId : Nat := 0
  /-- 1; 06; fed by the tile sequencer. -/
  kloop : Bool := false
  /-- 8; 04 R78; P format. -/
  pfmt : Nat := 0
  /-- 8; 04 R78; Q format. -/
  qfmt : Nat := 0
  /-- 2; 03 R54; 0 FP32, 1 FP64, 2 INT32. -/
  accT : Nat := 0
  /-- 1; 03 R56; bank in SINGLE mode. -/
  bank : Bool := false
  /-- 1; 03; zero start. -/
  zero : Bool := false
  /-- 2; 05 R110; 0 off, 1 static, 2 bounded. -/
  retake : Nat := 0
  /-- 5; 05 R112; fraction exponent. -/
  rn : Nat := 8
  /-- 7; 05 R113; RETAKE_LAG. -/
  lag : Nat := 0
  /-- 1; 05 R114; LATE fetch. -/
  late : Bool := false
  /-- 11; 03 R62; K-groups. -/
  g : Nat := 1
  /-- -; 04 R87; plane blocks. -/
  blocks : List (List Byte) := []
  /-- -; 04 R94; Q tiles. -/
  tiles : List (List Byte) := []
  /-- -; 05 R110; bitmap bit per block (K-loops). -/
  elig : List Bool := []
  /-- -; 06 R138; masks (rows, columns, K) of the pass. -/
  live : Option (Nat × Nat × Nat) := none
  /-- count; 03 R65; base K-groups updated. -/
  nextG : Nat := 0
  /-- -; 03 R65; runs fed or being fed whose update has not been made, oldest first. -/
  runs : List Run := []
  /-- -; 05 R113; blocks whose retake run is owed. -/
  due : List Nat := []
  /-- -; 05 R113; retake runs updated. -/
  ran : List Nat := []
  /-- -; 05 R114; detail planes fetched after the test, by block. -/
  dbuf : Tbl (List Byte) := []
  /-- 2048x32; 07 R183; shadow bank 0. -/
  a0 : Tbl Word := []
  /-- 2048x32; 07 R183; shadow bank 1. -/
  a1 : Tbl Word := []
  /-- 1; 03 R57; shadow SAT of bank 0. -/
  s0 : Bool := false
  /-- 1; 03 R57; shadow SAT of bank 1. -/
  s1 : Bool := false
  /-- count; 03 R72-R74; failures of the plane step in check: 1 fed again, 2 fed again after a spare switch. -/
  fails : Nat := 0
  /-- 1; 03 R63; last update made. -/
  fin : Bool := false
  deriving DecidableEq, Repr, Inhabited

/-- light-meter counters (R124 R125). -/
structure LmBins where
  /-- 68x32; 05 R125; 64 exponent bins, ZERO SUBNORMAL INFINITY NAN at 64-67. -/
  bin : Tbl Word := []
  /-- 64; 05 R125; elements binned. -/
  elements : DWord := 0
  /-- 64; 05 R125; saturated. -/
  saturated : DWord := 0
  /-- 64; 05 R125; flushed. -/
  flushed : DWord := 0
  /-- 64; 05 R125; retake runs. -/
  retakes : DWord := 0
  /-- 64; 05 R125; bounded tests. -/
  tests : DWord := 0
  /-- 1; 05 R125; BIN_SATURATED. -/
  sat : Bool := false
  deriving DecidableEq, Repr, Inhabited

/-- holder state carried by a saved group (R332). -/
structure ArrSave where
  /-- 2048x32; 13 R332; bank 0. -/
  acc0 : Tbl Word := []
  /-- 2048x32; 13 R332; bank 1. -/
  acc1 : Tbl Word := []
  /-- 1; 03 R57; SAT of bank 0. -/
  sat0 : Bool := false
  /-- 1; 03 R57; SAT of bank 1. -/
  sat1 : Bool := false
  /-- 5; 13 R332; retake fraction. -/
  rn : Nat := 8
  /-- 3x32; 13 R332; extents. -/
  ext : Nat × Nat × Nat := (0xFFFFFFFF,0xFFFFFFFF,0xFFFFFFFF)
  /-- 2; 13 R332; sequencer position and send buffers. -/
  progs : List Prog := []
  /-- -; 06 R128; unwaited status and tile index. -/
  doneProgs : List (Nat × Nat) := []
  deriving DecidableEq, Repr, Inhabited

/-- remote-wait record (R331). -/
structure RWait where
  /-- 8; 13 R331; 0 remote load, 1 REMOTE_WAIT. -/
  type : Nat := 0
  /-- 8; 13 R331; pending, satisfied, timed out, abandoned. -/
  state : Nat := 0
  /-- 16; 13 R331; DEVICE. -/
  device : Nat := 0
  /-- 16; 13 R331; DCONTEXT. -/
  dctx : Nat := 0
  /-- 8; 13 R331; COND. -/
  cond : Nat := 0
  /-- 64; 13 R331; VALUE. -/
  value : DWord := 0
  /-- 32; 13 R331; ID. -/
  id : Word := 0
  /-- 64; 13 R331; DEADLINE. -/
  deadline : Nat := 0
  /-- 8; 13 R331; latched result code. -/
  lcode : Nat := 0
  /-- 64; 13 R331; latched counter value. -/
  lval : DWord := 0
  /-- 64; 07 R165; address of the load. -/
  pc : Nat := 0
  /-- 32; 13 R331; the threads of its set. -/
  lanes : Word := 0
  deriving DecidableEq, Repr, Inhabited

/-- a thread group: slot of a logical core, or a saved group (R150). -/
structure Group where
  /-- -; 07 R150; no group. -/
  stage : GStage := .empty
  /-- 10; 07 R150; its logical core. -/
  lcore : Nat := 0
  /-- 6; 07 R150; its slot. -/
  slot : Nat := 0
  /-- 12; 10 R265; context. -/
  ctx : Nat := 0
  /-- 8; 10 R265; generation it runs under. -/
  gen : BitVec 8 := 0
  /-- -; 12 R297; key of its LAUNCH. -/
  launch : Nat := 0
  /-- 32; 12 R297; group ID. -/
  gid : Nat := 0
  /-- 8; 07 R153; declared vector registers. -/
  vregs : Nat := 0
  /-- 20; 07 R160; rounded local-store bytes. -/
  lsSize : Nat := 0
  /-- 64x32; 07 registers R152; uniform registers, 0 at group start. -/
  u : Tbl Word := []
  /-- 64; 07 R164; per uniform register, the issue number of its last writer. -/
  uw : Tbl Nat := []
  /-- 32 threads; 07 R150; lanes. -/
  th : Tbl Thread := []
  /-- -; 07 R152 R160; local-store allocation, 0 at group start. -/
  ls : Tbl Byte := []
  /-- <=32; 07 R162; unretired instructions, oldest first. -/
  win : List Win := []
  /-- count; 07 R167; issues of the group. -/
  issues : Nat := 0
  /-- -; 07 R151 R166 R168; choice among ready sets. -/
  sched : Sched := {}
  /-- count; 07 R162; next issue number. -/
  nextId : Nat := 1
  /-- -; 07 R167; open divergences. -/
  brs : List Br := []
  /-- -; 07 R167; join holds. -/
  holds : List Hold := []
  /-- -; 13 R329; pending stop. -/
  stop : Option Stop := none
  /-- -; 07 R178; its park. -/
  park : Option Park := none
  /-- -; 07 R164; faulting instructions whose park record is not yet written. -/
  faults : List Park := []
  /-- 64; 13 R323; device time of its start. -/
  started : Nat := 0
  /-- 8; 08 R209; failure status it is marked with. -/
  failed : Option Nat := none
  /-- 64; 13 R323; device time since which the array blocks it. -/
  arrBlock : Option Nat := none
  /-- -; 13 R332; holder state while saved. -/
  arr : Option ArrSave := none
  /-- -; 13 R331; remote-wait record of a saved group. -/
  rwait : Option RWait := none
  /-- 64; 13 R318; device time of its save. -/
  savedAt : Nat := 0
  /-- -; 13 R332; granules of its save. -/
  saveN : Nat := 0
  /-- -; 13 R332; the granules of the save, by number. -/
  saveAt : List Nat := []
  /-- 2; 16 R389; checkpoint slots being written or written. -/
  slots : List Snap := []
  /-- -; 16 R389; replay point; none: the group's start. -/
  replay : Option Snap := none
  /-- 64; 16 R389; device time of the last replay point. -/
  ckptAt : Option Nat := none
  /-- 1; 07 R182; decision of its park received while it is saved: abandon. -/
  decided : Option Bool := none
  /-- 1; 05 R126; it ran again from a replay point. -/
  replayed : Bool := false
  deriving DecidableEq, Repr, Inhabited

/-- a thread's store in an entry of the store buffer (R178 R220). -/
structure SbOrg where
  /-- -; 07 R181; group identity. -/
  grp : Nat := 0
  /-- 5; 09 R218; lane. -/
  lane : Nat := 0
  /-- 64; 07 R179; the store instruction. -/
  pc : Nat := 0
  /-- 64; 07 R179; device virtual address. -/
  va : Nat := 0
  /-- -; 08 R209; slot, launch and group ID. -/
  own : Nat × Nat × Nat := (0,0,0)
  /-- 12; 10 R265; context. -/
  ctx : Nat := 0
  /-- 8; 10 R265; generation. -/
  gen : BitVec 8 := 0
  deriving DecidableEq, Repr, Inhabited

/-- a store-buffer entry (R220). -/
structure SbEntry where
  /-- 64; 09 R220; full physical address of the 128 B line. -/
  line : Nat := 0
  /-- 128 B; 09 R220; values. -/
  bytes : Tbl Byte := []
  /-- 128; 09 R220; offsets held. -/
  mask : List Nat := []
  /-- -; 09 R220; region type. -/
  region : Region := .normal
  /-- -; 08 R209; (slot, launch, gid) of the stores. -/
  owners : List (Nat × Nat × Nat) := []
  /-- 12; 10 R265; context. -/
  ctx : Nat := 0
  /-- 8; 10 R265; generation. -/
  gen : BitVec 8 := 0
  /-- 1 2 4 8; 09 R231; access size of a CTRL store. -/
  size : Nat := 0
  /-- -; 09 R229; threads whose stores it holds (group key, lane). -/
  thr : List (Nat × Nat) := []
  /-- 128; 10 R265; context and generation of bytes that another context, or a later generation, stored. -/
  tag : Tbl (Option (Nat × BitVec 8)) := []
  /-- -; 07 R178; the stores it holds. -/
  org : List SbOrg := []
  deriving DecidableEq, Repr, Inhabited

/-- a line of an L1 cache (R234). -/
structure L1Line where
  /-- 2; 09 R234; state. -/
  st : Mesi := .S
  /-- 128 B; 09 R234; bytes. -/
  data : List Byte := []
  /-- 128; 09 R234; offsets stored since clean. -/
  mask : List Nat := []
  /-- 16; 08 R209; poison marks received with the line. -/
  poison : BitVec 16 := 0
  /-- 128; 09 R239; offsets a bulk write changed at the home since the line was filled. -/
  stale : List Nat := []
  /-- -; 08 R209; groups whose stores it holds. -/
  owners : List (Nat × Nat × Nat) := []
  deriving DecidableEq, Repr, Inhabited

/-- physical core p (R15 R23). -/
structure Core where
  /-- 3; 07 R158 R159; core-memory split. -/
  split : Nat := 0
  /-- 64 entries; 09 R220; store buffer, oldest first. -/
  sb : List SbEntry := []
  /-- -; 09 R234; L1 lines by address. -/
  l1 : Tbl L1Line := []
  /-- 256x2; 09 R227; contention predictor, 0 at power-up. -/
  pred : Tbl (BitVec 2) := []
  /-- 64 entries; 07 R155; register cache tags, newest first. -/
  rcache : List (Nat × Nat) := []
  /-- count; 07 R151; issues of the core. -/
  issues : Nat := 0
  /-- 64; 13 R320; core-steps of every context on the core. -/
  work : Tbl Nat := []
  /-- 64; 13 R334; the same at the last sample of the meters. -/
  workAt : Tbl Nat := []
  /-- 32; 02 R46; TSC_TIME_HI capture. -/
  tscHi : Word := 0
  /-- 64; 05 R118; CORE_RETAKE_RUNS. -/
  retakeRuns : DWord := 0
  /-- 64; 05 R118; CORE_RETAKE_TESTS. -/
  retakeTests : DWord := 0
  /-- 6; 03 R58; slot of the array holder. -/
  holder : Option Nat := none
  /-- 2048x32; 03 R56; acc0. -/
  acc0 : Tbl Word := []
  /-- 2048x32; 03 R56; acc1. -/
  acc1 : Tbl Word := []
  /-- 1; 03 R57; SAT of acc0. -/
  sat0 : Bool := false
  /-- 1; 03 R57; SAT of acc1. -/
  sat1 : Bool := false
  /-- <=4; 03 R63; array queue, oldest first. -/
  mq : List Mma := []
  /-- 256x12; 03 R51; the word latch in use; none given (DESIGN CHOICE empty: no lane has been loaded). -/
  latch : Latch := {}
  /-- 256x12; 03 R51; its other buffer, loaded with the words that are fed next. -/
  latchN : Latch := {}
  /-- 5; 05 R114; holder's retake fraction exponent. -/
  rn : Nat := 8
  /-- 32; 06 R138; EM. -/
  em : Nat := 0xFFFFFFFF
  /-- 32; 06 R138; EN. -/
  en : Nat := 0xFFFFFFFF
  /-- 32; 06 R138; EK. -/
  ek : Nat := 0xFFFFFFFF
  /-- <=2; 06 R127; running and queued tile programs. -/
  progs : List Prog := []
  /-- -; 06 R128; completed and not yet waited: status, tile. -/
  doneProgs : List (Nat × Nat) := []
  /-- 6; 03 R73; row the spare row replaces. -/
  spareRow : Option Nat := none
  /-- 5; 03 R73; column the spare column replaces. -/
  spareCol : Option Nat := none
  /-- -; 03 R73; spare switch in progress: 0 none, 1 + 256 row, 2 + 256 column. -/
  switching : Nat := 0
  /-- -; 05 R125; bins of the holder's launch not yet sent. -/
  lm : LmBins := {}
  /-- -; 05 R125; bins sent and not yet merged: launch, bins, oldest first. -/
  lmSent : List (Nat × LmBins) := []
  /-- -; 05 R123; clip counts of stores not yet added: launch, count, oldest first. -/
  clipPend : List (Nat × Nat) := []
  /-- -; 05 R125; launch the bins belong to. -/
  lmKey : Nat := 0
  /-- 1; 16 R383; fenced. -/
  fenced : Bool := false
  /-- 1; 16 R383; the fence came from a failed self-test. -/
  fencedByTest : Bool := false
  /-- 1; 16 R385; under self-test. -/
  testing : Bool := false
  /-- 64; 16 R381; device time of the last passing test. -/
  lastPass : Nat := 0
  deriving DecidableEq, Repr, Inhabited

/-- core quad q of die d (R27 R38-R40). -/
structure Quad where
  /-- -; 02 R27; off at power-up until step 4. -/
  mode : QMode := .off
  /-- 10; 02 R27; voltage in mV. -/
  mv : Nat := 0
  /-- 1; 02 R38; its budget is lent. -/
  lent : Bool := false
  /-- 1; 02 R39; write-back of the drop finished. -/
  wrote : Bool := false
  /-- -; 02 R39; recorded invalidations (core, line). -/
  inval : List (Nat × Nat) := []
  /-- 64; 02 R29; device time at which the ramp down began. -/
  rampAt : Nat := 0
  /-- 1; 02 R36; paused by step gating. -/
  gated : Bool := false
  deriving DecidableEq, Repr, Inhabited

/-- per-die governor (R35-R37). -/
structure Governor where
  /-- 8; 02 R37; hottest junction sensor of the die. -/
  tj : Nat := 0
  /-- W; 02 R35; die budget. -/
  budget : Nat := 0
  /-- 1; 02 R37; lowering under R37. -/
  thermal : Bool := false
  deriving DecidableEq, Repr, Inhabited

/-- an RW1C flag and the count beside it (R402). -/
structure Flag where
  /-- 1; 16 R402; 0. -/
  on : Bool := false
  /-- 8; 16 R402; 0x00. -/
  count : BitVec 8 := 0
  deriving DecidableEq, Repr, Inhabited

/-- supplies, module state, PWR_ registers and pins (ch. 02, 17). -/
structure Power where
  /-- -; 17 R405; BOOT. -/
  state : ModSt := .boot
  /-- 1; 17 R410; 12 V in range. -/
  aux : Bool := true
  /-- 1; 17 R410; 48 V in range. -/
  v48 : Bool := false
  /-- 64; 17 R420; device time at which 48 V was lost. -/
  v48lost : Option Nat := none
  /-- 1; 17 R410; 48 V input switch closed. -/
  sw : Bool := false
  /-- 3; 17 R410; last completed power-up step: 1 to 4, 5 for step 5a, 6 for step 5b, 7 for ready. -/
  steps : Nat := 1
  /-- 1; 17 R419; next ready follows a warm restart or protection stop. -/
  afterStop : Bool := false
  /-- 1; 17 R410; islands at operating voltage. -/
  islands : Bool := false
  /-- 16; 17 R404; MPOS sampled; open contacts read 1. -/
  straps : BitVec 16 := 0xFFFF
  /-- 2; 17 R404; SMB_ADDR sampled. -/
  smbAddr : BitVec 2 := 3
  /-- 16; 02 R33; cap set by POWER_CAP; the variant's TDP. -/
  reqCap : Nat := 3000
  /-- 16; 17 R406; BOARD_CAP_W; the variant's TDP. -/
  boardCap : Nat := 3000
  /-- 16; 16 R382; cap from a lost regulator phase. -/
  vrCap : Option Nat := none
  /-- 16; 02 PWR_STATUS.CAP_W; cap in force; the variant's TDP. -/
  cap : Nat := 3000
  /-- -; 02 R34; requested caps with the time they take effect. -/
  newCaps : List (Nat × Nat) := []
  /-- 16; 02 PWR_STATUS.POWER_W; 0x0000. -/
  powerW : Nat := 0
  /-- 8; 02 PWR_STATUS.MAX_TJ; 0x00. -/
  maxTj : Nat := 0
  /-- 1+8; 02 PWR_EVENTS; 0. -/
  capLimiting : Flag := {}
  /-- 1+8; 02 PWR_EVENTS; 0. -/
  capFloor : Flag := {}
  /-- 1+8; 02 PWR_EVENTS; 0. -/
  thermalLimit : Flag := {}
  /-- 1+8; 02 PWR_EVENTS; 0. -/
  tscUnlocked : Flag := {}
  /-- 1; 17 R419; FAULT_N asserted. -/
  faultN : Bool := false
  /-- 1; 17 R419; THERM_N asserted. -/
  thermN : Bool := false
  /-- 1; 17 R419; a thermal protection stop, until the next ready. -/
  thermStop : Bool := false
  /-- 1; 17 R405 R414; MAIN_POWER effecter; none given (DESIGN CHOICE ON: the sequence of R410 runs by itself). -/
  mainOn : Bool := true
  /-- count; 17 R419; WAKE_N pulses given. -/
  wakeN : Nat := 0
  /-- 1; 17 R405; SMB_ALERT_N asserted. -/
  smbAlert : Bool := false
  /-- 2; 17 R412; PERSTp_N deasserted. -/
  perst : Tbl Bool := []
  /-- -; 17 R407; instruction in the TAP: 0 BYPASS. -/
  tap : Nat := 0
  /-- rails; 16 R382; spare phase of the rail used. -/
  vrSpare : Tbl Bool := []
  /-- 8; 02 R35; per die. -/
  gov : Tbl Governor := []
  /-- 288; 02 R27; key 36d + q. -/
  quads : Tbl Quad := []
  deriving DecidableEq, Repr, Inhabited

/-- time-stamp counter (R42-R46, R355-R357). -/
structure Tsc where
  /-- 64; 02 TSC_TIME; 0. -/
  time : DWord := 0
  /-- 1; 02 TSC_STATUS.LOCKED; 0. -/
  locked : Bool := false
  /-- 1; 02 TSC_STATUS.ALIGNED; 0. -/
  aligned : Bool := false
  /-- 1; 02 TSC_STATUS.PPS_LOCKED; 0. -/
  pps : Bool := false
  /-- 8; 02 TSC_STATUS.HOPS_TO_MASTER; 0xFF. -/
  hops : BitVec 8 := 0xFF
  /-- 32; 02 TSC_STATUS.OFFSET_NS; 0. -/
  offset : Word := 0
  /-- 16; 02 TSC_STATUS.MASTER_ID; 0. -/
  master : BitVec 16 := 0
  /-- ns; 02 R45; correction still to be slewed. -/
  slew : Int := 0
  /-- 1; 02 R45, 14 R356; the counter may no longer be stepped: it was since 12 V, or ready has been signalled. -/
  stepped : Bool := false
  /-- 1; 02 R44; 100 MHz reference present. -/
  ref : Bool := true
  /-- ns; 02 R44; what the counter has gained on the reference since the reference was lost. -/
  drift : Int := 0
  /-- 1; 02 R44; the reference has returned and the counter slews back to it. -/
  relock : Bool := false
  /-- 64; 14 FAB_PPS_TIME; 0. -/
  ppsAt : DWord := 0
  /-- 1; 17 R416; a pulse has been captured. -/
  ppsSeen : Bool := false
  deriving DecidableEq, Repr, Inhabited

/-- logical-to-physical map and stand-ins (R21 R22 R383-R385). -/
structure Mesh where
  /-- 1024x11; 01 R21; logical ID -> physical core + 1, 0 none; unlisted: Plowin's start map (DESIGN CHOICE). -/
  map : Tbl (Option Nat) := []
  /-- count; 01 R22; sequence number of the map; spec gives no start value (DESIGN CHOICE 0). -/
  seq : Nat := 0
  /-- -; 16 R384; swap in progress of a logical core: stand-in, checked, why. -/
  swaps : Tbl (Option (Nat × Bool × Nat)) := []
  /-- 8x64; 16 R383; device time the die's rotation last completed a cycle. -/
  rotDone : Tbl Nat := []
  /-- 8x128; 16 R385; logical cores of the die swapped in the present cycle of the rotation. -/
  rotSeen : Tbl (List Nat) := []
  deriving DecidableEq, Repr, Inhabited

/-- a line held in a CACHE way (R185 R188). -/
structure TLine where
  /-- 48; 08 R187; line address. -/
  addr : Nat := 0
  /-- 4; 08 R185; its way. -/
  way : Nat := 0
  /-- 1; 08 R193; modified. -/
  dirty : Bool := false
  /-- 16; 08 R205; poisoned 8 B granules. -/
  poison : BitVec 16 := 0
  deriving DecidableEq, Repr, Inhabited

/-- a victim-buffer entry (R193). -/
structure Victim where
  /-- 48; 08 R193; line address. -/
  addr : Nat := 0
  /-- 1; 08 R193; modified. -/
  dirty : Bool := false
  /-- 1; 08 R193; writeback has left. -/
  flight : Bool := false
  /-- 16; 08 R205; poisoned granules. -/
  poison : BitVec 16 := 0
  /-- 1; 08 R196; its line came from a converting way. -/
  walk : Bool := false
  deriving DecidableEq, Repr, Inhabited

/-- a way conversion that Plowin has taken (R195). -/
structure TierConv where
  /-- count; 08 R195; order. -/
  id : Nat := 0
  /-- 3; 08 R195; die. -/
  die : Nat := 0
  /-- 64x5; 08 R195; slices that it names and their targets; 17 DISABLE. -/
  tgt : List (Nat × Nat) := []
  /-- -; 12 R309; the request. -/
  h : Hdr := {}
  /-- 1; 08 R195; begun. -/
  on : Bool := false
  /-- 64; 08 R196; of a begun one, the slices that have not converted. -/
  left : List Nat := []
  deriving DecidableEq, Repr, Inhabited

/-- tier slice i of die d (R185). -/
structure Slice where
  /-- 16; 08 TIER_SLICE_STATUS; 0x0000. -/
  pinned : BitVec 16 := 0
  /-- 16; 08 TIER_SLICE_STATUS; 0x0000. -/
  off : BitVec 16 := 0
  /-- 16; 08 TIER_SLICE_STATUS; 0x0000. -/
  conv : BitVec 16 := 0
  /-- 5; 08 R195; pinned count being converted to; 17 DISABLE. -/
  target : Option Nat := none
  /-- 65536 sets; 08 R185; lines of each set, most recent first. -/
  lines : Tbl (List TLine) := []
  /-- 64; 08 R193; oldest first. -/
  victims : List Victim := []
  /-- 4 banks; 08 R190; line+1 whose fill blocks the bank. -/
  blocked : Tbl Nat := []
  /-- 4 banks; 08 R190 R193; way+1 that the fill enters; 0 while its victim waits for an entry of the buffer. -/
  fill : Tbl Nat := []
  /-- -; 08 R197; lines whose waiting request goes to HBM without allocating. -/
  bypass : List Nat := []
  /-- 1+8; 08 TIER_SLICE_EVENTS; 0. -/
  corrected : Flag := {}
  /-- 1+8; 08 TIER_SLICE_EVENTS; 0. -/
  poisoned : Flag := {}
  /-- 1+8; 08 TIER_SLICE_EVENTS; 0. -/
  remapped : Flag := {}
  /-- 1+8; 08 TIER_SLICE_EVENTS; 0. -/
  refetched : Flag := {}
  /-- -; 08 R214; corrected errors in the window, per segment: position, device time. -/
  errs : Tbl (List (Nat × Nat)) := []
  /-- -; 08 R214; segments with a trigger, not yet remapped. -/
  due : List Nat := []
  /-- -; 08 R212; segment -> spare segment + 1; key 128 + n: spare n no longer used. -/
  segs : Tbl Nat := []
  /-- -; 08 R212; segment being remapped, and the spare segment it goes to. -/
  moving : Option (Nat × Nat) := none
  /-- -; 08 R215; segments withdrawn from new mappings. -/
  withdrawn : List Nat := []
  deriving DecidableEq, Repr, Inhabited

/-- HBM stack h (R200 R213). -/
structure Stack where
  /-- 17; 08 HBMC_STATUS.RETIRED; 0. -/
  retired : Nat := 0
  /-- 1; 08 HBMC_STATUS.TRAINED; 0. -/
  trained : Bool := false
  /-- 1; 17 R413; failed training twice. -/
  failed : Bool := false
  /-- 8; 08 HBMC_STATUS.TEMP; 0x00. -/
  temp : Nat := 0
  /-- 1+8; 08 HBMC_EVENTS; 0. -/
  corrected : Flag := {}
  /-- 1+8; 08 HBMC_EVENTS; 0. -/
  poisoned : Flag := {}
  /-- 1+8; 08 HBMC_EVENTS.RETIRED; 0. -/
  retiredF : Flag := {}
  /-- -; 08 R213; frame -> pool frame + 1. -/
  frames : Tbl Nat := []
  /-- -; 08 R213; frame being retired. -/
  moving : Option Nat := none
  /-- -; 08 R214; corrected errors in the window, per frame: position, device time. -/
  errs : Tbl (List (Nat × Nat)) := []
  /-- -; 08 R214; frames with a trigger, not yet retired. -/
  due : List Nat := []
  /-- -; 08 R215; frames withdrawn from new mappings. -/
  withdrawn : List Nat := []
  /-- 1; 16 R391; controller out for retraining. -/
  out : Bool := false
  /-- 8; 16 R391; unit generation (DESIGN CHOICE 0). -/
  ugen : BitVec 8 := 0
  deriving DecidableEq, Repr, Inhabited

/-- ownership of a 64 KiB granule (R265). -/
structure Granule where
  /-- 1; 10 R265; VALID. -/
  valid : Bool := false
  /-- 12; 10 R265; owner context. -/
  owner : Nat := 0
  /-- 1; 10 R265; SHARED. -/
  shared : Bool := false
  /-- 8; 10 R265; share set. -/
  sset : Nat := 0
  deriving DecidableEq, Repr, Inhabited

/-- a share set (R265 R349). -/
structure ShareSet where
  /-- 4096 bits; 10 R265; member contexts. -/
  locals : List Nat := []
  /-- <=256; 10 R265; device, context, kept SGEN. -/
  remotes : List (Nat × Nat × Option (BitVec 8)) := []
  deriving DecidableEq, Repr, Inhabited

/-- coherent domain of a die (R236 R392). -/
structure DieDom where
  /-- 1; 09 R236; stopped. -/
  stopped : Bool := false
  /-- count; 16 R392; failed restarts. -/
  fails : Nat := 0
  /-- 1; 16 R392; fenced. -/
  fenced : Bool := false
  /-- 8; 16 R391; unit generation of the domain and engines; none given (DESIGN CHOICE 0). -/
  ugen : BitVec 8 := 0
  deriving DecidableEq, Repr, Inhabited

/-- an answer of a home slice in flight to its requester (R234). -/
structure HomeAns where
  /-- 64; 09 R234; address. -/
  pa : Nat := 0
  /-- 16; 16 R400; source number of the requester. -/
  agent : Nat := 0
  /-- 8; 10 R266; 0 data, 1 poison, 2 denied, 3 retry later, 4 waits. -/
  status : Nat := 0
  /-- -; 09 R234; bytes. -/
  data : List Byte := []
  deriving DecidableEq, Repr, Inhabited

/-- memory side: homes, tier, HBM (ch. 08-10). -/
structure Tier where
  /-- 512; 08 R185; key 64d + i. -/
  slices : Tbl Slice := []
  /-- 14; 08 R200; key h. -/
  hbms : Tbl Stack := []
  /-- 64 B granules; 08 R205; poisoned HBM granules. -/
  hpoison : Tbl Bool := []
  /-- 8 B granules; 08 R205; poisoned pinned granules. -/
  ppoison : Tbl Bool := []
  /-- per line; 09 R234; OWNED bit: physical core + 1 that owns the line. -/
  owned : Tbl Nat := []
  /-- 256 per slice; 09 R229; home reservations oldest first: line, group key, lane. -/
  rsv : List (Nat × Nat × Nat) := []
  /-- -; 09 R235; requests waiting for an owner's answer: line, agent, since. -/
  waits : List (Nat × Nat × Nat) := []
  /-- per granule; 10 R265; ownership table, key address / 65536. -/
  gran : Tbl Granule := []
  /-- 256; 10 R265; share sets. -/
  sets : Tbl ShareSet := []
  /-- 8; 09 R236; coherent domains. -/
  dies : Tbl DieDom := []
  /-- 1; 09 R237; DOMAIN_DOWN mode; POISON at power-up. -/
  down : Bool := false
  /-- -; 08 R195; conversions taken and not answered, oldest first. -/
  convs : List TierConv := []
  /-- -; 09 R234; replies in flight. -/
  answers : List HomeAns := []
  deriving DecidableEq, Repr, Inhabited

/-- a mapping's leaf (R252). -/
structure Leaf where
  /-- 12; 10 R248; context. -/
  ctx : Nat := 0
  /-- 52; 10 R251; page base. -/
  va : Nat := 0
  /-- 2; 10 R251; 0 64 KiB, 1 2 MiB, 2 1 GiB. -/
  size : Nat := 0
  /-- 64; 10 R252; the leaf entry. -/
  entry : DWord := 0
  deriving DecidableEq, Repr, Inhabited

/-- a MAP's record (R249 R365). -/
structure Mapping where
  /-- 12; 10 R249; context. -/
  ctx : Nat := 0
  /-- 52; 10 R249; DEV_VA. -/
  va : Nat := 0
  /-- 64; 10 R249; LENGTH. -/
  len : Nat := 0
  /-- 64; 10 R249; HOST_VA. -/
  host : Nat := 0
  /-- 64; 15 R365; BAR2 offset. -/
  bar2 : Option Nat := none
  deriving DecidableEq, Repr, Inhabited

/-- a TLB entry (R254). -/
structure TlbE where
  /-- 12; 10 R254; context. -/
  ctx : Nat := 0
  /-- 8; 10 R254; generation. -/
  gen : BitVec 8 := 0
  /-- 52; 10 R254; page base. -/
  va : Nat := 0
  /-- 2; 10 R254; page size. -/
  size : Nat := 0
  /-- 64; 10 R254; leaf. -/
  entry : DWord := 0
  deriving DecidableEq, Repr, Inhabited

/-- a walk-cache entry (R424). -/
structure WalkE where
  /-- 12; 10 R424; context. -/
  ctx : Nat := 0
  /-- 8; 10 R424; generation. -/
  gen : BitVec 8 := 0
  /-- 2; 10 R424; level. -/
  level : Nat := 0
  /-- 36; 10 R424; virtual address bits above the level. -/
  ix : Nat := 0
  deriving DecidableEq, Repr, Inhabited

/-- a walk running or waiting (R255). -/
structure Walk where
  /-- -; 10 R254; stream key. -/
  stream : Nat := 0
  /-- 12; 10 R254; context. -/
  ctx : Nat := 0
  /-- 8; 10 R257; generation. -/
  gen : BitVec 8 := 0
  /-- 52; 10 R255; address. -/
  va : Nat := 0
  /-- 4; 10 R252; permission bits needed (READ 2, WRITE 4, EXEC 8). -/
  need : Nat := 2
  /-- 1; 10 R255; a walker has it. -/
  busy : Bool := false
  deriving DecidableEq, Repr, Inhabited

/-- a stalled translation stream (R260). -/
structure Stall where
  /-- -; 10 R254; stream key. -/
  stream : Nat := 0
  /-- -; 10 R260; group key for a core stream. -/
  grp : Nat := 0
  /-- 32; 10 R261; SEQ of its fault record. -/
  seq : Nat := 0
  /-- 6; 10 R262; function. -/
  fn : Nat := 0
  /-- 12; 10 R261; context. -/
  ctx : Nat := 0
  /-- 8; 10 R261; generation. -/
  gen : BitVec 8 := 0
  /-- 52; 10 R261; address. -/
  va : Nat := 0
  /-- 4; 10 R261; permission needed. -/
  need : Nat := 2
  deriving DecidableEq, Repr, Inhabited

/-- an unmap or leaf change being completed (R256). -/
structure MapChange where
  /-- count; 10 R256; request number. -/
  id : Nat := 0
  /-- -; 12 R310; request to answer. -/
  h : Hdr := {}
  /-- 16; 12 R313; MAP or UNMAP. -/
  code : Nat := 0
  /-- 12; 10 R256; context. -/
  ctx : Nat := 0
  /-- 52; 10 R256; range. -/
  va : Nat := 0
  /-- 64; 10 R256; range. -/
  len : Nat := 0
  /-- -; 10 R256; full addresses and bytes of the replaced leaves' pages. -/
  old : List (Nat × Nat) := []
  /-- -; 10 R249; response payload. -/
  payload : List Byte := []
  /-- 64; 12 R311; response DETAIL. -/
  detail : DWord := 0
  deriving DecidableEq, Repr, Inhabited

/-- translation (ch. 10). -/
structure Xlat where
  /-- -; 10 R248; page-table leaves of every replica. -/
  leaves : List Leaf := []
  /-- 8x196608; 10 R251; table blocks in use: die, context, block. -/
  blocks : List (Nat × Nat × Nat) := []
  /-- -; 10 R249; mapping records. -/
  maps : List Mapping := []
  /-- 64/32/16 per stream; 10 R254; micro-TLBs by stream key. -/
  micro : Tbl (List TlbE) := []
  /-- 8x4096; 10 R254; die TLBs. -/
  die : Tbl (List TlbE) := []
  /-- 8x1024; 10 R424; walk caches. -/
  wcache : Tbl (List WalkE) := []
  /-- 8 dies; 10 R255; walks running and waiting, arrival order. -/
  walks : Tbl (List Walk) := []
  /-- -; 10 R260; stalled streams. -/
  stalls : List Stall := []
  /-- -; 10 R256; mapping changes not yet answered. -/
  changes : List MapChange := []
  deriving DecidableEq, Repr, Inhabited

/-- a sync counter (R269 R271 R277). -/
structure Ctr where
  /-- 1; 11 R271; allocated. -/
  alloc : Bool := false
  /-- 12; 11 R271; owner context. -/
  owner : Nat := 0
  /-- 8; 11 R271; share set. -/
  sset : Option Nat := none
  /-- 1; 11 R271; OWNED mode. -/
  owned : Bool := false
  /-- 64; 11 R271; 0. -/
  value : DWord := 0
  /-- 1; 11 R278; state ABANDONED (else LIVE). -/
  abandoned : Bool := false
  /-- -; 11 R277; context, generation, launch or source number, group. -/
  holder : Option (Nat × BitVec 8 × Nat × Nat) := none
  deriving DecidableEq, Repr, Inhabited

/-- a registered or queued wait (R274 R275 R282). -/
structure Wait where
  /-- -; 11 R280; kind of waiter. -/
  who : WaitWho := .core
  /-- -; 11 R275; identity of the group (2^32 x launch + group), queue key, or function. -/
  grp : Nat := 0
  /-- 32; 11 R275; threads that the wait is for. -/
  lanes : Word := 0
  /-- count; 11 R275; the issue of its group in which a set made the wait. -/
  set : Nat := 0
  /-- 1; 11 R276; on a fence. -/
  fence : Bool := false
  /-- 32; 11 R276; counter ID, or 65536*context + index of a fence. -/
  id : Nat := 0
  /-- 8; 11 R274; 0x10 GE, 0x11 EQ, 0x12 NZ, 0x13 TRYDEC. -/
  cond : Nat := 0
  /-- 64; 11 R274; operand. -/
  value : DWord := 0
  /-- 64; 11 R274; device time of the timeout. -/
  deadline : Option Nat := none
  /-- 12; 11 R272; issuer's context. -/
  ctx : Nat := 0
  /-- 8; 11 R272; issuer's generation. -/
  gen : BitVec 8 := 0
  /-- 16; 11 R280; issuer's source number. -/
  src : Nat := 0
  /-- 16; 14 R349; device of a remote waiter. -/
  dev : Nat := 0
  /-- 32; 11 R281; watch TAG, or the remote TXN. -/
  tag : Nat := 0
  /-- 1; 11 R281; watch IRQ flag. -/
  irq : Bool := false
  deriving DecidableEq, Repr, Inhabited

/-- SYNC_ registers of a die and its wait table (R275). -/
structure SyncDie where
  /-- 1+8; 11 SYNC_EVENTS.WAITER_FULL; 0. -/
  full : Flag := {}
  /-- 1+8; 11 SYNC_EVENTS.DENIED; 0. -/
  denied : Flag := {}
  /-- 1+8; 11 SYNC_EVENTS.ABANDON; 0. -/
  abandon : Flag := {}
  deriving DecidableEq, Repr, Inhabited

/-- a fence table entry (R283). -/
structure Fence where
  /-- 8; 11 R283; zeroed before registration. -/
  st : FenceSt := .unsignalled
  /-- 1; 11 R283; ARMED. -/
  armed : Bool := false
  /-- 16; 11 R283; VECTOR. -/
  vector : Nat := 0
  /-- 16; 11 R283; SOURCE. -/
  source : Nat := 0
  /-- 64; 11 R283; TSC. -/
  tsc : DWord := 0
  deriving DecidableEq, Repr, Inhabited

/-- sync units and fences (ch. 11). -/
structure Sync where
  /-- 131072; 11 R269; counters by ID. -/
  ctrs : Tbl Ctr := []
  /-- 8192 per die; 11 R275; registered waits, in order. -/
  waits : List Wait := []
  /-- -; 11 R275; waits queued at their issuers. -/
  queued : List Wait := []
  /-- 8; 11 SYNC_ block; registers. -/
  dies : Tbl SyncDie := []
  /-- 65536 per context; 11 R283; key 65536*context + index. -/
  fences : Tbl Fence := []
  /-- 48; 11 R285; fences resident in hardware slots. -/
  slots : List Nat := []
  /-- -; 11 R285; fences served by Plowin. -/
  fw : List Nat := []
  deriving DecidableEq, Repr, Inhabited

/-- a packet read by an engine (R290 R292). -/
structure Pkt where
  /-- 8; 12 R290; OPCODE. -/
  op : Nat := 0
  /-- -; 12 R290; the packet. -/
  bytes : List Byte := []
  /-- 32; 12 R302; ENTRY. -/
  ent : Nat := 0
  /-- 32; 12 R302; OFFSET. -/
  off : Nat := 0
  /-- -; 12 R292; waiting, running or done. -/
  st : PktStage := .waiting
  /-- 32; 12 R302; ITEMS. -/
  items : Nat := 1
  /-- -; 12 R303; status per finished item + 1. -/
  itemSt : Tbl Nat := []
  /-- 8; 12 R303; status of the items not listed in itemSt once the packet is done. -/
  rest : Nat := 0
  /-- 8; 12 R303; final status. -/
  status : Nat := 0
  /-- 8; 12 R293; REASON. -/
  reason : Nat := 0
  /-- 8; 12 R302; RESULT. -/
  result : Nat := 0
  /-- 64; 12 R302; VALUE. -/
  value : DWord := 0
  /-- 64; 12 R302; device time its last item finished. -/
  tsc : DWord := 0
  /-- -; 12 R297; launch key; 2^40 for none. -/
  launch : Nat := 1099511627776
  /-- -; 12 R304; poisoned source ranges in source order: item, address, length. -/
  ranges : List (Nat × Nat × Nat) := []
  /-- 16; 13 R322; DEFERRALS. -/
  deferrals : Nat := 0
  /-- 16; 13 R324; DISPLACEMENTS. -/
  displ : Nat := 0
  /-- 64; 14 R350; device time of its start. -/
  startAt : Nat := 0
  /-- -; 10 R259; pinned ranges (va, length). -/
  pins : List (Nat × Nat) := []
  /-- 17; 10 R258; runs held in the run store. -/
  runs : Nat := 0
  /-- count; MODEL; number of the packet in its queue (not the spec's). -/
  id : Nat := 0
  /-- 8; 12 R302; generation it is read under. -/
  gen : BitVec 8 := 0
  /-- -; 14 R350; failing status of an item with responses outstanding. -/
  part : Tbl Nat := []
  /-- bytes; 15 R376; buffer space its held record occupies. -/
  hold : Nat := 0
  deriving DecidableEq, Repr, Inhabited

/-- an engine queue (R288 R289 R301). -/
structure Queue where
  /-- 1; 12 R288; exists. -/
  live : Bool := false
  /-- 2; 12 R315; 0 kernel, 1 copy, 2 link. -/
  kind : Nat := 0
  /-- 4; 12 R315; engine instance. -/
  inst : Nat := 0
  /-- 10; 12 R315; queue number. -/
  num : Nat := 0
  /-- 12; 12 R288; context. -/
  ctx : Nat := 0
  /-- 6; 12 R364; function. -/
  fn : Nat := 0
  /-- 1; 13 R318; class LC. -/
  lc : Bool := false
  /-- 5; 12 R315; submission ring exponent. -/
  s : Nat := 4
  /-- 5; 12 R315; completion ring exponent. -/
  c : Nat := 4
  /-- 5; 12 R315; failure area exponent. -/
  f : Nat := 16
  /-- 11; 12 R315; VECTOR. -/
  vector : Nat := 0
  /-- 52; 12 R315; RING. -/
  ring : Nat := 0
  /-- 52; 12 R315; CRING. -/
  cring : Nat := 0
  /-- 52; 12 R315; CTAIL_ADDR. -/
  ctail : Nat := 0
  /-- 52; 12 R315; HEAD_ADDR. -/
  headAddr : Nat := 0
  /-- 52; 12 R315; FAIL. -/
  fail : Nat := 0
  /-- 32; 12 QDOOR.TAIL; 0. -/
  tail : Word := 0
  /-- 32; 12 QDOOR.CHEAD; 0. -/
  chead : Word := 0
  /-- 32; 12 QSTATUS.HEAD; 0. -/
  head : Word := 0
  /-- 1; 12 QSTATUS.RESIDENT; 0. -/
  resident : Bool := false
  /-- 31; 12 QSTATUS.HELD; bytes of the report that waits for room in the failure area; 0 none. -/
  needF : Nat := 0
  /-- count; MODEL; packets read, which names each (not the spec’s; DESIGN CHOICE 1). -/
  nextId : Nat := 1
  /-- 32; 12 R301; completion tail written. -/
  ct : Word := 0
  /-- 32; 12 R302; record count. -/
  seq : Nat := 0
  /-- 31; 12 R304; next position in the failure area. -/
  fpos : Nat := 0
  /-- -; 12 R304; reports not yet returned: record number, position, bytes. -/
  fspans : List (Nat × Nat × Nat) := []
  /-- 52; 12 R289; list being read. -/
  listAt : Nat := 0
  /-- 25; 12 R289; its length. -/
  listLen : Nat := 0
  /-- 25; 12 R290; next offset. -/
  listOff : Nat := 0
  /-- 1; 12 R289; a ring entry is open. -/
  listOn : Bool := false
  /-- 1; 12 R289; FLAGS bit 0 of the entry. -/
  stopOnFail : Bool := false
  /-- 32; 12 R289; entries read. -/
  ent : Word := 0
  /-- -; 12 R292; packets read and not yet recorded, list order. -/
  pkts : List Pkt := []
  /-- 64; 13 R321; device time since which it waits for a slot. -/
  pendAt : Option Nat := none
  /-- 64; 13 R321; device time it became resident. -/
  resAt : Nat := 0
  /-- 1; 12 R427; stalled by a fault. -/
  stalled : Bool := false
  /-- 16; 13 R322; deferrals of the next packet. -/
  defer : Nat := 0
  /-- 1; 13 R322; the present wait for a slot has been counted. -/
  deferred : Bool := false
  /-- 1; 13 R322; in its present wait, every slot of the engine was taken. -/
  crowd : Bool := false
  /-- -; 12 R427; what stalled: 1 the read of an entry or packet header, 256 + opcode that of the rest of a packet, 2 a packet's data, 3 a record, tail or head write. -/
  stallWhy : Nat := 0
  /-- -; 13 R331; remote-wait record. -/
  rwait : Option RWait := none
  /-- 1; 12 R313; being destroyed with DRAIN. -/
  drain : Bool := false
  /-- -; 12 R313; QUEUE_DESTROY to answer. -/
  drainReq : Option Hdr := none
  /-- -; 14 R348; lines of another device received for the reading of entries and packets, key full address / 128. -/
  got : Tbl (List Byte) := []
  /-- -; 14 R350; status of lines another device refused or did not send. -/
  bad : Tbl Nat := []
  deriving DecidableEq, Repr, Inhabited

/-- a LAUNCH in progress (R296 R297). -/
structure Launch where
  /-- 1; 12 R297; in progress. -/
  live : Bool := false
  /-- -; 12 R297; queue key. -/
  queue : Nat := 0
  /-- 12; 12 R297; context. -/
  ctx : Nat := 0
  /-- 8; 12 R297; generation. -/
  gen : BitVec 8 := 0
  /-- 3; 12 R296; die. -/
  die : Nat := 0
  /-- 32; 12 R297; launch sequence number. -/
  seq : Nat := 0
  /-- 32; 12 R296; ARG. -/
  groups : Nat := 0
  /-- 52; 12 R296; ENTRY. -/
  entry : Nat := 0
  /-- 64; 12 R296; ARGS. -/
  args : Nat := 0
  /-- 52; 12 R296; CUT_TABLE. -/
  cut : Nat := 0
  /-- 128; 12 R296; CORE_MASK, die-local cores ascending. -/
  mask : List Nat := []
  /-- 8; 12 R296; VREGS. -/
  vregs : Nat := 0
  /-- 3; 12 R296; SPLIT. -/
  split : Nat := 0
  /-- 6; 12 R296; CAP. -/
  cap : Nat := 0
  /-- 1; 12 R296; FIXED. -/
  fixed : Bool := false
  /-- 1; 12 R296; REPLAY_SAFE. -/
  safe : Bool := false
  /-- 32; 12 R296; LOCAL rounded. -/
  lsSize : Nat := 0
  /-- 32; 12 R296; SR_SEED. -/
  seed : Word := 0
  /-- 32; 12 R296; CLIP_T. -/
  clipT : Nat := 0
  /-- 32; 12 R296; CLIP_ID. -/
  clipId : Word := 0
  /-- 32; 12 R297; next group to start. -/
  nextG : Nat := 0
  /-- 64; 13 R322; device time since which the next group waits. -/
  waitAt : Nat := 0
  /-- 64; 13 R322; since when the next group waits for room, its quota and context not holding it back. -/
  roomAt : Nat := 0
  /-- 32; 13 R322; number + 1 of the last group whose wait was counted. -/
  deferG : Nat := 0
  /-- 128; 09 R240; logical cores it ran on. -/
  ran : List Nat := []
  /-- 128; 09 R240; cores whose L1 was written back and invalidated for it. -/
  prepared : List Nat := []
  /-- -; 12 R303; status + 1 of each finished group. -/
  gst : Tbl Nat := []
  /-- -; 05 R125; merged bins. -/
  lm : LmBins := {}
  /-- 64; 05 R123; saturated and flushed so far. -/
  clipTot : Nat := 0
  /-- 1; 05 R123; CLIP_EVENT. -/
  clipped : Bool := false
  /-- 1; 05 R126; REPLAYED. -/
  replayed : Bool := false
  /-- -; 05 R125; physical cores that sent bins. -/
  cores : List Nat := []
  deriving DecidableEq, Repr, Inhabited

/-- an engine instance (R288 R391). -/
structure Engine where
  /-- 1; 16 R391; out for restart or update. -/
  out : Bool := false
  /-- 8; 16 R391; unit generation (DESIGN CHOICE 0). -/
  ugen : BitVec 8 := 0
  /-- 32; 12 R297; next launch number, 0 at power-up. -/
  launchSeq : Nat := 0
  /-- 17; 10 R258; run-store entries in use. -/
  runsUsed : Nat := 0
  /-- 15; 14 R348; requests outstanding of a link engine. -/
  outReq : Nat := 0
  /-- 16; 13 R320; share groups below their guarantee here. -/
  belowG : List Nat := []
  /-- 64; 13 R320; ns during which a packet of a context had started and not completed. -/
  work : Tbl Nat := []
  /-- 64; 13 R320; busy ns. -/
  total : Nat := 0
  /-- -; 13 R320; work of every context and in all at each evaluation of the last 100 ms, newest first. -/
  past : List (Nat × Tbl Nat × Nat) := []
  /-- 64; 13 R320; device time of the last evaluation. -/
  evalAt : Nat := 0
  deriving DecidableEq, Repr, Inhabited

/-- a context ID (R314). -/
structure Ctx where
  /-- 1; 12 R314; in use. -/
  live : Bool := false
  /-- 6; 12 R314; function. -/
  fn : Nat := 0
  /-- 8; 12 R314; 0 at power-up. -/
  gen : BitVec 8 := 0
  /-- 1; 02 R41; LENDING_HELD. -/
  lendHeld : Bool := false
  /-- 1; 12 R314; POISON_ABANDON. -/
  poisonAb : Bool := false
  /-- 1; 12 R314; DENIED_ABANDON. -/
  deniedAb : Bool := false
  /-- 2; 12 R314; ORPHAN. -/
  orphan : Nat := 0
  /-- 32; 12 R314; ORPHAN_TIME. -/
  orphanTime : Nat := 0
  /-- 64; 15 R377; claim token. -/
  token : DWord := 0
  /-- 64; 15 R377; orphaned. -/
  orphanedAt : Option Nat := none
  /-- 64; 15 R377; RESET_AT. -/
  resetAt : Nat := 0
  /-- 1; 15 R374; paused by policy 1. -/
  paused : Bool := false
  /-- 1; 15 R377; claimed with DELIVER 0. -/
  noDeliver : Bool := false
  /-- 64; 15 R378; device time of the last wrong token. -/
  badClaim : Option Nat := none
  /-- -; 16 R390; armed snapshot buffer: address, size. -/
  snap : Option (Nat × Nat) := none
  /-- -; 15 R376; reset snapshot held for the claim. -/
  snapHeld : List Byte := []
  /-- -; 11 R283; registered fence table: address, share set. -/
  fenceTab : Option (Nat × Option Nat) := none
  /-- 4; 13 R319; share group. -/
  share : Option Nat := none
  /-- 1; 14 R351; in the middle of a reset. -/
  inReset : Bool := false
  /-- -; 16 R390; request to answer at the end of the reset, snapshot bytes. -/
  resetReq : Option (Hdr × Nat) := none
  /-- -; 13 R325; HBM quota; unlimited. -/
  qHbm : Option Nat := none
  /-- -; 13 R325; pinned quota; unlimited. -/
  qPin : Option Nat := none
  /-- -; 13 R325; queues quota; unlimited. -/
  qQueues : Option Nat := none
  /-- -; 13 R325; counters quota; unlimited. -/
  qCtrs : Option Nat := none
  /-- -; 13 R325; resident groups per die; unlimited. -/
  qGroups : Option Nat := none
  /-- 25x64; 13 R335; accounting fields by byte offset of the dailies; 0 at CONTEXT_CREATE. -/
  acct : Tbl Nat := []
  /-- -; 13 R332; granules of the save area. -/
  saveGran : Nat := 0
  deriving DecidableEq, Repr, Inhabited

/-- a ring under R262. -/
structure Ring where
  /-- 1; 10 R262; configured. -/
  on : Bool := false
  /-- 64; 10 R262; ring address. -/
  addr : Nat := 0
  /-- 17; 10 R262; records. -/
  size : Nat := 0
  /-- 64; 10 R262; tail address. -/
  tailAddr : Nat := 0
  /-- 11; 10 R262; MSI-X vector. -/
  vector : Nat := 0
  /-- 32; 10 R262; 0. -/
  head : Word := 0
  /-- 32; 10 R262; 0. -/
  tail : Word := 0
  /-- 64; 10 R262; first tail write whose interrupt is still to be raised. -/
  irqAt : Option Nat := none
  /-- -; 10 R262; held records (context, raises the vector, bytes). -/
  held : List (Nat × Bool × List Byte) := []
  deriving DecidableEq, Repr, Inhabited

/-- function f (R363). -/
structure Fn where
  /-- 64; 12 MGMT_PMI_REQ_BASE; 0. -/
  reqBase : DWord := 0
  /-- 64; 12 MGMT_PMI_RSP_BASE; 0. -/
  rspBase : DWord := 0
  /-- 32; 12 MGMT_PMI_DOOR.REQ_TAIL; 0. -/
  reqTail : Word := 0
  /-- 32; 12 MGMT_PMI_DOOR.RSP_HEAD; 0. -/
  rspHead : Word := 0
  /-- 32; 12 MGMT_PMI_STATUS.REQ_HEAD; 0. -/
  reqHead : Word := 0
  /-- 32; 12 MGMT_PMI_STATUS.RSP_TAIL; 0. -/
  rspTail : Word := 0
  /-- -; 10 R262 ERR_FAULT_HEAD/STATUS; 0. -/
  fault : Ring := {}
  /-- 32; 10 R261; 0 at power-up and after FLR. -/
  faultSeq : Nat := 0
  /-- -; 07 R180; 0. -/
  park : Ring := {}
  /-- -; 11 R282; 0. -/
  notify : Ring := {}
  /-- 32; 11 R282; record sequence number. -/
  notifySeq : Nat := 0
  /-- -; 13 R336; snapshot ring. -/
  snapR : Ring := {}
  /-- ms; 13 R336; period; 0 none. -/
  snapPer : Nat := 0
  /-- 64; 13 R336; device time of the last periodic write. -/
  snapAt : Nat := 0
  /-- 256; 12 R306; slot -> context, destination, counter. -/
  mail : Tbl (Option (Nat × Nat × Nat)) := []
  /-- 32; 02 R46; TSC_TIME_HI capture. -/
  tscHi : Word := 0
  /-- 64; 15 R373; device time of the last HEARTBEAT. -/
  beat : Option Nat := none
  /-- 1; 15 R373; orphaned. -/
  orphan : Bool := false
  /-- 1; 15 R369; VF in service. -/
  vf : Bool := false
  /-- 32 KiB; 15 R363; MSI-X table. -/
  msixT : Tbl Byte := []
  /-- 2048; 15 R363; vectors with an event pending. -/
  pba : List Nat := []
  /-- -; 13 R325; contexts quota; unlimited. -/
  qCtxs : Option Nat := none
  /-- -; 13 R325; HBM quota. -/
  qHbm : Option Nat := none
  /-- -; 13 R325; pinned quota. -/
  qPin : Option Nat := none
  /-- -; 13 R325; queues quota. -/
  qQueues : Option Nat := none
  /-- -; 13 R325; counters quota. -/
  qCtrs : Option Nat := none
  /-- -; 13 R325; groups quota. -/
  qGroups : Option Nat := none
  deriving DecidableEq, Repr, Inhabited

/-- a remote request outstanding at its source (R350). -/
structure Rreq where
  /-- 32; 14 R340; TXN. -/
  txn : Nat := 0
  /-- -; 14 R348; the request. -/
  pkt : FPkt := {}
  /-- 8; 12 R300; PORT. -/
  port : Nat := 255
  /-- -; 14 R348; queue key of a link-engine item. -/
  queue : Option Nat := none
  /-- 32; 12 R298; item. -/
  item : Nat := 0
  /-- count; 12 R302; the packet within the queue. -/
  pktId : Nat := 0
  /-- -; 14 R348; identity of the group of a core access. -/
  grp : Option Nat := none
  /-- count; 14 R348; window entry of a core load. -/
  win : Nat := 0
  /-- -; 14 R348; physical destination runs of an engine's GET: address, length. -/
  dest : List (Nat × Nat) := []
  /-- 64; 12 R304; source address of the bytes that an item's GET fetches. -/
  srcVa : Nat := 0
  /-- 32; 12 R300; local counter that a GET counts into, all ones for none. -/
  ctr : Word := 0xFFFFFFFF
  /-- -; 14 R348; the PUT that carries on the bytes of a far source. -/
  next_ : Option FPkt := none
  /-- 1; 14 R348; waits at its link engine, 16,384 being outstanding. -/
  held : Bool := false
  /-- -; 08 R209; groups whose stores a core PUT carries. -/
  owners : List (Nat × Nat × Nat) := []
  /-- -; 07 R178; the stores that a core PUT carries. -/
  org : List SbOrg := []
  /-- 64; 14 R350; device time of the timeout. -/
  deadline : Nat := 0
  /-- ns; 14 R350; present backoff. -/
  backoff : Nat := 0
  /-- 64; 14 R350; device time of the next attempt. -/
  retryAt : Option Nat := none
  deriving DecidableEq, Repr, Inhabited

/-- a fabric port (R339-R344, R353-R356). -/
structure FPort where
  /-- 1; 14 FAB_PORT_CTL.ENABLE; 1. -/
  enable : Bool := true
  /-- 1; 14 FAB_PORT_CTL.DATELINE; 0. -/
  dateline : Bool := false
  /-- 1; 14 FAB_PORT_CTL.TIME_PARENT; 1. -/
  tparent : Bool := true
  /-- 2; 14 FAB_PORT_STATUS.STATE; DOWN. -/
  st : PortSt := .down
  /-- 4; 14 FAB_PORT_STATUS.ACTIVE_LANES; 0. -/
  lanes : Nat := 0
  /-- 1; 14 FAB_PORT_STATUS.SPARE_FREE; 0. -/
  spare : Bool := false
  /-- 16; 14 FAB_PORT_STATUS.PEER_DEVICE; 0. -/
  peer : BitVec 16 := 0
  /-- 6; 14 FAB_PORT_STATUS.PEER_PORT; 0. -/
  peerPort : BitVec 6 := 0
  /-- 1+8; 14 FAB_PORT_EVENTS; 0. -/
  spared : Flag := {}
  /-- 1+8; 14 FAB_PORT_EVENTS; 0. -/
  lost : Flag := {}
  /-- 1+8; 14 FAB_PORT_EVENTS; 0. -/
  downF : Flag := {}
  /-- 1+8; 14 FAB_PORT_EVENTS; 0. -/
  retrained : Flag := {}
  /-- 32; 14 FAB_PORT_LINKERR; 0. -/
  crc : Word := 0
  /-- 32; 14 FAB_PORT_LINKERR; 0. -/
  replays : Word := 0
  /-- 9; 14 R354; failed lanes. -/
  badLanes : List Nat := []
  /-- 4; 14 R354; lane the rotation calibrates next. -/
  rotLane : Nat := 0
  /-- 1; 14 R353; credited packets stopped while lanes change. -/
  moving : Bool := false
  /-- 64; 14 R343; device time of the loss of the link. -/
  lossAt : Option Nat := none
  /-- 4; 14 R342; flits used of the peer's buffer, per VC. -/
  credits : Tbl Nat := []
  /-- 4; 14 R344; CREDIT: flits freed since training. -/
  freed : Tbl (BitVec 16) := []
  /-- 4; 14 R344; last CREDIT received. -/
  peerFreed : Tbl (BitVec 16) := []
  /-- 16; 14 R343; next LSEQ to send. -/
  nextL : BitVec 16 := 0
  /-- 16; 14 R343; next LSEQ expected. -/
  wantL : BitVec 16 := 0
  /-- 1; 14 R344; NAK to send. -/
  nak : Bool := false
  /-- count; 14 R343; successive failures of one packet. -/
  failsN : Nat := 0
  /-- 2048 flits; 14 R343; replay buffer. -/
  replay : List FPkt := []
  /-- 4x512 flits; 14 R342; receive buffer. -/
  rx : List FPkt := []
  /-- -; 14 R346; packets sent on the wire. -/
  tx : List FPkt := []
  /-- count; 14 R344; LINK packets sent. -/
  linkTx : Nat := 0
  /-- 512; 14 R344; the last LINK packet sent. -/
  linkOut : Option LinkPkt := none
  /-- -; 14 R356; T_SEND and local time of the last TIME packet received. -/
  tRecv : Option (DWord × DWord) := none
  /-- -; 14 R355; PRIORITY, MASTER_ID, HOPS the peer advertises. -/
  tMaster : Option (Nat × Nat × Nat) := none
  /-- 64; 14 R355; device time of the last TIME packet. -/
  tAt : Nat := 0
  /-- 1; 14 R356; PPS of the last TIME packet received. -/
  tPps : Bool := false
  /-- count; 14 R356; TIME packets sent. -/
  timeTx : Nat := 0
  /-- 512; 14 R356; the last TIME packet sent. -/
  timeOut : Option TimePkt := none
  deriving DecidableEq, Repr, Inhabited

/-- an I/O die (R17 R346). -/
structure IoDie where
  /-- 16; 14 FAB_ROUTE_INDEX; 0. -/
  routeIx : BitVec 16 := 0
  /-- 65536x64; 14 FAB_ROUTE_DATA; 0. -/
  routes : Tbl DWord := []
  /-- 16; 14 FAB_DROPS.NO_ROUTE; 0. -/
  noRoute : Nat := 0
  /-- 16; 14 FAB_DROPS.HOP_LIMIT; 0. -/
  hopLim : Nat := 0
  /-- 16; 14 FAB_DROPS.MALFORMED; 0. -/
  malformed : Nat := 0
  /-- 64; 14 R347; device time of the last drop record. -/
  dropRec : Option Nat := none
  /-- 1; 17 R416; its 156.25 MHz reference is present. -/
  refclk : Bool := true
  /-- 1; 16 R391; data path out for restart. -/
  out : Bool := false
  /-- 8; 16 R391; unit generation (DESIGN CHOICE 0). -/
  ugen : BitVec 8 := 0
  deriving DecidableEq, Repr, Inhabited

/-- fabric (ch. 14). -/
structure Fabric where
  /-- 16; 14 FAB_CONFIG.DEVICE_ID; from straps. -/
  devId : BitVec 16 := 0xFFFF
  /-- 8; 14 FAB_CONFIG.TIME_PRIORITY; 0xFF. -/
  prio : BitVec 8 := 0xFF
  /-- 1; 14 FAB_CONFIG.PPS_ENABLE; 0. -/
  ppsEn : Bool := false
  /-- 16; 14 FAB_CONFIG.REMOTE_TIMEOUT; 0x0032. -/
  timeout : BitVec 16 := 0x32
  /-- 8; 14 R346; I/O dies. -/
  ios : Tbl IoDie := []
  /-- 64; 14 R339; module ports. -/
  ports : Tbl FPort := []
  /-- -; 14 R350; requests outstanding. -/
  reqs : List Rreq := []
  /-- 32; 14 R340; next TXN; none given (DESIGN CHOICE 0). -/
  nextTxn : Nat := 0
  /-- 6; 14 R355; parent port. -/
  parent : Option Nat := none
  /-- -; 14 R346; packets this device sends, not yet routed, oldest first. -/
  out : List FPkt := []
  deriving DecidableEq, Repr, Inhabited

/-- PCIe port p (R358-R371). -/
structure Pcie where
  /-- 8; 15 PCIE_CFG.TRUSTED_BUS_LO; 0x00. -/
  lo : BitVec 8 := 0
  /-- 8; 15 PCIE_CFG.TRUSTED_BUS_HI; 0xFF. -/
  hi : BitVec 8 := 0xFF
  /-- 1; 15 PCIE_CFG.SET; 0. -/
  cfgSet : Bool := false
  /-- 1; 15 R360; link up. -/
  up : Bool := false
  /-- 64; 15 R360; device time of the last link-up. -/
  upAt : Nat := 0
  /-- 64; 15 R373; device time of the last link loss. -/
  downAt : Option Nat := none
  /-- 1; 15 R360; device traffic of functions f mod 2 = p uses this port. -/
  serving : Bool := false
  /-- 1+8; 15 PCIE_EVENTS; 0. -/
  linkDown : Flag := {}
  /-- 1+8; 15 PCIE_EVENTS; 0. -/
  failover : Flag := {}
  /-- 1+8; 15 PCIE_EVENTS; 0. -/
  peerRej : Flag := {}
  /-- 64; 15 R365; BAR2 size; none given (DESIGN CHOICE: the largest). -/
  bar2 : Nat := 0x10000000000
  deriving DecidableEq, Repr, Inhabited

/-- a PMI response written (R311). -/
structure PmiRsp where
  /-- 6; 12 R309; function. -/
  fn : Nat := 0
  /-- 16; 12 R311; CODE. -/
  code : Nat := 0
  /-- 32; 12 R311; TAG. -/
  tag : Word := 0
  /-- 16; 12 R311; CONTEXT. -/
  ctx : Nat := 0xFFFF
  /-- 8; 12 R311; GENERATION. -/
  gen : BitVec 8 := 0
  /-- 16; 12 R312; STATUS. -/
  status : Nat := 0
  /-- 64; 12 R311; DETAIL. -/
  detail : DWord := 0
  /-- -; 12 R309; payload. -/
  payload : List Byte := []
  /-- 64; 12 R309; PAYLOAD_ADDR of the request. -/
  addr : Nat := 0
  /-- 1; 12 R310; NOTIFY of the request. -/
  notify : Bool := false
  /-- 1; 15 R377; the payload lies at addr whatever its length. -/
  ext : Bool := false
  deriving DecidableEq, Repr, Inhabited

/-- management core (R381 R382 R394). -/
structure MgmtCore where
  /-- 1; 16 R382; in service. -/
  ok : Bool := true
  /-- 1; 16 R394; holds the staged image. -/
  newFw : Bool := false
  deriving DecidableEq, Repr, Inhabited

/-- a requested self-test (R386 R387). -/
structure SelfTest where
  /-- -; 16 R386; request to answer. -/
  h : Hdr := {}
  /-- 8; 16 R386; TARGET. -/
  target : Nat := 0
  /-- 16; 16 R386; UNIT. -/
  unit : Nat := 0
  /-- count; 16 R386; cores tested so far. -/
  next_ : Nat := 0
  /-- 11; 16 R386; physical core swapped out or under test for it. -/
  cur : Option Nat := none
  /-- 8; 16 R387; cores found faulty. -/
  bad : Nat := 0
  deriving DecidableEq, Repr, Inhabited

/-- management domain (ch. 12, 13, 16). -/
structure Mgmt where
  /-- 3; 16 R382; in service. -/
  cores : Tbl MgmtCore := []
  /-- 2; 16 R400; lowest-numbered core. -/
  active : Nat := 0
  /-- 2; 16 R400; next. -/
  standby : Nat := 1
  /-- 2; 16 R400; third. -/
  target : Nat := 2
  /-- 1; 17 R410; Plowin runs. -/
  running : Bool := false
  /-- 1; 17 R411; takes PMI requests. -/
  ready : Bool := false
  /-- 1; 17 R410; flash boot selection; none given (DESIGN CHOICE A). -/
  bootSlot : Nat := 0
  /-- 2; 17 R413; true here: the slot's image failed verification. -/
  slotOk : Tbl Bool := []
  /-- 1; 17 R413; both images failed. -/
  bothBad : Bool := false
  /-- 1; 16 R393; a Plowin image is staged. -/
  staged : Bool := false
  /-- 1; 16 R393; a microcode image is staged. -/
  stagedUc : Bool := false
  /-- -; 16 R393; minimum security version; none given (DESIGN CHOICE 0). -/
  minVer : Nat := 0
  /-- 64; 16 R394; device time of a switch-over awaiting commit. -/
  commitAt : Option Nat := none
  /-- 2; 16 R394; core that still holds the old image. -/
  formerActive : Option Nat := none
  /-- 8; 16 R395; dies still to activate. -/
  ucDies : List Nat := []
  /-- -; 16 R395; FW_ACTIVATE to answer. -/
  ucReq : Option Hdr := none
  /-- 16; 13 R319; share groups: fraction, members. -/
  groupsG : Tbl (Option (Nat × List Nat)) := []
  /-- -; 13 R319; share groups from the next evaluation. -/
  newGroupsG : Option (Tbl (Option (Nat × List Nat))) := none
  /-- -; 16 R387; queued self-tests. -/
  tests : List SelfTest := []
  /-- count; 08 R195; conversion requests numbered; the spec gives no number (DESIGN CHOICE 0). -/
  reqSeq : Nat := 0
  /-- -; 12 R309; responses written, oldest first. -/
  responses : List PmiRsp := []
  /-- -; 12 R309; responses the response ring has no room for. -/
  heldRsp : List PmiRsp := []
  /-- 64; 13 R333; device time of the last sample; none given (DESIGN CHOICE 0). -/
  sampleAt : Nat := 0
  /-- 64; 13 R334; energy that is device overhead, in mJ; none given (DESIGN CHOICE 0). -/
  overheadMj : Nat := 0
  deriving DecidableEq, Repr, Inhabited

/-- an error record (R398). -/
structure ErrRec where
  /-- 64; 16 R398; TSC. -/
  tsc : DWord := 0
  /-- 16; 16 R398; SOURCE. -/
  source : Nat := 0
  /-- 8; 16 R399; CLASS. -/
  cls : Nat := 0
  /-- 8; 16 R398; SEVERITY. -/
  sev : Nat := 0
  /-- 16; 16 R398; CONTEXT. -/
  ctx : Nat := 0xFFFF
  /-- 8; 16 R398; GENERATION. -/
  gen : BitVec 8 := 0
  /-- 8; 16 R398; FLAGS. -/
  flags : Nat := 0
  /-- 16; 16 R398; PHYS_UNIT. -/
  unit : Nat := 0
  /-- 16; 16 R398; LOGICAL. -/
  logical : Nat := 0xFFFF
  /-- 8; 16 R398; DIE. -/
  die : Nat := 0
  /-- 8; 16 R398; EVENT. -/
  event : Nat := 0
  /-- 64; 16 R398; ADDRESS. -/
  addr : Nat := 0
  /-- 128; 16 R398; SYNDROME. -/
  synd : Nat := 0
  /-- 32; 16 R398; SEQ. -/
  seq : Nat := 0
  deriving DecidableEq, Repr, Inhabited

/-- ERR_ block (R401 R397). -/
structure ErrUnit where
  /-- 64; 16 ERR_ERING_BASE; 0. -/
  base : DWord := 0
  /-- 32; 16 ERR_ERING_HEAD; 0. -/
  head : Word := 0
  /-- 32; 16 ERR_ERING_STATUS.TAIL; 0. -/
  tail : Word := 0
  /-- 64; 16 R401; first tail write whose interrupt is still to be raised. -/
  irqAt : Option Nat := none
  /-- 1; 16 ERR_ERING_STATUS.LOST; 0. -/
  lost : Bool := false
  /-- 24; 16 ERR_ERING_STATUS.MERGED; 0. -/
  merged : Nat := 0
  /-- 32; 16 R398; counts from 0 at power-up. -/
  seq : Nat := 0
  /-- 262144; 16 R401; error log: records held, oldest first. -/
  log : List ErrRec := []
  /-- 256; 17 R420; records written or held, newest first, kept in management memory. -/
  last : List ErrRec := []
  /-- 1; 16 ERR_DUMP_CTL.AUTO_RESTART; 0. -/
  auto : Bool := false
  /-- 52; 16 ERR_DUMP_CTL.ADDR; 0. -/
  dumpAddr : Nat := 0
  /-- 1; 16 ERR_DUMP_STATUS.VALID; 0. -/
  valid : Bool := false
  /-- 1; 16 ERR_DUMP_STATUS.COPYING; 0. -/
  copying : Bool := false
  /-- 1; 16 ERR_DUMP_STATUS.COPIED; 0. -/
  copied : Bool := false
  /-- 32; 16 ERR_DUMP_STATUS.SEQ; 0. -/
  dumpSeq : Word := 0
  deriving DecidableEq, Repr, Inhabited

/-- the whole device. -/
structure State where
  /-- -; MODEL; commands waiting, first in first out (not the spec's). -/
  pending : List Instr := []
  /-- -; MODEL; counter the free values are taken at (not the spec's; DESIGN CHOICE 0). -/
  freeN : Nat := 0
  /-- 2; 00 R1; assembly variant (DESIGN CHOICE 12M4X, the standard part). -/
  variant : Variant := .v12M4X
  /-- -; 02 17; supplies, power manager, governors, quads. -/
  pwr : Power := {}
  /-- -; 02 R42; device time. -/
  tsc : Tsc := {}
  /-- -; 01 R21; core map. -/
  mesh : Mesh := {}
  /-- 1152; 01 R15; physical cores. -/
  cores : Tbl Core := []
  /-- 49152; 07 R150; key 48*logical core + slot. -/
  groups : Tbl Group := []
  /-- -; 13 R332; saved groups. -/
  saved : List Group := []
  /-- 2^48; 08 R202; bytes at their homes: HBM, pinned tier, host window; 0 unwritten (DESIGN CHOICE). -/
  mem : Tbl Byte := []
  /-- -; 08; tier, HBM, homes. -/
  tier : Tier := {}
  /-- -; 10; translation. -/
  xl : Xlat := {}
  /-- -; 11; counters and fences. -/
  sync : Sync := {}
  /-- -; 12 R288; key 1024*engine + number, engine as in the BAR0 map. -/
  qs : Tbl Queue := []
  /-- 32; 12 R288; key as in the BAR0 map. -/
  engines : Tbl Engine := []
  /-- -; 12 R297; key 2^32*die + sequence number. -/
  launches : Tbl Launch := []
  /-- 4096; 12 R314; contexts. -/
  ctxs : Tbl Ctx := []
  /-- 64; 15 R363; functions. -/
  fns : Tbl Fn := []
  /-- -; 14; fabric. -/
  fab : Fabric := {}
  /-- 2; 15; PCIe ports. -/
  pcie : Tbl Pcie := []
  /-- -; 12 16; management domain. -/
  mgmt : Mgmt := {}
  /-- -; 16; error records and dump. -/
  err : ErrUnit := {}
  /-- -; 15 R358; MSI-X messages sent (function, vector), newest first. -/
  msix : List (Nat × Nat × Nat) := []
  /-- -; 09 R232; posted writes sent to the host by cores, each its written (bus address, byte) pairs, newest first. -/
  wire : List (Nat × Nat × List (Nat × Byte)) := []
  /-- -; 15 R366; completion of the last host read through BAR2: 0 successful, 1 Completer Abort, 2 poisoned; with its bytes; nothing read. -/
  bar2Rsp : Nat × List Byte := (0, [])
  /-- 64; 00 R11; value returned to the last host read. -/
  lastRead : DWord := 0
  deriving DecidableEq, Repr, Inhabited

/-- The device right after 12 V is applied (R410 step 1): every field at its reset value. -/
def State.reset : State := {}

end Sys2Proof.Machine
end

