-- ==== Sys2Proof/Machine/Flags.lean ====
section
/-! DEFINITION. Status flags (R402), the conditions of the test instructions (R174) and of sync waits (R274). -/
namespace Sys2Proof.Machine

/-- Hardware sets a flag: the count beside it rises, wrapping from 255 to 0 (R402). -/
def Flag.raise (f : Flag) : Flag := { on := true, count := f.count + 1 }

/-- A handshake of an RW1C flag: software writes `w`, hardware sets it when `hw`; the set wins (R402). -/
def Flag.write (f : Flag) (w hw : Bool) : Flag :=
  if hw then f.raise else { f with on := f.on && !w }

/-- The register fields of a flag. -/
def Flag.bitN (f : Flag) (i : Nat) : Nat := if f.on then 2 ^ i else 0
def Flag.countN (f : Flag) (i : Nat) : Nat := f.count.toNat * 2 ^ i

/-- Condition of INT.TEST on w-bit operands, signed (R174). Integers have no unordered pair. -/
def intCmp (w : Nat) (c : Cond) (a b : Nat) : Bool :=
  let s (x : Nat) : Int := if 2 * (x % 2 ^ w) < 2 ^ w then (x % 2 ^ w : Nat) else ((x % 2 ^ w : Nat) : Int) - 2 ^ w
  match c with
  | .eq => a % 2 ^ w == b % 2 ^ w
  | .ne => a % 2 ^ w != b % 2 ^ w
  | .lt => decide (s a < s b)
  | .le => decide (s a ≤ s b)
  | .gt => decide (s b < s a)
  | .ge => decide (s b ≤ s a)
  | .un => false

/-- Condition of a sync wait on a counter value (R273): GE and TRYDEC, EQ, NZ. -/
def syncCond (cond : Nat) (c v : DWord) : Bool :=
  match cond with
  | 0x10 | 0x13 => decide (v.toNat ≤ c.toNat)
  | 0x11 => c == v
  | _ => c != 0

end Sys2Proof.Machine
end

