-- ==== Sys2Proof/Machine/Topo.lean ====
section
/-! DEFINITION. Where things are: variants, dies, quads, sites, the logical mesh, the address map and the
homes of lines (ch. 01, 08). -/
namespace Sys2Proof.Machine

/-! ### Variants (R1 R17 R18) -/

/-- Sites that hold I/O dies, ascending (R17). -/
def ioSites : Variant → List Nat
  | .v12M4X => [1, 3, 13, 15]
  | .v8M8X => [1, 3, 5, 7, 9, 11, 13, 15]
  | .v14M2X => [1, 3]

/-- Sites that hold HBM stacks, ascending (R17). -/
def hbmSites (v : Variant) : List Nat := (List.range 16).filter fun x => !(ioSites v).contains x

def nIo (v : Variant) : Nat := (ioSites v).length
def nStacks (v : Variant) : Nat := (hbmSites v).length
/-- Fabric ports 0 to 8n - 1 (R18). -/
def nPorts (v : Variant) : Nat := 8 * nIo v

/-- Module TDP, the top of the cap range (R1, table of R18). -/
def tdp : Variant → Nat
  | .v12M4X => 3000 | .v8M8X => 3200 | .v14M2X => 2900
def minCap : Nat := 1200

/-- Compute die that owns the site of stack h or I/O die x. -/
def stackDie (v : Variant) (h : Nat) : Nat := ((hbmSites v).getD h 0) / 2
def ioOwner (v : Variant) (x : Nat) : Nat := ((ioSites v).getD x 0) / 2

/-- Stacks of a die, lower number first (R201). -/
def stacksOf (v : Variant) (d : Nat) : List Nat := (List.range (nStacks v)).filter fun h => stackDie v h = d
/-- Those that trained: a stack that failed twice leaves the window to the other one (R413). -/
def liveStacks (s : State) (d : Nat) : List Nat := (stacksOf s.variant d).filter fun h => !(s.tier.hbms.get h).failed
/-- Usable bytes of a die's HBM window (R201). -/
def hbmSize (s : State) (d : Nat) : Nat := 0xF00000000 * (liveStacks s d).length

/-! ### Physical cores (R15) and dies (R16) -/

def pDie (p : Nat) : Nat := p / 144
def pRow (p : Nat) : Nat := p % 144 / 12
def pCol (p : Nat) : Nat := p % 12
/-- Quad of the die, and the key of the module's quad table. -/
def pQuad (p : Nat) : Nat := 6 * (pRow p / 2) + pCol p / 2
def quadKey (p : Nat) : Nat := 36 * pDie p + pQuad p
/-- Physical cores of quad q of die d. -/
def coresOfQuad (d q : Nat) : List Nat :=
  (List.range 144).filterMap fun i => if pQuad i = q then some (144 * d + i) else none
def dist (a b : Nat) : Nat := if a ≤ b then b - a else a - b
/-- Mesh hops between two physical cores of one die. -/
def hops (p q : Nat) : Nat := dist (pRow p) (pRow q) + dist (pCol p) (pCol q)
/-- Links between two compute dies: along the row, then the column (R16). -/
def dieLinks (a b : Nat) : Nat := dist (a % 2) (b % 2) + dist (a / 2) (b / 2)

/-! ### Logical mesh (R19 to R22) -/

def lX (c : Nat) : Nat := c % 32
def lY (c : Nat) : Nat := c / 32
def lDie (c : Nat) : Nat := 2 * (lY c / 8) + lX c / 16
/-- Die-local core number, row by row, and back. -/
def lLocal (c : Nat) : Nat := 16 * (lY c % 8) + lX c % 16
def lOf (d i : Nat) : Nat := 32 * (8 * (d / 2) + i / 16) + 16 * (d % 2) + i % 16
/-- Logical cores of a die, ascending die-local number. -/
def lCores (d : Nat) : List Nat := (List.range 128).map (lOf d)
/-- Logical neighbour in a direction: 0 north, 1 east, 2 south, 3 west (R20). -/
def lNeighbour (c dir : Nat) : Option Nat :=
  match dir with
  | 0 => if 1 ≤ lY c then some (c - 32) else none
  | 1 => if lX c < 31 then some (c + 1) else none
  | 2 => if lY c < 31 then some (c + 32) else none
  | _ => if 1 ≤ lX c then some (c - 1) else none

/-- The start map: each 4 by 2 block of logical cores lies on a 3 by 3 block of physical cores, whose
remaining core is a stand-in. It keeps R21. DESIGN CHOICE (notes/assumptions/7.md). -/
def startPhys (c : Nat) : Nat :=
  let x := lX c % 16
  let y := lY c % 8
  let i := [0, 1, 2, 4, 3, 5, 7, 8].getD (4 * (y % 2) + x % 4) 0
  144 * lDie c + 12 * (3 * (y / 2) + i / 3) + 3 * (x / 4) + i % 3

/-- Physical core behind a logical ID, none once it is fenced without replacement (R21 R22). -/
def physOf (m : Mesh) (c : Nat) : Option Nat :=
  match m.map.get c with
  | none => some (startPhys c)
  | some 0 => none
  | some (p + 1) => some p
/-- Logical ID of a physical core, none for a stand-in. -/
def logOf (m : Mesh) (p : Nat) : Option Nat := (lCores (pDie p)).find? fun c => physOf m c = some p

/-- Where a logical core is and, while a swap of it is under way, where it will be. -/
def placesOf (m : Mesh) (c : Nat) : List Nat :=
  (physOf m c).toList ++ (match m.swaps.get c with | some (q, _, _) => [q] | none => [])
/-- On-die logical neighbours (R20). -/
def onDie (c : Nat) : List Nat := ((List.range 4).filterMap (lNeighbour c)).filter fun n => lDie n = lDie c
/-- R21: one to three hops to every place of every on-die neighbour, the places that swaps under way move them to
included. -/
def keepsR21 (m : Mesh) (c p : Nat) : Bool :=
  (onDie c).all fun n => (placesOf m n).all fun q => decide (1 ≤ hops p q) && decide (hops p q ≤ 3)
/-- Largest hop distance to on-die neighbours (R384). -/
def worstHop (m : Mesh) (c p : Nat) : Nat :=
  (onDie c).foldl (init := 0) fun a n => match physOf m n with | none => a | some q => max a (hops p q)

/-! ### The local physical address map (R202) -/

/-- What lies at a local address. -/
inductive Zone where
  | hbm (d : Nat)
  | pinned (d : Nat)
  | host
  | ctrlDie (d : Nat)
  | ctrlIo (x : Nat)
  | ctrlMgmt
  | nothing
  deriving DecidableEq, Repr, Inhabited

def hbmBase (d : Nat) : Nat := d * 0x2000000000
def pinBase (d : Nat) : Nat := 0x100000000000 + d * 0x200000000
def ctrlDieBase (d : Nat) : Nat := 0xF00000000000 + d * 0x1000000
def ctrlIoBase (x : Nat) : Nat := 0xF01000000000 + x * 0x1000000
def ctrlMgmtBase : Nat := 0xF02000000000
def hostBase : Nat := 0x200000000000

/-- The table of R202. -/
def zoneOf (a : Nat) : Zone :=
  if a < 0x10000000000 then .hbm (a / 0x2000000000)
  else if 0x100000000000 ≤ a && a < 0x101000000000 then .pinned ((a - 0x100000000000) / 0x200000000)
  else if hostBase ≤ a && a < 0x300000000000 then .host
  else if 0xF00000000000 ≤ a && a < 0xF00008000000 then .ctrlDie ((a - 0xF00000000000) / 0x1000000)
  else if 0xF01000000000 ≤ a && a < 0xF01008000000 then .ctrlIo ((a - 0xF01000000000) / 0x1000000)
  else if 0xF02000000000 ≤ a && a < 0xF02001000000 then .ctrlMgmt
  else .nothing

/-- Device ID and local part of a full physical address (R202). -/
def paDev (pa : Nat) : Nat := pa / 2 ^ 48 % 2 ^ 16
def paLocal (pa : Nat) : Nat := pa % 2 ^ 48
def paOf (dev a : Nat) : Nat := dev * 2 ^ 48 + a

/-! ### Homes (R187 R204) -/

def bits (a hi lo : Nat) : Nat := a / 2 ^ lo % 2 ^ (hi + 1 - lo)
/-- Key of the home slice of a local address: 64 die + slice. -/
def homeSlice (a : Nat) : Nat :=
  match zoneOf a with
  | .pinned d => 64 * d + bits (a - pinBase d) 32 27
  | _ => 64 * bits a 39 37 + (bits a 12 7 ^^^ bits a 18 13 ^^^ bits a 24 19)
def homeDie (a : Nat) : Nat := homeSlice a / 64
/-- Set of a line in its home slice. -/
def setOf (a : Nat) : Nat :=
  match zoneOf a with
  | .pinned d => bits (a - pinBase d) 22 7
  | _ => bits a 28 13
/-- Way of a pinned address (R204). -/
def pinWay (a : Nat) : Nat := match zoneOf a with | .pinned d => 15 - bits (a - pinBase d) 26 23 | _ => 0
/-- Stack and stack offset of a local HBM address (R201). -/
def stackAt (s : State) (a : Nat) : Nat × Nat :=
  let d := a / 0x2000000000
  let o := a % 0x2000000000
  match liveStacks s d with
  | [h] => (h, o)
  | h :: k :: _ => (if bits o 12 12 = 0 then h else k, bits o 36 13 * 4096 + o % 4096)
  | [] => (0, o)
/-- A local address of a stack's offset, the inverse of `stackAt`. -/
def stackAddr (s : State) (h off : Nat) : Nat :=
  let d := stackDie s.variant h
  match liveStacks s d with
  | [_] => hbmBase d + off
  | l :: _ => hbmBase d + off / 4096 * 8192 + (if h = l then 0 else 4096) + off % 4096
  | [] => hbmBase d + off

/-- The 128 B line of an address. -/
def lineOf (a : Nat) : Nat := a / 128 * 128

/-! ### Source numbers of R23 -/

def srcSlice (d i : Nat) : Nat := 0x800 + 64 * d + i
def srcHbm (h : Nat) : Nat := 0xA00 + h
def srcKeng (d : Nat) : Nat := 0xC00 + d
def srcCeng (k : Nat) : Nat := 0xC10 + k
def srcLeng (x : Nat) : Nat := 0xC20 + x
def srcPort (n : Nat) : Nat := 0xD00 + n
def srcPcie (p : Nat) : Nat := 0xE00 + p
def srcMgmt (m : Nat) : Nat := 0xF00 + m
def srcPower : Nat := 0xF10

/-- Engine number as in the BAR0 map: kernel 0 to 7, copy 8 to 23, link 24 to 31. -/
def engSrc (e : Nat) : Nat := if e < 8 then srcKeng e else if e < 24 then srcCeng (e - 8) else srcLeng (e - 24)
def engDie (v : Variant) (e : Nat) : Nat := if e < 8 then e else if e < 24 then (e - 8) / 2 else ioOwner v (e - 24)
def engExists (v : Variant) (e : Nat) : Bool := decide (e < 24) || decide (e - 24 < nIo v)
def queueKey (e q : Nat) : Nat := 1024 * e + q

/-- Group slot key. -/
def gKey (core slot : Nat) : Nat := 48 * core + slot
def launchKey (die seq : Nat) : Nat := 2 ^ 32 * die + seq

end Sys2Proof.Machine
end

