-- ==== Sys2Proof/Machine/Ops.lean ====
section
/-! DEFINITION. The named operations every command is written over: updates of the state, bytes and
memory, free values, error records, interrupts, rings, management responses, accounting, generations,
translation. -/
namespace Sys2Proof.Machine

/-- What a meaning answers. -/
abbrev Out := Host.Outcome State Fault Refusal

/-! ### Updates of the state -/

/-- Change `pending`. -/
def State.onPending (s : State) (g : List Instr → List Instr) : State := { s with pending := g s.pending }
/-- Change `freeN`. -/
def State.onFreeN (s : State) (g : Nat → Nat) : State := { s with freeN := g s.freeN }
/-- Change `variant`. -/
def State.onVariant (s : State) (g : Variant → Variant) : State := { s with variant := g s.variant }
/-- Change `pwr`. -/
def State.onPwr (s : State) (g : Power → Power) : State := { s with pwr := g s.pwr }
/-- Change `tsc`. -/
def State.onTsc (s : State) (g : Tsc → Tsc) : State := { s with tsc := g s.tsc }
/-- Change `mesh`. -/
def State.onMesh (s : State) (g : Mesh → Mesh) : State := { s with mesh := g s.mesh }
/-- Change `cores`. -/
def State.onCores (s : State) (g : Tbl Core → Tbl Core) : State := { s with cores := g s.cores }
/-- Change `groups`. -/
def State.onGroups (s : State) (g : Tbl Group → Tbl Group) : State := { s with groups := g s.groups }
/-- Change `saved`. -/
def State.onSaved (s : State) (g : List Group → List Group) : State := { s with saved := g s.saved }
/-- Change `mem`. -/
def State.onMem (s : State) (g : Tbl Byte → Tbl Byte) : State := { s with mem := g s.mem }
/-- Change `tier`. -/
def State.onTier (s : State) (g : Tier → Tier) : State := { s with tier := g s.tier }
/-- Change `xl`. -/
def State.onXl (s : State) (g : Xlat → Xlat) : State := { s with xl := g s.xl }
/-- Change `sync`. -/
def State.onSync (s : State) (g : Sync → Sync) : State := { s with sync := g s.sync }
/-- Change `qs`. -/
def State.onQs (s : State) (g : Tbl Queue → Tbl Queue) : State := { s with qs := g s.qs }
/-- Change `engines`. -/
def State.onEngines (s : State) (g : Tbl Engine → Tbl Engine) : State := { s with engines := g s.engines }
/-- Change `launches`. -/
def State.onLaunches (s : State) (g : Tbl Launch → Tbl Launch) : State := { s with launches := g s.launches }
/-- Change `ctxs`. -/
def State.onCtxs (s : State) (g : Tbl Ctx → Tbl Ctx) : State := { s with ctxs := g s.ctxs }
/-- Change `fns`. -/
def State.onFns (s : State) (g : Tbl Fn → Tbl Fn) : State := { s with fns := g s.fns }
/-- Change `fab`. -/
def State.onFab (s : State) (g : Fabric → Fabric) : State := { s with fab := g s.fab }
/-- Change `pcie`. -/
def State.onPcie (s : State) (g : Tbl Pcie → Tbl Pcie) : State := { s with pcie := g s.pcie }
/-- Change `mgmt`. -/
def State.onMgmt (s : State) (g : Mgmt → Mgmt) : State := { s with mgmt := g s.mgmt }
/-- Change `err`. -/
def State.onErr (s : State) (g : ErrUnit → ErrUnit) : State := { s with err := g s.err }
/-- Change `msix`. -/
def State.onMsix (s : State) (g : List (Nat × Nat × Nat) → List (Nat × Nat × Nat)) : State := { s with msix := g s.msix }
/-- Change `wire`. -/
def State.onWire (s : State) (g : List (Nat × Nat × List (Nat × Byte)) → List (Nat × Nat × List (Nat × Byte))) : State := { s with wire := g s.wire }
/-- Change `bar2Rsp`. -/
def State.onBar2Rsp (s : State) (g : Nat × List Byte → Nat × List Byte) : State := { s with bar2Rsp := g s.bar2Rsp }
/-- Change `lastRead`. -/
def State.onLastRead (s : State) (g : DWord → DWord) : State := { s with lastRead := g s.lastRead }

/-- Change one entry of a table of the state. -/
def State.onCore (s : State) (p : Nat) (g : Core → Core) : State := s.onCores fun t => t.upd p g
def State.onGroup (s : State) (k : Nat) (g : Group → Group) : State := s.onGroups fun t => t.upd k g
def State.onQuad (s : State) (k : Nat) (g : Quad → Quad) : State := s.onPwr fun w => { w with quads := w.quads.upd k g }
def State.onGov (s : State) (d : Nat) (g : Governor → Governor) : State := s.onPwr fun w => { w with gov := w.gov.upd d g }
def State.onSlice (s : State) (k : Nat) (g : Slice → Slice) : State := s.onTier fun t => { t with slices := t.slices.upd k g }
def State.onStack (s : State) (h : Nat) (g : Stack → Stack) : State := s.onTier fun t => { t with hbms := t.hbms.upd h g }
def State.onDom (s : State) (d : Nat) (g : DieDom → DieDom) : State := s.onTier fun t => { t with dies := t.dies.upd d g }
def State.onCtr (s : State) (i : Nat) (g : Ctr → Ctr) : State := s.onSync fun y => { y with ctrs := y.ctrs.upd i g }
def State.onFence (s : State) (k : Nat) (g : Fence → Fence) : State := s.onSync fun y => { y with fences := y.fences.upd k g }
def State.onSyncDie (s : State) (d : Nat) (g : SyncDie → SyncDie) : State := s.onSync fun y => { y with dies := y.dies.upd d g }
def State.onQueue (s : State) (k : Nat) (g : Queue → Queue) : State := s.onQs fun t => t.upd k g
def State.onEngine (s : State) (e : Nat) (g : Engine → Engine) : State := s.onEngines fun t => t.upd e g
def State.onLaunch (s : State) (k : Nat) (g : Launch → Launch) : State := s.onLaunches fun t => t.upd k g
def State.onCtx (s : State) (c : Nat) (g : Ctx → Ctx) : State := s.onCtxs fun t => t.upd c g
def State.onFn (s : State) (f : Nat) (g : Fn → Fn) : State := s.onFns fun t => t.upd f g
def State.onIo (s : State) (x : Nat) (g : IoDie → IoDie) : State := s.onFab fun f => { f with ios := f.ios.upd x g }
def State.onPort (s : State) (p : Nat) (g : FPort → FPort) : State := s.onFab fun f => { f with ports := f.ports.upd p g }
def State.onPci (s : State) (p : Nat) (g : Pcie → Pcie) : State := s.onPcie fun t => t.upd p g

/-- Device time in ns (R42). -/
def State.now (s : State) : Nat := s.tsc.time.toNat
def State.group (s : State) (k : Nat) : Group := s.groups.get k
def State.ctx (s : State) (c : Nat) : Ctx := s.ctxs.get c
def State.fn (s : State) (f : Nat) : Fn := s.fns.get f
def State.queue (s : State) (k : Nat) : Queue := s.qs.get k
def State.core (s : State) (p : Nat) : Core := s.cores.get p
def State.phys (s : State) (c : Nat) : Option Nat := physOf s.mesh c
def State.devId (s : State) : Nat := s.fab.devId.toNat

/-- Repeat a change over a list. -/
def forAll {α : Type} (l : List α) (f : α → State → State) (s : State) : State := l.foldl (fun s x => f x s) s

/-- The next free value, and the state after drawing it. -/
def State.draw (s : State) : DWord := Config.freeValue s.freeN
def State.drawn (s : State) : State := s.onFreeN (· + 1)

/-- A counter that slews back to the returned reference is locked to it again once nothing is left to slew (R44). -/
def relocked (t : Tsc) : Tsc := if t.relock && t.ref && t.slew = 0 then { t with locked := true, relock := false } else t

/-! ### Bytes (R10) -/

/-- The low k bytes of n, little-endian. -/
def leBytes : Nat → Nat → List Byte
  | 0, _ => []
  | k + 1, n => BitVec.ofNat 8 n :: leBytes k (n / 256)
/-- The little-endian number of bytes. -/
def leNat : List Byte → Nat
  | [] => 0
  | b :: t => b.toNat + 256 * leNat t
/-- Bytes [i, i + n) of a list, zero beyond its end. -/
def slice (l : List Byte) (i n : Nat) : List Byte := let t := (l.drop i).take n; t ++ List.replicate (n - t.length) 0
/-- The number in bytes [i, i + n). -/
def fieldN (l : List Byte) (i n : Nat) : Nat := leNat (slice l i n)
def zeros (n : Nat) : List Byte := List.replicate n 0
/-- Byte i of a list, 0 beyond it. -/
def byteN (l : List Byte) (i : Nat) : Nat := (l.getD i 0).toNat
/-- A byte whose bits of the mask are replaced. -/
def mixBits (mask old new : Nat) : Byte := BitVec.ofNat 8 ((old &&& (255 ^^^ mask)) ||| (new &&& mask))
/-- Fixed length: cut or padded with zeros. -/
def padTo (n : Nat) (l : List Byte) : List Byte := slice l 0 n

def readTbl (t : Tbl Byte) (a n : Nat) : List Byte := (List.range n).map fun i => t.get (a + i)
def writeTbl (t : Tbl Byte) (a : Nat) : List Byte → Tbl Byte
  | [] => t
  | b :: l => writeTbl (t.put a b) (a + 1) l

/-- Write a long block in one pass. -/
def cells : Nat → List Byte → List (Nat × Byte)
  | _, [] => []
  | a, b :: l => if b = 0 then cells (a + 1) l else (a, b) :: cells (a + 1) l
def writeBlock (t : Tbl Byte) (a : Nat) (l : List Byte) : Tbl Byte := t.splice a l.length (cells a l)

/-- Bytes at their homes. -/
def State.rd (s : State) (a n : Nat) : List Byte := readTbl s.mem a n
def State.wr (s : State) (a : Nat) (l : List Byte) : State := s.onMem fun t => writeTbl t a l
/-- Host memory lies at the host window plus the bus address. -/
def State.hostWr (s : State) (bus : Nat) (l : List Byte) : State := s.wr (hostBase + bus) l
def State.hostRd (s : State) (bus n : Nat) : List Byte := s.rd (hostBase + bus) n

/-! ### Reaching the host (R360 R373 R376) -/

/-- The port that carries what the device originates for a function: port f mod 2 while it serves, else the other one
(R360). -/
def State.portOf (s : State) (f : Nat) : Nat :=
  let own := s.pcie.get (f % 2)
  if (own.up && own.serving) || !(s.pcie.get (1 - f % 2)).up then f % 2 else 1 - f % 2
/-- Some link is up and the function is not orphaned. -/
def State.reach (s : State) (f : Nat) : Bool :=
  !(s.fn f).orphan && ((s.pcie.get 0).up || (s.pcie.get 1).up)
/-- Records of the context are held: it is orphaned, claimed without delivery, or its host is gone. -/
def State.ctxHeld (s : State) (f c : Nat) : Bool :=
  !s.reach f || (s.ctx c).orphanedAt.isSome || (s.ctx c).noDeliver

/-- A byte of a function's MSI-X table. The low bit of byte 12 of an entry is the vector's mask bit, which PCI Express
resets to 1: it is kept inverted, so that an unlisted byte is one at its reset value. -/
def msixFlip (i : Nat) : Byte := if i % 16 = 12 then 1 else 0
def Fn.msixByte (x : Fn) (i : Nat) : Byte := x.msixT.get i ^^^ msixFlip i
def Fn.masked (x : Fn) (vec : Nat) : Bool := x.msixByte (16 * vec + 12) &&& 1 != 0

/-- Raise a vector of a function: an MSI-X message, or a pending bit while it is masked or the host is gone
(R358 R375). -/
def msixRaise (f vec : Nat) (s : State) : State :=
  if s.reach f && !(s.fn f).masked vec then s.onMsix fun l => (s.portOf f, f, vec) :: l
  else s.onFn f fun x => { x with pba := if x.pba.contains vec then x.pba else x.pba ++ [vec] }
/-- Bytes of the MSI-X table are written; a pending vector that is no longer masked is sent. -/
def msixWrite (f i : Nat) (b : List Byte) (s : State) : State :=
  let s := s.onFn f fun x =>
    { x with msixT := (List.range b.length).foldl (fun t k => t.put (i + k) (b.getD k 0 ^^^ msixFlip (i + k))) x.msixT }
  let v := i / 16
  if (s.fn f).pba.contains v && !(s.fn f).masked v then msixRaise f v (s.onFn f fun x => { x with pba := x.pba.erase v }) else s

/-! ### Error records (R398 to R401) -/

def ErrRec.bytes (r : ErrRec) : List Byte :=
  leBytes 8 r.tsc.toNat ++ leBytes 2 r.source ++ leBytes 1 r.cls ++ leBytes 1 r.sev ++ leBytes 2 r.ctx ++
  [r.gen] ++ leBytes 1 r.flags ++ leBytes 2 r.unit ++ leBytes 2 r.logical ++ leBytes 1 r.die ++
  leBytes 1 r.event ++ zeros 2 ++ leBytes 8 r.addr ++ leBytes 16 r.synd ++ leBytes 4 r.seq ++ zeros 12

def ErrUnit.enable (e : ErrUnit) : Bool := e.base.toNat % 2 = 1
def ErrUnit.size (e : ErrUnit) : Nat := 2 ^ (e.base.toNat / 2 ^ 12 % 16 + 6)
def ErrUnit.vector (e : ErrUnit) : Nat := e.base.toNat / 2 % 2048
def ErrUnit.addr (e : ErrUnit) : Nat := e.base.toNat / 2 ^ 16 * 2 ^ 16
/-- Room in the error ring. -/
def errRoom (s : State) : Bool :=
  s.err.enable && s.reach 0 && decide ((s.err.tail - s.err.head).toNat < s.err.size)

/-- Write one record at the tail of the error ring; its vector is raised within 1 us, once for tail writes that fall
within 1 us of one another (R262 R401). -/
def errPut (s : State) (r : ErrRec) : State :=
  (s.hostWr (s.err.addr + 64 * (s.err.tail.toNat % s.err.size)) r.bytes).onErr fun e => { e with tail := e.tail + 1, irqAt := some (e.irqAt.getD s.now) }

/-- Held records go to the ring in SEQ order while it has room. -/
def errFlush (s : State) : State :=
  s.err.log.foldl (fun s r => if errRoom s then errPut s r else s.onErr fun e => { e with log := e.log ++ [r] })
    (s.onErr fun e => { e with log := [] })

/-- Entries of the error log that records other than FATAL may fill. -/
def errLogCap : Nat := 262144 - 16
/-- Bytes of the R376 buffer that error records occupy. -/
def errBuf (e : ErrUnit) : Nat := 64 * (e.log.length - errLogCap)

/-- Bytes of the 64 MiB held-record buffer in use: held records of orphaned contexts and functions, held
completions, held snapshots, error records beyond the log (R376 R401). -/
def heldBytes (s : State) : Nat :=
  errBuf s.err
  + (s.fns.map fun (f, x) =>
      ([x.fault, x.park, x.notify, x.snapR].map fun r =>
        ((r.held.filter fun (c, _, _) => s.ctxHeld f c).map fun (_, _, b) => b.length).sum).sum).sum
  + (s.qs.map fun (_, q) => (q.pkts.map (·.hold)).sum).sum
  + (s.ctxs.map fun (_, c) => c.snapHeld.length).sum
def heldCap : Nat := 64 * 2 ^ 20

def errHold (s : State) (r : ErrRec) : State :=
  let e := s.err
  let add (s : State) : State := s.onErr fun e => { e with log := e.log ++ [r], seq := (e.seq + 1) % 2 ^ 32, last := (r :: e.last).take 256 }
  let merge (s : State) : State := s.onErr fun e => { e with merged := min (e.merged + 1) 0xFFFFFF, lost := e.lost || decide (r.sev ≠ 0) }
  if r.sev = 3 || decide (e.log.length < errLogCap) then add s
  else if r.sev = 0 then merge s
  else if heldBytes s + 64 ≤ heldCap then add s else merge s

/-- A PHYSICAL address of a record is a full one (R202 R398). -/
def ErrRec.full (s : State) (r : ErrRec) : ErrRec :=
  if r.flags.testBit 1 && decide (r.addr < 2 ^ 48) then { r with addr := s.devId * 2 ^ 48 + r.addr } else r
/-- An error record is made: time and SEQ are the device's, and it is written or held (R398 R401). -/
def errAdd (r : ErrRec) (s : State) : State :=
  errFlush (errHold s { r.full s with tsc := s.tsc.time, seq := s.err.seq })

/-- Severities and classes (R398 R399). -/
def sevCorrected : Nat := 0
def sevContained : Nat := 1
def sevDegraded : Nat := 2
def sevFatal : Nat := 3
def clArray : Nat := 1
def clResidue : Nat := 2
def clRegister : Nat := 3
def clTier : Nat := 4
def clHbm : Nat := 5
def clCore : Nat := 6
def clCoherence : Nat := 7
def clAccess : Nat := 8
def clXlat : Nat := 9
def clEngine : Nat := 0xA
def clFabric : Nat := 0xB
def clPcie : Nat := 0xC
def clMgmt : Nat := 0xD
def clPower : Nat := 0xE
def clDie : Nat := 0xF
def clCtx : Nat := 0x10
def clSpare : Nat := 0x11

/-- Source number of what Plowin itself records (R400). -/
def plowin (s : State) : Nat := srcMgmt s.mgmt.active

/-- A record of a physical core with both its locations (R22). -/
def coreRec (s : State) (p cls sev : Nat) : ErrRec :=
  { source := p, cls := cls, sev := sev, unit := p, logical := (logOf s.mesh p).getD 0xFFFF, die := pDie p }
/-- A record of Plowin. -/
def plowinRec (s : State) (cls sev : Nat) : ErrRec :=
  { source := plowin s, cls := cls, sev := sev, unit := s.mgmt.active, die := 0x20 }
/-- The last spare of a pool goes into use: one record of Plowin (R382 R400; notes/assumptions/71.md). -/
def poolRec (unit die : Nat) (s : State) : State :=
  errAdd { (plowinRec s clSpare sevDegraded) with unit := unit, die := die } s
/-- A CONTAINED record of an access that is not performed (R11 R24 R364). -/
def accessRec (source die addr : Nat) : ErrRec :=
  { source := source, cls := clAccess, sev := sevContained, die := die, flags := 3, addr := addr }
/-- A slice's record. -/
def sliceRec (k cls sev addr : Nat) : ErrRec :=
  { source := srcSlice (k / 64) (k % 64), cls := cls, sev := sev, unit := k, die := k / 64, flags := 3, addr := addr }
def stackRec (v : Variant) (h cls sev addr : Nat) : ErrRec :=
  { source := srcHbm h, cls := cls, sev := sev, unit := h, die := stackDie v h, flags := 3, addr := addr }

/-! ### Rings of a function (R262) -/

/-- The rings that follow R262. -/
inductive RingId where | park | notify | snap | fault
  deriving DecidableEq, Repr, Inhabited

def Fn.ring (x : Fn) : RingId → Ring
  | .park => x.park | .notify => x.notify | .snap => x.snapR | .fault => x.fault
def Fn.setRing (x : Fn) (i : RingId) (r : Ring) : Fn :=
  match i with
  | .park => { x with park := r } | .notify => { x with notify := r }
  | .snap => { x with snapR := r } | .fault => { x with fault := r }
def State.onRing (s : State) (f : Nat) (i : RingId) (g : Ring → Ring) : State :=
  s.onFn f fun x => x.setRing i (g (x.ring i))

def Ring.room (r : Ring) : Bool := r.on && decide ((r.tail - r.head).toNat < r.size)

/-- Write a record at the tail, then the tail; the vector is raised within 1 us, once for tail writes that fall within 1 us
of one another (R262). -/
def ringPut (f : Nat) (i : RingId) (irq : Bool) (b : List Byte) (s : State) : State :=
  let r := (s.fn f).ring i
  let s := s.hostWr (r.addr + b.length * (r.tail.toNat % r.size)) b
  let s := s.onRing f i fun r => { r with tail := r.tail + 1, irqAt := if irq then some (r.irqAt.getD s.now) else r.irqAt }
  s.hostWr r.tailAddr (leBytes 4 (r.tail + 1).toNat)

/-- A record may be written: its context's records are not held, the ring has room, the device is not
FATAL (R396). -/
def ringMay (s : State) (f : Nat) (i : RingId) (c : Nat) : Bool :=
  !s.ctxHeld f c && ((s.fn f).ring i).room && s.pwr.state != .fatal

/-- Held records are written in their order while they may be. -/
def ringFlush (f : Nat) (i : RingId) (s : State) : State :=
  ((s.fn f).ring i).held.foldl
    (fun s (c, irq, b) => if ringMay s f i c then ringPut f i irq b s else s.onRing f i fun r => { r with held := r.held ++ [(c, irq, b)] })
    (s.onRing f i fun r => { r with held := [] })

/-- A record for a ring of the function: written, or held. No record is dropped. -/
def ringPush (f : Nat) (i : RingId) (c : Nat) (irq : Bool) (b : List Byte) (s : State) : State :=
  ringFlush f i (s.onRing f i fun r => { r with held := r.held ++ [(c, irq, b)] })

/-- A configuration: both counts 0, held records written from count 0 onward. -/
def ringConfig (f : Nat) (i : RingId) (c : RingCfg) (s : State) : State :=
  ringFlush f i (s.onRing f i fun r =>
    { r with on := true, addr := c.addr, size := c.size, tailAddr := c.tailAddr, vector := c.vector, head := 0, tail := 0, irqAt := none })

/-- Interrupts of tail writes that are due: those whose first one lies a reference period less than 1 us back (R262). -/
def irqDue (s : State) (t : Option Nat) : Bool := match t with | some t => decide (t + 980 ≤ s.now) | none => false
def ringIrq (f : Nat) (i : RingId) (s : State) : State :=
  let r := (s.fn f).ring i
  if irqDue s r.irqAt then msixRaise f r.vector (s.onRing f i fun r => { r with irqAt := none }) else s
def irqsDue (s : State) : State :=
  let s := if irqDue s s.err.irqAt then msixRaise 0 s.err.vector (s.onErr fun e => { e with irqAt := none }) else s
  (s.fns.map (·.1)).foldl (fun s f => [RingId.park, .notify, .snap, .fault].foldl (fun s i => ringIrq f i s) s) s

/-- The head rule: neither backward nor ahead of the tail, modulo 2^32 against 2^31. -/
def headOk (old new tail : Word) : Bool :=
  decide ((new - old).toNat < 2 ^ 31) && decide ((tail - new).toNat < 2 ^ 31)

/-- A head write of a ring. -/
def ringHead (f : Nat) (i : RingId) (v : Word) (s : State) : State :=
  let r := (s.fn f).ring i
  if headOk r.head v r.tail then ringFlush f i (s.onRing f i fun r => { r with head := v })
  else errAdd (plowinRec s clAccess sevContained) s

/-! ### Management responses (R309 R311) -/

def pmiBase (b : DWord) : Nat := b.toNat / 2 ^ 16 * 2 ^ 16
def pmiSize (b : DWord) : Nat := 2 ^ (b.toNat / 2 ^ 12 % 16 + 4)

def PmiRsp.bytes (r : PmiRsp) (now : Nat) : List Byte :=
  leBytes 2 r.code ++ leBytes 2 r.status ++ leBytes 4 r.tag.toNat ++ leBytes 2 r.ctx ++ [r.gen] ++ zeros 1 ++
  leBytes 4 r.payload.length ++ leBytes 8 now ++ leBytes 8 r.detail.toNat ++
  (if r.payload.length ≤ 96 && !r.ext then padTo 96 r.payload else zeros 96)

def rspRoom (s : State) (f : Nat) : Bool :=
  let x := s.fn f
  decide (x.rspBase.toNat % 2 = 1) && ((s.pcie.get 0).up || (s.pcie.get 1).up) && s.mgmt.ready &&
  decide ((x.rspTail - x.rspHead).toNat < pmiSize x.rspBase)

/-- Write a response at the response tail; `notify` raises the vector. A long payload lies at `addr`. -/
def rspPut (s : State) (r : PmiRsp) : State :=
  let x := s.fn r.fn
  let s := if r.payload.length ≤ 96 && !r.ext then s else s.hostWr r.addr r.payload
  let s := s.hostWr (pmiBase x.rspBase + 128 * (x.rspTail.toNat % pmiSize x.rspBase)) (r.bytes s.now)
  let s := s.onFn r.fn fun x => { x with rspTail := x.rspTail + 1 }
  let s := s.onMgmt fun m => { m with responses := m.responses ++ [r] }
  if r.notify then msixRaise r.fn (x.rspBase.toNat / 2 % 2048) s else s

def rspFlush (s : State) : State :=
  s.mgmt.heldRsp.foldl (fun s r => if rspRoom s r.fn then rspPut s r else s.onMgmt fun m => { m with heldRsp := m.heldRsp ++ [r] })
    (s.onMgmt fun m => { m with heldRsp := [] })

/-- Response statuses (R312). -/
def pOk : Nat := 0
def pInvalid : Nat := 1
def pPermit : Nat := 2
def pNotFound : Nat := 3
def pQuota : Nat := 4
def pCapacity : Nat := 5
def pState : Nat := 6
def pStale : Nat := 7
def pAuth : Nat := 8

/-- Answer a request; `ext`: the payload lies at PAYLOAD_ADDR whatever its length. A request whose function was reset
before its answer (R368) names function 64, and has none. -/
def pmiAnswerAt (ext : Bool) (h : Hdr) (code status : Nat) (detail : Nat) (payload : List Byte) (s : State) : State :=
  let r : PmiRsp :=
    { fn := h.fn, code := code, tag := h.tag, ctx := h.ctx, gen := h.gen, status := status,
      detail := BitVec.ofNat 64 detail, payload := payload, addr := h.payAddr, notify := h.notify, ext := ext }
  if 64 ≤ h.fn then s else rspFlush (s.onMgmt fun m => { m with heldRsp := m.heldRsp ++ [r] })
def pmiAnswer (h : Hdr) (code status : Nat) (detail : Nat) (payload : List Byte) (s : State) : State :=
  pmiAnswerAt false h code status detail payload s

/-! ### Accounting (R333 R335): fields by their byte offset in the dailies -/

def aSubmitted : Nat := 16
def aCompleted : Nat := 24
def aFailed : Nat := 32
def aKengNs : Nat := 40
def aCengNs : Nat := 48
def aLengNs : Nat := 56
def aCoreSteps : Nat := 64
def aPlaneSteps : Nat := 72
def aRetakeRuns : Nat := 80
def aRetakeTests : Nat := 88
def aTierGms : Nat := 96
def aHbmGms : Nat := 104
def aTierPeak : Nat := 116
def aHbmPeak : Nat := 124
def aFabTx : Nat := 128
def aFabRx : Nat := 136
def aEnergy : Nat := 144
def aDeferrals : Nat := 152
def aDispl : Nat := 160
def aQuota : Nat := 168
def aCapacity : Nat := 176
def aSoft : Nat := 184
def aFull : Nat := 192
def aSlotNs : Nat := 200
def aHang : Nat := 208
def acctAdd (c off n : Nat) (s : State) : State := s.onCtx c fun x => { x with acct := x.acct.upd off (· + n) }

/-- Shared status codes (R303). -/
def stOk : Nat := 0
def stFault : Nat := 1
def stPoison : Nat := 2
def stCancelled : Nat := 3
def stQuota : Nat := 4
def stCapacity : Nat := 5
def stTimeoutRemote : Nat := 6
def stHostAbsent : Nat := 7
def stAbandoned : Nat := 8
def stPartial : Nat := 9
def stInvalid : Nat := 0xA
def stDenied : Nat := 0xB

/-! ### Contexts and generations (R265 R268) -/

/-- The context exists and the generation is its current one. -/
def genOk (s : State) (c : Nat) (g : BitVec 8) : Bool := (s.ctx c).live && (s.ctx c).gen == g

/-! ### Translation (R251 to R253) -/

def pageBytes (code : Nat) : Nat := if code = 0 then 2 ^ 16 else if code = 1 then 2 ^ 21 else 2 ^ 30

/-- The leaf that covers an address in a context's tables. -/
def leafAt (s : State) (c va : Nat) : Option Leaf :=
  s.xl.leaves.find? fun l => l.ctx = c && decide (l.va ≤ va) && decide (va < l.va + pageBytes l.size)

def needR : Nat := 2
def needW : Nat := 4
def needX : Nat := 8

/-- R253. -/
def leafMalformed (s : State) (l : Leaf) : Bool :=
  let e := l.entry.toNat
  let rg := bits e 15 12
  let ps := bits e 11 8
  decide (3 < rg) || decide (2 < ps) ||
  (ps = 1 && bits e 20 16 != 0) || (ps = 2 && bits e 29 16 != 0) ||
  (rg = 2 && ps != 0) || (bits e 63 48 != s.devId && decide (2 ≤ rg))

def regionOf (e : DWord) : Region :=
  match bits e.toNat 15 12 with | 0 => .normal | 1 => .stream | 2 => .ctrl | _ => .hostw

/-- Outcome of a translation: full physical address and region type, or the fault's reason (R261). -/
inductive Tr where
  | ok (pa : Nat) (rg : Region)
  | fault (reason : Nat)
  deriving DecidableEq, Repr, Inhabited

/-- Translate an access that needs the permission bits `need`. -/
def translate (s : State) (c va need : Nat) : Tr :=
  match leafAt s c va with
  | none => .fault 1
  | some l =>
    let e := l.entry.toNat
    if e % 2 = 0 then .fault 1
    else if leafMalformed s l then .fault 3
    else if e &&& need != need then .fault 2
    else .ok (paOf (bits e 63 48) (bits e 47 16 * 2 ^ 16 + va % pageBytes l.size)) (regionOf l.entry)

/-- A walk of a stream is pending for a page, of whatever size it turns out to be: what needs the page waits (R255). -/
def walkPends (s : State) (stream c va : Nat) : Bool :=
  s.xl.walks.any fun (_, l) => l.any fun w => w.stream = stream && w.ctx = c && w.gen == (s.ctx c).gen && w.va / 65536 = va / 65536
/-- Some walk of a stream for a context is pending. -/
def walkAny (s : State) (stream c : Nat) (sel : Nat → Bool) : Bool :=
  s.xl.walks.any fun (_, l) => l.any fun w => w.stream = stream && w.ctx = c && w.gen == (s.ctx c).gen && sel w.need

/-- An address a context may name (R247). -/
def vaOk (va : Nat) : Bool := decide (va < 2 ^ 52)

/-- Cut a virtual range at 64 KiB boundaries, the smallest page: pieces (address, length). -/
def cutRange : Nat → Nat → Nat → List (Nat × Nat)
  | 0, _, _ => []
  | fuel + 1, va, len =>
    if len = 0 then []
    else
      let k := min len (2 ^ 16 - va % 2 ^ 16)
      (va, k) :: cutRange fuel (va + k) (len - k)

/-- A 32 B fault record (R261). -/
def faultRec (seq type reason access slot unit queue c : Nat) (gen : BitVec 8) (va now : Nat) : List Byte :=
  leBytes 4 seq ++ leBytes 1 type ++ leBytes 1 reason ++ leBytes 1 access ++ leBytes 1 slot ++ leBytes 2 unit ++
  leBytes 2 queue ++ leBytes 2 c ++ [gen] ++ zeros 1 ++ leBytes 8 va ++ leBytes 8 now

/-- A stream's translation fault (R260 R261): the record with its SEQ, the stall, and for a malformed leaf
the CONTAINED record of R253. -/
def faultAdd (st : Stall) (type reason access slot unit queue : Nat) (s : State) : State :=
  let x := s.fn st.fn
  let s := s.onXl fun y => { y with stalls := y.stalls ++ [{ st with seq := x.faultSeq }] }
  let s := s.onFn st.fn fun x => { x with faultSeq := (x.faultSeq + 1) % 2 ^ 32 }
  let s := if reason = 3 then errAdd { (plowinRec s clXlat sevContained) with ctx := st.ctx, gen := st.gen, flags := 1, addr := st.va } s else s
  ringPush st.fn .fault st.ctx true (faultRec x.faultSeq type reason access slot unit queue st.ctx st.gen st.va s.now) s

end Sys2Proof.Machine
end

