-- ==== Sys2Proof/Machine/Home.lean ====
section
/-! DEFINITION. The memory side: tier slices, victim buffers, HBM, poison, ownership of granules and the
accesses performed at the home of a line (ch. 08, R206 to R210, R238, R239, R265, R266). -/
namespace Sys2Proof.Machine

/-! ### Ways and lines of a slice (R185 R188) -/

def bit16 (b : BitVec 16) (i : Nat) : Bool := b.getLsbD i
def Slice.wayOf (sl : Slice) (w : Nat) : WayState :=
  if bit16 sl.pinned w then .pinned else if bit16 sl.off w then .off else .cache
/-- Ways an allocation may enter: CACHE and not converting (R188 R196). -/
def Slice.openWays (sl : Slice) : List Nat := (List.range 16).filter fun w => sl.wayOf w = .cache && !bit16 sl.conv w
def Slice.hit (sl : Slice) (line : Nat) : Option TLine := (sl.lines.get (setOf line)).find? (·.addr = line)
def Slice.victim (sl : Slice) (line : Nat) : Option Victim := sl.victims.find? (·.addr = line)
def State.slice (s : State) (k : Nat) : Slice := s.tier.slices.get k

/-- Poison of the sixteen 8 B granules of a line as HBM holds it (R207). -/
def hbmPoison (s : State) (line : Nat) : BitVec 16 :=
  (if s.tier.hpoison.get (line / 64) then 0x00FF else 0) ||| (if s.tier.hpoison.get (line / 64 + 1) then 0xFF00 else 0)

/-- A line is written back: each 64 B granule is poisoned if any of its eight 8 B granules is (R207). -/
def hbmWriteBack (line : Nat) (po : BitVec 16) (s : State) : State :=
  s.onTier fun t => { t with hpoison := (t.hpoison.put (line / 64) (po &&& 0x00FF != 0)).put (line / 64 + 1) (po &&& 0xFF00 != 0) }

def dropVictim (k line : Nat) (s : State) : State :=
  s.onSlice k fun sl => { sl with victims := sl.victims.filter (·.addr != line) }

/-- The victim buffer can take an entry: fewer than 64, or a clean one to free (R193). -/
def Slice.room (sl : Slice) : Bool := decide (sl.victims.length < 64) || sl.victims.any (!·.dirty)
/-- An entry joins a buffer with room; the oldest clean one is freed for it where there are 64 (R193). -/
def Slice.push (v : Victim) (sl : Slice) : Slice :=
  { sl with victims := (if sl.victims.length < 64 then sl.victims else sl.victims.eraseP (!·.dirty)) ++ [v] }
def TLine.victim (t : TLine) : Victim := { addr := t.addr, dirty := t.dirty, poison := t.poison }

/-- A line enters the victim buffer within a step that waits for nothing: where all 64 entries are dirty, the oldest one is
written back (R193; DESIGN CHOICE, notes/assumptions/65.md). -/
def toVictims (k : Nat) (v : TLine) (s : State) : State :=
  let s :=
    if (s.slice k).room then s
    else match (s.slice k).victims with
      | [] => s
      | x :: _ => hbmWriteBack x.addr x.poison (dropVictim k x.addr s)
  s.onSlice k (Slice.push v.victim)

/-- The way of a set that an allocation enters: a free open one, or that of the least recently used line, with that line
(R188). -/
def Slice.wayFor (sl : Slice) (line : Nat) : Option (Nat × Option TLine) :=
  let ws := sl.openWays
  let ls := sl.lines.get (setOf line)
  match ws.find? (fun w => !(ls.any (·.way = w))) with
  | some w => some (w, none)
  | none => (ls.reverse.find? (fun x => ws.contains x.way)).map fun v => (v.way, some v)

def putLine (k line way : Nat) (dirty : Bool) (po : BitVec 16) (s : State) : State :=
  s.onSlice k fun sl => { sl with lines := sl.lines.upd (setOf line) fun ls => { addr := line, way := way, dirty := dirty, poison := po } :: ls }
def tierDropLine (k line : Nat) (s : State) : State :=
  s.onSlice k fun sl => { sl with lines := sl.lines.upd (setOf line) fun l => l.filter (·.addr != line) }
/-- Install a line in its set, evicting what it replaces. -/
def tierInstall (k line : Nat) (dirty : Bool) (po : BitVec 16) (s : State) : State :=
  match (s.slice k).wayFor line with
  | some (w, none) => putLine k line w dirty po s
  | some (w, some v) => putLine k line w dirty po (toVictims k v (tierDropLine k v.addr s))
  | none => if dirty then hbmWriteBack line po s else s

/-- A miss blocks its bank; its replacement is scheduled and what it evicts enters the victim buffer, or it waits there for
an acknowledgement, all 64 entries being dirty (R190 R193). -/
def missStart (k line : Nat) (s : State) : State :=
  let b := setOf line % 4
  let mark (w : Nat) (s : State) : State := s.onSlice k fun sl => { sl with blocked := sl.blocked.put b (line + 1), fill := sl.fill.put b w }
  match (s.slice k).wayFor line with
  | some (w, none) => mark (w + 1) s
  | some (w, some v) =>
    if (s.slice k).room then mark (w + 1) ((tierDropLine k v.addr s).onSlice k (Slice.push v.victim)) else mark 0 s
  | none => s

/-- The fill that blocks a bank is installed and the bank is free; a fill whose victim waits is not (R190). A way that a
conversion has marked meanwhile takes no line (R196). -/
def bankFill (k bank : Nat) (s : State) : State :=
  match (s.slice k).blocked.get bank, (s.slice k).fill.get bank with
  | l + 1, w + 1 =>
    let s := s.onSlice k fun sl => { sl with blocked := sl.blocked.put bank 0, fill := sl.fill.put bank 0 }
    if (s.slice k).openWays.contains w then putLine k l w false (hbmPoison s l) s else s
  | _, _ => s
/-- A fill whose victim waits: the first such bank takes the entry that an acknowledgement has freed (R193). -/
def fillRetry (k : Nat) (s : State) : State :=
  match (List.range 4).find? fun b => (s.slice k).blocked.get b != 0 && (s.slice k).fill.get b = 0 with
  | some b => missStart k ((s.slice k).blocked.get b - 1) s
  | none => s
/-- A blocked bank is freed within a step that waits for nothing. -/
def bankNow (k bank : Nat) (s : State) : State :=
  match (s.slice k).blocked.get bank, (s.slice k).fill.get bank with
  | l + 1, 0 => tierInstall k l false (hbmPoison s l) (s.onSlice k fun sl => { sl with blocked := sl.blocked.put bank 0 })
  | _, _ => bankFill k bank s

/-- Remove a line from its set. -/
def tierDrop (k line : Nat) (s : State) : State := tierDropLine k line s

/-- A request for a line has to wait before anything begins for it: its bank is blocked, its writeback is in flight, or it
is dirty in a converting way (R190 R194 R197). -/
def tierHeld (s : State) (line : Nat) : Bool :=
  match zoneOf line with
  | .hbm _ =>
    let sl := s.slice (homeSlice line)
    sl.blocked.get (setOf line % 4) != 0 ||
    (match sl.hit line with
     | some t => bit16 sl.conv t.way && t.dirty
     | none => (match sl.victim line with | some v => v.flight | none => false))
  | _ => false

/-- A request reaches a line of HBM at its slice: `some`, it waits, with what it has begun (a miss that blocks its bank, the
writeback of a dirty line in a converting way); none, it can be performed (R188 R190 R192 to R194 R197 R199). `full`: it
writes all 128 B. -/
def tierBegin (line : Nat) (wr full : Bool) (s : State) : Option State :=
  match zoneOf line with
  | .hbm _ =>
    let k := homeSlice line
    let sl := s.slice k
    if sl.blocked.get (setOf line % 4) != 0 then some s
    else match sl.hit line with
      | some t =>
        if bit16 sl.conv t.way && t.dirty then
          some (if !sl.room then s
            else (tierDrop k line s).onSlice k fun sl => { Slice.push { t.victim with flight := true, walk := true } sl with bypass := sl.bypass ++ [line] })
        else none
      | none =>
        match sl.victim line with
        | some v => if v.flight then some s else none
        | none =>
          if sl.bypass.contains line then none
          else match sl.wayFor line with
            | none => none
            | some (_, v) => if wr && full && (v.isNone || sl.room) then none else some (missStart k line s)
  | _ => none

/-- An access is performed at the slice of a line: hit, recall from the victim buffer, or miss with allocation (R188
R192 R194 R197 R199). What it would have to wait for ends within the step: requests that can wait ask tierBegin first, and
the accesses of engines, of the host and of other devices ask tierHeld (DESIGN CHOICE, notes/assumptions/65.md). -/
def tierTouch (line : Nat) (wr full : Bool) (s : State) : State :=
  match zoneOf line with
  | .hbm _ =>
    let k := homeSlice line
    let s := bankNow k (setOf line % 4) s
    let sl := s.slice k
    let fromHbm (po : BitVec 16) (s : State) : State :=
      if sl.bypass.contains line then
        let s := s.onSlice k fun sl => { sl with bypass := sl.bypass.filter (· != line) }
        if wr then hbmWriteBack line (if full then 0 else po) s else s
      else if wr || (sl.wayFor line).isSome then tierInstall k line wr (if full then 0 else po) s
      else s
    match sl.hit line with
    | some t =>
      if bit16 sl.conv t.way then
        (if t.dirty then hbmWriteBack line t.poison (tierDrop k line s) else tierDrop k line s)
      else
        let front (l : List TLine) : List TLine := { t with dirty := t.dirty || wr } :: l.filter (·.addr != line)
        s.onSlice k fun sl => { sl with lines := sl.lines.upd (setOf line) front }
    | none =>
      match sl.victim line with
      | some v =>
        -- a writeback in flight leaves its poison in HBM before the request reads there
        if v.flight then let t := hbmWriteBack line v.poison s; fromHbm (hbmPoison t line) t
        else tierInstall k line (v.dirty || wr) v.poison (dropVictim k line s)
      | none => fromHbm (hbmPoison s line) s
  | _ => s

/-! ### Poison of a byte's granule (R205 R207) -/

/-- Granule of the storage that holds the byte's line (R208). -/
def granOf (s : State) (a : Nat) : Nat :=
  match zoneOf a with
  | .hbm _ => if ((s.slice (homeSlice a)).hit (lineOf a)).isSome then 8 else 64
  | _ => 8

def poisonAt (s : State) (a : Nat) : Bool :=
  match zoneOf a with
  | .hbm d =>
    (s.tier.dies.get d).fenced ||
    (let sl := s.slice (homeSlice a)
     match sl.hit (lineOf a) with
     | some t => bit16 t.poison (a % 128 / 8)
     | none => match sl.victim (lineOf a) with
       | some v => bit16 v.poison (a % 128 / 8)
       | none => s.tier.hpoison.get (a / 64))
  | .pinned d => (s.tier.dies.get d).fenced || s.tier.ppoison.get (a / 8)
  | _ => false

def setBit16 (b : BitVec 16) (i : Nat) (v : Bool) : BitVec 16 :=
  if v then b ||| (1#16 <<< i) else b &&& ~~~(1#16 <<< i)

/-- Set or clear the poison of the granule that holds a byte. -/
def setPoison (a : Nat) (v : Bool) (s : State) : State :=
  match zoneOf a with
  | .hbm _ =>
    let k := homeSlice a
    match (s.slice k).hit (lineOf a) with
    | some _ =>
      let mark (t : TLine) : TLine :=
        if t.addr = lineOf a then { t with poison := setBit16 t.poison (a % 128 / 8) v, dirty := true } else t
      s.onSlice k fun sl => { sl with lines := sl.lines.upd (setOf a) (List.map mark) }
    | none =>
      if ((s.slice k).victim (lineOf a)).isSome then
        let mark (y : Victim) : Victim :=
          if y.addr = lineOf a then { y with poison := setBit16 y.poison (a % 128 / 8) v, dirty := true } else y
        s.onSlice k fun sl => { sl with victims := sl.victims.map mark }
      else s.onTier fun t => { t with hpoison := t.hpoison.put (a / 64) v }
  | .pinned _ => s.onTier fun t => { t with ppoison := t.ppoison.put (a / 8) v }
  | _ => s

/-! ### Reservations (R229) -/

/-- Drop the reservations on a line: those at the home, those in an L1, but not thread `keep`'s. -/
def killRsv (line : Nat) (home l1 : Bool) (keep : Option (Nat × Nat)) (s : State) : State :=
  let hit (r : Option Resv) : Bool := match r with | some r => r.line = line && (if r.atHome then home else l1) | none => false
  let thr (k i : Nat) (x : Thread) : Thread := if hit x.resv && keep != some (k, i) then { x with resv := none } else x
  let grp (k : Nat) (g : Group) : Group := { g with th := g.th.foldl (fun t x => t.upd x.1 (thr k x.1)) g.th }
  let s := s.onGroups fun t => t.foldl (fun t x => t.upd x.1 (grp x.1)) t
  if home then s.onTier fun t => { t with rsv := t.rsv.filter fun (l, k, i) => l != line || keep == some (k, i) } else s

/-! ### Writes at the home -/

/-- Offsets of a granule among written bytes. -/
def inGran (bs : List (Nat × Byte)) (g i : Nat) : List (Nat × Byte) := bs.filter fun (o, _) => o / g = i

/-- Write bytes (offset, value) of one line at its home, granule by granule (R208). `pois`: offsets whose
data travels poisoned. Answers whether the write met poison. -/
def homeWrite (line : Nat) (bs : List (Nat × Byte)) (pois : List Nat) (s : State) : State × Bool :=
  let s := tierTouch line true (bs.length = 128) s
  let g := granOf s line
  (List.range (128 / g)).foldl (init := (s, false)) fun (s, met) i =>
    let w := inGran bs g i
    let put (s : State) : State := w.foldl (fun s (o, b) => s.onMem fun t => t.put (line + o) b) s
    if w.isEmpty then (s, met)
    else if w.any fun (o, _) => pois.contains o then (setPoison (line + g * i) true (put s), met)
    else if w.length = g then (put (if poisonAt s (line + g * i) then setPoison (line + g * i) false s else s), met)
    else if poisonAt s (line + g * i) then
      (errAdd (sliceRec (homeSlice line) clTier sevContained (line + g * i)) s, true)
    else (put s, met)

/-- A bulk write to a line: L1 copies keep the old value of those bytes until they lose the line (R239),
and home reservations on it are lost (R229). -/
def bulkWriteLine (line : Nat) (bs : List (Nat × Byte)) (pois : List Nat) (s : State) : State × Bool :=
  let (s, met) := homeWrite line bs pois s
  let old (l : L1Line) : L1Line :=
    { l with stale := l.stale ++ (bs.map (·.1)).filter fun o => !l.stale.contains o }
  let s := s.onCores fun t => t.mapAll fun c =>
    if (c.l1.get line).data.isEmpty then c else { c with l1 := c.l1.upd line old }
  (killRsv line true false none s, met)

/-- Cut [a, a + len) at 128 B lines: (address, length). -/
def cutLines : Nat → Nat → Nat → List (Nat × Nat)
  | 0, _, _ => []
  | fuel + 1, a, len =>
    if len = 0 then []
    else
      let k := min len (128 - a % 128)
      (a, k) :: cutLines fuel (a + k) (len - k)

/-- Offsets paired with bytes, from an offset on. -/
def withOffsets (o : Nat) (l : List Byte) : List (Nat × Byte) := (List.range l.length).map fun i => (o + i, l.getD i 0)

/-- A bulk write of bytes at a local address; in the host window, a posted write of the device. -/
def bulkWrite (a : Nat) (l : List Byte) (pois : List Nat) (s : State) : State × Bool :=
  match zoneOf a with
  | .host => (s.wr a l, false)
  | _ =>
    (cutLines (l.length + 1) a l.length).foldl (init := (s, false)) fun (s, met) (x, n) =>
      let (s, m) := bulkWriteLine (lineOf x) (withOffsets (x % 128) (slice l (x - a) n)) ((pois.filter fun o => decide (x ≤ a + o) && decide (a + o < x + n)).map fun o => a + o - lineOf x) s
      (s, met || m)

/-- Offsets of [a, a + n) that lie in poisoned granules. -/
def poisonOffs (s : State) (a n : Nat) : List Nat := (List.range n).filter fun i => poisonAt s (a + i)

/-- An access to a range has to wait for the slice of some line of it. -/
def heldRange (s : State) (a n : Nat) : Bool := (cutLines (n + 1) a n).any fun (x, _) => tierHeld s (lineOf x)
/-- The lines of a bulk read pass through their slices. -/
def touchRange (a n : Nat) (s : State) : State :=
  (cutLines (n + 1) a n).foldl (fun s (x, _) => tierTouch (lineOf x) false false s) s

/-- The die that holds an address has left service (R392). DESIGN CHOICE (notes/assumptions/62.md): only the die of the address
counts; the spec does not say what becomes of traffic between other dies whose route (R16) crosses a fenced die, and here
it passes. -/
def fencedAt (s : State) (a : Nat) : Bool :=
  match zoneOf a with | .hbm d | .pinned d => (s.tier.dies.get d).fenced | _ => false

/-! ### Who may access what (R203 R266) -/

def granKey (a : Nat) : Nat := a / 65536

/-- The address is backed (R203). -/
def backed (s : State) (a : Nat) : Bool :=
  match zoneOf a with
  | .hbm d => decide (a - hbmBase d < hbmSize s d)
  | .pinned _ => (s.slice (homeSlice a)).wayOf (pinWay a) = .pinned
  | .host => true
  | .ctrlDie _ => true
  | .ctrlIo x => decide (x < nIo s.variant)
  | .ctrlMgmt => true
  | .nothing => false

/-- The granule admits the context: checks 2 to 4 of R266. -/
def ownOk (s : State) (c a : Nat) : Bool :=
  let g := s.tier.gran.get (granKey a)
  g.valid && (g.owner = c || (g.shared && (s.tier.sets.get g.sset).locals.contains c))

/-- Outcome of the checks on a request at a local address. -/
inductive Admit where
  | ok | stale | denied | retry
  deriving DecidableEq, Repr, Inhabited

/-- The checks of R203 and R266, and a stopped domain (R236). A management tag passes the ownership
check (R267); the host window has no ownership table. -/
def mayEnter (s : State) (c : Nat) (gen : BitVec 8) (mgmt : Bool) (a : Nat) : Admit :=
  if !mgmt && !genOk s c gen then .stale
  else match zoneOf a with
    | .hbm d => if (s.tier.dies.get d).fenced then .ok else if (s.tier.dies.get d).stopped then .retry else if backed s a && (mgmt || ownOk s c a) then .ok else .denied
    | .pinned d => if (s.tier.dies.get d).fenced then .ok else if (s.tier.dies.get d).stopped then .retry else if backed s a && (mgmt || ownOk s c a) then .ok else .denied
    | .host => .ok
    | _ => .denied

/-- The CONTAINED record of a denied or unbacked request (R203 R266). -/
def denyRec (c : Nat) (gen : BitVec 8) (a : Nat) (s : State) : State :=
  let k := homeSlice a
  errAdd { (sliceRec k clAccess sevContained a) with ctx := c, gen := gen } s

/-- An access to a fenced die's memory is answered with poison and recorded (R392). -/
def fencedRec (a : Nat) (s : State) : State :=
  match zoneOf a with
  | .hbm d | .pinned d => if (s.tier.dies.get d).fenced then errAdd (sliceRec (homeSlice a) clDie sevContained a) s else s
  | _ => s

end Sys2Proof.Machine
end

