-- ==== Sys2Proof/Machine/SyncOps.lean ====
section
/-! DEFINITION. Sync counters, waits, watches and fences as shared operations (ch. 11). -/
namespace Sys2Proof.Machine

/-! ### Groups by identity (a group keeps it while it is saved) -/

def Group.ident (g : Group) : Nat := 2 ^ 32 * g.launch + g.gid
/-- Change the group of an identity, resident or saved. -/
def State.onIdent (s : State) (id : Nat) (f : Group → Group) : State :=
  let h (g : Group) : Group := if g.stage != .empty && g.ident = id then f g else g
  (s.onGroups fun t => t.mapAll h).onSaved fun l => l.map h

def laneBit (i : Nat) : Word := 1#32 <<< i
/-- Lanes of a mask, ascending. -/
def lanesOf (m : Word) : List Nat := (List.range 32).filter fun i => m.getLsbD i
def maskOf (l : List Nat) : Word := l.foldl (fun m i => m ||| laneBit i) 0

/-! ### Result codes (R276) -/

def rOk : Nat := 0
def rTimeout : Nat := 1
def rAbandoned : Nat := 2
def rNotHolder : Nat := 3
def rRefused : Nat := 4
def rWatchLimit : Nat := 5

/-- Status and reason of a control packet with a sync result (R295). -/
def syncStatus (code : Nat) : Nat × Nat :=
  match code with
  | 0 => (stOk, 0) | 1 => (stFault, 0) | 2 => (stAbandoned, 0) | _ => (stInvalid, 5)

/-! ### Releasing a waiter -/

/-- A thread's operation is finished: its result is latched until the set's return (R276 R287). -/
def latchLane (id lane code : Nat) (v : DWord) (s : State) : State :=
  let thr (x : Thread) : Thread :=
    match x.sync with
    | some o => { x with sync := some { o with fin := true, code := code, value := v } }
    | none => x
  s.onIdent id fun g => { g with th := g.th.upd lane thr }

/-- What a REMOTE_WAIT ends with that its destination denied; no sync result. -/
def rRemoteDenied : Nat := 0xFF
/-- The wait packet of a queue ends with a sync result. A result that is not OK skips the rest of the list
(R295). A queue without its slot keeps the latched result (R331). -/
def waitPktEnd (qk code : Nat) (v : DWord) (s : State) : State :=
  let f (p : Pkt) : Pkt :=
    let (st, rs) := if code = rRemoteDenied then (stDenied, 0) else if p.op = 0x32 && code = rTimeout then (stTimeoutRemote, 0) else syncStatus code
    let res := if code = rRemoteDenied then 0 else code
    if (p.op = 0x05 || p.op = 0x32) && p.st = .running then
      { p with st := .done, status := st, rest := st, reason := rs, result := res, value := v, tsc := s.tsc.time, items := if st = stInvalid then 0 else 1 }
    else p
  let latch (r : RWait) : RWait := { r with state := if code = 0 then 1 else if code = 1 then 2 else 3, lcode := code, lval := v }
  s.onQueue qk fun q =>
    if q.rwait.isSome then { q with rwait := q.rwait.map latch }
    else { q with pkts := q.pkts.map f, listOn := q.listOn && code = 0 }

/-- A 32 B notify record (R282). -/
def notifyRec (seq : Nat) (w : Wait) (code : Nat) (v : DWord) (now : Nat) : List Byte :=
  leBytes 4 seq ++ leBytes 4 w.id ++ leBytes 1 code ++ leBytes 1 w.cond ++ leBytes 2 w.tag ++ leBytes 2 w.ctx ++ [w.gen] ++
  zeros 1 ++ leBytes 8 v.toNat ++ leBytes 8 now

def notifyPush (w : Wait) (code : Nat) (v : DWord) (s : State) : State :=
  let x := s.fn w.grp
  ringPush w.grp .notify w.ctx w.irq (notifyRec x.notifySeq w code v s.now)
    (s.onFn w.grp fun x => { x with notifySeq := (x.notifySeq + 1) % 2 ^ 32 })

/-- A packet the device sends on the fabric. -/
def fabOut (k : FPkt) (s : State) : State := s.onFab fun f => { f with out := f.out ++ [k] }

/-- Data bytes that a packet carries: those its byte enables name, in a PUT with PHYS. -/
def payloadOf (k : FPkt) : Nat := if k.type = 1 && k.phys then k.mask.length else if k.type = 1 || k.type = 4 then k.len else 0
/-- A packet leaves; its data bytes are the context's (R335). -/
def fabSend (k : FPkt) (s : State) : State := acctAdd k.sctx aFabTx (payloadOf k) (fabOut k s)

/-- Answer to a remote waiter (R340 R349). -/
def waitDonePkt (s : State) (w : Wait) (code : Nat) (v : DWord) : FPkt :=
  { type := 0x06, flits := 1, vc := 2, dst := w.dev, src := s.devId, sctx := w.ctx, sgen := w.gen, txn := w.tag, status := if code = rAbandoned then 4 else 0, value := v }

/-- The value a waiter receives: the counter's, or the fence's state for a watch. The spec states none for another
waiter on a fence, nor for one that times out: it is free. -/
def waitValue (w : Wait) (code : Nat) (v : DWord) (s : State) : DWord × State :=
  if (w.fence && w.who != .watch) || code = rTimeout then (s.draw, s.drawn) else (v, s)

/-- Release the lanes of one wait with a result. -/
def releaseLanes (w : Wait) (lanes : List Nat) (code : Nat) (v : DWord) (s : State) : State :=
  let (v, s) := waitValue w code v s
  match w.who with
  | .core => lanes.foldl (fun s i => latchLane w.grp i code v s) s
  | .engine => waitPktEnd w.grp code v s
  | .watch => notifyPush w code v s
  | .remote => fabOut (waitDonePkt s w code v) s

def dropWait (w : Wait) (s : State) : State := s.onSync fun y => { y with waits := y.waits.erase w }
def release (w : Wait) (code : Nat) (v : DWord) (s : State) : State :=
  releaseLanes w (lanesOf w.lanes) code v (dropWait w s)

/-! ### Counters (R273 to R278) -/

def ctrDie (id : Nat) : Nat := id / 16384 % 8
/-- Home slot of a counter in its die, and its number in the slot (R269). -/
def ctrSlot (id : Nat) : Nat := bits id 13 7
def ctrInSlot (id : Nat) : Nat := bits id 6 0
/-- Logical core whose tile's sync unit holds a counter: its home slot by column and row of its die (R269). -/
def ctrHome (id : Nat) : Nat := 32 * (8 * (ctrDie id / 2) + ctrSlot id / 16) + 16 * (ctrDie id % 2) + ctrSlot id % 16
def isFenceId (id : Nat) : Bool := decide (2 ^ 31 ≤ id)
/-- An ID operand is well formed (R276). -/
def idOk (id : Nat) : Bool := if isFenceId id then bits id 30 28 = 0 else bits id 30 17 = 0
/-- Key of the fence an ID names: 65536 context + index. -/
def fenceKey (id : Nat) : Nat := 65536 * bits id 27 16 + bits id 15 0

/-- The holder a waiting or performing TRYDEC records (R277). -/
def holderOf (w : Wait) : Nat × BitVec 8 × Nat × Nat :=
  match w.who with
  | .core => (w.ctx, w.gen, w.grp / 2 ^ 32, w.grp % 2 ^ 32)
  | _ => (w.ctx, w.gen, w.src, 0xFFFFFFFF)

/-- After an operation: waits that the value satisfies are released; the first satisfiable TRYDEC
decrements, which is an operation in turn (R274). -/
def ctrSettle (id : Nat) : Nat → State → State
  | 0, s => s
  | fuel + 1, s =>
    let c := s.sync.ctrs.get id
    let mine := s.sync.waits.filter fun w => !w.fence && w.id = id
    let s := (mine.filter fun w => w.cond != 0x13 && syncCond w.cond c.value w.value).foldl (fun s w => release w rOk c.value s) s
    match mine.find? (fun w => w.cond = 0x13 && syncCond 0x13 c.value w.value) with
    | none => s
    | some w =>
      match lanesOf w.lanes with
      | [] => dropWait w s
      | i :: rest =>
        let s := s.onCtr id fun c => { c with value := c.value - w.value, holder := if c.owned then some (holderOf w) else c.holder }
        let s := releaseLanes w [i] rOk c.value s
        let s := s.onSync fun y => { y with waits := if rest.isEmpty then y.waits.erase w else y.waits.map fun x => if x = w then { x with lanes := maskOf rest } else x }
        ctrSettle id fuel s

/-- How an operation at a sync unit ends for its issuer. -/
inductive SyncRes where
  | dropped
  | denied
  | fin (code : Nat) (v : DWord)
  | waits
  deriving DecidableEq, Repr, Inhabited

/-- A DENIED outcome: record and flag of the unit (R272). -/
def syncDeny (w : Wait) (die : Nat) (s : State) : State :=
  let s := if w.fence then s else s.onSyncDie die fun d => { d with denied := d.denied.raise }
  errAdd { source := w.src, cls := clCtx, sev := sevContained, ctx := w.ctx, gen := w.gen, unit := die, die := die, addr := w.id } s

/-- The operation may be performed: owner, or member of the share set (R272 R271). -/
def ctrAllowed (s : State) (c : Ctr) (ctx : Nat) : Bool :=
  c.alloc && (c.owner = ctx || (match c.sset with | some x => (s.tier.sets.get x).locals.contains ctx | none => false))

/-- Waits of threads of one set on one counter with one condition and value share a table entry, whatever their timeouts
(R275). -/
def sharesEntry (a b : Wait) : Bool :=
  a.who = .core && decide ({ a with lanes := 0, deadline := none } = { b with lanes := 0, deadline := none })
def entryCount : List Wait → Nat
  | [] => 0
  | w :: l => (if l.any (sharesEntry w) then 0 else 1) + entryCount l
/-- Waits that a die's table holds, and those queued at its issuers. -/
def tableWaits (s : State) (die : Nat) : List Wait := s.sync.waits.filter fun x => !x.fence && ctrDie x.id = die
def queuedWaits (s : State) (die : Nat) : List Wait := s.sync.queued.filter fun x => ctrDie x.id = die
def waitsMax : Nat := 8192
/-- The table has an entry for the wait. -/
def waitRoom (s : State) (w : Wait) : Bool :=
  let l := tableWaits s (ctrDie w.id)
  l.any (sharesEntry w) || decide (entryCount l < waitsMax)

/-- Register a wait that is not yet satisfied: tested once (timeout 0), or registered, or queued at its issuer, behind its
earlier ones, when the die's table is full (R274 R275). -/
def waitAdd (w : Wait) (timeout : Nat) (s : State) : State × SyncRes :=
  if timeout = 0 then (s.drawn, .fin rTimeout s.draw)
  else
    let w := { w with deadline := if timeout = 0xFFFFFFFF then none else some (s.now + 1000 * timeout) }
    let q := queuedWaits s (ctrDie w.id)
    if w.fence || (waitRoom s w && !q.any fun x => x.who = w.who && x.src = w.src) then
      (s.onSync fun y => { y with waits := y.waits ++ [w] }, .waits)
    else
      let s := s.onSync fun y => { y with queued := y.queued ++ [w] }
      (if q.any (sharesEntry w) then s else s.onSyncDie (ctrDie w.id) fun d => { d with full := d.full.raise }, .waits)

/-- An operation on a counter whose issuer passed R272. `w` describes the issuer and operand. -/
def ctrDo (op : Nat) (w : Wait) (timeout : Nat) (s : State) : State × SyncRes :=
  let c := s.sync.ctrs.get w.id
  let settle (s : State) : State := ctrSettle w.id (s.sync.waits.length * 33 + 1) s
  let put (v : DWord) : State × SyncRes := (settle (s.onCtr w.id fun c => { c with value := v }), .fin rOk c.value)
  if c.abandoned then (s, .fin rAbandoned c.value)
  else match op with
    | 0x01 =>
      if !c.owned then put (c.value + w.value)
      else if w.value != 1 then (s, .fin rRefused c.value)
      else match c.holder with
        | some (hc, hg, _, _) =>
          if hc = w.ctx && hg = w.gen then (settle (s.onCtr w.id fun c => { c with value := 1, holder := none }), .fin rOk c.value)
          else (s, .fin rNotHolder c.value)
        | none => (s, .fin rNotHolder c.value)
    | 0x02 => if c.owned then (s, .fin rRefused c.value) else put (c.value - w.value)
    | 0x03 => if c.owned then (s, .fin rRefused c.value) else put w.value
    | 0x04 =>
      if c.owned && w.value != 1 then (s, .fin rRefused c.value)
      else if w.value.toNat ≤ c.value.toNat then
        (settle (s.onCtr w.id fun c => { c with value := c.value - w.value, holder := if c.owned then some (holderOf w) else c.holder }), .fin rOk c.value)
      else waitAdd { w with cond := 0x13 } timeout s
    | _ =>
      if syncCond op c.value w.value then (s, .fin rOk c.value)
      else waitAdd { w with cond := op } timeout s

/-! ### Fences (R283 to R286) -/

def FenceSt.code : FenceSt → Nat
  | .unsignalled => 0 | .signalled => 1 | .abandoned => 2
def Fence.bytes (f : Fence) : List Byte :=
  leBytes 1 f.st.code ++ leBytes 1 (if f.armed then 1 else 0) ++ leBytes 2 f.vector ++ leBytes 2 f.source ++ zeros 2 ++ leBytes 8 f.tsc.toNat

/-- The device writes a fence's entry in its table in host memory. -/
def fenceStore (k : Nat) (s : State) : State :=
  match (s.ctx (k / 65536)).fenceTab with
  | some (a, _) => s.hostWr (a + 16 * (k % 65536)) (s.sync.fences.get k).bytes
  | none => s

/-- Slots hold the UNSIGNALLED fences that are armed or have a device waiter; Plowin serves those for which
none is free (R285). -/
def fenceSlots (k : Nat) (s : State) : State :=
  let f := s.sync.fences.get k
  let need := f.st = .unsignalled && (f.armed || s.sync.waits.any fun w => w.fence && fenceKey w.id = k && w.who != .watch)
  s.onSync fun y =>
    if need then
      (if y.slots.contains k || y.fw.contains k then y
       else if y.slots.length < 48 then { y with slots := y.slots ++ [k] } else { y with fw := y.fw ++ [k] })
    else { y with slots := y.slots.filter (· != k), fw := y.fw.filter (· != k) }

/-- The vector of an armed fence is raised, which clears ARMED. -/
def fenceFire (k : Nat) (s : State) : State :=
  let f := s.sync.fences.get k
  if f.armed then
    let c := k / 65536
    let s := s.onFence k fun f => { f with armed := false }
    if s.ctxHeld (s.ctx c).fn c then s.onFn (s.ctx c).fn fun x => { x with pba := if x.pba.contains f.vector then x.pba else x.pba ++ [f.vector] }
    else msixRaise (s.ctx c).fn f.vector s
  else s

/-- Fences whose waits have gone give up their slots (R285). -/
def fencesFree (ws : List Wait) (s : State) : State := ws.foldl (fun s w => if w.fence then fenceSlots (fenceKey w.id) s else s) s

/-- A transition: state, source and time, waiters released, armed vector raised, entry written. -/
def fenceMove (k : Nat) (st : FenceSt) (src : Nat) (s : State) : State :=
  let s := s.onFence k fun f => { f with st := st, source := src, tsc := s.tsc.time }
  let mine := if st = .unsignalled then [] else s.sync.waits.filter fun w => w.fence && fenceKey w.id = k
  let s := mine.foldl (fun s w => release w (if st = .signalled then rOk else rAbandoned) (BitVec.ofNat 64 st.code) s) s
  let s := if st = .unsignalled then s else fenceFire k s
  fenceSlots k (fenceStore k s)

/-- The fence may be operated on by the context (R283 R272). -/
def fenceAllowed (s : State) (id ctx : Nat) : Bool :=
  let o := bits id 27 16
  (s.ctx o).live && (match (s.ctx o).fenceTab with
    | none => false
    | some (_, sh) => o = ctx || (match sh with | some x => (s.tier.sets.get x).locals.contains ctx | none => false))

/-- FENCE_SIGNAL: answers the sync code of R295. -/
def fenceSignal (k src : Nat) (s : State) : State × Nat :=
  match (s.sync.fences.get k).st with
  | .unsignalled => (fenceMove k .signalled src s, rOk)
  | .signalled => (s, rOk)
  | .abandoned => (s, rAbandoned)
def fenceClear (k src : Nat) (s : State) : State :=
  if (s.sync.fences.get k).st = .signalled then fenceMove k .unsignalled src s else s
def fenceArm (k vec : Nat) (s : State) : State :=
  let s := s.onFence k fun f => { f with armed := true, vector := vec }
  let s := if (s.sync.fences.get k).st = .unsignalled then s else fenceFire k s
  fenceSlots k (fenceStore k s)

/-- A wait on a fence: released by its state, or registered. -/
def fenceWait (w : Wait) (timeout : Nat) (s : State) : State × SyncRes :=
  match (s.sync.fences.get (fenceKey w.id)).st with
  | .signalled => let (v, s) := waitValue w rOk 1 s; (s, .fin rOk v)
  | .abandoned => let (v, s) := waitValue w rAbandoned 2 s; (s, .fin rAbandoned v)
  | .unsignalled =>
    let (s, r) := waitAdd { w with cond := 0x12 } timeout s
    (fenceSlots (fenceKey w.id) s, r)

/-- A sync operation of any agent as it reaches its unit: generation, permission, effect (R272 R273 R284). -/
def syncOp (op : Nat) (w : Wait) (timeout : Nat) (s : State) : State × SyncRes :=
  if !genOk s w.ctx w.gen then (s, .dropped)
  else if w.fence then
    if fenceAllowed s w.id w.ctx then fenceWait w timeout s else (syncDeny w 0x20 s, .denied)
  else if ctrAllowed s (s.sync.ctrs.get w.id) w.ctx then ctrDo op w timeout s
  else (syncDeny w (ctrDie w.id) s, .denied)

/-- The oldest deferred wait of a die is registered when there is an entry for it, and with it those that share the entry;
their condition is tested then (R274 R275). -/
def waitPromote (die : Nat) (s : State) : State :=
  match s.sync.queued.find? (fun w => ctrDie w.id = die) with
  | none => s
  | some w =>
    if !waitRoom s w then s
    else
      let mine (x : Wait) : Bool := decide (x = w) || sharesEntry w x
      let ws := s.sync.queued.filter mine
      let s := s.onSync fun y => { y with queued := y.queued.filter (!mine ·), waits := y.waits ++ ws }
      if (s.sync.ctrs.get w.id).abandoned then ws.foldl (fun s w => release w rAbandoned (s.sync.ctrs.get w.id).value s) s
      else ctrSettle w.id (s.sync.waits.length * 33 + 1) s

/-- Counters of a context held OWNED become ABANDONED: the value stays 0, waits are released (R278). -/
def abandonCtrs (ctx : Nat) (s : State) : State :=
  s.sync.ctrs.foldl (init := s) fun s (i, c) =>
    match c.holder with
    | some (hc, _, _, _) =>
      if c.owned && !c.abandoned && hc = ctx then
        let s := s.onCtr i fun c => { c with abandoned := true, value := 0 }
        let s := s.onSyncDie (ctrDie i) fun d => { d with abandon := d.abandon.raise }
        ((s.sync.waits ++ s.sync.queued).filter fun w => !w.fence && w.id = i).foldl
          (fun s w => release w rAbandoned 0 (s.onSync fun y => { y with queued := y.queued.erase w })) s
      else s
    | none => s

/-- UNSIGNALLED fences of a context become ABANDONED (R286). Every index of a registered table is one. -/
def abandonFences (ctx : Nat) (s : State) : State :=
  match (s.ctx ctx).fenceTab with
  | none => s
  | some (addr, _) =>
    let base := 65536 * ctx
    let mine (w : Wait) : Bool := w.fence && bits w.id 27 16 = ctx && (s.sync.fences.get (fenceKey w.id)).st = .unsignalled
    let ws := s.sync.waits.filter mine
    let armed := s.sync.fences.filter fun (k, f) => k / 65536 = ctx && f.st = .unsignalled && f.armed
    let s := ws.foldl (fun s w => release w rAbandoned 2 s) s
    let s := armed.foldl (fun s (k, _) => fenceFire k s) s
    let mv (f : Fence) : Fence :=
      if f.st = .unsignalled then { f with st := .abandoned, source := plowin s, tsc := s.tsc.time } else f
    let old := s.sync.fences
    let block := (List.range 65536).map fun i => (base + i, mv (old.get (base + i)))
    let s := s.onSync fun y => { y with fences := Tbl.splice old base 65536 block, slots := y.slots.filter (· / 65536 != ctx), fw := y.fw.filter (· / 65536 != ctx) }
    s.onMem fun m => writeBlock m (hostBase + addr) (block.flatMap fun (_, f) => f.bytes)

/-- The waits of a context are removed and never complete, but for its host watches, whose records are
written with ABANDONED (R282 R287); no value satisfied those on a counter, and the spec states none for them. -/
def removeWaits (ctx : Nat) (s : State) : State :=
  let his (w : Wait) : Bool := w.ctx = ctx && w.who != .remote
  let all := (s.sync.waits ++ s.sync.queued).filter his
  let s := fencesFree all (s.onSync fun y => { y with waits := y.waits.filter (!his ·), queued := y.queued.filter (!his ·) })
  (all.filter (·.who = .watch)).foldl (fun s w =>
    if w.fence then notifyPush w rAbandoned (BitVec.ofNat 64 (s.sync.fences.get (fenceKey w.id)).st.code) s
    else notifyPush w rAbandoned s.draw s.drawn) s

/-- Waits of an agent are removed: of a group whose threads ended, of a queue that goes. -/
def dropWaits (who : WaitWho) (id : Nat) (s : State) : State :=
  let his (w : Wait) : Bool := w.who = who && w.grp = id
  fencesFree (s.sync.waits.filter his) (s.onSync fun y => { y with waits := y.waits.filter (!his ·), queued := y.queued.filter (!his ·) })
def removeGroupWaits (id : Nat) (s : State) : State := dropWaits .core id s

end Sys2Proof.Machine
end

