-- ==== Sys2Proof/Machine/Tables.lean ====
section
/-! DEFINITION. The page tables in memory: their region, the replica of every compute die, and a walk (R248, R251,
R252). -/
namespace Sys2Proof.Machine

/-! ### The region (R248; its place and size are DESIGN CHOICE, notes/assumptions/66.md) -/

/-- Bytes that Plowin reserves for tables at the top of every die's usable HBM. -/
def tabBytes : Nat := 0x40000000
def tabBase (s : State) (d : Nat) : Nat := hbmBase d + (hbmSize s d - tabBytes)
/-- A local address in some die's region. -/
def tabReserved (s : State) (a : Nat) : Bool :=
  match zoneOf a with | .hbm d => decide (tabBase s d ≤ a) && decide (a < tabBase s d + tabBytes) | _ => false
/-- The root table of a context: 64 KiB, aligned to it. -/
def tabRoot (s : State) (d c : Nat) : Nat := tabBase s d + 0x10000 * c
/-- Blocks of 4 KiB for the other tables. -/
def tabBlocks : Nat := 0x30000
def tabBlock (s : State) (d n : Nat) : Nat := tabBase s d + 0x10000000 + 0x1000 * n

/-! ### Entries (R251) -/

/-- Index of an address in a table of a level. -/
def levelIx (l va : Nat) : Nat := match l with | 3 => bits va 51 39 | 2 => bits va 38 30 | 1 => bits va 29 21 | _ => bits va 20 16
def tabEntry (s : State) (a : Nat) : Nat := leNat (s.rd a 8)
def nonLeaf (e : Nat) : Bool := e % 2 = 1 && bits e 11 8 = 15
/-- A non-leaf entry for a table, and the table that it names. -/
def tabLink (a : Nat) : Nat := a + 0xF01
def tabNext (e : Nat) : Nat := bits e 47 12 * 0x1000

/-- What a walk reads from a table of a level on: levels and entries, ending at the first that is not a non-leaf entry. -/
def tabWalk (s : State) (va : Nat) : Nat → Nat → List (Nat × Nat)
  | 0, a => [(0, tabEntry s (a + 8 * levelIx 0 va))]
  | l + 1, a =>
    let e := tabEntry s (a + 8 * levelIx (l + 1) va)
    (l + 1, e) :: (if nonLeaf e then tabWalk s va l (tabNext e) else [])
/-- A walk of a die's replica from the root. -/
def dieWalk (s : State) (d c va : Nat) : List (Nat × Nat) := tabWalk s va 3 (tabRoot s d c)

/-! ### Plowin's writes -/

/-- The lowest free block of a die. -/
def blockFree (s : State) (d : Nat) : Option Nat := (List.range tabBlocks).find? fun n => !(s.xl.blocks.any fun b => b.1 = d && b.2.2 = n)
/-- Write an entry at level `lv`, making the tables on the way that are missing. -/
def tabPut (d c va lv e : Nat) : Nat → Nat → State → State
  | 0, a, s => s.wr (a + 8 * levelIx 0 va) (leBytes 8 e)
  | l + 1, a, s =>
    let at_ := a + 8 * levelIx (l + 1) va
    if lv = l + 1 then s.wr at_ (leBytes 8 e)
    else if nonLeaf (tabEntry s at_) then tabPut d c va lv e l (tabNext (tabEntry s at_)) s
    else match blockFree s d with
      | none => s
      | some n =>
        let t := tabBlock s d n
        let s := (s.onXl fun y => { y with blocks := y.blocks ++ [(d, c, n)] }).onMem fun m => m.splice t 0x1000 []
        tabPut d c va lv e l t (s.wr at_ (leBytes 8 (tabLink t)))
/-- The level of a leaf: 64 KiB pages at 0, 2 MiB at 1, 1 GiB at 2. -/
def leafPut (e : DWord) (l : Leaf) (s : State) : State :=
  (List.range 8).foldl (fun s d => tabPut d l.ctx l.va l.size e.toNat 3 (tabRoot s d l.ctx) s) s
/-- Every replica: leaves that are gone become entries not valid, new ones are written. -/
def replicas (old new : List Leaf) (s : State) : State :=
  new.foldl (fun s l => leafPut l.entry l s) (old.foldl (fun s l => leafPut 0 l s) s)
/-- The tables of a context are given back; its roots are empty. -/
def tabDrop (c : Nat) (s : State) : State :=
  (List.range 8).foldl (fun s d => s.onMem fun m => m.splice (tabRoot s d c) 0x10000 [])
    (s.onXl fun y => { y with blocks := y.blocks.filter (·.2.1 != c) })
/-- Tables that a range of pages of a size can need: one for each span of each level above. -/
def tabNeed (va len size : Nat) : Nat :=
  let span (b : Nat) : Nat := (va + len - 1) / 2 ^ b - va / 2 ^ b + 1
  (if size = 0 then span 21 else 0) + (if size < 2 then span 30 else 0) + span 39
def tabRoom (s : State) (va len size : Nat) : Bool :=
  (List.range 8).all fun d => decide ((s.xl.blocks.filter (·.1 = d)).length + tabNeed va len size ≤ tabBlocks)

/-! ### Granules for saves (R332; the place of the hold-back is DESIGN CHOICE, notes/assumptions/69.md) -/

/-- The half of a pinned way that an address lies in, numbered as the segments of a bank are: twice the way, plus the half. Each
bank holds every fourth line of it. -/
def pinHalf (a : Nat) : Nat := pinWay a * 2 + setOf a / 32768
/-- The granule is not withdrawn from new mappings (R215). An unbacked one may be mapped: the home denies its requests
(R203). -/
def granUsable (s : State) (k : Nat) : Bool :=
  let a := k * 65536
  !backed s a || (match zoneOf a with
    | .hbm _ => [a, a + 4096].all fun b => let (h, o) := stackAt s b; !(s.tier.hbms.get h).withdrawn.contains (o / 65536)
    | .pinned _ => !((s.slice (homeSlice a)).withdrawn.any fun g => pinHalf a = g % 32)
    | _ => true)

/-- 256 MiB of each die's window, just below the tables. -/
def holdBytes : Nat := 0x10000000
def holdBase (s : State) (d : Nat) : Nat := tabBase s d - holdBytes
/-- The 2 GiB region of the wrap dump, below the hold-back of die 0 (R396; its place is DESIGN CHOICE,
notes/assumptions/46.md). -/
def dumpLen : Nat := 0x80000000
def dumpBase (s : State) : Nat := holdBase s 0 - dumpLen
/-- The end of the granules of a die's window that contexts may own. -/
def openEnd (s : State) (d : Nat) : Nat := if d = 0 then dumpBase s else holdBase s d
/-- Plowin holds the granule: in the dump's region, a hold-back, the tables' region, or part of a save. -/
def granHeld (s : State) (k : Nat) : Bool :=
  match zoneOf (k * 65536) with
  | .hbm d => decide (openEnd s d ≤ k * 65536) || s.saved.any (·.saveAt.contains k)
  | _ => false
/-- The first `n` granules for a save among `fuel` of them from `k` on. -/
def takeFree (s : State) : Nat → Nat → Nat → List Nat
  | 0, _, _ => []
  | f + 1, n, k =>
    if n = 0 then []
    else if !(s.tier.gran.get k).valid && granUsable s k && !(s.saved.any (·.saveAt.contains k)) then k :: takeFree s f (n - 1) (k + 1)
    else takeFree s f n (k + 1)
/-- Granules of a save: a full state takes the hold-back first, a live state the other granules of the window. -/
def saveGrans (s : State) (d n : Nat) (full : Bool) : List Nat :=
  let held (n : Nat) : List Nat := takeFree s (holdBytes / 65536) n (holdBase s d / 65536)
  let open_ (n : Nat) : List Nat := takeFree s ((openEnd s d - hbmBase d) / 65536) n (hbmBase d / 65536)
  let l := if full then held n else open_ n
  l ++ (if full then open_ (n - l.length) else held (n - l.length))
/-- The bytes of a save lie in its granules; the spec gives them no order. -/
def saveWrite (base : Nat) : Nat → List Nat → State → State
  | _, [], s => s
  | n, k :: t, s =>
    saveWrite (base + 65536) (n - 65536) t (s.wr (65536 * k) ((List.range (min n 65536)).map fun i => Config.freeByte (base + i)))

end Sys2Proof.Machine
end

