-- ==== Sys2Proof/Machine/GroupOps.lean ====
section
/-! DEFINITION. Thread groups as shared operations: the array's release, squash, park, end, stop and save
(ch. 07, 13, R58, R59, R76, R125, R178 to R182, R329 to R332). -/
namespace Sys2Proof.Machine

/-! ### Light meter and clip totals (R123 R125) -/

/-- Add two bin counts; they stop at all ones. -/
def satAdd (a b : Word) : Word := if 2 ^ 32 ≤ a.toNat + b.toNat then 0xFFFFFFFF else a + b
/-- Add bins of a core to a record. -/
def LmBins.add (x y : LmBins) : LmBins :=
  { bin := y.bin.foldl (fun t (n, v) => t.upd n fun w => satAdd w v) x.bin
    elements := x.elements + y.elements, saturated := x.saturated + y.saturated, flushed := x.flushed + y.flushed
    retakes := x.retakes + y.retakes, tests := x.tests + y.tests
    sat := x.sat || y.sat || y.bin.any fun (n, v) => decide (2 ^ 32 ≤ (x.bin.get n).toNat + v.toNat) }

/-- A core sends the bins of its holder, be they empty (R125: CORES counts the physical cores that sent). -/
def lmSend (p : Nat) (s : State) : State :=
  s.onCore p fun c => if c.holder.isNone && c.lm = {} then c else { c with lm := {}, lmSent := c.lmSent ++ [(c.lmKey, c.lm)] }

/-- The kernel engine adds the oldest bins a core has sent to the launch's record. -/
def lmMerge (p : Nat) (s : State) : State :=
  match (s.core p).lmSent with
  | [] => s
  | (k, b) :: rest =>
    (s.onLaunch k fun l => if !l.live then l else { l with lm := l.lm.add b, cores := if l.cores.contains p then l.cores else l.cores ++ [p] }).onCore p
      fun c => { c with lmSent := rest }

/-- The launch's running total takes the clip counts of a core's oldest store; when it reaches the threshold the
named counter gets 1, once. -/
def clipAdd (p : Nat) (s : State) : State :=
  match (s.core p).clipPend with
  | [] => s
  | (k, n) :: rest =>
    let l := s.launches.get k
    let tot := l.clipTot + n
    let fire := l.live && l.clipT != 0 && !l.clipped && decide (l.clipT ≤ tot)
    let s := s.onCore p fun c => { c with clipPend := rest }
    let s := s.onLaunch k fun l => if l.live then { l with clipTot := tot, clipped := l.clipped || fire } else l
    if fire then
      (syncOp 0x01 { who := .engine, grp := queueKey l.die 0, id := l.clipId.toNat, value := 1, ctx := l.ctx, gen := l.gen, src := srcKeng l.die } 0 s).1
    else s

/-! ### The array's holder (R58 R59) -/

/-- The core without array work: both banks and SAT bits zero, nothing held or queued, the extents whole (R59). -/
def Core.noArray (c : Core) : Core :=
  let c := { c with holder := none, mq := [], progs := [], doneProgs := [], acc0 := [], acc1 := [], sat0 := false, sat1 := false }
  { c with rn := 8, em := 0xFFFFFFFF, en := 0xFFFFFFFF, ek := 0xFFFFFFFF }

/-- Release: bins are sent, both banks and SAT bits are zero, extents and fraction are as a new holder finds
them, queued work and programs are gone. -/
def arrRelease (p : Nat) (s : State) : State := (lmSend p s).onCore p Core.noArray

/-- Is the group in this slot of the physical core the holder? -/
def isHolder (s : State) (p slot : Nat) : Bool := (s.core p).holder = some slot

/-! ### Registers of a group -/

def Group.thread (g : Group) (i : Nat) : Thread := g.th.get i
def Group.onThread (g : Group) (i : Nat) (f : Thread → Thread) : Group := { g with th := g.th.upd i f }
/-- Threads that have not exited. -/
def Group.alive (g : Group) : List Nat := (List.range 32).filter fun i => !(g.thread i).exited
/-- The set that stands at an address (R165). -/
def Group.setOfPc (g : Group) (pc : Nat) : List Nat := g.alive.filter fun i => (g.thread i).pc = pc

/-! ### Squash and retirement (R162 R164 R76) -/

/-- Take back one register write of window entry `id`. A uniform register that another set has written since keeps that
write; what a squash of that write puts back is then the content before this one. -/
def undoOne (id : Nat) (g : Group) (u : Undo) : Group :=
  if u.lane = 32 then
    if g.uw.get u.reg = id then { g with u := g.u.put u.reg u.old, uw := g.uw.put u.reg u.prev }
    else { g with win := g.win.map fun w => { w with undo := w.undo.map fun y =>
      if y.lane = 32 && y.reg = u.reg && y.prev = id then { y with old := u.old, prev := u.prev } else y } }
  else if u.reg = 256 then g.onThread u.lane fun t => { t with p := u.old.setWidth 8 }
  else if u.reg = 257 then g.onThread u.lane fun t => { t with arrive := u.old.toNat }
  else g.onThread u.lane fun t => { t with v := t.v.put u.reg u.old }

/-- Squash the unretired instructions of the lanes from window entry `id` on: their writes are taken back,
youngest first, and each lane stands at its oldest squashed instruction. -/
def squash (lanes : Word) (id : Nat) (g : Group) : Group :=
  g.win.reverse.foldl (init := g) fun g w =>
    let hit := w.lanes &&& lanes
    if w.id < id || hit = 0 then g
    else
      let rest := w.lanes &&& ~~~lanes
      let w := (g.win.find? (·.id = w.id)).getD w
      let us := w.undo.filter fun u => if u.lane = 32 then rest = 0 else hit.getLsbD u.lane
      let g := us.reverse.foldl (undoOne w.id) g
      let g := { g with holds := g.holds.filter fun h => h.lanes &&& hit = 0, brs := g.brs.filter fun b => !(rest = 0 && b.id = w.id) }
      let g := (lanesOf hit).foldl (fun g i => g.onThread i fun t => { t with pc := w.pc, gsync := none, exited := false }) g
      { g with win := if rest = 0 then g.win.filter (·.id != w.id)
                      else g.win.map fun x => if x.id = w.id then { x with lanes := rest } else x }

/-- Queued MMAs of a holder from a window entry on are removed; the banks keep their content (R76). -/
def squashMmas (p slot id : Nat) (s : State) : State :=
  s.onCore p fun c => { c with mq := c.mq.filter fun m => !(m.owner = slot && !m.kloop && decide (id ≤ m.winId)) }

/-- What a squash of lanes from a window entry on takes with it: that, and from its oldest MMA on every unretired MMA of the
group with the younger instructions of its threads, for those MMAs are removed and issue again (R76 R164 R184). -/
def squashPlan (lanes : Word) (id : Nat) (g : Group) : List (Word × Nat) :=
  let mmas := g.win.filter fun w => (w.use matches .mma) && !w.fin
  match mmas.find? fun w => decide (id ≤ w.id) && w.lanes &&& lanes != 0 with
  | none => [(lanes, id)]
  | some m => (lanes, id) :: ((mmas.filter fun w => decide (m.id ≤ w.id)).map fun w => (w.lanes, w.id))

/-- Squash the unretired instructions of lanes from window entry `id` on, on the core `p` of the group: register writes and
returned program results are put back, MMAs leave the array queue (R164 R184). -/
def squashFrom (k : Nat) (p : Option Nat) (lanes : Word) (id : Nat) (s : State) : State :=
  let g := s.group k
  let plan := squashPlan lanes id g
  let g2 := plan.foldl (fun a x => squash x.1 x.2 a) g
  let back := (g.win.filter fun w => !(g2.win.any (·.id = w.id))).filterMap (·.popped)
  let s := s.onGroup k fun _ => { g2 with faults := g2.faults.filter fun f => !(plan.any fun x => f.lanes &&& x.1 != 0) }
  match p with
  | none => s
  | some p =>
    let s := match plan with
      | _ :: m :: _ => squashMmas p g.slot m.2 s
      | _ => s
    if back.isEmpty then s else s.onCore p fun c => { c with doneProgs := back ++ c.doneProgs }

/-- Entries retire once their results are final and every older instruction of their threads has retired. -/
def retireSweep (g : Group) : Group :=
  let keep := g.win.foldl (init := ([] : List Win)) fun acc w =>
    if w.fin && !(acc.any fun x => x.lanes &&& w.lanes != 0) then acc else acc ++ [w]
  { g with win := keep }

/-- GSYNC: threads whose named threads have all arrived, or exited, go on (R173). -/
def gsyncSettle (g : Group) : Group :=
  let ok (t : Thread) (m : Word) : Bool :=
    (lanesOf m).all fun i => (g.thread i).exited || decide (t.arrive ≤ (g.thread i).arrive)
  { g with th := g.th.mapAll fun t => match t.gsync with | some m => if ok t m then { t with gsync := none } else t | none => t }

/-! ### Parks (R178 to R182) -/

def cPageFault : Nat := 1
def cPoison : Nat := 2
def cDenied : Nat := 3
def cIllegal : Nat := 4
def cArray : Nat := 5
def cRegister : Nat := 6

/-- Policy of a cause: 0 HOLD, 1 ABANDON, 2 in-flight rules. -/
def policyOf (x : Ctx) (cause : Nat) : Nat :=
  match cause with
  | 1 => 0
  | 2 => if x.poisonAb then 1 else 0
  | 3 => if x.deniedAb then 1 else 0
  | 5 => 2
  | _ => 1

/-- A 64 B park record (R179). -/
def parkRec (g : Group) (k : Park) (p now seq : Nat) : List Byte :=
  leBytes 2 1 ++ leBytes 1 k.cause ++ leBytes 1 k.detail ++ leBytes 1 k.reason ++ leBytes 1 k.policy ++ leBytes 2 g.slot ++
  leBytes 2 g.lcore ++ leBytes 2 p ++ leBytes 2 g.ctx ++ [g.gen] ++ zeros 1 ++ leBytes 8 now ++ leBytes 8 k.pc ++
  leBytes 4 k.threads.toNat ++ leBytes 4 k.setm.toNat ++ leBytes 8 k.addr.toNat ++ leBytes 4 seq ++ leBytes 4 g.gid ++ zeros 8

/-- Entries of a group in the register cache are dropped (R155). -/
def dropRcache (p slot : Nat) (s : State) : State :=
  s.onCore p fun c => { c with rcache := c.rcache.filter (·.1 != slot) }

/-- Reservations of a group are lost (R229). -/
def dropRsvs (k : Nat) (s : State) : State :=
  (s.onGroup k fun g => { g with th := g.th.mapAll fun t => { t with resv := none } }).onTier
    fun t => { t with rsv := t.rsv.filter fun (_, j, _) => j != k }

/-- Stalls of a group's accesses, and of its tile programs', are over. -/
def dropStalls (id : Nat) (s : State) : State :=
  s.onXl fun y => { y with stalls := y.stalls.filter fun t => !(t.stream < 4096 && t.grp = id) }

/-! ### Work that waits for cores (R322 R325) -/

/-- Resident groups of a die that a test selects. -/
def dieCount (s : State) (d : Nat) (f : Group → Bool) : Nat := (s.groups.filter fun (_, g) => g.stage != .empty && lDie g.lcore = d && f g).length
def under (n : Nat) : Option Nat → Bool
  | none => true
  | some q => decide (n < q)
/-- The context, and its function, are below their quota of resident groups on the die. -/
def quotaOk (s : State) (d c : Nat) : Bool :=
  let fn := (s.ctx c).fn
  under (dieCount s d fun g => g.ctx = c) (s.ctx c).qGroups && under (dieCount s d fun g => (s.ctx g.ctx).fn = fn) (s.fn fn).qGroups
/-- The context's work may be placed. -/
def ctxRuns (s : State) (c : Nat) : Bool := let x := s.ctx c; x.live && !x.paused && !x.inReset
/-- The launch has a group to place that neither its quota nor its context holds back. -/
def Launch.wants (s : State) (l : Launch) : Bool := l.live && decide (l.nextG < l.groups) && ctxRuns s l.ctx && quotaOk s l.die l.ctx
/-- From a state `s` on, launches that their quota or context held back there and no longer holds back wait for room. -/
def roomWaits (s t : State) : State := t.onLaunches fun y => y.mapAll fun l => if !l.wants s && l.wants t then { l with roomAt := t.now } else l

/-- The time that a group has been in its slot is added to the account of its context. -/
def slotAdd (g : Group) (s : State) : State := if g.stage = .running || g.stage = .parked then acctAdd g.ctx aSlotNs (s.now - g.started) s else s

/-- A thread group ends, completed or failed: array, waits, stalls and slot are given up, and the launch
records the group's status (R58 R181 R240). A group marked failed ends so. -/
def groupEnd (k : Nat) (status : Nat) (s0 : State) : State :=
  let s := s0
  let g := s.group k
  if g.stage = .empty then s
  else
    let s := match s.phys g.lcore with
      | some p => dropRcache p g.slot (if isHolder s p g.slot then arrRelease p s else s)
      | none => s
    let s := dropRsvs k (removeGroupWaits g.ident s)
    let s := dropStalls g.ident s
    let st := if status = stOk then g.failed.getD stOk else status
    let s := s.onLaunch g.launch fun l => { l with gst := l.gst.put g.gid (st + 1), replayed := l.replayed || g.replayed }
    roomWaits s0 ((slotAdd g s).onGroups fun t => t.put k {})

/-- The granules of a group's save are given back (R332). -/
def saveFree (g : Group) (s : State) : State :=
  s.onCtx g.ctx fun x => { x with saveGran := x.saveGran - g.saveN }

/-- A group that is saved ends. -/
def savedEnd (id : Nat) (status : Nat) (s : State) : State :=
  match s.saved.find? (fun g => g.ident = id) with
  | none => s
  | some g =>
    let s := dropStalls id (saveFree g (removeGroupWaits id s))
    let s := s.onLaunch g.launch fun l => { l with gst := l.gst.put g.gid (status + 1), replayed := l.replayed || g.replayed }
    s.onSaved fun l => l.filter (·.ident != id)

/-- A fault of an instruction: its own and the younger instructions of its threads are squashed from window
entry `id` on (0: it never entered), and the group is to park at it (R164). Its reservations are lost (R229). -/
def faultGroup (k : Nat) (pk : Park) (id : Nat) (s : State) : State :=
  let g := s.group k
  let lanes := match g.win.find? (·.id = id) with | some w => w.lanes | none => pk.lanes
  let pk := { pk with policy := policyOf (s.ctx g.ctx) pk.cause, lanes := lanes }
  let s := dropRsvs k (if id = 0 then s else squashFrom k (s.phys g.lcore) lanes id s)
  s.onGroup k fun g =>
    { g with faults := g.faults.filter (fun x => x.lanes &&& lanes = 0) ++ [pk] }

/-- The fault record of one page of a page-fault park, and the stall of the core's stream (R260). -/
def pageFault (k : Nat) (x : Nat × Nat × Nat × Nat) (s : State) : State :=
  let g := s.group k
  let (va, reason, need, access) := x
  let f := (s.ctx g.ctx).fn
  let seq := (s.fn f).faultSeq
  let s := s.onGroup k fun g => { g with park := g.park.map fun pk => { pk with seqs := pk.seqs ++ [seq] } }
  faultAdd { stream := g.lcore, grp := g.ident, fn := f, ctx := g.ctx, gen := g.gen, va := va, need := need } 0 reason access g.slot g.lcore 0 s

/-- A faulting instruction whose older instructions have all retired (R164). -/
def parkable (g : Group) : Option Park := g.faults.find? fun x => !(g.win.any fun w => w.lanes &&& x.lanes != 0)

/-- The group parks: slot, registers and array stay; a record is written for the faulting instruction; an
ABANDON policy ends it at once (R178 to R181). -/
def parkNow (k : Nat) (s : State) : State :=
  let g := s.group k
  match parkable g with
  | none => s
  | some pk =>
    let p := (s.phys g.lcore).getD 0xFFFF
    let s := s.onGroup k fun g => { g with stage := .parked, park := some (g.park.getD pk), faults := g.faults.erase pk }
    let pk := { pk with setm := maskOf (g.setOfPc pk.pc) }
    let s := dropRsvs k (dropRcache p g.slot s)
    let s := pk.pages.foldl (fun s x => pageFault k x s) s
    let s := ringPush (s.ctx g.ctx).fn .park g.ctx true (parkRec g pk p s.now (s.launches.get g.launch).seq) s
    if pk.policy = 1 then groupEnd k stFault s else s

/-- A decision for the park of a saved group: it is applied when the group is restored (R182). -/
def Group.ruled (abandon : Bool) (g : Group) : Group := { g with decided := some (g.decided.getD abandon) }

/-- Replay a park: every thread resumes at its own program counter (R181). -/
def unpark (k : Nat) (s : State) : State :=
  s.onGroup k fun g => if g.stage = .parked then { g with stage := .running, park := none } else g

/-! ### Stops and saves (R329 to R332) -/

/-- A stop is requested; the first reason stands. -/
def requestStop (k : Nat) (why : StopWhy) (s : State) : State :=
  s.onGroup k fun g =>
    if g.stage = .empty || g.stage = .starting then g
    else { g with stop := match g.stop with | some x => some x | none => some { why := why, since := s.now } }

/-- Live state of a cut-point entry (R328): masks of vectors, uniforms and predicates, banks, bytes of local
store. -/
structure LiveMask where
  v : Nat := 0
  u : Nat := 0
  p : Nat := 0
  banks : Nat := 0
  ls : Nat := 0
  deriving DecidableEq, Repr, Inhabited

def LiveMask.union (a b : LiveMask) : LiveMask :=
  { v := a.v ||| b.v, u := a.u ||| b.u, p := a.p ||| b.p, banks := a.banks ||| b.banks, ls := max a.ls b.ls }

/-- Read bytes of a context's memory at their homes; none where a piece does not translate to local memory. -/
def vaBytes (s : State) (c va n need : Nat) : Option (List Byte) :=
  (cutRange (n + 1) va n).foldl (init := some []) fun acc (a, k) =>
    match acc, translate s c a need with
    | some l, .ok pa _ => if paDev pa = s.devId then some (l ++ s.rd (paLocal pa) k) else none
    | _, _ => none

/-- The side-table entry a CUT names, none when it names no entry (R328). -/
def cutEntry (s : State) (g : Group) (idx : Nat) : Option LiveMask :=
  let l := s.launches.get g.launch
  if l.cut = 0 then none
  else match vaBytes s g.ctx l.cut 64 needR with
    | none => none
    | some h =>
      if fieldN h 0 4 ≤ idx then none
      else match vaBytes s g.ctx (l.cut + 64 * (idx + 1)) 64 needR with
        | none => none
        | some e => some { v := fieldN e 0 32, u := fieldN e 32 8, p := fieldN e 40 1, banks := fieldN e 41 1 % 4, ls := fieldN e 44 4 }

/-- The registers of a state whose entries outside the mask are not kept: they hold free values. -/
def keepMask (base : Nat) (n m : Nat) (t : Tbl Word) : Tbl Word :=
  (List.range n).foldl (init := t) fun t i => if m.testBit i then t else t.put i (Config.freeValue (base + i)).toNat
/-- What a live-state save keeps of a group (R332). -/
def keepLive (base : Nat) (m : LiveMask) (g : Group) : Group :=
  let th (i : Nat) (t : Thread) : Thread :=
    { t with v := keepMask (base + 512 * i) g.vregs m.v t.v
             p := (t.p &&& BitVec.ofNat 8 m.p) ||| ((Config.freeValue (base + 512 * i + 256)).setWidth 8 &&& ~~~BitVec.ofNat 8 m.p) }
  let ls := (g.ls.filter fun (a, _) => a < m.ls)
  { g with th := (List.range 32).foldl (fun t i => t.upd i (th i)) g.th
           u := keepMask (base + 512 * 32) 64 m.u g.u
           ls := (List.range (g.lsSize - m.ls)).foldl (fun t i => t.put (m.ls + i) (Config.freeByte (base + i))) ls }

/-- Bytes of a save (R332). -/
def popcount (n m : Nat) : Nat := ((List.range n).filter m.testBit).length
def saveBytes (g : Group) (holder full : Bool) (m : LiveMask) : Nat :=
  if full then 1024 + 128 * ((g.vregs + 7) / 8 * 8) + 320 + g.lsSize + (if holder then 16384 else 0) + (if g.rwait.isSome then 32 else 0)
  else 1024 + 128 * popcount 256 m.v + 4 * popcount 64 m.u + 64 + m.ls + (if holder then 8192 * popcount 2 m.banks else 0)
/-- Bytes of the holder's halo send buffers. -/
def haloBytes (c : Core) : Nat := (c.progs.map fun g => ((g.sends.filter fun x => !x.acked).map (·.bytes.length)).sum).sum
/-- Bytes of the save of a group on a physical core, of a holder with its send buffers. -/
def groupBytes (s : State) (g : Group) (full : Bool) (m : LiveMask) : Nat :=
  match s.phys g.lcore with
  | some p => saveBytes g (isHolder s p g.slot) full m + (if isHolder s p g.slot then haloBytes (s.core p) else 0)
  | none => saveBytes g false full m

/-- A program as it is saved: at its current pass, from its first K-group, with what was fetched and what
was received but not placed discarded (R144 R149). -/
def Prog.saved (g : Prog) : Prog :=
  match g.flight with
  | [] => { g with buf := [], panel := [], got := [], bad := [] }
  | x :: _ => { g with buf := [], panel := [], flight := [], tile := x.tile, pass := x.pass, bank := x.bank, tileExt := some x.ext, got := [], bad := [] }

/-- Free bits of accumulator entries that a live-state save does not keep. -/
def bankKeep (base : Nat) (live : Bool) (t : Tbl Word) : Tbl Word :=
  if live then t else (List.range 2048).foldl (fun t i => t.put i (Config.freeValue (base + i)).toNat) []

/-- The group leaves its slot with its state: the full state, its unretired instructions and MMAs squashed,
or the live state of a mask (R329 R332). Nothing happens to a slot without a group. -/
def saveGroup (k : Nat) (live : Option LiveMask) (s0 : State) : State :=
  let s := s0
  let g := s.group k
  if g.stage = .empty || g.stage = .starting then s
  else
    let full := live.isNone
    let m := live.getD {}
    let s := if full then squashFrom k (s.phys g.lcore) 0xFFFFFFFF 0 s else s
    let g := if full then s.group k else keepLive s.freeN m g
    let p := (s.phys g.lcore).getD 0xFFFF
    let holder := isHolder s p g.slot
    let c := s.core p
    let arr : Option ArrSave := if holder then
        some { acc0 := bankKeep (s.freeN + 20000) (full || m.banks.testBit 0) c.acc0, acc1 := bankKeep (s.freeN + 22048) (full || m.banks.testBit 1) c.acc1,
               sat0 := c.sat0, sat1 := c.sat1, rn := c.rn, ext := (c.em, c.en, c.ek), progs := c.progs.map Prog.saved, doneProgs := c.doneProgs }
      else none
    let g := { g with arr := arr, stop := none, faults := [], savedAt := s.now, th := g.th.mapAll fun t => { t with resv := none, cut := none } }
    let bytes := groupBytes s g full m
    let n := (bytes + 65535) / 65536
    let at_ := saveGrans s (lDie g.lcore) n full
    let g := { g with saveN := n, saveAt := at_ }
    let s := saveWrite (s.freeN + 2 ^ 18) bytes at_ s
    let s := if holder then arrRelease p s else s
    let s := dropRsvs k (dropRcache p g.slot s)
    let s := acctAdd g.ctx (if full then aFull else aSoft) 1 (slotAdd g s)
    let s := s.onCtx g.ctx fun x => { x with saveGran := x.saveGran + n }
    roomWaits s0 (((s.onFreeN (· + (2 ^ 18 + 65536 * n))).onGroups fun t => t.put k {}).onSaved fun l => l ++ [g])

/-- Mark the groups recorded for a dropped store as failed, resident, saved or already exited (R209). -/
def markFailed (owners : List (Nat × Nat × Nat)) (status : Nat) (s : State) : State :=
  owners.foldl (init := s) fun s (_, launch, gid) =>
    let id := 2 ^ 32 * launch + gid
    let mark (g : Group) : Group := { g with failed := some (g.failed.getD status) }
    if s.saved.any (fun g => g.ident = id) || s.groups.any (fun (_, g) => g.stage != .empty && g.ident = id) then s.onIdent id mark
    else s.onLaunch launch fun l => if l.live && l.gst.get gid = 1 then { l with gst := l.gst.put gid (status + 1) } else l

end Sys2Proof.Machine
end

