-- ==== Sys2Proof/Machine/L1.lean ====
section
/-! DEFINITION. L1 caches, the store buffer and the coherent path within a die (R218 to R239). -/
namespace Sys2Proof.Machine

/-- Lines an L1 holds under a split (R158). -/
def l1Cap (split : Nat) : Nat := 1024 * (split + 1)
def l1Has (s : State) (p line : Nat) : Bool := !((s.core p).l1.get line).data.isEmpty
def State.onL1 (s : State) (p line : Nat) (f : L1Line → L1Line) : State := s.onCore p fun c => { c with l1 := c.l1.upd line f }
/-- The quad's snoop-ring stop answers from its copy of the tags: retention, or a ramp down or up (R27 R39). -/
def asleep (s : State) (p : Nat) : Bool :=
  match (s.pwr.quads.get (quadKey p)).mode with | .retention | .ramping | .waking => true | _ => false
/-- An invalidation recorded for a quad that is not running. -/
def recorded (s : State) (p line : Nat) : Bool := (s.pwr.quads.get (quadKey p)).inval.contains (p, line)
/-- Cores of the line's die whose L1 holds it, ascending. -/
def holdersOf (s : State) (line : Nat) : List Nat :=
  (s.cores.filter fun (p, c) => pDie p = homeDie line && !(c.l1.get line).data.isEmpty && !recorded s p line).map (·.1)
/-- The L1 that has bytes the home lacks, or may get them: state M or E, or a byte mask. -/
def carries (l : L1Line) : Bool := l.st != .S || !l.mask.isEmpty
def carrierOf (s : State) (line : Nat) : Option Nat :=
  (holdersOf s line).find? fun p => carries ((s.core p).l1.get line)
/-- The OWNED bit of a home line follows the L1 states (R234). -/
def setOwned (line : Nat) (s : State) : State :=
  let o := (holdersOf s line).find? fun p => ((s.core p).l1.get line).st != .S
  s.onTier fun t => { t with owned := t.owned.put line (match o with | some p => p + 1 | none => 0) }

/-- L1 reservations of a core's groups on a line are lost when it leaves the L1 (R229). -/
def dropL1Rsv (p line : Nat) (s : State) : State :=
  match logOf s.mesh p with
  | none => s
  | some c =>
    let thr (t : Thread) : Thread := match t.resv with | some r => if r.line = line && !r.atHome then { t with resv := none } else t | none => t
    (List.range 48).foldl (fun s i =>
      if (s.group (gKey c i)).stage = .empty then s else s.onGroup (gKey c i) fun g => { g with th := g.th.mapAll thr }) s
/-- A line leaves an L1; a quad that runs no steps records the invalidation (R39). Reservations in the L1 stay: of what
takes a line away, R229 names only its eviction. -/
def l1Drop (p line : Nat) (s : State) : State :=
  if asleep s p then setOwned line (s.onQuad (quadKey p) fun q => { q with inval := q.inval ++ [(p, line)] })
  else setOwned line (s.onCore p fun c => { c with l1 := c.l1.put line {} })
/-- Recorded invalidations are applied. -/
def applyInval (key : Nat) (s : State) : State :=
  let l := (s.pwr.quads.get key).inval
  (l.foldl (fun s (p, line) => s.onCore p fun c => { c with l1 := c.l1.put line {} }) s).onQuad key fun q => { q with inval := [] }

/-- A write-back: the bytes of the mask are performed at the home; the L1 keeps the line, clean. Where they
meet poison the recorded groups are marked failed (R239 R209). -/
def l1WriteBack (p line : Nat) (s : State) : State :=
  let l := (s.core p).l1.get line
  if l.mask.isEmpty then s
  else
    let (s, met) := homeWrite line (l.mask.map fun o => (o, l.data.getD o 0)) [] s
    let s := if met then markFailed l.owners stPoison s else s
    setOwned line (s.onL1 p line fun l => { l with mask := [], owners := [], st := if l.st = .M then .E else l.st })

/-- Every dirty line of a die's L1s that holds stores of the groups a test selects is written back. -/
def writeBackFor (d : Nat) (sel : Nat × Nat × Nat → Bool) (s : State) : State :=
  s.cores.foldl (init := s) fun s (q, c) =>
    if pDie q = d && !c.fenced then c.l1.foldl (fun s (a, l) => if l.owners.any sel then l1WriteBack q a s else s) s else s

/-- Every dirty line of an L1 is written back. -/
def l1Flush (p : Nat) (s : State) : State :=
  (s.core p).l1.foldl (fun s (a, _) => l1WriteBack p a s) s
/-- And every line is invalidated (R224 R240). -/
def l1Invalidate (p : Nat) (s : State) : State :=
  (s.core p).l1.foldl (fun s (a, _) => l1Drop p a s) s

/-- Put a line into an L1; beyond its capacity a line is evicted, written back. Which one is not stated. -/
def l1Put (p line : Nat) (l : L1Line) (s : State) : State :=
  let s := s.onCore p fun c => { c with l1 := c.l1.put line l }
  let c := s.core p
  let s :=
    if c.l1.length ≤ l1Cap c.split then s
    else
      let others := c.l1.filter fun (a, _) => a != line
      match others[s.draw.toNat % others.length]? with
      | some (a, _) => dropL1Rsv p a (l1Drop p a (l1WriteBack p a s.drawn))
      | none => s
  setOwned line s

/-- The poison marks of a line's granules at its home. -/
def linePoison (s : State) (line : Nat) : BitVec 16 :=
  (List.range 16).foldl (fun b i => setBit16 b i (poisonAt s (line + 8 * i))) (0 : BitVec 16)
/-- A line as the home gives it. -/
def lineAtHome (line : Nat) (s : State) : State × L1Line :=
  let s := tierTouch line false false s
  (s, { st := .S, data := s.rd line 128, poison := linePoison s line })

/-- How a request to the coherent path of a line ends: performed; an owner does not answer; or the slice makes it wait,
with what it has begun there. -/
inductive L1Ans where
  | done (s : State)
  | silent
  | wait (s : State)

/-- The L1 of a core does not answer for a line: the core was fenced with its state lost (R388), or a request already waits
there for its answer (R235). -/
def mute (s : State) (q line : Nat) : Bool := (s.core q).fenced || s.tier.waits.any (·.1 = line)

/-- Register a request that waits at its home for an owner's answer (R235). -/
def homeWait (line agent : Nat) (s : State) : State :=
  if s.tier.waits.any fun (l, a, _) => l = line && a = agent then s
  else s.onTier fun t => { t with waits := t.waits ++ [(line, agent, s.now)] }

/-- A line that one L1 passes to another: bytes that a bulk write has changed at the home since, and that no core has
stored, come from the home (R239 R246). -/
def passLine (line : Nat) (l : L1Line) (s : State) : State × L1Line :=
  let new := l.stale.filter fun o => !l.mask.contains o
  if new.isEmpty then (s, l)
  else
    let (s, h) := lineAtHome line s
    let gran (b : BitVec 16) (i : Nat) : BitVec 16 :=
      let n := (new.filter fun o => o / 8 = i).length
      if n = 0 then b else setBit16 b i (bit16 h.poison i || (bit16 b i && decide (n < 8)))
    (s, { l with data := new.foldl (fun d o => d.set o (h.data.getD o 0)) l.data, stale := l.stale.filter l.mask.contains
                 poison := (List.range 16).foldl gran l.poison })

/-- Read fill: a carrier answers and keeps a copy in S, else the home does (R234). -/
def l1Fill (p line : Nat) (s : State) : L1Ans :=
  if l1Has s p line then .done s
  else match carrierOf s line with
    | some q =>
      if mute s q line then .silent
      else
        let (s, l) := passLine line ((s.core q).l1.get line) s
        .done (l1Put p line { l with st := .S, mask := [], owners := [] } (s.onL1 q line fun l => { l with st := .S }))
    | none =>
      match tierBegin line false false s with
      | some s => .wait s
      | none =>
        let (s, l) := lineAtHome line s
        .done (l1Put p line { l with st := if (holdersOf s line).isEmpty then .E else .S } s)

/-- Ownership: copies elsewhere are invalidated, a carrier sends its data and its byte mask (R234). -/
def l1Own (p line : Nat) (s : State) : L1Ans :=
  let here := (s.core p).l1.get line
  let others (s : State) : State := (holdersOf s line).foldl (fun s r => if r = p then s else l1Drop r line s) s
  if !here.data.isEmpty && here.st != .S then .done s
  else match carrierOf s line with
    | some q =>
      if q != p && mute s q line then .silent
      else
        let (s, l) := if q = p then (s, here) else passLine line ((s.core q).l1.get line) s
        .done (l1Put p line { l with st := if l.mask.isEmpty then .E else .M } (others s))
    | none =>
      if !here.data.isEmpty then .done (l1Put p line { here with st := .E } (others s))
      else match tierBegin line false false s with
        | some s => .wait s
        | none =>
          let (s, l) := lineAtHome line s
          .done (l1Put p line { l with st := .E } (others s))

/-- For an uncached request or a far atomic the carrier sends its bytes to the home; a far atomic also
invalidates every copy (R227 R233). The request can then be performed at the slice, or waits there; `wr` and `full`: as
tierBegin. -/
def l1Recall (line : Nat) (inval wr full : Bool) (s : State) : L1Ans :=
  let drop (s : State) : State := if inval then (holdersOf s line).foldl (fun s r => l1Drop r line s) s else s
  let at_ (s : State) : L1Ans := match tierBegin line wr full s with | some s => .wait s | none => .done s
  match carrierOf s line with
  | some q => if mute s q line then .silent
    else
      let s := l1WriteBack q line s
      at_ (if inval then drop s else setOwned line (s.onL1 q line fun l => { l with st := .S }))
  | none => at_ (drop s)

/-- Write bytes into an owned line: a granule that is poisoned and partly covered drops its bytes, and every
group recorded for the entry is marked failed (R208 R209). -/
def l1Write (p line : Nat) (bs : List (Nat × Byte)) (owners : List (Nat × Nat × Nat)) (s : State) : State :=
  let l := (s.core p).l1.get line
  let bad (i : Nat) : Bool := bit16 l.poison i && decide ((inGran bs 8 i).length < 8) && !(inGran bs 8 i).isEmpty
  let drop := (List.range 16).filter bad
  let ok := bs.filter fun (o, _) => !drop.contains (o / 8)
  let clear := (List.range 16).filter fun i => (inGran bs 8 i).length = 8
  let upd (l : L1Line) : L1Line :=
    { l with st := .M, data := ok.foldl (fun d (o, b) => d.set o b) l.data
             mask := ok.foldl (fun m (o, _) => if m.contains o then m else m ++ [o]) l.mask
             stale := l.stale.filter fun o => !(ok.any fun x => x.1 = o)
             poison := clear.foldl (fun b i => setBit16 b i false) l.poison
             owners := l.owners ++ owners.filter fun x => !l.owners.contains x }
  let s := setOwned line (s.onL1 p line upd)
  if drop.isEmpty then s
  else markFailed owners stPoison (errAdd (coreRec s p clTier sevContained) s)

/-- Bytes of a core load from its L1: bulk-written bytes may be old or new (R239). Poison of what it reads. -/
def l1Bytes (p line off n : Nat) (s : State) : List Byte × Bool × State :=
  let l := (s.core p).l1.get line
  let st := (List.range n).filter fun i => l.stale.contains (off + i)
  let new (i : Nat) : Bool := st.contains i && (Config.freeByte (s.freeN + i)).getLsbD 0
  let b (i : Nat) : Byte := if new i then s.mem.get (line + off + i) else l.data.getD (off + i) 0
  let po (i : Nat) : Bool := if new i then poisonAt s (line + off + i) else bit16 l.poison ((off + i) / 8)
  ((List.range n).map b, (List.range n).any po, if st.isEmpty then s else s.onFreeN (· + n))

/-! ### The store buffer (R220 R221) -/

/-- Context and generation that a byte of an entry was stored under (R265). -/
def SbEntry.tagAt (e : SbEntry) (o : Nat) : Nat × BitVec 8 := (e.tag.get o).getD (e.ctx, e.gen)
def addNew {α : Type} [DecidableEq α] (l m : List α) : List α := l ++ m.filter fun x => !l.contains x

/-- A store merges into an entry; each byte keeps the context and generation it was stored under. -/
def SbEntry.merge (y e : SbEntry) : SbEntry :=
  let t := if (e.ctx, e.gen) = (y.ctx, y.gen) then none else some (e.ctx, e.gen)
  { y with
    bytes := e.mask.foldl (fun b o => b.put o (e.bytes.get o)) y.bytes, mask := addNew y.mask e.mask
    tag := e.mask.foldl (fun b o => b.put o t) y.tag
    owners := addNew y.owners e.owners, thr := addNew y.thr e.thr, org := addNew y.org e.org }

/-- The youngest entry takes a store to its line, unless one of the two is a CTRL store (R220). -/
def sbMerges (s : State) (p line : Nat) (rg : Region) : Bool :=
  match (s.core p).sb.getLast? with
  | some y => y.line = line && y.region != .ctrl && rg != .ctrl
  | none => false

/-- A store enters the buffer: it merges into the youngest entry, else it takes a new one. -/
def sbPush (p : Nat) (e : SbEntry) (s : State) : State :=
  let m := sbMerges s p e.line e.region
  s.onCore p fun c =>
    match c.sb.getLast? with
    | some y => if m then { c with sb := c.sb.dropLast ++ [y.merge e] } else { c with sb := c.sb ++ [e] }
    | none => { c with sb := c.sb ++ [e] }

/-- The byte a core's loads see in its store buffer: the youngest entry that holds it. -/
def sbByte (s : State) (p pa : Nat) : Option Byte :=
  match (s.core p).sb.reverse.find? fun e => e.line = lineOf pa && e.mask.contains (pa % 128) with
  | some e => some (e.bytes.get (pa % 128))
  | none => none

/-- Written bytes of an entry, ascending. -/
def SbEntry.cellsOf (e : SbEntry) : List (Nat × Byte) :=
  ((List.range 128).filter e.mask.contains).map fun o => (o, e.bytes.get o)

/-- What a context and generation stored, and whose stores those were. -/
def SbEntry.tags (e : SbEntry) : List (Nat × BitVec 8) := (e.mask.map e.tagAt).foldl (fun l x => if l.contains x then l else l ++ [x]) []
def SbEntry.orgOf (e : SbEntry) (t : Nat × BitVec 8) : List SbOrg := e.org.filter fun x => (x.ctx, x.gen) = t
def ownersOf (os : List SbOrg) : List (Nat × Nat × Nat) := os.foldl (fun l x => if l.contains x.own then l else l ++ [x.own]) []
/-- The entry with the bytes alone that some contexts and generations stored. -/
def SbEntry.only (e : SbEntry) (ts : List (Nat × BitVec 8)) : SbEntry :=
  let org := e.org.filter fun x => ts.contains (x.ctx, x.gen)
  { e with mask := e.mask.filter fun o => ts.contains (e.tagAt o), org := org, owners := ownersOf org }

/-- The posted writes of a HOSTW entry, each as its written (address, byte) pairs: ascending maximal runs in
which every doubleword strictly inside is wholly written (R232). -/
def hostRuns (e : SbEntry) : List (List (Nat × Byte)) :=
  let whole (d : Nat) : Bool := (List.range 4).all fun i => e.mask.contains (4 * d + i)
  let joins (first x : Nat) : Bool :=
    (List.range 32).all fun d => !(decide (first / 4 < d) && decide (d < x / 4)) || whole d
  let step (acc : List (Nat × List (Nat × Byte))) (x : Nat × Byte) : List (Nat × List (Nat × Byte)) :=
    match acc with
    | (first, l) :: t => if joins first x.1 then (first, l ++ [(e.line + x.1, x.2)]) :: t else (x.1, [(e.line + x.1, x.2)]) :: acc
    | [] => [(x.1, [(e.line + x.1, x.2)])]
  ((e.cellsOf.foldl step []).reverse).map (·.2)

end Sys2Proof.Machine
end

