-- ==== Sys2Proof/Machine/CtxOps.lean ====
section
/-! DEFINITION. Packets, queues and contexts as shared operations: how packets end, cancellation, context
reset and its snapshot, generations (R268, R292, R303 to R305, R390, R429). -/
namespace Sys2Proof.Machine

/-! ### Packets (R302 R303) -/

/-- Items of a packet that ended with a status. Item statuses are listed plus 1; items not listed have
status `rest`. -/
def Pkt.count (p : Pkt) (st : Nat) : Nat :=
  (p.itemSt.filter fun (_, v) => v = st + 1).length + (if p.rest = st then p.items - p.itemSt.length else 0)
def Pkt.failed (p : Pkt) : Nat := ((List.range 11).map fun i => p.count (i + 1)).sum
/-- R303: OK, the common status of all items, or PARTIAL. -/
def Pkt.common (p : Pkt) : Nat :=
  if p.failed = 0 then stOk
  else match ((List.range 11).map (· + 1)).find? fun st => p.count st = p.items with
    | some st => st
    | none => stPartial
/-- An item is finished. -/
def Pkt.setItem (p : Pkt) (n st : Nat) : Pkt := { p with itemSt := p.itemSt.put n (st + 1) }
def Pkt.itemDone (p : Pkt) (n : Nat) : Bool := p.itemSt.get n != 0
/-- Every item is finished. -/
def Pkt.allDone (p : Pkt) : Bool := decide (p.items ≤ p.itemSt.length)

/-- A started packet stops: its unfinished items get a status (R305 R388). -/
def Pkt.stopWith (st now : Nat) (p : Pkt) : Pkt :=
  if p.st = .running then
    let p := { p with st := .done, rest := st, tsc := BitVec.ofNat 64 now, pins := [], runs := 0 }
    { p with status := if st = stCancelled then stCancelled else p.common }
  else p

/-- Entries read and finished: every packet of the entry has completed, be its record held, and its list is read (R289). -/
def Queue.finished (q : Queue) : Word :=
  match q.pkts.find? (·.st != .done) with
  | some p => BitVec.ofNat 32 p.ent
  | none => if q.listOn then q.ent - 1 else q.ent

/-- Runs of stopped packets leave the run store. -/
def freeRuns (eng : Nat) (l : List Pkt) (s : State) : State :=
  s.onEngine eng fun e => { e with runsUsed := e.runsUsed - (l.map (·.runs)).sum }

/-- A link engine keeps at most 16,384 requests outstanding; the oldest of those that wait leave as answers arrive
(R348). A request's timeout runs from its first transmission (R350). -/
def linkMax : Nat := 16384
def reqRelease (e : Nat) : Nat → State → State
  | 0, s => s
  | fuel + 1, s =>
    if linkMax ≤ (s.engines.get e).outReq then s
    else match s.fab.reqs.find? fun r => r.held && (match r.queue with | some k => k / 1024 = e | none => false) with
      | none => s
      | some r =>
        let go (x : Rreq) : Rreq := if x = r then { x with held := false, deadline := s.now + x.deadline } else x
        let s := (s.onFab fun f => { f with reqs := f.reqs.map go }).onEngine e fun x => { x with outReq := x.outReq + 1 }
        reqRelease e fuel (fabSend r.pkt s)

/-- Requests of a queue that are outstanding on the fabric are forgotten. -/
def dropReqs (qk : Nat) (s : State) : State :=
  let mine := s.fab.reqs.filter fun r => r.queue = some qk
  if mine.isEmpty then s
  else
    let s := (s.onFab fun f => { f with reqs := f.reqs.filter fun r => r.queue != some qk }).onEngine (qk / 1024)
      fun e => { e with outReq := e.outReq - (mine.filter (!·.held)).length }
    reqRelease (qk / 1024) s.fab.reqs.length s

/-- Every started packet of a queue stops with a status for its unfinished items; LAUNCH items take the
statuses of their groups. -/
def stopPkts (qk st : Nat) (s : State) : State :=
  let q := s.queue qk
  let run := q.pkts.filter (·.st = .running)
  let fin (p : Pkt) : Pkt := if p.op = 0x10 && p.st = .running then { p with itemSt := (s.launches.get p.launch).gst } else p
  let s := dropReqs qk (freeRuns (qk / 1024) run s)
  let s := s.onQueue qk fun q => { q with pkts := q.pkts.map fun p => (fin p).stopWith st s.now }
  run.foldl (fun s p => if p.op = 0x10 then s.onLaunch p.launch fun l => { l with live := false } else s) s

/-- No decision is awaited on the queue's stream any more (R427). -/
def dropQueueStalls (qk : Nat) (s : State) : State := s.onXl fun y => { y with stalls := y.stalls.filter (·.stream != 4096 + qk) }

/-- Cancel a queue in a context reset: started packets complete CANCELLED_RESET, the rest is discarded, the head is set to the
tail, and the queue, not pending any more, gives up its slot (R305 R321). -/
def queueCancel (qk : Nat) (s : State) : State :=
  let s := stopPkts qk stCancelled s
  (freeRuns (qk / 1024) (s.queue qk).pkts (dropQueueStalls qk s)).onQueue qk fun q =>
    { q with listOn := false, ent := q.tail, head := q.tail, resident := false, pendAt := none, crowd := false, stalled := false, stallWhy := 0, rwait := none, got := [], bad := []
             pkts := (q.pkts.filter (·.st = .done)).map fun p => { p with pins := [], runs := 0 } }

/-! ### Removing a context's work (R390 step 3) -/

/-- Keys of a context's groups. -/
def ctxGroups (s : State) (c : Nat) : List Nat :=
  (s.groups.filter fun (_, g) => g.stage != .empty && g.ctx = c).map (·.1)
def ctxQueues (s : State) (c : Nat) : List Nat :=
  (s.qs.filter fun (_, q) => q.live && q.ctx = c).map (·.1)

/-- One group is removed: its bins not yet sent are dropped (R126). -/
def removeGroup (k : Nat) (s : State) : State :=
  let g := s.group k
  let s := match s.phys g.lcore with
    | some p => if isHolder s p g.slot then s.onCore p fun c => { c with lm := {} } else s
    | none => s
  groupEnd k stCancelled s

def removeWork (c : Nat) (s : State) : State :=
  let s := forAll (ctxGroups s c) removeGroup s
  let s := forAll ((s.saved.filter (·.ctx = c)).map Group.ident) (fun id => savedEnd id stCancelled) s
  let s := forAll (ctxQueues s c) queueCancel s
  let s := s.onXl fun y => { y with stalls := y.stalls.filter (·.ctx != c) }
  let s := s.onRing (s.ctx c).fn .fault fun r => { r with held := r.held.filter (·.1 != c) }
  let ids := (s.fab.reqs.filter fun r => r.pkt.sctx = c).length
  let s := if ids = 0 then s else s.onFab fun f => { f with reqs := f.reqs.filter fun r => r.pkt.sctx != c || r.grp.isNone && r.queue.isNone }
  removeWaits c (abandonFences c (abandonCtrs c s))

/-- Every unit drops what it holds of a context: bytes in store buffers, requests on the fabric, stalls and fault records
that came up meanwhile (R264 R268). -/
def dropOld (c : Nat) (s : State) : State :=
  let sb (e : SbEntry) : SbEntry := e.only (e.tags.filter (·.1 != c))
  let s := s.onCores fun t => t.mapAll fun k => { k with sb := (k.sb.map sb).filter fun e => !e.mask.isEmpty }
  let s := s.onFab fun f => { f with reqs := f.reqs.filter fun r => r.pkt.sctx != c }
  let s := s.onXl fun y => { y with stalls := y.stalls.filter (·.ctx != c) }
  s.onRing (s.ctx c).fn .fault fun r => { r with held := r.held.filter (·.1 != c) }

/-- The generation rises once every unit has acknowledged that it drops the current value, which they do with it here; entries
of the old one are dropped from TLBs and walk caches (R257 R268; notes/assumptions/66.md). -/
def raiseGen (c : Nat) (s : State) : State :=
  let s := (dropOld c s).onCtx c fun x => { x with gen := x.gen + 1, inReset := false }
  s.onXl fun y => { y with micro := y.micro.mapAll (List.filter (·.ctx != c)), die := y.die.mapAll (List.filter (·.ctx != c))
                           wcache := y.wcache.mapAll (List.filter (·.ctx != c)) }

/-! ### The reset snapshot (R390 R429) -/

/-- One 4,160 B group section. -/
def groupSection (s : State) (g : Group) : List Byte :=
  leBytes 4 (s.launches.get g.launch).seq ++ leBytes 4 g.gid ++ leBytes 2 g.lcore ++ leBytes 1 g.slot ++ zeros 5 ++
  leBytes 4 (min g.lsSize 4096) ++ zeros 44 ++ padTo 4096 (readTbl g.ls 0 (min g.lsSize 4096))

/-- Insert a leaf in ascending virtual address. -/
def insLeaf (l : Leaf) : List Leaf → List Leaf
  | [] => [l]
  | x :: t => if l.va ≤ x.va then l :: x :: t else x :: insLeaf l t

/-- The context's pinned-tier pages (va, local address, bytes), ascending, cut to 16 MiB in all. -/
def pinnedRuns (s : State) (c : Nat) : List (Nat × Nat × Nat) :=
  let isPin (l : Leaf) : Bool := l.ctx = c && l.entry.toNat % 2 = 1 && bits l.entry.toNat 63 48 = s.devId &&
    (match zoneOf (bits l.entry.toNat 47 16 * 65536) with | .pinned _ => true | _ => false)
  let ls := (s.xl.leaves.filter isPin).foldr insLeaf []
  (ls.foldl (init := (([] : List (Nat × Nat × Nat)), 16 * 2 ^ 20)) fun (acc, room) l =>
    let n := min room (pageBytes l.size)
    if n = 0 then (acc, room) else (acc ++ [(l.va, bits l.entry.toNat 47 16 * 65536, n)], room - n)).1

/-- Bytes of a run; poisoned granules are written as zeros. -/
def runBytes (s : State) (a n : Nat) : List Byte := (List.range n).map fun i => if poisonAt s (a + i) then 0 else s.mem.get (a + i)

/-- As many runs as fit into `room`, the last one cut. -/
def fitRuns : Nat → List (Nat × Nat × Nat) → List (Nat × Nat × Nat)
  | _, [] => []
  | room, (va, a, n) :: t =>
    if room ≤ 16 then []
    else if 16 + n ≤ room then (va, a, n) :: fitRuns (room - 16 - n) t
    else [(va, a, room - 16)]

/-- The snapshot of a context for a buffer of `size` bytes. -/
def resetSnapshot (s : State) (c cause size : Nat) : List Byte :=
  let gs := (ctxGroups s c).map s.group
  let nG := min gs.length ((size - 64) / 4160)
  let all := pinnedRuns s c
  let runs := if nG < gs.length then [] else fitRuns (size - 64 - 4160 * nG) all
  let trunc := decide (nG < gs.length) || decide (runs ≠ all)
  let seen := runs.any fun (_, a, n) => (poisonOffs s a n) != []
  if size < 64 then []
  else
    leBytes 2 1 ++ leBytes 2 ((if trunc then 1 else 0) + (if seen then 2 else 0)) ++ leBytes 2 c ++ [(s.ctx c).gen] ++
    leBytes 1 cause ++ leBytes 8 s.now ++ leBytes 4 nG ++ leBytes 4 runs.length ++ zeros 40 ++
    (gs.take nG).flatMap (groupSection s) ++ runs.flatMap (fun (va, _, n) => leBytes 8 va ++ leBytes 8 n) ++
    runs.flatMap fun (_, a, n) => runBytes s a n

/-! ### Context reset (R390) -/

/-- A snapshot that would be held finds no room in the held-record buffer: the reset waits (R376). -/
def snapWaits (s : State) (c cause : Nat) (buf : Option (Nat × Nat)) : Bool :=
  match buf with
  | none => false
  | some (_, n) => s.ctxHeld (s.ctx c).fn c && decide (heldCap < heldBytes s + (resetSnapshot s c cause n).length)

/-- A stand-in swap is moving a group of the context: every group of its logical core is saved, and the ID has not moved. -/
def swapMoves (s : State) (c : Nat) : Bool :=
  s.saved.any fun g => g.ctx = c && (match s.mesh.swaps.get g.lcore with
    | some (_, true, _) => ((s.groups.filter fun (_, x) => x.stage != .empty && x.lcore = g.lcore).all fun (_, x) => x.stage = .starting)
    | _ => false)
/-- A reset waits: for the identity move of a swap that moves one of the groups (R390 step 1), or for room for its snapshot. -/
def resetWaits (s : State) (c cause : Nat) (buf : Option (Nat × Nat)) : Bool := swapMoves s c || snapWaits s c cause buf

/-- Steps 1 to 3 of a reset; GENERATION_RAISE ends it. `buf`: the snapshot buffer; a context that is orphaned
holds its snapshot. `req`: the request to answer. -/
def ctxReset (c cause : Nat) (buf : Option (Nat × Nat)) (req : Option Hdr) (s : State) : State :=
  let (s, n) := match buf with
    | none => (s, 0)
    | some (a, size) =>
      let b := resetSnapshot s c cause size
      if s.ctxHeld (s.ctx c).fn c then (s.onCtx c fun x => { x with snapHeld := b }, b.length)
      else (s.hostWr a b, b.length)
  let s := removeWork c s
  s.onCtx c fun x => { x with inReset := true, resetReq := req.map fun h => (h, n) }

/-- Steps 4 and 5: generation and response. -/
def ctxResetEnd (c : Nat) (s : State) : State :=
  let x := s.ctx c
  let s := (raiseGen c s).onCtx c fun x => { x with resetReq := none }
  match x.resetReq with
  | none => s
  | some (h, n) => pmiAnswer { h with gen := x.gen } 0x0003 pOk ((s.ctx c).gen.toNat + 2 ^ 32 * n) [] s

/-! ### Engines (R391 R388) -/

/-- Groups that a test selects end with a status, resident and saved. -/
def failGroups (sel : Group → Bool) (st : Nat) (s : State) : State :=
  let s := forAll ((s.groups.filter fun (_, g) => g.stage != .empty && sel g).map (·.1)) (fun k => groupEnd k st) s
  forAll ((s.saved.filter sel).map Group.ident) (fun id => savedEnd id st) s

/-- The kernel engine takes every core's bins and clip counts that are for one of these launches (R125 R126). -/
def lmMergeAll (ls : List Nat) (s : State) : State :=
  forAll ((s.cores.filter fun (_, c) => c.lmSent.any (ls.contains ·.1) || c.clipPend.any (ls.contains ·.1)).map (·.1)) (fun p s =>
    (s.core p).clipPend.foldl (fun s _ => clipAdd p s) ((s.core p).lmSent.foldl (fun s _ => lmMerge p s) s)) s

/-- A queue's started packets complete FAILED_FAULT for their unfinished items, which for a LAUNCH are
groups; its record has the bins of every store they performed (R126). -/
def queueFault (qk : Nat) (s : State) : State :=
  let ls := ((s.queue qk).pkts.filter fun p => p.op = 0x10 && p.st = .running).map (·.launch)
  stopPkts qk stFault (lmMergeAll ls (failGroups (fun g => ls.contains g.launch) stFault s))
def engineQueues (s : State) (e : Nat) : List Nat := (s.qs.filter fun (k, q) => q.live && k / 1024 = e).map (·.1)
def engineFail (e : Nat) (s : State) : State := forAll (engineQueues s e) queueFault s

end Sys2Proof.Machine
end

