-- ==== Sys2Proof/Machine/SpareOps.lean ====
section
/-! DEFINITION. Cores, stand-ins and dies that fail, as shared operations (R152, R297, R383, R384, R388,
R392). -/
namespace Sys2Proof.Machine

/-! ### A group's first state (R152 R297) -/

def groupInit (l : Launch) (key gid lcore slot : Nat) : Group :=
  let u : Tbl Word := [(0, BitVec.ofNat 32 l.args), (1, BitVec.ofNat 32 (l.args / 2 ^ 32)), (2, BitVec.ofNat 32 gid),
    (3, BitVec.ofNat 32 l.groups), (4, BitVec.ofNat 32 lcore)]
  let th (i : Nat) : Thread := { pc := l.entry, v := (Tbl.put [] 0 (BitVec.ofNat 32 i) : Tbl Word) }
  { stage := .running, lcore := lcore, slot := slot, ctx := l.ctx, gen := l.gen, launch := key, gid := gid,
    vregs := l.vregs, lsSize := l.lsSize
    u := u.foldl (fun t x => t.put x.1 x.2) [], th := (List.range 32).foldl (fun t i => t.put i (th i)) [] }

/-! ### Quads (R29 R40) -/

/-- Voltage of a quad that ramps down at 10 mV/us, in steps of 5 mV. -/
def rampMv (x : Quad) (now : Nat) : Nat := max 450 (x.mv - 5 * ((now - x.rampAt) / 500))

/-- The quad of a core has been brought to an operating voltage (R40): one still at or above 0.55 V ran on at its present
voltage, another took the wake path to 0.55 V, recorded invalidations were applied, and a lent budget stays lent until its
borrowers return it. -/
def quadOn (p : Nat) (s : State) : State :=
  let k := quadKey p
  let x := s.pwr.quads.get k
  match x.mode with
  | .operating => s
  | .dropping => s.onQuad k fun x => { x with mode := .operating }
  | .ramping => applyInval k (s.onQuad k fun x => { x with mode := .operating, mv := max 550 (rampMv x s.now) })
  | .off | .retention | .waking => applyInval k (s.onQuad k fun x => { x with mode := .operating, mv := 550 })

/-! ### Stand-ins (R382 to R385) -/

/-- Physical cores chosen for a swap in progress. -/
def chosen (s : State) : List Nat := s.mesh.swaps.filterMap fun (_, x) => x.map (·.1)
/-- Free stand-ins of a die, ascending. -/
def freeStandins (s : State) (d : Nat) : List Nat :=
  ((List.range 144).map (144 * d + ·)).filter fun p =>
    (logOf s.mesh p).isNone && !(s.core p).fenced && !(s.core p).testing && !(chosen s).contains p

/-- Physical cores of a die that stand behind no logical ID and are not fenced. -/
def standinsLeft (s : State) (d : Nat) : Bool := (List.range 144).any fun i => (logOf s.mesh (144 * d + i)).isNone && !(s.core (144 * d + i)).fenced
/-- A change that takes the die's last stand-in records that its pool is exhausted (R382). -/
def poolWatch (d : Nat) (f : State → State) (s : State) : State :=
  let t := f s
  if standinsLeft s d && !standinsLeft t d then poolRec d d t else t

/-- The stand-in with the smallest largest hop distance, the lower number among equals (R384). -/
def nearest (s : State) (c : Nat) : List Nat → Option Nat
  | [] => none
  | p :: t => match nearest s c t with
    | none => some p
    | some q => if worstHop s.mesh c p ≤ worstHop s.mesh c q then some p else some q

/-- Step 1 of a swap: a planned swap uses only a stand-in that keeps R21, a forced one any. -/
def chooseStandin (s : State) (c : Nat) (forced : Bool) : Option Nat :=
  let fr := freeStandins s (lDie c)
  match fr.find? (keepsR21 s.mesh c) with
  | some p => some p
  | none => if forced then nearest s c fr else none

/-- Reasons a swap runs: rotation, requested self-test, a core fault. -/
def whyRotation : Nat := 0
def whyTest : Nat := 1
def whyFault : Nat := 2

/-- A swap of a logical core begins: the stand-in is chosen and its entry check runs. -/
def swapStart (c p why : Nat) (s : State) : State :=
  s.onMesh fun m => { m with swaps := m.swaps.put c (some (p, false, why)) }

def coreGroups (s : State) (c : Nat) : List Nat :=
  (List.range 48).filterMap fun i => if (s.group (gKey c i)).stage != .empty then some (gKey c i) else none

/-- The map changes: its sequence number rises by one (R22). -/
def mapSet (c : Nat) (p : Option Nat) (s : State) : State :=
  s.onMesh fun m => { m with map := m.map.put c (some (match p with | some p => p + 1 | none => 0)), seq := m.seq + 1 }

/-- A group runs again from its replay point, or from its start (R389). -/
def replayOf (s : State) (g : Group) : Group :=
  let g0 := groupInit (s.launches.get g.launch) g.launch g.gid g.lcore g.slot
  match g.replay with
  | none => { g0 with started := g.started, replayed := true, failed := g.failed }
  | some r =>
    { g0 with th := r.th, u := r.u, ls := r.ls, started := g.started, replayed := true, failed := g.failed, replay := g.replay, ckptAt := g.ckptAt
              arr := if r.acc0.isEmpty && r.acc1.isEmpty then none else some { acc0 := r.acc0, acc1 := r.acc1 } }

/-- A group of a core whose state is lost: a REPLAY_SAFE one waits to run again, another fails (R388). -/
def loseGroup (k : Nat) (s0 : State) : State :=
  let s := s0
  let g := s.group k
  if (s.launches.get g.launch).safe then
    let r := replayOf s g
    let s := slotAdd g (dropRsvs k (removeGroupWaits g.ident s))
    roomWaits s0 (s.onGroups fun t => t.put k {}) |>.onSaved fun l => l ++ [{ r with savedAt := s.now }]
  else groupEnd k stFault s

/-- No stand-in is left for a logical core: it has no physical core from now on, its groups fail, and a DEGRADED record
is written (R383). -/
def noStandin (c p : Nat) (s : State) : State :=
  let s := s.onMesh fun m => { m with swaps := m.swaps.put c none }
  let s := failGroups (fun g => g.lcore = c) stFault (mapSet c none s)
  errAdd { (plowinRec s clSpare sevDegraded) with unit := p, logical := c, die := pDie p } s

/-- A core fault: the core is fenced; with intact state its groups are saved at once and its L1 is written
back, else they re-run or fail, its bins sent (R125 R126); a stand-in is chosen, or without one the ID loses its core, groups that
cannot resume fail, and a DEGRADED record is written (R383 R388). -/
def coreFault (p : Nat) (lost : Bool) (s : State) : State :=
  if (s.core p).fenced then s
  else
    let s := poolWatch (pDie p) (fun s => s.onCore p fun c => { c with fenced := true }) s
    match logOf s.mesh p with
    | none => s
    | some c =>
      let s := if lost then
          forAll (coreGroups s c) loseGroup ((lmSend p s).onCore p fun x => { x.noArray with sb := [] })
        else forAll (coreGroups s c) (fun k => saveGroup k none) (l1Invalidate p (l1Flush p s))
      match chooseStandin s c true with
      | some q => swapStart c q whyFault s
      | none => noStandin c p s

/-! ### Dies (R236 R392) -/

/-- Every item with work on the die completes FAILED_FAULT: its groups, saved ones too, and its engines'
started packets. -/
def dieFail (d : Nat) (s : State) : State :=
  let s := failGroups (fun g => lDie g.lcore = d) stFault s
  engineFail (8 + 2 * d + 1) (engineFail (8 + 2 * d) (engineFail d s))

/-- The coherent domain stops; lines that an L1 owns are marked poisoned at the restart (R236). -/
def domainStop (d : Nat) (s : State) : State :=
  dieFail d (s.onDom d fun x => { x with stopped := true })

/-- I/O dies at the die's sites. -/
def diesIo (s : State) (d : Nat) : List Nat := (List.range (nIo s.variant)).filter fun x => ioOwner s.variant x = d

/-- A PCIe link goes down: its traffic fails over to the other port when that is up (R360 R361). Posted writes are
performed as they are sent, so sending one again, with the same bytes, changes nothing. -/
def pcieDown (p : Nat) (s : State) : State :=
  let o := 1 - p
  if !(s.pcie.get p).up then s
  else
    let s := s.onPci p fun x => { x with up := false, downAt := some s.now, linkDown := x.linkDown.raise, serving := false }
    if (s.pcie.get o).up then
      let s := s.onPci o fun x => { x with failover := x.failover.raise, serving := true }
      errAdd { source := srcPcie p, cls := clPcie, sev := sevDegraded, unit := p, die := 0x10 + p } s
    else s

/-- A die that failed its restart twice is fenced (R392). DESIGN CHOICE (notes/assumptions/60.md): its logical IDs keep
their physical cores in the core map, whose sequence number stays: R22 names a fence of a core, not of a die. -/
def dieFence (d : Nat) (s : State) : State :=
  let s := s.onDom d fun x => { x with fenced := true, stopped := false }
  let s := forAll ((List.range 144).map (144 * d + ·)) (fun p s => s.onCore p fun c => { c with fenced := true }) s
  let s := dieFail d s
  let s := forAll (diesIo s d) (fun x s =>
    let s := engineFail (24 + x) (s.onIo x fun i => { i with out := true })
    let s := s.onEngine (24 + x) fun e => { e with out := true }
    forAll ((List.range 8).map (8 * x + ·)) (fun p s => s.onPort p fun t => { t with st := .down, lanes := 0, replay := [], rx := [], downF := if t.st = .down then t.downF else t.downF.raise }) s) s
  let s := forAll [d, 8 + 2 * d, 8 + 2 * d + 1] (fun e s => s.onEngine e fun x => { x with out := true }) s
  -- waits on the die's counters
  let mine (w : Wait) : Bool := !w.fence && ctrDie w.id = d
  let s := (s.sync.waits.filter mine).foldl (fun s w => release w rAbandoned (s.sync.ctrs.get w.id).value s) s
  let s := (s.sync.queued.filter mine).foldl (fun s w => releaseLanes w (lanesOf w.lanes) rAbandoned 0 (s.onSync fun y => { y with queued := y.queued.erase w })) s
  let s := if d < 2 then pcieDown d s else s
  errAdd { (plowinRec s clDie sevDegraded) with die := d, unit := d } s

end Sys2Proof.Machine
end

