-- ==== Sys2Proof/Machine/PwrOps.lean ====
section
/-! DEFINITION. Islands off, FATAL and the warm restart as shared operations (R396 R397 R410 R414 R418). -/
namespace Sys2Proof.Machine

/-- What of a core outlives a reset of its island: its spares, re-applied in step 5b, and its fence. -/
def Core.kept (c : Core) : Core :=
  { spareRow := c.spareRow, spareCol := c.spareCol, fenced := c.fenced, fencedByTest := c.fencedByTest, lastPass := c.lastPass }
/-- Of a slice: remaps and withdrawal, re-applied in step 5b (R212 R215). -/
def Slice.kept (x : Slice) : Slice := { segs := x.segs, withdrawn := x.withdrawn }
/-- Of a stack: retired and withdrawn frames (R213 R215). -/
def Stack.kept (x : Stack) : Stack := { retired := x.retired, frames := x.frames, withdrawn := x.withdrawn }
/-- Of a context ID: its generation, past that of a context that existed (R268). -/
def Ctx.kept (x : Ctx) : Ctx := { gen := if x.live then x.gen + 1 else x.gen }

/-- Every island but the management domain is reset or off: no context, work, translation, counter, link or
content of HBM and tier survives, but that of the dump's region where `keep`; the management domain's registers and device time
do (R396 R414 R418). -/
def islandsReset (keep : Bool) (s : State) : State :=
  { s with
    pwr := { s.pwr with islands := false, quads := [], gov := [], newCaps := [] }
    mesh := { s.mesh with swaps := [] }
    cores := s.cores.mapAll Core.kept
    groups := [], saved := []
    mem := s.mem.filter fun x => decide (hostBase ≤ x.1) || keep && decide (dumpBase s ≤ x.1) && decide (x.1 < dumpBase s + dumpLen)
    tier := { slices := s.tier.slices.mapAll Slice.kept, hbms := s.tier.hbms.mapAll Stack.kept }
    xl := {}, sync := {}, qs := [], engines := [], launches := []
    ctxs := s.ctxs.mapAll Ctx.kept
    fns := s.fns.mapAll fun f => { f with msixT := [], pba := [], vf := false, mail := [], beat := none, orphan := false }
    fab := { devId := s.pwr.straps, timeout := 0x32 }
    pcie := []
    tsc := { s.tsc with aligned := false, pps := false, hops := 0xFF, master := 0, slew := 0 }
    mgmt := { s.mgmt with ready := false, tests := [], ucDies := [], ucReq := none, groupsG := [], newGroupsG := none } }

/-- Step 4: every island is at its operating voltage, core quads at 0.55 V (R410). -/
def islandsUp (s : State) : State :=
  s.onPwr fun p =>
    { p with state := .starting, steps := 4, islands := true, quads := (List.range 288).foldl (fun t k => t.put k { mode := .operating, mv := 550 }) [] }

/-- A warm restart: the islands are reset and steps 4 to 7 of the power-up sequence follow (R396 R411). -/
def warmRestart (s : State) : State :=
  if s.pwr.state = .fatal then (islandsUp (islandsReset true s)).onPwr fun p => { p with afterStop := true } else s

/-- An unreleased dump is copied to the buffer that ERR_DUMP_CTL names while a host is present (R397). -/
def dumpStart (s : State) : State :=
  let host := (s.pcie.get 0).up || (s.pcie.get 1).up
  s.onErr fun e => if s.pwr.state = .fatal && e.valid && !e.copied && e.dumpAddr != 0 && host then { e with copying := true } else e

/-- The wrap dump is written to its region; the spec gives it no layout. -/
def dumpWrite (s : State) : State :=
  (s.wr (dumpBase s) ((List.range dumpLen).map fun i => Config.freeByte (s.freeN + i))).onFreeN (· + dumpLen)

/-- The device is FATAL: FAULT_N, engines and cores stop, the record, and the wrap dump unless an unreleased
one exists (R396 R397). -/
def fatalEnter (r : ErrRec) (s : State) : State :=
  let seq := s.err.seq
  let s := errAdd { r with sev := sevFatal } (s.onPwr fun p => { p with state := .fatal, faultN := true })
  if s.err.valid then s
  else dumpStart ((dumpWrite s).onErr fun e => { e with valid := true, copied := false, copying := false, dumpSeq := BitVec.ofNat 32 seq })

/-- Power is taken from the islands by a protection stop or a planned power-down; the dump region with them. -/
def powerOff (st : ModSt) (s : State) : State :=
  (islandsReset false s).onPwr (fun p => { p with state := st, sw := false, steps := 2, afterStop := p.afterStop || st = .protect }) |>.onErr
    fun e => { e with valid := false, copying := false, copied := false }

end Sys2Proof.Machine
end

