-- ==== Sys2Proof/Machine/FabOps.lean ====
section
/-! DEFINITION. Fabric ports, routing and time as shared operations (R339, R346, R347, R355). -/
namespace Sys2Proof.Machine

def State.port (s : State) (p : Nat) : FPort := s.fab.ports.get p
def FPort.isUp (t : FPort) : Bool := t.st = .up || t.st = .upDegraded

/-- What a device advertises as time master. -/
structure TMaster where
  pair : Nat := 0
  prio : Nat := 0
  id : Nat := 0
  hops : Nat := 0
  port : Nat := 0
  deriving DecidableEq, Repr, Inhabited

/-- Masters advertised on the UP ports, ascending port. -/
def tCandidates (s : State) : List TMaster :=
  (List.range (nPorts s.variant)).filterMap fun i =>
    let t := s.port i
    match t.tMaster with
    | some (p, m, h) => if t.isUp then some { pair := 65536 * p + m, prio := p, id := m, hops := h, port := i } else none
    | none => none

/-- The lowest pair, then the fewest hops, then the lowest port. -/
def tBest : List TMaster → Option TMaster
  | [] => none
  | x :: t => match tBest t with
    | none => some x
    | some y => if x.pair < y.pair || (x.pair = y.pair && decide (x.hops ≤ y.hops)) then some x else some y

/-- The device is the master of its domain. -/
def timeMaster (s : State) : State :=
  (s.onTsc fun t => { t with hops := 0, master := s.fab.devId, aligned := true, pps := t.pps && s.fab.ppsEn }).onFab fun f => { f with parent := none }
/-- The device's own pair. -/
def ownPair (s : State) : Nat := 65536 * s.fab.prio.toNat + s.devId
/-- The best master known: the lowest pair that is advertised, if it is lower than the device's own. -/
def bestMaster (s : State) : Option TMaster := (tBest (tCandidates s)).filter fun b => decide (b.pair < ownPair s)
/-- The port with the fewest hops to a master among those that may be parents (R355). -/
def tParent (s : State) (b : TMaster) : Option TMaster := tBest ((tCandidates s).filter fun x => x.pair = b.pair && (s.port x.port).tparent)
/-- The election (R355): master and parent port. A device without an UP port is in no time domain; one that knows a better
master but has no port that may be its parent runs free. -/
def timeElect (s : State) : State :=
  let anyUp := (List.range (nPorts s.variant)).any fun i => (s.port i).isUp
  if !anyUp then
    (s.onTsc fun t => { t with hops := 0xFF, aligned := false, pps := false, master := 0 }).onFab fun f => { f with parent := none }
  else match bestMaster s with
    | none => timeMaster s
    | some b => match tParent s b with
      | none => (s.onTsc fun t => { t with hops := 0xFF, master := BitVec.ofNat 16 b.id, aligned := false, pps := false }).onFab fun f => { f with parent := none }
      | some x =>
        let same := s.fab.parent = some x.port && s.tsc.master = BitVec.ofNat 16 x.id
        (s.onTsc fun t => { t with hops := BitVec.ofNat 8 (min (x.hops + 1) 0xFF), master := BitVec.ofNat 16 x.id, aligned := t.aligned && same, pps := false }).onFab
          fun f => { f with parent := some x.port }

/-- A port leaves service: its replay buffer is dropped and the devices elect again (R343 R355). -/
def portDown (i : Nat) (s : State) : State :=
  if (s.port i).st = .down then s
  else
    timeElect (s.onPort i fun t =>
      { t with st := .down, lanes := 0, spare := false, replay := [], rx := [], tMaster := none, moving := false, lossAt := none, failsN := 0, downF := t.downF.raise })

/-- A port trains. -/
def portTrain (i : Nat) (s : State) : State :=
  let x := s.fab.ios.get (i / 8)
  if (s.port i).enable && x.refclk && !x.out && s.pwr.islands then s.onPort i fun t => { t with st := .training, lanes := 0 } else s

/-- A port loses its link and retrains, keeping its replay buffer (R343). -/
def portRetrain (i : Nat) (s : State) : State :=
  timeElect (s.onPort i fun t => { t with st := .training, lossAt := some s.now, tMaster := none, moving := false, failsN := 0, retrained := t.retrained.raise })

/-- A dropped packet is counted; each I/O die writes at most one record per 1 ms (R347). -/
def routeDrop (x : Nat) (noRoute : Bool) (s : State) : State :=
  let io := s.fab.ios.get x
  let s := s.onIo x fun i => if noRoute then { i with noRoute := min (i.noRoute + 1) 0xFFFF } else { i with hopLim := min (i.hopLim + 1) 0xFFFF }
  let due := match io.dropRec with | none => true | some t => decide (t + 1000000 ≤ s.now)
  if due then errAdd { source := srcLeng x, cls := clFabric, sev := sevContained, unit := x, die := 0x10 + x } (s.onIo x fun i => { i with dropRec := some s.now })
  else s

/-- I/O die that takes a compute die's remote accesses (R347). -/
def ioFor (s : State) (d : Nat) : Nat :=
  (List.range (nIo s.variant)).foldl (init := 0) fun b x =>
    if dieLinks d (ioOwner s.variant x) < dieLinks d (ioOwner s.variant b) then x else b

end Sys2Proof.Machine
end

