-- ==== Sys2Proof/Machine/Regs.lean ====
section
/-! DEFINITION. The registers: where they lie (R421), what a read returns and what a write does (R11 to R14,
R402), and the actions of the writes that have one. -/
namespace Sys2Proof.Machine

/-- Every register of the control spaces. -/
inductive Reg where
  | retakeRuns (p : Nat) | retakeTests (p : Nat)
  | sliceStatus (k : Nat) | sliceEvents (k : Nat)
  | hbmStatus (h : Nat) | hbmEvents (h : Nat)
  | syncStatus (d : Nat) | syncEvents (d : Nat)
  | qdoor (k : Nat) | qstatus (k : Nat)
  | fabConfig | ppsTime | routeIndex (x : Nat) | routeData (x : Nat) | drops (x : Nat)
  | portCtl (i : Nat) | portStatus (i : Nat) | portEvents (i : Nat) | portLinkerr (i : Nat)
  | pcieCfg (p : Nat) | pcieEvents (p : Nat)
  | pmiReq (f : Nat) | pmiRsp (f : Nat) | pmiDoor (f : Nat) | pmiStatus (f : Nat)
  | pwrStatus | pwrEvents | tscTime | tscHi | tscStatus | fenceStatus
  | eringBase | eringHead | eringStatus | dumpCtl | dumpStatus
  | faultHead (f : Nat) | faultReplay (f : Nat) | faultStatus (f : Nat)
  deriving DecidableEq, Repr, Inhabited

/-- Registers of an engine's block (R317). -/
def engReg (s : State) (e o : Nat) : Option Reg :=
  if 0x80000 ≤ o && o < 0x88000 then
    let k := queueKey e ((o - 0x80000) / 0x20)
    if !(s.queue k).live then none
    else match o % 0x20 with | 0 => some (.qdoor k) | 8 => some (.qstatus k) | _ => none
  else none

/-- The register at an 8 B aligned offset of a compute die's control space. -/
def dieReg (s : State) (d o : Nat) : Option Reg :=
  if o < 0x90000 then
    match o % 0x1000 with
    | 0x180 => some (.retakeRuns (144 * d + o / 0x1000))
    | 0x188 => some (.retakeTests (144 * d + o / 0x1000))
    | _ => none
  else if 0x100000 ≤ o && o < 0x100400 then
    let k := 64 * d + (o - 0x100000) / 0x10
    if o % 0x10 = 0 then some (.sliceStatus k) else some (.sliceEvents k)
  else if 0x110000 ≤ o && o < 0x112000 then
    match (stacksOf s.variant d)[(o - 0x110000) / 0x1000]?, o % 0x1000 with
    | some h, 0 => some (.hbmStatus h)
    | some h, 8 => some (.hbmEvents h)
    | _, _ => none
  else if o = 0x120000 then some (.syncStatus d)
  else if o = 0x120008 then some (.syncEvents d)
  else if 0x200000 ≤ o && o < 0x300000 then engReg s d (o - 0x200000)
  else if 0x300000 ≤ o && o < 0x500000 then engReg s (8 + 2 * d + (o - 0x300000) / 0x100000) (o % 0x100000)
  else none

/-- Of an I/O die's control space. -/
def ioReg (s : State) (x o : Nat) : Option Reg :=
  if nIo s.variant ≤ x then none
  else if o < 0x100000 then engReg s (24 + x) o
  else if o < 0x101000 then
    let f := o - 0x100000
    if 0x100 ≤ f && f < 0x200 then
      let i := 8 * x + (f - 0x100) / 0x20
      match f % 0x20 with
      | 0 => some (.portCtl i) | 8 => some (.portStatus i) | 0x10 => some (.portEvents i) | 0x18 => some (.portLinkerr i)
      | _ => none
    else match f with
      | 0 => if x = 0 then some .fabConfig else none
      | 8 => some (.routeIndex x)
      | 0x10 => some (.routeData x)
      | 0x18 => if x = 0 then some .ppsTime else none
      | 0x20 => some (.drops x)
      | _ => none
  else if x < 2 && o = 0x110000 then some (.pcieCfg x)
  else if x < 2 && o = 0x110008 then some (.pcieEvents x)
  else none

/-- Of the management control space. -/
def mgmtReg (o : Nat) : Option Reg :=
  if 0x2000 ≤ o && o < 0x3000 then
    let f := (o - 0x2000) / 0x40
    match o % 0x40 with
    | 0 => some (.pmiReq f) | 8 => some (.pmiRsp f) | 0x10 => some (.pmiDoor f) | 0x18 => some (.pmiStatus f)
    | _ => none
  else if 0x41000 ≤ o && o < 0x41800 then
    let f := (o - 0x41000) / 0x20
    match o % 0x20 with
    | 0 => some (.faultHead f) | 8 => some (.faultReplay f) | 0x10 => some (.faultStatus f)
    | _ => none
  else match o with
    | 0x10000 => some .pwrStatus | 0x10008 => some .pwrEvents
    | 0x20000 => some .tscTime | 0x20008 => some .tscHi | 0x20010 => some .tscStatus
    | 0x30000 => some .fenceStatus
    | 0x40000 => some .eringBase | 0x40008 => some .eringHead | 0x40010 => some .eringStatus
    | 0x40018 => some .dumpCtl | 0x40020 => some .dumpStatus
    | _ => none

/-- The register at an 8 B aligned local physical address of a control space (R202 R421). -/
def regAt (s : State) (a : Nat) : Option Reg :=
  match zoneOf a with
  | .ctrlDie d => dieReg s d (a - ctrlDieBase d)
  | .ctrlIo x => ioReg s x (a - ctrlIoBase x)
  | .ctrlMgmt => mgmtReg (a - ctrlMgmtBase)
  | _ => none

/-- A function's own registers of its BAR0 (R363 R364): all others need BAR4, which the PF alone has. -/
def ownReg (s : State) (f : Nat) : Reg → Bool
  | .pmiReq g | .pmiRsp g | .pmiDoor g | .pmiStatus g | .faultHead g | .faultReplay g | .faultStatus g => g = f || f = 0
  | .tscTime | .tscHi => true
  | .qdoor k | .qstatus k => (s.queue k).fn = f || f = 0
  | _ => f = 0

/-! ### Reading -/

/-- A number with fields (value, lowest bit). -/
def fields (l : List (Nat × Nat)) : DWord := BitVec.ofNat 64 ((l.map fun (v, i) => v * 2 ^ i).sum)
/-- Four flags with their counts. -/
def flagsN (l : List Flag) : DWord :=
  fields ((List.range l.length).flatMap fun i => let f := l.getD i {}; [(if f.on then 1 else 0, i), (f.count.toNat, 8 + 8 * i)])

/-- Unused spare segments of the pair of slices 2m and 2m + 1 (R212). -/
def spareLeft (s : State) (k : Nat) : Nat :=
  let n (j : Nat) : Nat := (s.slice j).segs.length + (s.slice j).moving.toList.length
  32 - (n (k / 2 * 2) + n (k / 2 * 2 + 1))
/-- Quads whose budget is lent (R38). -/
def lentQuads (s : State) : Nat := (s.pwr.quads.filter fun (_, q) => q.lent).length

/-- No completion slot is free (R301). -/
def Queue.full (q : Queue) : Bool := decide (2 ^ q.c ≤ (q.ct - q.chead).toNat)
/-- Where a report of `n` bytes goes in the failure area: at the next position, or at the start where it would cross
the end; none while reports not yet returned lie there (R304). -/
def Queue.place (q : Queue) (n : Nat) : Option Nat :=
  let p := if 2 ^ q.f < q.fpos + n then 0 else q.fpos
  if q.fspans.any fun (_, a, m) => decide (a < p + n) && decide (p < a + m) then none else some p
/-- The failure area lacks space for the report that waits. -/
def Queue.lacks (q : Queue) : Bool := q.needF != 0 && (q.place q.needF).isNone
/-- Records of a queue are held: no slot, no room for a report, no host, or stalled (R301 R427). -/
def queueHeld (s : State) (k : Nat) : Bool :=
  let q := s.queue k
  q.lacks || q.full || q.stalled || s.ctxHeld q.fn q.ctx

/-- Who accesses a register: a host function or a physical core. -/
inductive Who where
  | fn (f : Nat)
  | core (p : Nat)
  deriving DecidableEq, Repr, Inhabited

/-- What a register reads. -/
def regVal (s : State) (w : Who) : Reg → DWord
  | .retakeRuns p => (s.core p).retakeRuns
  | .retakeTests p => (s.core p).retakeTests
  | .sliceStatus k => let x := s.slice k
    fields [(x.pinned.toNat, 0), (x.off.toNat, 16), (x.conv.toNat, 32), (spareLeft s k, 48), (x.victims.length, 54)]
  | .sliceEvents k => let x := s.slice k; flagsN [x.corrected, x.poisoned, x.remapped, x.refetched]
  | .hbmStatus h => let x := s.tier.hbms.get h
    fields [(x.retired, 0), (if 65536 ≤ x.retired then 1 else 0, 17), (if x.trained then 1 else 0, 18), (x.temp, 24)]
  | .hbmEvents h => let x := s.tier.hbms.get h; flagsN [x.corrected, x.poisoned, x.retiredF]
  | .syncStatus d =>
    fields [(entryCount (tableWaits s d), 0),
      (entryCount (queuedWaits s d), 16),
      ((s.sync.ctrs.filter fun (i, c) => ctrDie i = d && c.owned && c.abandoned).length, 32)]
  | .syncEvents d => let x := s.sync.dies.get d; flagsN [x.full, x.denied, x.abandon]
  | .qdoor k => let q := s.queue k; fields [(q.tail.toNat, 0), (q.chead.toNat, 32)]
  | .qstatus k => let q := s.queue k
    fields [(q.head.toNat, 0), (if q.resident then 1 else 0, 32), (if queueHeld s k then 1 else 0, 33),
      (if q.pkts.any (·.st = .running) then 1 else 0, 34)]
  | .fabConfig => let f := s.fab
    fields [(f.devId.toNat, 0), (f.prio.toNat, 16), (if f.ppsEn then 1 else 0, 24), (f.timeout.toNat, 32)]
  | .ppsTime => s.tsc.ppsAt
  | .routeIndex x => fields [((s.fab.ios.get x).routeIx.toNat, 0)]
  | .routeData x => let io := s.fab.ios.get x; io.routes.get io.routeIx.toNat
  | .drops x => let io := s.fab.ios.get x; fields [(io.noRoute, 0), (io.hopLim, 16), (io.malformed, 32)]
  | .portCtl i => let t := s.port i
    fields [(if t.enable then 1 else 0, 0), (if t.dateline then 1 else 0, 1), (if t.tparent then 1 else 0, 2)]
  | .portStatus i => let t := s.port i
    fields [(match t.st with | .down => 0 | .training => 1 | .up => 2 | .upDegraded => 3, 0), (t.lanes, 2),
      (if t.spare then 1 else 0, 6), (t.peer.toNat, 16), (t.peerPort.toNat, 32)]
  | .portEvents i => let t := s.port i; flagsN [t.spared, t.lost, t.downF, t.retrained]
  | .portLinkerr i => let t := s.port i; fields [(t.crc.toNat, 0), (t.replays.toNat, 32)]
  | .pcieCfg p => let x := s.pcie.get p; fields [(x.lo.toNat, 0), (x.hi.toNat, 8), (if x.cfgSet then 1 else 0, 16)]
  | .pcieEvents p => let x := s.pcie.get p; flagsN [x.linkDown, x.failover, x.peerRej]
  | .pmiReq f => (s.fn f).reqBase
  | .pmiRsp f => (s.fn f).rspBase
  | .pmiDoor f => let x := s.fn f; fields [(x.reqTail.toNat, 0), (x.rspHead.toNat, 32)]
  | .pmiStatus f => let x := s.fn f; fields [(x.reqHead.toNat, 0), (x.rspTail.toNat, 32)]
  | .pwrStatus => let p := s.pwr; fields [(p.cap, 0), (p.powerW, 16), (p.maxTj, 32), (lentQuads s, 40)]
  | .pwrEvents => let p := s.pwr; flagsN [p.capLimiting, p.capFloor, p.thermalLimit, p.tscUnlocked]
  | .tscTime => s.tsc.time
  | .tscHi => fields [((match w with | .fn f => (s.fn f).tscHi | .core p => (s.core p).tscHi).toNat, 0)]
  | .tscStatus => let t := s.tsc
    fields [(if t.locked then 1 else 0, 0), (if t.aligned then 1 else 0, 1), (if t.pps then 1 else 0, 2), (t.hops.toNat, 8),
      (t.offset.toNat, 16), (t.master.toNat, 48)]
  | .fenceStatus => fields [(s.sync.slots.length, 0), (s.sync.fw.length % 65536, 16)]
  | .eringBase => s.err.base
  | .eringHead => fields [(s.err.head.toNat, 0)]
  | .eringStatus => let e := s.err
    fields [(e.tail.toNat, 0), (if e.log.isEmpty then 0 else 1, 32), (if e.lost then 1 else 0, 33), (e.merged, 40)]
  | .dumpCtl => let e := s.err; fields [(if e.auto then 1 else 0, 0), (e.dumpAddr, 12)]
  | .dumpStatus => let e := s.err
    fields [(if e.valid then 1 else 0, 0), (if e.copying then 1 else 0, 1), (if e.copied then 1 else 0, 2), (e.dumpSeq.toNat, 32)]
  | .faultHead f => fields [((s.fn f).fault.head.toNat, 0)]
  | .faultReplay _ => 0
  | .faultStatus f => let r := (s.fn f).fault
    fields [(r.tail.toNat, 0), (if r.on && !r.room && r.held.any (fun y => !s.ctxHeld f y.1) then 1 else 0, 32), (if r.on then 1 else 0, 33)]

/-- The low half of device time is read: its upper half is captured for the requester (R46). -/
def tscCapture (w : Who) (s : State) : State :=
  let hi := BitVec.ofNat 32 (s.now / 2 ^ 32)
  match w with
  | .fn f => s.onFn f fun x => { x with tscHi := hi }
  | .core p => s.onCore p fun x => { x with tscHi := hi }

/-- An access of 4 or 8 bytes that is aligned (R11). -/
def regSized (a size : Nat) : Bool := (size = 8 && a % 8 = 0) || (size = 4 && a % 4 = 0)

/-- The CONTAINED record of an access that is not performed on a register (R11 R24 R364). -/
def regRefused (s : State) (w : Who) (a : Nat) : ErrRec :=
  match w with
  | .fn f => { (accessRec (srcPcie (f % 2)) (0x10 + f % 2) a) with unit := f % 2 }
  | .core p => { (coreRec s p clAccess sevContained) with flags := 3, addr := a }

/-- Effects of a read: the capture of R46, and the clearing of RC fields in the halves read (R12). -/
def regReadEffect (w : Who) (r : Reg) (size half : Nat) (s : State) : State :=
  match r with
  | .tscTime => if size = 4 && half = 0 then tscCapture w s else s
  | .drops x => s.onIo x fun i =>
      { i with noRoute := if size = 8 || half = 0 then 0 else i.noRoute, hopLim := if size = 8 || half = 0 then 0 else i.hopLim,
               malformed := if size = 8 || half = 4 then 0 else i.malformed }
  | _ => s

/-- A read of a control-space address: the value, 0 when it is refused. -/
def regRead (w : Who) (a size : Nat) (s : State) : State × DWord :=
  match regAt s (a / 8 * 8) with
  | none => (errAdd (regRefused s w a) s, 0)
  | some r =>
    if !regSized a size || r matches .faultReplay _ && size != 8 || (match w with | .fn f => !ownReg s f r | .core _ => false) then
      (errAdd (regRefused s w a) s, 0)
    else
      let v := regVal s w r
      let v := if size = 8 then v else BitVec.ofNat 64 (v.toNat / 2 ^ (8 * (a % 8)) % 2 ^ 32)
      (regReadEffect w r size (a % 8) s, v)

/-! ### Writes with an action -/

/-- Error record of a write that is not performed. -/
def writeRefused (w : Who) (a : Nat) (s : State) : State := errAdd (regRefused s w a) s

/-- Address of a queue's QDOOR (R317 R421). -/
def qdoorPa (k : Nat) : Nat :=
  let e := k / 1024
  (if e < 8 then ctrlDieBase e + 0x200000 else if e < 24 then ctrlDieBase ((e - 8) / 2) + 0x300000 + (e - 8) % 2 * 0x100000 else ctrlIoBase (e - 24)) +
    0x80000 + 0x20 * (k % 1024)
/-- Address of a function's first MGMT_PMI_ register (R316). -/
def pmiPa (f : Nat) : Nat := ctrlMgmtBase + 0x2000 + 0x40 * f
def eringPa : Nat := ctrlMgmtBase + 0x40000

/-- Every slot of an engine is taken (R321). -/
def slotsFull (s : State) (e : Nat) : Bool := decide (64 ≤ (s.qs.filter fun (k, q) => k / 1024 = e && q.live && q.resident).length)
/-- QDOOR.TAIL (R289). -/
def qTail (w : Who) (k : Nat) (v : Word) (s : State) : State :=
  let q := s.queue k
  if (v - q.tail).toNat < 2 ^ 31 && decide ((v - q.head).toNat ≤ 2 ^ q.s) then
    s.onQueue k fun q =>
      { q with
        tail := v
        pendAt := if q.resident || v = q.head then q.pendAt else some (q.pendAt.getD s.now)
        crowd := q.crowd || (!q.resident && v != q.head && slotsFull s (k / 1024)) }
  else writeRefused w (qdoorPa k) s

/-- QDOOR.CHEAD: slots and the failure reports of the consumed records are returned (R301 R304). -/
def qChead (w : Who) (k : Nat) (v : Word) (s : State) : State :=
  let q := s.queue k
  if headOk q.chead v q.ct then
    s.onQueue k fun q =>
      { q with chead := v, fspans := q.fspans.filter fun (n, _) => decide (2 ^ 31 ≤ (v - 1 - BitVec.ofNat 32 n).toNat) }
  else writeRefused w (qdoorPa k + 4) s

/-- A PMI ring base (R316). -/
def pmiBaseWrite (w : Who) (f : Nat) (rsp : Bool) (v : DWord) (s : State) : State :=
  if 8 < v.toNat / 2 ^ 12 % 16 then writeRefused w (pmiPa f + if rsp then 8 else 0) s
  else if rsp then rspFlush (s.onFn f fun x => { x with rspBase := v })
  else s.onFn f fun x => { x with reqBase := v &&& ~~~0xFFE#64 }

/-- MGMT_PMI_DOOR (R309). -/
def pmiReqTail (w : Who) (f : Nat) (v : Word) (s : State) : State :=
  let x := s.fn f
  if (v - x.reqTail).toNat < 2 ^ 31 && decide ((v - x.reqHead).toNat ≤ pmiSize x.reqBase) then s.onFn f fun x => { x with reqTail := v }
  else writeRefused w (pmiPa f + 0x10) s
def pmiRspHead (w : Who) (f : Nat) (v : Word) (s : State) : State :=
  let x := s.fn f
  if headOk x.rspHead v x.rspTail then rspFlush (s.onFn f fun x => { x with rspHead := v }) else writeRefused w (pmiPa f + 0x14) s

/-- ERR_ERING_BASE (R401). -/
def eringBaseWrite (w : Who) (v : DWord) (s : State) : State :=
  if 10 < v.toNat / 2 ^ 12 % 16 then writeRefused w eringPa s
  else
    let moved := s.err.base.toNat / 2 ^ 12 != v.toNat / 2 ^ 12
    errFlush (s.onErr fun e => { e with base := v, head := if moved then 0 else e.head, tail := if moved then 0 else e.tail })
def eringHeadWrite (w : Who) (v : Word) (s : State) : State :=
  if headOk s.err.head v s.err.tail then errFlush (s.onErr fun e => { e with head := v }) else writeRefused w (eringPa + 8) s

/-- RELEASE: the dump region is free for a new dump (R397). -/
def dumpRelease (s : State) : State :=
  s.onErr fun e => { e with valid := false, copying := false, copied := false }
/-- ERR_DUMP_CTL: `lo` and `hi` say which halves are written; WO bits act. -/
def dumpCtlWrite (v : DWord) (lo hi : Bool) (s : State) : State :=
  let old := (regVal s (.fn 0) .dumpCtl).toNat
  let n := (if lo then v.toNat % 2 ^ 32 else old % 2 ^ 32) + (if hi then v.toNat / 2 ^ 32 else old / 2 ^ 32) * 2 ^ 32
  let s := dumpStart (s.onErr fun e => { e with auto := n % 2 = 1, dumpAddr := n / 2 ^ 12 })
  let s := if lo && v.toNat / 4 % 2 = 1 then dumpRelease s else s
  if lo && v.toNat / 2 % 2 = 1 then warmRestart s else s

/-- FAB_CONFIG (R345 R355). -/
def fabConfigWrite (w : Who) (v : DWord) (s : State) : State :=
  let id := v.setWidth 16
  let open_ := (List.range (nPorts s.variant)).any fun i => (s.port i).enable
  if id != s.fab.devId && open_ then writeRefused w (ctrlIoBase 0) s
  else
    timeElect (s.onFab fun f =>
      { f with devId := id, prio := BitVec.ofNat 8 (v.toNat / 2 ^ 16), ppsEn := v.toNat / 2 ^ 24 % 2 = 1, timeout := BitVec.ofNat 16 (v.toNat / 2 ^ 32) })

/-- FAB_ROUTE_DATA: bits at or above 8n are reserved. -/
def routeDataWrite (x : Nat) (v : DWord) (s : State) : State :=
  s.onIo x fun i => { i with routes := i.routes.put i.routeIx.toNat (BitVec.ofNat 64 (v.toNat % 2 ^ nPorts s.variant)) }

/-- FAB_PORT_CTL: ENABLE set trains the port, ENABLE clear takes it DOWN (R339). -/
def portCtlWrite (i : Nat) (v : DWord) (s : State) : State :=
  let t := s.port i
  let en := v.toNat % 2 = 1
  let s := s.onPort i fun t => { t with enable := en, dateline := v.toNat / 2 % 2 = 1, tparent := v.toNat / 4 % 2 = 1 }
  if en && !t.enable then portTrain i s
  else if !en && t.enable then portDown i s
  else s

/-- PCIE_CFG (R371): `bus` carries the request. -/
def pcieCfgWrite (w : Who) (p : Nat) (bus : Option Nat) (v : DWord) (s : State) : State :=
  let lo := v.toNat % 256
  let hi := v.toNat / 256 % 256
  let ok := match bus with | some b => decide (lo ≤ b) && decide (b ≤ hi) | none => true
  if ok then s.onPci p fun x => { x with lo := BitVec.ofNat 8 lo, hi := BitVec.ofNat 8 hi, cfgSet := true }
  else writeRefused w (ctrlIoBase p + 0x110000) s

/-! ### Decisions on stalled streams (R263 R427) -/

/-- A stalled queue goes on. An abandoned read ends its list with a record; an abandoned packet completes
FAILED_FAULT; an abandoned record write is retried. -/
def queueDecide (k : Nat) (abandon : Bool) (s : State) : State :=
  let q := s.queue k
  let s := s.onQueue k fun q => { q with stalled := false, stallWhy := 0 }
  if !abandon then s
  else if q.stallWhy = 1 || 256 ≤ q.stallWhy then
    let p : Pkt := { op := if q.stallWhy = 1 then 0xFF else q.stallWhy - 256, ent := (if q.listOn then q.ent - 1 else q.ent).toNat
                     off := if q.listOn then q.listOff else 0, id := q.nextId, gen := (s.ctx q.ctx).gen, startAt := s.now
                     st := .done, items := 0, status := stFault, tsc := s.tsc.time }
    s.onQueue k fun q =>
      { q with pkts := q.pkts ++ [p], ent := if q.listOn then q.ent else q.ent + 1, listOn := false, nextId := q.nextId + 1, got := [], bad := [] }
  else match q.stallWhy with
    | 2 =>
      let n := q.pkts.length
      let fin (i : Nat) (p : Pkt) : Pkt :=
        if i + 1 = n then { ({ p with st := .running }.stopWith stFault s.now) with pins := [] } else p
      let s := freeRuns (k / 1024) (q.pkts.drop (n - 1)) s
      s.onQueue k fun q =>
        { q with pkts := q.pkts.mapIdx fin, listOn := q.listOn && !q.stopOnFail }
    | _ => s

/-- The group of an abandoned stall ends, or as soon as it is restored (R182 R263). -/
def abandonIdent (id : Nat) (s : State) : State :=
  let s := forAll ((s.groups.filter fun (_, g) => g.stage != .empty && g.ident = id).map (·.1)) (fun k => groupEnd k stFault) s
  s.onSaved fun l => l.map fun g => if g.ident = id then g.ruled true else g

/-- One decision for a stalled stream. A page-fault park ends with the last of its faults; of a saved group, when it is
restored (R182). -/
def stallDecide (t : Stall) (abandon : Bool) (s : State) : State :=
  let saved := s.saved.any (·.ident = t.grp)
  let s := s.onXl fun y => { y with stalls := y.stalls.erase t }
  if t.stream < 2048 then
    if abandon then abandonIdent t.grp s
    else
      s.onIdent t.grp fun g =>
        match g.park with
        | some pk =>
          let rest := pk.seqs.filter (· != t.seq)
          if g.stage = .parked && rest.isEmpty then (if saved then g.ruled false else { g with stage := .running, park := none })
          else { g with park := some { pk with seqs := rest } }
        | none => g
  else if t.stream < 4096 then (if abandon then abandonIdent t.grp s else s)
  else queueDecide (t.stream - 4096) abandon s

/-- ERR_FAULT_REPLAY of a function (R263). -/
def faultDecide (f c : Nat) (gen : BitVec 8) (seq : Word) (upto abandon : Bool) (s : State) : State :=
  if !genOk s c gen then s
  else
    let hit (t : Stall) : Bool :=
      t.fn = f && t.ctx = c && t.gen == gen &&
      (if upto then decide ((seq - BitVec.ofNat 32 t.seq).toNat < 2 ^ 31) else BitVec.ofNat 32 t.seq == seq)
    (s.xl.stalls.filter hit).foldl (fun s t => if s.xl.stalls.contains t then stallDecide t abandon s else s) s

/-! ### Writing (R12 R13) -/

/-- A handshake on up to four flags. -/
def flagWrite (f : Flag) (v : DWord) (hw : BitVec 8) (i : Nat) : Flag := f.write (v.getLsbD i) (hw.getLsbD i)

/-- A write of a register. `v` holds the bits in place, `m` the bits of the halves written, `hw` the flags that
hardware sets in the same handshake, `bus` the requester's bus. -/
def regAction (w : Who) (r : Reg) (v m : DWord) (hw : BitVec 8) (bus : Option Nat) (s : State) : State :=
  let lo := m.getLsbD 0
  let hi := m.getLsbD 32
  let v := v &&& m
  let full := (regVal s w r &&& ~~~m) ||| v
  match r with
  | .sliceEvents k => s.onSlice k fun x =>
      { x with corrected := flagWrite x.corrected v hw 0, poisoned := flagWrite x.poisoned v hw 1, remapped := flagWrite x.remapped v hw 2, refetched := flagWrite x.refetched v hw 3 }
  | .hbmEvents h => s.onStack h fun x =>
      { x with corrected := flagWrite x.corrected v hw 0, poisoned := flagWrite x.poisoned v hw 1, retiredF := flagWrite x.retiredF v hw 2 }
  | .syncEvents d => s.onSyncDie d fun x =>
      { x with full := flagWrite x.full v hw 0, denied := flagWrite x.denied v hw 1, abandon := flagWrite x.abandon v hw 2 }
  | .portEvents i => s.onPort i fun x =>
      { x with spared := flagWrite x.spared v hw 0, lost := flagWrite x.lost v hw 1, downF := flagWrite x.downF v hw 2, retrained := flagWrite x.retrained v hw 3 }
  | .pcieEvents p => s.onPci p fun x =>
      { x with linkDown := flagWrite x.linkDown v hw 0, failover := flagWrite x.failover v hw 1, peerRej := flagWrite x.peerRej v hw 2 }
  | .pwrEvents => s.onPwr fun x =>
      { x with capLimiting := flagWrite x.capLimiting v hw 0, capFloor := flagWrite x.capFloor v hw 1, thermalLimit := flagWrite x.thermalLimit v hw 2, tscUnlocked := flagWrite x.tscUnlocked v hw 3 }
  | .qdoor k =>
    let s := if lo then qTail w k (v.setWidth 32) s else s
    if hi then qChead w k (BitVec.ofNat 32 (v.toNat / 2 ^ 32)) s else s
  | .fabConfig => fabConfigWrite w full s
  | .routeIndex x => if lo then s.onIo x fun i => { i with routeIx := v.setWidth 16 } else s
  | .routeData x => routeDataWrite x full s
  | .portCtl i => if lo then portCtlWrite i v s else s
  | .pcieCfg p => if lo then pcieCfgWrite w p bus v s else s
  | .pmiReq f => pmiBaseWrite w f false full s
  | .pmiRsp f => pmiBaseWrite w f true full s
  | .pmiDoor f =>
    let s := if lo then pmiReqTail w f (v.setWidth 32) s else s
    if hi then pmiRspHead w f (BitVec.ofNat 32 (v.toNat / 2 ^ 32)) s else s
  | .eringBase => eringBaseWrite w full s
  | .eringHead => if lo then eringHeadWrite w (v.setWidth 32) s else s
  | .dumpCtl => dumpCtlWrite v lo hi s
  | .faultHead f => if lo then ringHead f .fault (v.setWidth 32) s else s
  | .faultReplay f =>
    if lo && hi then
      faultDecide f (bits v.toNat 43 32) (BitVec.ofNat 8 (bits v.toNat 51 44)) (v.setWidth 32) (v.getLsbD 53) (v.getLsbD 52) s
    else writeRefused w (ctrlMgmtBase + 0x41000 + 0x20 * f + 8) s
  | _ => s

/-- A write of a control-space address. -/
def regWrite (w : Who) (a size : Nat) (v : DWord) (hw : BitVec 8) (bus : Option Nat) (s : State) : State :=
  match regAt s (a / 8 * 8) with
  | none => errAdd (regRefused s w a) s
  | some r =>
    if !regSized a size || (match w with | .fn f => !ownReg s f r | .core _ => false) then errAdd (regRefused s w a) s
    else
      let m : DWord := if size = 8 then BitVec.allOnes 64 else if a % 8 = 0 then 0xFFFFFFFF else 0xFFFFFFFF00000000
      let v := if size = 8 || a % 8 = 0 then v else BitVec.ofNat 64 (v.toNat % 2 ^ 32 * 2 ^ 32)
      regAction w r v m hw bus s

end Sys2Proof.Machine
end

