-- ==== Sys2Proof/Machine/CoreMem.lean ====
section
/-! DEFINITION. Memory as threads reach it: loads, stores, the drain of the store buffer, atomics and
reservations, accesses to registers, the host and other devices (R216 to R232, R348). -/
namespace Sys2Proof.Machine

/-- The thread that accesses: physical core, group key, lane. -/
structure Acc where
  p : Nat := 0
  k : Nat := 0
  lane : Nat := 0
  deriving DecidableEq, Repr, Inhabited

/-- How a thread's access ends: its bytes, not yet, a translation fault, denied, or poison. -/
inductive MRes where
  | val (b : List Byte)
  | wait
  | page (reason : Nat)
  | denied
  | poison
  deriving DecidableEq, Repr, Inhabited

/-! ### Other devices (R348) -/

/-- Timeout in ns of a core's remote request (R350). -/
def coreTimeout (s : State) : Nat := max 1 s.fab.timeout.toNat * 1000000

/-- Send a request and keep it until its response; a held one waits at its link engine. -/
def reqSend (r : Rreq) (s : State) : State :=
  let n := s.fab.nextTxn
  let k := { r.pkt with txn := n, src := s.devId }
  let s := s.onFab fun f => { f with nextTxn := (n + 1) % 2 ^ 32, reqs := f.reqs ++ [{ r with txn := n, pkt := k }] }
  if r.held then s else fabSend k s

/-- The GET of a core load for one line of another device, sent once per instruction and line. -/
def coreGet (a : Acc) (win pa : Nat) (s : State) : State :=
  let g := s.group a.k
  let line := lineOf (paLocal pa)
  if s.fab.reqs.any fun r => r.grp = some g.ident && r.win = win && r.pkt.dst = paDev pa && r.pkt.addr = line then s
  else
    reqSend { pkt := { type := 3, vc := 0, dst := paDev pa, sctx := g.ctx, sgen := g.gen, phys := true, dctx := 0xFFFF, len := 128, addr := line },
              grp := some g.ident, win := win, deadline := s.now + coreTimeout s } s

/-- The PUT of a drained entry for another device. -/
def corePut (e : SbEntry) (s : State) : State :=
  reqSend { pkt := { type := 1, flits := 3, vc := 0, dst := paDev e.line, sctx := e.ctx, sgen := e.gen, phys := true, dctx := 0xFFFF, len := 128,
                     addr := paLocal e.line, mask := e.cellsOf.map (·.1), data := readTbl e.bytes 0 128 },
            owners := e.owners, org := e.org, deadline := s.now + coreTimeout s } s

/-! ### The store buffer drains (R220 R221) -/

/-- Reservations that a store to the line ends: those of every other thread (R229). -/
def storeKills (line : Nat) (thr : List (Nat × Nat)) (s : State) : State :=
  match thr with
  | [] => killRsv line true true none s
  | t :: l => killRsv line true true (if l.all (· = t) then some t else none) s

/-- Bytes that were written at a home met poison, or were refused: the groups are marked (R209). -/
def storeEnd (owners : List (Nat × Nat × Nat)) (r : State × Bool) : State :=
  if r.2 then markFailed owners stPoison r.1 else r.1

/-- The context's own host accesses cannot be performed: it is orphaned (R375). -/
def orphaned (s : State) (c : Nat) : Bool := (s.ctx c).orphanedAt.isSome || (s.fn (s.ctx c).fn).orphan
/-- Some PCIe link is up. -/
def anyLink (s : State) : Bool := (s.pcie.get 0).up || (s.pcie.get 1).up
/-- Stores that are denied where they are performed: each store instruction's group is to park with cause DENIED at it; a group
that has ended is marked (R178 R266; notes/assumptions/24.md). -/
def denyStores (os : List SbOrg) (s : State) : State :=
  let ks := os.foldl (fun l x => if l.contains (x.grp, x.pc) then l else l ++ [(x.grp, x.pc)]) ([] : List (Nat × Nat))
  ks.foldl (init := s) fun s (id, pc) =>
    match os.filter fun x => x.grp = id && x.pc = pc with
    | [] => s
    | x :: l =>
      let m := maskOf ((x :: l).map (·.lane))
      let pk : Park := { cause := cDenied, policy := policyOf (s.ctx x.ctx) cDenied, pc := pc, threads := m, lanes := m, setm := m, addr := BitVec.ofNat 64 x.va }
      if s.saved.any (fun g => g.ident = id) || s.groups.any (fun (_, g) => g.stage != .empty && g.ident = id) then
        s.onIdent id fun g => { g with faults := g.faults ++ [pk] }
      else markFailed [x.own] stDenied s

/-- What an entry for the device's own memory may do under each context and generation of its bytes: those that are
performed, and those that are denied (R266). -/
def sbMay (s : State) (e : SbEntry) (v : Admit) : List (Nat × BitVec 8) := e.tags.filter fun t => mayEnter s t.1 t.2 false (paLocal e.line) = v

/-- The stores of an entry that are refused. -/
def sbDeny (e : SbEntry) (ts : List (Nat × BitVec 8)) (s : State) : State :=
  ts.foldl (fun s t => denyStores (e.orgOf t) (denyRec t.1 t.2 (paLocal e.line) s)) s

/-- An entry is performed on the device's own memory: in the L1, or at the home (R221). -/
def sbPerform (p : Nat) (e : SbEntry) (s : State) : L1Ans :=
  let a := paLocal e.line
  if e.mask.isEmpty then .done s
  else if fencedAt s a then .done (markFailed e.owners stPoison (fencedRec a s))
  else if e.region = .normal && homeDie a = pDie p && !(s.core p).fenced then
    match l1Own p a s with
    | .done s => .done (storeKills a e.thr (l1Write p a e.cellsOf e.owners s))
    | x => x
  else
    match l1Recall a true true (e.mask.length = 128) s with
    | .done s => .done (storeKills a e.thr (storeEnd e.owners (homeWrite a e.cellsOf [] s)))
    | x => x

/-- Each posted write of an entry, on the function's port, in order (R232). -/
def hostSend (f : Nat) (e : SbEntry) (s : State) : State :=
  let runs := (hostRuns e).map fun r => (s.portOf f, f, r.map fun (x, b) => (paLocal x - hostBase, b))
  (s.onWire fun w => runs.reverse ++ w).onMem fun m => e.cellsOf.foldl (fun m (o, b) => m.put (paLocal e.line + o) b) m

/-- The oldest entry of a core's store buffer drains to where its address lies; false: it cannot yet. Bytes of a generation
that is over are dropped (R266). -/
def sbDrain (p : Nat) (s0 : State) : State × Bool :=
  match (s0.core p).sb with
  | [] => (s0, false)
  | e :: rest =>
    let s := s0.onCore p fun c => { c with sb := rest }
    let a := paLocal e.line
    let live := e.tags.filter fun t => genOk s t.1 t.2
    if paDev e.line != s.devId then (live.foldl (fun s t => corePut { e.only [t] with ctx := t.1, gen := t.2 } s) s, true)
    else match zoneOf a with
      | .ctrlDie _ | .ctrlIo _ | .ctrlMgmt =>
        match e.cellsOf with
        | [] => (s, true)
        | (o, _) :: _ =>
          if !genOk s e.ctx e.gen then (s, true)
          else (regWrite (.core p) (a + o) e.size (BitVec.ofNat 64 (leNat (e.cellsOf.map (·.2)))) 0 none s, true)
      | .host =>
        if live.any (fun t => !orphaned s t.1) && !anyLink s then (s0, false)
        else
          (live.foldl (fun s t => if orphaned s t.1 then markFailed (ownersOf (e.orgOf t)) stHostAbsent s else hostSend (s.ctx t.1).fn (e.only [t]) s) s, true)
      | _ =>
        if !(sbMay s e .retry).isEmpty then (s0, false)
        else match sbPerform p (e.only (sbMay s e .ok)) s with
          | .done t => (sbDeny e (sbMay s e .denied) t, true)
          | .silent => (homeWait a p s0, false)
          | .wait t => (t.onCore p fun c => { c with sb := e :: rest }, false)

/-- Entries drain in order until none that a test selects is left; false: one of them cannot drain yet. -/
def sbDrainTo (p : Nat) (sel : SbEntry → Bool) : Nat → State → State × Bool
  | 0, s => (s, !((s.core p).sb.any sel))
  | fuel + 1, s =>
    if !((s.core p).sb.any sel) then (s, true)
    else
      let (s, ok) := sbDrain p s
      if ok then sbDrainTo p sel fuel s else (s, false)

/-- The stores of one thread, and of all threads of a group, have left the buffer. -/
def drainThread (a : Acc) (s : State) : State × Bool :=
  sbDrainTo a.p (fun e => e.thr.contains (a.k, a.lane)) (s.core a.p).sb.length s
def drainLanes (p k : Nat) (lanes : Word) (s : State) : State × Bool :=
  sbDrainTo p (fun e => (lanesOf lanes).any fun i => e.thr.contains (k, i)) (s.core p).sb.length s
def drainHost (p : Nat) (s : State) : State × Bool :=
  sbDrainTo p (fun e => zoneOf (paLocal e.line) = .host) (s.core p).sb.length s

/-! ### Loads (R218 R221 R230) -/

/-- Bytes with those that the store buffer holds in front. -/
def overSb (s : State) (p pa : Nat) (l : List Byte) : List Byte :=
  (List.range l.length).map fun i => (sbByte s p (pa + i)).getD (l.getD i 0)
def allSb (s : State) (p pa n : Nat) : Bool := (List.range n).all fun i => (sbByte s p (pa + i)).isSome

/-- A load from the device's own memory. `own`: the line is to be held in E or M (LD.RSV). -/
def loadMem (a : Acc) (pa : Nat) (rg : Region) (size : Nat) (own : Bool) (s : State) : State × MRes :=
  let g := s.group a.k
  let x := paLocal pa
  let line := lineOf x
  if allSb s a.p pa size && !own then (s, .val (overSb s a.p pa (zeros size)))
  else match mayEnter s g.ctx g.gen false x with
    | .stale | .retry => (s, .wait)
    | .denied => (denyRec g.ctx g.gen x s, .denied)
    | .ok =>
      if fencedAt s x then (fencedRec x s, .poison)
      else if rg = .normal && homeDie x = pDie a.p then
        match (if own then l1Own a.p line s else l1Fill a.p line s) with
        | .silent => (homeWait line a.p s, .wait)
        | .wait s => (s, .wait)
        | .done s =>
          let (b, po, s) := l1Bytes a.p line (x % 128) size s
          if po && !allSb s a.p pa size then (s, .poison) else (s, .val (overSb s a.p pa b))
      else
        match l1Recall line false false false s with
        | .silent => (homeWait line a.p s, .wait)
        | .wait s => (s, .wait)
        | .done s =>
          let s := tierTouch line false false s
          if poisonAt s x && !allSb s a.p pa size then (s, .poison) else (s, .val (overSb s a.p pa (s.rd x size)))

/-- A load of one thread at a translated address. -/
def loadPa (a : Acc) (pa : Nat) (rg : Region) (size win : Nat) (ld : Ld) (s : State) : State × MRes :=
  let g := s.group a.k
  if paDev pa != s.devId then
    let key := lineOf pa / 128
    let got := ld.got.get key
    if allSb s a.p pa size then (s, .val (overSb s a.p pa (zeros size)))
    else if !got.isEmpty then (s, .val (overSb s a.p pa (slice got (pa % 128) size)))
    else match ld.bad.get key with
      | 0 => (coreGet a win pa s, .wait)
      | 3 => (s, .denied)
      | _ => (s, .poison)
  else match zoneOf (paLocal pa) with
    | .ctrlDie _ | .ctrlIo _ | .ctrlMgmt =>
      if !genOk s g.ctx g.gen then (s, .wait)
      else
        let (s, v) := regRead (.core a.p) (paLocal pa) size s
        (s, .val (leBytes size v.toNat))
    | .host =>
      if !genOk s g.ctx g.gen then (s, .wait)
      else if orphaned s g.ctx then (s, .denied)
      else
        let (s, ok) := drainHost a.p s
        if ok && anyLink s then (s, .val (s.rd (paLocal pa) size)) else (s, .wait)
    | _ => loadMem a pa rg size ld.rsv s

/-- A control register of the core's own die. -/
def ownCtrl (s : State) (p pa : Nat) : Bool := paDev pa = s.devId && zoneOf (paLocal pa) = .ctrlDie (pDie p)
/-- What must drain before a load of the thread is performed: its stores to registers of its own die, and before a load from
such a register all its stores (R231). -/
def ctrlOrder (a : Acc) (pa : Nat) (s : State) : State × Bool :=
  if ownCtrl s a.p pa then drainThread a s
  else sbDrainTo a.p (fun e => e.thr.contains (a.k, a.lane) && ownCtrl s a.p e.line) (s.core a.p).sb.length s

/-- The thread's access waits for a walk of its core's stream (R255). -/
def accWalks (a : Acc) (va : Nat) (s : State) : Bool := let g := s.group a.k; walkPends s g.lcore g.ctx va

def coreLoad (a : Acc) (va size win : Nat) (ld : Ld) (s : State) : State × MRes :=
  if accWalks a va s then (s, .wait)
  else match translate s (s.group a.k).ctx va needR with
  | .fault r => (s, .page r)
  | .ok pa rg => match ctrlOrder a pa s with
    | (s, true) => loadPa a pa rg size win ld s
    | (s, false) => (s, .wait)

/-- Is the line held in the L1 of the issuer, or at its home (R229)? -/
def rsvHere (s : State) (p pa : Nat) (rg : Region) : Bool := rg = .normal && homeDie (paLocal pa) = pDie p && paDev pa = s.devId

/-- A thread gives up its reservation. -/
def rsvClear (k lane : Nat) (s : State) : State :=
  (s.onGroup k fun g => g.onThread lane fun t => { t with resv := none }).onTier
    fun t => { t with rsv := t.rsv.filter fun (_, j, i) => !(j = k && i = lane) }

/-- LD.RSV places the reservation: in the L1, or in the home slice's table of 256, the oldest displaced. In
other places none is held. -/
def rsvPlace (a : Acc) (pa : Nat) (rg : Region) (s : State) : State :=
  let s := rsvClear a.k a.lane s
  let line := lineOf (paLocal pa)
  if paDev pa != s.devId then s
  else match zoneOf line with
    | .hbm _ | .pinned _ =>
      let here := rsvHere s a.p pa rg
      let s := s.onGroup a.k fun g => g.onThread a.lane fun t => { t with resv := some { line := line, atHome := !here } }
      if here then s
      else
        let k := homeSlice line
        let mine := s.tier.rsv.filter fun (l, _, _) => homeSlice l = k
        let s := if mine.length < 256 then s
          else match mine with
            | (l, j, i) :: _ =>
              (s.onTier fun t => { t with rsv := t.rsv.erase (l, j, i) }).onGroup j fun g => g.onThread i fun t => { t with resv := none }
            | [] => s
        s.onTier fun t => { t with rsv := t.rsv ++ [(line, a.k, a.lane)] }
    | _ => s

/-! ### Stores (R219 R220) -/

/-- A store of one thread at a translated address enters the buffer. -/
def storePa (a : Acc) (pc va pa : Nat) (rg : Region) (b : List Byte) (s : State) : State :=
  let g := s.group a.k
  let o := pa % 128
  let own := (g.slot, g.launch, g.gid)
  sbPush a.p
    { line := lineOf pa, bytes := writeTbl [] o b, mask := (List.range b.length).map (o + ·), region := rg,
      owners := [own], ctx := g.ctx, gen := g.gen, size := b.length, thr := [(a.k, a.lane)]
      org := [{ grp := g.ident, lane := a.lane, pc := pc, va := va, own := own, ctx := g.ctx, gen := g.gen }] } s

/-! ### Atomics (R226 to R228) -/

/-- The new content of an integer location, none where it stays (CAS). -/
inductive AtOp where
  | add | sub | and | or | xor
  | min (signed : Bool) | max (signed : Bool)
  | exch | cas | fadd
  deriving DecidableEq, Repr, Inhabited

def AtOp.apply (op : AtOp) (size old b c : Nat) : Option Nat :=
  let w := 8 * size
  match op with
  | .add => some ((old + b) % 2 ^ w)
  | .sub => some ((old + 2 ^ w - b % 2 ^ w) % 2 ^ w)
  | .and => some (old &&& b)
  | .or => some (old ||| b)
  | .xor => some (old ^^^ b)
  | .min sg => some (if (if sg then intCmp w .le old b else decide (old ≤ b)) then old else b)
  | .max sg => some (if (if sg then intCmp w .ge old b else decide (b ≤ old)) then old else b)
  | .exch => some b
  | .cas => if old = b then some c else none
  | .fadd => some (enc32 .rne (fAdd .rne (dec32 (BitVec.ofNat 32 old)) (dec32 (BitVec.ofNat 32 b)))).toNat

/-- Index of the contention predictor (R227). -/
def predIx (line : Nat) : Nat := bits line 14 7 ^^^ bits line 22 15
/-- Another L1 of the die holds the line in M or E. -/
def contended (s : State) (p line : Nat) : Bool :=
  (holdersOf s line).any fun q => q != p && ((s.core q).l1.get line).st != .S
def predStep (up : Bool) (x : BitVec 2) : BitVec 2 := if up then (if x = 3 then 3 else x + 1) else (if x = 0 then 0 else x - 1)

/-- One thread's atomic: the old value, or why it was not performed. -/
def coreAtom (a : Acc) (va size : Nat) (place : Place) (op : AtOp) (b c : Nat) (s : State) : State × MRes :=
  let g := s.group a.k
  if accWalks a va s then (s, .wait)
  else match translate s g.ctx va (needR + needW) with
  | .fault r => (s, .page r)
  | .ok pa rg =>
    let x := paLocal pa
    let line := lineOf x
    if paDev pa != s.devId then (s, .denied)
    else match zoneOf x with
      | .hbm _ | .pinned _ =>
        match mayEnter s g.ctx g.gen false x with
        | .stale | .retry => (s, .wait)
        | .denied => (denyRec g.ctx g.gen x s, .denied)
        | .ok =>
          let local_ := rg = .normal && homeDie x = pDie a.p
          let up := contended s a.p line
          let pr := (s.core a.p).pred.get (predIx line)
          let far := !local_ || (match place with | .far => true | .near => false | .auto => decide (2 ≤ pr.toNat))
          let note (s : State) : State := if local_ then s.onCore a.p fun k => { k with pred := k.pred.upd (predIx line) (predStep up) } else s
          let thr := [(a.k, a.lane)]
          let own := [(g.slot, g.launch, g.gid)]
          if fencedAt s x then (fencedRec x s, .poison)
          else if far then
            match l1Recall line true true false s with
            | .silent => (homeWait line a.p s, .wait)
            | .wait s => (s, .wait)
            | .done s =>
              let s := tierTouch line true false s
              if poisonAt s x then (s, .poison)
              else
                let old := s.rd x size
                let s := match op.apply size (leNat old) b c with
                  | some v => storeEnd own (homeWrite line (withOffsets (x % 128) (leBytes size v)) [] s)
                  | none => s
                (note (killRsv line true true none s), .val old)
          else
            match l1Own a.p line s with
            | .silent => (homeWait line a.p s, .wait)
            | .wait s => (s, .wait)
            | .done s =>
              let (old, po, s) := l1Bytes a.p line (x % 128) size s
              if po then (s, .poison)
              else
                let s := match op.apply size (leNat old) b c with
                  | some v => storeKills line thr (l1Write a.p line (withOffsets (x % 128) (leBytes size v)) own s)
                  | none => s
                (note s, .val old)
      | _ => (s, .denied)

/-- ST.CND of one thread: 1 where the reservation is held and the bytes are written, else 0 (R229). -/
def coreCnd (a : Acc) (va : Nat) (b : List Byte) (s : State) : State × MRes :=
  let g := s.group a.k
  if accWalks a va s then (s, .wait)
  else match translate s g.ctx va needW with
  | .fault r => (s, .page r)
  | .ok pa rg =>
    let x := paLocal pa
    let line := lineOf x
    let held := match (g.thread a.lane).resv with
      | some r => r.line = line && paDev pa = s.devId && r.atHome = !(rsvHere s a.p pa rg)
      | none => false
    if !held then (rsvClear a.k a.lane s, .val [0])
    else match mayEnter s g.ctx g.gen false x with
      | .stale | .retry => (s, .wait)
      | .denied => (denyRec g.ctx g.gen x s, .denied)
      | .ok =>
        let own := [(g.slot, g.launch, g.gid)]
        let thr := [(a.k, a.lane)]
        if fencedAt s x then (fencedRec x (markFailed own stPoison (rsvClear a.k a.lane s)), .val [1])
        else if rsvHere s a.p pa rg then
          match l1Own a.p line s with
          | .silent => (homeWait line a.p s, .wait)
          | .wait s => (s, .wait)
          | .done s => (rsvClear a.k a.lane (storeKills line thr (l1Write a.p line (withOffsets (x % 128) b) own s)), .val [1])
        else
          match l1Recall line true true false s with
          | .silent => (homeWait line a.p s, .wait)
          | .wait s => (s, .wait)
          | .done s => (rsvClear a.k a.lane (storeKills line thr (storeEnd own (homeWrite line (withOffsets (x % 128) b) [] s))), .val [1])

end Sys2Proof.Machine
end

