-- ==== Sys2Proof/Machine/Operands.lean ====
section
/-! DEFINITION. Instructions as groups issue them: when a set may issue, how operands are read and checked,
what reading costs, how results are written and what a fault at issue does (R151 to R170, R175). -/
namespace Sys2Proof.Machine

/-! ### Registers (R152 R153) -/

/-- A vector register of a lane; 255 reads 0. -/
def Group.vget (g : Group) (lane n : Nat) : Word := if n = 255 then 0 else (g.thread lane).v.get n
/-- A uniform register. -/
def Group.uget (g : Group) (n : Nat) : Word := g.u.get (n % 64)
def pair (lo hi : Word) : DWord := hi ++ lo
/-- A 32-bit source operand. -/
def Group.src (g : Group) (lane : Nat) : Src → Word
  | .v n _ => g.vget lane n
  | .u n => g.uget n
  | .imm x => x.setWidth 32
/-- A 64-bit source operand: an even register and the next. -/
def Group.srcD (g : Group) (lane : Nat) : Src → DWord
  | .v n _ => if n = 255 then 0 else pair (g.vget lane n) (g.vget lane (n + 1))
  | .u n => pair (g.uget n) (g.uget (n + 1))
  | .imm x => x

/-- A vector register number is legal: below the declared count; a pair is even (R153). -/
def vregOk (g : Group) (n : Nat) (wide : Bool) : Bool :=
  n = 255 || (if wide then n % 2 = 0 && decide (n + 1 < g.vregs) else decide (n < g.vregs))
def uregOk (n : Nat) (wide : Bool) : Bool := decide (n < 64) && (!wide || n % 2 = 0)
def srcOk (g : Group) (x : Src × Bool) : Bool :=
  match x.1 with
  | .v n _ => vregOk g n x.2
  | .u n => uregOk n x.2
  | .imm _ => true

/-- Vector registers a source reads. -/
def srcRegs (x : Src × Bool) : List (Nat × Bool) :=
  match x.1 with
  | .v n r => if n = 255 then [] else if x.2 then [(n, r), (n + 1, r)] else [(n, r)]
  | _ => []
/-- Vector registers a destination names. -/
def dstRegs (n : Nat) (wide : Bool) : List Nat := if n = 255 then [] else if wide then [n, n + 1] else [n]

/-! ### Issue (R151 R162 R163 R165) -/

/-- An instruction that issues: physical core, group key, its address, the other ready sets (slot, address), the group
before it, its set, the participating lanes, and whether an older instruction of its threads has not retired. -/
structure Iss where
  p : Nat := 0
  k : Nat := 0
  pc : Nat := 0
  rivals : List (Nat × Nat) := []
  g : Group := {}
  lanes : List Nat := []
  part : List Nat := []
  shadow : Bool := false
  deriving DecidableEq, Repr, Inhabited

def Iss.set_ (x : Iss) : Word := maskOf x.lanes
def Iss.mask (x : Iss) : Word := maskOf x.part

/-- Registers that loads of these lanes have still to write. -/
def pendingRegs (g : Group) (lanes : Word) : List Nat :=
  (g.win.filter fun w => !w.fin && w.lanes &&& lanes != 0 && (w.use matches .load)).flatMap fun w => dstRegs w.ld.dst (w.ld.size = 8)

/-- The threads wait for nothing: no GSYNC, counter operation or cut point holds them. -/
def Thread.free_ (t : Thread) : Bool := t.gsync.isNone && t.sync.isNone && t.cut.isNone

/-- The guard of a lane (R170). -/
def guardOk (g : Group) (i : Ins) (lane : Nat) : Bool :=
  match i.guard with
  | none => true
  | some (p, neg) => (g.thread lane).p.getLsbD (p % 8) != neg

/-- A quad runs steps: it is operating and not paused by step gating (R27 R36). -/
def State.quadRuns (s : State) (p : Nat) : Bool := let q := s.pwr.quads.get (quadKey p); q.mode = .operating && !q.gated
/-- A core runs: its quad runs steps, the device is not FATAL (R396), and the core is not fenced. -/
def State.coreRuns (s : State) (p : Nat) : Bool := s.quadRuns p && s.pwr.state != .fatal && !(s.core p).fenced

/-- The core of a logical ID runs. -/
def State.idRuns (s : State) (c : Nat) : Bool := match s.phys c with | some p => s.coreRuns p | none => false

/-! ### The choice among ready sets (R151 R165 to R168) -/

/-- Nothing in the state of a group blocks a set of it: the group runs, its threads wait for nothing and stand at no
fault, the window has room. -/
def Group.setFree (g : Group) (lanes : List Nat) : Bool :=
  g.stage = .running && !lanes.isEmpty && lanes.all (fun l => (g.thread l).free_) &&
  !(g.faults.any fun x => x.lanes &&& maskOf lanes != 0) && decide (g.win.length < 32)

/-- The other ready sets of the core: those the command names whose threads nothing in the state blocks. -/
def rivalsOf (i : Ins) (s : State) : List (Nat × Nat) :=
  i.rivals.filter fun r =>
    decide (r.1 < 48) && r != (i.slot, i.pc) && (let g := s.group (gKey i.core r.1); g.setFree (g.setOfPc r.2))

/-- The group is one the core may choose: with a stop pending anywhere among the groups with a ready set, only those with
one; of them the one issued from least recently, the lower slot first (R151). -/
def groupTurn (i : Ins) (rivals : List (Nat × Nat)) (s : State) : Bool :=
  let g (n : Nat) : Group := s.group (gKey i.core n)
  let stops := (g i.slot).stop.isSome || rivals.any fun r => (g r.1).stop.isSome
  (!stops || (g i.slot).stop.isSome) && rivals.all fun r =>
    (stops && (g r.1).stop.isNone) || decide ((g i.slot).sched.last < (g r.1).sched.last) ||
    ((g i.slot).sched.last = (g r.1).sched.last && decide (i.slot ≤ r.1))

/-- A set is held at a join address: a thread that diverged at the same branch and has not come stands in another ready
set, and fewer than 63 issues have passed (R167). `ready`: addresses of the other ready sets of the group. -/
def Group.heldAt (g : Group) (pc : Nat) (ready : List Nat) : Bool :=
  g.holds.any fun h => h.lanes &&& maskOf (g.setOfPc pc) != 0 && decide (g.issues < h.since + 63) &&
    ready.any fun r => r != pc && r != h.addr && h.mates &&& maskOf (g.setOfPc r) != 0

/-- Issues of the group that a set has waited for. -/
def Group.waited (g : Group) (pc : Nat) : Nat := (g.setOfPc pc).foldl (fun n l => max n (g.sched.waits.get l)) 0

/-- Place of an address in the rotation: ascending from the last instruction issued, wrapping (R166). -/
def Group.rotKey (g : Group) (pc : Nat) : Nat := if g.sched.at_ < pc then pc else pc + 2 ^ 64

/-- The set at `pc` is the one its group serves, `others` the addresses of its other ready sets. A set that has waited for
63 issues goes first (R168); a held set waits (R167); a set keeps its turn for two issues; then the next in ascending order
of program counter (R166). -/
def Group.setTurn (g : Group) (pc : Nat) (others : List Nat) : Bool :=
  let due := (pc :: others).filter fun a => decide (63 ≤ g.waited a)
  if !due.isEmpty then due.contains pc && due.all fun a => decide (g.waited a < g.waited pc) || (g.waited a = g.waited pc && decide (pc ≤ a))
  else if g.heldAt pc others then false
  else
    let free := others.filter fun a => !g.heldAt a (pc :: others)
    let inTurn (a : Nat) : Bool := g.sched.turn != 0 && g.sched.turn = maskOf (g.setOfPc a)
    if free.isEmpty then true
    else if inTurn pc then decide (g.sched.turnN < 2)
    else (free.filter fun a => !(inTurn a && decide (2 ≤ g.sched.turnN))).all fun a =>
      !inTurn a && decide (g.rotKey pc ≤ g.rotKey a)

/-- The core chooses this set in this step. -/
def picked (i : Ins) (s : State) : Bool :=
  let rs := rivalsOf i s
  groupTurn i rs s && (s.group (gKey i.core i.slot)).setTurn i.pc ((rs.filter (·.1 = i.slot)).map (·.2))

/-- What an issue changes of the choice: the group was issued from last, its set had a turn, the ready sets that were not
chosen have waited for one issue more, and holds without a ready mate end. -/
def Group.issued (g : Group) (n : Nat) (x : Iss) : Group :=
  let others := (x.rivals.filter (·.1 = x.g.slot)).map (·.2)
  let waits : Tbl Nat := others.foldl (fun t a => (g.setOfPc a).foldl (fun t l => t.put l (g.sched.waits.get l + 1)) t) []
  { g with
    issues := g.issues + 1
    holds := g.holds.filter fun h => (x.pc :: others).any fun r => r != h.addr && h.mates &&& maskOf (g.setOfPc r) != 0
    sched := { last := n, at_ := x.pc, turn := x.set_, turnN := if g.sched.turn = x.set_ then g.sched.turnN + 1 else 1, waits := waits } }

/-- The issuing set, where it is ready and chosen; `early`: the instruction is performed in shadow (R163); `regs`: the
vector registers it reads and writes. -/
def issue? (i : Ins) (early grp : Bool) (regs : List Nat) (s : State) : Option Iss :=
  let k := gKey i.core i.slot
  let g := s.group k
  match s.phys i.core with
  | none => none
  | some p =>
    let lanes := g.setOfPc i.pc
    let m := maskOf lanes
    let shadow := g.win.any fun w => w.lanes &&& m != 0
    if g.stage = .running && !lanes.isEmpty && lanes.all (fun l => (g.thread l).free_) &&
       !(g.faults.any fun x => x.lanes &&& m != 0) && s.coreRuns p &&
       decide (g.win.length < 32) && (early || !shadow) && !(regs.any fun r => (pendingRegs g m).contains r) && !walkPends s i.core g.ctx i.pc && picked i s then
      some { p := p, k := k, pc := i.pc, rivals := rivalsOf i s, g := g, lanes := lanes, part := if grp then lanes else lanes.filter (guardOk g i), shadow := shadow }
    else none

/-! ### What reading the sources does (R154 to R157, R333) -/

/-- The reads of one instruction: bank reads that missed in the cache and the cache after it. -/
def readRegs (slot : Nat) : List (Nat × Bool) → List Nat → List (Nat × Nat) → List Nat × List (Nat × Nat)
  | [], banks, rc => (banks, rc)
  | (n, reuse) :: t, banks, rc =>
    if rc.contains (slot, n) then readRegs slot t banks ((slot, n) :: rc.erase (slot, n))
    else readRegs slot t (n % 8 :: banks) (if reuse then ((slot, n) :: rc).take 64 else rc)

/-- Steps an instruction holds the issue slot (R156). -/
def holdSteps (banks : List Nat) : Nat := max 1 ((List.range 8).foldl (fun m b => max m (banks.count b)) 0)

/-- The instruction issues: cache, core steps, issue counts. -/
def issueCost (x : Iss) (reads : List (Nat × Bool)) (s : State) : State :=
  let (banks, rc) := readRegs x.g.slot reads [] (s.core x.p).rcache
  let n := (s.core x.p).issues + 1
  let s := s.onCore x.p fun c => { c with rcache := rc, issues := n, work := c.work.upd x.g.ctx (· + holdSteps banks) }
  acctAdd x.g.ctx aCoreSteps (holdSteps banks) (s.onGroup x.k fun g => g.issued n x)

/-! ### Faults at issue (R164 R178) -/

/-- The instruction faults as it issues. -/
def issueFault (i : Ins) (x : Iss) (cause detail : Nat) (bad : List Nat) (addr : DWord) (pages : List (Nat × Nat × Nat × Nat)) (s : State) : State :=
  faultGroup x.k { cause := cause, detail := detail, pc := i.pc, threads := maskOf bad, setm := x.set_, lanes := x.set_, addr := addr, pages := pages } 0 s
def illegal (i : Ins) (x : Iss) (detail : Nat) (s : State) : State := issueFault i x cIllegal detail x.part 0 [] s

/-- Some source is read from the main file: it missed in the cache as the instruction issued. -/
def readsMain (x : Iss) (reads : List (Nat × Bool)) (rc : List (Nat × Nat)) : Bool := reads.any fun r => !rc.contains (x.g.slot, r.1)

/-- Register-file errors of the sources (R157), `rc` the cache before: a single-bit error of the main file is corrected
and recorded; parity of a cached source is recorded, its entry is dropped and the operand read again from the main file,
which places it in the cache again where its reuse bit is set. -/
def regErrors (i : Ins) (x : Iss) (reads : List (Nat × Bool)) (rc : List (Nat × Nat)) (s : State) : State :=
  if i.regErr = 1 && readsMain x reads rc then errAdd (coreRec s x.p clRegister sevCorrected) s
  else if i.regErr = 3 && rc.contains (x.g.slot, i.errReg) && reads.any (·.1 = i.errReg) then
    errAdd (coreRec s x.p clRegister sevCorrected)
      (if reads.contains (i.errReg, true) then s else s.onCore x.p fun c => { c with rcache := c.rcache.erase (x.g.slot, i.errReg) })
  else s

/-- The start of an instruction: nothing where its set is not ready; a fault; or it issues. -/
inductive Beg where
  | no
  | bad (s : State)
  | go (x : Iss) (s : State)

/-- Sources with their width, vector destination with its width, uniform destinations; `ok`: every encoded value
lies in its range (R178). -/
structure Shape where
  early : Bool := true
  grp : Bool := false
  srcs : List (Src × Bool) := []
  dst : Nat := 255
  dstWide : Bool := false
  unis : List (Nat × Bool) := []
  ok : Bool := true
  deriving DecidableEq, Repr, Inhabited

/-- The page of the instruction does not translate for fetching (EXEC clear, R251 R260 R261): the set's fetch faults. -/
def fetchFault (i : Ins) (x : Iss) (reason : Nat) (s : State) : State :=
  issueFault i x cPageFault 0 x.lanes (BitVec.ofNat 64 i.pc) [(i.pc, reason, needX, 4)] s

def begin_ (i : Ins) (h : Shape) (s : State) : Beg :=
  let reads := h.srcs.flatMap srcRegs
  match issue? i h.early h.grp (reads.map (·.1) ++ dstRegs h.dst h.dstWide) s with
  | none => .no
  | some x =>
    match translate s x.g.ctx i.pc needX with
    | .fault r => .bad (fetchFault i x r s)
    | .ok _ _ =>
      let rc := (s.core x.p).rcache
      let s := issueCost x reads s
      if i.rsvd || !h.ok then .bad (illegal i x 1 s)
      else if !(h.srcs.all (srcOk x.g)) || !vregOk x.g h.dst h.dstWide || !(h.unis.all fun u => uregOk u.1 u.2) then .bad (illegal i x 2 s)
      else if i.regErr = 2 && readsMain x reads rc then .bad (issueFault i x cRegister 0 x.part 0 [] s)
      else .go x (regErrors i x reads rc s)

/-! ### Results -/

/-- Register writes of a lane: vector registers by number, 256 the predicates, 257 the arrival count. -/
abbrev Writes := List (Nat × Word)

def Group.put1 (g : Group) (lane : Nat) (w : Nat × Word) : Group :=
  if w.1 = 255 then g
  else if w.1 = 256 then g.onThread lane fun t => { t with p := w.2.setWidth 8 }
  else if w.1 = 257 then g.onThread lane fun t => { t with arrive := w.2.toNat }
  else g.onThread lane fun t => { t with v := t.v.put w.1 w.2 }
def Group.old1 (g : Group) (lane n : Nat) : Word :=
  if n = 256 then (g.thread lane).p.setWidth 32
  else if n = 257 then BitVec.ofNat 32 (g.thread lane).arrive
  else g.vget lane n
/-- What a squash puts back. -/
def Group.undoOf (g : Group) (lane : Nat) (w : Nat × Word) : List Undo :=
  if w.1 = 255 then [] else [{ lane := lane, reg := w.1, old := g.old1 lane w.1 }]

/-- A 64-bit result in a pair. -/
def wpair (n : Nat) (v : DWord) : Writes :=
  if n = 255 then [] else [(n, v.setWidth 32), (n + 1, BitVec.ofNat 32 (v.toNat / 2 ^ 32))]
/-- A predicate bit set in a lane's predicates. -/
def wpred (g : Group) (lane n : Nat) (b : Bool) : Writes :=
  let p := (g.thread lane).p
  [(256, ((if b then p ||| (1#8 <<< (n % 8)) else p &&& ~~~(1#8 <<< (n % 8)))).setWidth 32)]

/-- Threads that reach a join address are held while others of their branch are elsewhere; they go on
together once all have come (R167). -/
def joinArrive (g : Group) (lanes : List Nat) : Group :=
  g.brs.foldl (init := g) fun g b =>
    let here := (lanesOf b.lanes).filter fun l => !(g.thread l).exited && (g.thread l).pc = b.addr
    let away := (lanesOf b.lanes).filter fun l => !(g.thread l).exited && (g.thread l).pc != b.addr
    if here.isEmpty || !(lanes.any here.contains) then g
    else if away.isEmpty then
      { g with brs := g.brs.erase b, holds := g.holds.filter fun h => !(h.addr = b.addr && h.mates = b.lanes) }
    else
      { g with holds := g.holds.filter (fun h => !(h.addr = b.addr && h.mates = b.lanes)) ++
                 [{ lanes := maskOf here, mates := b.lanes, addr := b.addr, since := g.issues }] }

/-- The set goes on to the next instruction: its own hold has ended. -/
def Group.advance (g : Group) (lanes : List Nat) (to_ : Nat → Nat) : Group :=
  let m := maskOf lanes
  let g := { g with holds := g.holds.filter fun h => h.lanes &&& m = 0 }
  joinArrive (lanes.foldl (fun g l => g.onThread l fun t => { t with pc := to_ l }) g) lanes

/-- Results are written, cached values follow (the cache never differs from the file, R155), and the set goes
on. In shadow the instruction keeps a window entry with what a squash restores. -/
def finish (i : Ins) (x : Iss) (res : Nat → Writes) (uni : Writes) (to_ : Nat → Nat) (s : State) : State :=
  s.onGroup x.k fun g =>
    let undo := x.part.flatMap (fun l => (res l).flatMap (g.undoOf l)) ++
      uni.map fun (n, _) => ({ lane := 32, reg := n % 64, old := g.uget n, prev := g.uw.get (n % 64) } : Undo)
    let g2 := x.part.foldl (fun g l => (res l).foldl (fun g w => g.put1 l w) g) g
    let g2 := { g2 with u := uni.foldl (fun u (n, v) => u.put (n % 64) v) g2.u, uw := uni.foldl (fun (u : Tbl Nat) (w : Nat × Word) => u.put (w.1 % 64) g.nextId) g2.uw, nextId := g.nextId + 1 }
    let g2 := if x.shadow then { g2 with win := g2.win ++ [{ id := g.nextId, lanes := x.set_, setm := x.set_, pc := i.pc, use := .reg, fin := true, undo := undo }] } else g2
    g2.advance x.lanes to_

/-- The next address in order. -/
def after (i : Ins) : Nat → Nat := fun _ => i.pc + 16

/-! ### Vector and uniform arithmetic -/

/-- A result narrower than a register: the spec does not state the bits above it, which are free. -/
def narrow (w : Nat) (v : Nat) (free : DWord) : Word :=
  if 32 ≤ w then BitVec.ofNat 32 v else BitVec.ofNat 32 (v % 2 ^ w + free.toNat % 2 ^ 32 / 2 ^ w * 2 ^ w)

/-- An instruction that computes each participating lane's result from registers, and a free value of the lane
where `free`. `residue`: its datapath carries a residue check (R381). -/
def alu (i : Ins) (h : Shape) (residue free : Bool) (res : Group → Nat → DWord → Writes) (s : State) : Out :=
  match begin_ i h s with
  | .no => .next s
  | .bad s => .next s
  | .go x s =>
    if residue && 2 ≤ i.residue then .next (coreFault x.p false (errAdd (coreRec s x.p clResidue sevContained) s))
    else
      let s := if residue && i.residue = 1 then errAdd (coreRec s x.p clResidue sevCorrected) s else s
      let n := s.freeN
      let s := if free then s.onFreeN (· + 32) else s
      .next (finish i x (fun l => res x.g l (Config.freeValue (n + l))) [] (after i) s)

/-- A uniform instruction: performed once for the participating threads, if there is one. Which lane a vector
source is taken from is not stated: its value is free. -/
def uniSrc (g : Group) (free : DWord) : Src → DWord
  | .v n _ => if n = 255 then 0 else free
  | x => g.srcD 0 x
def aluU (i : Ins) (h : Shape) (res : Group → (Src → DWord) → Writes) (s : State) : Out :=
  match begin_ i h s with
  | .no => .next s
  | .bad s => .next s
  | .go x s =>
    let free := s.draw
    let s := if h.srcs.any (fun y => !(srcRegs y).isEmpty) then s.drawn else s
    .next (finish i x (fun _ => []) (if x.part.isEmpty then [] else res x.g (uniSrc x.g free)) (after i) s)

/-- A destination that is a predicate: 0 to 7, or 255, which discards the result; another number is an encoded
value outside its range (R178). -/
def predOk (n : Nat) : Bool := decide (n < 8) || n = 255
def wpredD (g : Group) (lane n : Nat) (b : Bool) : Writes := if n = 255 then [] else wpred g lane n b

end Sys2Proof.Machine
end

