-- ==== Sys2Proof/Machine/ArrayOps.lean ====
section
/-! DEFINITION. The arithmetic of the array: formats of P and Q, plane blocks, Q tiles, the value of a K-group and
the bounded test (R49 to R57, R68 to R71, R78 to R94, R104 to R106, R109 to R113). -/
namespace Sys2Proof.Machine

/-! ### Formats (R54 R78 R87 R94) -/

def isMx (c : Nat) : Bool := decide (8 ≤ c) && decide (c ≤ 0xD)
def isLI (c : Nat) : Bool := decide (0x20 ≤ c) && decide (c ≤ 0x2F)
def isLF (c : Nat) : Bool := decide (0x40 ≤ c) && decide (c ≤ 0x42)
def isLayered (c : Nat) : Bool := isLI c || isLF c
/-- Formats that P may have. -/
def pCapable (c : Nat) : Bool := [1, 2, 3, 4, 5, 6, 8, 9, 0xA, 0xB, 0xC, 0xD, 0x11, 0x30].contains c || isLayered c
/-- Formats that Q may have. -/
def qCapable (c : Nat) : Bool := [1, 2, 3, 4, 5, 6, 8, 9, 0xA, 0xB, 0xC, 0xD, 0x11, 0x12].contains c

/-- Accumulator modes (R56). -/
inductive AMode where | single | wide | deep
  deriving DecidableEq, Repr, Inhabited

/-- The mode of a combination, none where it is not accepted (R54). -/
def mmaMode (p q t : Nat) : Option AMode :=
  let fl := [3, 4, 5, 6, 8, 9, 0xA, 0xB, 0xC].contains p || isLF p
  let it := p = 0x11 || isLI p || p = 0x30
  if p = 1 && q = 1 && t = 1 then some .deep
  else if p = 2 && q = 2 && t = 0 then some .single
  else if p = 2 && q = 2 && t = 1 then some .deep
  else if fl && t = 0 && (q = 3 || q = 4) then some .single
  else if fl && t = 0 && [5, 6, 8, 9, 0xA, 0xB, 0xC].contains q then some .wide
  else if it && (t = 0 || t = 2) && q = 0x11 then some .single
  else if it && (t = 0 || t = 2) && q = 0x12 then some .wide
  else if p = 0xD && q = 0xD && t = 0 then some .single
  else none
def AMode.cols : AMode → Nat | .wide => 64 | _ => 32

def pSign (c : Nat) : Bool := (fmtOf c).isSome || isLF c
def pClass (c : Nat) : Bool := match fmtOf c with | some f => f.spec != 0 | none => false
/-- Bits of an exponent entry. -/
def pExpW (c : Nat) : Nat :=
  match c with
  | 1 => 16 | 2 | 3 | 4 | 6 | 9 => 8 | 5 | 8 | 0xA | 0xB | 0xC => 4
  | _ => if isLF c then 4 else 0
/-- Planes of a format; an LF block names them in its header. -/
def pPlanes (c base : Nat) : Nat :=
  match fmtOf c with
  | some f => f.mb + 1
  | none => if isLI c then c - 0x1F else if c = 0x30 then 2 else if isLF c then base else 8
/-- Offset of plane 0, and the base-form size. -/
def planeOff (c : Nat) : Nat := 64 + (if pSign c then 64 else 0) + (if pClass c then 64 else 0) + 64 * pExpW c
def baseSize (c base : Nat) : Nat := planeOff c + 64 * pPlanes c base

/-- Block scales apply (R91). -/
def scaledP (p t : Nat) : Bool := t = 0 && (isMx p || isLayered p || p = 0x30)
/-- Passes of a Q format (R52). -/
def passesOf (q : Nat) : Nat := if q = 1 then 5 else if q = 2 then 2 else 1
def qElemBytes (q w : Nat) : Nat := w * widthOf q
def qTileSize (q w : Nat) : Nat := qElemBytes q w + (if isMx q then 64 else 0)

/-! ### Plane blocks (R87 to R91) -/

def blkBase (b : List Byte) : Nat := byteN b 1
def blkDetail (b : List Byte) : Nat := byteN b 2
def blkStaged (b : List Byte) : Bool := byteN b 3 % 2 = 1
def blkKgroup (b : List Byte) : Nat := fieldN b 8 4

/-- The checks of R91 on a header; `pos`: the block's position in the MMA. -/
def blkOk (c t pos : Nat) (h : List Byte) : Bool :=
  let base := blkBase h
  byteN h 0 = c &&
  (if isLF c then decide (1 ≤ base) && decide (base ≤ 16) else base = pPlanes c base) &&
  (if isLayered c then decide (base + blkDetail h ≤ 16) else blkDetail h = 0 && !blkStaged h) &&
  (!scaledP c t || blkKgroup h % 4 = pos % 4)

def blkLen (c : Nat) (h : List Byte) : Nat := baseSize c (blkBase h) + (if blkStaged h then 64 * blkDetail h else 0)

/-- The consecutive blocks of an MMA from an offset; none where a check fails or a block leaves the allocation. -/
def readBlocks (ls : Tbl Byte) (size c t : Nat) : Nat → Nat → Nat → Option (List (List Byte))
  | 0, _, _ => some []
  | n + 1, pos, off =>
    if size < off + 64 then none
    else
      let h := readTbl ls off 64
      if !blkOk c t pos h then none
      else
        let len := blkLen c h
        if size < off + len then none
        else (readBlocks ls size c t n (pos + 1) (off + len)).map (readTbl ls off len :: ·)

/-- A scale byte: its exponent, none for NaN (R82). -/
def scaleExp (b : Nat) : Option Int := if b = 0xFF then none else some ((b : Int) - 127)

def planeBit (b : List Byte) (c n i k : Nat) : Bool := (b.getD (planeOff c + 64 * n + i) 0).getLsbD k
/-- The planes [lo, hi) of an element as an integer, plane hi - 1 of weight 1. -/
def planeNat (b : List Byte) (c i k lo hi : Nat) : Nat :=
  (List.range (hi - lo)).foldl (fun a n => 2 * a + (if planeBit b c (lo + n) i k then 1 else 0)) 0
/-- Two's complement value of planes [lo, hi); plane 0 is negative (R50 R84). -/
def planeInt (b : List Byte) (c i k lo hi : Nat) : Int :=
  let v := planeNat b c i k lo hi
  if lo = 0 && planeBit b c 0 i k then (v : Int) - 2 ^ hi else v

/-- The exponent field of an element (R87). DEDUCED (notes/assumptions/63.md): the whole entry is the field, also where the entry is
wider than the format's field and its upper bits are set. -/
def blkField (b : List Byte) (c i k : Nat) : Nat :=
  let o := 64 + (if pSign c then 64 else 0) + (if pClass c then 64 else 0)
  let n := 8 * i + k
  match pExpW c with
  | 16 => fieldN b (o + 2 * n) 2
  | 8 => byteN b (o + n)
  | _ => byteN b (o + n / 2) / 16 ^ (n % 2) % 16
def lfE (c : Nat) : Nat := c - 0x40 + 2
def pBias (c : Nat) : Int := match fmtOf c with | some f => f.bias | none => 2 ^ (lfE c - 1) - 1

/-- The value of element (i, k) from its planes [lo, hi), with its scale (R84 R86 R89 R109). -/
def pElem (b : List Byte) (c lo hi : Nat) (scale : Option Int) (i k : Nat) : FVal :=
  match scale with
  | none => .nan
  | some x =>
    if pSign c then
      let neg := (b.getD (64 + i) 0).getLsbD k
      let cls := pClass c && (b.getD (128 + i) 0).getLsbD k
      let f := blkField b c i k
      if cls then .nan
      else if (match fmtOf c with | some f' => f'.spec = 1 && f = 2 ^ f'.eb - 1 | none => false) then .inf neg
      else .fin { neg := neg, m := planeNat b c i k lo hi, e := (max f 1 : Nat) - pBias c - ((hi : Int) - 1) + x }
    else
      let q : Int := if isLI c then (blkBase b : Int) - hi else if c = 0xD then -6 else 0
      .fin (Dy.ofInt (planeInt b c i k lo hi) (q + x))

/-- The scale of row i in the K-group at position g: it lies in the span's block that holds the row (R90). -/
def rowScale (blocks : List (List Byte)) (g i : Nat) : Nat := byteN (blocks.getD (g / 4 * 4 + i / 16) []) (48 + i % 16)

/-! ### Q tiles (R94) -/

/-- Raw bits of element (k, j). -/
def qRaw (t : List Byte) (q w k j : Nat) : Nat :=
  let o := (k * w + j) * widthOf q
  fieldN t (o / 8) 9 / 2 ^ (o % 8) % 2 ^ widthOf q
/-- The column's scale byte of the span. -/
def colScale (tiles : List (List Byte)) (q w g j : Nat) : Nat :=
  let n := w / 4
  byteN (tiles.getD (g / 4 * 4 + j / n) []) (qElemBytes q w + j % n)
def qElem (tiles : List (List Byte)) (q w g k j : Nat) : FVal :=
  let v := decodeE q (qRaw (tiles.getD g []) q w k j)
  if isMx q then
    match scaleExp (colScale tiles q w g j), v with
    | none, _ => .nan
    | some x, .fin d => .fin { d with e := d.e + x }
    | _, v => v
  else v

/-! ### A K-group's value (R68 R69 R104 R105) -/

def FVal.isNan : FVal → Bool | .nan => true | _ => false
def FVal.isInf : FVal → Bool | .inf _ => true | _ => false
def FVal.dy : FVal → Dy | .fin d => d | _ => {}

/-- special_result(). -/
def kgSpecial (acc : FVal) (pq : List (FVal × FVal)) : FVal :=
  if acc.isNan || pq.any fun x => x.1.isNan || x.2.isNan then .nan
  else
    let inf := pq.filter fun x => x.1.isInf || x.2.isInf
    if inf.any fun x => x.1.isZero || x.2.isZero then .nan
    else
      let neg := inf.any (fun x => x.1.neg != x.2.neg) || (acc.isInf && acc.neg)
      let pos := inf.any (fun x => x.1.neg == x.2.neg) || (acc.isInf && !acc.neg)
      if pos && neg then .nan else .inf (!pos)

/-- kgroup_float() before its final rounding; `prec` is 24 or 53. -/
def kgFloat (prec : Int) (acc : FVal) (pq : List (FVal × FVal)) : FVal :=
  if acc.isNan || acc.isInf || pq.any fun x => x.1.isNan || x.1.isInf || x.2.isNan || x.2.isInf then kgSpecial acc pq
  else
    let prods := pq.map fun x => x.1.dy.mul x.2.dy
    match prods.filter fun d => d.m != 0 with
    | [] =>
      if !acc.isZero then acc
      else .fin { neg := acc.neg && prods.all (·.neg), m := 0, e := 0 }
    | d :: ds =>
      let cut := (ds.foldl (fun m x => max m x.lg) d.lg) - prec - 3
      let s := (d :: ds).foldl (fun a x => a + x.toInt cut) (0 : Int)
      fAdd .rne acc (.fin (Dy.ofInt s cut))

/-- kgroup_int() of the sum of the eight products: the value and whether it saturated. -/
def kgInt (acc : Word) (sum : Int) : Word × Bool :=
  let t := acc.toInt + sum
  if 2 ^ 31 - 1 < t then (0x7FFFFFFF, true)
  else if t < -(2 ^ 31) then (0x80000000, true)
  else (BitVec.ofInt 32 t, false)

/-- A table of n words. -/
def mkTbl (n : Nat) (f : Nat → Word) : Tbl Word :=
  (List.range n).filterMap fun i => let v := f i; if v = 0 then none else some (i, v)

/-- Both banks with their SAT bits. -/
structure Banks where
  a0 : Tbl Word := []
  a1 : Tbl Word := []
  s0 : Bool := false
  s1 : Bool := false
  deriving DecidableEq, Repr, Inhabited

/-- A K-group of an MMA as it is run: the block with every plane it needs, the planes [lo, hi) of each element. -/
structure KRun where
  g : Nat := 0
  blk : List Byte := []
  lo : Nat := 0
  hi : Nat := 0
  deriving DecidableEq, Repr, Inhabited

def Mma.mode (m : Mma) : AMode := (mmaMode m.pfmt m.qfmt m.accT).getD .single

/-- Masked rows, columns and K elements hold zero elements (R138). -/
def Mma.pIn (m : Mma) (g i k : Nat) : Bool := match m.live with | some (r, _, kk) => decide (i < r) && decide (8 * g + k < kk) | none => true
def Mma.qIn (m : Mma) (g j k : Nat) : Bool := match m.live with | some (_, c, kk) => decide (j < c) && decide (8 * g + k < kk) | none => true

def Mma.pVal (m : Mma) (r : KRun) (i k : Nat) : FVal :=
  if m.pIn r.g i k then pElem r.blk m.pfmt r.lo r.hi (if scaledP m.pfmt m.accT then scaleExp (rowScale m.blocks r.g i) else some 0) i k
  else .fin {}
def Mma.qVal (m : Mma) (g k j : Nat) : FVal := if m.qIn g j k then qElem m.tiles m.qfmt m.mode.cols g k j else .fin {}
/-- Bare integers (R55). -/
def Mma.qInt (m : Mma) (g k j : Nat) : Int :=
  if m.qIn g j k then sext (widthOf m.qfmt) (qRaw (m.tiles.getD g []) m.qfmt m.mode.cols k j) else 0

/-! ### Lanes, cells and the running sum (R49 to R53, R71) -/

/-- The Q element is a floating one: its lane holds a significand. -/
def qFloat (q : Nat) : Bool := (fmtOf q).isSome
/-- The significand of a Q element with its implicit bit, sign and exponent beside it; of an integer its value. -/
def Mma.qSig (m : Mma) (g k j : Nat) : Nat := (m.qVal g k j).dy.m
/-- Chunk c of a significand of w bits (R52): 12-bit chunks, most significant first, the last padded with zeros; one of at
most 12 bits is a chunk as it is. -/
def chunk (w c sig : Nat) : Nat :=
  let n := (w + 11) / 12
  if n ≤ 1 then sig else sig * 2 ^ (12 * n - w) / 2 ^ (12 * (n - 1 - c)) % 4096
/-- Significand bits of a floating Q format. -/
def sigBits (q : Nat) : Nat := match fmtOf q with | some f => f.mb + 1 | none => widthOf q
/-- What one element puts into a lane of the word latch in pass c. -/
def Mma.qBits (m : Mma) (g c k j : Nat) : Int :=
  if qFloat m.qfmt then (chunk (sigBits m.qfmt) c (m.qSig g k j) : Int) else m.qInt g k j
/-- Lane (k, j) of the word latch in pass c: an element, or in paired mode two, the lower in bits 7:0 and the upper in
bits 11:8 (R51 R53). -/
def Mma.lane (m : Mma) (g c k j : Nat) : BitVec 12 :=
  if m.mode = .wide then BitVec.ofInt 4 (m.qBits g c k (j + 32)) ++ BitVec.ofInt 8 (m.qBits g c k j)
  else BitVec.ofInt 12 (m.qBits g c k j)
/-- The number a lane stands for as the adder tree takes it (R53): of a pair, lower plus 256 times upper. The lower element
is signed in 8 bits; the upper one is signed for an integer format only (DEDUCED: a significand has no sign). -/
def laneNum (paired float : Bool) (x : BitVec 12) : Int :=
  if paired then
    (x.setWidth 8).toInt + 256 * (if float then ((x.toNat / 256 : Nat) : Int) else ((BitVec.ofNat 4 (x.toNat / 256)).toInt))
  else if float then (x.toNat : Int) else x.toInt
/-- The lower and the upper sum of a tree of paired lanes (R53). -/
def unpair (total : Int) : Int × Int :=
  let lower := ((BitVec.ofInt 16 total).setWidth 8).toInt
  (lower, (total - lower) / 256)

/-- The latch with the words of a K-group for pass c, and Qsum(k) (R51 R71). -/
def Mma.latchOf (m : Mma) (g c : Nat) : Latch :=
  let v (k j : Nat) : Int := laneNum (m.mode = .wide) (qFloat m.qfmt) (m.lane g c k j)
  { lanes := (List.range 256).filterMap fun n => let x := m.lane g c (n / 32) (n % 32); if x = 0 then none else some (n, x)
    qsum := (List.range 8).filterMap fun k => let x := ((List.range 32).map (v k)).sum; if x = 0 then none else some (k, x) }

/-- The plane and the pass of a plane step of a run: pass by pass, every plane of P once (R52). -/
def KRun.plane (r : KRun) (st : Nat) : Nat := r.lo + st % (r.hi - r.lo)
def KRun.pass (r : KRun) (st : Nat) : Nat := st / (r.hi - r.lo)
/-- The bit of P(i, k) in the plane; masked elements are zero elements. -/
def Mma.pBit (m : Mma) (r : KRun) (st i k : Nat) : Bool := m.pIn r.g i k && planeBit r.blk m.pfmt (r.plane st) i k
/-- Cell (i, k, j): the AND of the plane bit and the lane, or what a faulty cell puts out (R49 R71). -/
def Mma.cell (m : Mma) (r : KRun) (l : Latch) (ch : Check) (st i k j : Nat) : Int :=
  match ch.cells.find? fun x => x.1 = i && x.2.1 = k && x.2.2.1 = j with
  | some x => x.2.2.2
  | none => if m.pBit r st i k then laneNum (m.mode = .wide) (qFloat m.qfmt) (l.lanes.get (32 * k + j)) else 0

/-- Rows whose row sum differs from what the checksum column forms, and columns whose column sum differs from what the
checksum row forms (R71). -/
def errOf (l : List (Nat × Int)) (n : Nat) : Int := ((l.filter fun x => x.1 = n).map (·.2)).sum
def Mma.failRows (m : Mma) (r : KRun) (l : Latch) (ch : Check) (st : Nat) : List Nat :=
  (List.range 64).filter fun i =>
    ((List.range 8).map fun k => ((List.range 32).map fun j => m.cell r l ch st i k j).sum).sum !=
    ((List.range 8).map fun k => if m.pBit r st i k then l.qsum.get k else 0).sum + errOf ch.cksCol i
/-- Pcount(k): set bits of the plane in column k of P. -/
def Mma.pcount (m : Mma) (r : KRun) (st k : Nat) : Nat := ((List.range 64).filter fun i => m.pBit r st i k).length
def Mma.failCols (m : Mma) (r : KRun) (l : Latch) (ch : Check) (st : Nat) : List Nat :=
  (List.range 32).filter fun j =>
    ((List.range 64).map fun i => ((List.range 8).map fun k => m.cell r l ch st i k j).sum).sum !=
    ((List.range 8).map fun k => (m.pcount r st k : Int) * laneNum (m.mode = .wide) (qFloat m.qfmt) (l.lanes.get (32 * k + j))).sum + errOf ch.cksRow j

/-- The weight of a plane step: of its plane, negative for plane 0 of a two's complement format (R50), and of its pass
(R52), the last plane of the last pass weighing 1. -/
def Mma.weight (m : Mma) (r : KRun) (st : Nat) : Int :=
  (if r.plane st = 0 && !pSign m.pfmt then -1 else 1) * 2 ^ (r.hi - 1 - r.plane st) * 2 ^ (12 * (passesOf m.qfmt - 1 - r.pass st))
/-- Alignment of product (i, k, j) of floating elements: its sign, and its exponent above the least of the output's eight. -/
def Mma.align (m : Mma) (r : KRun) (i j k : Nat) : Int :=
  let e (k : Nat) : Int := (m.pVal r i k).dy.e + (m.qVal r.g k j).dy.e
  let least := (List.range 8).foldl (fun a k => min a (e k)) (e 0)
  (if (m.pVal r i k).dy.neg != (m.qVal r.g k j).dy.neg then -1 else 1) * 2 ^ (e k - least).toNat
/-- What a plane step adds to the running sum of output (i, j): the tree's sum over the eight k, of paired lanes the part
of the output's column, with floating products aligned and signed (R49 R53). -/
def Mma.stepSum (m : Mma) (r : KRun) (l : Latch) (ch : Check) (st i j : Nat) : Int :=
  let part (x : Int) : Int := if m.mode = .wide then (if j < 32 then (unpair x).1 else (unpair x).2) else x
  let c (k : Nat) : Int := m.cell r l ch st i k (j % 32)
  m.weight r st *
    (if qFloat m.qfmt then ((List.range 8).map fun k => part (c k) * m.align r i j k).sum else part ((List.range 8).map c).sum)
/-- The plane step is folded into the running sums. -/
def Mma.fold (m : Mma) (r : KRun) (l : Latch) (ch : Check) (st : Nat) (sums : Tbl Int) : Tbl Int :=
  (List.range 64).flatMap fun i => (List.range m.mode.cols).filterMap fun j =>
    let x := sums.get (64 * i + j) + m.stepSum r l ch st i j
    if x = 0 then none else some (64 * i + j, x)

/-- The update of every output by one K-group whose running sums are `sums` (R56 R57 R68 R69). A floating result is the
value of kgroup_float(), which the spec defines by its procedure and not by the circuit. -/
def Mma.update (m : Mma) (r : KRun) (sums : Tbl Int) (b : Banks) : Banks :=
  let ps (i : Nat) : List FVal := (List.range 8).map (m.pVal r i)
  let qs (j : Nat) : List FVal := (List.range 8).map fun k => m.qVal r.g k j
  let f32o (old : Word) (i j : Nat) : Word := enc32 .rne (kgFloat 24 (dec32 old) ((ps i).zip (qs j)))
  let into (old : Word) (i j : Nat) : Word × Bool := kgInt old (sums.get (64 * i + j))
  match m.mode with
  | .deep =>
    let out (e : Nat) : DWord := enc64 .rne (kgFloat 53 (dec64 (pair (b.a0.get e) (b.a1.get e))) ((ps (e / 32)).zip (qs (e % 32))))
    { b with a0 := mkTbl 2048 fun e => (out e).setWidth 32, a1 := mkTbl 2048 fun e => BitVec.ofNat 32 ((out e).toNat / 2 ^ 32) }
  | md =>
    let lane (t : Tbl Word) (o : Nat) : Tbl Word × Bool :=
      if m.accT = 2 then
        (mkTbl 2048 fun e => (into (t.get e) (e / 32) (o + e % 32)).1, (List.range 2048).any fun e => (into (t.get e) (e / 32) (o + e % 32)).2)
      else (mkTbl 2048 fun e => f32o (t.get e) (e / 32) (o + e % 32), false)
    match md, m.bank with
    | .wide, _ =>
      let x := lane b.a0 0
      let y := lane b.a1 32
      { a0 := x.1, a1 := y.1, s0 := b.s0 || x.2, s1 := b.s1 || y.2 }
    | _, false => let x := lane b.a0 0; { b with a0 := x.1, s0 := b.s0 || x.2 }
    | _, true => let x := lane b.a1 0; { b with a1 := x.1, s1 := b.s1 || x.2 }

/-- Banks an MMA targets. -/
def Mma.targets (m : Mma) (bank : Bool) : Bool := m.mode != .single || m.bank == bank

/-! ### Retakes (R110 to R113) -/

def Mma.blk (m : Mma) (g : Nat) : List Byte := m.blocks.getD g []
/-- The block is eligible for a retake. -/
def Mma.eligible (m : Mma) (g : Nat) : Bool :=
  isLayered m.pfmt && m.accT = 0 && m.retake != 0 && (!m.kloop || m.elig.getD g false) && blkDetail (m.blk g) != 0 &&
  (blkStaged (m.blk g) || m.late)
/-- The base run of a block: base planes, or in static mode an eligible block's full planes. -/
def Mma.baseRun (m : Mma) (g : Nat) : KRun :=
  let b := m.blk g
  let n := pPlanes m.pfmt (blkBase b)
  { g := g, blk := b, lo := 0, hi := if m.retake = 1 && m.eligible g then n + blkDetail b else n }
/-- The retake run of a block; `detail`: planes fetched late. -/
def Mma.retakeRun (m : Mma) (g : Nat) (detail : List Byte) : KRun :=
  let b := m.blk g
  let n := pPlanes m.pfmt (blkBase b)
  { g := g, blk := b ++ detail, lo := n, hi := n + blkDetail b }
def KRun.steps (r : KRun) (m : Mma) : Nat := (r.hi - r.lo) * passesOf m.qfmt
/-- The base run after which a block's retake run is fed. -/
def Mma.slotOf (m : Mma) (g : Nat) : Nat :=
  let l := pPlanes m.pfmt (blkBase (m.blk g)) * passesOf m.qfmt
  min (g + max m.lag (1 + 12 / l)) (m.g - 1)
/-- Base runs begun; blocks whose retake run has begun. -/
def Mma.begun (m : Mma) : Nat := m.nextG + (m.runs.filter fun r => !r.retake).length
def Mma.retaken (m : Mma) (g : Nat) : Bool := m.ran.contains g || m.runs.any fun r => r.retake && r.g = g
/-- The bounded test of a block whose base run is under way is still to be made. -/
def Mma.undecided (m : Mma) (g : Nat) : Bool := m.retake = 2 && m.eligible g && m.runs.any fun r => !r.retake && r.g = g
/-- A retake run of the block is owed, or may be. -/
def Mma.owed (m : Mma) (g : Nat) : Bool := (m.due.contains g && !m.retaken g) || m.undecided g
/-- The retake run that is to be fed next, before another base run. -/
def Mma.nextRetake (m : Mma) : Option Nat :=
  (List.range m.g).find? fun g => m.due.contains g && !m.retaken g && decide (m.slotOf g < m.begun)
/-- The slot of a retake run that is owed, or may be, has come: no other run takes it (R113). -/
def Mma.slotHeld (m : Mma) : Bool := (List.range m.g).any fun g => m.owed g && decide (m.slotOf g < m.begun)
/-- A run as the array feeds it. -/
def Mma.krun (m : Mma) (r : Run) : KRun := if r.retake then m.retakeRun r.g r.detail else m.baseRun r.g
def Mma.whole (m : Mma) (r : Run) : Bool := decide ((m.krun r).steps m ≤ r.step)
/-- Every plane step of an MMA has been fed: every base run and every retake run it can come to owe. -/
def Mma.fed (m : Mma) : Bool := m.begun = m.g && m.runs.all m.whole && !((List.range m.g).any m.owed)

/-- A value rounded up to FP32; none for infinity. -/
def upF32 (d : Dy) : Option Dy := match dec32 (enc32 .rup (.fin d)) with | .fin d => some d | _ => none
def FVal.mag : FVal → Option Dy | .fin d => some { d with neg := false } | _ => none
/-- Qabs(k) (R71). -/
def Mma.qabsK (m : Mma) (g k : Nat) : Option Dy :=
  ((List.range m.mode.cols).foldl (init := some ({} : Dy)) fun acc j =>
    match acc, (m.qVal g k j).mag with | some a, some d => some (a.add d) | _, _ => none) |>.bind upF32
def Mma.qabs (m : Mma) (g : Nat) : Option Dy :=
  (List.range 7).foldl (init := m.qabsK g 0) fun acc k =>
    match acc, m.qabsK g (k + 1) with | some a, some b => upF32 (a.add b) | _, _ => none
/-- The residual bound of a row is 2 to this power (R109). -/
def Mma.rbound (m : Mma) (g i : Nat) : Int :=
  let b := m.blk g
  let x := (scaleExp (rowScale m.blocks g i)).getD 0
  if isLI m.pfmt then x
  else
    let fm := (List.range 8).foldl (fun a k => if m.pIn g i k then max a (blkField b m.pfmt i k) else a) 1
    (fm : Int) - pBias m.pfmt - blkBase b + 1 + x
def Mma.liveCol (m : Mma) (g j : Nat) : Bool := (List.range 8).any fun k => !(m.qVal g k j).isZero
/-- The entry of output (i, j) in the banks. -/
def Mma.out32 (m : Mma) (b : Banks) (i j : Nat) : Word :=
  match m.mode, m.bank with
  | .wide, _ => if j < 32 then b.a0.get (32 * i + j) else b.a1.get (32 * i + j - 32)
  | _, false => b.a0.get (32 * i + j)
  | _, true => b.a1.get (32 * i + j)

/-- retake_needed() (R112). -/
def Mma.retakeNeeded (m : Mma) (g n : Nat) (b : Banks) : Bool :=
  let qa := m.qabs g
  let cols := (List.range m.mode.cols).filter (m.liveCol g)
  (List.range 64).any fun i =>
    let e := qa.bind fun q => upF32 { q with e := q.e + m.rbound g i }
    cols.any fun j =>
      match dec32 (m.out32 b i j) with
      | .fin a => (match e with | none => true | some e => Dy.lt { a with neg := false, e := a.e - n } e)
      | _ => false

end Sys2Proof.Machine
end

