-- ==== Sys2Proof/Machine/BulkOps.lean ====
section
/-! DEFINITION. The bulk path: reads and writes of virtual ranges by engines and tile sequencers (R207, R208, R210,
R216, R239 to R244, R266). -/
namespace Sys2Proof.Machine

/-- Why a piece of a range cannot be accessed: a translation fault, ownership, a CTRL page, a stopped domain, no
host, or memory of another device. -/
inductive BBad where
  | page (reason : Nat)
  | denied
  | ctrl
  | retry
  | absent
  | remote
  deriving DecidableEq, Repr, Inhabited

/-- A bulk agent's context, generation and the lines it holds of other devices. -/
structure Bulk where
  ctx : Nat := 0
  gen : BitVec 8 := 0
  got : Tbl (List Byte) := []
  deriving DecidableEq, Repr, Inhabited

/-- The lines of a remote range, all of which have been received. -/
def gotAll (b : Bulk) (pa n : Nat) : Bool := (cutLines (n + 1) pa n).all fun (x, _) => !(b.got.get (x / 128)).isEmpty

/-- Can a piece be accessed? -/
def bulkBad (s : State) (b : Bulk) (va n need : Nat) : Option BBad :=
  match translate s b.ctx va need with
  | .fault r => some (.page r)
  | .ok pa rg =>
    let a := paLocal pa
    if rg = .ctrl then some .ctrl
    else if paDev pa != s.devId then (if need = needW || gotAll b pa n then none else some .remote)
    else match zoneOf a with
      | .host => if orphaned s b.ctx || !anyLink s then some .absent else none
      | .ctrlDie _ | .ctrlIo _ | .ctrlMgmt => some .ctrl
      | _ =>
        match mayEnter s b.ctx b.gen false a with
        | .ok => if heldRange s a n then some .retry else none
        | .denied => some .denied
        | .stale | .retry => some .retry

/-- The first piece of a range that cannot be accessed. -/
def bulkCheck (s : State) (b : Bulk) (va n need : Nat) : Option (BBad × Nat) :=
  (cutRange (n + 1) va n).findSome? fun (a, k) => (bulkBad s b a k need).map fun x => (x, a)

/-- Bytes of a range whose pieces can all be read, and the offsets that are poisoned. -/
def bulkRd (s : State) (b : Bulk) (va n : Nat) : List Byte × List Nat :=
  (cutRange (n + 1) va n).foldl (init := ([], [])) fun (l, po) (a, k) =>
    match translate s b.ctx a needR with
    | .fault _ => (l ++ zeros k, po)
    | .ok pa _ =>
      if paDev pa != s.devId then
        (l ++ (cutLines (k + 1) pa k).flatMap (fun (x, m) => slice (b.got.get (x / 128)) (x % 128) m), po)
      else
        let x := paLocal pa
        (l ++ s.rd x k, po ++ (poisonOffs s x k).map fun o => o + (a - va))
/-- The lines of a read range pass through their slices; a fenced die is recorded. -/
def bulkTouch (b : Bulk) (va n : Nat) (s : State) : State :=
  (cutRange (n + 1) va n).foldl (init := s) fun s (a, k) =>
    match translate s b.ctx a needR with
    | .ok pa _ => if paDev pa = s.devId && zoneOf (paLocal pa) != .host then fencedRec (paLocal pa) (touchRange (paLocal pa) k s) else s
    | .fault _ => s

/-- The record of a denied range. -/
def bulkDeny (b : Bulk) (va need : Nat) (s : State) : State :=
  match translate s b.ctx va need with
  | .ok pa _ => denyRec b.ctx b.gen (paLocal pa) s
  | .fault _ => s

/-- A bulk write to another device leaves as PUTs with PHYS and byte enables, at most one line each; poisoned bytes
travel in a PUT of their own (R340 R348). -/
def linePut (s : State) (b : Bulk) (pa : Nat) (cells : List (Nat × Byte)) (poison : Bool) : FPkt :=
  { type := 1, flits := 3, vc := 0, dst := paDev pa, src := s.devId, sctx := b.ctx, sgen := b.gen, phys := true, dctx := 0xFFFF, poison := poison
    len := 128, addr := lineOf (paLocal pa), mask := cells.map (·.1), data := readTbl (cells.foldl (fun t c => t.put c.1 c.2) []) 0 128 }
def linePuts (s : State) (b : Bulk) (pa : Nat) (l : List Byte) (pois : List Nat) : List FPkt :=
  (cutLines (l.length + 1) pa l.length).flatMap fun (x, n) =>
    let c := (List.range n).map fun i => (x + i - pa, (x + i) % 128)
    let at_ (p : Bool) : List (Nat × Byte) := (c.filter fun y => pois.contains y.1 = p).map fun y => (y.2, l.getD y.1 0)
    ([(at_ false, false), (at_ true, true)].filter fun y => !y.1.isEmpty).map fun y => linePut s b x y.1 y.2

/-- Write a range whose pieces can all be written. `grp`: the group a remote write counts for. Answers whether the
write met poison. -/
def bulkWr (b : Bulk) (grp : Option Nat) (va : Nat) (l : List Byte) (pois : List Nat) (s : State) : State × Bool :=
  (cutRange (l.length + 1) va l.length).foldl (init := (s, false)) fun (s, met) (a, k) =>
    let d := slice l (a - va) k
    let po := (pois.filter fun o => decide (a - va ≤ o) && decide (o < a - va + k)).map fun o => o - (a - va)
    match translate s b.ctx a needW with
    | .fault _ => (s, met)
    | .ok pa _ =>
      if paDev pa != s.devId then
        ((linePuts s b pa d po).foldl (fun s k => reqSend { pkt := k, grp := grp, deadline := s.now + coreTimeout s } s) s, met)
      else
        let x := paLocal pa
        let (s, m) := if fencedAt s x then (fencedRec x s, true) else bulkWrite x d po s
        (s, met || m)

/-- A bit-masked write of one byte, performed at its home: in another device's memory by a PUT that carries the mask
(R121). -/
def bulkBits (b : Bulk) (grp : Option Nat) (va mask val : Nat) (s : State) : State × Bool :=
  match translate s b.ctx va needW with
  | .fault _ => (s, false)
  | .ok pa _ =>
    if paDev pa != s.devId then
      (reqSend { pkt := { linePut s b pa [(paLocal pa % 128, BitVec.ofNat 8 (val % 256))] false with bits := mask % 256 }, grp := grp
                 deadline := s.now + coreTimeout s } s, false)
    else bulkWr b grp va [mixBits mask (byteN (s.rd (paLocal pa) 1) 0) val] [] s

end Sys2Proof.Machine
end

