-- ==== Sys2Proof/Machine/TseqOps.lean ====
section
/-! DEFINITION. Tile programs: the descriptor and its checks, tiles and passes, operand addresses, halo regions and
stores (ch. 06; R95 to R103, R119 to R124). -/
namespace Sys2Proof.Machine

/-! ### The descriptor (R130) -/

abbrev Desc := List Byte
def Desc.shape (d : Desc) : Nat := byteN d 1
def Desc.pf (d : Desc) : Nat := byteN d 2
def Desc.qf (d : Desc) : Nat := byteN d 3
def Desc.accT (d : Desc) : Nat := byteN d 4 % 4
def Desc.nMajor (d : Desc) : Bool := byteN d 4 / 4 % 2 = 1
def Desc.pLocal (d : Desc) : Bool := byteN d 4 / 8 % 2 = 1
def Desc.qLocal (d : Desc) : Bool := byteN d 4 / 16 % 2 = 1
def Desc.qMode (d : Desc) : Nat := byteN d 4 / 32 % 4
def Desc.retake (d : Desc) : Nat := byteN d 5 % 4
def Desc.late (d : Desc) : Bool := byteN d 5 / 4 % 2 = 1
def Desc.retakeN (d : Desc) : Nat := byteN d 6
def Desc.lag (d : Desc) : Nat := byteN d 7
def Desc.haloCount (d : Desc) : Nat := byteN d 9
def Desc.haloTimeout (d : Desc) : Nat := fieldN d 10 2
def Desc.mExt (d : Desc) : Nat := fieldN d 12 4
def Desc.nExt (d : Desc) : Nat := fieldN d 16 4
def Desc.kExt (d : Desc) : Nat := fieldN d 20 4
def Desc.opbuf (d : Desc) : Nat := fieldN d 24 4
def Desc.opbufSize (d : Desc) : Nat := fieldN d 28 4
def Desc.pAddr (d : Desc) : Nat := fieldN d 32 8
def Desc.pMstride (d : Desc) : Nat := fieldN d 40 4
def Desc.qStride (d : Desc) : Nat := fieldN d 44 4
def Desc.qAddr (d : Desc) : Nat := fieldN d 48 8
def Desc.tapLine (d : Desc) : Nat := fieldN d 56 2
def Desc.tapGroup (d : Desc) : Nat := fieldN d 58 2
def Desc.tapGstride (d : Desc) : Nat := fieldN d 60 2
def Desc.tapTable (d : Desc) : Nat := 16 * fieldN d 62 2
def Desc.detailAddr (d : Desc) : Nat := fieldN d 64 8
def Desc.bitmapAddr (d : Desc) : Nat := fieldN d 72 8
def Desc.cAddr (d : Desc) : Nat := fieldN d 80 8
def Desc.cStride (d : Desc) : Nat := fieldN d 88 4
def Desc.cf (d : Desc) : Nat := byteN d 92
def Desc.sr (d : Desc) : Bool := byteN d 93 % 2 = 1
def Desc.op (d : Desc) : Nat := byteN d 93 / 2 % 4
def Desc.nonzero (d : Desc) : Bool := byteN d 93 / 8 % 2 = 1
def Desc.layout (d : Desc) : Nat := byteN d 93 / 16 % 4
def Desc.cLocal (d : Desc) : Bool := byteN d 93 / 64 % 2 = 1
def Desc.cDetail (d : Desc) : Nat := byteN d 94
def Desc.detailMax (d : Desc) : Nat := byteN d 95
def Desc.clipRec (d : Desc) : Nat := fieldN d 96 4
def Desc.cBase (d : Desc) : Nat := byteN d 100
def Desc.cDetailAddr (d : Desc) : Nat := fieldN d 104 8
def Desc.cBitmapAddr (d : Desc) : Nat := fieldN d 112 8
/-- Halo entry e (R140). -/
def Desc.halo (d : Desc) (e : Nat) : List Byte := slice d (128 + 32 * e) 32

def Desc.mode (d : Desc) : AMode := (mmaMode d.pf d.qf d.accT).getD .single
/-- Columns of a pass. -/
def Desc.w (d : Desc) : Nat := d.mode.cols
/-- Row blocks and column groups of a tile, and its size (R132). -/
def Desc.rN (d : Desc) : Nat := [1, 4, 2, 2, 4, 1].getD d.shape 1
def Desc.tileN (d : Desc) : Nat := [32, 32, 64, 128, 128, 256].getD d.shape 32
def Desc.cN (d : Desc) : Nat := d.tileN / d.w
def Desc.tileM (d : Desc) : Nat := 64 * d.rN
def cdiv (a b : Nat) : Nat := (a + b - 1) / b
def Desc.tm (d : Desc) : Nat := cdiv d.mExt d.tileM
def Desc.tn (d : Desc) : Nat := cdiv d.nExt d.tileN
def Desc.tiles (d : Desc) : Nat := d.tm * d.tn
/-- First row and column of the i-th tile in run order (R134). -/
def Desc.tileAt (d : Desc) (i : Nat) : Nat × Nat :=
  if d.nMajor then (i / d.tn * d.tileM, i % d.tn * d.tileN) else (i % d.tm * d.tileM, i / d.tm * d.tileN)
/-- First row and column of a pass of a tile. -/
def Desc.passAt (d : Desc) (i p : Nat) : Nat × Nat :=
  let t := d.tileAt i
  (t.1 + 64 * (p / d.cN), t.2 + d.w * (p % d.cN))
def Desc.passes (d : Desc) : Nat := d.rN * d.cN

/-- Columns of a stored Q tile: those of the mode its format is used in. -/
def qCols (c : Nat) : Nat := if [1, 2, 3, 4, 0x11, 0xD].contains c then 32 else 64
/-- Elements of a layered store's significand that the destination holds as base planes. -/
def Desc.cPlanes (d : Desc) : Nat := pPlanes d.cf d.cBase
/-- The store is quantizing (R119). -/
def Desc.quant (d : Desc) : Bool := d.cf != (if d.accT = 0 then 2 else if d.accT = 1 then 1 else 0x10)
/-- A layered store with detail planes. -/
def Desc.layered (d : Desc) : Bool := isLayered d.cf && d.cDetail != 0
/-- Scales apply to P or Q: K-loops end at the end of a scale span (R138). -/
def Desc.spans (d : Desc) : Bool := scaledP d.pf d.accT || isMx d.qf
/-- K-groups up to an extent. -/
def Desc.kgroups (d : Desc) (k : Nat) : Nat := if d.spans then 4 * cdiv k 32 else cdiv k 8

/-! ### Checks of TSEQ.START (R129) -/

def storeCapable (c : Nat) : Bool := qCapable c || pCapable c || c = 0x10
/-- Destinations that SR may be selected for (R119). -/
def srDest (c : Nat) : Bool := c = 5 || c = 6 || isMx c || c = 0x11 || c = 0x12 || isLayered c || c = 0x30
def scaledFmt (c : Nat) : Bool := isMx c || isLayered c || c = 0x30
def storeOk (d : Desc) : Bool :=
  let c := d.cf
  decide (d.op ≤ 2) && decide (d.layout ≤ 2) &&
  (match d.layout with | 0 => !scaledFmt c | 1 => pCapable c | _ => qCapable c) &&
  (d.op = 0 || (d.layout = 0 && !d.quant && !d.sr)) &&
  (!d.sr || (d.quant && srDest c)) &&
  (if isLF c then decide (1 ≤ d.cBase) && decide (d.cBase ≤ 16) else d.cBase = 0) &&
  (d.cDetail = 0 || (isLayered c && decide (d.cPlanes + d.cDetail ≤ 16)))

/-- A halo region: lines and bytes of a line (R141). -/
def haloLines (h : List Byte) : Nat := if byteN h 0 < 2 then byteN h 1 * fieldN h 12 4 else fieldN h 12 4
def haloLine (h : List Byte) : Nat := (if byteN h 0 < 2 then fieldN h 16 4 else byteN h 1) * byteN h 2
def haloOk (d : Desc) (e : Nat) : Bool :=
  let h := d.halo e
  decide (byteN h 0 ≤ 3) && decide (1 ≤ byteN h 1) && decide (byteN h 1 ≤ 8) && [1, 2, 4, 8].contains (byteN h 2) &&
  (decide (byteN h 0 < 2) || fieldN h 16 4 = byteN h 1) && decide (haloLines h * haloLine h ≤ 131072) &&
  !((List.range e).any fun x => byteN (d.halo x) 0 = byteN h 0)

/-- footprint() (R136). An LF P names no base in the descriptor: its smallest block is taken. -/
def Desc.footprint (d : Desc) : Nat :=
  let bp := baseSize d.pf 1
  let bq := qTileSize d.qf d.w
  let g := cdiv d.kExt 8
  let dp := if d.retake = 1 || (d.retake = 2 && !d.late) then bp + 64 * d.detailMax else bp
  (if d.retake = 2 && d.late then d.lag * 64 * d.detailMax else 0) +
  (if d.qLocal && d.qMode = 0 then 0 else if d.qMode != 2 && decide (1 < d.rN) then g * d.cN * bq else 32 * bq) +
  (if d.pLocal then 0 else if 1 < d.cN && 1 < d.rN then 2 * g * dp else if 1 < d.cN then g * dp else 32 * dp)

/-- Bytes of the slab from Q_ADDR: the lines of the output columns, no tap offset added (R137; DEDUCED, notes/assumptions/63.md). -/
def Desc.slabBytes (d : Desc) : Nat :=
  let u := (d.nExt - 1) / d.tapLine
  (u / d.tapGroup * d.tapGstride + u % d.tapGroup) * d.qStride + min d.nExt d.tapLine * (widthOf d.qf / 8)
/-- Local-store regions the descriptor names: offset and length. -/
def Desc.regions (d : Desc) : List (Nat × Nat) :=
  let g := d.kgroups d.kExt
  let cbits := widthOf d.cf
  let cspan : Nat := match d.layout with
    | 0 => (d.mExt - 1) * d.cStride + cdiv (d.nExt * cbits) 8
    | 1 => (cdiv d.mExt 64 - 1) * d.cStride + (if scaledFmt d.cf then 4 * cdiv d.nExt 32 else cdiv d.nExt 8) * baseSize d.cf d.cBase
    | _ => (cdiv d.nExt (qCols d.cf) - 1) * d.cStride + cdiv d.mExt 8 * qTileSize d.cf (qCols d.cf)
  [(d.opbuf, d.opbufSize)] ++
  (if d.clipRec = 0xFFFFFFFF then [] else [(d.clipRec, 16)]) ++
  (if d.pLocal then [(d.pAddr, (cdiv d.mExt 64 - 1) * d.pMstride + g * baseSize d.pf 1)] else []) ++
  (if d.qLocal && d.qMode = 0 then [(d.qAddr, (cdiv d.nExt d.w - 1) * d.qStride + g * qTileSize d.qf d.w)]
   else if d.qLocal && d.qMode = 1 then [(d.qAddr, (d.kExt - 1) * d.qStride + cdiv (d.nExt * widthOf d.qf) 8)] else []) ++
  (if d.qMode = 2 then [(d.tapTable, 4 * d.kExt), (d.qAddr, d.slabBytes)] else []) ++
  (if d.cLocal then [(d.cAddr, cspan)] else []) ++
  (List.range d.haloCount).flatMap fun e =>
    let h := d.halo e
    let n := (haloLines h - 1) * d.qStride + haloLine h
    [(fieldN h 4 4, n), (fieldN h 8 4, n)]

/-- The first refusal reason, none where the descriptor passes. -/
def tseqReason (d : Desc) (off lsSize : Nat) : Option Nat :=
  let vas := (if d.pLocal then [] else [d.pAddr]) ++ (if d.qLocal || d.qMode = 2 then [] else [d.qAddr]) ++ (if d.cLocal then [] else [d.cAddr]) ++
    (if d.retake = 0 then [] else [d.detailAddr, d.bitmapAddr]) ++ (if d.layered then [d.cDetailAddr, d.cBitmapAddr] else [])
  let nh := min d.haloCount 4
  let checks : List (Nat × Bool) :=
    [(1, byteN d 0 = 1 && byteN d 4 < 128 && byteN d 5 < 8 && byteN d 93 < 128 && fieldN d 101 3 = 0 && fieldN d 120 8 = 0 &&
         (List.range nh).all (fun e => byteN (d.halo e) 3 < 4 && fieldN (d.halo e) 28 4 = 0) && 1 ≤ byteN d 8 && byteN d 8 ≤ 4),
     (2, pCapable d.pf && qCapable d.qf && (mmaMode d.pf d.qf d.accT).isSome && storeCapable d.cf),
     (3, d.shape ≤ 5 && (d.mode != .wide || 2 ≤ d.shape)),
     (4, d.mExt != 0 && d.nExt != 0 && d.kExt != 0),
     (5, off % 64 = 0 && d.opbuf % 64 = 0 && d.opbufSize % 64 = 0 && d.pAddr % 64 = 0 && (d.qMode != 0 || d.qAddr % 64 = 0) &&
         (d.clipRec = 0xFFFFFFFF || d.clipRec % 16 = 0) && vas.all vaOk && (d.retake = 0 || (d.detailAddr % 64 = 0 && d.bitmapAddr % 8 = 0)) &&
         (!d.layered || (d.cDetailAddr % 64 = 0 && d.cBitmapAddr % 8 = 0))),
     (6, d.footprint ≤ d.opbufSize),
     (7, d.retake != 3 && (!d.late || d.retake = 2) && d.detailMax ≤ 15 && (!isLayered d.pf || d.detailMax + pPlanes d.pf 1 ≤ 16) &&
         (isLayered d.pf || d.detailMax = 0 || d.detailMax + pPlanes d.pf 1 ≤ 16) &&
         (d.retake != 2 || (1 ≤ d.retakeN && d.retakeN ≤ 24 && 4 ≤ d.lag && d.lag ≤ 64))),
     (8, d.haloCount ≤ 4 && (List.range nh).all (haloOk d)),
     (9, storeOk d),
     (10, d.regions.all fun (a, n) => a + n ≤ lsSize),
     (11, d.qMode ≤ 2 && !(d.qMode = 1 && isMx d.qf) && (d.qMode != 2 || [1, 2, 3, 4, 0x11].contains d.qf))]
  (checks.find? fun x => !x.2).map (·.1)

/-! ### Positions (R134 R138) -/

/-- Effective extents of a core for a program. -/
def effExt (c : Core) (d : Desc) : Nat × Nat × Nat := (min d.mExt c.em, min d.nExt c.en, min d.kExt c.ek)

/-- The next tile from `i` on that is not skipped. -/
def tileFrom (d : Desc) (e : Nat × Nat × Nat) : Nat → Nat → Nat
  | 0, i => i
  | n + 1, i => if (d.tileAt i).1 < e.1 && (d.tileAt i).2 < e.2.1 then i else tileFrom d e n (i + 1)
/-- The next pass from `p` on of a tile that is not skipped. -/
def passFrom (d : Desc) (e : Nat × Nat × Nat) (i : Nat) : Nat → Nat → Nat
  | 0, p => p
  | n + 1, p => if (d.passAt i p).1 < e.1 && (d.passAt i p).2 < e.2.1 then p else passFrom d e i n (p + 1)

/-- Where a program must stop: the earliest of what its fetches and halo entries met. -/
def Prog.stopAt (g : Prog) : Option (Nat × Nat × Nat) :=
  match g.fetchBad, g.haloBad with
  | none, none => none
  | some (st, t, p, _, _), none => some (st, t, p)
  | none, some (st, t) => some (st, t, 0)
  | some (st, t, p, _, _), some (hs, ht) => if t < ht then some (st, t, p) else some (hs, ht, 0)

/-- The next pass to be fetched after the ones already started or fetched, with its extents: none at the end of the
program or where it must stop (R134 R138). -/
def Prog.fetchPos (g : Prog) (c : Core) : Option PassBuf :=
  let d : Desc := g.desc
  let (t, p, e) := match g.buf.getLast? with | some x => (x.tile, x.pass + 1, some x.ext) | none => (g.tile, g.pass, g.tileExt)
  let new (t : Nat) : Option PassBuf :=
    let e := effExt c d
    let t := tileFrom d e (d.tiles - t) t
    if d.tiles ≤ t then none else some { tile := t, pass := passFrom d e t d.passes 0, ext := e }
  let pos := match e with
    | none => new t
    | some e =>
      let p := passFrom d e t (d.passes - p) p
      if p < d.passes then some { tile := t, pass := p, ext := e } else new (t + 1)
  if g.ended then none else match pos, g.stopAt with
  | some x, some (_, st, sp) => if x.tile < st || (x.tile = st && decide (x.pass < sp)) then some x else none
  | x, _ => x

/-- Every pass that is to run has been stored. -/
def Prog.isOver (g : Prog) (c : Core) : Bool := g.started && g.buf.isEmpty && g.flight.isEmpty && (g.fetchPos c).isNone
/-- The program at work: the first that is not over. -/
def Core.cur (c : Core) : Option Prog := c.progs.find? fun g => !g.isOver c
def onCur (p : Nat) (f : Prog → Prog) (s : State) : State :=
  s.onCore p fun c =>
    { c with progs := (c.progs.span fun g => g.isOver c).1 ++ (match (c.progs.span fun g => g.isOver c).2 with | g :: t => f g :: t | [] => []) }

/-! ### Operands (R131 R137) -/

/-- Bytes an operand is read from: virtual memory, or the group's local store. -/
def opRead (s : State) (b : Bulk) (ls : Tbl Byte) (loc : Bool) (a n : Nat) : List Byte := if loc then readTbl ls a n else (bulkRd s b a n).1
def opPois (s : State) (b : Bulk) (loc : Bool) (a n : Nat) : Bool := !loc && !(bulkRd s b a n).2.isEmpty

/-- The base-form stride of P: an LF tensor's is that of its first block. -/
def pStride (s : State) (b : Bulk) (ls : Tbl Byte) (d : Desc) : Nat :=
  if isLF d.pf then baseSize d.pf (blkBase (opRead s b ls d.pLocal d.pAddr 64)) else baseSize d.pf 1
def pBlockAt (d : Desc) (stride r g : Nat) : Nat := d.pAddr + r * d.pMstride + g * stride
/-- Detail planes of a block (R92). -/
def detailAt (d : Desc) (blk : List Byte) : Nat := d.detailAddr + 64 * fieldN blk 4 4
/-- K-groups of the tensor that P is a region of: a row of blocks is contiguous, so P_MSTRIDE holds all of them (R92 R131).
DEDUCED (notes/assumptions/63.md): where P_MSTRIDE is shorter than a block, a program of one block row names none and its own K counts. -/
def Desc.pKgroups (d : Desc) (stride : Nat) : Nat := if d.pMstride < stride then d.kgroups d.kExt else d.pMstride / stride
/-- A block's number in its tensor, the position of its bitmap bit (R92). -/
def bitmapBit (d : Desc) (stride : Nat) (blk : List Byte) : Nat := fieldN blk 12 4 * d.pKgroups stride + blkKgroup blk
/-- The retake mode has effect. -/
def Desc.retakes (d : Desc) : Bool := isLayered d.pf && d.accT = 0 && d.retake != 0

/-- Local-store offset of a TAPS element (R137). -/
def qTapAddr (ls : Tbl Byte) (d : Desc) (k j : Nat) : Nat :=
  let e := readTbl ls (d.tapTable + 4 * k) 4
  let lo := sext 16 (leNat (slice e 0 2))
  let co := sext 16 (leNat (slice e 2 2))
  let col := j % d.tapLine
  let u := j / d.tapLine
  let line := u / d.tapGroup * d.tapGstride + u % d.tapGroup
  ((d.qAddr : Int) + (line + lo) * d.qStride + (col + co) * (widthOf d.qf / 8 : Nat)).toNat

/-- A packed row of bits: the elements, little-endian. -/
def packBits (w : Nat) (l : List Nat) : List Byte :=
  leBytes (cdiv (w * l.length) 8) (l.reverse.foldl (fun a x => a * 2 ^ w + x % 2 ^ w) 0)

/-! What of a block and of a tile is live: masked rows, columns and K elements are not fetched and read as zero (R138). -/

/-- Live K elements of K-group g. -/
def kLive (k g : Nat) : Nat := min 8 (k - 8 * g)
/-- Regions of a plane block after its header: offset, and bytes of a row (R87). -/
def blkRegions (c base : Nat) : List (Nat × Nat) :=
  (if pSign c then [(64, 1)] else []) ++ (if pClass c then [(128, 1)] else []) ++
  (if pSign c then [(planeOff c - 64 * pExpW c, pExpW c)] else []) ++ (List.range (pPlanes c base)).map fun n => (planeOff c + 64 * n, 1)
/-- Bytes of a block that are fetched (offset, length): its header, and of each region the live rows. -/
def blkSpans (c base mv kn : Nat) : List (Nat × Nat) :=
  (0, 64) :: if kn = 0 then [] else (blkRegions c base).map fun (o, n) => (o, n * mv)
/-- The first rows of a region of n bytes a row, their masked K elements and the other rows zero. -/
def liveRows (n kn : Nat) (l : List Byte) : List Byte :=
  (List.range (64 * n)).map fun i => BitVec.ofNat 8 (byteN l i % 2 ^ min 8 (kn * n - 8 * (i % n)))
def liveBlock (c base mv kn : Nat) (rd : Nat → Nat → List Byte) : List Byte :=
  rd 0 64 ++ (blkRegions c base).flatMap fun (o, n) => if kn = 0 then zeros (64 * n) else liveRows n kn (rd o (n * mv))
/-- A zero-filled block: the header that R91 asks for and no set bit (R138). -/
def zeroBlock (c base kg : Nat) : List Byte :=
  [BitVec.ofNat 8 c, BitVec.ofNat 8 (pPlanes c base), 0, 0] ++ zeros 4 ++ leBytes 4 kg ++ zeros (baseSize c base - 12)

/-- Live column scales in the segment of the tile at K-group g. -/
def scaleLive (q w nv g : Nat) : Nat := if isMx q then min (w / 4) (nv - w / 4 * (g % 4)) else 0
/-- Bytes of a tile that are fetched (offset, length). -/
def tileSpans (q w nv kn g : Nat) : List (Nat × Nat) :=
  ((List.range kn).map fun i => (qElemBytes q w / 8 * i, cdiv (nv * widthOf q) 8)) ++
  (if scaleLive q w nv g = 0 then [] else [(qElemBytes q w, scaleLive q w nv g)])
def liveTile (q w nv kn g : Nat) (rd : Nat → Nat → List Byte) : List Byte :=
  let row := qElemBytes q w / 8
  ((List.range 8).flatMap fun i =>
    if kn ≤ i then zeros row
    else
      let l := rd (row * i) (cdiv (nv * widthOf q) 8)
      (List.range row).map fun x => BitVec.ofNat 8 (byteN l x % 2 ^ min 8 (nv * widthOf q - 8 * x))) ++
  (if isMx q then padTo 64 (rd (qElemBytes q w) (scaleLive q w nv g)) else [])

/-- One Q tile of a pass: K-group g, columns from c0 (R94 R131 R137). -/
def qTile (s : State) (b : Bulk) (ls : Tbl Byte) (d : Desc) (ext : Nat × Nat × Nat) (g c0 : Nat) : List Byte :=
  match d.qMode with
  | 0 => liveTile d.qf d.w (min d.w (ext.2.1 - c0)) (kLive ext.2.2 g) g fun o n =>
      opRead s b ls d.qLocal (d.qAddr + c0 / d.w * d.qStride + g * qTileSize d.qf d.w + o) n
  | m =>
    (List.range 8).flatMap fun i =>
      let k := 8 * g + i
      packBits (widthOf d.qf) ((List.range d.w).map fun j =>
        if ext.2.2 ≤ k || ext.2.1 ≤ c0 + j then 0
        else if m = 1 then
          let o := (c0 + j) * widthOf d.qf
          leNat (opRead s b ls d.qLocal (d.qAddr + k * d.qStride + o / 8) 8) / 2 ^ (o % 8) % 2 ^ widthOf d.qf
        else leNat (readTbl ls (qTapAddr ls d k (c0 + j)) (widthOf d.qf / 8)))

/-- K-group g of a row block's P is fed as a zero-filled group: no scale span reaches it (R138). -/
def zeroFed (d : Desc) (k g : Nat) : Bool := kLive k g = 0 && !scaledP d.pf d.accT
/-- Base-form blocks of a row block: `mv` live rows, K extent `k`. -/
def pBlocks (s : State) (b : Bulk) (ls : Tbl Byte) (d : Desc) (r0 mv k : Nat) : List (List Byte) :=
  let st := pStride s b ls d
  let base := (st - planeOff d.pf) / 64
  let at_ (g : Nat) : Nat := pBlockAt d st (r0 / 64) g
  let kg0 := blkKgroup (opRead s b ls d.pLocal (at_ 0) 64)
  (List.range (d.kgroups k)).map fun g =>
    if zeroFed d k g then zeroBlock d.pf base (kg0 + g) else liveBlock d.pf base mv (kLive k g) fun o n => opRead s b ls d.pLocal (at_ g + o) n

/-- Virtual ranges that the blocks of a row block are read from (address, length). -/
def pRanges (s : State) (b : Bulk) (ls : Tbl Byte) (d : Desc) (r0 mv k : Nat) : List (Nat × Nat) :=
  let st := pStride s b ls d
  if d.pLocal then [] else
    (if isLF d.pf then [(d.pAddr, 64)] else []) ++ (List.range (d.kgroups k)).flatMap fun g =>
      if zeroFed d k g then [] else (blkSpans d.pf ((st - planeOff d.pf) / 64) mv (kLive k g)).map fun (o, n) => (pBlockAt d st (r0 / 64) g + o, n)
/-- Virtual ranges that the tiles of a column group are read from. -/
def qRanges (d : Desc) (c0 nv k : Nat) : List (Nat × Nat) :=
  if d.qLocal then [] else
    match d.qMode with
    | 0 => (List.range (d.kgroups k)).flatMap fun g =>
        (tileSpans d.qf d.w nv (kLive k g) g).map fun (o, n) => (d.qAddr + c0 / d.w * d.qStride + g * qTileSize d.qf d.w + o, n)
    | 1 => (List.range k).map fun i => (d.qAddr + i * d.qStride + c0 * widthOf d.qf / 8, cdiv (nv * widthOf d.qf) 8)
    | _ => []

/-- Live rows and columns of a pass. -/
def liveOf (d : Desc) (y : PassBuf) : Nat × Nat :=
  (min 64 (y.ext.1 - (d.passAt y.tile y.pass).1), min d.w (y.ext.2.1 - (d.passAt y.tile y.pass).2))

/-! Panels (R135): P is kept when c > 1, Q when r > 1, while the same tile or the next one reads them. -/

/-- The kept panel of P (`q` false) or of Q that a pass reads. -/
def Prog.held (g : Prog) (q : Bool) (y : PassBuf) : Option Pan :=
  let d : Desc := g.desc
  let (r, c) := d.passAt y.tile y.pass
  let lv := liveOf d y
  g.panel.find? fun x => x.q == q && x.pos = (if q then c else r) && x.live = (if q then lv.2 else lv.1) && x.k = y.ext.2.2
/-- The panels after a pass's operands are there: the pass's own first; two row blocks of P where r > 1, else one; the
column groups of Q that the tile or the one before it read. -/
def Prog.keep (g : Prog) (y : PassBuf) (bs qs : List (List Byte)) (el : List Bool) : List Pan :=
  let d : Desc := g.desc
  let (r, c) := d.passAt y.tile y.pass
  let lv := liveOf d y
  let own (q : Bool) (x : Pan) : Bool := x.q == q && x.pos = (if q then c else r)
  let ps := (if d.cN < 2 then [] else { q := false, pos := r, live := lv.1, k := y.ext.2.2, tile := y.tile, data := bs, elig := el } ::
    g.panel.filter fun x => !x.q && !own false x)
  let qs := (if d.rN < 2 then [] else { q := true, pos := c, live := lv.2, k := y.ext.2.2, tile := y.tile, data := qs } ::
    g.panel.filter fun x => x.q && !own true x)
  let prev := (qs.filter (·.tile < y.tile)).foldl (fun a x => max a x.tile) 0
  ps.take (if 1 < d.rN then 2 else 1) ++ qs.filter fun x => decide (prev ≤ x.tile)

/-! The operand buffer (R93 R136): the local-store bytes that hold what was fetched. DESIGN CHOICE (notes/assumptions/64.md): the spec
gives the parts and their sizes, not their order; here the detail ring, then Q, then P, then run-ahead data. -/

/-- Bytes of a slot for a block of P, of the detail ring, and of the Q part (R136). -/
def Desc.slotP (d : Desc) : Nat := baseSize d.pf 1 + (if d.retake = 1 || (d.retake = 2 && !d.late) then 64 * d.detailMax else 0)
def Desc.ringBytes (d : Desc) : Nat := if d.retake = 2 && d.late then d.lag * 64 * d.detailMax else 0
def Desc.qBytes (d : Desc) : Nat :=
  if d.qLocal && d.qMode = 0 then 0 else (if d.qMode != 2 && decide (1 < d.rN) then cdiv d.kExt 8 * d.cN else 32) * qTileSize d.qf d.w
/-- Blocks of P and tiles of Q of a pass of the current tile, each at its slot: a panel's, or a ring's of 32. -/
def opbufSlots (d : Desc) (y : PassBuf) (bs qs : List (List Byte)) : List (Nat × List Byte) :=
  let g := cdiv d.kExt 8
  let q0 := d.opbuf + d.ringBytes
  let slot (panel : Bool) (n x : Nat) : Nat := if panel then n * g + x else x % 32
  ((List.range (min g qs.length)).map fun x =>
    (q0 + slot (d.qMode != 2 && decide (1 < d.rN)) (y.pass % d.cN) x * qTileSize d.qf d.w, qs.getD x [])) ++
  (List.range (min g bs.length)).map fun x =>
    (q0 + d.qBytes + slot (decide (1 < d.cN)) (if 1 < d.rN then y.pass / d.cN % 2 else 0) x * d.slotP, (bs.getD x []).take d.slotP)
/-- The tile at work: that of the oldest pass not stored, or of the next pass. -/
def Prog.now (g : Prog) (y : PassBuf) : Nat := ((g.flight ++ g.buf ++ [y]).map (·.tile)).headD y.tile
/-- Operand-buffer bytes of the tiles fetched beyond the one at work. -/
def Prog.aheadBytes (g : Prog) (y : PassBuf) : Nat := ((g.buf.filter fun z => decide (g.now y < z.tile)).map (·.own)).foldl (· + ·) 0
def opbufPut (g : Prog) (y : PassBuf) (bs qs : List (List Byte)) (ls : Tbl Byte) : Tbl Byte :=
  let d : Desc := g.desc
  if g.now y < y.tile then
    let a := d.footprint + g.aheadBytes y
    writeBlock ls (d.opbuf + a) ((qs.flatten ++ bs.flatten).take (d.opbufSize - a))
  else (opbufSlots d y bs qs).foldl (fun ls x => writeBlock ls x.1 x.2) ls

/-! ### Stores (R119 to R121, R147) -/

/-- The value of output (i, j) of a pass in its banks (R56). -/
def bankVal (c : Core) (d : Desc) (bank : Bool) (i j : Nat) : FVal :=
  let e := 32 * i + j % 32
  match d.mode with
  | .deep => dec64 (pair (c.acc0.get e) (c.acc1.get e))
  | md =>
    let t := if md = .wide then (if j < 32 then c.acc0 else c.acc1) else if bank then c.acc1 else c.acc0
    if d.accT = 2 then .fin (Dy.ofInt (t.get e).toInt 0) else dec32 (t.get e)

/-- Bin of an element (R124): 0 to 63, 64 zero, 65 subnormal, 66 infinity, 67 NaN. -/
def lmBin (accT : Nat) (v : FVal) : Nat :=
  match v with
  | .nan => 67
  | .inf _ => 66
  | .fin x =>
    if x.m = 0 then 64
    else if (accT = 0 && decide (x.lg < -126)) || (accT = 1 && decide (x.lg < -1022)) then 65
    else (min (max x.lg (-32)) 31 + 32).toNat

/-- The element format of a floating destination, LF with its planes as an explicit significand (R86). -/
def cFmt (d : Desc) : Option Fmt :=
  if isLF d.cf then some ⟨lfE d.cf, d.cBase + d.cDetail - 1, 2 ^ (lfE d.cf - 1) - 1, 0⟩ else fmtOf d.cf
/-- Convert a value, its scale exponent divided out (R99 to R103, R120). -/
def cConv (d : Desc) (draw : Nat) (x : Int) (v : FVal) : Conv :=
  let rnd : Rnd := if d.sr then .sr else .rne
  let v' : FVal := match v with | .fin y => .fin { y with e := y.e - x } | v => v
  if isLF d.cf then (match cFmt d with | some f => toF f true rnd draw v' | none => {})
  else if isLI d.cf then toI (d.cPlanes + d.cDetail) (-(d.cDetail : Int)) rnd draw v'
  else if d.cf = 0x30 then
    let r := toI 2 0 rnd draw v'
    if r.bits = 2 then { r with bits := 3, sat := true } else r
  else convTo d.cf rnd draw v'

/-- A pass's converted elements and its scale bytes. -/
structure PassOut where
  enc : List (List Nat) := []
  scales : Tbl Nat := []
  sat : Nat := 0
  flush : Nat := 0
  elements : Nat := 0
  nanScale : Bool := false
  deriving DecidableEq, Repr, Inhabited

/-- Draws of a pass (R96 R97). -/
def drawsGo : Nat → Word → List Nat
  | 0, _ => []
  | n + 1, s => let r := xs s; r.toNat :: drawsGo n r

/-- Scale group of an element: 32 consecutive along K, which is the column of a BLOCK and the row of a QTILE. -/
def gKeyOf (d : Desc) (i j : Nat) : Nat := if d.layout = 1 then 64 * i + j / 32 else 64 * j + i / 32

/-- The conversion of a pass's live elements: `mv` rows, `nv` columns. -/
def passConv (c : Core) (d : Desc) (bank : Bool) (seed : Word) (va mv nv : Nat) : PassOut :=
  let val (i j : Nat) : FVal := bankVal c d bank i j
  let draws := if d.sr then drawsGo (64 * d.w) (srStart seed va) else []
  let keys := (List.range mv).flatMap fun i => (List.range nv).map fun j => (gKeyOf d i j, i, j)
  let grp (k : Nat) : List FVal := (keys.filter (·.1 = k)).map fun x => val x.2.1 x.2.2
  let sb (k : Nat) : Nat := scaleByte (if isLI d.cf then (d.cPlanes : Int) - 2 else emaxOf d.cf) (grp k)
  let scales : Tbl Nat := if scaledFmt d.cf then (keys.map (·.1)).eraseDups.foldl (fun t k => t.put k (sb k)) [] else []
  let one (i j : Nat) : Conv :=
    let b := scales.get (gKeyOf d i j)
    if scaledFmt d.cf && b = 0xFF then {}
    else cConv d (draws.getD (i * d.w + j) 0) (if scaledFmt d.cf then (b : Int) - 127 else 0) (val i j)
  let conv := (List.range mv).map fun i => (List.range nv).map fun j => one i j
  let all := conv.flatten
  { enc := conv.map (List.map (·.bits)), scales := scales, sat := (all.filter (·.sat)).length, flush := (all.filter (·.flush)).length
    elements := mv * nv, nanScale := scales.any fun x => x.2 = 0xFF }

/-! Layouts -/

def elemAt (o : PassOut) (i j : Nat) : Nat := (o.enc.getD i []).getD j 0

/-- The bits of a stored block element: sign, class, field, and its planes as one number (R87). -/
def blockElem (d : Desc) (bits : Nat) : Bool × Bool × Nat × Nat :=
  match cFmt d with
  | some f =>
    let ef := bits / 2 ^ f.mb % 2 ^ f.eb
    let mf := bits % 2 ^ f.mb
    let nan := match decodeF f bits with | .nan => f.spec != 0 | _ => false
    (bits / 2 ^ (f.mb + f.eb) % 2 = 1, nan, ef, (if ef = 0 then 0 else 2 ^ f.mb) + mf)
  | none => (false, false, 0, bits)

def byteOf (f : Nat → Bool) : Byte := BitVec.ofNat 8 ((List.range 8).foldl (fun a k => a + (if f k then 2 ^ k else 0)) 0)
/-- Planes written for an element: base and detail. -/
def Desc.allPlanes (d : Desc) : Nat := d.cPlanes + (if isLayered d.cf then d.cDetail else 0)

/-- A plane block in base form and its detail planes; `el i k` the element's bits, `sc i` the row's scale byte. -/
def buildBlock (d : Desc) (kg mb n : Nat) (el : Nat → Nat → Nat) (sc : Nat → Nat) : List Byte × List Byte :=
  let x (i k : Nat) := blockElem d (el i k)
  let plane (p : Nat) : List Byte := (List.range 64).map fun i => byteOf fun k => (x i k).2.2.2.testBit (d.allPlanes - 1 - p)
  let dt := if isLayered d.cf then d.cDetail else 0
  let hdr := [BitVec.ofNat 8 d.cf, BitVec.ofNat 8 d.cPlanes, BitVec.ofNat 8 dt, BitVec.ofNat 8 (if d.sr then 2 else 0)] ++
    leBytes 4 (n * dt) ++ leBytes 4 kg ++ leBytes 4 mb ++ zeros 32 ++
    (List.range 16).map fun t => BitVec.ofNat 8 (if scaledFmt d.cf then sc (16 * (kg % 4) + t) else 0x7F)
  let sign := if pSign d.cf then (List.range 64).map (fun i => byteOf fun k => (x i k).1) else []
  let cls := if pClass d.cf then (List.range 64).map (fun i => byteOf fun k => (x i k).2.1) else []
  let exps := packBits (pExpW d.cf) ((List.range 512).map fun m => (x (m / 8) (m % 8)).2.2.1)
  (hdr ++ sign ++ cls ++ (if pSign d.cf then exps else []) ++ (List.range d.cPlanes).flatMap plane,
   (List.range dt).flatMap fun p => plane (d.cPlanes + p))

/-- A piece of a store: bytes at an address, or masked bits of a byte. -/
inductive Piece where
  | bytes (a : Nat) (l : List Byte)
  | bits (a mask val : Nat)
  | detail (a : Nat) (l : List Byte)
  | mark (a mask val : Nat)
  deriving DecidableEq, Repr, Inhabited
def Piece.range : Piece → Nat × Nat
  | .bytes a l => (a, l.length) | .bits a _ _ => (a, 1) | .detail a l => (a, l.length) | .mark a _ _ => (a, 1)

/-- Little-endian run of elements; a byte shared with an element that is not written keeps that element's bits. -/
def rowPieces (a w : Nat) (els : List Nat) : List Piece :=
  let n := w * els.length
  let l := packBits w els
  let whole : List Piece := if n / 8 = 0 then [] else [.bytes a (slice l 0 (n / 8))]
  if n % 8 = 0 then whole else whole ++ [.bits (a + n / 8) (2 ^ (n % 8) - 1) (byteN l (n / 8))]

/-- Element of a ROW destination after ADD or SUB with its old content (R147). -/
def addSub (d : Desc) (old : Nat) (v : FVal) : Nat :=
  if d.accT = 2 then
    let c := sext 32 old
    let a : Int := (v.dy.toInt 0)
    let t := if d.op = 1 then c + a else c - a
    (max (-(2 ^ 31)) (min t (2 ^ 31 - 1)) % 2 ^ 32).toNat
  else
    let nv : FVal := if d.op = 1 then v else (match v with | .fin x => .fin { x with neg := !x.neg } | .inf n => .inf (!n) | .nan => .nan)
    if d.accT = 1 then (enc64 .rne (fAdd .rne (decodeE 1 old) nv)).toNat else (enc32 .rne (fAdd .rne (decodeE 2 old) nv)).toNat

def rowAt (d : Desc) (r c : Nat) : Nat := d.cAddr + d.cStride * r + c * widthOf d.cf / 8
/-- K-groups of the stored tensor (R92): a row of its blocks is contiguous, so C_STRIDE holds all of them (DEDUCED,
notes/assumptions/63.md). -/
def Desc.cKgroups (d : Desc) : Nat :=
  if d.cStride < baseSize d.cf d.cBase then (if scaledFmt d.cf then 4 * cdiv d.nExt 32 else cdiv d.nExt 8) else d.cStride / baseSize d.cf d.cBase
def blockAt (d : Desc) (mb kg : Nat) : Nat := d.cAddr + mb * d.cStride + kg * baseSize d.cf d.cBase
def qTileAt (d : Desc) (cb t : Nat) : Nat := d.cAddr + cb * d.cStride + t * qTileSize d.cf (qCols d.cf)

/-- Lowest address of the pass's output (R97). DEDUCED (notes/assumptions/63.md): a pass of 32 columns of a Q tile of 64 counts from the tile's
first byte, since R147 writes every tile that a pass touches whole; a layered store counts from its blocks, its layout's
output, and not from its detail planes and bitmap. -/
def firstAddr (d : Desc) (r0 c0 : Nat) : Nat :=
  match d.layout with
  | 0 => rowAt d r0 c0
  | 1 => blockAt d (r0 / 64) (c0 / 8)
  | _ => qTileAt d (c0 / qCols d.cf) (r0 / 8)

/-- Pieces of a ROW store; `old` reads the destination. -/
def rowStore (d : Desc) (old : Nat → Nat → List Byte) (val : Nat → Nat → FVal) (o : PassOut) (r0 c0 mv nv : Nat) : List Piece :=
  let w := widthOf d.cf
  (List.range mv).flatMap fun i =>
    let a := rowAt d (r0 + i) c0
    if d.op = 0 then rowPieces a w ((List.range nv).map fun j => elemAt o i j)
    else
      let b := old a (cdiv (nv * w) 8)
      rowPieces a w ((List.range nv).map fun j => addSub d (fieldN b (j * w / 8) (w / 8)) (val i j))

/-- Pieces of a BLOCK store: the blocks that hold a live element, for a scaled format all of their spans. -/
def blockStore (d : Desc) (o : PassOut) (r0 c0 mv nv : Nat) : List Piece :=
  let per := if scaledFmt d.cf then 4 else 1
  let nb := min (cdiv nv (8 * per) * per) (d.w / 8)
  let mb := r0 / 64
  let one (b : Nat) : List Byte × List Byte :=
    buildBlock d (c0 / 8 + b) mb (mb * d.cKgroups + c0 / 8 + b) (fun i k => if i < mv && 8 * b + k < nv then elemAt o i (8 * b + k) else 0)
      (fun i => if i < mv then o.scales.get (64 * i + 8 * b / 32) else 0)
  let num (b : Nat) : Nat := mb * d.cKgroups + c0 / 8 + b
  (List.range nb).map (fun b => Piece.bytes (blockAt d mb (c0 / 8 + b)) (one b).1) ++
  (if !d.layered then [] else (List.range nb).flatMap fun b =>
    let dt := (one b).2
    let bit := if d.nonzero && dt.all (· == 0) then 0 else 1
    [.detail (d.cDetailAddr + 64 * num b * d.cDetail) dt, .mark (d.cBitmapAddr + num b / 8) (2 ^ (num b % 8)) (bit * 2 ^ (num b % 8))])

/-- Pieces of a QTILE store. A pass of 32 columns writes its half of a tile of 64, and the other half where no pass
covers it. -/
def qtileStore (d : Desc) (o : PassOut) (ext : Nat × Nat × Nat) (r0 c0 mv nv : Nat) : List Piece :=
  let qc := qCols d.cf
  let w := widthOf d.cf
  let kk := if isMx d.cf then 32 else 8
  let rows := min 64 (cdiv mv kk * kk)
  let step := min qc d.w
  let hi := c0 + min d.w (cdiv nv step * step)
  let hi := if hi % qc != 0 && ext.2.1 ≤ hi then hi + qc - hi % qc else hi
  let el (i j : Nat) : Nat := if i < mv && j < nv then elemAt o i j else 0
  let n := hi - c0
  let body := (List.range rows).flatMap fun i =>
    (List.range (cdiv n step)).map fun x =>
      let col := c0 + x * step
      Piece.bytes (qTileAt d (col / qc) ((r0 + i) / 8) + w * (qc * ((r0 + i) % 8) + col % qc) / 8)
        (packBits w ((List.range (min step (hi - col))).map fun j => el i (x * step + j)))
  let per := qc / 4
  let segs := if !isMx d.cf then [] else (List.range (rows / 8)).flatMap fun t =>
    (List.range (cdiv n qc)).flatMap fun x =>
      let cb := c0 / qc + x
      let first := cb * qc + per * ((r0 / 8 + t) % 4)
      if c0 ≤ first && first + per ≤ hi then
        [Piece.bytes (qTileAt d cb (r0 / 8 + t) + qElemBytes d.cf qc)
          ((List.range per).map (fun u => BitVec.ofNat 8 (if first + u - c0 < nv then o.scales.get (64 * (first + u - c0) + 8 * t / 32) else 0)) ++ zeros (64 - per))]
      else []
  body ++ segs

end Sys2Proof.Machine
end

