-- ==== Sys2Proof/Machine/Array.lean ====
section
/-! DEFINITION. Instructions of the array and the tile sequencer (R54, R58 to R63, R76, R79, R91, R114, R127 to R129,
R138, R139, R176). -/
namespace Sys2Proof.Machine

/-! ### The holder (R58) -/

/-- A group becomes the holder of an array without one: extents and fraction are as a new holder finds them. -/
def acquire (x : Iss) (s : State) : State :=
  let s := s.onGroup x.k fun g => { g with arrBlock := none }
  if (s.core x.p).holder.isSome then s
  else s.onCore x.p fun c =>
    { c with holder := some x.g.slot, lmKey := x.g.launch, rn := 8, em := 0xFFFFFFFF, en := 0xFFFFFFFF, ek := 0xFFFFFFFF }

/-- Begin a group instruction of the array: blocked while another group holds it, or while the holder's programs
(`progs`) have not completed. -/
def beginArray (i : Ins) (h : Shape) (progs : Bool) (s : State) : Beg :=
  match begin_ i { h with grp := true } s with
  | .go x t =>
    let c := s.core x.p
    match c.holder with
    | some o =>
      if o != x.g.slot then .bad (s.onGroup x.k fun g => { g with arrBlock := some (g.arrBlock.getD s.now) })
      else if progs && !c.progs.isEmpty then .bad s
      else .go x (acquire x t)
    | none => .go x (acquire x t)
  | b => b

/-- A uniform operand of a group instruction; a vector register in its place gives a free value. -/
def uval (x : Iss) (s : State) (n : Nat) (a : Src) : Nat := (uniSrc x.g (Config.freeValue (s.freeN + n)) a).toNat % 2 ^ 32
def uniUse (l : List Src) (s : State) : State := if l.any fun a => !(srcRegs (a, false)).isEmpty then s.onFreeN (· + l.length) else s

/-! ### MMA -/

/-- The blocks and tiles of an MMA, none where an operand check fails (R54 R62 R79 R91). DEDUCED (notes/assumptions/63.md): a Q tile carries
no KGROUP, so R94's requirement on the first tile of an MX Q is judged by the KGROUP of the first P block. -/
def mmaOperands (g : Group) (n pf qf accT pa qa : Nat) : Option (List (List Byte) × List (List Byte)) :=
  match (if pCapable pf && qCapable qf then mmaMode pf qf accT else none) with
  | none => none
  | some md =>
    let qs := qTileSize qf md.cols
    let spans := scaledP pf accT || isMx qf
    if n = 0 || 1024 < n || pa % 64 != 0 || qa % 64 != 0 || g.lsSize < qa + n * qs || (spans && n % 4 != 0) then none
    else match readBlocks g.ls g.lsSize pf accT n 0 pa with
      | none => none
      | some bs =>
        if spans && blkKgroup (bs.headD []) % 4 != 0 then none
        else some (bs, (List.range n).map fun t => readTbl g.ls (qa + t * qs) qs)

/-- MMA: the operands are checked and the MMA enters the array queue. -/
def execMma (i : Ins) (g pf qf accT : Nat) (bank zero : Bool) (retake : Nat) (s : State) : Out :=
  match beginArray i { srcs := [(i.a, false), (i.b, false)], ok := decide (accT < 3) && decide (retake < 3) } true s with
  | .no => .next s
  | .bad s => .next s
  | .go x t =>
    if 4 ≤ (s.core x.p).mq.length then .next s
    else
      let pa := uval x s 0 i.a
      let qa := uval x s 1 i.b
      let t := uniUse [i.a, i.b] t
      match mmaOperands x.g g pf qf accT pa qa with
      | none => .next (illegal i x 4 t)
      | some (bs, ts) =>
        let id := x.g.nextId
        let m : Mma :=
          { owner := x.g.slot, winId := id, pfmt := pf, qfmt := qf, accT := accT, bank := bank, zero := zero, retake := retake
            rn := (t.core x.p).rn, g := g, blocks := bs, tiles := ts }
        let w : Win := { id := id, lanes := x.set_, setm := x.set_, pc := i.pc, use := .mma }
        .next ((t.onCore x.p fun c => { c with mq := c.mq ++ [m] }).onGroup x.k fun g =>
          ({ g with win := g.win ++ [w], nextId := id + 1 }).advance x.lanes (after i))

/-! ### ACC.READ and ACC.CLEAR -/

/-- An earlier MMA or K-loop targets the bank (R60). -/
def bankBusy (c : Core) (bank : Bool) : Bool := c.mq.any (·.targets bank)

/-- ACC.READ: thread t receives column t of a row; the row number is an immediate or in a uniform register. -/
def execAccRead (i : Ins) (bank : Bool) (row : Nat) (status : Option Nat) (s : State) : Out :=
  let srcs : List (Src × Bool) := match i.a with | .u n => [(.u n, false)] | _ => []
  match beginArray i { srcs := srcs, dst := i.dst, ok := decide (row < 64) && (match status with | some p => decide (p < 8) | none => true) } true s with
  | .no => .next s
  | .bad s => .next s
  | .go x t =>
    let c := t.core x.p
    if bankBusy c bank then .next s
    else
      let r := match i.a with | .u n => (x.g.uget n).toNat % 64 | _ => row
      let acc := if bank then c.acc1 else c.acc0
      let sat := if bank then c.sat1 else c.sat0
      .next (finish i x (fun l => [(i.dst, acc.get (32 * r + l))] ++ (match status with | some p => wpred x.g l p sat | none => [])) [] (after i) t)

/-- ACC.CLEAR: the named banks and their SAT bits are zeroed, the fraction is set, the array is released. -/
def execAccClear (i : Ins) (banks : BitVec 2) (release : Bool) (setN : Option Nat) (s : State) : Out :=
  let ok := match setN with | some n => decide (1 ≤ n) && decide (n ≤ 24) | none => true
  match beginArray i { early := false, ok := ok } true s with
  | .no => .next s
  | .bad s => .next s
  | .go x t =>
    let c := t.core x.p
    let z0 := banks.getLsbD 0
    let z1 := banks.getLsbD 1
    if (z0 && bankBusy c false) || (z1 && bankBusy c true) || (release && !c.mq.isEmpty) then .next s
    else
      let t := t.onCore x.p fun c =>
        { c with acc0 := if z0 then [] else c.acc0, sat0 := c.sat0 && !z0, acc1 := if z1 then [] else c.acc1, sat1 := c.sat1 && !z1, rn := setN.getD c.rn }
      let t := if release then arrRelease x.p t else t
      .next (finish i x (fun _ => []) [] (after i) t)

/-! ### The tile sequencer -/

/-- A refused descriptor parks the group with its reason (R129). -/
def tseqRefuse (i : Ins) (x : Iss) (reason : Nat) (s : State) : State :=
  faultGroup x.k { cause := cIllegal, detail := 5, reason := reason, pc := i.pc, threads := x.mask, setm := x.set_, lanes := x.set_ } 0 s

/-- TSEQ.START: the descriptor is copied, checked and queued; two programs find room. -/
def execTseqStart (i : Ins) (s : State) : Out :=
  match beginArray i { early := false, srcs := [(i.a, false)] } false s with
  | .no => .next s
  | .bad s => .next s
  | .go x t =>
    if 2 ≤ (s.core x.p).progs.length then .next s
    else
      let off := uval x s 0 i.a
      let t := uniUse [i.a] t
      if off % 64 != 0 then .next (tseqRefuse i x 5 t)
      else if x.g.lsSize < off + 256 then .next (tseqRefuse i x 10 t)
      else
        let d := readTbl x.g.ls off 256
        match tseqReason d off x.g.lsSize with
        | some r => .next (tseqRefuse i x r t)
        | none =>
          .next (finish i x (fun _ => []) [] (after i) (t.onCore x.p fun c => { c with progs := c.progs ++ [{ desc := d, pc := i.pc }] }))

/-- A TSEQ.WAIT performed in shadow keeps what it returned, for a squash to put back (R164). -/
def notePop (x : Iss) (r : Nat × Nat) (s : State) : State :=
  if x.shadow then s.onGroup x.k fun g => { g with win := g.win.map fun w => if w.id + 1 = g.nextId then { w with popped := some r } else w } else s

/-- TSEQ.WAIT: status and tile index of the oldest program that no TSEQ.WAIT has returned. -/
def execTseqWait (i : Ins) (us ut : Nat) (s : State) : Out :=
  match beginArray i { unis := [(us, false), (ut, false)] } false s with
  | .no => .next s
  | .bad s => .next s
  | .go x t =>
    match (t.core x.p).doneProgs with
    | [] => .next s
    | (st, tile) :: rest =>
      .next (notePop x (st, tile) (finish i x (fun _ => []) [(us, BitVec.ofNat 32 st), (ut, BitVec.ofNat 32 tile)] (after i)
        (t.onCore x.p fun c => { c with doneProgs := rest })))

/-- New extents discard what was fetched for tiles whose first pass has not started; they reopen no program whose last
pass has been stored (R139 R146; DEDUCED, notes/assumptions/63.md). -/
def Prog.refetch (c : Core) (g : Prog) : Prog :=
  let keep (tile : Nat) : Bool := g.tileExt.isSome && tile = g.tile
  if g.isOver c then { g with ended := true } else
  { g with panel := g.panel.filter (fun x => keep x.tile), buf := g.buf.filter (fun x => keep x.tile), fetchBad := g.fetchBad.filter (fun x => keep x.2.1), got := [], bad := [] }

def execExtentSet (i : Ins) (s : State) : Out :=
  match beginArray i { early := false, srcs := [(i.a, false), (i.b, false), (i.c, false)] } false s with
  | .no => .next s
  | .bad s => .next s
  | .go x t =>
    let em := uval x s 0 i.a
    let en := uval x s 1 i.b
    let ek := uval x s 2 i.c
    .next (finish i x (fun _ => []) [] (after i) ((uniUse [i.a, i.b, i.c] t).onCore x.p fun c =>
      { c with em := em, en := en, ek := ek, progs := c.progs.map (Prog.refetch c) }))

end Sys2Proof.Machine
end

