-- ==== Sys2Proof/Machine/ArrayEvents.lean ====
section
/-! DEFINITION. What the array does by itself: plane steps and their checks, K-group updates, retake runs and
retirement (R60, R63 to R65, R71 to R76, R110 to R118, R183). -/
namespace Sys2Proof.Machine

/-- The group key of the holder. -/
def holderKey (s : State) (p : Nat) : Option Nat :=
  match logOf s.mesh p, (s.core p).holder with
  | some c, some slot => some (gKey c slot)
  | _, _ => none
/-- Add to an accounting field of the holder's context. -/
def acctHolder (p off n : Nat) (s : State) : State :=
  match holderKey s p with
  | some k => acctAdd (s.group k).ctx off n s
  | none => s

/-- The MMA or K-loop that is updated: the first whose last update has not been made. -/
def workOf (c : Core) : Option Mma := c.mq.find? (!·.fin)
/-- Change the first of the queue that `q` does not hold of. -/
def onFirst (q : Mma → Bool) (f : Mma → Mma) : List Mma → List Mma
  | [] => []
  | m :: t => if q m then m :: onFirst q f t else f m :: t
def onWork (p : Nat) (f : Mma → Mma) (s : State) : State := s.onCore p fun c => { c with mq := onFirst (·.fin) f c.mq }
/-- The MMA or K-loop that is fed: the first with a plane step to feed (R65: it may follow one still to be updated). -/
def feedOf (c : Core) : Option Mma := c.mq.find? (!·.fed)
def onFeed (p : Nat) (f : Mma → Mma) (s : State) : State := s.onCore p fun c => { c with mq := onFirst Mma.fed f c.mq }

def Core.banks (c : Core) : Banks := { a0 := c.acc0, a1 := c.acc1, s0 := c.sat0, s1 := c.sat1 }
/-- The banks after an MMA's results are taken into the ones it targets. -/
def Mma.into (m : Mma) (b : Banks) : Banks :=
  let b := if m.targets false then { b with a0 := m.a0, s0 := m.s0 } else b
  if m.targets true then { b with a1 := m.a1, s1 := m.s1 } else b
/-- What the next MMA builds on: the banks with the results of finished MMAs that have not retired (R183). -/
def baseBanks (c : Core) : Banks := (c.mq.span (·.fin)).1.foldl (fun b m => m.into b) c.banks

/-- The banks an update of an MMA starts from; a zero start begins with zero and SAT clear (R57). -/
def startBanks (c : Core) (m : Mma) : Banks :=
  if m.nextG != 0 || !m.due.isEmpty then { a0 := m.a0, a1 := m.a1, s0 := m.s0, s1 := m.s1 }
  else if m.zero then {} else baseBanks c
def Mma.hold (m : Mma) (b : Banks) : Mma := { m with a0 := b.a0, a1 := b.a1, s0 := b.s0, s1 := b.s1 }
/-- The last update has been made once every base run and every owed retake run has. -/
def Mma.close (m : Mma) : Mma := { m with fin := m.nextG = m.g && m.due.all m.ran.contains }

/-- A bank the MMA targets is still being read by a store: passes whose K-loop has retired and whose store is not
complete (R60). -/
def unstored (c : Core) : List PassBuf :=
  match c.progs.find? (!·.flight.isEmpty) with
  | some g => g.flight.take (g.flight.length - (c.mq.filter (·.kloop)).length)
  | none => []
def bankRead (c : Core) (m : Mma) : Bool := (unstored c).any fun x => m.mode != .single || x.bank == m.bank

/-! ### Checks of plane steps (R71 to R75) -/

/-- The park of a holder whose MMA or K-loop met a double fault: its record is written; Plowin replays the group
(R74 R388). -/
def arrayPark (p : Nat) (m : Mma) (s : State) : State :=
  match holderKey s p with
  | none => s
  | some k =>
    let g := s.group k
    let w := (g.win.find? (·.id = m.winId)).getD {}
    let pc := if m.kloop then ((s.core p).cur.getD {}).pc else w.pc
    let lanes := if m.kloop then maskOf g.alive else w.lanes
    let pk : Park := { cause := cArray, policy := 2, pc := pc, threads := lanes, setm := if m.kloop then maskOf (g.setOfPc pc) else w.setm, lanes := lanes }
    ringPush (s.ctx g.ctx).fn .park g.ctx true (parkRec g pk p s.now (s.launches.get g.launch).seq) s

/-- An array double fault: record, the MMA and the later ones squashed, park record, core fenced and replaced. -/
def doubleFault (p : Nat) (m : Mma) (s : State) : State :=
  let s := errAdd (coreRec s p clArray sevContained) s
  let s := s.onCore p fun c => { c with mq := [] }
  coreFault p false (arrayPark p m s)

/-- A failed check: the step is fed again once; a repeated failure in one cell switches a spare in; anything else is
a double fault. `rows`, `cols`: the failing checks; with a residue failure the fault is not located, and none is named. -/
def checkFail (p : Nat) (m : Mma) (rows cols : List Nat) (s : State) : State :=
  let c := s.core p
  if m.fails = 0 then onFeed p (fun m => { m with fails := 1 }) s
  else if m.fails = 1 then
    match rows, cols with
    | [i], [j] =>
      if c.spareRow.isNone then s.onCore p fun c => { c with spareRow := some i, switching := 1 + 256 * i }
      else if c.spareCol.isNone then s.onCore p fun c => { c with spareCol := some j, switching := 2 + 256 * j }
      else doubleFault p m s
    | _, _ => doubleFault p m s
  else doubleFault p m s

/-- The plane step passed its checks and is folded. One that passed when it was fed again is recorded; replays are not
counted (R72 R75 R77). -/
def checkPass (p : Nat) (m : Mma) (r : Run) (l : Latch) (check : Check) (s : State) : State :=
  let s := if m.fails = 1 then errAdd (coreRec s p clArray sevCorrected) s else s
  let r2 : Run := { r with step := r.step + 1, sums := m.fold (m.krun r) l check r.step r.sums }
  acctHolder p aPlaneSteps 1 (onFeed p (fun m => { m with runs := m.runs.dropLast ++ [r2], fails := 0 }) s)

/-- The run whose plane steps are fed: the last one begun while it has steps left, or the next base run, which begins unless
the slot of a retake run has come. -/
def Mma.feed (m : Mma) : Option Run :=
  match m.runs.getLast? with
  | some r => if !m.whole r then some r else if m.begun < m.g && !m.slotHeld then some { g := m.begun } else none
  | none => if m.begun < m.g && !m.slotHeld then some { g := m.begun } else none

/-- Plane steps fed behind the oldest run that awaits its update (R65: that update falls 12 steps after the run's last
plane step). -/
def fedBehind (c : Core) : Nat := (((c.mq.flatMap (·.runs)).drop 1).map (·.step)).sum

/-- The MMA that is fed and its run, unless a spare switch is in progress or the update of an older run is due. -/
def feeding (s : State) (p : Nat) : Option (Mma × Run) :=
  if (s.core p).switching != 0 || !s.coreRuns p || 12 < fedBehind (s.core p) then none
  else match feedOf (s.core p) with
    | some m => m.feed.map fun r => (m, r)
    | none => none

/-- The MMA with the run that is fed begun. -/
def Mma.begin (m : Mma) (r : Run) : Mma := if r.step = 0 && m.runs.getLast? != some r then { m with runs := m.runs ++ [r] } else m

/-- The word latch for the next plane step: at the first of a pass its words are taken over, and the words that follow, of
the next pass or of the next K-group, are loaded into the other buffer (R51 R52). -/
def loadLatch (m : Mma) (r : Run) (c : Core) : Core :=
  let k := m.krun r
  if r.step % (k.hi - k.lo) != 0 then c
  else
    let pass := k.pass r.step
    { c with latch := m.latchOf r.g pass
             latchN := if pass + 1 < passesOf m.qfmt then m.latchOf r.g (pass + 1) else if m.begun < m.g then m.latchOf m.begun 0 else {} }

/-- One plane step: its words stand in the latch, the cells and the adder tree form its sums, the checksum row and column
and the residue codes are compared, and it is folded or fed again (R49 R71 R72). -/
def execPlaneStep (p : Nat) (check : Check) (s : State) : Out :=
  match feeding s p with
  | none => .next s
  | some (m0, r) =>
    let m := m0.begin r
    let s := (onFeed p (fun _ => m) s).onCore p (loadLatch m r)
    let l := (s.core p).latch
    let rows := m.failRows (m.krun r) l check r.step
    let cols := m.failCols (m.krun r) l check r.step
    if check.residue % 3 != 0 then .next (checkFail p m [] [] s)
    else if rows.isEmpty && cols.isEmpty then .next (checkPass p m r l check s)
    else .next (checkFail p m rows cols s)

/-- A spare switch ends: it is recorded with the spare and what it replaced, and the plane step that failed is fed again, if
its MMA has not been squashed meanwhile. -/
def execSpareSwitchDone (p : Nat) (s : State) : Out :=
  let w := (s.core p).switching
  if w = 0 then .next s
  else
    let t := errAdd { (coreRec s p clArray sevCorrected) with synd := w } (onFeed p (fun m => { m with fails := if m.fails = 1 then 2 else m.fails }) (s.onCore p fun c => { c with switching := 0 }))
    .next (if (s.core p).spareRow.isSome && (s.core p).spareCol.isSome then poolRec p (pDie p) t else t)

/-! ### Updates (R64 R65 R110 to R118) -/

/-- The core, its accounting and the light meter count retake runs and bounded tests (R118 R125). -/
def countRetake (p : Nat) (s : State) : State :=
  acctHolder p aRetakeRuns 1 (s.onCore p fun c => { c with retakeRuns := c.retakeRuns + 1, lm := { c.lm with retakes := c.lm.retakes + 1 } })
def countTest (p : Nat) (s : State) : State :=
  acctHolder p aRetakeTests 1 (s.onCore p fun c => { c with retakeTests := c.retakeTests + 1, lm := { c.lm with tests := c.lm.tests + 1 } })

/-- The update of a base run; the bounded test decides whether the block's detail planes will run. -/
def baseUpdate (p : Nat) (m : Mma) (b : Banks) (s : State) : State :=
  let e := m.eligible m.nextG
  let test := m.retake = 2 && e
  let need := test && m.retakeNeeded m.nextG m.rn b
  let s := if m.retake = 1 && e then countRetake p s else s
  let s := if test then countTest p s else s
  onWork p (fun m => ({ m.hold b with nextG := m.nextG + 1, runs := m.runs.drop 1, due := if need then m.due ++ [m.nextG] else m.due } : Mma).close) s
/-- The update of a retake run. -/
def retakeUpdate (p g : Nat) (b : Banks) (s : State) : State :=
  onWork p (fun m => ({ m.hold b with ran := m.ran ++ [g], runs := m.runs.drop 1 } : Mma).close) s

/-- The run that is updated next: the oldest one fed of the first MMA that is not finished; the first update of an MMA waits
for the reads of its banks (R60). -/
def updating (s : State) (p : Nat) : Option (Mma × Run) :=
  if !s.coreRuns p then none
  else match workOf (s.core p) with
    | none => none
    | some m =>
      match m.runs with
      | [] => none
      | r :: _ => if m.whole r && (m.nextG != 0 || !bankRead (s.core p) m) then some (m, r) else none

/-- Step L + 12 of a run: its sum is added to the accumulator entries. -/
def execKgroupUpdate (p : Nat) (s : State) : Out :=
  match updating s p with
  | none => .next s
  | some (m, r) =>
    let b := m.update (m.krun r) r.sums (startBanks (s.core p) m)
    .next (if r.retake then retakeUpdate p r.g b s else baseUpdate p m b s)

/-- The detail planes of a block: staged with it, or fetched after the test; none while they are not there. -/
def detailOf (m : Mma) (g : Nat) : Option (List Byte) :=
  if blkStaged (m.blk g) then some [] else if (m.dbuf.get g).isEmpty then none else some (m.dbuf.get g)

/-- A retake run is fed in its slot, as a K-group of its own (R113). -/
def execRetakeRunStart (p : Nat) (s : State) : Out :=
  match feedOf (s.core p) with
  | none => .next s
  | some m =>
    if !s.coreRuns p || !(m.runs.all m.whole) then .next s
    else match m.nextRetake with
      | none => .next s
      | some g =>
        match detailOf m g with
        | none => .next s
        | some d => .next (countRetake p (onFeed p (fun m => { m with runs := m.runs ++ [{ g := g, retake := true, detail := d }] }) s))

/-! ### Retirement (R60 R63 R183) -/

/-- An older instruction of the MMA's threads has not retired. -/
def olderThan (g : Group) (id : Nat) : Bool :=
  match g.win.find? (·.id = id) with
  | some w => g.win.any fun x => decide (x.id < id) && x.lanes &&& w.lanes != 0
  | none => false

/-- The oldest MMA retires: its results become the content of the banks. -/
def retire (p : Nat) (m : Mma) (s : State) : State :=
  let b := m.into (s.core p).banks
  let s := s.onCore p fun c => { c with mq := c.mq.drop 1, acc0 := b.a0, acc1 := b.a1, sat0 := b.s0, sat1 := b.s1 }
  if m.kloop then s
  else match holderKey s p with
    | none => s
    | some k => s.onGroup k fun g => retireSweep { g with win := g.win.map fun w => if w.id = m.winId then { w with fin := true } else w }

def execMmaRetire (p : Nat) (s : State) : Out :=
  match (s.core p).mq with
  | [] => .next s
  | m :: _ =>
    let older := match holderKey s p with | some k => !m.kloop && olderThan (s.group k) m.winId | none => false
    if m.fin && !older && !bankRead (s.core p) m && s.coreRuns p then .next (retire p m s) else .next s

end Sys2Proof.Machine
end

