-- ==== Sys2Proof/Machine/AccessOps.lean ====
section
/-! DEFINITION. What the memory instructions share: addresses, the faults of their threads, and instructions that
wait for the store buffer (R178, R179, R217, R252, R260). -/
namespace Sys2Proof.Machine

/-! ### Faults of threads -/

/-- A thread whose access faulted: its address, park cause and translation-fault reason. -/
structure LaneFault where
  lane : Nat := 0
  va : Nat := 0
  cause : Nat := 0
  reason : Nat := 0
  deriving DecidableEq, Repr, Inhabited

/-- ACCESS bits of a fault record (R261). -/
def accRead : Nat := 1
/-- RUNAHEAD: bit 4 of ACCESS (R261). -/
def accAhead : Nat := 16
def accWrite : Nat := 2
def accExec : Nat := 4
def accAtomic : Nat := 8

def MRes.fault (lane va : Nat) : MRes → Option LaneFault
  | .page r => some { lane := lane, va := va, cause := cPageFault, reason := r }
  | .denied => some { lane := lane, va := va, cause := cDenied }
  | .poison => some { lane := lane, va := va, cause := cPoison }
  | _ => none

/-- The page of an address; an address without a leaf counts as in a 64 KiB page. -/
def pageOf (s : State) (c va : Nat) : Nat := match leafAt s c va with | some l => l.va | none => va / 65536 * 65536

/-- One entry per distinct page among the threads that fault on a translation (R260). -/
def faultPages (s : State) (c need access : Nat) (fs : List LaneFault) : List (Nat × Nat × Nat × Nat) :=
  fs.foldl (init := []) fun acc f =>
    if f.cause != cPageFault || acc.any (fun x => pageOf s c x.1 = pageOf s c f.va) then acc else acc ++ [(f.va, f.reason, need, access)]

/-- The park of an instruction with faulting threads; the lowest one's cause and address are recorded. -/
def parkFor (s : State) (c pc : Nat) (setm : Word) (need access : Nat) (fs : List LaneFault) : Park :=
  match fs with
  | [] => {}
  | f :: _ =>
    { cause := f.cause, pc := pc, threads := maskOf (fs.map (·.lane)), setm := setm, lanes := setm, addr := BitVec.ofNat 64 f.va
      pages := if f.cause = cPageFault then faultPages s c need access fs else [] }

/-- An instruction whose threads fault as it issues. -/
def lanesFault (i : Ins) (x : Iss) (need access : Nat) (fs : List LaneFault) (s : State) : State :=
  faultGroup x.k (parkFor s x.g.ctx i.pc x.set_ need access fs) 0 s

/-! ### Addresses -/

def sizeOk (n : Nat) : Bool := n = 1 || n = 2 || n = 4 || n = 8
def laneVa (i : Ins) (g : Group) (l : Nat) : Nat := (g.srcD l i.a).toNat
/-- An address a thread may use: aligned, bits 63:52 clear. -/
def vaFits (size va : Nat) : Bool := va % size = 0 && vaOk va
def badLanes (i : Ins) (x : Iss) (size : Nat) : List Nat := x.part.filter fun l => !vaFits size (laneVa i x.g l)
/-- The illegal instruction of misaligned threads. -/
def badAddr (i : Ins) (x : Iss) (size : Nat) (s : State) : State :=
  let bad := badLanes i x size
  issueFault i x cIllegal 3 bad (BitVec.ofNat 64 (laneVa i x.g (bad.headD 0))) [] s

/-- The value a thread stores. -/
def laneVal (g : Group) (l size : Nat) (v : Src) : Nat := if size = 8 then (g.srcD l v).toNat else (g.src l v).toNat % 2 ^ (8 * size)
/-- A loaded value as register writes; bits above a narrow one are free. -/
def loadWrites (dst size : Nat) (b : List Byte) (free : DWord) : Writes :=
  if size = 8 then wpair dst (BitVec.ofNat 64 (leNat b)) else [(dst, narrow (8 * size) (leNat b) free)]

/-! ### Instructions that first empty the store buffer of their threads' stores -/

/-- Begin an instruction whose threads' earlier stores must have drained (R222 R225 R226). -/
def beginDrained (i : Ins) (h : Shape) (s : State) : Beg :=
  match begin_ i h s with
  | .go x _ =>
    let (t, ok) := drainLanes x.p x.k x.set_ s
    if ok then (match begin_ i h t with | .no => .bad t | b => b) else .bad t
  | b => b

end Sys2Proof.Machine
end

