-- ==== Sys2Proof/Machine/Load.lean ====
section
/-! DEFINITION. Loads and stores of threads (R160, R162, R163, R218 to R221, R229). -/
namespace Sys2Proof.Machine

/-! ### Local store -/

/-- The threads whose offset is not aligned or not inside the allocation. -/
def badOffs (i : Ins) (x : Iss) (size : Nat) : List Nat :=
  x.part.filter fun l => let o := (x.g.src l i.a).toNat; o % size != 0 || decide (x.g.lsSize < o + size)

def execLdl (i : Ins) (size : Nat) (s : State) : Out :=
  match begin_ i { srcs := [(i.a, false)], dst := i.dst, dstWide := size = 8, ok := sizeOk size } s with
  | .no => .next s
  | .bad s => .next s
  | .go x s =>
    let bad := badOffs i x size
    if !bad.isEmpty then .next (issueFault i x cIllegal 3 bad 0 [] s)
    else
      let n := s.freeN
      .next (finish i x (fun l => loadWrites i.dst size (readTbl x.g.ls (x.g.src l i.a).toNat size) (Config.freeValue (n + l))) []
        (after i) (s.onFreeN (· + 32)))

/-- STL: the highest lane's bytes remain. -/
def execStl (i : Ins) (size : Nat) (s : State) : Out :=
  match begin_ i { early := false, srcs := [(i.a, false), (i.b, size = 8)], ok := sizeOk size } s with
  | .no => .next s
  | .bad s => .next s
  | .go x s =>
    let bad := badOffs i x size
    if !bad.isEmpty then .next (issueFault i x cIllegal 3 bad 0 [] s)
    else
      let put (g : Group) : Group :=
        { g with ls := x.part.foldl (fun t l => writeTbl t (x.g.src l i.a).toNat (leBytes size (laneVal x.g l size i.b))) g.ls }
      .next (finish i x (fun _ => []) [] (after i) (s.onGroup x.k put))

/-! ### Loads -/

/-- Some thread that would load lies in a CTRL or HOSTW page: the load waits for older instructions (R163). -/
def loadLate (i : Ins) (s : State) : Bool :=
  let g := s.group (gKey i.core i.slot)
  ((g.setOfPc i.pc).filter (guardOk g i)).any fun l =>
    match translate s g.ctx (laneVa i g l) needR with
    | .ok _ rg => rg = .ctrl || rg = .hostw
    | .fault _ => false

/-- A load of some of the threads has not been performed: loads are performed in program order (R218). -/
def loadPending (g : Group) (lanes : Word) : Bool := g.win.any fun x => (x.use matches .load) && !x.fin && x.lanes &&& lanes != 0

/-- The load enters the window; reads of other devices are sent, unless an older load of the threads is pending. -/
def loadIssue (i : Ins) (size : Nat) (rsv early : Bool) (s : State) : Out :=
  match begin_ i { early := early, srcs := [(i.a, true)], dst := i.dst, dstWide := size = 8, ok := sizeOk size } s with
  | .no => .next s
  | .bad s => .next s
  | .go x s =>
    if !(badLanes i x size).isEmpty then .next (badAddr i x size s)
    else if x.part.isEmpty then .next (finish i x (fun _ => []) [] (after i) s)
    else
      let id := x.g.nextId
      let ld : Ld := { part := x.mask, va := x.part.foldl (fun t l => t.put l (x.g.srcD l i.a)) [], size := size, dst := i.dst, rsv := rsv }
      let w : Win := { id := id, lanes := x.set_, setm := x.set_, pc := i.pc, use := .load, ld := ld }
      let s := s.onGroup x.k fun g => ({ g with win := g.win ++ [w], nextId := id + 1 }).advance x.lanes (after i)
      .next (x.part.foldl (init := s) fun s l =>
        match translate s x.g.ctx (laneVa i x.g l) needR with
        | .ok pa _ =>
          if paDev pa != s.devId && !allSb s x.p pa size && !(loadPending x.g x.set_) then coreGet { p := x.p, k := x.k, lane := l } id pa s else s
        | .fault _ => s)

def execLd (i : Ins) (size : Nat) (s : State) : Out := loadIssue i size false (!loadLate i s) s
def execLdRsv (i : Ins) (size : Nat) (s : State) : Out := loadIssue i size true false s

/-! ### Stores -/

/-- Every thread's store translates, or faults. -/
def storeFaults (i : Ins) (x : Iss) (s : State) : List LaneFault :=
  x.part.filterMap fun l =>
    match translate s x.g.ctx (laneVa i x.g l) needW with
    | .fault r => some { lane := l, va := laneVa i x.g l, cause := cPageFault, reason := r }
    | .ok _ _ => none

def storeAll (i : Ins) (x : Iss) (size : Nat) (s : State) : State :=
  x.part.foldl (init := s) fun s l =>
    match translate s x.g.ctx (laneVa i x.g l) needW with
    | .ok pa rg => storePa { p := x.p, k := x.k, lane := l } i.pc (laneVa i x.g l) pa rg (leBytes size (laneVal x.g l size i.b)) s
    | .fault _ => s

/-- ST: the threads' stores enter the buffer in ascending lane order; while all its entries are occupied, or without room for
them, the set is blocked (R220). -/
def execSt (i : Ins) (size : Nat) (s : State) : Out :=
  match begin_ i { early := false, srcs := [(i.a, true), (i.b, size = 8)], ok := sizeOk size } s with
  | .no => .next s
  | .bad s => .next s
  | .go x t =>
    if !(badLanes i x size).isEmpty then .next (badAddr i x size t)
    else if x.part.any fun l => accWalks { p := x.p, k := x.k, lane := l } (laneVa i x.g l) t then .next s
    else if !(storeFaults i x t).isEmpty then .next (lanesFault i x needW accWrite (storeFaults i x t) t)
    else
      let u := storeAll i x size t
      if x.part.isEmpty || (decide ((t.core x.p).sb.length < 64) && decide ((u.core x.p).sb.length ≤ 64)) then .next (finish i x (fun _ => []) [] (after i) u) else .next s

/-! ### Instructions performed for every thread or for none -/

/-- Perform an access for the threads in ascending lane order; `none` at the first that does not complete. -/
def lanesDo (f : Nat → State → State × MRes) : List Nat → State → Option (State × List (Nat × List Byte))
  | [], s => some (s, [])
  | l :: t, s =>
    match f l s with
    | (s, .val b) => (lanesDo f t s).map fun (s, r) => (s, (l, b) :: r)
    | _ => none

/-- The faults that the threads' accesses meet, each tried on its own. -/
def lanesProbe (i : Ins) (x : Iss) (f : Nat → State → State × MRes) (s : State) : List LaneFault :=
  x.part.filterMap fun l => (f l s).2.fault l (laneVa i x.g l)

/-- An instruction that is performed by all its threads, or faults, or waits without having issued. -/
def allOrNone (i : Ins) (h : Shape) (size need access : Nat) (f : Iss → Nat → State → State × MRes)
    (res : Iss → Nat → List Byte → DWord → Writes) (s : State) : Out :=
  match beginDrained i h s with
  | .no => .next s
  | .bad s => .next s
  | .go x s =>
    if !(badLanes i x size).isEmpty then .next (badAddr i x size s)
    else match lanesDo (f x) x.part s with
      | some (s, r) =>
        let n := s.freeN
        let val (l : Nat) : List Byte := ((r.find? fun y => y.1 = l).map (·.2)).getD []
        .next (finish i x (fun l => res x l (val l) (Config.freeValue (n + l))) [] (after i) (s.onFreeN (· + 32)))
      | none =>
        match lanesProbe i x (f x) s with
        | [] => .next (x.part.foldl (fun s l => (match f x l s with | (t, .wait) => t | _ => s)) s)
        | fs =>
          let s := fs.foldl (fun s y => if y.cause = cPageFault then s else (f x y.lane s).1) s
          .next (lanesFault i x need access fs s)

/-- ST.CND: a predicate tells each thread whether its bytes were written. -/
def execStCnd (i : Ins) (size : Nat) (s : State) : Out :=
  allOrNone i { early := false, srcs := [(i.a, true), (i.b, size = 8)], ok := sizeOk size && predOk i.dst } size needW accWrite
    (fun x l s => coreCnd { p := x.p, k := x.k, lane := l } (laneVa i x.g l) (leBytes size (laneVal x.g l size i.b)) s)
    (fun x l b _ => wpredD x.g l i.dst (b == [1])) s

end Sys2Proof.Machine
end

