-- ==== Sys2Proof/Machine/Atomic.lean ====
section
/-! DEFINITION. Atomics (R169, R226 to R228). -/
namespace Sys2Proof.Machine

/-- An atomic of every participating thread, in ascending lane order; each receives what its own operation found. -/
def atomic (i : Ins) (size : Nat) (place : Place) (op : AtOp) (third ok : Bool) (s : State) : Out :=
  let wide : Bool := size = 8
  let srcs := (i.a, true) :: (i.b, wide) :: (if third then [(i.c, wide)] else [])
  allOrNone i { early := false, srcs := srcs, dst := i.dst, dstWide := wide, ok := (size = 4 || wide) && ok } size (needR + needW)
    (accRead + accWrite + accAtomic)
    (fun x l s => coreAtom { p := x.p, k := x.k, lane := l } (laneVa i x.g l) size place op (laneVal x.g l size i.b) (laneVal x.g l size i.c) s)
    (fun _ _ b f => loadWrites i.dst size b f) s

def execAtomAdd (i : Ins) (size : Nat) (place : Place) (s : State) : Out := atomic i size place .add false true s
def execAtomSub (i : Ins) (size : Nat) (place : Place) (s : State) : Out := atomic i size place .sub false true s
def execAtomAnd (i : Ins) (size : Nat) (place : Place) (s : State) : Out := atomic i size place .and false true s
def execAtomOr (i : Ins) (size : Nat) (place : Place) (s : State) : Out := atomic i size place .or false true s
def execAtomXor (i : Ins) (size : Nat) (place : Place) (s : State) : Out := atomic i size place .xor false true s
def execAtomMin (i : Ins) (size : Nat) (place : Place) (signed : Bool) (s : State) : Out := atomic i size place (.min signed) false true s
def execAtomMax (i : Ins) (size : Nat) (place : Place) (signed : Bool) (s : State) : Out := atomic i size place (.max signed) false true s
def execAtomExch (i : Ins) (size : Nat) (place : Place) (s : State) : Out := atomic i size place .exch false true s
def execAtomCas (i : Ins) (size : Nat) (place : Place) (s : State) : Out := atomic i size place .cas true true s
/-- FADD is on FP32. -/
def execAtomFadd (i : Ins) (place : Place) (s : State) : Out := atomic i 4 place .fadd false true s

end Sys2Proof.Machine
end

