-- ==== Sys2Proof/Machine/Coop.lean ====
section
/-! DEFINITION. Cooperation inside a group: SHFL, VOTE and GSYNC (R170 to R173). -/
namespace Sys2Proof.Machine

/-- SHFL: `from_` names the source lane of a thread from its lane operand, none for its own value. A source lane
that does not participate gives its register as it stands. -/
def shfl (i : Ins) (from_ : Nat → Nat → Option Nat) (s : State) : Out :=
  match begin_ i { srcs := [(i.a, false), (i.b, false)], dst := i.dst } s with
  | .no => .next s
  | .bad s => .next s
  | .go x s =>
    let n := s.freeN
    let val (t : Nat) : Word :=
      match from_ t (x.g.src t i.b).toNat with
      | none => x.g.src t i.a
      | some l => if l < 32 then x.g.src l i.a else (Config.freeValue (n + t)).setWidth 32
    .next (finish i x (fun t => [(i.dst, val t)]) [] (after i) (s.onFreeN (· + 32)))

def execShflIdx (i : Ins) (s : State) : Out := shfl i (fun _ n => some (n % 32)) s
def execShflUp (i : Ins) (s : State) : Out := shfl i (fun t n => if n ≤ t then some (t - n) else none) s
def execShflDown (i : Ins) (s : State) : Out := shfl i (fun t n => if t + n < 32 then some (t + n) else none) s
/-- The spec states no lane for a mask of 32 or more: that value is free. -/
def execShflXor (i : Ins) (s : State) : Out := shfl i (fun t n => some (t ^^^ n)) s

/-- The participating threads whose input predicate is set. -/
def votes (x : Iss) (q : Nat) : List Nat := x.part.filter fun l => (x.g.thread l).p.getLsbD (q % 8)
/-- A VOTE into a predicate. -/
def voteP (i : Ins) (q : Nat) (f : List Nat → List Nat → Bool) (s : State) : Out :=
  match begin_ i { ok := predOk i.dst && decide (q < 8) } s with
  | .no => .next s
  | .bad s => .next s
  | .go x s => .next (finish i x (fun l => wpredD x.g l i.dst (f (votes x q) x.part)) [] (after i) s)

def execVoteAll (i : Ins) (q : Nat) (s : State) : Out := voteP i q (fun v part => v.length = part.length) s
def execVoteAny (i : Ins) (q : Nat) (s : State) : Out := voteP i q (fun v _ => !v.isEmpty) s
def execVoteBallot (i : Ins) (q : Nat) (s : State) : Out :=
  match begin_ i { dst := i.dst, ok := decide (q < 8) } s with
  | .no => .next s
  | .bad s => .next s
  | .go x s => .next (finish i x (fun _ => [(i.dst, maskOf (votes x q))]) [] (after i) s)
def execVoteMatch (i : Ins) (s : State) : Out :=
  match begin_ i { srcs := [(i.a, false)], dst := i.dst } s with
  | .no => .next s
  | .bad s => .next s
  | .go x s => .next (finish i x (fun l => [(i.dst, maskOf (x.part.filter fun r => x.g.src r i.a = x.g.src l i.a))]) [] (after i) s)

/-- Threads that stand in a GSYNC of a mask; their own bit counts as set. -/
def gsyncEnter (mask : Word) (lanes : List Nat) (g : Group) : Group :=
  gsyncSettle (lanes.foldl (fun g l => g.onThread l fun t => { t with gsync := some (mask ||| laneBit l) }) g)

/-- GSYNC: the arrival count rises, and the thread waits for the threads the mask names. -/
def execGsync (i : Ins) (mask : Word) (s : State) : Out :=
  match begin_ i {} s with
  | .no => .next s
  | .bad s => .next s
  | .go x s =>
    let s := finish i x (fun l => [(257, BitVec.ofNat 32 ((x.g.thread l).arrive + 1))]) [] (after i) s
    .next (s.onGroup x.k (gsyncEnter mask x.part))

end Sys2Proof.Machine
end

