-- ==== Sys2Proof/Machine/CoreEvents.lean ====
section
/-! DEFINITION. Replies to loads, parks, and the drain of the store buffer (R162, R164, R178 to R180, R218, R220). -/
namespace Sys2Proof.Machine

/-- What a thread's load reaches: 0 memory, 1 the host, 2 a register. -/
def loadClass (s : State) (c va : Nat) : Nat :=
  match translate s c va needR with
  | .fault _ => 0
  | .ok pa _ =>
    if paDev pa != s.devId then 0
    else match zoneOf (paLocal pa) with
      | .host => 1
      | .ctrlDie _ | .ctrlIo _ | .ctrlMgmt => 2
      | _ => 0

/-- Outcome of the loads of some lanes: bytes by lane, faults, and whether one is not answered yet. -/
structure Loads where
  vals : List (Nat × List Byte) := []
  bad : List LaneFault := []
  wait : Bool := false
  deriving DecidableEq, Repr, Inhabited

/-- The host rejects the reads of these lanes: they are denied (R372). -/
def rejectLanes (w : Win) (lanes : List Nat) (r : State × Loads) : State × Loads :=
  (r.1, { r.2 with bad := r.2.bad ++ lanes.map fun l => ({ lane := l, va := (w.ld.va.get l).toNat, cause := cDenied } : LaneFault) })

/-- Each thread's load is performed on its own (R219); one that has been performed stays so. -/
def loadLanes (p k : Nat) (w : Win) (lanes : List Nat) (r : State × Loads) : State × Loads :=
  lanes.foldl (init := r) fun (s, r) l =>
    let va := (w.ld.va.get l).toNat
    match w.ld.done.get l with
    | some b => (s, { r with vals := r.vals ++ [(l, b)] })
    | none =>
    match coreLoad { p := p, k := k, lane := l } va w.ld.size w.id w.ld s with
    | (s, .val b) => (s, { r with vals := r.vals ++ [(l, b)] })
    | (s, .wait) => (s, { r with wait := true })
    | (s, m) => (s, { r with bad := r.bad ++ (m.fault l va).toList })

/-- Accesses with a side effect are performed only when every other one of the instruction has completed. -/
def loadAll (p k : Nat) (w : Win) (rejected : Bool) (s : State) : State × Loads :=
  let c := (s.group k).ctx
  let lanes := lanesOf (w.ld.part &&& w.lanes)
  let pick (n : Nat) : List Nat := lanes.filter fun l => loadClass s c (w.ld.va.get l).toNat = n
  (List.range 3).foldl (init := (s, {})) fun r n =>
    if r.2.wait || !r.2.bad.isEmpty then r
    else if n = 1 && rejected then rejectLanes w (pick n) r
    else loadLanes p k w (pick n) r

/-- Results go to their registers, what they replace to the window entry, and the load retires. -/
def loadDone (id free : Nat) (vals : List (Nat × List Byte)) (g : Group) : Group :=
  match g.win.find? (·.id = id) with
  | none => g
  | some w =>
    let ws := vals.map fun (l, b) => (l, loadWrites w.ld.dst w.ld.size b (Config.freeValue (free + l)))
    let undo := ws.flatMap fun (l, x) => x.flatMap (g.undoOf l)
    let g := ws.foldl (fun g (l, x) => x.foldl (fun g y => g.put1 l y) g) g
    retireSweep { g with win := g.win.map fun w => if w.id = id then { w with fin := true, undo := undo } else w }

/-- The loads of some threads have been performed, while others of the instruction wait. -/
def loadPart (id : Nat) (vals : List (Nat × List Byte)) (g : Group) : Group :=
  let keep (w : Win) : Win := { w with ld := { w.ld with done := vals.foldl (fun t x => t.put x.1 (some x.2)) w.ld.done } }
  { g with win := g.win.map fun w => if w.id = id && !w.ld.rsv then keep w else w }

/-- An older load of the same threads has not been performed: loads are performed in program order (R218). -/
def olderLoad (g : Group) (w : Win) : Bool :=
  g.win.any fun x => decide (x.id < w.id) && (x.use matches .load) && !x.fin && x.lanes &&& w.lanes != 0

/-- LD.RSV places the reservation of each thread. -/
def placeAll (p k : Nat) (w : Win) (s : State) : State :=
  (lanesOf (w.ld.part &&& w.lanes)).foldl (init := s) fun s l =>
    match translate s (s.group k).ctx (w.ld.va.get l).toNat needR with
    | .ok pa rg => rsvPlace { p := p, k := k, lane := l } pa rg s
    | .fault _ => s

def execLoadReply (core slot id : Nat) (rejected : Bool) (s : State) : Out :=
  let k := gKey core slot
  let g := s.group k
  match s.phys core, g.win.find? (·.id = id) with
  | some p, some w =>
    if !(w.use matches .load) || w.fin || olderLoad g w || !s.coreRuns p then .next s
    else match loadAll p k w rejected s with
      | (s, r) =>
        if !r.bad.isEmpty then .next (faultGroup k (parkFor s g.ctx w.pc w.setm needR accRead r.bad) id s)
        else if r.wait then .next (s.onGroup k (loadPart id r.vals))
        else
          let s := if w.ld.rsv then placeAll p k w s else s
          .next ((s.onGroup k (loadDone id s.freeN r.vals)).onFreeN (· + 32))
  | _, _ => .next s

/-- A group parks at its faulting instruction once its older instructions have retired. -/
def execGroupPark (core slot : Nat) (s : State) : Out :=
  .next (if s.idRuns core then parkNow (gKey core slot) s else s)

def execStoreBufferDrain (p : Nat) (s : State) : Out := .next (if s.quadRuns p && s.pwr.state != .fatal then (sbDrain p s).1 else s)

end Sys2Proof.Machine
end

