-- ==== Sys2Proof/Machine/EngineOps.lean ====
section
/-! DEFINITION. Engines as shared operations: when a queue's packets start, how entries and packets are read and
end, translation into runs, copies and remote requests (ch. 12, R258, R259, R299, R347 to R350, R372, R375). -/
namespace Sys2Proof.Machine

/-! ### When an engine works (R288 R292 R301 R305 R321 R376 R391) -/

def engineRuns (s : State) (e : Nat) : Bool :=
  let d := s.tier.dies.get (engDie s.variant e)
  engExists s.variant e && !(s.engines.get e).out && s.pwr.state != .fatal && !d.stopped && !d.fenced &&
  !(decide (24 ≤ e) && (s.fab.ios.get (e - 24)).out)

/-- A WAIT or REMOTE_WAIT is not yet satisfied. -/
def Queue.waits (q : Queue) : Bool := q.pkts.any fun p => p.st = .running && (p.op = 0x05 || p.op = 0x32)
/-- Bytes of a completion slot. -/
def Queue.slotBytes (q : Queue) : Nat := if q.kind = 0 then 384 else 64
/-- A record of the queue can be written, or finds room in the held-record buffer. -/
def holdRoom (s : State) (q : Queue) (n : Nat) : Bool := !s.ctxHeld q.fn q.ctx || decide (heldBytes s + n ≤ heldCap)

/-- The queue may read entries and start packets. -/
def queueReady (s : State) (e k : Nat) : Bool :=
  let q := s.queue k
  let x := s.ctx q.ctx
  engineRuns s e && q.live && q.resident && !q.stalled && !q.lacks && !q.full && x.live && !x.paused && !x.inReset && !q.waits &&
  holdRoom s q q.slotBytes && !walkAny s (4096 + k) q.ctx (fun _ => true)

/-! ### The queue's translation stream (R254 R260 R427) -/

def queueBulk (s : State) (q : Queue) : Bulk := { ctx := q.ctx, gen := (s.ctx q.ctx).gen, got := q.got }
/-- The queue stalls with a fault record. `why` as in Queue.stallWhy. -/
def queueStall (k va need reason why : Nat) (s : State) : State :=
  let q := s.queue k
  faultAdd { stream := 4096 + k, fn := q.fn, ctx := q.ctx, gen := (s.ctx q.ctx).gen, va := va, need := need } (2 + q.kind) reason
    (if need = needW then accWrite else accRead) 0xFF q.inst q.num (s.onQueue k fun q => { q with stalled := true, stallWhy := why })

/-- A request of an engine leaves, or waits at its link engine (R348). -/
def engSend (k : Nat) (r : Rreq) (timeout : Nat) (s : State) : State :=
  let e := k / 1024
  let full := decide (24 ≤ e) && decide (linkMax ≤ (s.engines.get e).outReq)
  let s := reqSend { r with queue := some k, held := full, deadline := if full then timeout else s.now + timeout } s
  if full then s else s.onEngine e fun x => { x with outReq := x.outReq + 1 }

/-- Lines of another device that the reading of entries and packets needs are asked for; their requests belong to
packet 0. -/
def queueGets (k pa n : Nat) (s : State) : State :=
  let q := s.queue k
  (cutLines (n + 1) pa n).foldl (init := s) fun s (x, _) =>
    let line := lineOf (paLocal x)
    if !(q.got.get (x / 128)).isEmpty || s.fab.reqs.any (fun r => r.queue = some k && r.pktId = 0 && r.pkt.dst = paDev x && r.pkt.addr = line) then s
    else
      let g : FPkt := { type := 3, dst := paDev x, sctx := q.ctx, sgen := (s.ctx q.ctx).gen, phys := true, dctx := 0xFFFF, len := 128, addr := line }
      engSend k { pkt := g } (coreTimeout s) s

/-- How the reading of an entry or packet ends. -/
inductive QRead where
  | ok (b : List Byte) (s : State)
  | wait (s : State)
  | stall (va reason : Nat)
  | fail (status : Nat) (s : State)

def queueRead (k va n : Nat) (s : State) : QRead :=
  let q := s.queue k
  let b := queueBulk s q
  match bulkCheck s b va n needR with
  | none => if (bulkRd s b va n).2.isEmpty then .ok (bulkRd s b va n).1 (bulkTouch b va n s) else .fail stPoison (bulkTouch b va n s)
  | some (.page r, a) => .stall a r
  | some (.denied, a) => .fail stDenied (bulkDeny b a needR s)
  | some (.ctrl, _) => .fail stDenied s
  | some (.absent, _) | some (.retry, _) => .wait s
  | some (.remote, a) =>
    match translate s q.ctx a needR with
    | .fault r => .stall a r
    | .ok pa _ =>
      let m := min (va + n - a) (65536 - a % 65536)
      match ((cutLines (m + 1) pa m).map fun x => q.bad.get (x.1 / 128)).find? (· != 0) with
      | some 3 => .fail stDenied s
      | some 6 => .fail stTimeoutRemote s
      | some _ => .fail stPoison s
      | none => .wait (queueGets k pa m s)

/-! ### Packets (R290 to R293) -/

def byteAt (l : List Byte) (i : Nat) : Nat := (l.getD i 0).toNat
def Pkt.f (p : Pkt) (i n : Nat) : Nat := fieldN p.bytes i n
def Pkt.arg (p : Pkt) : Nat := p.f 4 4
def Pkt.complete (p : Pkt) : Bool := (p.f 2 1).testBit 0
def Pkt.irq (p : Pkt) : Bool := (p.f 2 1).testBit 2

/-- SIZE of an opcode in 8 B units, 0 where it varies; none for an unknown opcode (R291). -/
def opUnits : Nat → Option Nat
  | 0x00 => some 0 | 0x01 => some 2 | 0x02 => some 2 | 0x03 => some 2 | 0x04 => some 3 | 0x05 => some 3 | 0x06 => some 1
  | 0x10 => some 9 | 0x20 => some 4 | 0x21 => some 6 | 0x22 => some 9 | 0x23 => some 4
  | 0x30 => some 6 | 0x31 => some 6 | 0x32 => some 4 | _ => none
/-- The engine kind that accepts an opcode; none: every kind. -/
def opKind (op : Nat) : Option Nat :=
  if op < 0x10 then none else if op < 0x20 then some 0 else if op < 0x30 then some 1 else some 2
/-- ARG is reserved. -/
def argFree (op : Nat) : Bool := !(op = 0x00 || op = 0x02 || op = 0x03 || (decide (0x20 ≤ op) && decide (op < 0x30)))

/-- What a header breaks, the lowest reason first; `room`: bytes left in the list. -/
def headBad (kind room : Nat) (h : List Byte) : Option Nat :=
  let op := byteAt h 0
  match opUnits op with
  | none => some 1
  | some u =>
    if fieldN h 2 2 / 8 != 0 || (!argFree op && fieldN h 4 4 != 0) then some 1
    else if byteAt h 1 = 0 || (u != 0 && byteAt h 1 != u) || decide (room < 8 * byteAt h 1) then some 2
    else match opKind op with
      | some kd => if kd = kind then none else some 3
      | none => none

/-- A packet is added; `close` ends the reading of its list. -/
def pktPush (k : Nat) (p : Pkt) (close : Bool) (s : State) : State :=
  s.onQueue k fun q => { q with pkts := q.pkts ++ [p], listOn := q.listOn && !close }
/-- The packet is finished; under STOP_ON_FAIL a status other than OK skips the rest of the list. -/
def pktDone (k : Nat) (p : Pkt) (st : Nat) (s : State) : State :=
  pktPush k { p with st := .done, status := st, rest := st, tsc := s.tsc.time } (st != stOk && (s.queue k).stopOnFail) s
/-- INVALID_COMMAND. -/
def pktInvalid (k : Nat) (p : Pkt) (reason : Nat) (s : State) : State :=
  pktPush k { p with st := .done, status := stInvalid, reason := reason, items := 0, tsc := s.tsc.time } true s

/-- Where the next packet stands. -/
def nextPkt (s : State) (q : Queue) (op : Nat) (b : List Byte) : Pkt :=
  { op := op, bytes := b, ent := (q.ent - 1).toNat, off := q.listOff, startAt := s.now, id := q.nextId, gen := (s.ctx q.ctx).gen, deferrals := q.defer }
/-- It has been read: the list goes on behind it (R335: a job submitted). -/
def listAdvance (k n : Nat) (s : State) : State :=
  acctAdd (s.queue k).ctx aSubmitted 1 (s.onQueue k fun q =>
    { q with listOff := q.listOff + n, listOn := decide (q.listOff + n < q.listLen), nextId := q.nextId + 1, got := [], bad := [], defer := 0, deferred := false })

/-- An entry or packet that cannot be read ends in a record without items (R427). -/
def unreadable (k op st : Nat) (s : State) : State :=
  let q := s.queue k
  let p := nextPkt s q op []
  pktPush k { p with st := .done, status := st, items := 0, tsc := s.tsc.time } true (s.onQueue k fun q => { q with nextId := q.nextId + 1, got := [], bad := [], defer := 0 })

/-- SIGNAL, FENCE_SIGNAL and TIMESTAMP start, like a BARRIER packet, after every earlier packet has completed. -/
def barred (q : Queue) (h : List Byte) : Bool :=
  ((byteAt h 2).testBit 1 || byteAt h 0 = 0x03 || byteAt h 0 = 0x04 || byteAt h 0 = 0x06) && !(q.pkts.all (·.st = .done))

/-- The next packet of a queue: not one that may start; the queue stalled, waits or the packet ended; or it starts. -/
inductive Nxt where
  | no
  | stop (s : State)
  | go (p : Pkt) (s : State)

def pktFresh (k op : Nat) (s : State) : Nxt :=
  let q := s.queue k
  let va := q.listAt + q.listOff
  if !q.listOn then .no
  else match queueRead k va 8 s with
    | .wait s => .stop s
    | .stall a r => .stop (queueStall k a needR r 1 s)
    | .fail st s => .stop (unreadable k 0xFF st s)
    | .ok h t =>
      if byteAt h 0 != op || barred q h then .no
      else match headBad q.kind (q.listLen - q.listOff) h with
        | some r => .stop (pktInvalid k (nextPkt s q op h) r (listAdvance k 8 t))
        | none =>
          match queueRead k va (8 * byteAt h 1) s with
          | .wait s => .stop s
          | .stall a r => .stop (queueStall k a needR r (256 + op) s)
          | .fail st s => .stop (unreadable k op st s)
          | .ok b t => .go (nextPkt s q op b) (listAdvance k (8 * byteAt h 1) t)

/-- Take the next packet if it has this opcode: one whose translation was to be repeated, or a fresh one. -/
def pktTake (e num op : Nat) (s : State) : Nxt :=
  let k := queueKey e num
  let q := s.queue k
  if 1024 ≤ num || !queueReady s e k then .no
  else match q.pkts.getLast? with
    | some p =>
      if p.st = .waiting then
        if p.op = op then .go p (s.onQueue k fun q => { q with pkts := q.pkts.dropLast }) else .no
      else pktFresh k op s
    | none => pktFresh k op s

/-- A packet command: what a packet of this opcode does once it starts. -/
def packet (e num op : Nat) (run : Nat → Pkt → State → Out) (s : State) : Out :=
  match pktTake e num op s with
  | .no => .next s
  | .stop s => .next s
  | .go p s => run (queueKey e num) p s

/-! ### Sync operations of packets (R276 R294 R295) -/

def counterId (id : Nat) : Bool := idOk id && !isFenceId id
def engWait (s : State) (k : Nat) (q : Queue) (id : Nat) (v : DWord) : Wait :=
  { who := .engine, grp := k, lanes := 1, fence := isFenceId id, id := id, value := v, ctx := q.ctx, gen := (s.ctx q.ctx).gen, src := engSrc (k / 1024) }

/-- The packet ends with a sync result; `skip`: a result other than OK ends its list. -/
def pktSync (k : Nat) (p : Pkt) (code : Nat) (v : DWord) (skip : Bool) (s : State) : State :=
  let (st, rs) := syncStatus code
  let p := { p with st := .done, status := st, rest := st, reason := rs, result := code, value := v, tsc := s.tsc.time, items := if st = stInvalid then 0 else 1 }
  pktPush k p (code != rOk && (skip || (s.queue k).stopOnFail)) s

/-! ### Runs (R258 R259) -/

/-- One row of a command: source (none for a fill), destination, bytes. -/
structure Row where
  src : Option Nat := none
  dst : Nat := 0
  len : Nat := 0
  deriving DecidableEq, Repr, Inhabited

/-- A row in physical pieces, each within one granule: (full address, bytes). -/
structure XRow where
  row : Row := {}
  src : List (Nat × Nat) := []
  dst : List (Nat × Nat) := []
  deriving DecidableEq, Repr, Inhabited

/-- A translated range, or its first fault (address, reason). -/
def physRange (s : State) (c va n need : Nat) : Except (Nat × Nat) (List (Nat × Nat)) :=
  (cutRange (n + 1) va n).foldl (init := .ok []) fun acc (a, m) =>
    match acc, translate s c a need with
    | .ok l, .ok pa _ => .ok (l ++ [(pa, m)])
    | .ok _, .fault r => .error (a, r)
    | .error x, _ => .error x

/-- Rows translated, or the first fault (address, permission, reason). -/
def physRows (s : State) (c : Nat) (rs : List Row) : Except (Nat × Nat × Nat) (List XRow) :=
  rs.foldl (init := .ok []) fun acc r =>
    match acc with
    | .error x => .error x
    | .ok l =>
      match (match r.src with | some a => physRange s c a r.len needR | none => .ok []), physRange s c r.dst r.len needW with
      | .error (a, x), _ => .error (a, needR, x)
      | _, .error (a, x) => .error (a, needW, x)
      | .ok a, .ok b => .ok (l ++ [{ row := r, src := a, dst := b }])

/-- Runs of pieces in the command's byte order: neighbours that are physically contiguous are one. -/
def countRuns : List (Nat × Nat) → Nat
  | [] => 0
  | [_] => 1
  | (a, n) :: (b, m) :: t => (if a + n = b then 0 else 1) + countRuns ((b, m) :: t)
def runsOf (xs : List XRow) : Nat := countRuns (xs.flatMap (·.src)) + countRuns (xs.flatMap (·.dst))

/-- The routing table by which an engine's packets leave (R346 R347). -/
def engIo (s : State) (e : Nat) : Nat := if 24 ≤ e then e - 24 else ioFor s (engDie s.variant e)
/-- A piece lies at a device to which the table has no way (R293 R347). -/
def noWay (s : State) (k : Nat) (xs : List XRow) : Bool :=
  xs.any fun x => (x.src ++ x.dst).any fun y => paDev y.1 != s.devId && (s.fab.ios.get (engIo s (k / 1024))).routes.get (paDev y.1) = 0

/-- Entries of a run store. -/
def runStore : Nat := 65536
/-- Pages a command's rows pin. -/
def pinsOf (rs : List Row) : List (Nat × Nat) := rs.flatMap fun r => (match r.src with | some a => [(a, r.len)] | none => []) ++ [(r.dst, r.len)]

/-! ### Physical accesses (R208 R210 R266 R299 R372 R375) -/

/-- Can a piece be accessed: yes, not yet, or it ends its item with a status. -/
inductive PAcc where
  | ok
  | wait
  | bad (status : Nat)
  deriving DecidableEq, Repr, Inhabited

def physAcc (s : State) (b : Bulk) (pa : Nat) : PAcc :=
  if paDev pa != s.devId then .ok
  else match zoneOf (paLocal pa) with
    | .host => if orphaned s b.ctx then .bad stHostAbsent else if anyLink s then .ok else .wait
    | .ctrlDie _ | .ctrlIo _ | .ctrlMgmt => .bad stDenied
    | _ => match mayEnter s b.ctx b.gen false (paLocal pa) with
      | .ok => .ok
      | .denied => .bad stDenied
      | .stale | .retry => .wait

def isHost (s : State) (pa : Nat) : Bool := paDev pa = s.devId && zoneOf (paLocal pa) = .host
def isFar (s : State) (pa : Nat) : Bool := paDev pa != s.devId

/-- Status that keeps an item from being performed, OK where none; `rej`: the host rejects its reads. -/
def itemBar (s : State) (b : Bulk) (rej : Bool) (x : XRow) : Nat :=
  if rej && x.src.any fun y => isHost s y.1 then stFault
  else ((x.src ++ x.dst).findSome? fun y => match physAcc s b y.1 with | .bad st => some st | _ => none).getD stOk
def rowWaits (s : State) (b : Bulk) (x : XRow) : Bool :=
  (x.src ++ x.dst).any fun y => physAcc s b y.1 = .wait || (!isFar s y.1 && heldRange s (paLocal y.1) y.2)
/-- The record of a denied item. -/
def itemDeny (b : Bulk) (x : XRow) (s : State) : State :=
  match (x.src ++ x.dst).find? fun y => physAcc s b y.1 = .bad stDenied with
  | some y => denyRec b.ctx b.gen (paLocal y.1) s
  | none => s

/-- Bytes of local pieces, and the offsets that lie in poisoned granules. -/
def physRead (s : State) (l : List (Nat × Nat)) : List Byte × List Nat :=
  l.foldl (init := ([], [])) fun (b, po) (pa, n) =>
    let a := paLocal pa
    (b ++ s.rd a n, po ++ if isHost s pa then [] else (poisonOffs s a n).map (· + b.length))
/-- Offsets of a source that lie in poisoned granules of its local pieces. -/
def srcPoison (s : State) (l : List (Nat × Nat)) : List Nat :=
  (l.foldl (init := (([] : List Nat), 0)) fun (po, o) (pa, n) =>
    (po ++ if isFar s pa || isHost s pa then [] else (poisonOffs s (paLocal pa) n).map (· + o), o + n)).1
/-- The lines of a read pass through their slices. -/
def physTouch (l : List (Nat × Nat)) (s : State) : State :=
  l.foldl (fun s (pa, n) => if isHost s pa then s else fencedRec (paLocal pa) (touchRange (paLocal pa) n s)) s

/-- Write bytes to pieces; pieces of another device are sent as the item's PUTs. Answers whether the write met poison. -/
def physWrite (b : Bulk) (k : Nat) (r : Rreq) (timeout : Nat) (l : List (Nat × Nat)) (d : List Byte) (po : List Nat) (s : State) : State × Bool :=
  (l.foldl (init := (s, false, 0)) fun (s, met, o) (pa, n) =>
    let part := slice d o n
    let pp := (po.filter fun i => decide (o ≤ i) && decide (i < o + n)).map (· - o)
    if isFar s pa then ((linePuts s b pa part pp).foldl (fun s p => engSend k { r with pkt := p } timeout s) s, met, o + n)
    else if fencedAt s (paLocal pa) then (fencedRec (paLocal pa) s, true, o + n)
    else
      let (s, m) := bulkWrite (paLocal pa) part pp s
      (s, met || m, o + n)) |> fun (s, met, _) => (s, met)

/-- Bytes of a write to local pieces that are not performed: those of granules that are poisoned and covered in part,
and those of a fenced die (R208 R349 R392). `po`: offsets whose data travels poisoned. -/
def lostInLine (s : State) (a n o : Nat) (po : List Nat) : Nat :=
  let t := tierTouch (lineOf a) true (n = 128) s
  let g := granOf t a
  let lost (x : Nat) : Bool :=
    let b := x / g * g
    poisonAt t x && !(a ≤ b && b + g ≤ a + n) && !(po.any fun i => (a + (i - o)) / g = x / g && decide (o ≤ i) && decide (i < o + n))
  ((List.range n).filter fun i => lost (a + i)).length
def lostBytes (s : State) (l : List (Nat × Nat)) (po : List Nat) : Nat :=
  (l.foldl (init := (0, 0)) fun (k, o) (pa, n) =>
    let a := paLocal pa
    let here := if isFar s pa || isHost s pa then 0
      else if fencedAt s a then n
      else ((cutLines (n + 1) a n).map fun (x, m) => lostInLine s x m (o + (x - a)) po).sum
    (k + here, o + n)).1

/-- Poisoned offsets of a row as ranges of its source (R304). -/
def poisonRanges (va : Nat) (po : List Nat) : List (Nat × Nat) :=
  (po.foldl (init := ([] : List (Nat × Nat))) fun acc o =>
    match acc with
    | (a, n) :: t => if a + n = va + o then (a, n + 1) :: t else (va + o, 1) :: acc
    | [] => [(va + o, 1)]).reverse

/-- Poisoned ranges of an item join a packet's, in source order: by item, then by address (R304). -/
def Pkt.addRanges (p : Pkt) (n : Nat) (l : List (Nat × Nat)) : Pkt :=
  let before (x y : Nat × Nat × Nat) : Bool := decide (x.1 < y.1) || (x.1 = y.1 && decide (x.2.1 ≤ y.2.1))
  { p with ranges := (l.map fun y => (n, y)).foldl (fun r y => (r.filter (before · y)) ++ [y] ++ r.filter fun x => !before x y) p.ranges }

/-- Addresses of pieces, byte by byte. -/
def byteAddrs (l : List (Nat × Nat)) : List Nat := l.flatMap fun (a, n) => (List.range n).map (a + ·)
def overlaps (xs : List XRow) : Bool :=
  (xs.flatMap (·.src)).any fun (a, n) => (xs.flatMap (·.dst)).any fun (b, m) => decide (a < b + m) && decide (b < a + n)
/-- Source bytes of rows whose ranges overlap their destinations: each is the value before the command, or a value the
command has written there, which of the two is not stated (R299). -/
def mixByte (s : State) (acc : List Byte × Tbl Nat × Nat) (x : Nat × Nat) : List Byte × Tbl Nat × Nat :=
  let (l, seen, n) := acc
  let old := s.mem.get (paLocal x.1)
  let v := match seen.get x.1 with
    | 0 => old
    | w + 1 => if (Config.freeByte n).getLsbD 0 then BitVec.ofNat 8 w else old
  (v :: l, seen.put x.2 (v.toNat + 1), n + 1)
def mixRow (s : State) (acc : List (List Byte) × Tbl Nat × Nat) (x : XRow) : List (List Byte) × Tbl Nat × Nat :=
  let r := ((byteAddrs x.src).zip (byteAddrs x.dst)).foldl (mixByte s) ([], acc.2)
  (acc.1 ++ [r.1.reverse], r.2)
def mixRows (s : State) (xs : List XRow) : List (List Byte) := (xs.foldl (mixRow s) ([], [], s.freeN)).1

/-! ### Items and their answers (R298 R303 R348 R350) -/

/-- Every response of a running packet has arrived: it is finished. -/
def pktSettle (k id : Nat) (s : State) : State :=
  if s.fab.reqs.any fun r => r.queue = some k && r.pktId = id then s
  else
    let fin (p : Pkt) : Pkt := let p := { p with rest := stOk }; { p with st := .done, status := p.common, tsc := s.tsc.time }
    s.onQueue k fun q =>
      match q.pkts.find? fun p => p.id = id && p.st = .running with
      | none => q
      | some p =>
        { q with pkts := q.pkts.map (fun x => if x.id = id && x.st = .running then fin x else x)
                 listOn := q.listOn && !((fin p).status != stOk && q.stopOnFail && p.ent = (q.ent - 1).toNat) }

/-- A request of an item has ended with a status, and left the list of outstanding ones. -/
def itemAnswer (r : Rreq) (st : Nat) (s : State) : State :=
  match r.queue with
  | none => s
  | some k =>
    let more := s.fab.reqs.any fun x => x.queue = some k && x.pktId = r.pktId && x.item = r.item
    let upd (p : Pkt) : Pkt :=
      if p.id = r.pktId && p.st = .running then
        let p := if st = stOk || p.part.get r.item != 0 then p else { p with part := p.part.put r.item st }
        if more then p else p.setItem r.item (p.part.get r.item)
      else p
    pktSettle k r.pktId (s.onQueue k fun q => { q with pkts := q.pkts.map upd })

/-- A request has been answered or has timed out; the engine sends the next one that waits. -/
def reqEnd (r : Rreq) (s : State) : State :=
  let s := s.onFab fun f => { f with reqs := f.reqs.erase r }
  match r.queue with
  | some k => if r.held then s else reqRelease (k / 1024) s.fab.reqs.length (s.onEngine (k / 1024) fun e => { e with outReq := e.outReq - 1 })
  | none => s

/-! ### Copies (R258 R298 R299) -/

/-- Outcome of one row of a copy so far: its status, and its poisoned source ranges. -/
structure RowOut where
  st : Nat := 0
  ranges : List (Nat × Nat) := []
  deriving DecidableEq, Repr, Inhabited

/-- The GETs that fetch the far pieces of a source; each names the destination runs of its bytes. -/
def takeRuns : Nat → List (Nat × Nat) → List (Nat × Nat)
  | _, [] => []
  | 0, _ => []
  | n, (a, m) :: t => if m ≤ n then (a, m) :: takeRuns (n - m) t else [(a, n)]
def dropRuns : Nat → List (Nat × Nat) → List (Nat × Nat)
  | _, [] => []
  | 0, l => l
  | n, (a, m) :: t => if m ≤ n then dropRuns (n - m) t else (a + n, m - n) :: t
def farGets (b : Bulk) (k : Nat) (r : Rreq) (timeout : Nat) (x : XRow) (s : State) : State :=
  (x.src.foldl (init := (s, x.dst, x.row.src.getD 0)) fun (s, d, va) (pa, n) =>
    let pieces := (List.range ((n + 4095) / 4096)).map fun i => (4096 * i, min 4096 (n - 4096 * i))
    let one (s : State) (y : Nat × Nat) : State :=
      let g : FPkt := { type := 3, dst := paDev pa, sctx := b.ctx, sgen := b.gen, phys := true, dctx := 0xFFFF, len := y.2, addr := paLocal pa + y.1 }
      engSend k { r with pkt := g, dest := takeRuns y.2 (dropRuns y.1 d), srcVa := va + y.1 } timeout s
    (if isFar s pa then pieces.foldl one s else s, dropRuns n d, va + n)).1

/-- Perform one row: `d` its source bytes with their poisoned offsets. A row with far source pieces asks for them and
writes the others; far destination pieces are sent. -/
def rowGo (b : Bulk) (k : Nat) (r : Rreq) (x : XRow) (d : List Byte) (po : List Nat) (s : State) : State × RowOut :=
  let t := coreTimeout s
  let s := physTouch (x.src.filter fun y => !isFar s y.1) s
  if x.src.any fun y => isFar s y.1 then
    let s := farGets b k r t x s
    let w := x.src.foldl (init := (s, false, x.dst, 0)) fun (s, met, dst, o) (pa, n) =>
      if isFar s pa then (s, met, dropRuns n dst, o + n)
      else
        let (l, p) := physRead s [(pa, n)]
        let (s, m) := physWrite b k r t (takeRuns n dst) l p s
        (s, met || m, dropRuns n dst, o + n)
    (w.1, { st := if w.2.1 || !po.isEmpty then stPoison else stOk, ranges := poisonRanges (x.row.src.getD 0) po })
  else
    let (s, met) := physWrite b k r t x.dst d po s
    (s, { st := if met || !po.isEmpty then stPoison else stOk, ranges := match x.row.src with | some a => poisonRanges a po | none => [] })

/-- The source bytes of each row: copied, or the pattern of a fill. -/
def rowData (s : State) (pat : Option Nat) (xs : List XRow) : List (List Byte × List Nat) :=
  match pat with
  | some v => xs.map fun x => ((List.range x.row.len).map fun i => BitVec.ofNat 8 (v / 2 ^ (8 * ((x.row.dst + i) % 8))), [])
  | none =>
    if overlaps xs then (mixRows s xs).zip (xs.map fun x => srcPoison s x.src)
    else xs.map fun _ => ([], [])

/-- One row after the other: status and ranges of each, in the state they leave. -/
def rowsGo (b : Bulk) (k : Nat) (p : Pkt) (pat : Option Nat) (rejected : List Nat) (xs : List XRow) (s0 : State) : State × List RowOut :=
  let mixed := pat.isSome || overlaps xs
  let data := rowData s0 pat xs
  ((List.range xs.length).zip (xs.zip data)).foldl (init := (s0, [])) fun (s, out) (n, x, d) =>
    let r : Rreq := { pktId := p.id, item := n }
    let bar := itemBar s b (rejected.contains n) x
    if bar != stOk then (if bar = stDenied then itemDeny b x s else s, out ++ [{ st := bar }])
    else
      let l := if mixed then d.1 else (physRead s x.src).1
      let po := if mixed then d.2 else srcPoison s x.src
      let (s, o) := rowGo b k r x l po s
      (s, out ++ [o])

/-- What the rows came to is noted, item by item; an item with requests outstanding stays open. -/
def rowsDone (k id : Nat) (outs : List RowOut) (s : State) : State :=
  let open_ (i : Nat) : Bool := s.fab.reqs.any fun r => r.queue = some k && r.pktId = id && r.item = i
  let any := s.fab.reqs.any fun r => r.queue = some k && r.pktId = id
  let note (y : Pkt) (i : Nat) (o : RowOut) : Pkt :=
    let y := y.addRanges i o.ranges
    if open_ i then (if o.st = stOk then y else { y with part := y.part.put i o.st })
    else if o.st = stOk && !any then y else y.setItem i o.st
  let upd (y : Pkt) : Pkt := if y.id = id then ((List.range outs.length).zip outs).foldl (fun y (i, o) => note y i o) y else y
  pktSettle k id (s.onQueue k fun q => { q with pkts := q.pkts.map upd })

/-- A pre-translated command: translation, run store, pins, and its rows, which are its items. The packet completes
once every far response has arrived. -/
def copyRun (rows : List Row) (pat : Option Nat) (rejected : List Nat) (k : Nat) (p : Pkt) (s0 : State) : Out :=
  let q := s0.queue k
  let b := queueBulk s0 q
  let p := { p with items := rows.length }
  match physRows s0 q.ctx rows with
  | .error (a, need, r) => .next (queueStall k a need r 2 (pktPush k { p with st := .waiting } false s0))
  | .ok xs =>
    if noWay s0 k xs then .next (pktInvalid k p 6 s0)
    else if xs.any (rowWaits s0 b) then .next (pktPush k { p with st := .waiting } false s0)
    else if runStore < (s0.engines.get (k / 1024)).runsUsed + runsOf xs then .next (pktInvalid k p 7 s0)
    else
      let n := if pat.isNone && overlaps xs then ((xs.map fun x => x.row.len)).sum else 0
      let s := s0.onEngine (k / 1024) fun e => { e with runsUsed := e.runsUsed + runsOf xs }
      let (s, outs) := rowsGo b k p pat rejected xs (pktPush k { p with st := .running, pins := pinsOf rows, runs := runsOf xs } false s)
      let s := s.onFreeN (· + n)
      .next (rowsDone k p.id outs s)

/-- The pieces of a destination cut at 64 KiB boundaries (R298). -/
def cutRows (src : Option Nat) (dst len : Nat) : List Row :=
  (cutRange (len + 1) dst len).map fun (a, n) => { src := src.map (· + (a - dst)), dst := a, len := n }
/-- A signed pitch added n times, modulo 2^64. -/
def pitched (base pitch n : Nat) : Nat := (base + pitch * n) % 2 ^ 64
/-- Every address of the rows lies below 2^52. -/
def rowsOk (rs : List Row) : Bool := rs.all fun r => (match r.src with | some a => decide (a + r.len ≤ 2 ^ 52) | none => true) && decide (r.dst + r.len ≤ 2 ^ 52)

end Sys2Proof.Machine
end

