-- ==== Sys2Proof/Machine/SyncEvents.lean ====
section
/-! DEFINITION. Counter operations as they reach their sync unit, deferred and expired waits, and the doorbells of the
host (ch. 11). -/
namespace Sys2Proof.Machine

/-! ### Arriving operations (R272 to R278 R287) -/

/-- An operation of an agent that takes no result. -/
def agentWait (s : State) (ctx src id : Nat) (v : DWord) : Wait :=
  { who := .engine, grp := 65536, lanes := 1, fence := isFenceId id, id := id, value := v, ctx := ctx, gen := (s.ctx ctx).gen, src := src }

/-- The operation of a thread: its result is latched; denied, it faults at its instruction. -/
def threadOp (o : CtrOp) (k lane : Nat) (s : State) : State :=
  let g := s.group k
  let t := g.thread lane
  match t.sync with
  | none => s
  | some y =>
    if g.stage = .empty || y.fin then s
    else
      let w : Wait := { who := .core, grp := g.ident, lanes := laneBit lane, set := y.set, fence := isFenceId o.id, id := o.id, value := o.v, ctx := o.ctx, gen := o.gen, src := o.src }
      match syncOp o.op w o.timeout s with
      | (s, .fin code v) => latchLane g.ident lane code v s
      | (s, .denied) =>
        let s := s.onGroup k fun g => g.onThread lane fun t => { t with sync := none, pc := t.pc - 16 }
        faultGroup k { cause := cDenied, pc := t.pc - 16, threads := laneBit lane, setm := laneBit lane, lanes := laneBit lane } 0 s
      | (s, _) => s

def ctrOps : List Nat := [0x01, 0x02, 0x03, 0x04, 0x10, 0x11, 0x12]

def execCounterOp (o : CtrOp) (s : State) : Out :=
  if !ctrOps.contains o.op || !idOk o.id || (isFenceId o.id && o.op != 0x12) then .next s
  else match o.thr with
    | some (k, l) => .next (threadOp o k l s)
    | none =>
      let w := { agentWait s o.ctx o.src o.id o.v with gen := o.gen }
      .next (syncOp o.op w (if o.op < 0x04 then 0 else o.timeout) s).1

/-- A table entry is free: the oldest wait queued for a die is registered. -/
def execWaitRegisterDeferred (die : Nat) (s : State) : Out := .next (waitPromote die s)

/-- The n-th wait, registered or queued, passes its deadline. -/
def execWaitTimeout (n : Nat) (s : State) : Out :=
  match (s.sync.waits ++ s.sync.queued)[n]? with
  | none => .next s
  | some w =>
    match w.deadline with
    | none => .next s
    | some t =>
      if s.now < t then .next s
      else
        let s := release w rTimeout 0 (s.onSync fun y => { y with queued := y.queued.erase w })
        .next (if w.fence then fenceSlots (fenceKey w.id) s else s)

/-! ### Doorbells of the host (R280 to R284) -/

def hostSrc : Nat := 0x0FFF

/-- The context's doorbell page belongs to the function (R364). -/
def pageOwned (s : State) (fn ctx : Nat) : Bool := decide (ctx < 4096) && (s.ctx ctx).live && (s.ctx ctx).fn = fn
/-- A refused access of a function to its BAR0 (R364): a BAR0 offset is no address of the record. -/
def bar0Refused (fn _off : Nat) (s : State) : State :=
  errAdd { (accessRec (srcPcie (fn % 2)) (0x10 + fn % 2) 0) with unit := fn % 2, flags := 0 } s
/-- BAR0 offset of a context's sync doorbell page (R363). -/
def doorPage (ctx : Nat) : Nat := 0x1000000 + 0x1000 * ctx

/-- A doorbell that is not performed: a CONTAINED record. -/
def doorRefused (ctx : Nat) (d : Door) (s : State) : State :=
  errAdd { source := hostSrc, cls := clAccess, sev := sevContained, ctx := ctx, gen := (s.ctx ctx).gen, die := 0x20, addr := d.id.toNat } s

/-- What every doorbell passes first: its page, its size, an OP that the table lists (a write with another one comes as any of
these commands, with that mark), and the kind of its ID. -/
def doorbell (fn ctx : Nat) (d : Door) (kind : Nat → Bool) (run : State → State) (s : State) : Out :=
  if !pageOwned s fn ctx then .next (bar0Refused fn (doorPage ctx) s)
  else if !d.sized || !d.listed || !idOk d.id.toNat || !kind d.id.toNat then .next (doorRefused ctx d s)
  else .next (run s)

def onCounter (id : Nat) : Bool := !isFenceId id

/-- A counter operation of the host. -/
def doorCtr (op fn ctx : Nat) (d : Door) (s : State) : Out :=
  doorbell fn ctx d onCounter (fun s => (syncOp op (agentWait s ctx hostSrc d.id.toNat d.value) 0 s).1) s

def execDoorbellAdd (fn ctx : Nat) (d : Door) (s : State) : Out := doorCtr 0x01 fn ctx d s
def execDoorbellSub (fn ctx : Nat) (d : Door) (s : State) : Out := doorCtr 0x02 fn ctx d s
def execDoorbellSet (fn ctx : Nat) (d : Door) (s : State) : Out := doorCtr 0x03 fn ctx d s

def watchMax : Nat := 4096
def armedWatches (s : State) (fn : Nat) : Nat := ((s.sync.waits ++ s.sync.queued).filter fun w => w.who = .watch && w.grp = fn).length

/-- A watch is registered like a wait without a timeout; one beyond the function's limit writes its record at once,
whose VALUE the spec does not state. -/
def watchAdd (op fn ctx : Nat) (d : Door) (s : State) : State :=
  let id := d.id.toNat
  let w : Wait :=
    { who := .watch, grp := fn, lanes := 1, fence := isFenceId id, id := id, cond := op, value := if op = 0x12 then 0 else d.value
      ctx := ctx, gen := (s.ctx ctx).gen, src := hostSrc, tag := d.tag.toNat, irq := d.flags.getLsbD 0 }
  if watchMax ≤ armedWatches s fn then notifyPush w 5 s.draw s.drawn
  else match syncOp op w 0xFFFFFFFF s with
    | (s, .fin code v) => notifyPush w code v s
    | (s, _) => s

def execWatchGe (fn ctx : Nat) (d : Door) (s : State) : Out := doorbell fn ctx d onCounter (watchAdd 0x10 fn ctx d) s
def execWatchEq (fn ctx : Nat) (d : Door) (s : State) : Out := doorbell fn ctx d onCounter (watchAdd 0x11 fn ctx d) s
def execWatchNz (fn ctx : Nat) (d : Door) (s : State) : Out := doorbell fn ctx d (fun _ => true) (watchAdd 0x12 fn ctx d) s

/-- A fence operation of the host. -/
def doorFence (fn ctx : Nat) (d : Door) (f : Nat → State → State) (s : State) : Out :=
  doorbell fn ctx d isFenceId (fun s =>
    if fenceAllowed s d.id.toNat ctx then f (fenceKey d.id.toNat) s
    else syncDeny (agentWait s ctx hostSrc d.id.toNat d.value) 0x20 s) s

def execDoorbellFenceSignal (fn ctx : Nat) (d : Door) (s : State) : Out := doorFence fn ctx d (fun k s => (fenceSignal k hostSrc s).1) s
def execFenceClear (fn ctx : Nat) (d : Door) (s : State) : Out := doorFence fn ctx d (fun k s => fenceClear k hostSrc s) s
def execFenceArm (fn ctx : Nat) (d : Door) (s : State) : Out :=
  doorFence fn ctx d (fun k s => fenceArm k (d.value.toNat % 2048) s) s

end Sys2Proof.Machine
end

