-- ==== Sys2Proof/Machine/Engine.lean ====
section
/-! DEFINITION. Queues and their packets: doorbells, ring entries, control packets, copies, remote packets and
completions (ch. 12). -/
namespace Sys2Proof.Machine

/-! ### Doorbells of queues (R289 R301 R317 R364) -/

/-- BAR0 offset of a queue's registers (R363). -/
def qdoorOff (eng q : Nat) : Nat := 0x100000 + 0x8000 * eng + 0x20 * q
/-- The queue exists and is the function's own; an access to another one is refused. -/
def onOwnQueue (fn eng q : Nat) (f : Nat → State → State) (s : State) : Out :=
  let k := queueKey eng q
  if decide (q < 1024) && decide (eng < 32) && (s.queue k).live && (s.queue k).fn = fn then .next (f k s) else .next (bar0Refused fn (qdoorOff eng q) s)

def execQdoorTail (fn eng q : Nat) (v : Word) (s : State) : Out := onOwnQueue fn eng q (fun k s => qTail (.fn fn) k v s) s
def execQdoorChead (fn eng q : Nat) (v : Word) (s : State) : Out := onOwnQueue fn eng q (fun k s => qChead (.fn fn) k v s) s

/-! ### Ring entries (R289 R427) -/

def entryOk (b : List Byte) : Bool :=
  let list := fieldN b 0 8
  let len := fieldN b 8 4
  list % 8 = 0 && vaOk list && len % 8 = 0 && decide (8 ≤ len) && decide (len ≤ 2 ^ 24) && decide (fieldN b 12 4 < 2)

/-- A ring entry that ends in a record of its own, without items. -/
def entryEnd (k st reason : Nat) (s : State) : State :=
  let q := s.queue k
  let p := { nextPkt s q 0xFF [] with ent := q.ent.toNat, off := 0, st := .done, status := st, reason := reason, items := 0, tsc := s.tsc.time }
  pktPush k p true (s.onQueue k fun q => { q with ent := q.ent + 1, nextId := q.nextId + 1, got := [], bad := [], defer := 0 })

def entryRead (k : Nat) (s : State) : State :=
  let q := s.queue k
  match queueRead k (q.ring + 16 * (q.ent.toNat % 2 ^ q.s)) 16 s with
  | .wait s => s
  | .stall a r => queueStall k a needR r 1 s
  | .fail st s => entryEnd k st 0 s
  | .ok b s =>
    if entryOk b then
      s.onQueue k fun q =>
        { q with ent := q.ent + 1, listOn := true, listAt := fieldN b 0 8, listLen := fieldN b 8 4, listOff := 0
                 stopOnFail := (fieldN b 12 4).testBit 0, got := [], bad := [] }
    else entryEnd k stInvalid 9 s

/-- The header that follows in an open list has no known opcode: no packet command takes it. -/
def unknownNext (k : Nat) (s : State) : State :=
  let q := s.queue k
  match queueRead k (q.listAt + q.listOff) 8 s with
  | .wait s => s
  | .stall a r => queueStall k a needR r 1 s
  | .fail st s => unreadable k 0xFF st s
  | .ok h t => if (opUnits (byteAt h 0)).isNone then pktInvalid k (nextPkt s q (byteAt h 0) h) 1 (listAdvance k 8 t) else s

def execRingEntryFetch (eng q : Nat) (s : State) : Out :=
  let k := queueKey eng q
  let x := s.queue k
  if 1024 ≤ q || !queueReady s eng k || x.pkts.any (·.st = .waiting) then .next s
  else if x.listOn then .next (unknownNext k s)
  else if x.ent = x.tail then .next s
  else .next (entryRead k s)

/-! ### Writes of the queue itself (R289 R301 R427) -/

/-- Writes through the queue's stream: made, not yet possible, destined for a host that is absent, or the queue stalled. -/
inductive QWrite where
  | ok (s : State)
  | wait
  | absent
  | stall (s : State)

/-- The ENGINE record of a denied write. -/
def writeDenied (k va : Nat) (s : State) : State :=
  let q := s.queue k
  errAdd { source := engSrc (k / 1024), cls := clEngine, sev := sevContained, ctx := q.ctx, gen := (s.ctx q.ctx).gen, unit := q.inst, die := engDie s.variant (k / 1024), flags := 1, addr := va }
    (queueStall k va needW 2 3 s)

def queueWrites (k : Nat) (ws : List (Nat × List Byte)) (s : State) : QWrite :=
  let q := s.queue k
  let b := queueBulk s q
  let bad : Option (BBad × Nat) := ws.findSome? fun (a, l) => bulkCheck s b a l.length needW
  match bad with
  | some (.page r, a) => .stall (queueStall k a needW r 3 s)
  | some (.denied, a) => .stall (writeDenied k a (bulkDeny b a needW s))
  | some (.ctrl, a) => .stall (writeDenied k a s)
  | some (.absent, _) => .absent
  | some (.retry, _) | some (.remote, _) => .wait
  | none => .ok (ws.foldl (fun s (a, l) => (bulkWr b none a l [] s).1) s)

/-- A queue that is being destroyed with DRAIN is empty: it ends and the request is answered (R313). -/
def drainCheck (k : Nat) (s : State) : State :=
  let q := s.queue k
  if q.drain && q.pkts.isEmpty && !q.listOn && q.ent = q.tail && q.head = q.tail then
    let s := s.onQs fun t => t.put k {}
    match q.drainReq with
    | some h => pmiAnswer h 0x0031 pOk 0 [] s
    | none => s
  else s

/-- The count of finished entries goes to the head address and to QSTATUS.HEAD; a queue that has nothing left gives
up its slot (R321). -/
def execSubmissionHeadWrite (eng q : Nat) (s : State) : Out :=
  let k := queueKey eng q
  let x := s.queue k
  let n := x.finished
  if 1024 ≤ q || !x.live || !engineRuns s eng || x.stalled || n = x.head || decide (2 ^ 31 ≤ (n - x.head).toNat) then .next s
  else match queueWrites k [(x.headAddr, leBytes 4 n.toNat)] s with
    | .ok s => .next (drainCheck k (s.onQueue k fun y => { y with head := n, resident := y.resident && n != y.tail, pendAt := if n = y.tail then none else y.pendAt }))
    | .stall s => .next s
    | .wait | .absent => .next s

/-! ### Control packets (R294 R295) -/

def execNop (eng q : Nat) (s : State) : Out := packet eng q 0x00 (fun k p s => .next (pktDone k p stOk s)) s

/-- The rest of the list is not read; the queue goes on at the target, as part of the same entry. -/
def execJump (eng q : Nat) (s : State) : Out :=
  packet eng q 0x01 (fun k p s =>
    let t := p.f 8 8
    let n := p.arg
    if t % 8 = 0 && vaOk t && n % 8 = 0 && decide (8 ≤ n) && decide (n ≤ 2 ^ 24) then
      .next ((pktDone k p stOk s).onQueue k fun x => { x with listOn := true, listAt := t, listLen := n, listOff := 0 })
    else .next (pktInvalid k p 9 s)) s

def execMarker (eng q : Nat) (s : State) : Out :=
  packet eng q 0x02 (fun k p s => .next (pktDone k { p with value := BitVec.ofNat 64 (p.f 8 8) } stOk s)) s

/-- A packet's own write to memory; `.waiting` where it cannot be made yet. -/
def execTimestamp (eng q : Nat) (s : State) : Out :=
  packet eng q 0x03 (fun k p s =>
    let a := p.f 8 8
    let p := { p with value := s.tsc.time }
    let b := queueBulk s (s.queue k)
    if a % 8 != 0 || !vaOk a then .next (pktInvalid k p 4 s)
    else if a = 0 then .next (pktDone k p stOk s)
    else match bulkCheck s b a 8 needW with
      | none =>
        let (s, met) := bulkWr b none a (leBytes 8 s.now) [] s
        .next (pktDone k p (if met then stPoison else stOk) s)
      | some (.page r, x) => .next (queueStall k x needW r 2 (pktPush k { p with st := .waiting } false s))
      | some (.denied, x) => .next (pktDone k p stDenied (bulkDeny b x needW s))
      | some (.ctrl, _) => .next (pktDone k p stDenied s)
      | some (.absent, _) => if orphaned s b.ctx then .next (pktDone k p stHostAbsent s) else .next (pktPush k { p with st := .waiting } false s)
      | some (.retry, _) | some (.remote, _) => .next (pktPush k { p with st := .waiting } false s)) s

/-- Bytes of a body from `i` on that the opcode does not use are 0. -/
def bodyZero (p : Pkt) (i n : Nat) : Bool := p.f i n = 0

def execSignal (eng q : Nat) (s : State) : Out :=
  packet eng q 0x04 (fun k p s =>
    let op := p.f 16 1
    if !(op = 1 || op = 2 || op = 3) || !bodyZero p 17 7 || !counterId p.arg then .next (pktInvalid k p 5 s)
    else match syncOp op (engWait s k (s.queue k) p.arg (BitVec.ofNat 64 (p.f 8 8))) 0 s with
      | (s, .fin code _) => .next (pktSync k p code 0 false s)
      | (s, _) => .next (pktDone k p stDenied s)) s

def condOk (c : Nat) : Bool := c = 0x10 || c = 0x11 || c = 0x12

/-- A wait: satisfied at once, registered, or denied; a result other than OK ends the list. -/
def execWait (eng q : Nat) (s : State) : Out :=
  packet eng q 0x05 (fun k p s =>
    let id := p.arg
    let c := p.f 16 1
    if !condOk c || !bodyZero p 17 3 || !idOk id || (isFenceId id && c != 0x12) then .next (pktInvalid k p 5 s)
    else match syncOp c (engWait s k (s.queue k) id (if c = 0x12 then 0 else BitVec.ofNat 64 (p.f 8 8))) (p.f 20 4) s with
      | (s, .fin code v) => .next (pktSync k p code v true s)
      | (s, .waits) => .next (pktPush k { p with st := .running } false s)
      | (s, _) => .next (pktPush k { p with st := .done, status := stDenied, rest := stDenied, tsc := s.tsc.time } true s)) s

def execFenceSignal (eng q : Nat) (s : State) : Out :=
  packet eng q 0x06 (fun k p s =>
    let id := p.arg
    if !idOk id || !isFenceId id then .next (pktInvalid k p 5 s)
    else if !fenceAllowed s id (s.queue k).ctx then .next (pktDone k p stDenied (syncDeny (engWait s k (s.queue k) id 0) 0x20 s))
    else
      let (s, code) := fenceSignal (fenceKey id) (engSrc eng) s
      .next (pktSync k p code 0 false s)) s

/-! ### LAUNCH (R160 R161 R296 R297 R325 R326) -/

/-- Local store of a split in bytes (R158), 0 for a code without a split. -/
def splitLs (c : Nat) : Nat := [640, 512, 384, 256, 128].getD c 0 * 1024
/-- Local-store bytes of a group, a multiple of 4 KiB (R160). -/
def roundLs (n : Nat) : Nat := (n + 4095) / 4096 * 4096
/-- Vector registers of a group, a multiple of 8. -/
def roundRegs (n : Nat) : Nat := (n + 7) / 8 * 8
/-- Groups of a launch that a core holds (R161); `cap` 0: no limit. -/
def occupancy (vregs split ls cap : Nat) : Nat :=
  let a := min 48 (2048 / roundRegs vregs)
  let a := if ls = 0 then a else min a (splitLs split / roundLs ls)
  if cap = 0 then a else min a cap
/-- Die-local cores of a CORE_MASK, ascending. -/
def maskCores (n : Nat) : List Nat := (List.range 128).filter n.testBit
/-- Resident groups a context may have on a die: the tighter of its own quota and its function's (R325). -/
def tighter (a b : Option Nat) : Option Nat :=
  match a, b with
  | none, b => b
  | a, none => a
  | some x, some y => some (min x y)
def groupQuota (s : State) (c : Nat) : Option Nat := tighter (s.ctx c).qGroups (s.fn (s.ctx c).fn).qGroups

/-- The first rule that a LAUNCH breaks. -/
def launchBad (p : Pkt) : Option Nat :=
  let entry := p.f 8 8
  let args := p.f 16 8
  let cutT := p.f 24 8
  if entry % 16 != 0 || args % 8 != 0 || !vaOk entry || !vaOk args || !vaOk cutT then some 4
  else if p.arg = 0 || p.f 48 1 = 0 || decide (4 < p.f 49 1) || decide (48 < p.f 50 1) || decide (4 ≤ p.f 51 1) || p.f 68 4 != 0 ||
    (p.f 60 4 != 0 && !counterId (p.f 64 4)) then some 5
  else if occupancy (p.f 48 1) (p.f 49 1) (p.f 52 4) (p.f 50 1) = 0 then some 8
  else none

def launchOf (s : State) (eng k : Nat) (p : Pkt) : Launch :=
  { live := true, queue := k, ctx := (s.queue k).ctx, gen := (s.ctx (s.queue k).ctx).gen, die := eng, seq := (s.engines.get eng).launchSeq, groups := p.arg
    entry := p.f 8 8, args := p.f 16 8, cut := p.f 24 8, mask := maskCores (p.f 32 16), vregs := p.f 48 1, split := p.f 49 1, cap := p.f 50 1
    fixed := (p.f 51 1).testBit 0, safe := (p.f 51 1).testBit 1, lsSize := roundLs (p.f 52 4), seed := BitVec.ofNat 32 (p.f 56 4)
    clipT := p.f 60 4, clipId := BitVec.ofNat 32 (p.f 64 4), waitAt := s.now, roomAt := s.now }

def execLaunch (eng q : Nat) (s : State) : Out :=
  packet eng q 0x10 (fun k p s =>
    let c := (s.queue k).ctx
    match launchBad p with
    | some r => .next (pktInvalid k p r s)
    | none =>
      let l := launchOf s eng k p
      let p := { p with items := p.arg }
      if !(l.mask.any fun i => (s.phys (lOf eng i)).isSome) then .next (pktDone k p stCapacity s)
      else if groupQuota s c = some 0 then .next (pktDone k p stQuota s)
      else
        let key := launchKey eng l.seq
        let s := s.onEngine eng fun e => { e with launchSeq := (e.launchSeq + 1) % 2 ^ 32 }
        .next (pktPush k { p with st := .running, launch := key } false (s.onLaunches fun t => t.put key l))) s

/-! ### Copy packets (R258 R298 R299) -/

/-- `addrs`: where SRC and DST stand in the packet. -/
def copyPacket (addrs : List Nat) (rows : Pkt → List Row) (bad5 : Pkt → Bool) (pat : Pkt → Option Nat) (rejected : List Nat) (k : Nat) (p : Pkt) (s : State) : Out :=
  if !rowsOk (rows p) || !(addrs.all fun i => vaOk (p.f i 8)) then .next (pktInvalid k p 4 s)
  else if bad5 p then .next (pktInvalid k p 5 s)
  else copyRun (rows p) (pat p) rejected k p s

def rows2 (p : Pkt) (planes sp dp : Nat) : List Row :=
  let len := p.f 24 4
  if len = 0 then []
  else (List.range planes).flatMap fun z => (List.range (p.f 28 4)).map fun y =>
    { src := some (pitched (pitched (p.f 8 8) sp z) (p.f 32 8) y), dst := pitched (pitched (p.f 16 8) dp z) (p.f 40 8) y, len := len }

def execCopy (eng q : Nat) (rejected : List Nat) (s : State) : Out :=
  packet eng q 0x20 (copyPacket [8, 16] (fun p => cutRows (some (p.f 8 8)) (p.f 16 8) (p.f 24 8)) (fun _ => false) (fun _ => none) rejected) s
def execCopy2d (eng q : Nat) (rejected : List Nat) (s : State) : Out :=
  packet eng q 0x21 (copyPacket [8, 16] (fun p => rows2 p 1 0 0) (fun _ => false) (fun _ => none) rejected) s
def execCopy3d (eng q : Nat) (rejected : List Nat) (s : State) : Out :=
  packet eng q 0x22 (copyPacket [8, 16] (fun p => rows2 p (p.f 48 4) (p.f 56 8) (p.f 64 8)) (fun p => !bodyZero p 52 4) (fun _ => none) rejected) s
/-- Destination byte a receives byte a mod 8 of the pattern. -/
def execFill (eng q : Nat) (s : State) : Out :=
  packet eng q 0x23 (copyPacket [8] (fun p => cutRows none (p.f 8 8) (p.f 16 8)) (fun _ => false) (fun p => some (p.f 24 8)) []) s

/-! ### Remote packets (R300 R347 R348) -/

def noCounter : Nat := 0xFFFFFFFF
/-- The first rule a remote packet breaks: `dev` and `port` where its fields lie. -/
def remoteBad (s : State) (eng : Nat) (rows : List Row) (addrsOk fieldsOk : Bool) (dev port : Nat) : Option Nat :=
  if !rowsOk rows || !addrsOk then some 4
  else if !fieldsOk then some 5
  else if (port != 0xFF && decide (nPorts s.variant ≤ port)) || (dev != s.devId && (s.fab.ios.get (eng - 24)).routes.get dev = 0) then some 6
  else none

/-- Timeout in ns of a remote packet. -/
def remoteTimeout (s : State) (us : Nat) : Nat := if us = 0 then coreTimeout s else 1000 * us
/-- SRC and DST are addresses (R247). -/
def moveVa (p : Pkt) : Bool := vaOk (p.f 8 8) && vaOk (p.f 16 8)
def moveOk (p : Pkt) : Bool := bodyZero p 37 3 && bodyZero p 44 4 && (p.arg = noCounter || counterId p.arg)

/-- One row of a transfer within the device: the far side lies in DCONTEXT's space; its bytes are counted, those that a third
device holds as they arrive. -/
def rowHome (b : Bulk) (k n : Nat) (p : Pkt) (x : XRow) (s : State) : State × RowOut :=
  let bar := itemBar s b false x
  if bar != stOk then (if bar = stDenied then itemDeny b x s else s, { st := bar })
  else
    let l := (physRead s x.src).1
    let po := srcPoison s x.src
    let far := ((x.src.filter fun y => isFar s y.1).map (·.2)).sum
    let cnt := if p.arg = noCounter then (s, SyncRes.fin rOk 0)
      else syncOp 0x01 (engWait s k (s.queue k) p.arg (BitVec.ofNat 64 (x.row.len - far - lostBytes s x.dst po))) 0 s
    match cnt with
    | (t, .fin _ _) => rowGo b k { pktId := p.id, item := n, ctr := if far = 0 then 0xFFFFFFFF else BitVec.ofNat 32 p.arg } x l po t
    | (t, _) => (t, { st := stDenied })

/-- The near ranges of a transfer within the device: destinations of a get, sources of a put. -/
def nearRanges (s : State) (c : Nat) (get : Bool) (rows : List Row) : Except (Nat × Nat) (List (List (Nat × Nat))) :=
  rows.foldl (init := .ok []) fun acc r =>
    match acc, physRange s c (if get then r.dst else r.src.getD 0) r.len (if get then needW else needR) with
    | .error x, _ | .ok _, .error x => .error x
    | .ok l, .ok x => .ok (l ++ [x])

/-- The rows of such a transfer, none for one whose far-side range does not translate: that is denied, without a fault
record. -/
def homeRows (s : State) (get : Bool) (p : Pkt) (rows : List Row) (ns : List (List (Nat × Nat))) : List (Option XRow) :=
  (rows.zip ns).map fun (r, n) =>
    match physRange s (p.f 34 2) (if get then r.src.getD 0 else r.dst) r.len (if get then needR else needW) with
    | .error _ => none
    | .ok f => some (if get then { row := r, src := f, dst := n } else { row := r, src := n, dst := f })

/-- Those rows, one after the other. -/
def homeGo (b : Bulk) (k : Nat) (p : Pkt) (ys : List (Option XRow)) (s : State) : State × List RowOut :=
  ((List.range ys.length).zip ys).foldl (init := (s, ([] : List RowOut))) fun (s, out) (n, y) =>
    match y with
    | none => (s, out ++ [{ st := stDenied }])
    | some x => let (s, o) := rowHome b k n p x s; (s, out ++ [o])

/-- A transfer whose device is this one: translation, run store and pins as for any other, then its rows, which are its items. -/
def moveHome (get : Bool) (rows : List Row) (k : Nat) (p : Pkt) (s : State) : Out :=
  let q := s.queue k
  let b := queueBulk s q
  let p := { p with items := rows.length }
  match nearRanges s q.ctx get rows with
  | .error (a, r) => .next (queueStall k a (if get then needW else needR) r 2 (pktPush k { p with st := .waiting } false s))
  | .ok ns =>
    let ys := homeRows s get p rows ns
    let xs := ys.filterMap id
    if noWay s k xs then .next (pktInvalid k p 6 s)
    else if xs.any (rowWaits s b) then .next (pktPush k { p with st := .waiting } false s)
    else if runStore < (s.engines.get (k / 1024)).runsUsed + runsOf xs then .next (pktInvalid k p 7 s)
    else
      let p := { p with st := .running, runs := runsOf xs, pins := rows.map fun r => (if get then r.dst else r.src.getD 0, r.len) }
      let s := pktPush k p false (s.onEngine (k / 1024) fun e => { e with runsUsed := e.runsUsed + runsOf xs })
      let r := homeGo b k p ys s
      .next (rowsDone k p.id r.2 r.1)

/-- Poisoned 64 B flits of data. -/
def flitMask (n : Nat) (po : List Nat) : List Nat := (List.range ((n + 63) / 64)).filter fun i => po.any fun o => o / 64 = i

/-- The PUTs of one source piece, 4,096 bytes at most each; bytes that lie in a third device are fetched first. -/
def copyPutPiece (b : Bulk) (k n : Nat) (p : Pkt) (timeout pa len va src : Nat) (s : State) : State :=
  (List.range ((len + 4095) / 4096)).foldl (init := s) fun s i =>
    let m := min 4096 (len - 4096 * i)
    let put : FPkt := { type := 1, flits := 1 + (m + 63) / 64, dst := p.f 32 2, src := s.devId, sctx := b.ctx, sgen := b.gen, count := p.arg != noCounter,
                        dctx := p.f 34 2, len := m, addr := va + 4096 * i, counter := if p.arg = noCounter then 0 else BitVec.ofNat 32 p.arg }
    let r : Rreq := { pktId := p.id, item := n, port := p.f 36 1, srcVa := src + 4096 * i }
    if isFar s pa then
      let g : FPkt := { type := 3, dst := paDev pa, sctx := b.ctx, sgen := b.gen, phys := true, dctx := 0xFFFF, len := m, addr := paLocal pa + 4096 * i }
      engSend k { r with pkt := g, next_ := some put } timeout s
    else
      let (d, po) := physRead s [(pa + 4096 * i, m)]
      engSend k { r with pkt := { put with poison := !po.isEmpty, mask := flitMask m po, data := d } } timeout s

/-- Items of a remote transfer, each with the state its requests leave. -/
def remoteItems (b : Bulk) (rejected : List Nat) (p : Pkt) (go : Nat → XRow → State → State) (xs : List XRow) (s : State) : State × Pkt :=
  ((List.range xs.length).zip xs).foldl (init := (s, p)) fun (s, p) (n, x) =>
    let bar := itemBar s b (rejected.contains n) x
    if bar != stOk then (if bar = stDenied then itemDeny b x s else s, p.setItem n bar)
    else
      let po := srcPoison s x.src
      let p := if po.isEmpty then p else { p with part := p.part.put n stPoison }.addRanges n (poisonRanges (x.row.src.getD 0) po)
      (go n x (physTouch (x.src.filter fun y => !isFar s y.1) s), p)

/-- The requests of one item: the PUTs of its source pieces, or the GETs of its source range. -/
def putItem (b : Bulk) (k : Nat) (p : Pkt) (n : Nat) (x : XRow) (s : State) : State :=
  (x.src.foldl (init := (s, 0)) fun (s, o) (pa, m) =>
    (copyPutPiece b k n p (remoteTimeout s (p.f 40 4)) pa m (x.row.dst + o) (x.row.src.getD 0 + o) s, o + m)).1
def getItem (b : Bulk) (k : Nat) (p : Pkt) (n : Nat) (x : XRow) (s : State) : State :=
  (List.range ((x.row.len + 4095) / 4096)).foldl (init := s) fun s i =>
    let m := min 4096 (x.row.len - 4096 * i)
    let g : FPkt := { type := 3, dst := p.f 32 2, sctx := b.ctx, sgen := b.gen, dctx := p.f 34 2, len := m, addr := x.row.src.getD 0 + 4096 * i }
    engSend k { pktId := p.id, item := n, port := p.f 36 1, pkt := g, dest := takeRuns m (dropRuns (4096 * i) x.dst), ctr := BitVec.ofNat 32 p.arg
                srcVa := x.row.src.getD 0 + 4096 * i }
      (remoteTimeout s (p.f 40 4)) s

/-- The items of a transfer to or from another device: its rows with their local pieces, whose pages are pinned. -/
def farRows (rows : List Row) (xs : List XRow) : List XRow := (rows.zip xs).map fun (r, x) => { x with row := r }
def farPins (xs : List XRow) : List (Nat × Nat) :=
  xs.flatMap fun x => (if x.src.isEmpty then [] else [(x.row.src.getD 0, x.row.len)]) ++ if x.dst.isEmpty then [] else [(x.row.dst, x.row.len)]

/-- A transfer to or from another device: its local side is pre-translated and pinned, its requests leave. -/
def moveFar (rejected : List Nat) (local_ : List Row) (rows : List Row) (go : Bulk → Nat → Pkt → Nat → XRow → State → State) (k : Nat) (p : Pkt) (s : State) : Out :=
  let q := s.queue k
  let b := queueBulk s q
  let p := { p with items := rows.length }
  match physRows s q.ctx local_ with
  | .error (a, need, r) => .next (queueStall k a need r 2 (pktPush k { p with st := .waiting } false s))
  | .ok xs =>
    let xs := farRows rows xs
    if noWay s k xs then .next (pktInvalid k p 6 s)
    else if xs.any (rowWaits s b) then .next (pktPush k { p with st := .waiting } false s)
    else if runStore < (s.engines.get (k / 1024)).runsUsed + runsOf xs then .next (pktInvalid k p 7 s)
    else
      let p := { p with st := .running, runs := runsOf xs, pins := farPins xs }
      let s := s.onEngine (k / 1024) fun e => { e with runsUsed := e.runsUsed + runsOf xs }
      let (s, p) := remoteItems b rejected p (go b k p) xs s
      .next (pktSettle k p.id (pktPush k p false s))

def execRemotePut (eng q : Nat) (rejected : List Nat) (s : State) : Out :=
  packet eng q 0x30 (fun k p s =>
    let rows := cutRows (some (p.f 8 8)) (p.f 16 8) (p.f 24 8)
    match remoteBad s eng rows (moveVa p) (moveOk p) (p.f 32 2) (p.f 36 1) with
    | some r => .next (pktInvalid k p r s)
    | none =>
      if p.f 32 2 = s.devId then moveHome false rows k p s
      else
        moveFar rejected (rows.map fun r => { r with dst := 0 }) rows putItem k p s) s

def execRemoteGet (eng q : Nat) (s : State) : Out :=
  packet eng q 0x31 (fun k p s =>
    let rows := cutRows (some (p.f 8 8)) (p.f 16 8) (p.f 24 8)
    match remoteBad s eng rows (moveVa p) (moveOk p) (p.f 32 2) (p.f 36 1) with
    | some r => .next (pktInvalid k p r s)
    | none =>
      if p.f 32 2 = s.devId then moveHome true rows k p s
      else
        moveFar [] (rows.map fun r => { r with src := none }) rows getItem k p s) s

/-- Result of a REMOTE_WAIT on the device's own counter. -/
def waitHome (k : Nat) (p : Pkt) (s : State) : Out :=
  let us := if p.f 24 4 = 0 then coreTimeout s / 1000 else p.f 24 4
  match syncOp (p.f 20 1) (engWait s k (s.queue k) p.arg (if p.f 20 1 = 0x12 then 0 else BitVec.ofNat 64 (p.f 8 8))) us s with
  | (s, .fin code v) => .next (pktSync k p code v true s)
  | (s, .waits) => .next (pktPush k { p with st := .running } false s)
  | (s, _) => .next (pktPush k { p with st := .done, status := stDenied, rest := stDenied, tsc := s.tsc.time } true s)

def execRemoteWait (eng q : Nat) (s : State) : Out :=
  packet eng q 0x32 (fun k p s =>
    let dev := p.f 16 2
    match remoteBad s eng [] true (condOk (p.f 20 1) && bodyZero p 22 2 && bodyZero p 28 4 && counterId p.arg) dev (p.f 21 1) with
    | some r => .next (pktInvalid k p r s)
    | none =>
      if dev = s.devId then waitHome k p s
      else
        let w : FPkt := { type := 5, dst := dev, sctx := (s.queue k).ctx, sgen := p.gen, dctx := p.f 18 2, len := p.f 20 1, counter := BitVec.ofNat 32 p.arg, value := BitVec.ofNat 64 (p.f 8 8) }
        .next (engSend k { pkt := w, pktId := p.id, port := p.f 21 1 } (remoteTimeout s (p.f 24 4)) (pktPush k { p with st := .running } false s))) s

/-! ### Completions (R125 R301 to R304 R376 R427) -/

/-- The light-meter record of a launch (R125); COMPLETE is clear in a cancelled one (R126). -/
def lmRecord (l : Launch) (whole : Bool) : List Byte :=
  let b := l.lm
  let fl := (if whole then 1 else 0) + (if b.sat then 2 else 0) + (if l.clipped then 4 else 0) + (if l.replayed then 8 else 0)
  leBytes 2 1 ++ leBytes 2 fl ++ leBytes 4 l.cores.length ++ leBytes 8 b.elements.toNat ++ leBytes 8 b.saturated.toNat ++ leBytes 8 b.flushed.toNat ++
  leBytes 8 b.retakes.toNat ++ leBytes 8 b.tests.toNat ++ (List.range 68).flatMap fun i => leBytes 4 (b.bin.get i).toNat

/-- Item n failed. -/
def Pkt.itemFails (p : Pkt) (n : Nat) : Bool := match p.itemSt.get n with | 0 => p.rest != stOk | v => v != stOk + 1
def bitmapByte (p : Pkt) (i : Nat) : Byte :=
  BitVec.ofNat 8 (((List.range 8).map fun j => if decide (8 * i + j < p.items) && p.itemFails (8 * i + j) then 2 ^ j else 0).sum)
def padBytes (n : Nat) (l : List Byte) : List Byte := l ++ zeros ((n - l.length % n) % n)

/-- A failure report for an area of 2^f bytes, and whether it is truncated (R304). -/
def reportOf (p : Pkt) (f : Nat) : List Byte × Bool :=
  let bm := (p.items + 7) / 8
  let big := decide (2 ^ f < 64 + (bm + 7) / 8 * 8 + 16 * p.ranges.length)
  let nb := if big then min bm (2 ^ f - 64) else bm
  let rs := if big then [] else p.ranges
  (leBytes 2 1 ++ leBytes 2 rs.length ++ leBytes 4 nb ++ ((List.range 11).flatMap fun i => leBytes 4 (p.count (i + 1))) ++ zeros 12 ++
    padBytes 8 ((List.range nb).map (bitmapByte p)) ++ rs.flatMap fun (_, a, n) => leBytes 8 a ++ leBytes 8 n, big)

/-- A completion record (R302); `rep` the address of its failure report. -/
def complRec (s : State) (q : Queue) (p : Pkt) (rep : Option Nat) (trunc : Bool) : List Byte :=
  let l := s.launches.get p.launch
  let fl := (if rep.isSome then 1 else 0) + (if trunc then 2 else 0) + (if p.hold != 0 then 4 else 0)
  leBytes 1 p.status ++ leBytes 1 p.op ++ leBytes 1 fl ++ [p.gen] ++ leBytes 2 q.ctx ++ leBytes 2 q.num ++ leBytes 4 q.seq ++ leBytes 4 p.ent ++
  leBytes 4 p.off ++ leBytes 4 p.items ++ leBytes 4 (if p.items = 0 then 0 else p.failed) ++ leBytes 4 (if p.op = 0x10 then l.seq else 0) ++
  leBytes 8 p.tsc.toNat ++ leBytes 8 (rep.getD 0) ++ leBytes 2 (min p.deferrals 0xFFFF) ++ leBytes 2 (min p.displ 0xFFFF) ++ leBytes 1 p.reason ++
  leBytes 1 p.result ++ zeros 2 ++ leBytes 8 p.value.toNat ++
  (if q.kind = 0 then (if p.op = 0x10 then lmRecord l (p.status != stCancelled) else zeros 320) else [])

/-- A packet that writes a record: not OK, COMPLETE, or a MARKER (R292). -/
def Pkt.records (p : Pkt) : Bool := p.status != stOk || p.complete || p.op = 0x02
/-- Bytes of its failure report's space, 0 without one. -/
def reportBytes (p : Pkt) (f : Nat) : Nat := if p.items != 0 && p.failed != 0 then ((reportOf p f).1.length + 63) / 64 * 64 else 0

/-- The oldest packet has completed: it leaves the queue, which counts it; its pins, runs and launch are released.
Under STOP_ON_FAIL the rest of its list is skipped. -/
def pktRetire (k : Nat) (p : Pkt) (s : State) : State :=
  let q := s.queue k
  let s := freeRuns (k / 1024) [p] s
  let s := s.onLaunches fun t => t.put p.launch {}
  let s := acctAdd q.ctx (if p.status = stOk then aCompleted else aFailed) 1 s
  let s := if p.status = stQuota then acctAdd q.ctx aQuota 1 s else if p.status = stCapacity then acctAdd q.ctx aCapacity 1 s else s
  s.onQueue k fun q =>
    { q with pkts := q.pkts.drop 1, needF := 0, listOn := q.listOn && !(p.status != stOk && q.stopOnFail && p.ent = (q.ent - 1).toNat) }

/-- What a record writes, `pos` being its report's place: the report, the record in the next completion slot, the tail. -/
def recordBytes (s : State) (q : Queue) (p : Pkt) (pos : Nat) : List (Nat × List Byte) :=
  let n := reportBytes p q.f
  let (rep, trunc) := reportOf p q.f
  let at_ := if n = 0 then none else some (q.fail + pos)
  (match at_ with | some a => [(a, rep)] | none => []) ++
    [(q.cring + q.slotBytes * (q.ct.toNat % 2 ^ q.c), complRec s q p at_ (n != 0 && trunc)), (q.ctail, leBytes 4 (q.ct + 1).toNat)]
/-- The queue once its record is written: the tail and the sequence number rise by one, a report takes its space. -/
def Queue.recorded (q : Queue) (n pos : Nat) : Queue :=
  { q with
    ct := q.ct + 1
    seq := (q.seq + 1) % 2 ^ 32
    fpos := if n = 0 then q.fpos else pos + n
    fspans := if n = 0 then q.fspans else q.fspans ++ [(q.ct.toNat, pos, n)] }
/-- The record of the oldest packet with its report, then the tail, then the interrupt. -/
def recordWrite (k : Nat) (p : Pkt) (s : State) : State :=
  let q := s.queue k
  let n := reportBytes p q.f
  match q.place n with
  | none => s.onQueue k fun q => { q with needF := n }
  | some pos =>
    match queueWrites k (recordBytes s q p pos) s with
    | .ok s =>
      let s := s.onQueue k fun q => q.recorded n pos
      pktRetire k p (if p.irq then msixRaise q.fn q.vector s else s)
    | .stall s => s
    | .wait | .absent => s

/-- The queue's records are held: they are for the memory of a host that is gone, or were claimed without delivery. -/
def recordsHeld (s : State) (q : Queue) : Bool :=
  s.ctxHeld q.fn q.ctx && ((s.ctx q.ctx).noDeliver || [q.cring, q.ctail].any fun a =>
    match translate s q.ctx a needW with | .ok pa _ => isHost s pa | .fault _ => false)

/-- The first record not yet held finds room in the held-record buffer (R376); a packet without a record leaves. -/
def recordHold (k : Nat) (s : State) : State :=
  let q := s.queue k
  match q.pkts.find? fun p => p.hold = 0 with
  | none => s
  | some p =>
    let n := q.slotBytes + reportBytes p q.f
    if p.st != .done || heldCap < heldBytes s + n then s
    else s.onQueue k fun q => { q with pkts := q.pkts.map fun x => if x = p then { x with hold := n } else x }

/-- The oldest packet of a queue, if it has finished, is recorded. -/
def recordOne (k : Nat) (s : State) : State :=
  let q := s.queue k
  match q.pkts with
  | [] => s
  | p :: _ =>
    if q.stalled || s.pwr.state = .fatal then s
    else if p.st = .done && !p.records then pktRetire k p s
    else if recordsHeld s q then recordHold k s
    else if p.st != .done || q.full then s
    else recordWrite k p s

def execPacketComplete (eng q : Nat) (s : State) : Out :=
  let k := queueKey eng q
  if 1024 ≤ q || !(s.queue k).live || (s.engines.get eng).out then .next s else .next (drainCheck k (recordOne k s))

end Sys2Proof.Machine
end

