-- ==== Sys2Proof/Machine/RemoteOps.lean ====
section
/-! DEFINITION. Checks on requests of other devices, and the conversion of tier ways (R195, R196, R349). -/
namespace Sys2Proof.Machine

/-- The context check and generation check of a remote requester (device, context, generation) at a local address;
an admitted request keeps the pair's newest generation (R349). -/
def remoteAdmit (dev c : Nat) (gen : BitVec 8) (a : Nat) (s : State) : Admit × State :=
  let g := s.tier.gran.get (granKey a)
  let stopped := match zoneOf a with | .hbm d | .pinned d => (s.tier.dies.get d).stopped | _ => false
  let member := (s.tier.sets.get g.sset).remotes.find? fun m => m.1 = dev && m.2.1 = c
  if stopped then (.retry, s)
  else if !(match zoneOf a with | .hbm _ | .pinned _ => true | _ => false) then (.denied, s)
  else if !fencedAt s a && (!backed s a || !g.valid || !g.shared) then (.denied, s)
  else match member with
    | none => (.denied, s)
    | some (_, _, kept) =>
      let step := match kept with | some k => (gen - k).toNat | none => 0
      if 128 ≤ step then (.stale, s)
      else
        let keep (m : Nat × Nat × Option (BitVec 8)) : Nat × Nat × Option (BitVec 8) := if m.1 = dev && m.2.1 = c then (dev, c, some gen) else m
        (.ok, s.onTier fun t => { t with sets := t.sets.upd g.sset fun x => { x with remotes := x.remotes.map keep } })

/-! ### Way states that a conversion leaves (R195) -/

/-- Pinned ways of a target: ways 15 down to 16 - np; 17 is DISABLE. -/
def newPinned (np : Nat) : BitVec 16 := if 16 < np then 0 else (List.range 16).foldl (fun b w => setBit16 b w (decide (16 - np ≤ w))) 0
def newOff (np : Nat) : BitVec 16 := if 16 < np then 0xFFFF else 0
/-- Ways that leave CACHE. -/
def leaving (sl : Slice) (np : Nat) : BitVec 16 :=
  (List.range 16).foldl (fun b w => setBit16 b w (sl.wayOf w = .cache && (bit16 (newPinned np) w || bit16 (newOff np) w))) 0
/-- Ways of a slice that leave PINNED back a page that some context maps (R195). -/
def pinMapped (s : State) (k np : Nat) : Bool :=
  let out := (List.range 16).filter fun w => (s.slice k).wayOf w = .pinned && !bit16 (newPinned np) w
  let at_ (w : Nat) : Nat := pinBase (k / 64) + k % 64 * 0x8000000 + (15 - w) * 0x800000
  out.any fun w => s.xl.leaves.any fun l =>
    let a := bits l.entry.toNat 47 16 * 65536
    l.entry.toNat % 2 = 1 && bits l.entry.toNat 63 48 = s.devId && decide (a < at_ w + 0x800000) && decide (at_ w < a + pageBytes l.size)

/-- Lines of the converting ways leave while the victim buffer has room: clean ones are dropped, dirty ones enter it to be
written back (R196). -/
def convWalk (k : Nat) (s : State) : State :=
  let w := (s.slice k).conv
  let ls := ((s.slice k).lines.flatMap (·.2)).filter fun t => bit16 w t.way
  ls.foldl (init := s) fun s t =>
    if !t.dirty then tierDrop k t.addr s
    else if (s.slice k).room then (tierDrop k t.addr s).onSlice k (Slice.push { t.victim with walk := true })
    else s
/-- The walk is over and every writeback of it is acknowledged. -/
def convDone (s : State) (k : Nat) : Bool :=
  let sl := s.slice k
  !((sl.lines.flatMap (·.2)).any fun t => bit16 sl.conv t.way) && !(sl.victims.any fun v => v.walk && v.dirty)

def TierConv.slices (c : TierConv) : List Nat := c.tgt.map fun x => 64 * c.die + x.1
/-- A conversion begins on every slice it names, or is refused: a page that a way to leave PINNED backs has been mapped
(R195). -/
def convBegin (c : TierConv) (s : State) : State :=
  if c.tgt.any fun x => pinMapped s (64 * c.die + x.1) x.2 then
    pmiAnswer c.h 0x0014 pState 0 [] (s.onTier fun t => { t with convs := t.convs.filter (·.id != c.id) })
  else
    let s := s.onTier fun t => { t with convs := t.convs.map fun y => if y.id = c.id then { y with on := true, left := c.slices } else y }
    c.tgt.foldl (init := s) fun s x =>
      let k := 64 * c.die + x.1
      convWalk k (s.onSlice k fun sl => { sl with target := some x.2, conv := leaving sl x.2 })
/-- Conversions that wait begin, oldest first, where no slice that they name converts or is named by an earlier one that
waits (R195). -/
def convStart (s : State) : State :=
  (s.tier.convs.foldl (init := (s, ([] : List Nat))) fun (s, named) c =>
    if c.on || c.slices.any named.contains || c.slices.any fun k => (s.slice k).target.isSome then (s, if c.on then named else named ++ c.slices)
    else (convBegin c s, named)).1

end Sys2Proof.Machine
end

