-- ==== Sys2Proof/Machine/TseqEvents.lean ====
section
/-! DEFINITION. What the tile sequencer does by itself: programs, fetches, passes, stores, halo exchange and the
counts it sends (R119 to R128, R134 to R149). -/
namespace Sys2Proof.Machine

/-- A tile program at work: physical core, group key and group of the holder, the core, the program. -/
structure Tq where
  p : Nat := 0
  k : Nat := 0
  g : Group := {}
  c : Core := {}
  pr : Prog := {}
  /-- It fetches for a tile beyond the one at work. -/
  ahead : Bool := false
  deriving DecidableEq, Repr, Inhabited

def Tq.d (x : Tq) : Desc := x.pr.desc
def Tq.b (x : Tq) : Bulk := { ctx := x.g.ctx, gen := x.g.gen, got := x.pr.got }
def tseqStream (lcore : Nat) : Nat := 2048 + lcore
/-- A walk of the sequencer's stream is pending: its fetches wait behind the oldest missing one, and so do its stores behind
one of theirs (R255). -/
def Tq.walks (x : Tq) (sel : Nat → Bool) (s : State) : Bool := walkAny s (tseqStream x.g.lcore) x.g.ctx sel

/-- The holder runs: its core runs, it is not parked or about to park. -/
def holderRuns (s : State) (p : Nat) : Option (Nat × Group) :=
  match holderKey s p with
  | some k => let g := s.group k; if s.coreRuns p && g.stage = .running && g.faults.isEmpty then some (k, g) else none
  | none => none

/-- The descriptor of a program. -/
def Prog.d (g : Prog) : Desc := g.desc

/-- The program at work of a running holder whose stream is not stalled by a fault. -/
def tq? (s : State) (p : Nat) : Option Tq :=
  match holderRuns s p, (s.core p).cur with
  | some (k, g), some pr =>
    if pr.started && !(s.xl.stalls.any fun t => t.stream = tseqStream g.lcore) then some { p := p, k := k, g := g, c := s.core p, pr := pr } else none
  | _, _ => none

/-! ### Halo regions (R140 to R144) -/

/-- The logical neighbour of an entry. -/
def haloTo (lcore : Nat) (h : List Byte) : Option Nat := lNeighbour lcore ([0, 2, 1, 3].getD (byteN h 0) 0)
def regionRd (ls : Tbl Byte) (d : Desc) (h : List Byte) (off : Nat) : List Byte :=
  (List.range (haloLines h)).flatMap fun i => readTbl ls (off + i * d.qStride) (haloLine h)
def regionWr (ls : Tbl Byte) (d : Desc) (h : List Byte) (off : Nat) (l : List Byte) : Tbl Byte :=
  (List.range (haloLines h)).foldl (fun t i => writeTbl t (off + i * d.qStride) (slice l (i * haloLine h) (haloLine h))) ls
def sendOff (h : List Byte) : Nat := fieldN h 4 4
def recvOff (h : List Byte) : Nat := fieldN h 8 4
def needTile (h : List Byte) : Nat := fieldN h 20 4
def haloTag (h : List Byte) : Nat := fieldN h 24 4

/-- A halo entry ends the program; the one that stops it earliest counts. -/
def Prog.haloFail (g : Prog) (status need : Nat) : Prog :=
  match g.haloBad with
  | some (_, t) => if need < t then { g with haloBad := some (status, need), buf := g.buf.filter fun x => x.tile < need } else g
  | none => { g with haloBad := some (status, need), buf := g.buf.filter fun x => x.tile < need }

/-- Bytes that regions toward a neighbour hold of the direction's send buffer (R143). -/
def sendHeld (l : List HaloSend) (n : Nat) : Nat := ((l.filter fun x => x.dest = n && !x.acked).map (·.bytes.length)).foldl (· + ·) 0
/-- Entries that now send: not yet sent, with a neighbour, for an ORDERED one every earlier entry placed, and the 128 KiB
send buffer of the direction, which the regions of the core's other programs (`o`) share, has room. -/
def Prog.sendDue (lcore : Nat) (ls : Tbl Byte) (o : List HaloSend) (g : Prog) : Prog :=
  let d : Desc := g.desc
  if !g.started then g
  else (List.range d.haloCount).foldl (init := g) fun g e =>
    let h := d.halo e
    let ready := byteN h 3 / 2 % 2 = 0 || (List.range e).all g.placed.contains
    match haloTo lcore h with
    | none => g
    | some n =>
      if !ready || g.sends.any (·.entry = e) || 131072 < sendHeld (o ++ g.sends) n + haloLines h * haloLine h then g
      else { g with sends := g.sends ++ [{ entry := e, dest := n, tag := haloTag h, bytes := regionRd ls d h (sendOff h) }] }
/-- The programs of a core in their order, each sending what it now may. -/
def sendAll (lcore : Nat) (ls : Tbl Byte) (l : List Prog) : List Prog :=
  (List.range l.length).foldl (init := l) fun l i =>
    l.set i (((l[i]?).getD {}).sendDue lcore ls ((l.eraseIdx i).flatMap (·.sends)))

/-- At the mesh edge the receive region is filled: from the send region under CLAMP, else with zeros. -/
def edgeFill (lcore : Nat) (r : Tbl Byte × Prog) : Tbl Byte × Prog :=
  let d : Desc := r.2.desc
  (List.range d.haloCount).foldl (init := r) fun (ls, g) e =>
    let h := d.halo e
    if (haloTo lcore h).isSome then (ls, g)
    else
      let l := if byteN h 3 % 2 = 1 then regionRd ls d h (sendOff h) else zeros (haloLines h * haloLine h)
      (regionWr ls d h (recvOff h) l, { g with placed := g.placed ++ [e] })

/-- An entry whose neighbour has no physical core ends the program. -/
def absentFail (s : State) (lcore : Nat) (g : Prog) : Prog :=
  let d : Desc := g.desc
  (List.range d.haloCount).foldl (init := g) fun g e =>
    match haloTo lcore (d.halo e) with
    | some n => if (s.phys n).isNone then g.haloFail 2 (needTile (d.halo e)) else g
    | none => g

/-- The first program that has not started, once every earlier one is over; and the rest of the queue. -/
def startable (c : Core) : Option (List Prog × Prog × List Prog) :=
  match c.progs.span (·.started) with
  | (l, g :: t) => if l.all fun x => x.isOver c then some (l, g, t) else none
  | _ => none

def execTseqProgramStart (p : Nat) (s : State) : Out :=
  match holderRuns s p, startable (s.core p) with
  | some (k, g), some (l, pr, t) =>
    let r := edgeFill g.lcore (g.ls, { pr with started := true, startAt := s.now })
    .next ((s.onGroup k fun g => { g with ls := r.1 }).onCore p fun c =>
      { c with progs := sendAll g.lcore r.1 (l ++ absentFail s g.lcore r.2 :: t) })
  | _, _ => .next s

/-- Change the first program that a test selects. -/
def onProg (p : Nat) (sel : Prog → Bool) (f : Prog → Prog) (s : State) : State :=
  s.onCore p fun c => { c with progs := (c.progs.span fun g => !sel g).1 ++ (match (c.progs.span fun g => !sel g).2 with | g :: t => f g :: t | [] => []) }

/-- The core is between tiles: no pass is in progress and the next one begins a tile. -/
def betweenTiles (c : Core) : Bool :=
  match c.cur with
  | none => true
  | some g =>
    let d : Desc := g.desc
    g.flight.isEmpty && (match g.tileExt with | none => true | some e => decide (d.passes ≤ passFrom d e g.tile (d.passes - g.pass) g.pass))

/-- The program and region of a neighbour that an entry matches. -/
def senderOf (s : State) (g : Group) (lcore q tag : Nat) : Option HaloSend :=
  match holderRuns s q with
  | some (_, o) =>
    if o.ctx = g.ctx && o.gen = g.gen then
      ((s.core q).progs.flatMap (·.sends)).find? fun x => x.dest = lcore && x.tag = tag && !x.placed
    else none
  | none => none

def awaits (entry : Nat) (g : Prog) : Bool := decide (entry < g.d.haloCount) && !g.placed.contains entry

def execHaloPlace (p entry : Nat) (s : State) : Out :=
  match holderRuns s p, (s.core p).progs.find? (awaits entry) with
  | some (k, g), some pr =>
    let d : Desc := pr.desc
    let h := d.halo entry
    match haloTo g.lcore h with
    | none => .next s
    | some n =>
      match s.phys n with
      | none => .next (onProg p (awaits entry) (fun x => x.haloFail 2 (needTile h)) s)
      | some q =>
        match senderOf s g g.lcore q (haloTag h) with
        | none => .next s
        | some x =>
          if x.bytes.length != haloLines h * haloLine h then .next (onProg p (awaits entry) (fun x => x.haloFail 3 (needTile h)) s)
          else if !betweenTiles (s.core p) then .next s
          else
            let ls := regionWr g.ls d h (recvOff h) x.bytes
            let s := onProg p (awaits entry) (fun y => { y with placed := y.placed ++ [entry] }) (s.onGroup k fun g => { g with ls := ls })
            let s := s.onCore p fun c => { c with progs := sendAll g.lcore ls c.progs }
            let mark (y : HaloSend) : HaloSend := if y = x then { y with placed := true } else y
            .next (onProg q (fun y => y.sends.contains x) (fun y => { y with sends := y.sends.map mark }) s)
  | _, _ => .next s

/-- The acknowledgement of a placed region frees its send buffer, for regions that wait for its room. -/
def execHaloAck (p entry : Nat) (s : State) : Out :=
  match holderRuns s p with
  | none => .next s
  | some (_, g) =>
    let due (y : HaloSend) : Bool := y.entry = entry && y.placed && !y.acked
    let ack (y : HaloSend) : HaloSend := if due y then { y with acked := true, bytes := [] } else y
    .next ((onProg p (fun g => g.sends.any due) (fun g => { g with sends := g.sends.map ack }) s).onCore p fun c =>
      { c with progs := sendAll g.lcore g.ls c.progs })

def execHaloTimeout (p entry : Nat) (s : State) : Out :=
  match holderRuns s p with
  | none => .next s
  | some _ =>
    let late (g : Prog) : Bool :=
      g.started && awaits entry g && g.d.haloTimeout != 0 && decide (g.startAt + 1000 * g.d.haloTimeout ≤ s.now)
    .next (onProg p late (fun g => g.haloFail 1 (needTile (g.d.halo entry))) s)

/-! ### Fetches (R128 R135 R145 R260 R266) -/

/-- The holder parks at the program's TSEQ.START (R266 R91). -/
def tseqPark (x : Tq) (cause detail addr : Nat) (s : State) : State :=
  faultGroup x.k { cause := cause, detail := detail, pc := x.pr.pc, threads := maskOf x.g.alive, setm := maskOf (x.g.setOfPc x.pr.pc), addr := BitVec.ofNat 64 addr } 0 s

/-- The sequencer's stream faults and stalls. -/
def tseqStall (x : Tq) (va need reason : Nat) (s : State) : State :=
  faultAdd { stream := tseqStream x.g.lcore, grp := x.g.ident, fn := (s.ctx x.g.ctx).fn, ctx := x.g.ctx, gen := x.g.gen, va := va, need := need }
    1 reason ((if need = needW then accWrite else accRead) ||| (if x.ahead then accAhead else 0)) 0xFF x.g.lcore 0 s

/-- How the access of a range ends: it can be made; it waits, in a state; or it ends the program with a status. -/
inductive Fet where
  | ok
  | halt (s : State)
  | bad (status addr len : Nat)

/-- Lines of a range of another device that have not been received are asked for. -/
def tseqGets (x : Tq) (va n : Nat) (s : State) : Fet :=
  match translate s x.g.ctx va needR with
  | .fault _ => .halt s
  | .ok pa _ =>
    let lines := ((cutLines (n + 1) pa n).map fun y => lineOf y.1).filter fun l => (x.pr.got.get (l / 128)).isEmpty
    match (lines.map fun l => x.pr.bad.get (l / 128)).find? (· != 0) with
    | some 3 => .halt (tseqPark x cDenied 0 va s)
    | some _ => .bad 4 va n
    | none => .halt (lines.foldl (fun s l => coreGet { p := x.p, k := x.k } 0 l s) s)

def tseqRange (x : Tq) (need : Nat) (r : Nat × Nat) (s : State) : Fet :=
  match bulkCheck s x.b r.1 r.2 need with
  | none => if need = needR && !(bulkRd s x.b r.1 r.2).2.isEmpty then .bad 4 r.1 r.2 else .ok
  | some (.page reason, a) => .halt (tseqStall x a need reason s)
  | some (.denied, a) => .halt (tseqPark x cDenied 0 a (bulkDeny x.b a need s))
  | some (.absent, a) => .halt (if orphaned s x.g.ctx then tseqPark x cDenied 0 a s else s)
  | some (.ctrl, a) => .bad 6 a r.2
  | some (.retry, _) => .halt s
  | some (.remote, a) => tseqGets x a (min (r.1 + r.2 - a) (65536 - a % 65536)) s

def tseqRanges (x : Tq) (need : Nat) (s : State) : List (Nat × Nat) → Fet
  | [] => .ok
  | r :: t => match tseqRange x need r s with | .ok => tseqRanges x need s t | f => f

/-- Pieces that the store of a pass writes. -/
def storePieces (d : Desc) (c : Core) (seed : Word) (y : PassBuf) (old : Nat → Nat → List Byte) : PassOut × List Piece :=
  let at_ := d.passAt y.tile y.pass
  let lv := liveOf d y
  let o := passConv c d y.bank seed (firstAddr d at_.1 at_.2) lv.1 lv.2
  (o, match d.layout with
      | 0 => rowStore d old (bankVal c d y.bank) o at_.1 at_.2 lv.1 lv.2
      | 1 => blockStore d o at_.1 at_.2 lv.1 lv.2
      | _ => qtileStore d o y.ext at_.1 at_.2 lv.1 lv.2)
/-- Does a piece lie in virtual memory? -/
def Piece.far (d : Desc) : Piece → Bool | .bytes _ _ | .bits _ _ _ => !d.cLocal | _ => true

/-- Rows of an ADD or SUB destination in virtual memory (R145 R147). -/
def cRanges (d : Desc) (y : PassBuf) : List (Nat × Nat) :=
  if d.op = 0 || d.cLocal then [] else
    let lv := liveOf d y
    (List.range lv.1).map fun i => (rowAt d ((d.passAt y.tile y.pass).1 + i) (d.passAt y.tile y.pass).2, cdiv (lv.2 * widthOf d.cf) 8)
/-- Virtual ranges of P and Q that a pass reads and no kept panel holds. -/
def passRanges (s : State) (x : Tq) (y : PassBuf) : List (Nat × Nat) :=
  let at_ := x.d.passAt y.tile y.pass
  let lv := liveOf x.d y
  (if (x.pr.held false y).isSome then [] else pRanges s x.b x.g.ls x.d at_.1 lv.1 y.ext.2.2) ++
  (if (x.pr.held true y).isSome then [] else qRanges x.d at_.2 lv.2 y.ext.2.2)
/-- An operand or destination of a pass in a CTRL page. -/
def passCtrl (s : State) (x : Tq) (y : PassBuf) : Option (Nat × Nat) :=
  let ctrl (need : Nat) (r : Nat × Nat) : Bool := match bulkCheck s x.b r.1 r.2 need with | some (.ctrl, _) => true | _ => false
  ((passRanges s x y).find? (ctrl needR)).or
    ((((storePieces x.d {} 0 y fun _ n => zeros n).2.filter (Piece.far x.d)).map Piece.range).find? (ctrl needW))
/-- The passes of a tile from its first fetch on, a pass of a tile that has begun alone: a CTRL operand of any of them ends the
program before the tile (R145). -/
def ctrlOf (s : State) (x : Tq) (y : PassBuf) : Option (Nat × Nat) :=
  let begun := x.pr.buf.any (·.tile = y.tile) || (x.pr.tileExt.isSome && x.pr.tile = y.tile)
  if begun then passCtrl s x y
  else ((List.range x.d.passes).filter fun p => (x.d.passAt y.tile p).1 < y.ext.1 && (x.d.passAt y.tile p).2 < y.ext.2.1).findSome? fun p => passCtrl s x { y with pass := p }

/-- Base-form blocks and tiles of a pass, from memory. -/
def passBlocks (s : State) (x : Tq) (y : PassBuf) : List (List Byte) :=
  pBlocks s x.b x.g.ls x.d (x.d.passAt y.tile y.pass).1 (liveOf x.d y).1 y.ext.2.2
def passTiles (s : State) (x : Tq) (y : PassBuf) : List (List Byte) :=
  (List.range (x.d.kgroups y.ext.2.2)).map fun g => qTile s x.b x.g.ls x.d y.ext g (x.d.passAt y.tile y.pass).2
/-- Q is gathered or read from local store when the pass starts. -/
def Desc.qHere (d : Desc) : Bool := d.qMode = 2 || d.qLocal

/-- Bitmap bits of the blocks; detail planes that are staged with them (R92 R93 R114): of each, the live rows. -/
def bitNum (s : State) (x : Tq) (blk : List Byte) : Nat := bitmapBit x.d (pStride s x.b x.g.ls x.d) blk
def bitAt (s : State) (x : Tq) (blk : List Byte) : Bool :=
  let n := bitNum s x blk
  (byteN (bulkRd s x.b (x.d.bitmapAddr + n / 8) 1).1 0).testBit (n % 8)
def staging (d : Desc) : Bool := d.retakes && !d.late && !d.pLocal
def detailSpans (d : Desc) (mv : Nat) (blk : List Byte) : List (Nat × Nat) := (List.range (blkDetail blk)).map fun n => (detailAt d blk + 64 * n, mv)
def stageOne (s : State) (x : Tq) (mv kn : Nat) (blk : List Byte) : List Byte :=
  if staging x.d && bitAt s x blk && blkDetail blk != 0 then
    blk.set 3 (BitVec.ofNat 8 (byteN blk 3 ||| 1)) ++ (detailSpans x.d mv blk).flatMap fun (a, n) => liveRows 1 kn (bulkRd s x.b a n).1
  else blk
def bitRanges (s : State) (x : Tq) (bs : List (List Byte)) : List (Nat × Nat) :=
  if x.d.retakes then bs.map fun b => (x.d.bitmapAddr + bitNum s x b / 8, 1) else []
def detailRanges (s : State) (x : Tq) (mv : Nat) (bs : List (List Byte)) : List (Nat × Nat) :=
  if staging x.d then (bs.filter fun b => bitAt s x b && blkDetail b != 0).flatMap (detailSpans x.d mv) else []

/-- What a fetch meets ends the program before the pass that needs it; a CTRL operand before the passes of its tile that have
not started. -/
def fetchFail (x : Tq) (y : PassBuf) (st addr len : Nat) (s : State) : State :=
  let begun := x.pr.tileExt.isSome && x.pr.tile = y.tile
  if st = 6 then
    onCur x.p (fun g => { g with buf := g.buf.filter fun z => decide (z.tile < y.tile), fetchBad := some (6, y.tile, if begun then x.pr.pass else 0, addr, len) }) s
  else onCur x.p (fun g => { g with fetchBad := some (st, y.tile, y.pass, addr, len) }) s

/-- A destination row that cannot be read yet; its poison is met at the store (R148). -/
def cNeeds (s : State) (x : Tq) (y : PassBuf) : List (Nat × Nat) := (cRanges x.d y).filter fun r => (bulkCheck s x.b r.1 r.2 needR).isSome
/-- A pass with its operands: from kept panels, or fetched, P staged. -/
def passFill (s : State) (x : Tq) (y : PassBuf) : PassBuf :=
  let mv := (liveOf x.d y).1
  let raw := passBlocks s x y
  let ps := (x.pr.held false y).map fun z => (z.data, z.elig)
  let bs := (ps.map (·.1)).getD (if x.d.pLocal then [] else (List.range raw.length).map fun g => stageOne s x mv (kLive y.ext.2.2 g) (raw.getD g []))
  let qs := ((x.pr.held true y).map (·.data)).getD (if x.d.qHere then [] else passTiles s x y)
  { y with pbuf := bs, qbuf := qs, elig := (ps.map (·.2)).getD (if x.d.retakes then raw.map (bitAt s x) else [])
           cbuf := (cRanges x.d y).map fun r => (r.1, bulkRd s x.b r.1 r.2)
           own := (if ps.isSome then 0 else bs.flatten.length) + (if (x.pr.held true y).isSome then 0 else qs.flatten.length) }

/-- The operands of a pass arrive, or what stands in their way takes effect. -/
def fetchPass (x : Tq) (y : PassBuf) (s : State) : State :=
  let rs := passRanges s x y
  match ctrlOf s x y with
  | some (a, n) => fetchFail x y 6 a n s
  | none =>
    match tseqRanges x needR s rs with
    | .halt s => s
    | .bad st a n => fetchFail x y st a n s
    | .ok =>
      let bs := if (x.pr.held false y).isSome then [] else passBlocks s x y
      match tseqRanges x needR s (bitRanges s x bs) with
      | .halt s => s
      | .bad st a n => fetchFail x y st a n s
      | .ok =>
        let ds := detailRanges s x (liveOf x.d y).1 bs
        match tseqRanges x needR s ds, tseqRanges x needR s (cNeeds s x y) with
        | .halt s, _ => s
        | .bad st a n, _ => fetchFail x y st a n s
        | .ok, .halt s => s
        | .ok, .bad st a n => fetchFail x y st a n s
        | .ok, .ok =>
          let z := passFill s x y
          let s := (rs ++ bitRanges s x bs ++ ds ++ cRanges x.d y).foldl (fun s r => bulkTouch x.b r.1 r.2 s) s
          let s := s.onGroup x.k fun g => { g with ls := opbufPut x.pr y z.pbuf z.qbuf g.ls }
          onCur x.p (fun g => { g with buf := g.buf ++ [z], panel := g.keep y z.pbuf z.qbuf z.elig, got := [], bad := [] }) s

/-- Tiles beyond the one at work that are fetched once a pass is, skipped tiles not among them (R138 R145). -/
def Prog.ahead (g : Prog) (y : PassBuf) : Nat :=
  (((g.flight ++ g.buf ++ [y]).map (·.tile)).filter fun t => decide (g.now y < t)).eraseDups.length
/-- A pass of a tile beyond the one at work finds room: RUNAHEAD tiles, and the space that the footprint leaves of the
operand buffer (R136 R145). -/
def Prog.room (g : Prog) (y z : PassBuf) : Bool :=
  let d : Desc := g.desc
  decide (g.ahead y ≤ byteN d 8) && (!decide (g.now y < y.tile) || decide (d.footprint + g.aheadBytes y + z.own ≤ d.opbufSize))

/-- Operands of the next pass arrive, up to RUNAHEAD tiles ahead of the one at work. -/
def execTseqFetchReturn (p : Nat) (s : State) : Out :=
  match tq? s p with
  | none => .next s
  | some x =>
    match x.pr.fetchPos x.c with
    | none => .next s
    | some y => if !x.pr.room y (passFill s x y) || x.walks (· != needW) s then .next s else .next (fetchPass { x with ahead := decide (x.pr.now y < y.tile) } y s)

/-! ### Passes (R131 R134) -/

def execTseqPassStart (p : Nat) (s : State) : Out :=
  match tq? s p with
  | none => .next s
  | some x =>
    match x.pr.buf with
    | [] => .next s
    | y :: rest =>
      let d := x.d
      let halos := (List.range d.haloCount).all fun e => decide (y.tile < needTile (d.halo e)) || x.pr.placed.contains e
      let bank := !(x.pr.flight.any fun z => d.mode != .single || z.bank == x.pr.bank)
      let held := x.g.stop.isSome && x.g.alive.all fun l => (x.g.thread l).cut.isSome
      if !halos || !bank || held || 4 ≤ x.c.mq.length then .next s
      else
        let bs := if d.pLocal then passBlocks s x y else y.pbuf
        if !((List.range bs.length).all fun i => blkOk d.pf d.accT i (bs.getD i [])) then .next (tseqPark x cIllegal 4 0 s)
        else
          let lv := liveOf d y
          let qs := if d.qHere then passTiles s x y else y.qbuf
          let m : Mma :=
            { owner := x.g.slot, kloop := true, pfmt := d.pf, qfmt := d.qf, accT := d.accT, bank := x.pr.bank, zero := true, retake := d.retake
              rn := d.retakeN, lag := d.lag, late := d.late, g := bs.length, blocks := bs, tiles := qs
              elig := y.elig, live := some (lv.1, lv.2, y.ext.2.2) }
          let f (g : Prog) : Prog :=
            { g with buf := rest, flight := g.flight ++ [{ y with bank := g.bank, pbuf := [], qbuf := [] }], tile := y.tile, pass := y.pass + 1,
                     tileExt := some y.ext, bank := if d.mode = .single then !g.bank else g.bank }
          let s := if d.qMode = 2 then s.onGroup x.k fun g => { g with ls := opbufPut { x.pr with flight := [], buf := [] } y [] qs g.ls } else s
          .next ((onCur p f s).onCore p fun c => { c with mq := c.mq ++ [m.close] })

/-- K-loops of the queue before the one at work. -/
def workIndex (x : Tq) : Nat := x.pr.flight.length - (x.c.mq.filter (·.kloop)).length + (x.c.mq.span (·.fin)).1.length

/-- Late detail planes cannot be had: the K-loop and the later ones are squashed and the program stops there. -/
def detailFail (x : Tq) (st addr len : Nat) (s : State) : State :=
  match x.pr.flight.drop (workIndex x) with
  | [] => s
  | y :: _ =>
    let f (g : Prog) : Prog :=
      { g with buf := [], flight := g.flight.take (workIndex x), tile := y.tile, pass := y.pass, bank := y.bank, tileExt := some y.ext
               fetchBad := some (st, y.tile, y.pass, addr, len) }
    (onCur x.p f s).onCore x.p fun c => { c with mq := (c.mq.span (·.fin)).1 }

/-- The detail planes of a block, their masked rows and K elements zero. -/
def lateRows (s : State) (x : Tq) (m : Mma) (block : Nat) : List Byte :=
  let lv := m.live.getD (64, 0, 0)
  (detailSpans x.d lv.1 (m.blk block)).flatMap fun (a, n) => liveRows 1 (kLive lv.2.2 block) (bulkRd s x.b a n).1
/-- Under LATE, the detail planes of a block that the test chose arrive, in the detail ring. -/
def execDetailFetchReturn (p block : Nat) (s : State) : Out :=
  match tq? s p, workOf (s.core p) with
  | some x, some m =>
    if !m.kloop || !m.late || !m.due.contains block || m.ran.contains block || blkStaged (m.blk block) || !(m.dbuf.get block).isEmpty || x.walks (· != needW) s then .next s
    else
      let ds := detailSpans x.d (m.live.getD (64, 0, 0)).1 (m.blk block)
      match tseqRanges x needR s ds with
      | .halt s => .next s
      | .bad st a n => .next (detailFail x st a n s)
      | .ok =>
        let l := lateRows s x m block
        .next (onCur p (fun g => { g with got := [], bad := [] })
          (onWork p (fun m => { m with dbuf := m.dbuf.put block l }) ((ds.foldl (fun s r => bulkTouch x.b r.1 r.2 s) s).onGroup x.k fun g =>
            { g with ls := writeBlock g.ls (x.d.opbuf + block % x.d.lag * (64 * x.d.detailMax)) (l.take (64 * x.d.detailMax)) })))
  | _, _ => .next s

/-! ### Stores (R119 to R124, R147, R148) -/

/-- Runs of bytes whose destination is not poisoned. -/
def cleanRuns (po : List Nat) (a : Nat) (l : List Byte) : List (Nat × List Byte) :=
  ((List.range l.length).foldr (init := ([] : List (Nat × List Byte))) fun i acc =>
    if po.contains i then acc
    else match acc with
      | (b, r) :: t => if b = a + i + 1 then (a + i, l.getD i 0 :: r) :: t else (a + i, [l.getD i 0]) :: acc
      | [] => [(a + i, [l.getD i 0])])

/-- One piece is written; answers whether it met poison. ADD and SUB write nothing where the old content is
poisoned, or was when it was fetched. -/
def putPiece (x : Tq) (y : PassBuf) (q : Piece) (s : State) : State × Bool :=
  let wr (a : Nat) (l : List Byte) : State × Bool :=
    if x.d.op = 0 then bulkWr x.b (some x.g.ident) a l [] s
    else
      let was : List Nat := y.cbuf.flatMap fun z => (z.2.2.map (z.1 + ·)).filter fun b => decide (a ≤ b) && decide (b < a + l.length)
      let po := (bulkRd s x.b a l.length).2 ++ was.map (· - a)
      (cleanRuns po a l).foldl (init := (s, !po.isEmpty)) fun (s, m) (b, r) => let y := bulkWr x.b (some x.g.ident) b r [] s; (y.1, m || y.2)
  if q.far x.d then
    match q with
    | .bytes a l | .detail a l => wr a l
    | .bits a m v | .mark a m v => bulkBits x.b (some x.g.ident) a m v s
  else
    match q with
    | .bytes a l | .detail a l => (s.onGroup x.k fun g => { g with ls := writeBlock g.ls a l }, false)
    | .bits a m v | .mark a m v =>
      (s.onGroup x.k fun g => { g with ls := g.ls.put a (BitVec.ofNat 8 (((g.ls.get a).toNat &&& (255 ^^^ m)) ||| (v &&& m))) }, false)

/-- The light meter bins every live element; a quantizing store counts what it saturated and flushed. -/
def lmStore (x : Tq) (y : PassBuf) (o : PassOut) (s : State) : State :=
  let lv := liveOf x.d y
  let vals := (List.range lv.1).flatMap fun i => (List.range lv.2).map fun j => lmBin x.d.accT (bankVal x.c x.d y.bank i j)
  let bins : Tbl Word := vals.foldl (fun t b => t.upd b (· + 1)) []
  let q := x.d.quant
  let n : LmBins :=
    { bin := bins, elements := BitVec.ofNat 64 o.elements, saturated := BitVec.ofNat 64 (if q then o.sat else 0), flushed := BitVec.ofNat 64 (if q then o.flush else 0) }
  s.onCore x.p fun c =>
    { c with lm := c.lm.add n, clipPend := if q && o.sat + o.flush != 0 then c.clipPend ++ [(c.lmKey, o.sat + o.flush)] else c.clipPend }

/-- SAT of a bank that the store reads. -/
def satRead (x : Tq) (y : PassBuf) : Bool := if x.d.mode = .single then (if y.bank then x.c.sat1 else x.c.sat0) else x.c.sat0 || x.c.sat1

/-- Counts of the tile; at its last store the clip record is written. -/
def clipStep (x : Tq) (y : PassBuf) (o : PassOut) (s : State) : State :=
  let d := x.d
  let (a, b, n, fl) := x.pr.clips
  let a := a + o.sat
  let b := b + o.flush
  let n := n + o.elements
  let fl := fl ||| (if satRead x y then 1 else 0) ||| (if o.nanScale then 2 else 0) ||| (if d.layered then 4 else 0)
  let last := decide (d.passes ≤ passFrom d y.ext y.tile (d.passes - (y.pass + 1)) (y.pass + 1))
  let s := onCur x.p (fun g => { g with clips := if last then (0, 0, 0, 0) else (a, b, n, fl) }) s
  if last && d.quant && d.clipRec != 0xFFFFFFFF then
    s.onGroup x.k fun g => { g with ls := writeTbl g.ls d.clipRec (leBytes 4 a ++ leBytes 4 b ++ leBytes 4 n ++ leBytes 4 fl) }
  else s

/-- A destination that cannot be accessed stops the program at this pass. -/
def storeFail (x : Tq) (y : PassBuf) (st addr len : Nat) (s : State) : State :=
  (onCur x.p (fun g => { g with buf := [], flight := [], fetchBad := some (st, y.tile, y.pass, addr, len) }) s).onCore x.p fun c =>
    { c with mq := c.mq.filter (!·.kloop) }

/-- The old content of a destination row: read in local store, or as it was fetched with the pass. -/
def oldRow (x : Tq) (y : PassBuf) (a n : Nat) : List Byte :=
  if x.d.cLocal then readTbl x.g.ls a n else ((y.cbuf.find? (·.1 = a)).map (·.2.1)).getD (zeros n)
/-- The store of the oldest pass whose K-loop has retired. -/
def storePass (x : Tq) (y : PassBuf) (s : State) : State :=
  let (o, ps) := storePieces x.d x.c (s.launches.get x.g.launch).seed y (oldRow x y)
  let far := (ps.filter (Piece.far x.d)).map Piece.range
  match tseqRanges x needW s far with
  | .halt s => s
  | .bad st a n => storeFail x y st a n s
  | .ok =>
    let (s, bad) := ps.foldl (init := (s, none)) fun (s, bad) q =>
      let r := putPiece x y q s
      (r.1, if r.2 then (match bad with | some b => some b | none => some (y.tile, q.range.1, q.range.2)) else bad)
    -- the PUTs of this tile carry its number
    let note (r : Rreq) : Rreq := if r.grp = some x.g.ident && r.win = 0 && r.pkt.type = 1 && r.item = 0 then { r with item := y.tile + 1 } else r
    let s := s.onFab fun f => { f with reqs := f.reqs.map note }
    let s := onCur x.p (fun g => { g with storeBad := (match g.storeBad with | some b => some b | none => bad) }) (lmStore x y o s)
    let s := clipStep x y o s
    onCur x.p (fun g => { g with flight := g.flight.drop 1, got := [], bad := [] }) s

def execTseqStoreComplete (p : Nat) (s : State) : Out :=
  match tq? s p with
  | none => .next s
  | some x =>
    match unstored x.c with
    | [] => .next s
    | y :: _ => .next (if x.walks (· = needW) s then s else storePass x y s)

/-! ### Completion (R128 R143) -/

/-- Every halo entry is placed and every region sent is acknowledged. -/
def halosDone (lcore : Nat) (g : Prog) : Bool :=
  let d : Desc := g.desc
  (List.range d.haloCount).all fun e =>
    g.placed.contains e && ((haloTo lcore (d.halo e)).isNone || g.sends.any fun x => x.entry = e && x.acked)

/-- The record of a program that ends with status 0x04 to 0x06. -/
def tseqRecord (p : Nat) (g : Group) (cls addr len : Nat) (s : State) : State :=
  errAdd { (coreRec s p cls sevContained) with ctx := g.ctx, gen := g.gen, flags := 1, addr := addr, synd := len } s

def execTseqProgramComplete (p : Nat) (s : State) : Out :=
  match holderRuns s p, (s.core p).progs with
  | some (_, g), pr :: rest =>
    let d : Desc := pr.desc
    let out := s.fab.reqs.any fun r => r.grp = some g.ident && r.win = 0 && r.pkt.type = 1
    let fin (st tile : Nat) (s : State) : Out := .next (s.onCore p fun c => { c with progs := rest, doneProgs := c.doneProgs ++ [(st, tile)] })
    if !pr.isOver (s.core p) || out then .next s
    else match pr.stopAt with
      | some (st, t0, _) =>
        -- a tile with a poisoned store granule before the stop is the first that did not complete
        let t := match pr.storeBad with | some (b, _, _) => min b t0 | none => t0
        match pr.fetchBad with
        | some (bs, _, _, a, n) => fin st t (if st = bs && 4 ≤ st then tseqRecord p g (if st = 6 then clAccess else clTier) a n s else s)
        | none => fin st t s
      | none =>
        if !halosDone g.lcore pr then .next s
        else match pr.storeBad with
          | some (t, a, n) => fin 5 t (tseqRecord p g clTier a n s)
          | none => fin 0 d.tiles s
  | _, _ => .next s

/-! ### Counts sent to the kernel engine (R123 R125) -/

def execLmBinsMerge (p : Nat) (s : State) : Out := .next (if s.pwr.state = .fatal then s else lmMerge p s)
def execClipTotalUpdate (p : Nat) (s : State) : Out := .next (if s.pwr.state = .fatal then s else clipAdd p s)

end Sys2Proof.Machine
end

