-- ==== Sys2Proof/Machine/FabLink.lean ====
section
/-! DEFINITION. The fabric's ports: training, the link layer, routing, lanes and time across devices (R339 to R347,
R353 to R357). -/
namespace Sys2Proof.Machine

/-! ### The link layer (R342 to R344) -/

def flitsOf (l : List FPkt) : Nat := (l.map (·.flits)).sum
def rxFlits : Nat := 512
def replayFlits : Nat := 2048

/-- Packets of the replay buffer are sent again. -/
def resend (t : FPort) : FPort := { t with tx := t.tx ++ t.replay, replays := t.replays + BitVec.ofNat 32 t.replay.length }
/-- Received flits of a VC are freed: the peer's credits. -/
def freeFlits (i : Nat) (k : FPkt) (s : State) : State :=
  s.onPort i fun t => { t with freed := t.freed.upd k.vc (· + BitVec.ofNat 16 k.flits) }

/-- The port trains: it is in TRAINING, or it is enabled and DOWN after a loss (R339). -/
def trains (s : State) (i : Nat) : Bool :=
  (s.port i).st = .training || ((s.port i).st = .down && (s.port i).enable && (s.fab.ios.get (i / 8)).refclk && !(s.fab.ios.get (i / 8)).out && s.pwr.islands)
/-- Training has passed and link packets were exchanged. A port whose peer is this device stays in TRAINING; one with
fewer than eight good lanes has not passed. -/
def execPortTrainingComplete (port : Nat) (peer : BitVec 16) (peerPort : BitVec 6) (s : State) : Out :=
  let t := s.port port
  if nPorts s.variant ≤ port || !trains s port || 1 < t.badLanes.length then .next s
  else
    let s := s.onPort port fun t => { t with st := .training, peer := peer, peerPort := peerPort }
    if peer = s.fab.devId then
      .next (errAdd { source := srcPort port, cls := clFabric, sev := sevDegraded, unit := port, die := 0x10 + port / 8 } s)
    else
      let used (v : Nat) : Nat := flitsOf (t.replay.filter fun k => k.vc = v)
      .next (timeElect (s.onPort port fun t =>
        resend { t with st := .up, lanes := 8, spare := t.badLanes.isEmpty, moving := false, lossAt := none, failsN := 0, nak := false
                        credits := [0, 1, 2, 3].foldl (fun c v => c.put v (used v)) [], freed := [], peerFreed := [], tRecv := none, tMaster := none })) 

/-- The LINK packet of a port, with ACK_LSEQ and CREDIT as they stand; a pending NAK goes with it. -/
def linkPktOf (s : State) (port : Nat) : LinkPkt :=
  let t := s.port port
  { ack := t.wantL - 1, nak := t.nak, credit := [0, 1, 2, 3].map t.freed.get, device := s.fab.devId, port := BitVec.ofNat 6 port }
def execLinkPacketSend (port : Nat) (s : State) : Out :=
  if !(s.port port).isUp then .next s
  else .next (s.onPort port fun t => { t with linkTx := t.linkTx + 1, linkOut := some (linkPktOf s port), nak := false })

/-- A LINK or TIME packet that a port discards: with a failed CRC it is counted and a NAK follows, as for any packet; with
a reserved field that is not 0 it is malformed (R341 R343). -/
def badCtl (port : Nat) (crcOk rsvd : Bool) (s : State) : State :=
  if !crcOk then s.onPort port fun t => { t with crc := t.crc + 1, nak := true }
  else if rsvd then s.onIo (port / 8) fun x => { x with malformed := min (x.malformed + 1) 0xFFFF }
  else s

/-- A packet's LSEQ lies at or before the last one accepted by the peer. -/
def acked (ack : BitVec 16) (k : FPkt) : Bool := decide ((ack - k.lseq).toNat < 2 ^ 15)
def failMax : Nat := 16
/-- A LINK packet arrives. After a NAK the port sends again from the expected packet; after 16 failures of one packet
it retrains. -/
def execLinkPacket (port : Nat) (crcOk rsvd : Bool) (k : LinkPkt) (s : State) : Out :=
  let t := s.port port
  if nPorts s.variant ≤ port || !t.isUp || k.credit.length != 4 then .next s
  else if !crcOk || rsvd then .next (badCtl port crcOk rsvd s)
  else
    let back (v : Nat) : Nat := (k.credit.getD v 0 - t.peerFreed.get v).toNat
    let rest := t.replay.filter fun x => !acked k.ack x
    let fails := if !k.nak then (if rest.length < t.replay.length then 0 else t.failsN) else if rest.length < t.replay.length then 1 else t.failsN + 1
    let upd (t : FPort) : FPort :=
      { t with replay := rest, failsN := fails, peer := k.device, peerPort := k.port
               credits := [0, 1, 2, 3].foldl (fun c v => c.put v (t.credits.get v - back v)) t.credits
               peerFreed := [0, 1, 2, 3].foldl (fun c v => c.put v (k.credit.getD v 0)) t.peerFreed }
    let s := s.onPort port upd
    if !k.nak then .next s
    else if failMax ≤ fails then .next (portRetrain port s)
    else .next (s.onPort port resend)

/-- FLITS agrees with TYPE and LENGTH, no reserved field is set, and the type is known (R341). -/
def wellMade (k : FPkt) : Bool :=
  let n := 1 + (k.len + 63) / 64
  let sized := decide (1 ≤ k.len) && decide (k.len ≤ 4096)
  !k.rsvd && (match k.type with
    | 1 => sized && k.flits = n && k.data.length = k.len && (!k.phys || k.len = 128)
    | 3 => sized && k.flits = 1 && k.data.isEmpty
    | 4 => if k.len = 0 then k.flits = 1 && k.data.isEmpty else sized && k.flits = n && k.data.length = k.len
    | 2 | 5 | 6 | 7 => k.flits = 1 && k.data.isEmpty
    | _ => false)

/-- What a port does with an arriving packet. -/
inductive Arr where
  | no
  | done (s : State)
  | mine (s : State)

def knownTypes : List Nat := [1, 2, 3, 4, 5, 6, 7]
/-- A packet of a type arrives at a port: accepted in LSEQ order with a correct CRC, discarded if it is malformed, kept
in the receive buffer if it is in transit, else the device's own. A packet of unknown type arrives with any of them. -/
def arrive (type port : Nat) (crcOk : Bool) (k : FPkt) (s : State) : Arr :=
  let t := s.port port
  if nPorts s.variant ≤ port || !t.isUp || t.moving || (k.type != type && knownTypes.contains k.type) then .no
  else if !crcOk then .done (s.onPort port fun t => { t with crc := t.crc + 1, nak := true })
  else if k.lseq != t.wantL then .done s
  else
    let s := s.onPort port fun t => { t with wantL := t.wantL + 1 }
    if !wellMade k then .done (freeFlits port k (s.onIo (port / 8) fun x => { x with malformed := min (x.malformed + 1) 0xFFFF }))
    else if k.dst != s.devId then .done (s.onPort port fun t => { t with rx := t.rx ++ [k] })
    else .mine (freeFlits port k s)

/-! ### Routing (R346 R347) -/

/-- I/O die at which a request leaves, and its PORT: those of its engine or of the die of its core. -/
def reqIo (s : State) (r : Rreq) : Option Nat :=
  match r.queue, r.grp, r.owners with
  | some k, _, _ => some (if 24 ≤ k / 1024 then k / 1024 - 24 else ioFor s (engDie s.variant (k / 1024)))
  | none, some id, _ => some (ioFor s (s.launches.get (id / 2 ^ 32)).die)
  | none, none, (_, l, _) :: _ => some (ioFor s (s.launches.get l).die)
  | none, none, [] => none
def reqOf (s : State) (k : FPkt) : Option Rreq := s.fab.reqs.find? fun r => r.txn = k.txn && k.type != 2 && k.type != 4 && k.type != 6

/-- A packet where it waits to be routed at an I/O die: the port whose receive buffer holds it, none for one that the
device sends. -/
def whereAt (s : State) (io : Nat) (k : FPkt) : Option (Option Nat) :=
  if s.fab.out.contains k && (match reqOf s k with | some r => (match reqIo s r with | some x => x = io | none => true) | none => true) then some none
  else ((List.range 8).find? fun i => (s.port (8 * io + i)).rx.contains k).map fun i => some (8 * io + i)
/-- It leaves that place. -/
def takeAway (at_ : Option Nat) (k : FPkt) (s : State) : State :=
  match at_ with
  | none => s.onFab fun f => { f with out := f.out.erase k }
  | some i => freeFlits i k (s.onPort i fun t => { t with rx := t.rx.erase k })

/-- The port with the most free credits on the packet's VC, the lowest among equals. -/
def mostFree (s : State) (vc : Nat) : List Nat → Option Nat
  | [] => none
  | i :: t => match mostFree s vc t with
    | none => some i
    | some j => if (s.port i).credits.get vc ≤ (s.port j).credits.get vc then some i else some j

/-- VC on which the packet leaves through a port (R342). -/
def leaveVc (t : FPort) (k : FPkt) : Nat := if t.dateline then (if k.vc = 0 then 1 else if k.vc = 2 then 3 else k.vc) else k.vc
/-- The port can send it now: credits, replay buffer, lanes. -/
def canSend (t : FPort) (k : FPkt) : Bool :=
  t.isUp && !t.moving && decide (t.credits.get (leaveVc t k) + k.flits ≤ rxFlits) && decide (flitsOf t.replay + k.flits ≤ replayFlits)
def sendOn (i : Nat) (k : FPkt) (s : State) : State :=
  s.onPort i fun t =>
    let y := { k with hops := k.hops + 1, vc := leaveVc t k, lseq := t.nextL }
    { t with nextL := t.nextL + 1, replay := t.replay ++ [y], tx := t.tx ++ [y], credits := t.credits.upd y.vc (· + k.flits) }

def hopMax : Nat := 64
/-- A packet is routed by its I/O die's table; one without a route, with all ports of its entry DOWN, or that has crossed
64 links is dropped. -/
def execPacketForward (io : Nat) (k : FPkt) (s : State) : Out :=
  match whereAt s io k with
  | none => .next s
  | some at_ =>
    let m := ((s.fab.ios.get io).routes.get k.dst).toNat
    let ports := (List.range (nPorts s.variant)).filter fun i => m.testBit i
    if k.dst = s.devId || nIo s.variant ≤ io || (s.fab.ios.get io).out then .next s
    else if hopMax ≤ k.hops then .next (routeDrop io false (takeAway at_ k s))
    else if ports.all fun i => (s.port i).st = .down then .next (routeDrop io true (takeAway at_ k s))
    else
      let named := match at_, reqOf s k with | none, some r => if ports.contains r.port then some r.port else none | _, _ => none
      match named.orElse (fun _ => mostFree s k.vc (ports.filter fun i => (s.port i).isUp)) with
      | none => .next s
      | some i => if canSend (s.port i) k then .next (sendOn i k (takeAway at_ k s)) else .next s

/-! ### Losses (R343 R353 R354) -/

def execPortDownTimeout (port : Nat) (s : State) : Out :=
  let t := s.port port
  match t.lossAt with
  | none => .next s
  | some a => .next (if t.st = .training && a + 100000000 ≤ s.now then portDown port s else s)

/-- A receiving lane loses lock; a port with fewer than seven good lanes becomes DOWN. -/
def execLaneLockLoss (port lane : Nat) (s : State) : Out :=
  let t := s.port port
  if !t.isUp || 9 ≤ lane || t.badLanes.contains lane then .next s
  else
    let s := s.onPort port fun t => { t with badLanes := t.badLanes ++ [lane], moving := true }
    .next (if 2 < (s.port port).badLanes.length then portDown port s else s)

/-- The record of a lane. -/
def laneRec (port sev : Nat) : ErrRec := { source := srcPort port, cls := clFabric, sev := sev, unit := port, die := 0x10 + port / 8 }
/-- The spare takes the place of a lane. -/
def laneSpared (port : Nat) (s : State) : State :=
  errAdd (laneRec port sevCorrected) (s.onPort port fun t => { t with spare := false, spared := t.spared.raise })
/-- The port goes on at seven lanes. -/
def laneDegraded (port : Nat) (s : State) : State :=
  timeElect (errAdd (laneRec port sevDegraded) (s.onPort port fun t => { t with st := .upDegraded, lanes := 7, lost := t.lost.raise }))
/-- The port goes on with the spare, or at seven lanes where the spare is in use or a second lane was lost, and sends its
unacknowledged packets again. -/
def execLaneSpareResume (port : Nat) (s : State) : Out :=
  let t := s.port port
  if !t.isUp || !t.moving then .next s
  else
    let s := s.onPort port fun t => resend { t with moving := false }
    let s := if t.spare then laneSpared port s else s
    .next (if 1 < t.badLanes.length && t.st != .upDegraded then laneDegraded port s else s)

/-- A failed lane is retrained: recovered, it becomes the spare, or an active lane of a port at seven; a port that is not UP has
one more good lane to train with. -/
def execLaneRetrainTick (port lane : Nat) (ok : Bool) (s : State) : Out :=
  let t := s.port port
  if t.moving || !t.badLanes.contains lane || !ok then .next s
  else
    let heal (t : FPort) : FPort := { t with badLanes := t.badLanes.erase lane }
    .next (if !t.isUp then s.onPort port heal else if t.st = .upDegraded then timeElect (s.onPort port fun t => { heal t with st := .up, lanes := 8 })
      else s.onPort port fun t => { heal t with spare := true })

/-- The free spare takes over the next active lane while that lane is calibrated. -/
def execSpareLaneRotation (port : Nat) (s : State) : Out :=
  let t := s.port port
  .next (if t.isUp && t.spare && !t.moving then s.onPort port fun t => { t with rotLane := (t.rotLane + 1) % 8 } else s)

/-! ### Time (R45 R355 to R357) -/

/-- The TIME packet of a port: its echoes are those of the last one received there, its master the best one known, its PPS
that of the master itself or of the parent's last packet. -/
def timePktOf (s : State) (port : Nat) : TimePkt :=
  let echo := (s.port port).tRecv.getD (0, 0)
  let best := bestMaster s
  { tSend := s.tsc.time, echoSend := echo.1, echoRecv := echo.2
    master := BitVec.ofNat 16 ((best.map (·.id)).getD s.devId), prio := BitVec.ofNat 8 ((best.map (·.prio)).getD s.fab.prio.toNat)
    hops := s.tsc.hops, pps := match s.fab.parent with | some p => (s.port p).tPps | none => s.tsc.pps }
def execTimePacketSend (port : Nat) (s : State) : Out :=
  .next (if (s.port port).isUp then s.onPort port fun t => { t with timeTx := t.timeTx + 1, timeOut := some (timePktOf s port) } else s)

/-- Offset from the parent, by the two-way exchange. -/
def timeOffset (k : TimePkt) (now : Nat) : Int :=
  ((k.echoRecv.toNat - k.echoSend.toNat : Int) - (now - k.tSend.toNat : Int)) / 2
/-- The bound of R45 at a number of hops. -/
def alignBound (hops : Nat) : Nat := max 40 (5 * hops)
/-- Fabric training of the power-up sequence that follows 12 V, before ready, when the counter may be stepped (R45): not
after a ready, so not in the sequence that MAIN_POWER ON begins, nor in a restart. -/
def mayStep (s : State) : Bool := s.pwr.state = .starting && !s.pwr.afterStop && !s.tsc.stepped
/-- The offset from the parent is corrected: by the one step, else by slewing. -/
def timeCorrect (o : Int) (s : State) : State :=
  s.onTsc fun t =>
    let t := { t with offset := BitVec.ofInt 32 o, aligned := decide (o.natAbs ≤ alignBound t.hops.toNat) }
    if mayStep s then { t with time := BitVec.ofInt 64 (t.time.toNat + o), stepped := true, slew := 0, aligned := true } else { t with slew := o }

/-- A TIME packet arrives. One from the parent that echoes a packet of ours gives the offset. -/
def execTimePacket (port : Nat) (k : TimePkt) (s : State) : Out :=
  if nPorts s.variant ≤ port || !(s.port port).isUp then .next s
  else if !k.crcOk || k.rsvd then .next (badCtl port k.crcOk k.rsvd s)
  else
    let s := timeElect (s.onPort port fun t =>
      { t with tRecv := some (k.tSend, s.tsc.time), tMaster := some (k.prio.toNat, k.master.toNat, k.hops.toNat), tPps := k.pps, tAt := s.now })
    .next (if s.fab.parent = some port && !(k.echoSend = 0 && k.echoRecv = 0) then timeCorrect (timeOffset k s.now) s else s)

def parentNs : Nat := 10000000
/-- No TIME packet has come from the parent for 10 ms. -/
def execTimeParentTimeout (s : State) : Out :=
  match s.fab.parent with
  | none => .next s
  | some p => .next (if (s.port p).tAt + parentNs ≤ s.now then timeElect (s.onPort p fun t => { t with tMaster := none }) else s)

/-- A pulse is captured, unless it comes less than 0.5 s after the last one. A master that follows 1PPS slews so that
1 s elapses between pulses. -/
def execPpsPulse (s : State) : Out :=
  let old := s.tsc.ppsAt.toNat
  if !s.pwr.aux || (s.tsc.ppsSeen && s.now < old + 500000000) then .next s
  else
    let follow := s.fab.ppsEn && s.tsc.hops = 0
    let cap (t : Tsc) : Tsc := { t with ppsAt := t.time, ppsSeen := true }
    .next (s.onTsc fun t => if follow then { cap t with pps := true, slew := if t.ppsSeen then (1000000000 : Int) - (s.now - old) else t.slew } else cap t)

/-! ### Registers (R345 to R347) -/

def execFabConfigWrite (v : DWord) (s : State) : Out := .next (fabConfigWrite (.fn 0) v s)
/-- An I/O die that the variant lacks has no register: the access is recorded and not performed (R24). -/
def execFabRouteDataWrite (io : Nat) (v : DWord) (s : State) : Out :=
  .next (if io < nIo s.variant then routeDataWrite io v s else writeRefused (.fn 0) (ctrlIoBase io + 0x100010) s)
/-- A read of the whole register; of an absent one it returns 0 and is recorded (R24). -/
def execFabDropsRead (io : Nat) (s : State) : Out :=
  let (s, v) := regRead (.fn 0) (ctrlIoBase io + 0x100020) 8 s
  .next (s.onLastRead fun _ => v)

end Sys2Proof.Machine
end

