-- ==== Sys2Proof/Machine/Fabric.lean ====
section
/-! DEFINITION. Requests and responses of the fabric at their ends (R348 to R352, R242). -/
namespace Sys2Proof.Machine

/-! ### Requests of other devices (R349 R351) -/

/-- Response of a request. -/
def response (s : State) (k : FPkt) (status : Nat) : FPkt :=
  { type := if k.type = 1 then 2 else if k.type = 3 then 4 else 6, vc := 2, dst := k.src, src := s.devId, sctx := k.sctx, sgen := k.sgen, txn := k.txn, status := status }
def answer (k : FPkt) (status : Nat) (s : State) : State := fabOut (response s k status) s
/-- DENIED, with the record of the I/O die's link engine. -/
def denyReq (x : Nat) (k : FPkt) (s : State) : State :=
  answer k 3 (errAdd { source := srcLeng x, cls := clAccess, sev := sevContained, unit := x, die := 0x10 + x, flags := if k.phys then 3 else 1
                       ctx := if k.phys then 0xFFFF else k.dctx, gen := if k.phys then 0 else (s.ctx k.dctx).gen, addr := k.addr } s)

/-- Local pieces that a request names, none where its translation is denied. -/
def reqPieces (s : State) (k : FPkt) (need : Nat) : Option (List (Nat × Nat)) :=
  if k.phys then (if k.addr + k.len ≤ 2 ^ 48 then some (cutRange (k.len + 1) k.addr k.len) else none)
  else if 4096 ≤ k.dctx || !(s.ctx k.dctx).live || !vaOk k.addr then none
  else
    match physRange s k.dctx k.addr k.len need with
    | .error _ => none
    | .ok l => if l.any fun y => isFar s y.1 then none else some (l.map fun y => (paLocal y.1, y.2))

/-- How the checks of a request end: admitted, or why not. -/
inductive ReqAns where
  | ok (s : State)
  | denied
  | stale
  | retry

/-- Context and generation check of every piece. -/
def admitAll (k : FPkt) (l : List (Nat × Nat)) (s : State) : ReqAns :=
  let rs := l.map fun y => (remoteAdmit k.src k.sctx k.sgen y.1 s).1
  if rs.contains .denied then .denied
  else if rs.contains .stale then .stale
  else if rs.contains .retry then .retry
  else .ok (l.foldl (fun s y => (remoteAdmit k.src k.sctx k.sgen y.1 s).2) s)

/-- A counter that the requester may operate on: owned by DCONTEXT, or its share set holds the pair. -/
def farCounter (s : State) (k : FPkt) : Bool :=
  let c := s.sync.ctrs.get k.counter.toNat
  counterId k.counter.toNat && c.alloc &&
  (c.owner = k.dctx || (match c.sset with | some x => (s.tier.sets.get x).remotes.any fun m => m.1 = k.src && m.2.1 = k.sctx | none => false))

/-- The proxy answers: DCONTEXT is in its reset, or the link engine or the I/O die's data path is out. -/
def reqRetry (s : State) (x : Nat) (k : FPkt) : Bool :=
  (!k.phys && (s.ctx k.dctx).inReset) || (s.fab.ios.get x).out || (s.engines.get (24 + x)).out

/-- Poisoned byte offsets of a packet's data. -/
def poisOffs (k : FPkt) : List Nat :=
  if !k.poison then [] else (List.range k.len).filter fun i => k.phys || k.mask.contains (i / 64)

/-- Bytes are performed at their homes, piece after piece; answers whether the write met poison. -/
def putPieces (l : List (Nat × Nat)) (d : List Byte) (po : List Nat) (s : State) : State × Bool :=
  (l.foldl (init := (s, false, 0)) fun (s, met, o) (a, n) =>
    if fencedAt s a then (fencedRec a s, true, o + n)
    else
      let (s, m) := bulkWrite a (slice d o n) ((po.filter fun i => decide (o ≤ i) && decide (i < o + n)).map (· - o)) s
      (s, met || m, o + n)) |> fun (s, met, _) => (s, met)
/-- A PUT with byte enables, and with the bits of R121. -/
def putMasked (k : FPkt) (s : State) : State × Bool :=
  let line := lineOf k.addr
  if fencedAt s line then (fencedRec line s, true)
  else bulkWriteLine line (k.mask.map fun o => (o, mixBits k.bits (byteN (s.rd (line + o) 1) 0) (byteN k.data o))) (if k.poison then k.mask else []) s

/-- The issuer that a counter sees in a remote request. -/
def farWait (x : Nat) (k : FPkt) (v : DWord) : Wait :=
  { who := .remote, lanes := 1, id := k.counter.toNat, value := v, ctx := k.sctx, gen := k.sgen, src := srcLeng x, dev := k.src, tag := k.txn }

/-- A PUT is performed and its bytes are counted. -/
def putDo (x : Nat) (k : FPkt) (l : List (Nat × Nat)) (s : State) : State :=
  let po := poisOffs k
  let done := k.len - lostBytes s (l.map fun y => (paOf s.devId y.1, y.2)) po
  let (s, met) := if k.phys then putMasked k s else putPieces l k.data po s
  let s := if k.phys then s else acctAdd k.dctx aFabRx k.len s
  let s := if k.count && !k.phys then (ctrDo 0x01 (farWait x k (BitVec.ofNat 64 done)) 0 s).1 else s
  answer k (if met || k.poison then 2 else 0) s

def execPut (port : Nat) (crcOk : Bool) (k : FPkt) (s : State) : Out :=
  match arrive 1 port crcOk k s with
  | .no => .next s
  | .done s => .next s
  | .mine s =>
    let x := port / 8
    if reqRetry s (port / 8) k then .next (answer k 1 s)
    else match reqPieces s k needW with
      | none => .next (denyReq x k s)
      | some l => match admitAll k l s with
        | .denied => .next (denyReq x k s)
        | .stale => .next s
        | .retry => .next (answer k 1 s)
        | .ok t => if k.count && !k.phys && !farCounter s k then .next (denyReq x k t) else .next (putDo x k l t)

/-- The data of a GET, with its poisoned flits. -/
def getDo (k : FPkt) (l : List (Nat × Nat)) (s : State) : State :=
  let ps := l.map fun y => (paOf s.devId y.1, y.2)
  let (d, po) := physRead s ps
  let s := physTouch ps s
  let s := if k.phys then s else acctAdd k.dctx aFabTx k.len s
  let r := response s k (if po.isEmpty then 0 else 2)
  fabOut { r with flits := 1 + (k.len + 63) / 64, len := k.len, data := d, poison := !po.isEmpty, mask := flitMask k.len po } s

def execGet (port : Nat) (crcOk : Bool) (k : FPkt) (s : State) : Out :=
  match arrive 3 port crcOk k s with
  | .no => .next s
  | .done s => .next s
  | .mine s =>
    let x := port / 8
    if reqRetry s (port / 8) k then .next (answer k 1 s)
    else match reqPieces s k needR with
      | none => .next (denyReq x k s)
      | some l => match admitAll k l s with
        | .denied => .next (denyReq x k s)
        | .stale => .next s
        | .retry => .next (answer k 1 s)
        | .ok t => .next (getDo k l t)

/-- The generation check of a requester that is a member of the counter's share set (R349). -/
def waitAdmit (k : FPkt) (s : State) : ReqAns :=
  let c := s.sync.ctrs.get k.counter.toNat
  if 4096 ≤ k.dctx || !(s.ctx k.dctx).live || !farCounter s k || !condOk (k.len % 256) then .denied
  else match c.sset with
    | none => .ok s
    | some n =>
      match (s.tier.sets.get n).remotes.find? fun m => m.1 = k.src && m.2.1 = k.sctx with
      | none => .ok s
      | some (_, _, kept) =>
        if 128 ≤ (match kept with | some g => (k.sgen - g).toNat | none => 0) then .stale
        else
          let keep (m : Nat × Nat × Option (BitVec 8)) : Nat × Nat × Option (BitVec 8) := if m.1 = k.src && m.2.1 = k.sctx then (m.1, m.2.1, some k.sgen) else m
          .ok (s.onTier fun t => { t with sets := t.sets.upd n fun y => { y with remotes := y.remotes.map keep } })

def execFabricWait (port : Nat) (crcOk : Bool) (k : FPkt) (s : State) : Out :=
  match arrive 5 port crcOk k s with
  | .no => .next s
  | .done s => .next s
  | .mine s =>
    if reqRetry s (port / 8) k then .next (answer k 1 s)
    else match waitAdmit k s with
      | .denied => .next (denyReq (port / 8) k s)
      | .stale => .next s
      | .retry => .next (answer k 1 s)
      | .ok s =>
        let w := farWait (port / 8) k (if k.len % 256 = 0x12 then 0 else k.value)
        match ctrDo (k.len % 256) w 0xFFFFFFFF s with
        | (s, .fin code v) => .next (fabOut (waitDonePkt s w code v) s)
        | (s, _) => .next s

def execWaitCancel (port : Nat) (crcOk : Bool) (k : FPkt) (s : State) : Out :=
  match arrive 7 port crcOk k s with
  | .no => .next s
  | .done s => .next s
  | .mine s =>
    let keep (w : Wait) : Bool := !(w.who = .remote && w.dev = k.src && w.tag = k.txn)
    .next (s.onSync fun y => { y with waits := y.waits.filter keep, queued := y.queued.filter keep })

/-! ### Responses at their source (R350) -/

/-- The request that a response answers: sent, not timed out, of the requester's current generation. -/
def answered (s : State) (k : FPkt) : Option Rreq :=
  (s.fab.reqs.find? fun r => r.txn = k.txn && !r.held && r.pkt.dst = k.src).filter fun r => k.sgen == (s.ctx r.pkt.sctx).gen

def backNs : Nat := 2000
def backMax : Nat := 256000
/-- RETRY_LATER: sent again after the backoff. -/
def retryLater (r : Rreq) (s : State) : State :=
  let b := if r.backoff = 0 then backNs else min (2 * r.backoff) backMax
  s.onFab fun f => { f with reqs := f.reqs.map fun y => if y = r then { y with backoff := b, retryAt := some (s.now + b) } else y }

/-- Status of an item for a response status. -/
def itemStatus (st : Nat) : Nat := if st = 0 then stOk else if st = 2 then stPoison else if st = 4 then stAbandoned else stDenied

/-- Address in a context's space of a physical address of another device. -/
def vaOf (s : State) (c dev a : Nat) : Nat :=
  match s.xl.leaves.find? fun l => l.ctx = c && bits l.entry.toNat 63 48 = dev && bits l.entry.toNat 47 16 * 65536 ≤ a && decide (a < bits l.entry.toNat 47 16 * 65536 + pageBytes l.size) with
  | some l => l.va + (a - bits l.entry.toNat 47 16 * 65536)
  | none => a

/-- Physical core of a resident group, by identity. -/
def coreOf (s : State) (id : Nat) : Option Nat :=
  (s.groups.find? fun (_, g) => g.stage != .empty && g.ident = id).bind fun (_, g) => s.phys g.lcore
/-- A store of a tile program failed: poison makes it STORE_POISON, a refusal parks the holder, silence marks it. -/
def tileStoreFails (r : Rreq) (id st : Nat) (s : State) : State :=
  let va := vaOf s r.pkt.sctx r.pkt.dst r.pkt.addr
  let bad (g : Prog) : Prog := { g with storeBad := some (g.storeBad.getD (r.item - 1, va, r.pkt.mask.length)) }
  if st = stTimeoutRemote then markFailed [(0, id / 2 ^ 32, id % 2 ^ 32)] st s
  else match coreOf s id with
    | some p =>
      if st = stPoison then onCur p bad s
      else match tq? s p with
        | some x => tseqPark x cDenied 0 va s
        | none => s
    | none =>
      let fix (g : Group) : Group :=
        if g.ident = id then { g with arr := g.arr.map fun a => { a with progs := (match a.progs with | x :: t => bad x :: t | [] => []) } } else g
      if st = stPoison then s.onSaved fun l => l.map fix else markFailed [(0, id / 2 ^ 32, id % 2 ^ 32)] st s

/-- A PUT has ended at its source with an item status. -/
def putEnd (r : Rreq) (st : Nat) (s : State) : State :=
  let s := reqEnd r s
  match r.queue, r.grp with
  | some _, _ => itemAnswer r st s
  | none, some id => if st = stOk then s else tileStoreFails r id st s
  | none, none => if st = stOk then s else if st = stDenied then denyStores r.org s else markFailed r.owners st s

def execPutAck (port : Nat) (crcOk : Bool) (k : FPkt) (s : State) : Out :=
  match arrive 2 port crcOk k s with
  | .no => .next s
  | .done s => .next s
  | .mine s =>
    match answered s k with
    | none => .next s
    | some r => .next (if r.pkt.type != 1 then s else if k.status = 1 then retryLater r s else putEnd r (itemStatus k.status) s)

/-- A line arrives for a core load, a tile program, or the reading of a queue: its data, or why there is none. -/
def lineGot (r : Rreq) (data : List Byte) (bad : Nat) (s : State) : State :=
  let key := lineOf (paOf r.pkt.dst r.pkt.addr) / 128
  let got (t : Tbl (List Byte)) : Tbl (List Byte) := if bad = 0 then t.put key data else t
  let bads (t : Tbl Nat) : Tbl Nat := if bad = 0 then t else t.put key bad
  let win (w : Win) : Win := if w.id = r.win then { w with ld := { w.ld with got := got w.ld.got, bad := bads w.ld.bad } } else w
  match r.queue, r.grp with
  | some q, _ => s.onQueue q fun x => { x with got := got x.got, bad := bads x.bad }
  | none, some id =>
    if r.win = 0 then (match coreOf s id with | some p => onCur p (fun g => { g with got := got g.got, bad := bads g.bad }) s | none => s)
    else s.onIdent id fun g => { g with win := g.win.map win }
  | none, none => s

/-- What has become of the load of a saved group's remote-wait record is latched: 1 answered, 2 timed out (R331). -/
def latchLoad (r : Rreq) (st : Nat) (s : State) : State :=
  let put (w : RWait) : RWait := if w.type = 0 && w.state = 0 then { w with state := st } else w
  s.onSaved fun l => l.map fun g => if r.grp = some g.ident then { g with rwait := g.rwait.map put } else g

/-- The data of an item's GET are written to their destination and counted. -/
def getWrite (r : Rreq) (q : Nat) (d : List Byte) (po : List Nat) (s : State) : State × Nat :=
  let b := queueBulk s (s.queue q)
  let x : XRow := { dst := r.dest }
  let bar := itemBar s b false x
  if bar != stOk then (if bar = stDenied then itemDeny b x s else s, bar)
  else
    let n := d.length - lostBytes s r.dest po
    let cnt := if r.ctr.toNat = noCounter then (s, SyncRes.fin rOk 0) else syncOp 0x01 (engWait s q (s.queue q) r.ctr.toNat (BitVec.ofNat 64 n)) 0 s
    match cnt with
    | (t, .fin _ _) =>
      let (t, met) := physWrite b q { pktId := r.pktId, item := r.item } (r.deadline - s.now) r.dest d po t
      (t, if met || !po.isEmpty then stPoison else stOk)
    | (t, _) => (t, stDenied)

/-- The answer to an engine's GET: its bytes go on in a PUT, or to their destination. -/
def getEnd (r : Rreq) (q : Nat) (k : FPkt) (s : State) : State :=
  let st := itemStatus k.status
  let s := s.onQueue q fun x => { x with pkts := x.pkts.map fun p => if p.id = r.pktId && p.st = .running then p.addRanges r.item (poisonRanges r.srcVa (poisOffs k)) else p }
  if st != stOk && st != stPoison then itemAnswer r st (reqEnd r s)
  else match r.next_ with
    | some put =>
      let go : FPkt := { put with data := k.data, poison := k.poison, mask := if k.poison then k.mask else [] }
      let s := engSend q { pktId := r.pktId, item := r.item, port := r.port, pkt := go } (r.deadline - s.now) s
      itemAnswer r st (reqEnd r s)
    | none =>
      let (s, st) := getWrite r q k.data (poisOffs k) s
      itemAnswer r st (reqEnd r s)

/-- Some destination of the bytes cannot be written yet. -/
def getWaits (s : State) (r : Rreq) (q : Nat) : Bool := r.dest.any fun y =>
  physAcc s (queueBulk s (s.queue q)) y.1 = .wait || (!isFar s y.1 && heldRange s (paLocal y.1) y.2)

def execGetData (port : Nat) (crcOk : Bool) (k : FPkt) (s0 : State) : Out :=
  match arrive 4 port crcOk k s0 with
  | .no => .next s0
  | .done s => .next s
  | .mine s =>
    match answered s k with
    | none => .next s
    | some r =>
      if r.pkt.type != 3 || (k.len != r.pkt.len && (k.status = 0 || k.status = 2)) then .next s
      else if k.status = 1 then .next (retryLater r s)
      else
        let s := acctAdd r.pkt.sctx aFabRx k.len s
        match r.queue with
        | some q =>
          if r.pktId = 0 then .next (lineGot r k.data k.status (reqEnd r s))
          else if getWaits s r q then .next s0
          else .next (getEnd r q k s)
        | none => .next (lineGot r k.data k.status (latchLoad r 1 (reqEnd r s)))

def execWaitDone (port : Nat) (crcOk : Bool) (k : FPkt) (s : State) : Out :=
  match arrive 6 port crcOk k s with
  | .no => .next s
  | .done s => .next s
  | .mine s =>
    match answered s k with
    | none => .next s
    | some r =>
      match r.queue with
      | none => .next s
      | some q =>
        if r.pkt.type != 5 then .next s
        else if k.status = 1 then .next (retryLater r s)
        else .next (waitPktEnd q (if k.status = 0 then rOk else if k.status = 4 then rAbandoned else rRemoteDenied) k.value (reqEnd r s))

/-! ### Retries and timeouts (R350) -/

def reqNamed (s : State) (txn : Nat) : Option Rreq := s.fab.reqs.find? fun r => r.txn = txn && !r.held

/-- The backoff of a request has passed: it is sent again. -/
def execRemoteRetry (txn : Nat) (s : State) : Out :=
  match reqNamed s txn with
  | none => .next s
  | some r => match r.retryAt with
    | none => .next s
    | some t =>
      if s.now < t || r.deadline ≤ s.now then .next s
      else
        let go (y : Rreq) : Rreq := if y = r then { y with retryAt := none } else y
        .next (fabOut r.pkt (s.onFab fun f => { f with reqs := f.reqs.map go }))

/-- A request's timeout expires. -/
def execRemoteRequestTimeout (txn : Nat) (s : State) : Out :=
  match reqNamed s txn with
  | none => .next s
  | some r =>
    if s.now < r.deadline then .next s
    else match r.pkt.type, r.queue with
      | 5, some q =>
        let cancel : FPkt := { r.pkt with type := 7, len := 0, value := 0, counter := 0 }
        let (v, s) := (s.draw, s.drawn)
        .next (waitPktEnd q rTimeout v (fabOut cancel (reqEnd r s)))
      | 3, some _ => if r.pktId = 0 then .next (lineGot r [] 6 (reqEnd r s)) else .next (itemAnswer r stTimeoutRemote (reqEnd r s))
      | 3, none => .next (lineGot r [] 2 (latchLoad r 2 (reqEnd r s)))
      | _, _ => .next (putEnd r stTimeoutRemote s)

end Sys2Proof.Machine
end

