-- ==== Sys2Proof/Machine/PowerEvents.lean ====
section
/-! DEFINITION. Governors, the power cap, budget lending and device time (R27 to R46). -/
namespace Sys2Proof.Machine

/-! ### Idle and busy (R35 R38 R41) -/

/-- A thread waits on a counter or fence. -/
def Thread.waits (t : Thread) : Bool := match t.sync with | some o => !o.fin | none => false
/-- A group is blocked in a counter or fence wait: a thread waits, and every other one waits for it at a GSYNC. -/
def Group.blocked (g : Group) : Bool :=
  g.stage = .running && g.alive.any (fun l => (g.thread l).waits) && g.alive.all fun l => (g.thread l).waits || (g.thread l).gsync.isSome

/-- The slots of a physical core's logical ID. -/
def residents (s : State) (p : Nat) : List Group :=
  match logOf s.mesh p with
  | some c => (coreGroups s c).map s.group
  | none => []
def coreIdle (s : State) (p : Nat) : Bool :=
  let c := s.core p
  (residents s p).all (fun g => g.blocked && !(s.ctx g.ctx).lendHeld) && c.progs.isEmpty && c.mq.isEmpty && c.sb.isEmpty && !c.testing
def quadIdle (s : State) (d q : Nat) : Bool := (coresOfQuad d q).all (coreIdle s)
/-- Operating, with a group that is not waiting. -/
def quadBusy (s : State) (d q : Nat) : Bool :=
  (s.pwr.quads.get (36 * d + q)).mode = .operating && (coresOfQuad d q).any fun p => (residents s p).any fun g => !g.blocked

/-! ### The governor (R29 R32 R35 to R37) -/

def minMv : Nat := 550
def maxMv : Nat := 900
/-- A voltage the governor may set: 5 mV steps from 0.55 V to 0.90 V. -/
def legalMv (mv : Nat) : Nat := max minMv (min maxMv (mv / 5 * 5))
/-- One tick moves a voltage by at most 100 mV. -/
def slewMv (old target : Nat) : Nat := if old ≤ target then min target (old + 100) else max target (old - 100)

/-- The voltage the budget allows a busy quad: the budget is split evenly over the `n` busy quads (R35). -/
def busyMv (budget n load : Nat) : Nat := legalMv (Config.quadMv (budget / max 1 n) load)

/-- Of the operating quads every one is lowered while the die is hot (R37), else a busy one moves toward its target; the
voltage of one that is not busy stays (DESIGN CHOICE, notes/assumptions/40.md: R35 splits power over busy quads only). -/
def Quad.tick (thermal busy : Bool) (target : Nat) (q : Quad) : Quad :=
  if q.mode != .operating then q
  else if thermal then { q with mv := max minMv (q.mv - 5) }
  else if busy then { q with mv := slewMv q.mv target }
  else q

/-- Quads without a core in service or under test are turned off (R32). -/
def quadDead (s : State) (d q : Nat) : Bool := (coresOfQuad d q).all fun p => (s.core p).fenced && !(s.core p).testing

/-- A quad is turned off: it holds no state (R27). What its cores had sent to the kernel engine is on its way, and what
Plowin keeps of them outlives it. -/
def quadOff (k : Nat) (s : State) : State :=
  forAll (coresOfQuad (k / 36) (k % 36))
    (fun p s => s.onCore p fun c => { Core.kept c with lmSent := c.lmSent, clipPend := c.clipPend, work := c.work, workAt := c.workAt })
    (s.onQuad k fun _ => { mode := .off })

/-- A governor sets its die's voltages within its budget: `tj` the hottest sensor, `load` the measured load of a busy quad,
`floor` the cap cannot be held at 0.55 V, `gated` the quads paused then. DESIGN CHOICE (notes/assumptions/40.md):
THERMAL_LIMIT is set when the limit of R37 begins, and not again while it goes on; CAP_FLOOR and CAP_LIMITING are set once
a tick while their condition lasts, however many quads it concerns. -/
def execGovernorTick (die tj load : Nat) (floor : Bool) (gated : List Nat) (s : State) : Out :=
  let g := s.pwr.gov.get die
  if 8 ≤ die || !s.pwr.islands || s.pwr.state = .fatal then .next s
  else
    let thermal := decide (95 < tj) || (g.thermal && decide (93 < tj))
    let busy := (List.range 36).filter (quadBusy s die)
    let target := if floor then minMv else busyMv g.budget busy.length load
    let s := s.onGov die fun g => { g with tj := tj, thermal := thermal }
    let s := s.onPwr fun w =>
      { w with thermalLimit := if thermal && !g.thermal then w.thermalLimit.raise else w.thermalLimit
               capLimiting := if !thermal && decide (target < 750) && !busy.isEmpty then w.capLimiting.raise else w.capLimiting
               capFloor := if floor && busy.any gated.contains then w.capFloor.raise else w.capFloor }
    let s := s.onPwr fun w => { w with thermN := w.thermStop || (List.range 8).any fun d => (w.gov.get d).thermal }
    .next (forAll (List.range 36) (fun q s =>
      if quadDead s die q then quadOff (36 * die + q) s
      else s.onQuad (36 * die + q) fun x =>
        { x.tick thermal (busy.contains q) target with gated := floor && busy.contains q && gated.contains q }) s)

/-- Plowin sets each die's budget under the cap, and reports power and the hottest sensor. -/
def execBudgetTick (powerW maxTj : Nat) (budgets : List Nat) (s : State) : Out :=
  if !s.pwr.islands then .next s
  else
    let s := s.onPwr fun w => { w with powerW := powerW % 65536, maxTj := maxTj % 256 }
    if s.pwr.cap < budgets.sum then .next s
    else .next (forAll (List.range 8) (fun d s => s.onGov d fun g => { g with budget := budgets.getD d 0 }) s)

/-- The cap in force: the lowest of the requested one, BOARD_CAP_W and what a rail without its spare phase
allows (R406 R382). -/
def capFix (s : State) : State := s.onPwr fun w => { w with cap := min (min w.reqCap w.boardCap) (w.vrCap.getD w.boardCap) }

/-- A requested cap is in force 20 ms after the response. -/
def execCapTakesEffect (s : State) : Out :=
  match s.pwr.newCaps with
  | (w, t) :: rest => if t ≤ s.now then .next (capFix (s.onPwr fun x => { x with newCaps := rest, reqCap := w })) else .next s
  | [] => .next s

/-! ### Lending (R38 to R41) -/

def State.quad (s : State) (d q : Nat) : Quad := s.pwr.quads.get (36 * d + q)
def inDie (d q : Nat) : Bool := decide (d < 8) && decide (q < 36)

/-- Every core of the quad has been idle for more than 2 us: it begins to drop. -/
def execQuadIdleDrop (die q : Nat) (s : State) : Out :=
  if inDie die q && (s.quad die q).mode = .operating && quadIdle s die q && s.pwr.state != .fatal then
    .next (s.onQuad (36 * die + q) fun x => { x with mode := .dropping, wrote := false })
  else .next s

/-- Its cores' dirty lines are written back; the ramp toward retention begins. -/
def execQuadWritebackDone (die q : Nat) (s : State) : Out :=
  if inDie die q && (s.quad die q).mode = .dropping then
    let s := forAll (coresOfQuad die q) l1Flush s
    .next (s.onQuad (36 * die + q) fun x => { x with mode := .ramping, wrote := true, rampAt := s.now })
  else .next s

def execQuadRetentionReached (die q : Nat) (s : State) : Out :=
  if inDie die q && (s.quad die q).mode = .ramping then .next (s.onQuad (36 * die + q) fun x => { x with mode := .retention, mv := 450 })
  else .next s

def execBudgetLend (die q : Nat) (s : State) : Out :=
  let x := s.quad die q
  if inDie die q && !x.lent && (x.mode matches .dropping | .ramping | .retention) then .next (s.onQuad (36 * die + q) fun x => { x with lent := true })
  else .next s

/-- A waking event: a quad still at or above 0.55 V runs on at once, one below takes the wake path. -/
def execQuadWake (die q : Nat) (s : State) : Out :=
  let k := 36 * die + q
  if !inDie die q then .next s
  else match (s.quad die q).mode with
    | .dropping => .next (s.onQuad k fun x => { x with mode := .operating })
    | .ramping =>
      let v := rampMv (s.quad die q) s.now
      if 550 ≤ v then .next (applyInval k (s.onQuad k fun x => { x with mode := .operating, mv := v }))
      else .next (s.onQuad k fun x => { x with mode := .waking, mv := v })
    | .retention => .next (s.onQuad k fun x => { x with mode := .waking })
    | _ => .next s

/-- The quad is at 0.55 V; recorded invalidations are applied before its first step. -/
def execQuadWakeComplete (die q : Nat) (s : State) : Out :=
  let k := 36 * die + q
  if inDie die q && (s.quad die q).mode = .waking then .next (applyInval k (s.onQuad k fun x => { x with mode := .operating, mv := 550 }))
  else .next s

def execBudgetReturn (die q : Nat) (s : State) : Out :=
  let x := s.quad die q
  if inDie die q && x.lent && (x.mode matches .operating | .waking) then .next (s.onQuad (36 * die + q) fun x => { x with lent := false })
  else .next s

/-! ### Device time (R44 R46) -/

/-- The low half of TSC_TIME is read: `who` is a function, or 64 + a physical core. -/
def execTscTimeLowRead (who : Nat) (s : State) : Out :=
  let v : DWord := BitVec.ofNat 64 (s.now % 2 ^ 32)
  if who < 64 then .next ((tscCapture (.fn who) s).onLastRead fun _ => v)
  else if who < 64 + 1152 then .next ((tscCapture (.core (who - 64)) s).onLastRead fun _ => v)
  else .next s

def execTscReferenceLoss (s : State) : Out :=
  if s.tsc.ref then .next ((s.onTsc fun t => { t with ref := false, locked := false }).onPwr fun w => { w with tscUnlocked := w.tscUnlocked.raise })
  else .next s

/-- The reference returns: the counter relocks by slewing off what it gained without it, and never moves backward. -/
def execTscReferenceReturn (s : State) : Out :=
  .next (if s.tsc.ref then s else s.onTsc fun t => relocked { t with ref := true, relock := true, slew := t.slew - t.drift, drift := 0 })

end Sys2Proof.Machine
end

