-- ==== Sys2Proof/Machine/SchedOps.lean ====
section
/-! DEFINITION. Who goes first and what has room: precedence, residency, the room of a core, the dailies (R159, R161,
R318 to R323, R331, R332, R335). -/
namespace Sys2Proof.Machine

/-! ### Precedence (R318 R320) -/

/-- 2 GUARANTEE, 1 LC, 0 BE: the level of a context's work on an engine's die or instance. -/
def prec (s : State) (eng c : Nat) (lc : Bool) : Nat :=
  match (s.ctx c).share with
  | some g => if (s.engines.get eng).belowG.contains g then 2 else if lc then 1 else 0
  | none => if lc then 1 else 0
def queuePrec (s : State) (k : Nat) : Nat := prec s (k / 1024) (s.queue k).ctx (s.queue k).lc
/-- Of a launch, on its die. -/
def launchPrec (s : State) (l : Launch) : Nat := prec s l.die l.ctx (s.queue l.queue).lc
def groupPrec (s : State) (g : Group) : Nat := launchPrec s (s.launches.get g.launch)

/-! ### Queue slots (R321 R322 R331) -/

def slotsMax : Nat := 64
def Queue.pending (q : Queue) : Bool := q.live && !q.resident && q.head != q.tail
def residentQs (s : State) (e : Nat) : List Nat := (s.qs.filter fun (k, q) => k / 1024 = e && q.live && q.resident).map (·.1)
def pendingQs (s : State) (e : Nat) : List Nat := (s.qs.filter fun (k, q) => k / 1024 = e && q.pending).map (·.1)
def waitedSince (s : State) (k : Nat) : Nat := (s.queue k).pendAt.getD s.now

/-- Of a list, the first element no other one precedes. -/
def firstBy (before : Nat → Nat → Bool) (l : List Nat) : Option Nat := l.find? fun a => !(l.any fun b => before b a)
/-- The pending queue of highest precedence that has waited longest, the lower number among equals. -/
def goesFirst (s : State) (a b : Nat) : Bool :=
  decide (queuePrec s b < queuePrec s a) || (queuePrec s a = queuePrec s b && decide (waitedSince s a < waitedSince s b))
def bestPending (s : State) (e : Nat) : Option Nat := firstBy (goesFirst s) (pendingQs s e)

/-- The queue stands at a REMOTE_WAIT that is not yet satisfied. -/
def atRemoteWait (q : Queue) : Bool := q.pkts.any fun p => p.st = .running && p.op = 0x32
/-- The resident queue that gives its slot to a queue of level `n`: one at a REMOTE_WAIT, else the lowest of lower
precedence, the one resident longest among equals. -/
def loserFor (s : State) (e n : Nat) : Option Nat :=
  let rs := residentQs s e
  match rs.find? fun k => atRemoteWait (s.queue k) with
  | some k => some k
  | none => firstBy (fun a b => decide (queuePrec s a < queuePrec s b) || (queuePrec s a = queuePrec s b && decide ((s.queue a).resAt < (s.queue b).resAt)))
      (rs.filter fun k => decide (queuePrec s k < n))

/-- The next packet of the queue may start under R292, were the queue resident. -/
def nextMay (s : State) (k : Nat) : Bool :=
  let q := s.queue k
  let first (va : Nat) : Bool := match queueRead k va 8 s with | .ok h _ => !barred q h | _ => false
  if q.waits || q.stalled then false
  else if q.listOn then first (q.listAt + q.listOff)
  else if q.ent = q.tail then false
  else match queueRead k (q.ring + 16 * (q.ent.toNat % 2 ^ q.s)) 16 s with
    | .ok b _ => entryOk b && first (fieldN b 0 8)
    | _ => false

/-- A deferral of the queue's next packet, once in each wait for a slot. -/
def deferNext (k : Nat) (s : State) : State :=
  let q := s.queue k
  if q.deferred || !nextMay s k then s
  else acctAdd q.ctx aDeferrals 1 (s.onQueue k fun q => { q with defer := min (q.defer + 1) 0xFFFF, deferred := true })

/-- The remote-wait record of a queue at a REMOTE_WAIT (R331). -/
def rwaitOf (s : State) (k : Nat) : Option RWait :=
  ((s.queue k).pkts.find? fun p => p.st = .running && p.op = 0x32).map fun p =>
    let due := match s.fab.reqs.find? fun r => r.queue = some k && r.pktId = p.id with
      | some r => r.deadline
      | none => ((s.sync.waits ++ s.sync.queued).findSome? fun w => if w.who = .engine && w.grp = k then w.deadline else none).getD 0
    { type := 1, device := p.f 16 2, dctx := p.f 18 2, cond := p.f 20 1, value := BitVec.ofNat 64 (p.f 8 8), id := BitVec.ofNat 32 p.arg, deadline := due }

/-- A resident queue loses its slot. -/
def loseSlot (k : Nat) (s : State) : State :=
  let rw := rwaitOf s k
  let s := s.onQueue k fun q => { q with resident := false, rwait := rw, deferred := false, crowd := false, pendAt := if q.head = q.tail then none else some s.now }
  deferNext k s

/-- With every slot of an engine taken, its pending queues wait for a slot that another holds. -/
def crowdAll (e : Nat) (s : State) : State :=
  if slotsFull s e then forAll (pendingQs s e) (fun k s => s.onQueue k fun q => { q with crowd := true }) s else s
/-- A queue takes a slot. A packet that waited for it while every slot was taken has been deferred; a result latched in its
remote-wait record is delivered. -/
def takeSlot (k : Nat) (s : State) : State :=
  let s := if (s.queue k).crowd then deferNext k s else s
  let rw := (s.queue k).rwait
  let s := s.onQueue k fun q => { q with resident := true, resAt := s.now, pendAt := none, deferred := false, crowd := false, rwait := none }
  let s := match rw with
    | some r => if r.state = 0 then s else waitPktEnd k r.lcode r.lval s
    | none => s
  crowdAll (k / 1024) s

/-! ### Room on a core (R159 R161 R325) -/

/-- One more group of a launch fits on a core beside these. -/
def fitsWith (l : Launch) (key : Nat) (gs : List Group) : Bool :=
  decide (gs.length < 48) && decide ((gs.map fun g => roundRegs g.vregs).sum + roundRegs l.vregs ≤ 2048) &&
  decide ((gs.map (·.lsSize)).sum + l.lsSize ≤ splitLs l.split) && (l.cap = 0 || decide ((gs.filter (·.launch = key)).length < l.cap))
/-- The split of the core is the launch's, or no group is resident there. -/
def splitOk (s : State) (p : Nat) (l : Launch) (gs : List Group) : Bool := gs.isEmpty || (s.core p).split = l.split
def fitsOn (s : State) (l : Launch) (key c : Nat) : Bool :=
  match s.phys c with
  | none => false
  | some p =>
    let gs := (coreGroups s c).map s.group
    !(s.core p).fenced && (s.mesh.swaps.get c).isNone && splitOk s p l gs && fitsWith l key gs

/-- Cores on which the launch's next group may run, ascending. -/
def Launch.cores_ (l : Launch) : List Nat :=
  if l.fixed then (match l.mask[l.nextG % l.mask.length]? with | some i => [lOf l.die i] | none => []) else l.mask.map (lOf l.die)

/-- Other work that waits for room on the core goes first, whether or not there is room for it yet: a launch that may use
the core, or a group saved there, of higher level, or of the same level and waiting longer (R318 R323). -/
def outranked (s : State) (c n since : Nat) (self : Nat → Bool) (selfSaved : Group → Bool) : Bool :=
  (s.launches.any fun (k, l) => !self k && l.wants s && l.cores_.contains c &&
    (decide (n < launchPrec s l) || (n = launchPrec s l && decide (l.waitAt < since)))) ||
  (s.saved.any fun g => !selfSaved g && g.lcore = c && ctxRuns s g.ctx &&
    (decide (n < groupPrec s g) || (n = groupPrec s g && decide (g.savedAt < since))))

/-- The lowest free slot of a core. -/
def freeSlot (s : State) (c : Nat) : Option Nat := (List.range 48).find? fun i => (s.group (gKey c i)).stage = .empty

/-- A core without a resident group takes another split: its L1 is written back and invalidated. -/
def resplit (p split : Nat) (s : State) : State :=
  if (s.core p).split = split then s else (l1Invalidate p (l1Flush p s)).onCore p fun c => { c with split := split }

/-! ### Displacement (R323 R332) -/

/-- Granules of a die's HBM window that no context owns, no save holds and neither the tables nor the dump's region take. -/
def freeGranules (s : State) (d : Nat) : Nat :=
  (hbmSize s d - tabBytes - (if d = 0 then dumpLen else 0)) / 65536 - (s.tier.gran.filter fun (k, g) => g.valid && zoneOf (k * 65536) = .hbm d).length -
    (s.saved.map fun g => (g.saveAt.filter fun k => zoneOf (k * 65536) = .hbm d).length).sum
def saveGranules (s : State) (g : Group) : Nat := (groupBytes s g true {} + 65535) / 65536

/-- Insert a group, the most recently started first. -/
def insRecent (g : Group) : List Group → List Group
  | [] => [g]
  | x :: t => if x.started ≤ g.started then g :: x :: t else x :: insRecent g t
/-- The fewest groups of a list, from its head on, whose removal makes room. -/
def fewest (fit : List Group → Bool) (gs : List Group) : List Group → List Group → Option (List Group)
  | [], _ => none
  | g :: t, out =>
    let out := out ++ [g]
    if fit (gs.filter fun x => !out.contains x) then some out else fewest fit gs t out

/-- Groups of lower precedence whose stop makes room for a group of level `n` on the core; a group whose stop is pending
counts as gone. -/
def displaced (s : State) (l : Launch) (key n c : Nat) : Option (List Group) :=
  match s.phys c with
  | none => none
  | some p =>
    let all := (coreGroups s c).map s.group
    let gs := all.filter (·.stop.isNone)
    let low := (gs.filter fun g => decide (groupPrec s g < n)).foldr insRecent []
    if (s.core p).fenced || (s.mesh.swaps.get c).isSome then none
    else if (s.core p).split = l.split then (if fitsWith l key gs then some [] else fewest (fitsWith l key) gs low [])
    else if low.length = gs.length && fitsWith l key [] then some low
    else none
/-- The die has free granules for their states. -/
def saveRoom (s : State) (d : Nat) (gs : List Group) : Bool := decide ((gs.map (saveGranules s)).sum ≤ freeGranules s d)

/-! ### The dailies (R335) -/

def cntGran (s : State) (c : Nat) (pin : Bool) : Nat :=
  (s.tier.gran.filter fun (k, g) => g.valid && g.owner = c && (match zoneOf (k * 65536) with | .pinned _ => pin | .hbm _ => !pin | _ => false)).length
def tierNow (s : State) (c : Nat) : Nat := cntGran s c true
/-- Granules of a group's checkpoint slots (R389). -/
def slotGran (g : Group) : Nat := ((g.slots ++ g.replay.toList).map fun x => (x.bytes + 65535) / 65536).sum
def hbmNow (s : State) (c : Nat) : Nat :=
  cntGran s c false + (s.ctx c).saveGran + (((s.groups.map (·.2) ++ s.saved).filter (·.ctx = c)).map slotGran).sum
/-- Time in slots of the context's resident groups that is not yet in the account. -/
def slotNow (s : State) (c : Nat) : Nat :=
  ((s.groups.filter fun (_, g) => g.ctx = c && (g.stage = .running || g.stage = .parked)).map fun (_, g) => s.now - g.started).sum
def dailies (s : State) (c : Nat) (periodic final : Bool) : List Byte :=
  let x := s.ctx c
  let a (o : Nat) : List Byte := leBytes 8 (x.acct.get o)
  leBytes 2 1 ++ leBytes 2 ((if periodic then 1 else 0) + if final then 2 else 0) ++ leBytes 2 c ++ [x.gen] ++ leBytes 1 (x.share.getD 0xFF) ++
  leBytes 8 s.now ++ a aSubmitted ++ a aCompleted ++ a aFailed ++ a aKengNs ++ a aCengNs ++ a aLengNs ++ a aCoreSteps ++ a aPlaneSteps ++
  a aRetakeRuns ++ a aRetakeTests ++ a aTierGms ++ a aHbmGms ++ leBytes 4 (tierNow s c) ++ leBytes 4 (x.acct.get aTierPeak) ++
  leBytes 4 (hbmNow s c) ++ leBytes 4 (x.acct.get aHbmPeak) ++ a aFabTx ++ a aFabRx ++ a aEnergy ++ a aDeferrals ++ a aDispl ++ a aQuota ++
  a aCapacity ++ a aSoft ++ a aFull ++ leBytes 8 (x.acct.get aSlotNs + slotNow s c) ++ a aHang ++ zeros 40

/-! ### Energy (R334) -/

/-- Core-steps of every context on a core quad since the last sample. -/
def quadSteps (s : State) (q : Nat) : Tbl Nat :=
  s.cores.foldl (fun t (p, c) => if quadKey p = q then c.work.foldl (fun (t : Tbl Nat) (x, n) => t.upd x (· + (n - c.workAt.get x))) t else t) []
/-- What the energy of an island is divided by: the contexts' core-steps on a quad, their bytes through another island. -/
def meterUse (s : State) (m : Meter) : Tbl Nat :=
  match m.quad with
  | some q => quadSteps s q
  | none => m.bytes.foldl (fun (t : Tbl Nat) (x, n) => t.upd x (· + n)) []
/-- A context's part of an island's energy. -/
def meterOf (s : State) (c : Nat) (m : Meter) : Nat :=
  let t := meterUse s m
  m.mj * t.get c / (t.map (·.2)).sum
def energyOf (s : State) (ms : List Meter) (c : Nat) : Nat := (ms.map (meterOf s c)).sum

/-! ### Shares of the work (R320) -/

def shareWindow : Nat := 100000000
/-- Work of every context, and in all, on an engine's die in core-steps, or on its instance in ns. -/
def engWork (s : State) (e : Nat) : Tbl Nat × Nat :=
  if e < 8 then
    let t : Tbl Nat := s.cores.foldl (fun t (p, c) => if pDie p = e then c.work.foldl (fun (t : Tbl Nat) (x, n) => t.upd x (· + n)) t else t) []
    (t, (t.map (·.2)).sum)
  else ((s.engines.get e).work, (s.engines.get e).total)
/-- The work at the start of the window: at the newest evaluation 100 ms ago or more. -/
def shareBase (s : State) (e : Nat) : Tbl Nat × Nat :=
  (((s.engines.get e).past.find? fun x => x.1 + shareWindow ≤ s.now).map (·.2)).getD ([], 0)
/-- Work of a share group in the window, and all work in it. -/
def shareWork (s : State) (e n : Nat) : Nat :=
  ((engWork s e).1.map fun (c, k) => if (s.ctx c).share = some n then k - (shareBase s e).1.get c else 0).sum
def shareTotal (s : State) (e : Nat) : Nat := (engWork s e).2 - (shareBase s e).2
/-- Evaluations that later windows may start at. -/
def pastKept (now : Nat) (l : List (Nat × Tbl Nat × Nat)) : List (Nat × Tbl Nat × Nat) :=
  let new := fun (x : Nat × Tbl Nat × Nat) => decide (now < x.1 + shareWindow)
  l.filter new ++ (l.find? fun x => !new x).toList

end Sys2Proof.Machine
end

