-- ==== Sys2Proof/Machine/Sched.lean ====
section
/-! DEFINITION. Placement, residency, preemption and accounting (ch. 13, R150, R159, R161, R240, R297). -/
namespace Sys2Proof.Machine

/-! ### Placement and displacement (R159 R161 R297 R322 R323) -/

/-- A group is placed on a core: the core takes the launch's split, the group a slot; it has not started. -/
def placeGroup (key c : Nat) (s : State) : State :=
  let l := s.launches.get key
  match s.phys c, freeSlot s c with
  | some p, some i =>
    let s := resplit p l.split s
    let s := s.onGroups fun t => t.put (gKey c i) { groupInit l key l.nextG c i with stage := .starting }
    s.onLaunch key fun l => { l with nextG := l.nextG + 1, waitAt := s.now, roomAt := s.now, ran := if l.ran.contains c then l.ran else l.ran ++ [c] }
  | _, _ => s

/-- Stops are requested on the first core where they make room, while the die has room for the saved states. -/
def displace (key : Nat) (s : State) : State :=
  let l := s.launches.get key
  let n := launchPrec s l
  let bad : Option (List Group) := l.cores_.findSome? (displaced s l key n)
  match bad with
  | none => s
  | some gs => if saveRoom s l.die gs then forAll gs (fun g => requestStop (gKey g.lcore g.slot) .displaced) s else s

/-- Under FIXED, a group whose core has no physical core completes FAILED_FAULT. -/
def fixedLost (s : State) (l : Launch) : Bool := l.fixed && l.cores_.any fun c => (s.phys c).isNone

/-- The next group of a launch is placed on the lowest core of its mask that has room and where no other work goes
first; else work of lower precedence is stopped. -/
def execGroupPlace (key : Nat) (s : State) : Out :=
  let l := s.launches.get key
  if !l.live || l.groups ≤ l.nextG || !engineRuns s l.die then .next s
  else if fixedLost s l then .next (s.onLaunch key fun l => { l with gst := l.gst.put l.nextG (stFault + 1), nextG := l.nextG + 1, waitAt := s.now, roomAt := s.now })
  else if !l.wants s then .next s
  else
    let n := launchPrec s l
    match l.cores_.find? fun c => fitsOn s l key c && !outranked s c n l.waitAt (· = key) (fun _ => false) with
    | some c => .next (placeGroup key c s)
    | none => .next (if l.cores_.any (fitsOn s l key) then s else displace key s)

/-- A placed group of the launch with a lower number has still to start (R297). -/
def earlierStarts (s : State) (g : Group) : Bool := s.groups.any fun (_, x) => x.stage = .starting && x.launch = g.launch && decide (x.gid < g.gid)
/-- A placed group starts, in ascending order of the launch's groups; before the first group of a launch on a core, the core's L1 is written back and invalidated
(R240). -/
def execGroupStart (core slot : Nat) (s : State) : Out :=
  let k := gKey core slot
  let g := s.group k
  match s.phys core with
  | none => .next s
  | some p =>
    if 48 ≤ slot || g.stage != .starting || !s.coreRuns p || earlierStarts s g then .next s
    else
      let l := s.launches.get g.launch
      let s := if l.prepared.contains core then s
        else (l1Invalidate p (l1Flush p s)).onLaunch g.launch fun l => { l with prepared := l.prepared ++ [core] }
      .next (s.onGroup k fun g => { g with stage := .running, started := s.now })

/-! ### Completion of a launch (R240 R303 R325 R326) -/

/-- Work of the launch that has not ended: groups in slots or saved, stores not performed, counts not merged. -/
def launchBusy (s : State) (key : Nat) : Bool :=
  let mine (o : Nat × Nat × Nat) : Bool := o.2.1 = key
  s.groups.any (fun (_, g) => g.stage != .empty && g.launch = key) || s.saved.any (·.launch = key) ||
  s.cores.any (fun (_, c) => c.sb.any (·.owners.any mine) || c.lmSent.any (·.1 = key) || c.clipPend.any (·.1 = key)) ||
  s.fab.reqs.any (·.owners.any mine)

/-- Why a launch starts no further group: its quota is 0, or no core of its mask has a physical core. -/
def launchStuck (s : State) (l : Launch) : Option Nat :=
  if l.groups ≤ l.nextG then none
  else if groupQuota s l.ctx = some 0 && l.nextG = 0 then some stQuota
  else if !l.fixed && !(l.cores_.any fun c => (s.phys c).isSome) then some stCapacity
  else none

/-- The packet of a finished launch: its items are the groups; those never run have status `rest`. -/
def launchDone (key rest : Nat) (s : State) : State :=
  let l := s.launches.get key
  let fin (p : Pkt) : Pkt :=
    let p := { p with itemSt := l.gst, rest := rest }
    { p with st := .done, status := p.common, tsc := s.tsc.time }
  let mine (p : Pkt) : Bool := p.st = .running && p.op = 0x10 && p.launch = key
  let s := s.onLaunch key fun l => { l with live := false }
  s.onQueue l.queue fun q =>
    match q.pkts.find? mine with
    | none => q
    | some p =>
      { q with pkts := q.pkts.map (fun x => if mine x then fin x else x)
               listOn := q.listOn && !((fin p).status != stOk && q.stopOnFail && p.ent = (q.ent - 1).toNat) }

/-- The L1 of every core it ran on has written back its dirty lines, and so has any other L1 of the die that has taken over a
line with its stores (R234 R240). -/
def launchFlush (key : Nat) (s : State) : State :=
  let l := s.launches.get key
  writeBackFor l.die (fun o => o.2.1 = key)
    (forAll l.ran (fun c s => match s.phys c with | some p => if (s.core p).fenced then s else l1Flush p s | none => s) s)

def execLaunchComplete (key : Nat) (s : State) : Out :=
  let l := s.launches.get key
  if !l.live || !engineRuns s l.die || launchBusy s key then .next s
  else
    match launchStuck s l with
    | some st => .next (launchDone key st (launchFlush key s))
    | none => if l.groups ≤ l.nextG then .next (launchDone key stOk (launchFlush key s)) else .next s

/-- Room that work of higher precedence holds, or that lower work keeps because its state cannot be saved (R322 R332):
work of lower precedence is taken as stopped. -/
def roomHeld (s : State) (l : Launch) (key : Nat) : Bool :=
  let n := launchPrec s l
  l.cores_.any fun c =>
    match s.phys c with
    | none => false
    | some p =>
      let gs := (coreGroups s c).map s.group
      match displaced s l key n c with
      | some v => !v.isEmpty && !saveRoom s l.die v
      | none =>
        let same := gs.filter fun g => decide (groupPrec s g = n)
        (gs.any fun g => decide (n < groupPrec s g)) && !(s.core p).fenced && (s.mesh.swaps.get c).isNone && splitOk s p l same && fitsWith l key same

/-- The next group has waited more than 100 us for such room: one deferral for the group. -/
def execLaunchDeferralTick (key : Nat) (s : State) : Out :=
  let l := s.launches.get key
  if l.wants s && decide (l.roomAt + 100000 < s.now) && l.deferG != l.nextG + 1 && (l.cores_.find? (fitsOn s l key)).isNone && roomHeld s l key then
    let s := s.onLaunch key fun l => { l with deferG := l.nextG + 1 }
    let add (p : Pkt) : Pkt := if p.launch = key then { p with deferrals := min (p.deferrals + 1) 0xFFFF } else p
    .next (acctAdd l.ctx aDeferrals 1 (s.onQueue l.queue fun q => { q with pkts := q.pkts.map add }))
  else .next s

/-! ### Residency (R321 R322 R331) -/

/-- The pending queue that goes first gets a free slot, or the slot of one that gives way; another one is deferred. -/
def execSlotGrant (eng q : Nat) (s : State) : Out :=
  let k := queueKey eng q
  if 1024 ≤ q || !(s.queue k).pending || !engineRuns s eng then .next s
  else if bestPending s eng != some k then .next (if slotsMax ≤ (residentQs s eng).length then deferNext k s else s)
  else if (residentQs s eng).length < slotsMax then .next (takeSlot k s)
  else match loserFor s eng (queuePrec s k) with
    | some v => .next (takeSlot k (loseSlot v s))
    | none => .next (deferNext k s)

def rotateNs : Nat := 2000000
/-- Queue q, which has waited 2 ms, gets the slot of the queue of its level that has been resident longest, 2 ms at
least. -/
def execResidencyRotate (eng q : Nat) (s : State) : Out :=
  let k := queueKey eng q
  if 1024 ≤ q || !(s.queue k).pending || !engineRuns s eng || bestPending s eng != some k || s.now < waitedSince s k + rotateNs ||
     (residentQs s eng).length < slotsMax then .next s
  else
    let same := (residentQs s eng).filter fun r => queuePrec s r = queuePrec s k
    match firstBy (fun a b => decide ((s.queue a).resAt < (s.queue b).resAt)) same with
    | some v => if s.now < (s.queue v).resAt + rotateNs then .next s else .next (takeSlot k (loseSlot v s))
    | none => .next s

/-! ### Share groups (R319 R320) -/

/-- A changed definition of the share groups takes effect; every context has the group that names it. -/
def shareApply (s : State) : State :=
  match s.mgmt.newGroupsG with
  | none => s
  | some t =>
    let s := s.onMgmt fun m => { m with groupsG := t, newGroupsG := none }
    let of (c : Nat) : Option Nat := (t.find? fun (_, x) => match x with | some (_, l) => l.contains c | none => false).map (·.1)
    s.onCtxs fun x => x.foldl (fun acc (c, y) => acc.put c { y with share := of c }) x

/-- The share group has work waiting on the engine's die or instance. -/
def shareWaits (s : State) (eng n : Nat) : Bool :=
  let mine (c : Nat) : Bool := (s.ctx c).share = some n
  (pendingQs s eng).any (fun k => mine (s.queue k).ctx) ||
  (decide (eng < 8) && (s.launches.any (fun (_, l) => l.live && l.die = eng && decide (l.nextG < l.groups) && mine l.ctx) ||
    s.saved.any fun g => lDie g.lcore = eng && mine g.ctx))

/-- Below its guarantee: work waiting, and a share of the work of the last 100 ms less than F percent. Over a window
without any work the share is not stated. -/
def shareBelow (s : State) (eng n f : Nat) : Bool :=
  shareWaits s eng n && (if shareTotal s eng = 0 then (Config.freeValue (s.freeN + n)).getLsbD 0 else decide (shareWork s eng n * 100 < f * shareTotal s eng))

def evalNs : Nat := 1000000
/-- The n-th engine of a kind (0 kernel, 1 copy, 2 link) of a die; 32 where there is none. -/
def engOn (v : Variant) (kind die n : Nat) : Nat :=
  match kind with
  | 0 => if n = 0 then die else 32
  | 1 => if n < 2 then 8 + 2 * die + n else 32
  | _ => (((List.range (nIo v)).filter fun x => ioOwner v x = die)[n]?.map (24 + ·)).getD 32
/-- The engine evaluates the share groups, 1 ms after the last time. -/
def execShareEval (kind die n : Nat) (s : State) : Out :=
  let eng := engOn s.variant kind die n
  if 2 < kind || 8 ≤ die || !engineRuns s eng || decide (s.now < (s.engines.get eng).evalAt + evalNs) then .next s
  else
    let s := shareApply s
    let below := (List.range 16).filter fun n => match s.mgmt.groupsG.get n with | some (f, _) => shareBelow s eng n f | none => false
    let t := if shareTotal s eng = 0 then s.onFreeN (· + 16) else s
    .next (t.onEngine eng fun e => { e with belowG := below, past := (s.now, engWork s eng) :: pastKept s.now e.past, evalAt := s.now })

/-! ### Stops and saves (R324 R329 to R332) -/

/-- The load from another device's memory that a lane's set is blocked on: its youngest instruction, with the address of the
first thread whose memory is another device's. -/
def farLoad (s : State) (g : Group) (lane : Nat) : Option (Win × Nat × Nat) :=
  match g.win.reverse.find? fun w => w.lanes.getLsbD lane with
  | none => none
  | some w =>
    if !(w.use matches .load) || w.fin then none
    else (lanesOf (w.lanes &&& w.ld.part)).findSome? fun l =>
      match translate s g.ctx (w.ld.va.get l).toNat needR with
      | .ok pa _ => if paDev pa != s.devId then some (w, (w.ld.va.get l).toNat, pa) else none
      | .fault _ => none

/-- A thread that can go no further: held, in a wait, in GSYNC, or at a remote load. -/
def laneStopped (s : State) (g : Group) (l : Nat) : Bool :=
  let t := g.thread l
  t.cut.isSome || t.gsync.isSome || (farLoad s g l).isSome ||
  (t.sync.isSome && (g.setOfPc t.pc).any fun m => match (g.thread m).sync with | some o => !o.fin | none => false)

/-- The live state of the cut points at which every set is held, none unless all are held at valid entries and nothing
of the group is unretired. -/
def liveAt (s : State) (g : Group) : Option LiveMask :=
  (g.alive.foldl (init := some ({} : LiveMask)) fun acc l =>
    match acc, (g.thread l).cut with
    | some m, some i => (cutEntry s g i).map m.union
    | _, _ => none)

/-- A holder's tile program has passes under way. -/
def inFlight (s : State) (g : Group) : Bool :=
  match s.phys g.lcore with
  | some p => isHolder s p g.slot && (s.core p).progs.any fun x => !x.flight.isEmpty
  | none => false

/-- A set stands at a CUT that names no entry. -/
def cutWithout (s : State) (g : Group) : Bool := g.alive.any fun l => match (g.thread l).cut with | some i => (cutEntry s g i).isNone | none => false

/-- The request of such a load. -/
def loadReq (g : Group) (w : Win) (pa : Nat) (r : Rreq) : Bool :=
  r.grp = some g.ident && r.win = w.id && r.pkt.dst = paDev pa && r.pkt.addr = lineOf (paLocal pa)
/-- The load that a group is blocked on, of the lowest lane. -/
def farOf (s : State) (g : Group) : Option (Win × Nat × Nat) := g.alive.findSome? (farLoad s g)
/-- The remote-wait record of a group blocked on a load of another device's memory. -/
def loadWait (s : State) (g : Group) : Option RWait :=
  (farOf s g).map fun (w, va, pa) =>
    { device := paDev pa, value := BitVec.ofNat 64 va, deadline := ((s.fab.reqs.find? (loadReq g w pa)).map (·.deadline)).getD 0, pc := w.pc, lanes := w.lanes }

/-- The group leaves its slot; of its pending reads of other devices only the one of its remote-wait record goes on, and a
displacement is counted. -/
def stopGroup (k : Nat) (live : Option LiveMask) (s : State) : State :=
  let g := s.group k
  let rw := loadWait s g
  let kept (r : Rreq) : Bool := match farOf s g with | some (w, _, pa) => loadReq g w pa r | none => false
  let s := s.onGroup k fun g => { g with rwait := rw }
  let s := s.onFab fun f => { f with reqs := f.reqs.filter fun r => r.grp != some g.ident || r.pkt.type = 1 || kept r }
  let s := match g.stop with
    | some ⟨.displaced, _⟩ =>
      let add (p : Pkt) : Pkt := if p.launch = g.launch then { p with displ := min (p.displ + 1) 0xFFFF } else p
      acctAdd g.ctx aDispl 1 (s.onQueue (s.launches.get g.launch).queue fun q => { q with pkts := q.pkts.map add })
    | _ => s
  saveGroup k live s

/-- A group with a stop pending whose sets are all held, or can go no further, is saved. Held at valid entries, it is saved with
the live state once what it has issued has retired and the passes under way are stored (R149); a full state is saved at once. -/
def execGroupSave (core slot : Nat) (s : State) : Out :=
  let k := gKey core slot
  let g := s.group k
  if 48 ≤ slot || g.stop.isNone || g.stage = .empty || g.stage = .starting || !s.idRuns core then .next s
  else if g.stage = .parked then .next (stopGroup k none s)
  else
    match liveAt s g with
    | some m => .next (if g.win.isEmpty && g.faults.isEmpty && !inFlight s g then stopGroup k (some m) s else s)
    | none => if cutWithout s g || g.alive.all (laneStopped s g) then .next (stopGroup k none s) else .next s

def stopNs : Nat := 50000
/-- A group not stopped 50 us after the request is saved with its full state. -/
def execStopBoundExpire (core slot : Nat) (s : State) : Out :=
  let k := gKey core slot
  let g := s.group k
  match g.stop with
  | none => .next s
  | some x =>
    if 48 ≤ slot || g.stage = .empty || g.stage = .starting || s.now < x.since + stopNs || !s.idRuns core then .next s
    else .next (stopGroup k none s)

def hangNs : Nat := 1000000
/-- A group not stopped 1 ms after the request: its context is declared hung and is reset (R330). -/
def execHangDeclare (core slot : Nat) (s : State) : Out :=
  let g := s.group (gKey core slot)
  match g.stop with
  | none => .next s
  | some x =>
    if 48 ≤ slot || g.stage = .empty || s.now < x.since + hangNs || (s.ctx g.ctx).inReset || !s.mgmt.ready || resetWaits s g.ctx 1 (s.ctx g.ctx).snap then .next s
    else
      let c := g.ctx
      let s := errAdd { (plowinRec s clCtx sevContained) with ctx := c, gen := (s.ctx c).gen } s
      .next (acctAdd c aHang 1 (ctxReset c 1 (s.ctx c).snap none s))

/-! ### Restores (R332 R384 R388) -/

/-- The holder's state returns to the array. -/
def arrRestore (p : Nat) (slot : Nat) (g : Group) (a : ArrSave) (s : State) : State :=
  s.onCore p fun c =>
    { c with holder := some slot, acc0 := a.acc0, acc1 := a.acc1, sat0 := a.sat0, sat1 := a.sat1, rn := a.rn, em := a.ext.1, en := a.ext.2.1, ek := a.ext.2.2
             progs := a.progs, doneProgs := a.doneProgs, mq := [], lm := {}, lmKey := g.launch }

/-- A group parked for an array fault is replayed on the core that takes it (R388). -/
def afterArray (g : Group) : Group :=
  match g.park with
  | some k => if k.cause = cArray then { g with stage := .running, park := none } else g
  | none => g

/-- A decision that came while the group was saved is applied: it ends, or resumes (R182). -/
def decidedNow (k : Nat) (s : State) : State :=
  match (s.group k).decided with
  | none => s
  | some true => groupEnd k stFault s
  | some false => unpark k (s.onGroup k fun g => { g with decided := none })

/-- A timeout latched for the load of a saved group: the load fails as it would have, when the group runs again (R331 R350). -/
def loadLate_ (k : Nat) (rw : Option RWait) (s : State) : State :=
  match rw with
  | some r => if r.state = 2 && (s.group k).stage = .running then
      faultGroup k { cause := cPoison, pc := r.pc, threads := r.lanes, setm := r.lanes, lanes := r.lanes, addr := r.value } 0 s else s
  | none => s

/-- The n-th saved group returns to its logical core. -/
def execGroupRestore (core slot n : Nat) (s : State) : Out :=
  match s.saved[n]?, s.phys core with
  | some g, some p =>
    let l := s.launches.get g.launch
    let k := gKey core slot
    let same (x : Group) : Bool := x.ident = g.ident
    let free := match g.arr with | some _ => (s.core p).holder.isNone | none => true
    if g.lcore != core || 48 ≤ slot || (s.group k).stage != .empty || !s.coreRuns p || !ctxRuns s g.ctx || !fitsOn s l g.launch core || !free ||
       outranked s core (groupPrec s g) g.savedAt (fun _ => false) same then .next s
    else
      let s := resplit p l.split (saveFree g s)
      let s := s.onSaved fun l => l.eraseIdx n
      let s := match g.arr with | some a => arrRestore p slot g a s | none => s
      let x := { afterArray g with slot := slot, arr := none, rwait := none, stop := none, savedAt := 0, saveN := 0, saveAt := [], started := s.now }
      .next (decidedNow k (loadLate_ k g.rwait (s.onGroups fun t => t.put k x)))
  | _, _ => .next s

/-- An LC or GUARANTEE group has been blocked on the array for more than 10 us by a holder of lower precedence: the
holder is stopped (R323). -/
def execArrayBlockTimeout (core slot : Nat) (s : State) : Out :=
  let g := s.group (gKey core slot)
  match s.phys core, g.arrBlock with
  | some p, some t =>
    match (s.core p).holder with
    | some h =>
      let hk := gKey core h
      if decide (slot < 48) && g.stage = .running && h != slot && decide (t + 10000 < s.now) && decide (1 ≤ groupPrec s g) &&
         decide (groupPrec s (s.group hk) < groupPrec s g) && saveRoom s (lDie core) [s.group hk] then
        .next (requestStop hk .displaced s)
      else .next s
    | none => .next s
  | _, _ => .next s

/-! ### Accounting (R333 to R336) -/

/-- One context's sample: granule-milliseconds, peaks, and the energy attributed to it. -/
def sampleCtx (mj : Nat) (c : Nat) (s : State) : State :=
  let t := tierNow s c
  let h := hbmNow s c
  let s := acctAdd c aEnergy mj (acctAdd c aHbmGms h (acctAdd c aTierGms t s))
  s.onCtx c fun x => { x with acct := (x.acct.upd aTierPeak (max t)).upd aHbmPeak (max h) }
def liveCtxs (s : State) : List Nat := (s.ctxs.filter fun (_, x) => x.live).map (·.1)
/-- 1 ms after the last one: a sample of every context, with its part of what each island's meter shows; the rest of the
energy is device overhead. -/
def execOccupancySample (meters : List Meter) (s : State) : Out :=
  if !s.mgmt.ready || decide (s.now < s.mgmt.sampleAt + evalNs) then .next s
  else
    let given := ((liveCtxs s).map (energyOf s meters)).sum
    let t := forAll (liveCtxs s) (fun c t => sampleCtx (energyOf s meters c) c t) s
    let t := t.onCores fun y => y.mapAll fun c => { c with workAt := c.work }
    .next (t.onMgmt fun m => { m with sampleAt := s.now, overheadMj := m.overheadMj + ((meters.map (·.mj)).sum - given) })

/-- The function's period has passed: a snapshot of each of its contexts, in ascending ID. -/
def execDailiesPeriodicWrite (fn : Nat) (s : State) : Out :=
  let x := s.fn fn
  if 64 ≤ fn || !x.snapR.on || x.snapPer = 0 || s.now < x.snapAt + 1000000 * x.snapPer || !s.mgmt.ready then .next s
  else
    let s := s.onFn fn fun x => { x with snapAt := x.snapAt + 1000000 * x.snapPer }
    .next (forAll ((liveCtxs s).filter fun c => (s.ctx c).fn = fn) (fun c s => ringPush fn .snap c true (dailies s c true false) s) s)

end Sys2Proof.Machine
end

