-- ==== Sys2Proof/Machine/XlatEvents.lean ====
section
/-! DEFINITION. Walks, TLBs, walk caches, and decisions on stalled streams (R251 to R263, R424). The commands translate by the
leaves that Plowin has written; a walk reads its die's replica of the tables in memory, and what needs its page waits for it.
TLBs and walk caches hold what walks put into them and change no access. -/
namespace Sys2Proof.Machine

/-! ### Streams (R254 R255) -/

/-- Streams of R254: a core, a tile sequencer, an engine queue. -/
inductive Strm where
  | core (c : Nat)
  | tseq (c : Nat)
  | queue (k : Nat)
  | none_
  deriving DecidableEq, Repr, Inhabited

def strmOf (n : Nat) : Strm :=
  if n < 1024 then .core n
  else if 2048 ≤ n && n < 3072 then .tseq (n - 2048)
  else if 4096 ≤ n && n < 4096 + 32768 then .queue (n - 4096)
  else .none_
/-- Die whose walkers and TLB a stream uses. -/
def strmDie (v : Variant) : Strm → Nat
  | .core c | .tseq c => lDie c
  | .queue k => engDie v (k / 1024)
  | .none_ => 0
/-- Walks a stream may have outstanding, and entries of its micro-TLB. -/
def strmWalks : Strm → Nat
  | .core _ => 8 | .tseq _ => 4 | .queue _ => 1 | .none_ => 0
def microSize : Strm → Nat
  | .core _ => 64 | .tseq _ => 32 | .queue _ => 16 | .none_ => 0
def dieWays : Nat := 8
def dieSets : Nat := 512
def walkers : Nat := 64
def walkCacheSize : Nat := 1024

def TlbE.covers (e : TlbE) (c : Nat) (gen : BitVec 8) (va : Nat) : Bool :=
  e.ctx = c && e.gen == gen && decide (e.va ≤ va) && decide (va < e.va + pageBytes e.size)

/-- Install an entry; a full TLB gives up one, which is not stated. -/
def tlbPut (size free : Nat) (e : TlbE) (l : List TlbE) : List TlbE :=
  let l := l.filter fun x => !(x.ctx = e.ctx && x.gen == e.gen && x.va = e.va && x.size = e.size)
  e :: (if l.length < size then l else l.eraseIdx (free % l.length))

def microFill (n : Nat) (e : TlbE) (s : State) : State :=
  let d := s.draw.toNat
  s.drawn.onXl fun y => { y with micro := y.micro.upd n (tlbPut (microSize (strmOf n)) d e) }
/-- The set of the die's TLB an entry lies in. -/
def TlbE.set (e : TlbE) : Nat := Config.tlbSet e.ctx (e.va / 65536) % dieSets
/-- The die's TLB has 512 sets of 8 entries; a full set gives up one of its own. -/
def dieFill (die : Nat) (e : TlbE) (s : State) : State :=
  let d := s.draw.toNat
  let put (l : List TlbE) : List TlbE := tlbPut dieWays d e (l.filter (·.set = e.set)) ++ l.filter (·.set != e.set)
  s.drawn.onXl fun y => { y with die := y.die.upd die put }

/-- Misses of a die take free walkers in arrival order, each stream up to its limit of walks. -/
def walkGrant (all : List Walk) : Nat → List Nat → List Walk → List Walk
  | _, _, [] => []
  | free, new, w :: t =>
    let n := (all.filter fun x => x.busy && x.stream = w.stream).length + (new.filter (· = w.stream)).length
    if w.busy || free = 0 || strmWalks (strmOf w.stream) ≤ n then w :: walkGrant all free new t
    else { w with busy := true } :: walkGrant all (free - 1) (w.stream :: new) t
def walksGo (l : List Walk) : List Walk := walkGrant l (walkers - (l.filter (·.busy)).length) [] l

/-- A miss in a stream's micro-TLB: the die's TLB answers, or a walk starts or waits. One that is pending for the page serves
this miss too. -/
def execTlbMissWalkStart (stream ctx va need : Nat) (s : State) : Out :=
  let st := strmOf stream
  let die := strmDie s.variant st
  let gen := (s.ctx ctx).gen
  if st = .none_ || !(s.ctx ctx).live || s.pwr.state = .fatal || (s.xl.micro.get stream).any (·.covers ctx gen va) || walkPends s stream ctx va then .next s
  else match (s.xl.die.get die).find? (·.covers ctx gen va) with
    | some e => .next (microFill stream e s)
    | none =>
      let w : Walk := { stream := stream, ctx := ctx, gen := gen, va := va, need := need }
      .next (s.onXl fun y => { y with walks := y.walks.put die (walksGo (y.walks.get die ++ [w])) })

/-! ### The walk cache (R251 R424) -/

/-- Lowest address bit that a level's index names. -/
def levelBit : Nat → Nat
  | 3 => 39 | 2 => 30 | 1 => 21 | _ => 16
/-- Levels of the non-leaf entries on the way to an address in a die's replica, from the root. -/
def nonLeafs (s : State) (die c va : Nat) : List Nat := ((dieWalk s die c va).filter fun x => nonLeaf x.2).map (·.1)
def walkKey (c : Nat) (gen : BitVec 8) (va l : Nat) : WalkE := { ctx := c, gen := gen, level := l, ix := va / 2 ^ levelBit l }
/-- The walk starts at the deepest cached entry, and the entries it uses and reads are the most recent. -/
def walkCached (s : State) (die : Nat) (w : Walk) (l : List WalkE) : List WalkE :=
  let lv := nonLeafs s die w.ctx w.va
  let deepest := (lv.reverse.find? fun x => l.contains (walkKey w.ctx w.gen w.va x)).getD 4
  let used := ((lv.filter fun x => decide (x ≤ deepest)).reverse).map (walkKey w.ctx w.gen w.va)
  (used ++ l.filter fun e => !used.contains e).take walkCacheSize

/-! ### The end of a walk (R252 R253 R257 R260) -/

/-- The instruction of a core's stream that needs the page: a pending load with a thread's address in it. -/
def loadAt (s : State) (c : Nat) (w : Walk) : Option (Nat × Win) :=
  (coreGroups s c).findSome? fun k =>
    let g := s.group k
    if g.ctx != w.ctx || g.gen != w.gen || g.stage != .running then none
    else (g.win.find? fun x => (x.use matches .load) && !x.fin &&
      (lanesOf (x.ld.part &&& x.lanes)).any fun l => pageOf s w.ctx (x.ld.va.get l).toNat = pageOf s w.ctx w.va).map fun x => (k, x)

/-- A core's load whose walk faults: its threads that fault are named in the park. -/
def loadFault (k : Nat) (x : Win) (s : State) : State :=
  let c := (s.group k).ctx
  let fs := (lanesOf (x.ld.part &&& x.lanes)).filterMap fun l =>
    match translate s c (x.ld.va.get l).toNat needR with
    | .fault r => some ({ lane := l, va := (x.ld.va.get l).toNat, cause := cPageFault, reason := r } : LaneFault)
    | .ok .. => none
  if fs.isEmpty then s else faultGroup k (parkFor s c x.pc x.setm needR accRead fs) x.id s

/-- A walk that finds no usable leaf: the stream stalls, and a core's group is to park. -/
def walkFault (w : Walk) (reason : Nat) (s : State) : State :=
  match strmOf w.stream with
  | .core c => match loadAt s c w with | some (k, x) => loadFault k x s | none => s
  | .tseq c => match (s.phys c).bind (tq? s) with
    | some x => if x.g.ctx = w.ctx && x.g.gen == w.gen then tseqStall x w.va w.need reason s else s
    | none => s
  | .queue k =>
    let q := s.queue k
    if q.live && q.ctx = w.ctx && !q.stalled then queueStall k w.va w.need reason (if q.pkts.any (·.st = .waiting) then 2 else 1) s else s
  | .none_ => s

/-- The leaf at which a walk of a die's replica ends. -/
def walkLeaf (s : State) (die c va : Nat) : Option Leaf :=
  match (dieWalk s die c va).getLast? with
  | some (l, e) => if nonLeaf e || e % 2 = 0 then none else some { ctx := c, va := va / 2 ^ levelBit l * 2 ^ levelBit l, size := l, entry := BitVec.ofNat 64 e }
  | none => none

/-- The oldest running walk of a stream ends: at a leaf that gives the access its permissions, which the TLBs take, or at a
fault. -/
def execPageWalkComplete (stream : Nat) (s : State) : Out :=
  let die := strmDie s.variant (strmOf stream)
  let ws := s.xl.walks.get die
  if s.pwr.state = .fatal then .next s
  else match ws.find? fun w => w.stream = stream && w.busy with
    | none => .next s
    | some w =>
      let s := s.onXl fun y => { y with walks := y.walks.put die (walksGo (ws.erase w)) }
      if !genOk s w.ctx w.gen then .next s
      else
        let s := s.onXl fun y => { y with wcache := y.wcache.put die (walkCached s die w (y.wcache.get die)) }
        match walkLeaf s die w.ctx w.va with
        | none => .next (walkFault w 1 s)
        | some l =>
          if leafMalformed s l then .next (walkFault w 3 s)
          else if l.entry.toNat &&& w.need != w.need then .next (walkFault w 2 s)
          else
            let e : TlbE := { ctx := w.ctx, gen := w.gen, va := l.va, size := l.size, entry := l.entry }
            .next (dieFill die e (microFill stream e s))

/-! ### Fault rings and decisions (R262 R263) -/

def execErrFaultHeadWrite (fn : Nat) (v : Word) (s : State) : Out := .next (if 64 ≤ fn then s else ringHead fn .fault v s)
def execFaultReplay (fn ctx : Nat) (gen : BitVec 8) (seq : Word) (upto : Bool) (s : State) : Out := .next (faultDecide fn ctx gen seq upto false s)
def execFaultAbandon (fn ctx : Nat) (gen : BitVec 8) (seq : Word) (upto : Bool) (s : State) : Out := .next (faultDecide fn ctx gen seq upto true s)

/-! ### Changes of mappings (R256 R259) -/

/-- A command of the context holds a page of the range pinned. -/
def pinned (s : State) (m : MapChange) : Bool :=
  s.qs.any fun (_, q) => q.ctx = m.ctx && q.pkts.any fun p => p.pins.any fun (a, n) =>
    decide (a / 65536 * 65536 < m.va + m.len) && decide (m.va < (a + n + 65535) / 65536 * 65536)
/-- Accesses made under the old entries that have not been performed: stores in core store buffers, bytes on their way to or
from another device, and list reads of queues there. -/
def inOld (m : MapChange) (pa : Nat) : Bool := m.old.any fun (a, n) => decide (a ≤ pa) && decide (pa < a + n)
def oldAccess (s : State) (m : MapChange) : Bool :=
  (s.cores.any fun (_, c) => c.sb.any fun e => e.ctx = m.ctx && inOld m e.line) ||
  s.fab.reqs.any fun r => r.pkt.sctx = m.ctx && r.pkt.phys && (r.queue.isNone || r.pktId = 0) && inOld m (paOf r.pkt.dst r.pkt.addr)

/-- Granules that no leaf maps any more have no owner (R265). -/
def leafMaps (s : State) (k : Nat) : Bool :=
  s.xl.leaves.any fun l =>
    let a := bits l.entry.toNat 47 16 * 65536
    l.entry.toNat % 2 = 1 && bits l.entry.toNat 63 48 = s.devId && decide (a ≤ k * 65536) && decide (k * 65536 < a + pageBytes l.size)
def granRelease (old : List (Nat × Nat)) (s : State) : State :=
  let ks := (old.filter fun y => paDev y.1 = s.devId).flatMap fun (a, n) => (List.range (n / 65536)).map fun i => paLocal a / 65536 + i
  ks.foldl (fun s k => if leafMaps s k then s else s.onTier fun t => { t with gran := t.gran.put k {} }) s

def execMappingChangeComplete (id : Nat) (s : State) : Out :=
  match s.xl.changes.find? (·.id = id) with
  | none => .next s
  | some m =>
    if pinned s m || oldAccess s m || !s.mgmt.ready then .next s
    else .next (pmiAnswer m.h m.code pOk m.detail.toNat m.payload (granRelease m.old (s.onXl fun y => { y with changes := y.changes.erase m })))

end Sys2Proof.Machine
end

