-- ==== Sys2Proof/Machine/PmiOps.lean ====
section
/-! DEFINITION. The management interface as shared operations: how requests are taken and checked, quotas, page-table
changes, reports, self-tests (ch. 12, R248 to R256, R265, R309 to R313, R325, R326, R383, R386, R387). -/
namespace Sys2Proof.Machine

/-! ### Requests (R309 to R313 R377) -/

/-- A request that is refused changes nothing; the context it names counts the refusals of R325 and R326. -/
def pmiRefuse (h : Hdr) (code st : Nat) (s : State) : State :=
  let s := if st = pQuota && (s.ctx h.ctx).live then acctAdd h.ctx aQuota 1 s
    else if st = pCapacity && (s.ctx h.ctx).live then acctAdd h.ctx aCapacity 1 s else s
  pmiAnswer h code st 0 [] s
/-- A request that is performed is answered with OK. -/
def pmiOk (h : Hdr) (code : Nat) (s : State) : State := pmiAnswer h code pOk 0 [] s

/-- Plowin takes the function's next request: one has been handed over, and the ring is in use. -/
def pmiMay (s : State) (f : Nat) : Bool :=
  let x := s.fn f
  decide (f < 64) && s.mgmt.ready && s.pwr.state != .fatal && anyLink s && x.reqBase.toNat % 2 = 1 && x.reqHead != x.reqTail

/-- It is taken and is one of R313, well formed. -/
def pmiGo (s : State) (h : Hdr) : Bool := pmiMay s h.fn && h.odd.isNone
/-- A management request: taken, then refused or performed. `pf`: reserved to the physical function. -/
def pmi (h : Hdr) (code : Nat) (pf : Bool) (run : State → State) (s : State) : Out :=
  if !pmiMay s h.fn then .next s
  else
    let s := s.onFn h.fn fun x => { x with reqHead := x.reqHead + 1 }
    .next (match h.odd with
      | some c => pmiRefuse h c pInvalid s
      | none => if pf && h.fn != 0 then pmiRefuse h code pPermit s else run s)

/-- Why a request that names a context is refused. -/
def ctxStatus (s : State) (h : Hdr) : Option Nat :=
  let x := s.ctx h.ctx
  if 4096 ≤ h.ctx || !x.live then some pNotFound
  else if x.fn != h.fn then some pPermit
  else if x.gen != h.gen then some pStale
  else if x.orphanedAt.isSome then some pState
  else none

/-- A request that names a context of the function. It waits while the context is in its reset (R311). -/
def pmiCtx (h : Hdr) (code : Nat) (run : State → State) (s : State) : Out :=
  if (s.ctx h.ctx).inReset && h.odd.isNone then .next s
  else pmi h code false (fun s => match ctxStatus s h with | some st => pmiRefuse h code st s | none => run s) s

/-- Performed where `ok`, else refused with INVALID_REQUEST. -/
def pmiValid (h : Hdr) (code : Nat) (ok : Bool) (run : State → State) (s : State) : State :=
  if ok then run s else pmiRefuse h code pInvalid s

/-! ### Quotas (R325) -/

def fnSum (s : State) (f : Nat) (use : Nat → Nat) : Nat := ((s.ctxs.filter fun (_, x) => x.live && x.fn = f).map fun (c, _) => use c).sum
/-- `n` more of something would pass the context's or its function's quota. -/
def overQuota (s : State) (c n : Nat) (use : Nat → Nat) (qc qf : Option Nat) : Bool :=
  let past (used : Nat) (q : Option Nat) : Bool := match q with | some m => decide (m < used + n) | none => false
  past (use c) qc || past (fnSum s (s.ctx c).fn use) qf
def ctrsOf (s : State) (c : Nat) : Nat := (s.sync.ctrs.filter fun (_, x) => x.alloc && x.owner = c).length
def queuesOf (s : State) (c : Nat) : Nat := (s.qs.filter fun (_, q) => q.live && q.ctx = c).length

/-! ### Mapping (R248 to R256 R259 R265 R267 R365) -/

/-- Granules of a local range. -/
def granules (pa len : Nat) : List Nat := (List.range (len / 65536)).map fun i => pa / 65536 + i
def leafEntry (s : State) (m : MapReq) (pa : Nat) : DWord :=
  let b (x : Bool) (i : Nat) : Nat × Nat := (if x then 1 else 0, i)
  fields [b true 0, b m.read 1, b m.write 2, b m.exec 3, b m.shared 4, (m.pageSize, 8), (m.region, 12), (pa / 65536 % 2 ^ 32, 16), (m.device.getD s.devId, 48)]
/-- The leaves of a request. -/
def newLeaves (s : State) (c : Nat) (m : MapReq) : List Leaf :=
  (List.range (m.len / pageBytes m.pageSize)).map fun i =>
    { ctx := c, va := m.va + i * pageBytes m.pageSize, size := m.pageSize, entry := leafEntry s m (m.pa + i * pageBytes m.pageSize) }

/-- Leaves of the context that overlap a range, and whether the range covers each of them. -/
def overLeaves (s : State) (c va len : Nat) : List Leaf :=
  s.xl.leaves.filter fun l => l.ctx = c && decide (l.va < va + len) && decide (va < l.va + pageBytes l.size)
def covered (va len : Nat) (l : Leaf) : Bool := decide (va ≤ l.va) && decide (l.va + pageBytes l.size ≤ va + len)

/-- Where the pages of a request lie: a range of one kind of local memory, the host window, one control space, or
another device. -/
def mapZone (s : State) (m : MapReq) : Bool :=
  let last := m.pa + m.len - 1
  if m.device.getD s.devId != s.devId then decide (m.region < 2) && decide (m.device.getD 0 < 65536) && decide (m.pa + m.len ≤ 2 ^ 48)
  else match zoneOf m.pa, zoneOf last with
    | .hbm a, .hbm b => a = b && decide (m.region < 2)
    | .pinned a, .pinned b => a = b && decide (m.region < 2)
    | .host, .host => m.region = 3
    | .ctrlDie a, .ctrlDie b => a = b && m.region = 2
    | .ctrlIo a, .ctrlIo b => a = b && m.region = 2
    | .ctrlMgmt, .ctrlMgmt => m.region = 2
    | _, _ => false

/-- The parts of a mapping outside a range of its context; they keep their DELTA and BAR2 offsets (R425). -/
def cutMap (c va len : Nat) (z : Mapping) : List Mapping :=
  if z.ctx = c && decide (z.va < va + len) && decide (va < z.va + z.len) then
    let d := va + len - z.va
    (if z.va < va then [{ z with len := va - z.va }] else []) ++
    (if va + len < z.va + z.len then [{ z with va := va + len, len := z.len - d, host := z.host + d, bar2 := z.bar2.map (· + d) }] else [])
  else [z]
def cutMaps (c va len : Nat) (zs : List Mapping) : List Mapping := zs.flatMap (cutMap c va len)

/-- BAR2 offset of a request: aligned, below both ports' sizes, apart from what the function's other mappings keep. -/
def bar2Ok (s : State) (h : Hdr) (m : MapReq) : Bool :=
  match m.bar2 with
  | none => true
  | some o =>
    o % pageBytes m.pageSize = 0 && decide (o + m.len ≤ min (s.pcie.get 0).bar2 (s.pcie.get 1).bar2) &&
    !((cutMaps h.ctx m.va m.len s.xl.maps).any fun x => (s.ctx x.ctx).fn = h.fn && (match x.bar2 with | some p => decide (p < o + m.len) && decide (o < p + x.len) | none => false))

/-- A well-formed MAP payload. -/
def mapOk (s : State) (h : Hdr) (m : MapReq) : Bool :=
  decide (m.pageSize < 3) && decide (m.region < 4) && decide (0 < m.len) && m.len % pageBytes m.pageSize = 0 && m.va % pageBytes m.pageSize = 0 &&
  m.pa % pageBytes m.pageSize = 0 && decide (m.va + m.len ≤ 2 ^ 52) && !(m.region = 2 && m.pageSize != 0) && decide (m.sset < 256) && decide (m.host < 2 ^ 64) &&
  mapZone s m && bar2Ok s h m && (overLeaves s h.ctx m.va m.len).all (covered m.va m.len)

/-- The request takes granules of HBM or pinned tier. -/
def takesGranules (s : State) (m : MapReq) : Bool :=
  m.device.getD s.devId = s.devId && (match zoneOf m.pa with | .hbm _ | .pinned _ => true | _ => false)
/-- A granule that the context may map: free, its own, or shared by another context with the share set that the request
names. -/
def granFree (s : State) (c : Nat) (m : MapReq) (k : Nat) : Bool :=
  let g := s.tier.gran.get k
  !g.valid || g.owner = c || (m.shared && g.shared && g.sset = m.sset)
/-- What R267 and R248 let Plowin map into a context: a SHARED page into members of its share set, a control page or host
range that is granted to it, and nothing of the tables' region. -/
def mapGranted (s : State) (c : Nat) (m : MapReq) : Bool :=
  (!m.shared || (s.tier.sets.get m.sset).locals.contains c) &&
  (m.device.getD s.devId != s.devId || match zoneOf m.pa with
    | .hbm _ => !((granules m.pa m.len).any fun k => tabReserved s (k * 65536))
    | .pinned _ => true
    | _ => Config.granted c m.pa m.len)

/-- Why a MAP is refused: it is not granted; then for its granules or tables, capacity, then quota. -/
def mapRefusal (s : State) (c : Nat) (m : MapReq) : Option Nat :=
  if !mapGranted s c m then some pPermit
  else if !tabRoom s m.va m.len m.pageSize then some pCapacity
  else if !takesGranules s m then none
  else
    let ks := granules m.pa m.len
    let new := (ks.filter fun k => !(s.tier.gran.get k).valid).length
    let x := s.ctx c
    let f := s.fn x.fn
    if !(ks.all fun k => granFree s c m k && granUsable s k && !granHeld s k) then some pCapacity
    else match zoneOf m.pa with
      | .pinned _ => if overQuota s c new (tierNow s) x.qPin f.qPin then some pQuota else none
      | _ => if overQuota s c new (fun c => cntGran s c false) x.qHbm f.qHbm then some pQuota else none

/-- The ownership table takes the granules of a mapping. -/
def granTake (c : Nat) (m : MapReq) (s : State) : State :=
  if !takesGranules s m then s
  else (granules m.pa m.len).foldl (init := s) fun s k =>
    let g := s.tier.gran.get k
    if g.valid && g.owner != c then s
    else s.onTier fun t => { t with gran := t.gran.put k { valid := true, owner := c, shared := m.shared, sset := m.sset } }

/-- Old translations of a range leave the TLBs and walk caches of the module (R256). -/
def tlbDrop (c va len : Nat) (s : State) : State :=
  let keep (e : TlbE) : Bool := !(e.ctx = c && decide (e.va < va + len) && decide (va < e.va + pageBytes e.size))
  s.onXl fun y => { y with micro := y.micro.mapAll (List.filter keep), die := y.die.mapAll (List.filter keep), wcache := y.wcache.mapAll (List.filter (·.ctx != c)) }

/-- Pages of leaves: full address and bytes. -/
def leafPages (ls : List Leaf) : List (Nat × Nat) :=
  (ls.filter fun l => l.entry.toNat % 2 = 1).map fun l => (paOf (bits l.entry.toNat 63 48) (bits l.entry.toNat 47 16 * 65536), pageBytes l.size)

/-- The new entries are written to every replica; a change of valid leaves is answered once it is complete, one from
invalid to valid at once. -/
def leafChange (h : Hdr) (code va len detail : Nat) (old new : List Leaf) (payload : List Byte) (s : State) : State :=
  let s := replicas old new (s.onXl fun y => { y with leaves := (y.leaves.filter fun l => !old.contains l) ++ new })
  if old.isEmpty then pmiAnswer h code pOk detail payload s
  else
    let n := s.mgmt.reqSeq
    let s := tlbDrop h.ctx va len (s.onMgmt fun y => { y with reqSeq := y.reqSeq + 1 })
    s.onXl fun y => { y with changes := y.changes ++ [{ id := n, h := h, code := code, ctx := h.ctx, va := va, len := len, old := leafPages old, detail := BitVec.ofNat 64 detail, payload := payload }] }

/-- The mapping record of R249; DELTA is 0 less HOST_VA where the request gave none. -/
def mapRecord (m : MapReq) : List Byte :=
  leBytes 8 m.va ++ leBytes 8 m.host ++ leBytes 8 m.len ++ leBytes 8 ((m.va + 2 ^ 64 - m.host) % 2 ^ 64)

/-! ### Rings (R262) -/

def isPow2 (n : Nat) : Bool := (List.range 17).any fun i => n = 2 ^ i
def ringOk (r : RingCfg) : Bool := isPow2 r.size && decide (64 ≤ r.size) && decide (r.size ≤ 65536) && decide (r.vector < 2048) && decide (r.addr < 2 ^ 64) && decide (r.tailAddr < 2 ^ 64)

/-! ### Contexts that end (R271 R314) -/

/-- A counter is freed: it is 0, and its waits are released with ABANDONED (R271). -/
def ctrFree (i : Nat) (s : State) : State :=
  let s := s.onCtr i fun _ => {}
  ((s.sync.waits ++ s.sync.queued).filter fun w => !w.fence && w.id = i).foldl
    (fun s w => release w rAbandoned 0 (s.onSync fun y => { y with queued := y.queued.erase w })) s
def freeCtrs (c : Nat) (s : State) : State := forAll ((s.sync.ctrs.filter fun (_, x) => x.alloc && x.owner = c).map (·.1)) ctrFree s

/-- Records of finished packets are written or held while they can be. -/
def recordAll (k : Nat) : Nat → State → State
  | 0, s => s
  | n + 1, s => recordAll k n (recordOne k s)

/-- Everything else the context held is given up. -/
def ctxDrop (c : Nat) (s : State) : State :=
  let s := forAll (ctxQueues s c) (fun k s => (freeRuns (k / 1024) (s.queue k).pkts (recordAll k (s.queue k).pkts.length s)).onQs fun t => t.put k {}) s
  let s := (freeCtrs c s).onLaunches fun t => t.filter fun (_, l) => l.ctx != c
  let s := tabDrop c (s.onXl fun y => { y with leaves := y.leaves.filter (·.ctx != c), maps := y.maps.filter (·.ctx != c) })
  let s := s.onTier fun t =>
    { t with gran := t.gran.filter fun (_, g) => !(g.valid && g.owner = c), sets := t.sets.mapAll fun x => { x with locals := x.locals.filter (· != c) } }
  let fc (b : Tbl Fence) : Tbl Fence := b.filter fun (k, _) => k / 65536 != c
  let s := s.onSync fun y => { y with fences := fc y.fences }
  s.onFn (s.ctx c).fn fun x => { x with mail := x.mail.mapAll fun m => match m with | some (d, _, _) => if d = c then none else m | none => none }

/-! ### Self-tests (R386 R387) -/

/-- Physical cores that a test names, in turn. -/
def testCores (s : State) (t : SelfTest) : List Nat :=
  match t.target with
  | 0 => (s.phys t.unit).toList
  | 1 => [t.unit]
  | 2 => (List.range 144).map (144 * t.unit + ·)
  | _ => []
def setHead (f : SelfTest → SelfTest) (s : State) : State :=
  s.onMgmt fun m => { m with tests := match m.tests with | t :: l => f t :: l | [] => [] }

/-- The first test in the queue goes on: a fenced core and a free stand-in are tested in place, another core is swapped
out first, which waits until a stand-in is free. -/
def testKick (s : State) : State :=
  match s.mgmt.tests with
  | [] => s
  | t :: _ =>
    match t.cur, (testCores s t)[t.next_]? with
    | none, some p =>
      let inPlace := setHead (fun t => { t with cur := some p }) (s.onCore p fun c => { c with testing := true })
      if (s.core p).fenced then inPlace
      else match logOf s.mesh p with
        | none => if (s.core p).testing || (chosen s).contains p then s else inPlace
        | some c =>
          if (s.mesh.swaps.get c).isSome then s
          else match chooseStandin s c false with
            | some q => swapStart c q whyTest (setHead (fun t => { t with cur := some p }) s)
            | none => s
    | _, _ => s

/-- A core's test ends: requested tests that wait for it go on. -/
def testStep (p : Nat) (ok : Bool) (s : State) : State :=
  let go (t : SelfTest) : SelfTest :=
    if t.cur = some p then { t with cur := none, next_ := t.next_ + 1, bad := t.bad + if ok then 0 else 1 } else t
  testKick (s.onMgmt fun m => { m with tests := m.tests.map go })

/-! ### Reports (R22 R377 R383) -/

/-- 2 bits per physical core: spare row used, spare column used. -/
def arrayBits (s : State) : List Byte :=
  (List.range 288).map fun i =>
    BitVec.ofNat 8 (((List.range 4).map fun j =>
      let c := s.core (4 * i + j); ((if c.spareRow.isSome then 1 else 0) + if c.spareCol.isSome then 2 else 0) * 4 ^ j).sum)
def pairLeft (s : State) (d m : Nat) : Nat := spareLeft s (64 * d + 2 * m)
def idsLost (s : State) (d : Nat) : Nat := ((lCores d).filter fun c => (s.phys c).isNone).length
def coresFenced (s : State) (d : Nat) : Nat := ((List.range 144).filter fun i => (s.core (144 * d + i)).fenced).length
def mgmtCores (s : State) : Nat := ((List.range 3).filter fun i => (s.mgmt.cores.get i).ok).length
/-- Some pool of R382 has no spare left. -/
def exhausted (s : State) : Bool :=
  (List.range 8).any (fun d => !standinsLeft s d) || s.cores.any (fun (_, c) => c.spareRow.isSome && c.spareCol.isSome) ||
  (List.range 8).any (fun d => (List.range 32).any fun m => pairLeft s d m = 0) || s.tier.hbms.any (fun (_, h) => decide (65536 ≤ h.retired)) ||
  (List.range (nPorts s.variant)).any (fun i => (s.port i).isUp && !(s.port i).spare) || mgmtCores s < 2 || s.pwr.vrSpare.any (·.2)
/-- The report of SPARE_STATE. -/
def spareReport (s : State) : List Byte :=
  leBytes 2 1 ++ leBytes 1 (if exhausted s then 1 else 0) ++ leBytes 1 (mgmtCores s) ++
  leBytes 1 (Config.rails - (s.pwr.vrSpare.filter (·.2)).length) ++ zeros 3 ++ leBytes 8 s.now ++
  ((List.range 8).flatMap fun d =>
    leBytes 1 (freeStandins s d).length ++ leBytes 1 (coresFenced s d) ++ leBytes 1 (idsLost s d) ++ leBytes 1 (if standinsLeft s d then 1 else 0) ++ zeros 4 ++
    leBytes 8 (s.mesh.rotDone.get d)) ++
  arrayBits s ++ ((List.range 8).flatMap fun d => (List.range 32).map fun m => BitVec.ofNat 8 (pairLeft s d m)) ++
  ((List.range 14).flatMap fun h => leBytes 4 (s.tier.hbms.get h).retired) ++
  (List.range 64).map fun i => let t := s.port i; BitVec.ofNat 8 (t.lanes % 16 + if t.spare then 16 else 0)

/-- Records held for a context. -/
def heldRecords (s : State) (c : Nat) : Nat :=
  let x := s.fn (s.ctx c).fn
  (([x.fault, x.park, x.notify, x.snapR].map fun r => (r.held.filter fun y => y.1 = c).length).sum) +
  ((s.qs.filter fun (_, q) => q.live && q.ctx = c).map fun (_, q) => (q.pkts.filter fun p => p.hold != 0).length).sum +
  if (s.ctx c).snapHeld.isEmpty then 0 else 1
/-- STATE of an attach entry. -/
def attachState (x : Ctx) : Nat := if x.orphanedAt.isNone then 0 else if x.resetAt != 0 then 3 else if x.paused then 2 else 1
def attachEntry (s : State) (c : Nat) : List Byte :=
  let x := s.ctx c
  leBytes 2 c ++ [x.gen] ++ leBytes 1 (attachState x) ++ leBytes 4 (heldRecords s c) ++ leBytes 8 (x.orphanedAt.getD 0) ++ leBytes 8 x.resetAt ++ zeros 8
def attachRecord (s : State) (f : Nat) : List Byte :=
  let cs := (liveCtxs s).filter fun c => (s.ctx c).fn = f
  leBytes 4 cs.length ++ leBytes 1 f ++ zeros 3 ++ leBytes 8 (heldBytes s) ++ cs.flatMap (attachEntry s)

/-- Ranges withdrawn from new mappings: local address and bytes (R215). -/
def withdrawnRanges (s : State) : List (Nat × Nat) :=
  (s.tier.hbms.flatMap fun (h, x) => x.withdrawn.map fun f => (stackAddr s h (f * 65536), 65536 * (liveStacks s (stackDie s.variant h)).length)) ++
  s.tier.slices.flatMap fun (k, x) => ((x.withdrawn.map (· % 32)).eraseDups).map fun g =>
    (pinBase (k / 64) + k % 64 * 0x8000000 + (15 - g / 2) * 0x800000 + g % 2 * 0x400000, 0x400000)

end Sys2Proof.Machine
end

