-- ==== Sys2Proof/Machine/Pmi.lean ====
section
/-! DEFINITION. The Plowin Management Interface and the direct mailboxes (ch. 12, R306 to R316, and the rules that
govern each request). -/
namespace Sys2Proof.Machine

/-! ### Mailboxes (R306 R307) -/

/-- The host as writer of a context's memory. -/
def hostBulk (s : State) (c : Nat) : Bulk := { ctx := c, gen := (s.ctx c).gen }
def mailBase : Nat := 0x4000

/-- A host write of 64 bytes to a bound slot lands at its destination and adds 1 to the slot's counter; it waits while the
destination's home is stopped or the context is in reset. Where the destination cannot be written, it is discarded with a record (R366, DEDUCED:
notes/assumptions/68.md). -/
def execMailboxWrite (fn off : Nat) (data : List Byte) (s : State) : Out :=
  if 64 ≤ fn || off < mailBase || mailBase + 0x4000 ≤ off then .next (if 64 ≤ fn then s else bar0Refused fn off s)
  else match (s.fn fn).mail.get ((off - mailBase) / 64) with
    | none => .next (bar0Refused fn off s)
    | some (c, dest, ctr) =>
      let b := hostBulk s c
      if data.length != 64 || off % 64 != 0 then .next (bar0Refused fn off s)
      else if (s.ctx c).inReset then .next s
      else match bulkCheck s b dest 64 needW with
        | none =>
          let s := (bulkWr b none dest data [] s).1
          .next (syncOp 0x01 (agentWait s c hostSrc ctr 1) 0 s).1
        | some (.retry, _) => .next s
        | some (.denied, a) => .next (bulkDeny b a needW s)
        | some _ => .next (bar0Refused fn off s)

/-! ### Ring registers (R309 R316) -/

def execPmiRingBaseWrite (fn : Nat) (rsp : Bool) (v : DWord) (s : State) : Out := .next (if 64 ≤ fn then s else pmiBaseWrite (.fn fn) fn rsp v s)
def execPmiRspHeadWrite (fn : Nat) (v : Word) (s : State) : Out := .next (if 64 ≤ fn then s else pmiRspHead (.fn fn) fn v s)

/-! ### Contexts (R314 R325 R326 R371 R377 R390) -/

/-- Lowest free context ID. -/
def freeCtx (s : State) : Option Nat := (List.range 4096).find? fun c => !(s.ctx c).live
/-- Trusted ranges are not yet set on a port whose link is up (R371). -/
def cfgMissing (s : State) : Bool := [0, 1].any fun p => (s.pcie.get p).up && !(s.pcie.get p).cfgSet

def ctxNew (h : Hdr) (flags : BitVec 8) (orphanTime c : Nat) (s : State) : State :=
  let tok := Config.token s.freeN
  let g := (s.ctx c).gen
  let x : Ctx :=
    { live := true, fn := h.fn, gen := g, lendHeld := flags.getLsbD 0, poisonAb := flags.getLsbD 1, deniedAb := flags.getLsbD 2
      orphan := flags.toNat / 8 % 4, orphanTime := orphanTime, token := tok }
  pmiAnswer { h with ctx := c, gen := g } 0x0001 pOk tok.toNat [] (s.drawn.onCtxs fun t => t.put c x)

def execContextCreate (h : Hdr) (flags : BitVec 8) (orphanTime : Nat) (rsvd : Bool) (s : State) : Out :=
  pmi h 0x0001 false (fun s =>
    if rsvd || 32 ≤ flags.toNat || flags.toNat / 8 % 4 = 3 || 2 ^ 32 ≤ orphanTime then pmiRefuse h 0x0001 pInvalid s
    else if h.fn != 0 && !(s.fn h.fn).vf then pmiRefuse h 0x0001 pPermit s
    else if cfgMissing s then pmiRefuse h 0x0001 pState s
    else if !under ((liveCtxs s).filter fun c => (s.ctx c).fn = h.fn).length (s.fn h.fn).qCtxs then pmiAnswer h 0x0001 pQuota 0 [] s
    else match freeCtx s with
      | none => pmiAnswer h 0x0001 pCapacity 0 [] s
      | some c => ctxNew h flags orphanTime c s) s

/-- The context's work is removed, its last snapshot taken, its objects freed and its generation raised before the ID is
free. -/
def execContextDestroy (h : Hdr) (s : State) : Out :=
  pmiCtx h 0x0002 (fun s =>
    let c := h.ctx
    let s := removeWork c s
    let b := dailies s c false true
    let s := if (s.fn h.fn).snapR.on then ringPush h.fn .snap c true b s else s
    let s := raiseGen c (ctxDrop c s)
    let g := (s.ctx c).gen
    pmiAnswer h 0x0002 pOk 0 b (s.onCtxs fun t => t.put c { gen := g })) s

def snapBuf (addr size : Nat) : Option (Nat × Nat) := if addr = 0 then none else some (addr, size)
/-- Halt, sample and removal; GENERATION_RAISE ends the reset and answers. A request that waits stays in its ring. -/
def execContextReset (h : Hdr) (addr size : Nat) (s : State) : Out :=
  if resetWaits s h.ctx 0 (snapBuf addr size) then .next s
  else pmiCtx h 0x0003 (pmiValid h 0x0003 (addr % 4096 = 0 && decide (addr < 2 ^ 64) && decide (size < 2 ^ 32)) (ctxReset h.ctx 0 (snapBuf addr size) (some h))) s
/-- ARM_ONLY: the buffer for resets that the device starts. -/
def execSnapshotArm (h : Hdr) (addr size : Nat) (s : State) : Out :=
  pmiCtx h 0x0003 (pmiValid h 0x0003 (addr % 4096 = 0 && decide (addr < 2 ^ 64) && decide (size < 2 ^ 32)) fun s =>
    pmiOk h 0x0003 (s.onCtx h.ctx fun x => { x with snap := snapBuf addr size })) s
/-- Every unit has acknowledged: the reset's last steps. -/
def execGenerationRaise (ctx : Nat) (s : State) : Out := .next (if (s.ctx ctx).inReset then ctxResetEnd ctx s else s)

/-! ### Memory (R248 to R256 R265) -/

def execMap (h : Hdr) (m : MapReq) (s : State) : Out :=
  pmiCtx h 0x0010 (fun s =>
    if !mapOk s h m then pmiRefuse h 0x0010 pInvalid s
    else match mapRefusal s h.ctx m with
      | some st => pmiRefuse h 0x0010 st s
      | none =>
        let old := overLeaves s h.ctx m.va m.len
        let new := newLeaves s h.ctx m
        let x : Mapping := { ctx := h.ctx, va := m.va, len := m.len, host := m.host, bar2 := m.bar2 }
        let s := granTake h.ctx m s
        let s := s.onXl fun y => { y with maps := cutMaps h.ctx m.va m.len y.maps ++ [x] }
        leafChange h 0x0010 m.va m.len 0 old new (mapRecord m) s) s

/-- A range that would split a page is refused; DETAIL is the bytes unmapped, 0 where no mapping covers any (R425). -/
def execUnmap (h : Hdr) (va len : Nat) (s : State) : Out :=
  pmiCtx h 0x0011 (fun s =>
    let old := overLeaves s h.ctx va len
    if !old.all (covered va len) then pmiRefuse h 0x0011 pInvalid s
    else
      let s := s.onXl fun y => { y with maps := cutMaps h.ctx va len y.maps }
      leafChange h 0x0011 va len (old.map fun l => pageBytes l.size).sum old [] [] s) s

/-- Local members are contexts of the function; a remote one is a device and a context of it, 256 at most. -/
def execShareSet (h : Hdr) (sset : Nat) (add : Bool) (dev : Option Nat) (member : Nat) (s : State) : Out :=
  pmi h 0x0012 false (fun s =>
    let x := s.tier.sets.get sset
    if 256 ≤ sset || 4096 ≤ member then pmiRefuse h 0x0012 pInvalid s
    else match dev with
      | none =>
        if !(s.ctx member).live then pmiRefuse h 0x0012 pNotFound s
        else if (s.ctx member).fn != h.fn then pmiRefuse h 0x0012 pPermit s
        else
          let rest := x.locals.filter (· != member)
          pmiOk h 0x0012 (s.onTier fun t => { t with sets := t.sets.put sset { x with locals := if add then member :: rest else rest } })
      | some d =>
        let here := x.remotes.any fun r => r.1 = d && r.2.1 = member
        if 65536 ≤ d then pmiRefuse h 0x0012 pInvalid s
        else if add && !here && 256 ≤ x.remotes.length then pmiRefuse h 0x0012 pCapacity s
        else
          let rem (l : List (Nat × Nat × Option (BitVec 8))) : List (Nat × Nat × Option (BitVec 8)) := l.filter fun r => !(r.1 = d && r.2.1 = member)
          let l := if add then (if here then x.remotes else x.remotes ++ [(d, member, none)]) else rem x.remotes
          pmiOk h 0x0012 (s.onTier fun t => { t with sets := t.sets.put sset { x with remotes := l } })) s

/-- Quotas: 0 contexts, 1 HBM, 2 pinned tier, 3 queues, 4 counters, 5 resident groups; of a function, or of the context
the header names. -/
def ctxQuota (kind : Nat) (v : Option Nat) (x : Ctx) : Ctx :=
  match kind with
  | 1 => { x with qHbm := v } | 2 => { x with qPin := v } | 3 => { x with qQueues := v } | 4 => { x with qCtrs := v } | _ => { x with qGroups := v }
def fnQuota (kind : Nat) (v : Option Nat) (x : Fn) : Fn :=
  match kind with
  | 0 => { x with qCtxs := v } | 1 => { x with qHbm := v } | 2 => { x with qPin := v } | 3 => { x with qQueues := v } | 4 => { x with qCtrs := v }
  | _ => { x with qGroups := v }
def execQuotaSet (h : Hdr) (kind : Nat) (fn : Option Nat) (v : Option Nat) (s : State) : Out :=
  pmi h 0x0013 true (fun s =>
    match fn with
    | some f => pmiValid h 0x0013 (decide (f < 64) && decide (kind < 6)) (fun s => pmiOk h 0x0013 (roomWaits s (s.onFn f (fnQuota kind v)))) s
    | none =>
      if 6 ≤ kind || kind = 0 then pmiRefuse h 0x0013 pInvalid s
      else if 4096 ≤ h.ctx || !(s.ctx h.ctx).live then pmiRefuse h 0x0013 pNotFound s
      else if (s.ctx h.ctx).gen != h.gen then pmiRefuse h 0x0013 pStale s
      else pmiOk h 0x0013 (roomWaits s (s.onCtx h.ctx (ctxQuota kind v)))) s

/-- The slices that a mask names, ascending. -/
def maskSlices (mask : DWord) : List Nat := (List.range 64).filter fun i => mask.getLsbD i
/-- A conversion: each slice that the mask names has a target of its own, and it waits behind earlier conversions of them (R195). -/
def execTierConvert (h : Hdr) (die : Nat) (mask : DWord) (nps : List Nat) (s : State) : Out :=
  pmi h 0x0014 true (fun s =>
    let tgts := (maskSlices mask).zip nps
    if 8 ≤ die || mask = 0 || nps.length != (maskSlices mask).length || nps.any (17 < ·) then pmiRefuse h 0x0014 pInvalid s
    else if tgts.any fun x => pinMapped s (64 * die + x.1) x.2 then pmiRefuse h 0x0014 pState s
    else
      let n := s.mgmt.reqSeq
      let s := s.onMgmt fun m => { m with reqSeq := m.reqSeq + 1 }
      convStart (s.onTier fun t => { t with convs := t.convs ++ [{ id := n, die := die, tgt := tgts, h := h }] })) s

/-! ### Rings of the function (R180 R262 R282 R336) -/

def ringReq (h : Hdr) (code : Nat) (i : RingId) (r : RingCfg) (s : State) : Out :=
  pmi h code false (pmiValid h code (ringOk r) fun s => pmiOk h code (ringConfig h.fn i r s)) s
def execFaultQueueConfig (h : Hdr) (r : RingCfg) (s : State) : Out := ringReq h 0x0015 .fault r s
def execNotifyRingConfig (h : Hdr) (r : RingCfg) (s : State) : Out := ringReq h 0x0016 .notify r s
def execParkRingConfig (h : Hdr) (r : RingCfg) (s : State) : Out := ringReq h 0x0032 .park r s
def execDailiesPeriodic (h : Hdr) (r : RingCfg) (ms : Nat) (s : State) : Out :=
  pmi h 0x0041 false (pmiValid h 0x0041 (ringOk r && decide (10 ≤ ms) && decide (ms ≤ 3600000)) fun s =>
    pmiOk h 0x0041 (ringConfig h.fn .snap r (s.onFn h.fn fun x => { x with snapPer := ms, snapAt := s.now }))) s

/-! ### Counters and fences (R271 R277 R278 R283 R325) -/

def ctrGroup (first : Nat) : List Nat := (List.range 16).map (first + ·)
def execCounterAlloc (h : Hdr) (first : Nat) (sset : Option Nat) (owned : Bool) (s : State) : Out :=
  pmiCtx h 0x0020 (fun s =>
    let x := s.ctx h.ctx
    if first % 16 != 0 || 131072 ≤ first || 256 ≤ sset.getD 0 then pmiRefuse h 0x0020 pInvalid s
    else if overQuota s h.ctx 16 (ctrsOf s) x.qCtrs (s.fn x.fn).qCtrs then pmiRefuse h 0x0020 pQuota s
    else if (ctrGroup first).any fun i => (s.sync.ctrs.get i).alloc then pmiRefuse h 0x0020 pCapacity s
    else
      let c : Ctr := { alloc := true, owner := h.ctx, sset := sset, owned := owned, value := if owned then 1 else 0 }
      pmiOk h 0x0020 (forAll (ctrGroup first) (fun i s => s.onCtr i fun _ => c) s)) s

/-- The counter is allocated to the context: else why not. -/
def ctrStatus (s : State) (h : Hdr) (i : Nat) : Option Nat :=
  let c := s.sync.ctrs.get i
  if !c.alloc then some pNotFound else if c.owner != h.ctx then some pPermit else none
def execCounterFree (h : Hdr) (first : Nat) (s : State) : Out :=
  pmiCtx h 0x0021 (fun s =>
    if first % 16 != 0 || 131072 ≤ first then pmiRefuse h 0x0021 pInvalid s
    else match (ctrGroup first).findSome? (ctrStatus s h) with
      | some st => pmiRefuse h 0x0021 st s
      | none => pmiOk h 0x0021 (forAll (ctrGroup first) ctrFree s)) s

/-- The counter is LIVE again, with a value and without a holder; waits that the value satisfies are released. -/
def execCounterConfigure (h : Hdr) (id : Nat) (v : DWord) (s : State) : Out :=
  pmiCtx h 0x0022 (fun s =>
    if 131072 ≤ id then pmiRefuse h 0x0022 pInvalid s
    else match ctrStatus s h id with
      | some st => pmiRefuse h 0x0022 st s
      | none =>
        let s := s.onCtr id fun c => { c with abandoned := false, value := v, holder := none }
        pmiOk h 0x0022 (ctrSettle id (s.sync.waits.length * 33 + 1) s)) s

/-- Value, mode, state and holder of a counter. -/
def ctrReport (c : Ctr) : List Byte :=
  let (hc, hg, ha, hb) := c.holder.getD (0xFFFF, 0, 0, 0)
  leBytes 8 c.value.toNat ++ leBytes 1 (if c.owned then 1 else 0) ++ leBytes 1 (if c.abandoned then 1 else 0) ++ leBytes 2 hc ++ [hg] ++ zeros 3 ++
  leBytes 8 ha ++ leBytes 4 hb ++ zeros 4
def execCounterQuery (h : Hdr) (id : Nat) (s : State) : Out :=
  pmiCtx h 0x0023 (fun s =>
    if 131072 ≤ id then pmiRefuse h 0x0023 pInvalid s
    else match ctrStatus s h id with
      | some st => pmiRefuse h 0x0023 st s
      | none => pmiAnswer h 0x0023 pOk 0 (ctrReport (s.sync.ctrs.get id)) s) s

/-- Every fence of a registered table is UNSIGNALLED; one with a device waiter keeps its slot. -/
def execFenceTableRegister (h : Hdr) (addr : Nat) (sset : Option Nat) (s : State) : Out :=
  pmiCtx h 0x0024 (pmiValid h 0x0024 (decide (addr + 2 ^ 20 ≤ 2 ^ 64) && decide (sset.getD 0 < 256)) fun s =>
    let mine (k : Nat) : Bool := k / 65536 = h.ctx
    let keep (k : Nat) : Bool := !mine k || s.sync.waits.any fun w => w.fence && fenceKey w.id = k && w.who != .watch
    let s := s.onSync fun y => { y with fences := y.fences.filter (fun x => !mine x.1), slots := y.slots.filter keep, fw := y.fw.filter keep }
    pmiOk h 0x0024 (s.onCtx h.ctx fun x => { x with fenceTab := some (addr, sset) })) s

/-! ### Queues (R288 R313 R315) -/

/-- Engine of a kind and instance. -/
def engOf (kind inst : Nat) : Nat := if kind = 0 then inst else if kind = 1 then 8 + inst else 24 + inst
def engNamed (s : State) (kind inst : Nat) : Bool := if kind = 0 then decide (inst < 8) else if kind = 1 then decide (inst < 16) else decide (inst < nIo s.variant)
def queueOk (c : QueueCfg) : Bool :=
  decide (c.kind < 3) && decide (4 ≤ c.s) && decide (c.s ≤ 16) && decide (4 ≤ c.c) && decide (c.c ≤ 16) && decide (16 ≤ c.f) && decide (c.f ≤ 30) &&
  decide (c.vector < 2048) && c.ring % 64 = 0 && c.cring % 64 = 0 && c.fail % 64 = 0 && c.ctail % 8 = 0 && c.head % 8 = 0 &&
  [c.ring, c.cring, c.fail, c.ctail, c.head].all vaOk
/-- Lowest queue number that an engine has free. -/
def freeQueue (s : State) (e : Nat) : Option Nat := (List.range 1024).find? fun q => !(s.queue (queueKey e q)).live
def execQueueCreate (h : Hdr) (c : QueueCfg) (s : State) : Out :=
  pmiCtx h 0x0030 (fun s =>
    let x := s.ctx h.ctx
    let e := engOf c.kind c.inst
    if !queueOk c then pmiRefuse h 0x0030 pInvalid s
    else if !engNamed s c.kind c.inst then pmiRefuse h 0x0030 pNotFound s
    else if overQuota s h.ctx 1 (queuesOf s) x.qQueues (s.fn x.fn).qQueues then pmiRefuse h 0x0030 pQuota s
    else match freeQueue s e with
      | none => pmiRefuse h 0x0030 pCapacity s
      | some n =>
        let q : Queue :=
          { live := true, kind := c.kind, inst := c.inst, num := n, ctx := h.ctx, fn := h.fn, lc := !c.be, s := c.s, c := c.c, f := c.f, vector := c.vector
            ring := c.ring, cring := c.cring, ctail := c.ctail, headAddr := c.head, fail := c.fail }
        pmiAnswer h 0x0030 pOk n [] (s.onQs fun t => t.put (queueKey e n) q)) s

/-- Waits that a queue's packets have registered are removed. -/
def queueUnwait (k : Nat) (s : State) : State := dropWaits .engine k s

/-- Started packets complete CANCELLED_RESET and the rest is discarded, or with DRAIN the queue first empties; a stall of the
queue ends (R427); the
request is answered when every record is written and the queue has gone. -/
def execQueueDestroy (h : Hdr) (eng q : Nat) (drain : Bool) (s : State) : Out :=
  let k := queueKey eng q
  if (s.queue k).drain then .next s
  else pmiCtx h 0x0031 (fun s =>
    let x := s.queue k
    if 1024 ≤ q || 32 ≤ eng || !x.live then pmiRefuse h 0x0031 pNotFound s
    else if x.ctx != h.ctx then pmiRefuse h 0x0031 pPermit s
    else
      let s := if drain then (dropQueueStalls k s).onQueue k fun y => { y with stalled := false, stallWhy := 0 }
        else queueCancel k (failGroups (fun g => (s.launches.get g.launch).queue = k) stCancelled (queueUnwait k s))
      drainCheck k (s.onQueue k fun y => { y with drain := true, drainReq := some h })) s

/-! ### Parks and mailbox slots (R181 R306) -/

/-- The park that a decision names: a parked HOLD group of the context, resident or saved, whose cause is not a page
fault. -/
def decidable_ (c core slot : Nat) (g : Group) : Bool :=
  g.stage = .parked && g.decided.isNone && g.ctx = c && g.lcore = core && g.slot = slot &&
  (match g.park with | some p => p.policy = 0 && p.cause != cPageFault | none => false)
def execParkDecide (h : Hdr) (core slot : Nat) (abandon : Bool) (s : State) : Out :=
  pmiCtx h 0x0033 (fun s =>
    let k := gKey core slot
    if 1024 ≤ core || 48 ≤ slot then pmiRefuse h 0x0033 pInvalid s
    else if decidable_ h.ctx core slot (s.group k) then pmiOk h 0x0033 (if abandon then groupEnd k stFault s else unpark k s)
    else match s.saved.find? (decidable_ h.ctx core slot) with
      | some g =>
        pmiOk h 0x0033 (s.onIdent g.ident (Group.ruled abandon))
      | none => pmiRefuse h 0x0033 pNotFound s) s

def execMailboxConfig (h : Hdr) (first count dest ctr : Nat) (s : State) : Out :=
  pmiCtx h 0x0034 (pmiValid h 0x0034 (decide (1 ≤ count) && decide (first + count ≤ 256) && dest % 64 = 0 && vaOk (dest + 64 * count - 1) && counterId ctr) fun s =>
    pmiOk h 0x0034 (s.onFn h.fn fun x =>
      { x with mail := (List.range count).foldl (fun t i => t.put (first + i) (some (h.ctx, dest + 64 * i, ctr))) x.mail })) s

/-! ### Accounting and share groups (R319 R335) -/

/-- One snapshot per named context. -/
def execDailiesQuery (h : Hdr) (ctxs : List Nat) (s : State) : Out :=
  pmi h 0x0040 false (fun s =>
    if ctxs.isEmpty then pmiRefuse h 0x0040 pInvalid s
    else if ctxs.any fun c => 4096 ≤ c || !(s.ctx c).live then pmiRefuse h 0x0040 pNotFound s
    else if ctxs.any fun c => (s.ctx c).fn != h.fn then pmiRefuse h 0x0040 pPermit s
    else if ctxs.any fun c => (s.ctx c).orphanedAt.isSome then pmiRefuse h 0x0040 pState s
    else pmiAnswer h 0x0040 pOk 0 (ctxs.flatMap fun c => dailies s c false false) s) s

/-- Share groups as the latest request defines them. -/
def shareDefs (s : State) : Tbl (Option (Nat × List Nat)) := s.mgmt.newGroupsG.getD s.mgmt.groupsG
def execShareGroupSet (h : Hdr) (n f : Nat) (members : List Nat) (s : State) : Out :=
  pmi h 0x0042 true (fun s =>
    let others := (shareDefs s).filter fun (k, _) => k != n
    let sum := (others.map fun (_, x) => match x with | some (g, _) => g | none => 0).sum
    let taken := others.any fun (_, x) => match x with | some (_, l) => members.any l.contains | none => false
    if 16 ≤ n || f = 0 || 90 < f || 90 < sum + f || taken then pmiRefuse h 0x0042 pInvalid s
    else if members.any fun c => 4096 ≤ c || !(s.ctx c).live then pmiRefuse h 0x0042 pNotFound s
    else pmiOk h 0x0042 (s.onMgmt fun m => { m with newGroupsG := some ((shareDefs s).put n (some (f, members))) })) s

/-! ### Information (R2 R22 R75 R215 R383) -/

/-- The number that stands for a variant in the answer. DESIGN CHOICE (notes/assumptions/53.md): the spec gives no codes;
these follow the order of R1's table. -/
def variantCode : Variant → Nat
  | .v12M4X => 0 | .v8M8X => 1 | .v14M2X => 2
/-- Variant, stepping code, release (which the spec does not number) and device ID. -/
def execDeviceInfo (h : Hdr) (s : State) : Out :=
  pmi h 0x0050 false (fun s =>
    pmiAnswer h 0x0050 pOk 0 (leBytes 1 (variantCode s.variant) ++ leBytes 1 2 ++ leBytes 2 s.devId ++ leBytes 4 s.draw.toNat) s.drawn) s
/-- Sequence number, then the physical core of each logical ID, 0xFFFF for none. -/
def execCoreMap (h : Hdr) (s : State) : Out :=
  pmi h 0x0051 false (fun s =>
    pmiAnswer h 0x0051 pOk 0 (leBytes 8 s.mesh.seq ++ (List.range 1024).flatMap fun c => leBytes 2 ((s.phys c).getD 0xFFFF)) s) s
def execSpareState (h : Hdr) (addr : Nat) (s : State) : Out :=
  pmi h 0x0052 false (pmiValid h 0x0052 (addr != 0 && decide (addr + 808 ≤ 2 ^ 64)) fun s =>
    pmiAnswerAt true { h with payAddr := addr } 0x0052 pOk 0 (spareReport s) s) s
def execWithdrawnRanges (h : Hdr) (s : State) : Out :=
  pmi h 0x0056 false (fun s => pmiAnswer h 0x0056 pOk 0 ((withdrawnRanges s).flatMap fun (a, n) => leBytes 8 a ++ leBytes 8 n) s) s

/-! ### Self-tests on request (R386 R387) -/

/-- Why a self-test is refused: no such unit, or a spare that is missing. -/
def testBad (s : State) (target unit : Nat) : Option Nat :=
  match target with
  | 0 => if 1024 ≤ unit then some pInvalid
    else match s.phys unit with
      | none => some (if standinsLeft s (lDie unit) then pNotFound else pState)
      | some _ => if standinsLeft s (lDie unit) then none else some pState
  | 1 => if 1152 ≤ unit then some pInvalid else if (s.core unit).fenced || standinsLeft s (pDie unit) then none else some pState
  | 2 => if 8 ≤ unit then some pInvalid else if standinsLeft s unit then none else some pState
  | 3 => if nPorts s.variant ≤ unit then some pNotFound else if (s.port unit).spare then none else some pState
  | _ => some pInvalid
/-- A requested test joins the queue; that of a fenced core runs at once. -/
def testQueue (h : Hdr) (target unit : Nat) (s : State) : State :=
  let t : SelfTest := { h := h, target := target, unit := unit }
  if target = 1 && (s.core unit).fenced then
    (s.onCore unit fun c => { c with testing := true }).onMgmt fun m => { m with tests := m.tests ++ [{ t with cur := some unit }] }
  else testKick (s.onMgmt fun m => { m with tests := m.tests ++ [t] })
def execSelfTest (h : Hdr) (target unit : Nat) (s : State) : Out :=
  pmi h 0x0053 true (fun s =>
    match testBad s target unit with
    | some st => pmiRefuse h 0x0053 st s
    | none => testQueue h target unit s) s

/-- Every core of a test has been tested. -/
def testOver (s : State) (t : SelfTest) : Bool := t.cur.isNone && decide ((testCores s t).length ≤ t.next_)
/-- The first test that is finished is answered: a core test once each of its cores has been tested, with what was found
then, a lane test with `bad` faulty lanes. -/
def execSelfTestDone (bad : Nat) (s : State) : Out :=
  match s.mgmt.tests.find? (testOver s) with
  | none => .next s
  | some t =>
    if !s.mgmt.ready then .next s
    else
      let n := if t.target = 3 then bad % 10 else t.bad
      .next (testKick (pmiAnswer t.h 0x0053 pOk ((if n = 0 then 0 else 1) + 256 * n) [] (s.onMgmt fun m => { m with tests := m.tests.erase t })))

/-! ### Modes and power (R33 R34 R237) -/

def execCoherenceMode (h : Hdr) (down : Bool) (s : State) : Out :=
  pmi h 0x0054 true (fun s =>
    if !(liveCtxs s).isEmpty then pmiRefuse h 0x0054 pState s else pmiOk h 0x0054 (s.onTier fun t => { t with down := down })) s
/-- A cap in range is in force 20 ms after the response. -/
def execPowerCap (h : Hdr) (w : Nat) (s : State) : Out :=
  pmi h 0x0055 true (pmiValid h 0x0055 (decide (minCap ≤ w) && decide (w ≤ tdp s.variant)) fun s =>
    pmiOk h 0x0055 (s.onPwr fun p => { p with newCaps := p.newCaps ++ [(w, s.now + 20000000)] })) s

/-! ### Live updates (R393 to R395) -/

/-- An image is verified and staged: a Plowin image in the update-target core, microcode in the management domain. -/
def execFwStage (h : Hdr) (kind : Nat) (sigOk : Bool) (ver : Nat) (s : State) : Out :=
  pmi h 0x0060 true (fun s =>
    if 2 ≤ kind then pmiRefuse h 0x0060 pInvalid s
    else if !sigOk || ver < s.mgmt.minVer then pmiRefuse h 0x0060 pAuth s
    else if kind = 0 then
      pmiOk h 0x0060 (s.onMgmt fun m => { m with staged := true, cores := m.cores.upd m.target fun c => { c with newFw := true } })
    else pmiOk h 0x0060 (s.onMgmt fun m => { m with stagedUc := true })) s

def commitNs : Nat := 10000000000
/-- The switch-over: the core that holds the new image becomes active, the former active core the update target. -/
def switchOver (s : State) : State :=
  s.onMgmt fun m =>
    { m with active := m.target, target := m.active, standby := if m.standby = m.target then m.active else m.standby
             formerActive := some m.active, commitAt := some (s.now + commitNs) }
/-- Engines of a die that take microcode. -/
def dieEngines (d : Nat) : List Nat := [d, 8 + 2 * d, 9 + 2 * d]
def enginesOut (d : Nat) (s : State) : State := forAll (dieEngines d) (fun e s => s.onEngine e fun x => { x with out := true }) s

def execFwActivate (h : Hdr) (kind : Nat) (dies : List Nat) (s : State) : Out :=
  pmi h 0x0061 true (fun s =>
    if kind = 0 then
      (if mgmtCores s < 2 || !s.mgmt.staged || s.mgmt.commitAt.isSome then pmiRefuse h 0x0061 pState s else pmiOk h 0x0061 (switchOver s))
    else if kind = 1 then
      match (List.range 8).filter dies.contains with
      | [] => pmiRefuse h 0x0061 pInvalid s
      | d :: rest =>
        if dies.any (8 ≤ ·) then pmiRefuse h 0x0061 pInvalid s
        else if !s.mgmt.stagedUc || !s.mgmt.ucDies.isEmpty then pmiRefuse h 0x0061 pState s
        else enginesOut d (s.onMgmt fun m => { m with ucDies := d :: rest, ucReq := some h })
    else pmiRefuse h 0x0061 pInvalid s) s

/-- A die's pause ends: its engines go on under new unit generations, and the next die's pause; after the last one the
request is answered. -/
def execMicrocodeDieDone (die : Nat) (s : State) : Out :=
  match s.mgmt.ucDies with
  | [] => .next s
  | d :: rest =>
    if d != die then .next s
    else
      let gone := (s.tier.dies.get d).fenced
      let s := forAll (dieEngines d) (fun e s => s.onEngine e fun x => { x with out := gone, ugen := x.ugen + 1 }) s
      let s := s.onDom d fun x => { x with ugen := x.ugen + 1 }
      let s := s.onMgmt fun m => { m with ucDies := rest }
      match rest with
      | d2 :: _ => .next (enginesOut d2 s)
      | [] => match s.mgmt.ucReq with
        | some h => .next (pmiAnswer h 0x0061 pOk 0 [] (s.onMgmt fun m => { m with ucReq := none, stagedUc := false }))
        | none => .next s

/-- 10 s of healthy service after a switch-over: the flash boot selection, the former active core and the roles follow
the new image. -/
def execPlowinCommit (s : State) : Out :=
  match s.mgmt.commitAt, s.mgmt.formerActive with
  | some t, some a =>
    if s.now < t then .next s
    else
      let two := mgmtCores s < 3
      .next (s.onMgmt fun m =>
        { m with commitAt := none, formerActive := none, staged := false, bootSlot := 1 - m.bootSlot, cores := m.cores.mapAll fun c => { c with newFw := false }
                 standby := a, target := if two then a else m.standby })
  | _, _ => .next s

/-! ### Attaching (R373 R377 R378) -/

def execAttachRead (h : Hdr) (addr : Nat) (s : State) : Out :=
  pmi h 0x0070 false (pmiValid h 0x0070 (addr != 0 && decide (addr < 2 ^ 64)) fun s =>
    pmiAnswerAt true { h with payAddr := addr } 0x0070 pOk 0 (attachRecord s h.fn) s) s

/-- Every pending vector of a function is raised once. -/
def raisePending (f : Nat) (s : State) : State :=
  let l := (s.fn f).pba
  l.foldl (fun s v => msixRaise f v s) (s.onFn f fun x => { x with pba := [] })
/-- A held reset snapshot goes to the armed buffer. -/
def snapDeliver (c : Nat) (s : State) : State :=
  match (s.ctx c).snap with
  | some (a, _) => (if (s.ctx c).snapHeld.isEmpty then s else s.hostWr a (s.ctx c).snapHeld).onCtx c fun x => { x with snapHeld := [] }
  | none => s.onCtx c fun x => { x with snapHeld := [] }
/-- Held records are written in their order, those of queues with HELD. -/
def deliver (f c : Nat) (s : State) : State :=
  let s := [RingId.fault, .park, .notify, .snap].foldl (fun s i => ringFlush f i s) (snapDeliver c s)
  raisePending f (forAll (ctxQueues s c) (fun k s => recordAll k (s.queue k).pkts.length s) s)

/-- A CLAIM ends the orphaning of the context and of its function, whose heartbeats begin anew, and replaces the token. -/
def claimed (h : Hdr) (del : Bool) (s : State) : State :=
  let tok := Config.token s.freeN
  let s := roomWaits s (s.drawn.onCtx h.ctx fun x => { x with token := tok, orphanedAt := none, resetAt := 0, paused := false, noDeliver := !del, badClaim := none })
  let s := s.onFn h.fn fun x => if x.orphan then { x with orphan := false, beat := none } else x
  pmiAnswer h 0x0071 pOk tok.toNat [] (if del then deliver h.fn h.ctx s else s)

def claimHoldNs : Nat := 1000000000
def execClaim (h : Hdr) (token : DWord) (deliver_ : Bool) (s : State) : Out :=
  if (s.ctx h.ctx).inReset then .next s
  else pmi h 0x0071 false (fun s =>
    let x := s.ctx h.ctx
    let barred := match x.badClaim with | some t => decide (s.now < t + claimHoldNs) | none => false
    if 4096 ≤ h.ctx || !x.live then pmiRefuse h 0x0071 pNotFound s
    else if x.fn != h.fn then pmiRefuse h 0x0071 pPermit s
    else if x.gen != h.gen then pmiRefuse h 0x0071 pStale s
    else if barred then pmiRefuse h 0x0071 pAuth s
    else if x.token != token then pmiRefuse h 0x0071 pAuth (s.onCtx h.ctx fun x => { x with badClaim := some s.now })
    else claimed h deliver_ s) s

/-- A function that was orphaned for want of heartbeats is attached again; its contexts stay orphaned. -/
def execHeartbeat (h : Hdr) (s : State) : Out :=
  pmi h 0x0072 false (fun s => pmiOk h 0x0072 (s.onFn h.fn fun x => { x with beat := some s.now, orphan := false })) s

end Sys2Proof.Machine
end

