-- ==== Sys2Proof/Machine/Host.lean ====
section
/-! DEFINITION. What the host's side does to the device: host loss and orphaning, PCIe links, resets from PCIe, BAR2, and
the accesses that are refused (ch. 15, R210, R243, R390). -/
namespace Sys2Proof.Machine

/-! ### Host loss (R373 R374) -/

/-- A context is orphaned. Policy 1 pauses it: its groups are stopped as for preemption, and nothing of it starts until
it is claimed. -/
def ctxOrphan (c : Nat) (s : State) : State :=
  if (s.ctx c).orphanedAt.isSome then s
  else
    let s := s.onCtx c fun x => { x with orphanedAt := some s.now, resetAt := 0, paused := x.orphan = 1 }
    if (s.ctx c).orphan = 1 then forAll (ctxGroups s c) (fun k => requestStop k .orphan) s else s
def fnCtxs (s : State) (f : Nat) : List Nat := (liveCtxs s).filter fun c => (s.ctx c).fn = f
/-- A function is orphaned, and with it each of its contexts. -/
def fnOrphan (f : Nat) (s : State) : State := forAll (fnCtxs s f) ctxOrphan (s.onFn f fun x => { x with orphan := true })

def linkLossNs : Nat := 100000000
/-- The link is down, and if it has ever been up, for 100 ms. -/
def linkGone (s : State) (p : Nat) : Bool :=
  let x := s.pcie.get p
  !x.up && (match x.downAt with | some t => decide (t + linkLossNs ≤ s.now) | none => true)
/-- Both links have been down for 100 ms, and one had been up. -/
def bothGone (s : State) : Bool := linkGone s 0 && linkGone s 1 && ((s.pcie.get 0).downAt.isSome || (s.pcie.get 1).downAt.isSome)
def execOrphanLinkTimeout (s : State) : Out := .next (if bothGone s then forAll (List.range 64) fnOrphan s else s)

def beatNs : Nat := 10000000000
/-- 10 s have passed since the function's last heartbeat. -/
def beatLost (s : State) (f : Nat) : Bool := match (s.fn f).beat with | some t => decide (t + beatNs ≤ s.now) | none => false
def execOrphanHeartbeatTimeout (fn : Nat) (s : State) : Out := .next (if fn < 64 && beatLost s fn then fnOrphan fn s else s)

def secNs : Nat := 1000000000
/-- ORPHAN_TIME after its orphaning, a context under policy 2 is reset, and its snapshot is held (R374 R376 R390). -/
def execOrphanTimeExpire (ctx : Nat) (s : State) : Out :=
  let x := s.ctx ctx
  match x.orphanedAt with
  | none => .next s
  | some t =>
    if !x.live || x.orphan != 2 || x.resetAt != 0 || x.inReset || !s.mgmt.ready || s.now < t + secNs * x.orphanTime || resetWaits s ctx 2 x.snap then .next s
    else .next ((ctxReset ctx 2 x.snap none s).onCtx ctx fun x => { x with resetAt := s.now })

/-! ### PCIe links (R360 R361 R370) -/

def execPcieLinkDown (p : Nat) (s : State) : Out := .next (if p < 2 then pcieDown p s else s)

/-- The link has been up for 1 s: the traffic of functions f mod 2 = p returns to it. -/
def execPciePortReturn (p : Nat) (s : State) : Out :=
  let x := s.pcie.get p
  .next (if p < 2 && x.up && !x.serving && x.upAt + secNs ≤ s.now then s.onPci p fun x => { x with serving := true } else s)

/-- A hot reset, a link disable, or with `perst` the assertion of PERSTp_N: the loss of that port's link. -/
def execPcieLinkReset (p : Nat) (perst : Bool) (s : State) : Out :=
  if 2 ≤ p then .next s
  else
    let s := if perst then s.onPwr fun w => { w with perst := w.perst.put p false } else s
    .next (pcieDown p s)

/-! ### Function level resets (R368 R369) -/

/-- Requests of the function that Plowin has taken get no answer. -/
def Hdr.gone (f : Nat) (h : Hdr) : Hdr := if h.fn = f then { h with fn := 64 } else h
def reqsGone (f : Nat) (s : State) : State :=
  let s := s.onMgmt fun m =>
    { m with tests := m.tests.map fun t => { t with h := Hdr.gone f t.h }
             ucReq := m.ucReq.map (Hdr.gone f), heldRsp := m.heldRsp.filter (·.fn != f) }
  let s := s.onXl fun y => { y with changes := y.changes.map fun c => { c with h := Hdr.gone f c.h } }
  let s := s.onTier fun t => { t with convs := t.convs.map fun c => { c with h := Hdr.gone f c.h } }
  s.onQs fun t => t.mapAll fun q => { q with drainReq := q.drainReq.map (Hdr.gone f) }
/-- The function's rings and its MSI-X table have their reset values; what they held is discarded. -/
def fnRings (x : Fn) : Fn :=
  { x with reqBase := 0, rspBase := 0, reqTail := 0, rspHead := 0, reqHead := 0, rspTail := 0, fault := {}, faultSeq := 0
           park := {}, notify := {}, notifySeq := 0, snapR := {}, snapPer := 0, snapAt := 0, msixT := [], pba := [] }
/-- A context is reset without a snapshot; records not yet written are discarded. -/
def flrCtx (c : Nat) (s : State) : State :=
  let s := ctxResetEnd c (ctxReset c 0 none none s)
  let s := forAll (ctxQueues s c) (fun k s => s.onQueue k fun q => { q with pkts := [], needF := 0 }) s
  s.onCtx c fun x => { x with snapHeld := [] }
/-- R368 on a function. -/
def flr (f : Nat) (s : State) : State :=
  let s := reqsGone f (s.onFn f fnRings)
  let s := forAll (fnCtxs s f) flrCtx s
  s.onFn f fnRings

/-- VFs whose number is above `num` leave service (R369). -/
def vfLeave (num : Nat) (s : State) : State :=
  forAll ((List.range 64).filter fun f => decide (num < f) && (s.fn f).vf) (fun f s => flr f (s.onFn f fun x => { x with vf := false })) s
/-- An FLR. That of the PF clears VF Enable, and acts on every VF in service and every VF that holds contexts. -/
def execFunctionLevelReset (fn : Nat) (s : State) : Out :=
  if 64 ≤ fn then .next s
  else
    let s := flr fn s
    if fn != 0 then .next s
    else
      let s := vfLeave 0 s
      .next (forAll ((List.range 64).filter fun f => f != 0 && !(fnCtxs s f).isEmpty) flr s)

/-- VF Enable and NumVFs are written: `num` VFs are enabled from now on, 0 with VF Enable clear. VFs beyond them leave
service. -/
def execVfLeaveService (num : Nat) (s : State) : Out :=
  let s := vfLeave num s
  .next (forAll ((List.range 64).filter fun f => f != 0 && decide (f ≤ num)) (fun f s => s.onFn f fun x => { x with vf := true }) s)

/-! ### BAR2 (R210 R243 R365 R366) -/

/-- The size up to which BAR2 is resizable: the power of two at or above the variant's usable HBM. -/
def bar2Max (v : Variant) : Nat := match v with | .v8M8X => 2 ^ 39 | _ => 2 ^ 40
def bar2Sizes : List Nat := (List.range 11).map fun i => 2 ^ (30 + i)
def execBarResize (p size : Nat) (s : State) : Out :=
  .next (if p < 2 && bar2Sizes.contains size && size ≤ bar2Max s.variant then s.onPci p fun x => { x with bar2 := size } else s)

/-- A request reaches BAR2 of the port: the link is up, and it lies within BAR2. -/
def bar2Hit (s : State) (p fn off n : Nat) : Bool :=
  p < 2 && fn < 64 && (s.pcie.get p).up && n != 0 && decide (off + n ≤ (s.pcie.get p).bar2)
/-- The requests of an access, cut at multiples of the largest size (table of R358): offset and length. -/
def bar2Cut (m : Nat) : Nat → Nat → Nat → List (Nat × Nat)
  | 0, _, _ => []
  | fuel + 1, off, n =>
    if n = 0 then []
    else
      let k := min n (m - off % m)
      (off, k) :: bar2Cut m fuel (off + k) (n - k)
/-- The mapping of the function at an offset, with the virtual address. -/
def bar2Map (s : State) (fn off : Nat) : Option (Nat × Nat) :=
  s.xl.maps.findSome? fun m => match m.bar2 with
    | some b => if (s.ctx m.ctx).fn = fn && (s.ctx m.ctx).live && b ≤ off && off < b + m.len then some (m.ctx, m.va + (off - b)) else none
    | none => none
/-- The record of an access of a context at an address that is not performed; it names the physical address where there
is one. -/
def bar2Rec (p c va : Nat) (s : State) : ErrRec :=
  let r : ErrRec := { (accessRec (srcPcie p) (0x10 + p) 0) with unit := p, ctx := c, gen := if c < 4096 then (s.ctx c).gen else 0 }
  match (if c < 4096 then translate s c va 0 else .fault 1) with
  | .ok pa _ => { r with addr := pa }
  | .fault _ => { r with flags := 0 }
/-- Of a poisoned completion (R210). -/
def bar2Poison (p c va : Nat) (s : State) : ErrRec := { bar2Rec p c va s with cls := clPcie }
/-- The access of a context at an address cannot be performed. -/
def bar2Bad (s : State) (c va n need : Nat) : Option BBad :=
  if (s.ctx c).inReset then some .denied
  else match translate s c va need with
    | .ok pa _ => if paDev pa != s.devId then some .denied else bulkBad s { ctx := c, gen := (s.ctx c).gen } va n need
    | .fault r => some (.page r)

/-- Completer Abort: the read returns no data. -/
def bar2Abort (p c va : Nat) (s : State) : State := (errAdd (bar2Rec p c va s) s).onBar2Rsp fun _ => (1, [])
/-- One read request. -/
def bar2ReadOne (p fn off n : Nat) (s : State) : State :=
  match bar2Map s fn off with
  | none => bar2Abort p 0xFFFF 0 s
  | some (c, va) =>
    if (bar2Bad s c va n needR).isSome then bar2Abort p c va s
    else
      let b : Bulk := { ctx := c, gen := (s.ctx c).gen }
      let (l, po) := bulkRd s b va n
      let old := s.bar2Rsp
      let s := (bulkTouch b va n s).onBar2Rsp fun _ => (if po.isEmpty || old.1 = 1 then old.1 else 2, old.2 ++ l)
      if po.isEmpty then s else errAdd (bar2Poison p c va s) s
/-- One posted write request. Granules that meet poison are recorded where they lie (R208). -/
def bar2WriteOne (p fn off : Nat) (data : List Byte) (s : State) : State :=
  match bar2Map s fn off with
  | none => errAdd (bar2Rec p 0xFFFF 0 s) s
  | some (c, va) =>
    if (bar2Bad s c va data.length needW).isSome then errAdd (bar2Rec p c va s) s
    else (bulkWr { ctx := c, gen := (s.ctx c).gen } none va data [] s).1

/-- A request waits while a piece of it must (R256). -/
def bar2Waits (s : State) (fn need : Nat) (l : List (Nat × Nat)) : Bool :=
  l.any fun (o, n) => match bar2Map s fn o with
    | some (c, va) => (match bar2Bad s c va n need with | some .retry => true | _ => false)
    | none => false

/-- A host read: its requests are performed in address order. -/
def execBar2Read (p fn off n : Nat) (s : State) : Out :=
  let l := bar2Cut 4096 n off n
  if !bar2Hit s p fn off n || bar2Waits s fn needR l then .next s
  else .next (l.foldl (fun s (o, k) => if s.bar2Rsp.1 = 1 then s else bar2ReadOne p fn o k s) (s.onBar2Rsp fun _ => (0, [])))

/-- A posted host write: likewise. -/
def execBar2Write (p fn off : Nat) (data : List Byte) (s : State) : Out :=
  let l := bar2Cut 512 data.length off data.length
  if !bar2Hit s p fn off data.length || bar2Waits s fn needW l then .next s
  else .next (l.foldl (fun s (o, k) => bar2WriteOne p fn o (slice data (o - off) k) s) s)

/-! ### Accesses that are refused (R364 R371) -/

/-- Registers of the function page, by offset (R363). -/
def fnPage : List Nat := [0x00, 0x08, 0x10, 0x18, 0x20, 0x28, 0x30, 0x40, 0x48]
/-- An offset of BAR0 at which the function has an object of its own. -/
def bar0Own (s : State) (fn off : Nat) : Bool :=
  if off < 0x1000 then fnPage.contains (off / 8 * 8)
  else if 0x4000 ≤ off && off < 0x10100 then true
  else if 0x100000 ≤ off && off < 0x200000 then
    let q := s.queue (queueKey ((off - 0x100000) / 0x8000) ((off - 0x100000) % 0x8000 / 0x20))
    q.live && q.fn = fn && off % 0x20 < 0x10
  else if 0x1000000 ≤ off && off < 0x2000000 then pageOwned s fn ((off - 0x1000000) / 0x1000)
  else false
/-- Offsets of a function's own objects that define only writes: mailbox slots and sync doorbell pages (R364). -/
def bar0WriteOnly (off : Nat) : Bool :=
  (decide (0x4000 ≤ off) && decide (off < 0x8000)) || (decide (0x1000000 ≤ off) && decide (off < 0x2000000))
/-- A refused access: a read returns 0, a write is not performed. A read of an own object that defines only writes returns
0 and is no refusal. -/
def execBar0AccessRefused (fn off : Nat) (write : Bool) (s : State) : Out :=
  if 64 ≤ fn || 0x4000000 ≤ off then .next s
  else if bar0Own s fn off then .next (if !write && bar0WriteOnly off then s.onLastRead fun _ => 0 else s)
  else
    let s := bar0Refused fn off s
    .next (if write then s else s.onLastRead fun _ => 0)

/-- A bus lies in a port's trusted range. -/
def trusted (s : State) (p : Nat) (bus : BitVec 8) : Bool :=
  decide ((s.pcie.get p).lo.toNat ≤ bus.toNat) && decide (bus.toNat ≤ (s.pcie.get p).hi.toNat)
/-- A memory request from outside the trusted range is answered with Unsupported Request and counted. -/
def execUntrustedRequest (p : Nat) (bus : BitVec 8) (s : State) : Out :=
  .next (if p < 2 && (s.pcie.get p).up && !trusted s p bus then s.onPci p fun x => { x with peerRej := x.peerRej.raise } else s)
/-- The PF driver writes PCIE_CFG of a port, on a request of that bus that a port accepts. -/
def execPcieCfgWrite (p : Nat) (bus : BitVec 8) (v : DWord) (s : State) : Out :=
  .next (if p < 2 && ([0, 1].any fun o => (s.pcie.get o).up && trusted s o bus) then pcieCfgWrite (.fn 0) p (some bus.toNat) v s else s)

end Sys2Proof.Machine
end

