-- ==== Sys2Proof/Machine/Fatal.lean ====
section
/-! DEFINITION. FATAL, the wrap dump, the error ring, register accesses without a row of their own, and the order of events (R11 to R13, R47, R48,
R262, R309, R396, R397, R401, R402). -/
namespace Sys2Proof.Machine

/-! ### FATAL (R396 R397) -/

/-- The device becomes FATAL: `event` 0 for Plowin's own state lost, else the power manager cannot keep the ratings. -/
def execFatalEnter (event : Nat) (s : State) : Out :=
  if !s.mgmt.running || s.pwr.state = .fatal then .next s
  else if event = 0 then .next (fatalEnter (plowinRec s clMgmt sevFatal) s)
  else .next (fatalEnter { source := srcPower, cls := clPower, sev := sevFatal, die := 0x20 } s)

/-- The dump has been copied to the host's buffer; under AUTO_RESTART a warm restart follows. -/
def execDumpCopyComplete (s : State) : Out :=
  if !s.err.copying || !anyLink s then .next s
  else
    let s := (s.hostWr (4096 * s.err.dumpAddr) (s.rd (dumpBase s) dumpLen)).onErr fun e => { e with copying := false, copied := true }
    .next (if s.err.auto then warmRestart s else s)

/-- The host reaches the registers of the management domain. -/
def regsMay (s : State) : Bool := s.pwr.aux && anyLink s
/-- AUTO_RESTART and ADDR; the write's other bits are those of WARM_RESTART and RELEASE. -/
def execErrDumpCtlWrite (v : DWord) (s : State) : Out := .next (if regsMay s then dumpCtlWrite v true true s else s)
def execWarmRestart (s : State) : Out := .next (if regsMay s then warmRestart s else s)
def execRelease (s : State) : Out := .next (if regsMay s then dumpRelease s else s)

/-! ### The error ring (R401) -/

def execErrEringBaseWrite (v : DWord) (s : State) : Out := .next (if regsMay s then eringBaseWrite (.fn 0) v s else s)
def execErrEringHeadWrite (v : Word) (s : State) : Out := .next (if regsMay s then eringHeadWrite (.fn 0) v s else s)

/-! ### Registers (R11 to R13 R262 R309 R363) -/

def accWho (a : RegAcc) : Who := match a.fn with | some f => .fn f | none => .core a.core
/-- The access can be made: the host has a link, a core exists. -/
def accMay (s : State) (a : RegAcc) : Bool := match a.fn with | some f => decide (f < 64) && anyLink s | none => decide (a.core < 1152)

/-- A write of a register, or of bytes of the function's MSI-X table. -/
def execRegisterWrite (a : RegAcc) (v : DWord) (hwSet : BitVec 8) (s : State) : Out :=
  if !accMay s a then .next s
  else match a.msix, a.fn with
    | some i, some f =>
      .next (if regSized i a.size && i + a.size ≤ 32768 then msixWrite f i (leBytes a.size v.toNat) s else bar0Refused f (0x8000 + i) s)
    | _, _ => .next (regWrite (accWho a) a.pa a.size v hwSet none s)

/-- A read that is refused: it returns 0. -/
def readRefused (s : State) (a : RegAcc) : Bool :=
  !regSized a.pa a.size ||
  (match regAt s (a.pa / 8 * 8) with
    | none => true
    | some r => (r matches .faultReplay _) && a.size != 8 || (match a.fn with | some f => !ownReg s f r | none => false))
def execRegisterReadRefused (a : RegAcc) (s : State) : Out :=
  .next (if accMay s a && readRefused s a then (errAdd (regRefused s (accWho a) a.pa) s).onLastRead fun _ => 0 else s)

/-- The driver hands requests over. -/
def execPmiReqTailWrite (fn : Nat) (v : Word) (s : State) : Out := .next (if fn < 64 && anyLink s then pmiReqTail (.fn fn) fn v s else s)

/-- The driver advances the head of the park (0), notify (1) or snapshot (2) ring. -/
def execRingHeadWrite (fn ring : Nat) (v : Word) (s : State) : Out :=
  if 64 ≤ fn || !anyLink s then .next s
  else match ring with
    | 0 => .next (ringHead fn .park v s)
    | 1 => .next (ringHead fn .notify v s)
    | 2 => .next (ringHead fn .snap v s)
    | _ => .next s

/-! ### The order of events (R47 R48) -/

/-- What events are ordered by, an event being its device and its record: device time, then device ID, then source number, then
the sequence in which the source wrote its records. -/
def eventKey (e : Nat × ErrRec) : List Nat := [e.2.tsc.toNat, e.1, e.2.source, e.2.seq]
/-- The first of two events. -/
def eventBefore (a b : Nat × ErrRec) : Bool := decide (eventKey a < eventKey b)

end Sys2Proof.Machine
end

