-- ==== Sys2Proof/Machine/Fence.lean ====
section
/-! DEFINITION. Fences of a thread (R222 to R224). -/
namespace Sys2Proof.Machine

/-- FENCE.O: the threads' earlier loads are done and their stores have drained. -/
def execFenceO (i : Ins) (s : State) : Out :=
  match beginDrained i { early := false } s with
  | .no => .next s
  | .bad s => .next s
  | .go x s => .next (finish i x (fun _ => []) [] (after i) s)

/-- Dirty lines that hold stores of the group are written back to their homes, whichever L1 of the die owns them now (R223
R234). -/
def writeBackOwned (p : Nat) (own : Nat × Nat × Nat) (s : State) : State := writeBackFor (pDie p) (· = own) s

/-- Stores of the group that another device has not yet acknowledged. -/
def remoteStores (s : State) (own : Nat × Nat × Nat) : Bool := s.fab.reqs.any fun r => r.owners.contains own

/-- FENCE.C: every earlier store is also performed at its end point; with INV the whole L1 is then written back and
invalidated. -/
def fenceC (i : Ins) (inv : Bool) (s : State) : Out :=
  match beginDrained i { early := false } s with
  | .no => .next s
  | .bad s => .next s
  | .go x t =>
    let own := (x.g.slot, x.g.launch, x.g.gid)
    if remoteStores t own then .next s
    else
      let t := writeBackOwned x.p own t
      let t := if inv then l1Invalidate x.p (l1Flush x.p t) else t
      .next (finish i x (fun _ => []) [] (after i) t)

def execFenceC (i : Ins) (s : State) : Out := fenceC i false s
def execFenceCInv (i : Ins) (s : State) : Out := fenceC i true s

end Sys2Proof.Machine
end

