-- ==== Sys2Proof/Machine/Flow.lean ====
section
/-! DEFINITION. Control flow: branches and joins, the end of threads, cut points and replay points, device time
(R42, R43, R165 to R168, R327 to R329, R389). -/
namespace Sys2Proof.Machine

/-- An address a number of 16 B units from another. -/
def branchTo (pc : Nat) (n : Int) : Nat := (((pc : Int) + 16 * n) % 2 ^ 64).toNat

/-- Threads diverge at a branch with a join address; a join offset of 0 means no hold (R167). -/
def diverge (x : Iss) (pc : Nat) (target join : Int) (g : Group) : Group :=
  if join = 0 || target = 1 || x.part.isEmpty || x.part.length = x.lanes.length then g
  else { g with brs := { id := g.nextId, lanes := x.set_, addr := branchTo pc join } :: g.brs }
/-- A branch ends the turn of its set (R166). -/
def Group.endTurn (g : Group) : Group := { g with sched := { g.sched with turn := 0, turnN := 0 } }

/-- BRA: the participating threads go to the target, the others on. -/
def execBra (i : Ins) (target join : Int) (s : State) : Out :=
  match begin_ i {} s with
  | .no => .next s
  | .bad s => .next s
  | .go x s =>
    let to_ (l : Nat) : Nat := if x.part.contains l then branchTo i.pc target else i.pc + 16
    .next (finish i x (fun _ => []) [] to_ (s.onGroup x.k fun g => (diverge x i.pc target join g).endTurn))

/-- The holds of a join address whose group has made 63 issues since the held set's last issue end. -/
def execJoinHoldExpire (core slot addr : Nat) (s : State) : Out :=
  if !s.idRuns core then .next s
  else .next (s.onGroup (gKey core slot) fun g =>
    { g with holds := g.holds.filter fun h => !(h.addr = addr && decide (h.since + 63 ≤ g.issues)) })

/-- Threads of a group have exited. -/
def exitLanes (lanes : List Nat) (g : Group) : Group :=
  gsyncSettle (lanes.foldl (fun g l => g.onThread l fun t => { t with exited := true }) g)

/-- EXIT: the threads end; with its last thread the group completes. The holder's last thread waits while a
tile program of the group runs. -/
def execExit (i : Ins) (s : State) : Out :=
  match begin_ i { early := false } s with
  | .no => .next s
  | .bad s => .next s
  | .go x s0 =>
    let last := x.g.alive.all x.part.contains
    if last && isHolder s0 x.p x.g.slot && !(s0.core x.p).progs.isEmpty then .next s
    else
      let others := x.lanes.filter fun l => !x.part.contains l
      let s := s0.onGroup x.k fun g => (exitLanes x.part g).advance others (after i)
      .next (if last then groupEnd x.k stOk s else s)

/-! ### Cut points -/

/-- A replay point may be recorded: REPLAY_SAFE, an entry, all threads in one set, none recorded within 5 µs, none
being written. -/
def replayDue (s : State) (g : Group) (lanes : List Nat) (idx : Nat) : Option LiveMask :=
  let far := match g.ckptAt with | none => true | some t => decide (t + 5000 ≤ s.now)
  if (s.launches.get g.launch).safe && lanes.length = g.alive.length && far && g.slots.isEmpty then cutEntry s g idx else none

/-- The live state of a group as a checkpoint slot takes it. -/
def replaySnap (s : State) (p : Nat) (g : Group) (m : LiveMask) : Snap :=
  let l := keepLive s.freeN m g
  let c := s.core p
  let bytes := groupBytes s g false m
  if isHolder s p g.slot then
    { bytes, th := l.th, u := l.u, ls := l.ls, acc0 := bankKeep (s.freeN + 20000) (m.banks.testBit 0) c.acc0, acc1 := bankKeep (s.freeN + 22048) (m.banks.testBit 1) c.acc1 }
  else { bytes, th := l.th, u := l.u, ls := l.ls }

/-- CUT: with no stop pending the set goes on, and a replay point may begin to be written; with one, its threads
are held there. -/
def execCut (i : Ins) (idx : Nat) (s : State) : Out :=
  match begin_ i { early := false } s with
  | .no => .next s
  | .bad s => .next s
  | .go x s =>
    let others := x.lanes.filter fun l => !x.part.contains l
    if x.g.stop.isSome then
      .next (s.onGroup x.k fun g =>
        (x.part.foldl (fun g l => g.onThread l fun t => { t with cut := some idx }) g).advance others (after i))
    else
      let s := match replayDue s x.g x.part idx with
        | none => s
        | some m =>
          let n := replaySnap s x.p (s.group x.k) m
          let now := s.now
          (s.onGroup x.k fun g => { g with slots := [n], ckptAt := some now }).onFreeN (· + 65536 * 4)
      .next (finish i x (fun _ => []) [] (after i) s)

/-- The checkpoint slot is fully written: it is the group's replay point. -/
def execCheckpointWriteComplete (core slot : Nat) (s : State) : Out :=
  if !s.idRuns core then .next s
  else .next (s.onGroup (gKey core slot) fun g =>
    match g.slots with
    | n :: rest => { g with replay := some n, slots := rest }
    | [] => g)

/-- TSC.READ: device time into an even pair of vector registers, or of uniform registers. -/
def execTscRead (i : Ins) (uni : Option Nat) (s : State) : Out :=
  let h : Shape := match uni with
    | none => { dst := i.dst, dstWide := true }
    | some u => { unis := [(u, true)] }
  match begin_ i h s with
  | .no => .next s
  | .bad s => .next s
  | .go x s =>
    let t := s.tsc.time
    .next (match uni with
      | none => finish i x (fun _ => wpair i.dst t) [] (after i) s
      | some u => finish i x (fun _ => []) (if x.part.isEmpty then [] else wpair u t) (after i) s)

end Sys2Proof.Machine
end

