-- ==== Sys2Proof/Machine/FpOps.lean ====
section
/-! DEFINITION. Floating-point, conversion and uniform instructions (R95, R99 to R102, R107, R174, R426). -/
namespace Sys2Proof.Machine

/-- A rounding mode that vector arithmetic has (R95). -/
def arithRnd (r : Rnd) : Bool := r != .sr

def f32Op2 (i : Ins) (ok : Bool) (f : Word → Word → Word) (s : State) : Out :=
  alu i { srcs := [(i.a, false), (i.b, false)], dst := i.dst, ok := ok } true false (fun g l _ => [(i.dst, f (g.src l i.a) (g.src l i.b))]) s
def f64Op2 (i : Ins) (ok : Bool) (f : DWord → DWord → DWord) (s : State) : Out :=
  alu i { srcs := [(i.a, true), (i.b, true)], dst := i.dst, dstWide := true, ok := ok } true false
    (fun g l _ => wpair i.dst (f (g.srcD l i.a) (g.srcD l i.b))) s
/-- A special function of one operand; `free` draws within 1 ulp. -/
def f32Op1 (i : Ins) (free : Bool) (f : DWord → Word → Word) (s : State) : Out :=
  alu i { srcs := [(i.a, false)], dst := i.dst } true free (fun g l x => [(i.dst, f x (g.src l i.a))]) s

def execF32Add (i : Ins) (rnd : Rnd) (s : State) : Out := f32Op2 i (arithRnd rnd) (fun a b => enc32 rnd (fAdd rnd (dec32 a) (dec32 b))) s
def execF32Mul (i : Ins) (rnd : Rnd) (s : State) : Out := f32Op2 i (arithRnd rnd) (fun a b => enc32 rnd (fMul (dec32 a) (dec32 b))) s
/-- One rounding of the exact product plus the third operand. -/
def execF32Mac (i : Ins) (rnd : Rnd) (s : State) : Out :=
  alu i { srcs := [(i.a, false), (i.b, false), (i.c, false)], dst := i.dst, ok := arithRnd rnd } true false
    (fun g l _ => [(i.dst, enc32 rnd (fAdd rnd (fMul (dec32 (g.src l i.a)) (dec32 (g.src l i.b))) (dec32 (g.src l i.c))))]) s
def execF32Test (i : Ins) (cond : Cond) (s : State) : Out :=
  alu i { srcs := [(i.a, false), (i.b, false)], ok := predOk i.dst } true false
    (fun g l _ => wpredD g l i.dst (fCmp cond (dec32 (g.src l i.a)) (dec32 (g.src l i.b)))) s
def execF32Max (i : Ins) (prop : Bool) (s : State) : Out := f32Op2 i true (fun a b => enc32 .rne (fMaxMin true prop (dec32 a) (dec32 b))) s
def execF32Min (i : Ins) (prop : Bool) (s : State) : Out := f32Op2 i true (fun a b => enc32 .rne (fMaxMin false prop (dec32 a) (dec32 b))) s
def execF32Recip (i : Ins) (s : State) : Out := f32Op1 i false (fun _ a => enc32 .rne (fRecip (dec32 a))) s
def execF32Rsqrt (i : Ins) (s : State) : Out := f32Op1 i false (fun _ a => enc32 .rne (fRsqrt (dec32 a))) s
def execF32Exp2 (i : Ins) (s : State) : Out := f32Op1 i true f32Exp2 s
def execF32Log2 (i : Ins) (s : State) : Out := f32Op1 i true f32Log2 s
def execF32Sin (i : Ins) (s : State) : Out := f32Op1 i true (f32Trig false) s
def execF32Cos (i : Ins) (s : State) : Out := f32Op1 i true (f32Trig true) s

def execF64Add (i : Ins) (rnd : Rnd) (s : State) : Out := f64Op2 i (arithRnd rnd) (fun a b => enc64 rnd (fAdd rnd (dec64 a) (dec64 b))) s
def execF64Mul (i : Ins) (rnd : Rnd) (s : State) : Out := f64Op2 i (arithRnd rnd) (fun a b => enc64 rnd (fMul (dec64 a) (dec64 b))) s
def execF64Mac (i : Ins) (rnd : Rnd) (s : State) : Out :=
  alu i { srcs := [(i.a, true), (i.b, true), (i.c, true)], dst := i.dst, dstWide := true, ok := arithRnd rnd } true false
    (fun g l _ => wpair i.dst (enc64 rnd (fAdd rnd (fMul (dec64 (g.srcD l i.a)) (dec64 (g.srcD l i.b))) (dec64 (g.srcD l i.c))))) s
def execF64Test (i : Ins) (cond : Cond) (s : State) : Out :=
  alu i { srcs := [(i.a, true), (i.b, true)], ok := predOk i.dst } true false
    (fun g l _ => wpredD g l i.dst (fCmp cond (dec64 (g.srcD l i.a)) (dec64 (g.srcD l i.b)))) s
def execF64Max (i : Ins) (prop : Bool) (s : State) : Out := f64Op2 i true (fun a b => enc64 .rne (fMaxMin true prop (dec64 a) (dec64 b))) s
def execF64Min (i : Ins) (prop : Bool) (s : State) : Out := f64Op2 i true (fun a b => enc64 .rne (fMaxMin false prop (dec64 a) (dec64 b))) s

/-- Formats of a vector conversion (R78). -/
def convFmt (c : Nat) : Bool := [1, 2, 3, 4, 5, 6, 8, 9, 0xA, 0xB, 0xC, 0xD, 0x10, 0x11, 0x12].contains c
/-- Modes of a conversion by its destination (R95). -/
def convRnd (dst : Nat) (r : Rnd) : Bool :=
  match r with
  | .rne | .rtz => true
  | .rup | .rdn => dst ≤ 4 || 0x10 ≤ dst
  | .sr => decide (5 ≤ dst) && decide (dst ≤ 0xD)
/-- CONV: element formats by their codes; the draw of SR is the thread's second operand. -/
def execConv (i : Ins) (src dst : Nat) (rnd : Rnd) (s : State) : Out :=
  let sw := src = 1
  let dw := dst = 1
  alu i { srcs := (i.a, sw) :: (if rnd = .sr then [(i.b, false)] else []), dst := i.dst, dstWide := dw, ok := convFmt src && convFmt dst && convRnd dst rnd } true true
    (fun g l free =>
      let x := if sw then (g.srcD l i.a).toNat else (g.src l i.a).toNat
      let r := (convTo dst rnd (g.src l i.b).toNat (decodeE src (x % 2 ^ widthOf src))).bits
      if dw then wpair i.dst (BitVec.ofNat 64 r) else [(i.dst, narrow (widthOf dst) r free)]) s

/-! ### Uniform instructions -/

/-- A uniform result. -/
def uniRes (i : Ins) (v : DWord) : Writes :=
  if i.dst = 255 then [] else if i.is64 then [(i.dst, v.setWidth 32), (i.dst + 1, BitVec.ofNat 32 (v.toNat / 2 ^ 32))] else [(i.dst, v.setWidth 32)]
def uniShape (i : Ins) (srcs : List (Src × Bool)) : Shape :=
  { srcs := srcs, unis := if i.dst = 255 then [] else [(i.dst, i.is64)] }

def execUniAdd (i : Ins) (s : State) : Out :=
  aluU i (uniShape i [(i.a, i.is64), (i.b, i.is64)]) (fun _ v => uniRes i (v i.a + v i.b)) s
def execUniMov (i : Ins) (s : State) : Out := aluU i (uniShape i [(i.a, i.is64)]) (fun _ v => uniRes i (v i.a)) s
/-- A left shift; a 64-bit shift takes bits [5:0] of its count, and a 32-bit one by 32 or more is free. -/
def execUniShl (i : Ins) (s : State) : Out :=
  let free := s.draw
  aluU i (uniShape i [(i.a, i.is64), (i.b, false)]) (fun _ v =>
    let n := (v i.b).toNat % 2 ^ 32
    uniRes i (if i.is64 then v i.a <<< (n % 64) else if 32 ≤ n then free else v i.a <<< n)) s.drawn
/-- UNI.LDL: four bytes of the group's local store at an aligned offset inside its allocation (R160). -/
def execUniLdl (i : Ins) (s : State) : Out :=
  match begin_ i (uniShape i [(i.a, false)]) s with
  | .no => .next s
  | .bad s => .next s
  | .go x s =>
    let free := s.draw
    let s := if (srcRegs (i.a, false)).isEmpty then s else s.drawn
    let o := (uniSrc x.g free i.a).toNat % 2 ^ 32
    if x.part.isEmpty then .next (finish i x (fun _ => []) [] (after i) s)
    else if o % 4 != 0 || decide (x.g.lsSize < o + 4) then .next (illegal i x 3 s)
    else .next (finish i x (fun _ => []) (if i.dst = 255 then [] else [(i.dst, BitVec.ofNat 32 (leNat (readTbl x.g.ls o 4)))]) (after i) s)

end Sys2Proof.Machine
end

