-- ==== Sys2Proof/Machine/IntOps.lean ====
section
/-! DEFINITION. Integer instructions (R174, R426). -/
namespace Sys2Proof.Machine

/-- Two sources and a destination of the instruction's width. -/
def intShape (i : Ins) : Shape := { srcs := [(i.a, i.is64), (i.b, i.is64)], dst := i.dst, dstWide := i.is64 }
/-- A 32-bit or 64-bit operation on two operands. -/
def int2 (i : Ins) (f : Nat → Nat → Nat) (s : State) : Out :=
  alu i (intShape i) true false (fun g l _ =>
    if i.is64 then wpair i.dst (BitVec.ofNat 64 (f (g.srcD l i.a).toNat (g.srcD l i.b).toNat))
    else [(i.dst, BitVec.ofNat 32 (f (g.src l i.a).toNat (g.src l i.b).toNat))]) s
/-- A logical shift. A 64-bit shift takes bits [5:0] of its 32-bit count; the spec states no result of a 32-bit
shift by 32 or more, which is free. -/
def intShift (i : Ins) (left : Bool) (s : State) : Out :=
  alu i { srcs := [(i.a, i.is64), (i.b, false)], dst := i.dst, dstWide := i.is64 } true true (fun g l free =>
    let n := (g.src l i.b).toNat
    if i.is64 then
      let v := g.srcD l i.a
      wpair i.dst (if left then v <<< (n % 64) else v >>> (n % 64))
    else
      let v := g.src l i.a
      [(i.dst, if 32 ≤ n then free.setWidth 32 else if left then v <<< n else v >>> n)]) s

def execIntAdd (i : Ins) (s : State) : Out := int2 i (fun a b => a + b) s
def execIntSub (i : Ins) (s : State) : Out := int2 i (fun a b => a + 2 ^ 64 - b) s
def execIntAnd (i : Ins) (s : State) : Out := int2 i (fun a b => a &&& b) s
def execIntOr (i : Ins) (s : State) : Out := int2 i (fun a b => a ||| b) s
def execIntXor (i : Ins) (s : State) : Out := int2 i (fun a b => a ^^^ b) s
def execIntShl (i : Ins) (s : State) : Out := intShift i true s
def execIntShr (i : Ins) (s : State) : Out := intShift i false s

/-- INT.TEST writes a predicate; integers compare signed and have no unordered pair. -/
def execIntTest (i : Ins) (cond : Cond) (s : State) : Out :=
  alu i { srcs := [(i.a, i.is64), (i.b, i.is64)], ok := predOk i.dst && cond != .un } true false (fun g l _ =>
    wpredD g l i.dst (if i.is64 then intCmp 64 cond (g.srcD l i.a).toNat (g.srcD l i.b).toNat
      else intCmp 32 cond (g.src l i.a).toNat (g.src l i.b).toNat)) s

def execIntMul (i : Ins) (s : State) : Out :=
  alu i { srcs := [(i.a, false), (i.b, false)], dst := i.dst } true false (fun g l _ => [(i.dst, g.src l i.a * g.src l i.b)]) s
def execIntMac (i : Ins) (s : State) : Out :=
  alu i { srcs := [(i.a, false), (i.b, false), (i.c, false)], dst := i.dst } true false
    (fun g l _ => [(i.dst, g.src l i.a * g.src l i.b + g.src l i.c)]) s

/-- The 64-bit product of two 32-bit operands. -/
def wideMul (signed : Bool) (a b : Word) : DWord := if signed then a.signExtend 64 * b.signExtend 64 else a.setWidth 64 * b.setWidth 64
def execIntMulWide (i : Ins) (signed : Bool) (s : State) : Out :=
  alu i { srcs := [(i.a, false), (i.b, false)], dst := i.dst, dstWide := true } true false
    (fun g l _ => wpair i.dst (wideMul signed (g.src l i.a) (g.src l i.b))) s
def execIntMacWide (i : Ins) (signed : Bool) (s : State) : Out :=
  alu i { srcs := [(i.a, false), (i.b, false), (i.c, true)], dst := i.dst, dstWide := true } true false
    (fun g l _ => wpair i.dst (wideMul signed (g.src l i.a) (g.src l i.b) + g.srcD l i.c)) s

end Sys2Proof.Machine
end

