-- ==== Sys2Proof/Machine/MemEvents.lean ====
section
/-! DEFINITION. The memory side by itself: requests at their home, fills and writebacks, unanswered homes, conversions,
scrubbing and spares (R188 to R199, R206 to R215, R234 to R239, R266). -/
namespace Sys2Proof.Machine

/-! ### Errors on read (R206 R211 R214) -/

/-- What holds a granule: a CACHE way, clean or dirty, a PINNED way, or HBM. -/
inductive Store where | clean | dirty | pinned | hbm | none_
  deriving DecidableEq, Repr, Inhabited

def storeOf (s : State) (a : Nat) (stack : Bool) : Store :=
  match zoneOf a with
  | .hbm _ =>
    if stack then .hbm
    else match (s.slice (homeSlice a)).hit (lineOf a) with
      | some t => if t.dirty then .dirty else .clean
      | none => match (s.slice (homeSlice a)).victim (lineOf a) with | some _ => .none_ | none => .hbm
  | .pinned _ => if stack then .none_ else .pinned
  | _ => .none_

/-- Segment of a slice that holds a line's way: four banks of 32 segments of 1 MiB. -/
def segOf (s : State) (a : Nat) : Nat :=
  let way := match zoneOf a with
    | .pinned _ => pinWay a
    | _ => match (s.slice (homeSlice a)).hit (lineOf a) with | some t => t.way | none => 0
  setOf a % 4 * 32 + way * 2 + setOf a / 32768
/-- Frame of a stack. -/
def frameOf (s : State) (a : Nat) : Nat := (stackAt s a).2 / 65536

/-- A corrected error enters its unit's window; a position seen before, or the sixteenth error, is a trigger. -/
def noteErr (window now pos : Nat) (l : List (Nat × Nat)) : List (Nat × Nat) × Bool :=
  let l := l.filter fun x => decide (now < x.2 + window)
  (l ++ [(pos, now)], l.any (·.1 = pos) || decide (16 ≤ l.length + 1))
def hours (n : Nat) : Nat := n * 3600000000000
def addDue (n : Nat) (b : Bool) (l : List Nat) : List Nat := if b && !l.contains n then l ++ [n] else l

def tierCorrected (k seg a pos : Nat) (s : State) : State :=
  let s := s.onSlice k fun x =>
    let r := noteErr (hours 6) s.now pos (x.errs.get seg)
    { x with corrected := x.corrected.raise, errs := x.errs.put seg r.1, due := addDue seg r.2 x.due }
  errAdd (sliceRec k clTier sevCorrected a) s
def hbmCorrected (h a pos : Nat) (s : State) : State :=
  let f := frameOf s a
  let s := s.onStack h fun x =>
    let r := noteErr (hours 24) s.now pos (x.errs.get f)
    { x with corrected := x.corrected.raise, errs := x.errs.put f r.1, due := addDue f r.2 x.due }
  errAdd (stackRec s.variant h clHbm sevCorrected a) s

/-- An error met by a read or a scrub of the granule at `a`. -/
def readError (a : Nat) (stack scrub : Bool) (err : ScrubErr) (s : State) : State :=
  let k := homeSlice a
  let h := (stackAt s a).1
  match storeOf s a stack, err with
  | .none_, _ | _, .none_ => s
  | .hbm, .correctable p => hbmCorrected h a p s
  | .hbm, .uncorrectable =>
    let s := (s.onTier fun t => { t with hpoison := t.hpoison.put (a / 64) true }).onStack h fun x =>
      { x with poisoned := x.poisoned.raise, due := addDue (frameOf s a) true x.due }
    errAdd (stackRec s.variant h clHbm sevContained a) s
  | _, .correctable p => tierCorrected k (segOf s a) a p s
  | .clean, .uncorrectable =>
    let seg := segOf s a
    let s := (tierDrop k (lineOf a) s).onSlice k fun x => { x with refetched := x.refetched.raise, due := addDue seg true x.due }
    let s := errAdd (sliceRec k clTier sevCorrected a) s
    if scrub then s else tierTouch (lineOf a) false false s
  | _, .uncorrectable =>
    let seg := segOf s a
    let s := (setPoison a true s).onSlice k fun x => { x with poisoned := x.poisoned.raise, due := addDue seg true x.due }
    errAdd (sliceRec k clTier sevContained a) s

def execPatrolScrub (pa : Nat) (stack : Bool) (err : ScrubErr) (s : State) : Out := .next (readError pa stack true err s)

/-! ### Requests at a home (R234 R238 R266) -/

/-- Answer codes of a home. -/
def ansData : Nat := 0
def ansPoison : Nat := 1
def ansDenied : Nat := 2
def ansRetry : Nat := 3
def ansWaits : Nat := 4
def homeAnswer (r : HomeReq) (status : Nat) (data : List Byte) (s : State) : State :=
  s.onTier fun t => { t with answers := t.answers ++ [{ pa := r.pa, agent := r.agent, status := status, data := data }] }

/-- Bytes of the request, within its line. -/
def reqLen (r : HomeReq) : Nat := min r.len (128 - r.pa % 128)
def homeData (r : HomeReq) (s : State) : State :=
  let b := s.rd r.pa (reqLen r)
  if (poisonOffs s r.pa (reqLen r)).isEmpty then homeAnswer r ansData b s else homeAnswer r ansPoison [] s

/-- A request whose checks have passed. A caching core of the die is named by `core`, a physical core + 1. Where the owner of
the line does not answer, or the slice makes the request wait, the answer says so and the requester repeats it. -/
def homeServe (r : HomeReq) (s : State) : State :=
  let line := lineOf r.pa
  let here := r.core != 0 && pDie (r.core - 1) = homeDie r.pa && decide (r.core ≤ 1152)
  let p := r.core - 1
  let s := readError r.pa false false r.err s
  let unheard (s : State) : State := homeAnswer r ansWaits [] (homeWait line r.agent s)
  let full := reqLen r = 128
  let silent := r.silent && (match carrierOf s line with | some q => !(here && q = p) | none => false)
  let after (a : L1Ans) (f : State → State) : State :=
    match a with | .done s => f s | .wait s => homeAnswer r ansWaits [] s | .silent => unheard s
  let bulk (wr : Bool) (f : State → State) : State :=
    match tierBegin line wr full s with | some s => homeAnswer r ansWaits [] s | none => f s
  match r.kind with
  | .read =>
    if silent then unheard s
    else if here then
      after (l1Fill p line s) fun s =>
        let (b, po, s) := l1Bytes p line (r.pa % 128) (reqLen r) s; if po then homeAnswer r ansPoison [] s else homeAnswer r ansData b s
    else after (l1Recall line false false false s) fun s => homeData r (tierTouch line false false s)
  | .own =>
    if silent then unheard s
    else if here then after (l1Own p line s) fun s => homeAnswer r ansData ((s.core p).l1.get line).data s
    else after (l1Recall line true false false s) fun s => homeData r (tierTouch line false false s)
  | .write =>
    if silent then unheard s
    else after (l1Recall line true true full s) fun s =>
      let (s, met) := homeWrite line (withOffsets (r.pa % 128) (padTo (reqLen r) r.data)) [] (killRsv line true true none s)
      homeAnswer r (if met then ansPoison else ansData) [] s
  | .bulkRead => bulk false fun s => homeData r (tierTouch line false false s)
  | .bulkWrite => bulk true fun s =>
    let (s, met) := bulkWriteLine line (withOffsets (r.pa % 128) (padTo (reqLen r) r.data)) [] s
    homeAnswer r (if met then ansPoison else ansData) [] s

def execHomeRequest (r : HomeReq) (s : State) : Out :=
  let (a, s) := match r.remote with
    | some (dev, c) => remoteAdmit dev c r.gen r.pa s
    | none => (mayEnter s r.ctx r.gen r.mgmt r.pa, s)
  match zoneOf r.pa with
  | .hbm _ | .pinned _ =>
    (match a with
     | .stale => .next s
     | .retry => .next (homeAnswer r ansRetry [] s)
     | .denied => .next (homeAnswer r ansDenied [] (denyRec r.ctx r.gen r.pa s))
     | .ok => .next (if fencedAt s r.pa then homeAnswer r ansPoison [] (fencedRec r.pa s) else homeServe r s))
  | _ => .next (homeAnswer r ansDenied [] (denyRec r.ctx r.gen r.pa s))

/-! ### Fills and writebacks (R190 R193 R239) -/

def execTierFillComplete (die slice bank : Nat) (s : State) : Out := .next (bankFill (64 * die + slice) bank s)

/-- The oldest dirty entry of the victim buffer leaves for HBM. -/
def execVictimWritebackSend (die slice : Nat) (s : State) : Out :=
  let k := 64 * die + slice
  match (s.slice k).victims.find? fun v => v.dirty && !v.flight with
  | some v => .next (s.onSlice k fun x => { x with victims := x.victims.map fun y => if y = v then { y with flight := true } else y })
  | none => .next s

/-- HBM acknowledges the oldest writeback: its entry is free for a fill that waits for one, then for a walk (R193 R196). -/
def execVictimWritebackAck (die slice : Nat) (s : State) : Out :=
  let k := 64 * die + slice
  match (s.slice k).victims.find? (·.flight) with
  | some v => .next (convWalk k (fillRetry k (hbmWriteBack v.addr v.poison (dropVictim k v.addr s))))
  | none => .next s

def execL1Writeback (p line : Nat) (s : State) : Out :=
  .next (if mute s p (lineOf line) || asleep s p || s.pwr.state = .fatal then s else l1WriteBack p (lineOf line) s)

/-! ### A home that is not answered (R235 R236 R392) -/

/-- POISON mode: the line is poisoned, the waiting requests are answered with poison, the silent L1 loses its copy and
its core is handled as a core fault. -/
def homePoison (line : Nat) (ws : List (Nat × Nat × Nat)) (s : State) : State :=
  let owner := carrierOf s line
  let s := (List.range 16).foldl (fun s i => setPoison (line + 8 * i) true s) s
  let s := ws.foldl (fun s w => homeAnswer { pa := line, agent := w.2.1 } ansPoison [] s) s
  let s := s.onTier fun t => { t with waits := t.waits.filter (·.1 != line) }
  let rec_ := { (sliceRec (homeSlice line) clCoherence sevContained line) with synd := match owner with | some p => p + 1 | none => 0 }
  let s := errAdd rec_ s
  match owner with
  | some p => coreFault p true (setOwned line (s.onCore p fun c => { c with l1 := c.l1.put line {} }))
  | none => s

def execHomeAnswerTimeout (line : Nat) (s : State) : Out :=
  let line := lineOf line
  let ws := s.tier.waits.filter (·.1 = line)
  if ws.any fun w => decide (w.2.2 + 20000 ≤ s.now) then .next (if s.tier.down then domainStop (homeDie line) s else homePoison line ws s)
  else .next s

/-- Lines of a die that an L1 owned at the stop are poisoned; its L1s and store buffers start empty. -/
def dieRejoin (d : Nat) (s : State) : State :=
  let owned := s.tier.owned.filter fun (a, _) => homeDie a = d
  let s := owned.foldl (fun s (a, _) => (List.range 16).foldl (fun s i => setPoison (a + 8 * i) true s) s) s
  let s := s.onTier fun t => { t with owned := t.owned.filter fun (a, _) => homeDie a != d, waits := t.waits.filter fun w => homeDie w.1 != d }
  let s := forAll ((List.range 144).map (144 * d + ·)) (fun p s => s.onCore p fun c => { c with l1 := [], sb := [], pred := [], rcache := [] }) s
  let s := s.onDom d fun x => { x with stopped := false, fails := 0, ugen := x.ugen + 1 }
  errAdd { (plowinRec s clDie sevContained) with die := d, unit := d } s

def execDieRestartComplete (die : Nat) (ok : Bool) (s : State) : Out :=
  let x := s.tier.dies.get die
  if 8 ≤ die || !x.stopped then .next s
  else if ok then .next (dieRejoin die s)
  else
    let s := s.onDom die fun x => { x with fails := x.fails + 1 }
    .next (if 2 ≤ x.fails + 1 then dieFence die s else s)

/-! ### Conversions (R195 to R198) -/

/-- Bytes of the pinned window that a way of a slice backs. -/
def wayBase (k w : Nat) : Nat := pinBase (k / 64) + k % 64 * 0x8000000 + (15 - w) * 0x800000
def clearWay (k w : Nat) (s : State) : State :=
  (s.onMem fun t => t.splice (wayBase k w) 0x800000 []).onTier fun t => { t with ppoison := t.ppoison.splice (wayBase k w / 8) 0x100000 [] }

/-- A slice has converted: ways that become PINNED are zero, and every way of it is as its target says (R195 R196). The
response is sent once every slice of the request has converted, and conversions that waited begin. -/
def convEnd (k np : Nat) (s : State) : State :=
  let ways := (List.range 16).filter fun w => bit16 (newPinned np) w != bit16 (s.slice k).pinned w
  let s := ways.foldl (fun s w => clearWay k w s) s
  let s := s.onSlice k fun x => { x with pinned := newPinned np, off := newOff np, conv := 0, target := none }
  let s := s.onTier fun t => { t with convs := t.convs.map fun c => { c with left := c.left.erase k } }
  let ready := s.tier.convs.filter fun c => c.on && c.left.isEmpty
  let s := s.onTier fun t => { t with convs := t.convs.filter fun c => !(c.on && c.left.isEmpty) }
  convStart (ready.foldl (fun s c => pmiAnswer c.h 0x0014 pOk 0 [] s) s)

/-- The walk goes on; once it is over and its writebacks are acknowledged, the slice has converted. -/
def execTierConversionComplete (die slice : Nat) (s : State) : Out :=
  let k := 64 * die + slice
  match (s.slice k).target with
  | some np => let s := convWalk k s; .next (if convDone s k then convEnd k np s else s)
  | none => .next s

/-! ### Remaps and retirements (R212 to R215) -/

/-- Spare segments of a slice pair in use: those of both slices, and those that a segment is moving to. -/
def sparesUsed (s : State) (k : Nat) : List Nat :=
  [k / 2 * 2, k / 2 * 2 + 1].flatMap fun j =>
    ((s.slice j).segs.map fun (g, n) => if 128 ≤ g then g - 128 else n - 1) ++ ((s.slice j).moving.map (·.2)).toList
def spareFree (s : State) (k : Nat) : Option Nat := (List.range 32).find? fun n => !(sparesUsed s k).contains n

/-- A trigger with no spare left withdraws the unit from new mappings. -/
def execSegmentRemapStart (u : SpareUnit) (s : State) : Out :=
  match u with
  | .segment d i seg =>
    let k := 64 * d + i
    let x := s.slice k
    if 8 ≤ d || 64 ≤ i || 128 ≤ seg || x.moving.isSome || !x.due.contains seg then .next s
    else match spareFree s k with
      | some n =>
        let t := s.onSlice k fun x => { x with moving := some (seg, n) }
        .next (if spareLeft t k = 0 then poolRec k d t else t)
      | none => .next (errAdd { (sliceRec k clSpare sevDegraded 0) with source := plowin s, flags := 0, synd := seg }
        (s.onSlice k fun x => { x with withdrawn := addNew x.withdrawn [seg], due := x.due.erase seg }))
  | .frame h f =>
    let x := s.tier.hbms.get h
    if nStacks s.variant ≤ h || 0xF0000 ≤ f || x.moving.isSome || !x.due.contains f then .next s
    else if x.retired < 65536 then
      let t := s.onStack h fun x => { x with moving := some f }
      .next (if x.retired = 65535 then poolRec h (stackDie s.variant h) t else t)
    else .next (errAdd { (stackRec s.variant h clSpare sevDegraded (stackAddr s h (65536 * f))) with source := plowin s }
      (s.onStack h fun x => { x with withdrawn := if x.withdrawn.contains f then x.withdrawn else x.withdrawn ++ [f], due := x.due.erase f }))

def execSegmentRemapComplete (u : SpareUnit) (s : State) : Out :=
  match u with
  | .segment d i seg =>
    let k := 64 * d + i
    match (s.slice k).moving with
    | none => .next s
    | some (g, n) =>
      if g != seg then .next s
      else
        let old := (s.slice k).segs.get seg
        let f (x : Slice) : Slice :=
          { x with segs := (if old = 0 then x.segs else x.segs.put (128 + (old - 1)) 1).put seg (n + 1), moving := none, due := x.due.erase seg,
                   errs := x.errs.put seg [], remapped := x.remapped.raise }
        .next (errAdd { (sliceRec k clTier sevCorrected 0) with flags := 0, synd := seg + 256 * n } (s.onSlice k f))
  | .frame h fr =>
    if (s.tier.hbms.get h).moving != some fr then .next s
    else
      let f (x : Stack) : Stack :=
        { x with frames := x.frames.put fr (x.retired + 1), retired := x.retired + 1, moving := none, due := x.due.erase fr, errs := x.errs.put fr [],
                 retiredF := x.retiredF.raise }
      .next (errAdd (stackRec s.variant h clHbm sevCorrected (stackAddr s h (65536 * fr))) (s.onStack h f))

end Sys2Proof.Machine
end

