-- ==== Sys2Proof/Machine/Spares.lean ====
section
/-! DEFINITION. Stand-in swaps, self-tests, watchdogs and units that restart (R381 to R392, R394). -/
namespace Sys2Proof.Machine

/-! ### Stand-in swaps (R384 R385) -/

/-- Plowin works. -/
def mgmtWorks (s : State) : Bool := s.mgmt.ready && s.pwr.state != .fatal

/-- A rotation swap begins with a stand-in that keeps R21; without one it waits. -/
def execRotationSwapStart (core : Nat) (s : State) : Out :=
  if 1024 ≤ core || !mgmtWorks s || (s.phys core).isNone || (s.mesh.swaps.get core).isSome then .next s
  else match chooseStandin s core false with
    | some q => .next (swapStart core q whyRotation s)
    | none => .next s

/-- The record of a core that failed a test: its syndrome is the time of the last passing one. -/
def testRec (s : State) (p : Nat) : ErrRec := { (coreRec s p clCore sevContained) with synd := (s.core p).lastPass }
/-- A core that fails a test is fenced. -/
def testFails (p : Nat) (s : State) : State :=
  poolWatch (pDie p) (fun s => s.onCore p fun c => { c with fenced := true, fencedByTest := true, testing := false }) (errAdd (testRec s p) s)

/-- A swap whose stand-in is lost takes another: one forced by a fault any, else the ID loses its core; a planned one
waits, and a requested test begins again. -/
def swapAgain (c why : Nat) (s : State) : State :=
  match chooseStandin s c (why = whyFault) with
  | some q => swapStart c q why s
  | none =>
    if why = whyFault then noStandin c ((s.phys c).getD 0) s
    else
      let s := s.onMesh fun m => { m with swaps := m.swaps.put c none }
      if why = whyTest then testKick (setHead (fun t => { t with cur := none }) s) else s

/-- The stand-in takes over nothing but the split: its core memory is zeroed. -/
def standinReady (p q : Nat) (s : State) : State :=
  let split := (s.core p).split
  s.onCore q fun c =>
    { c.noArray with split := split, sb := [], l1 := [], rcache := [] }

/-- The entry check ends. Passed, every resident group of the logical core is stopped. -/
def execStandinEntryCheckDone (core : Nat) (ok : Bool) (s : State) : Out :=
  match s.mesh.swaps.get core, s.phys core with
  | some (q, false, why), some p =>
    if !mgmtWorks s then .next s
    else
      let s := quadOn q s
      if !ok || (s.core q).fenced then .next (swapAgain core why (testFails q s))
      else
        let s := (standinReady p q s).onMesh fun m => { m with swaps := m.swaps.put core (some (q, true, why)) }
        .next (forAll (coreGroups s core) (fun k => requestStop k .swap) s)
  | _, _ => .next s

/-- Every resident group of the logical core is stopped: none is in a slot but those placed and not yet started. -/
def drained (s : State) (c : Nat) : Bool := (coreGroups s c).all fun k => (s.group k).stage = .starting

/-- A rotation swap counts for the cycle of its die. -/
def rotCount (c : Nat) (s : State) : State :=
  let d := lDie c
  let l := if (s.mesh.rotSeen.get d).contains c then s.mesh.rotSeen.get d else s.mesh.rotSeen.get d ++ [c]
  let whole := (lCores d).all fun x => l.contains x || (s.phys x).isNone
  s.onMesh fun m =>
    { m with rotSeen := m.rotSeen.put d (if whole then [] else l), rotDone := if whole then m.rotDone.put d s.now else m.rotDone }

/-- After the drain and the write-back, the ID, its counters and its ring stop move. The outgoing core goes to its test,
or stays fenced. -/
def execStandinIdentityMove (core : Nat) (s : State) : Out :=
  match s.mesh.swaps.get core, s.phys core with
  | some (q, true, why), some p =>
    if !mgmtWorks s || !drained s core then .next s
    else if (s.core q).fenced || (why != whyFault && !keepsR21 s.mesh core q) then .next (swapAgain core why s)
    else
      let (s, empty) := sbDrainTo p (fun _ => true) (s.core p).sb.length s
      if !empty then .next s
      else
        let s := l1Invalidate p (l1Flush p s)
        let s := poolWatch (lDie core) (mapSet core (some q)) (s.onMesh fun m => { m with swaps := m.swaps.put core none })
        let s := s.onXl fun y => { y with micro := y.micro.put core [] }
        if why = whyFault then .next s
        else
          let s := s.onCore p fun c => { c with testing := true }
          .next (if why = whyRotation then rotCount core s else s)
  | _, _ => .next s

/-! ### Self-tests (R383 R385 R387) -/

/-- The test of an outgoing core, or of a stand-in in place, ends: the core is in the pool, or fenced. -/
def execCoreSelfTestDone (p : Nat) (ok : Bool) (s : State) : Out :=
  let c := s.core p
  let pool := (logOf s.mesh p).isNone && !(chosen s).contains p
  if 1152 ≤ p || c.fenced || !pool || !mgmtWorks s then .next s
  else
    let s := quadOn p s
    let s := if ok then s.onCore p fun c => { c with testing := false, lastPass := s.now } else testFails p s
    .next (testStep p ok s)

/-- The ID, of those given, at which a core is nearest to its neighbours, the lower ID among equals. -/
def nearestId (s : State) (p : Nat) : List Nat → Option Nat
  | [] => none
  | c :: t => match nearestId s p t with
    | none => some c
    | some e => if worstHop s.mesh c p ≤ worstHop s.mesh e p then some c else some e
/-- The ID without a physical core that a returned core of its die is placed behind (R383). DESIGN CHOICE
(notes/assumptions/59.md): R22 and R383 do not say which of several; the lowest at which the core keeps R21, else, as in the
swap that the ID's fault forced (R384), the one with the smallest largest distance. -/
def lostId (s : State) (p : Nat) : Option Nat :=
  let lost := (lCores (pDie p)).filter fun c => (s.phys c).isNone
  match lost.find? fun c => keepsR21 s.mesh c p with
  | some c => some c
  | none => nearestId s p lost

/-- A fenced core is tested in place: one whose fence did not come from a failed test, or on request. Passed, it returns
to the pool, or behind an ID that has no core. -/
def execFencedCoreRetest (p : Nat) (ok : Bool) (s : State) : Out :=
  let c := s.core p
  if 1152 ≤ p || !c.fenced || (c.fencedByTest && !c.testing) || (s.tier.dies.get (pDie p)).fenced || !mgmtWorks s || (logOf s.mesh p).isSome then .next s
  else
    let s := quadOn p s
    if !ok then .next (testStep p false (testFails p s))
    else
      let s := s.onCore p fun c => { c.noArray with fenced := false, fencedByTest := false, testing := false, lastPass := s.now, sb := [], l1 := [] }
      let s := match lostId s p with
        | some l => mapSet l (some p) s
        | none => s
      .next (testStep p true s)

/-! ### Watchdogs (R381 R392 R394) -/

/-- A core, or a whole die, has not answered for 1 ms. -/
def execCoreWatchdogTimeout (die : Nat) (p : Option Nat) (s : State) : Out :=
  if 8 ≤ die || (s.tier.dies.get die).fenced || (s.tier.dies.get die).stopped || s.pwr.state = .fatal then .next s
  else match p with
    | some p => .next (if pDie p != die || (s.core p).fenced then s else coreFault p true (errAdd (coreRec s p clCore sevContained) s))
    | none => .next (domainStop die s)

/-- The management cores in service. -/
def mgmtIn (s : State) : List Nat := (List.range 3).filter fun i => (s.mgmt.cores.get i).ok
/-- Roles of the cores that are left: `a` is active. -/
def rolesFor (a : Nat) (s : State) : State :=
  match (mgmtIn s).filter (· != a) with
  | [] => s.onMgmt fun m => { m with active := a }
  | b :: t => s.onMgmt fun m => { m with active := a, standby := b, target := t.headD b }

/-- A management core goes out of service. The active one is followed by the former active core while a switch-over awaits
its commit, else by the standby; without any the device is FATAL. -/
def execMgmtWatchdogTimeout (m : Nat) (s : State) : Out :=
  if 3 ≤ m || !(s.mgmt.cores.get m).ok || !s.mgmt.running || s.pwr.state = .fatal then .next s
  else
    let y := s.mgmt
    let s := s.onMgmt fun y => { y with cores := y.cores.upd m fun c => { c with ok := false, newFw := false }, staged := y.staged && y.target != m }
    match mgmtIn s with
    | [] => .next (fatalEnter { source := srcMgmt m, cls := clMgmt, sev := sevFatal, unit := m, die := 0x20 } s)
    | b :: t =>
      let back := m = y.active && y.commitAt.isSome
      let a := if m != y.active then y.active
        else match (if back then y.formerActive else none) with
          | some f => if (s.mgmt.cores.get f).ok then f else b
          | none => if (s.mgmt.cores.get y.standby).ok then y.standby else b
      let s := rolesFor a s
      let s := s.onMgmt fun y =>
        { y with commitAt := if back then none else y.commitAt
                 formerActive := if back || y.formerActive = some m then none else y.formerActive
                 staged := y.staged && !back }
      .next (errAdd { source := srcMgmt a, cls := clMgmt, sev := if t.isEmpty then sevDegraded else sevContained, unit := m, die := 0x20 } s)

/-! ### Units that restart alone (R388 R391) -/

/-- An engine restarts after an internal error: its proxy holds its work, and unfinished items of started packets fail.
Numbers 32 to 39 name the data path of I/O die 0 to 7, whose submissions are held. -/
def execEngineInternalError (eng : Nat) (s : State) : Out :=
  if eng < 32 then
    if !engineRuns s eng then .next s
    else
      let s := (engineFail eng s).onEngine eng fun e => { e with out := true }
      .next (errAdd { source := engSrc eng, cls := clEngine, sev := sevContained, unit := eng, die := if eng < 24 then engDie s.variant eng else 0x10 + (eng - 24) } s)
  else
    let x := eng - 32
    if nIo s.variant ≤ x || (s.fab.ios.get x).out || s.pwr.state = .fatal then .next s
    else .next (errAdd { source := srcLeng x, cls := clFabric, sev := sevContained, unit := x, die := 0x10 + x } (s.onIo x fun i => { i with out := true }))

def execHbmRetrain (h : Nat) (s : State) : Out :=
  .next (if nStacks s.variant ≤ h || !(s.tier.hbms.get h).trained then s else s.onStack h fun x => { x with out := true })

/-- The engine waits for the end of its die's microcode pause. -/
def ucPause (s : State) (e : Nat) : Bool := match s.mgmt.ucDies with | d :: _ => (dieEngines d).contains e | [] => false
/-- A unit takes over from its proxy; its generation rises. -/
def execUnitRestartComplete (u : Unit_) (s : State) : Out :=
  match u with
  | .engine e =>
    if 32 ≤ e || !(s.engines.get e).out || ucPause s e || (s.tier.dies.get (engDie s.variant e)).fenced then .next s
    else .next (s.onEngine e fun x => { x with out := false, ugen := x.ugen + 1 })
  | .ioDie x =>
    if nIo s.variant ≤ x || !(s.fab.ios.get x).out || (s.tier.dies.get (ioOwner s.variant x)).fenced then .next s
    else .next ((s.onIo x fun i => { i with out := false, ugen := i.ugen + 1 }).onEngine (24 + x) fun e => { e with out := false, ugen := e.ugen + 1 })
  | .hbm h => .next (if (s.tier.hbms.get h).out then s.onStack h fun x => { x with out := false, ugen := x.ugen + 1 } else s)

end Sys2Proof.Machine
end

