-- ==== Sys2Proof/Machine/Supply.lean ====
section
/-! DEFINITION. Supplies, straps, the power-up sequence, protection stops, reference clocks, sideband management (ch. 17,
R361, R382). -/
namespace Sys2Proof.Machine

/-! ### Power-up (R404 R410 to R413) -/

/-- What is kept without any supply: what flash records (spares used, remaps, retirements, the boot selection, the minimum
security version, cores out of service), host memory, and the state of inputs. -/
def powerOn (mpos : BitVec 16) (smb : BitVec 2) (s : State) : State :=
  { (default : State) with
    pending := s.pending, freeN := s.freeN, variant := s.variant, msix := s.msix, wire := s.wire, lastRead := s.lastRead
    mem := s.mem.filter fun x => hostBase ≤ x.1
    cores := s.cores.mapAll fun c => { Core.kept c with lastPass := 0 }
    tier := { slices := s.tier.slices.mapAll Slice.kept, hbms := s.tier.hbms.mapAll Stack.kept }
    mgmt := { bootSlot := s.mgmt.bootSlot, minVer := s.mgmt.minVer, cores := s.mgmt.cores.mapAll fun c => { c with newFw := false } }
    pwr := { straps := mpos, smbAddr := smb, v48 := s.pwr.v48, reqCap := tdp s.variant, boardCap := tdp s.variant, cap := tdp s.variant, vrSpare := s.pwr.vrSpare }
    tsc := { ref := s.tsc.ref }
    fab := { devId := mpos, ios := s.fab.ios.mapAll fun x => { refclk := x.refclk } } }

def execPower12vApply (mpos : BitVec 16) (smb : BitVec 2) (s : State) : Out := .next (if s.pwr.aux then s else powerOn mpos smb s)

/-- The boot ROM takes the selected image, or the other one; Plowin starts on the lowest management core in service. With
no good image the switch stays open and FAULT_N is asserted. DESIGN CHOICE (notes/assumptions/61.md): the power manager
first sets TSC_STATUS.LOCKED here, where Plowin starts. -/
def execBootImageVerified (okA okB : Bool) (s : State) : Out :=
  if !s.pwr.aux || s.pwr.state != .boot || s.pwr.steps != 1 || s.mgmt.bothBad then .next s
  else
    let bad : Tbl Bool := Tbl.put (Tbl.put ([] : Tbl Bool) 0 (!okA)) 1 (!okB)
    let s := s.onMgmt fun m => { m with slotOk := bad }
    if !okA && !okB then .next ((s.onMgmt fun m => { m with bothBad := true }).onPwr fun p => { p with faultN := true })
    else
      let s := (s.onPwr fun p => { p with state := .standby, steps := 2 }).onTsc fun t => { t with locked := t.ref }
      match mgmtIn s with
      | [] => .next (fatalEnter { source := srcMgmt 0, cls := clMgmt, sev := sevFatal, die := 0x20 } s)
      | a :: _ => .next ((rolesFor a s).onMgmt fun m => { m with running := true })

/-- Steps 3 and 4: the input switch closes and the islands are brought up. The coherence mode is POISON at every
power-up (R237). -/
def mainUp (s : State) : State :=
  islandsUp ((s.onPwr fun p => { p with v48 := true, v48lost := none, sw := true }).onTier fun t => { t with down := false })
/-- 48 V is in its range. -/
def execMainSwitchClose (s : State) : Out :=
  .next (if s.mgmt.running && s.pwr.state = .standby && s.pwr.steps = 2 && s.pwr.mainOn then mainUp s else s)

/-- Step 5a: stacks that are not in the list failed twice. -/
def execHbmTrainingDone (ok : List Nat) (s : State) : Out :=
  if s.pwr.state != .starting || s.pwr.steps != 4 then .next s
  else
    let one (h : Nat) (s : State) : State :=
      if ok.contains h then s.onStack h fun x => { x with trained := true }
      else errAdd { (stackRec s.variant h clHbm sevDegraded 0) with flags := 0 } (s.onStack h fun x => { x with trained := false, failed := true })
    .next ((forAll (List.range (nStacks s.variant)) one s).onPwr fun p => { p with steps := 5 })

/-- Step 5b ends, with remaps, retirements and array spares in place as they are recorded; step 6 begins: the fabric
ports train. -/
def execTierSelfTestDone (s : State) : Out :=
  if s.pwr.state != .starting || s.pwr.steps != 5 then .next s
  else .next (forAll (List.range (nPorts s.variant)) portTrain (s.onPwr fun p => { p with steps := 6 }))

def execPerstDeassert (p : Nat) (s : State) : Out :=
  .next (if p < 2 && s.pwr.aux then s.onPwr fun w => { w with perst := w.perst.put p true } else s)

/-- Step 7: Plowin takes requests; pins follow. -/
def execReady (s : State) : Out :=
  if s.pwr.state != .starting || s.pwr.steps != 6 || !s.mgmt.running then .next s
  else
    let hot := (List.range 8).any fun d => (s.pwr.gov.get d).thermal
    let s := s.onPwr fun p =>
      { p with state := .ready, steps := 7, faultN := false, thermStop := false, thermN := hot, wakeN := if p.afterStop then p.wakeN + 1 else p.wakeN, afterStop := false }
    .next (rspFlush (errFlush ((s.onTsc fun t => { t with stepped := true }).onMgmt fun m => { m with ready := true })))

/-! ### Links come up (R360 R373 R376 R412) -/

/-- What was held for want of a link goes on: responses, error records, ring records and pending vectors of functions that
are not orphaned. -/
def hostBack (s : State) : State :=
  let attached (f : Nat) (s : State) : State :=
    if (s.fn f).orphan then s
    else
      let s := [RingId.fault, .park, .notify, .snap].foldl (fun s i => ringFlush f i s) s
      if (fnCtxs s f).any fun c => (s.ctx c).orphanedAt.isSome || (s.ctx c).noDeliver then s else raisePending f s
  forAll (List.range 64) attached (dumpStart (rspFlush (errFlush s)))

/-- A port's link is up: it trains from step 6 on, with PERSTp_N deasserted and the 100 MHz reference present. With the
other port down, or never having been down before, it takes its traffic at once (R360). -/
def execPcieLinkUp (p : Nat) (s : State) : Out :=
  let x := s.pcie.get p
  if 2 ≤ p || x.up || !s.pwr.perst.get p || s.pwr.steps < 6 || !s.pwr.islands || !s.tsc.ref || (s.tier.dies.get (ioOwner s.variant p)).fenced then .next s
  else
    let s := s.onPci p fun x => { x with up := true, upAt := s.now, downAt := none, serving := !(s.pcie.get (1 - p)).up || x.downAt.isNone }
    let s := s.onFns fun t => (List.range 64).foldl (fun t f => if (t.get f).orphan && !beatLost s f then t.upd f fun x => { x with orphan := false } else t) t
    .next (hostBack s)

/-! ### Power-down, stops and supply loss (R414 R415 R418 to R420) -/

/-- MAIN_POWER OFF: nothing survives in HBM or tier, and no record is written. -/
def execMainPowerOff (s : State) : Out :=
  if !s.mgmt.running then .next s
  else
    let s := s.onPwr fun p => { p with mainOn := false }
    .next (if s.pwr.sw then powerOff .standby s else s)

/-- Steps 3 to 7 begin; without 48 V they wait for it. -/
def mainStart (s : State) : State :=
  let s := s.onPwr fun p => { p with mainOn := true }
  if s.pwr.v48 then mainUp s else s.onPwr fun p => { p with state := .standby, steps := 2 }
def execMainPowerOn (s : State) : Out :=
  .next (if s.mgmt.running && (s.pwr.state = .standby || s.pwr.state = .protect) then mainStart s else s)

/-- Events 1 to 4 of R418: overtemperature, overcurrent, 48 V low or high. -/
def protect (event : Nat) (s : State) : State :=
  let s := errAdd { source := srcPower, cls := clPower, sev := sevFatal, die := 0x20, event := event } s
  let s := (powerOff .protect s).onPwr fun p =>
    { p with faultN := true, thermStop := p.thermStop || event = 1, thermN := p.thermStop || event = 1
             v48 := p.v48 && event != 3 && event != 4, v48lost := if event = 3 then some s.now else none }
  s.onErr fun e => { e with log := e.last.reverse }
def execProtectionStop (event : Nat) (s : State) : Out :=
  .next (if 1 ≤ event && event ≤ 4 && s.pwr.sw && s.pwr.aux then protect event s else s)

/-- 48 V returns after an absence of at least 1 s. -/
def execInput48vReturn (s : State) : Out :=
  let long := match s.pwr.v48lost with | some t => decide (t + 1000000000 ≤ s.now) | none => true
  if s.pwr.state != .protect || !long then .next s else .next (mainUp s)

/-- 12 V is lost, or the auxiliary overcurrent protection opens its input: the management domain and device time stop. -/
def execAuxSupplyLoss (s : State) : Out :=
  if !s.pwr.aux then .next s
  else
    let s := (powerOff .boot s).onPwr fun p => { p with aux := false, steps := 0, faultN := false, thermN := false, thermStop := false, smbAlert := false }
    .next ((s.onMgmt fun m => { m with running := false, ready := false }).onTsc fun t => { t with locked := false })

/-! ### Sideband (R405 to R407) -/

/-- A cap out of range is refused and changes nothing. -/
def execBoardCapWSet (w : Nat) (s : State) : Out :=
  .next (if s.pwr.aux && minCap ≤ w && w ≤ tdp s.variant then capFix (s.onPwr fun p => { p with boardCap := w }) else s)

/-- Recovery of the firmware after both images failed: the boot ROM verifies them again. -/
def execPldmFirmwareUpdate (s : State) : Out :=
  .next (if s.pwr.aux && s.pwr.state = .boot && s.mgmt.bothBad then s.onMgmt fun m => { m with bothBad := false, slotOk := [] } else s)

/-- What the TAP shifts out under IDCODE: stepping B0 (R407). -/
def idcode : Word := 0x2D6A0A51
def tapOut (s : State) : Option Word := if s.pwr.tap = 4 then some idcode else none
/-- Instruction in the TAP: test instructions act while the switch is open, else they are BYPASS. -/
def tapCode (open_ : Bool) : Tap → Nat
  | .idcode => 4
  | .extest => if open_ then 1 else 0
  | .intest => if open_ then 2 else 0
  | .acTest => if open_ then 3 else 0
  | .bypass | .undefined => 0
def execJtagInstruction (t : Tap) (s : State) : Out := .next (s.onPwr fun p => { p with tap := tapCode (!p.sw) t })

/-! ### Clocks and regulators (R382 R416) -/

def portsOf (io : Nat) : List Nat := (List.range 8).map (8 * io + ·)
def execFabricRefclkLoss (io : Nat) (s : State) : Out :=
  if nIo s.variant ≤ io then .next s else .next (forAll (portsOf io) portDown (s.onIo io fun x => { x with refclk := false }))
def execFabricRefclkReturn (io : Nat) (s : State) : Out :=
  if nIo s.variant ≤ io || (s.fab.ios.get io).refclk then .next s
  else
    let s := s.onIo io fun x => { x with refclk := true }
    .next (if s.pwr.steps < 6 then s else forAll (portsOf io) (fun i s => if (s.port i).st = .down then portTrain i s else s) s)

/-- A phase fails: the rail's spare takes over, or the cap is what the remaining phases carry. -/
def execVrPhaseFailure (rail carry : Nat) (s : State) : Out :=
  if !s.pwr.vrSpare.get rail then .next (s.onPwr fun p => { p with vrSpare := p.vrSpare.put rail true })
  else
    let s := capFix (s.onPwr fun p => { p with vrCap := some (min carry (p.vrCap.getD carry)) })
    .next (errAdd { source := srcPower, cls := clPower, sev := sevDegraded, die := 0x20 } s)

end Sys2Proof.Machine
end

