-- ==== Sys2Proof/Machine/SyncInstr.lean ====
section
/-! DEFINITION. Counter and fence operations of threads (R225, R272 to R276, R287). -/
namespace Sys2Proof.Machine

/-- One thread's operation: performed, waiting, dropped, or denied, which is answered. -/
def syncLane (i : Ins) (op rd : Nat) (x : Iss) (l : Nat) (s : State) : State × Bool :=
  let id := (x.g.src l i.a).toNat
  let w : Wait :=
    { who := .core, grp := x.g.ident, lanes := laneBit l, set := x.g.issues, fence := isFenceId id, id := id
      value := if op = 0x12 then 0 else x.g.srcD l i.b, ctx := x.g.ctx, gen := x.g.gen, src := x.p }
  let t := s.onGroup x.k fun g => g.onThread l fun t => { t with sync := some { dst := i.dst, rd := rd, set := x.g.issues } }
  match syncOp op w (x.g.src l i.c).toNat t with
  | (t, .fin code v) => (latchLane x.g.ident l code v t, false)
  | (t, .denied) => (t.onGroup x.k fun g => g.onThread l fun t => { t with sync := none }, true)
  | (t, _) => (t, false)

/-- Threads whose ID operand, or the operation on a fence, is illegal. -/
def badIds (i : Ins) (op : Nat) (x : Iss) : List Nat :=
  x.part.filter fun l => let id := (x.g.src l i.a).toNat; !idOk id || (isFenceId id && op != 0x12)

/-- The operations of the participating threads in ascending lane order, and the threads that were denied. -/
def syncLanes (i : Ins) (op rd : Nat) (x : Iss) (s : State) : State × List Nat :=
  x.part.foldl (init := (s, ([] : List Nat))) fun (s, bad) l =>
    let (s, d) := syncLane i op rd x l s
    (s, if d then bad ++ [l] else bad)

/-- A sync instruction: each participating thread performs its own operation, and the set waits for all results.
Threads whose operation is denied stay at the instruction, at which the group parks. -/
def syncInstr (i : Ins) (op rd : Nat) (s : State) : Out :=
  let srcs := [(i.a, false)] ++ (if op = 0x12 then [] else [(i.b, true)]) ++ (if op ≤ 3 then [] else [(i.c, false)])
  match beginDrained i { early := false, srcs := srcs, dst := i.dst } s with
  | .no => .next s
  | .bad s => .next s
  | .go x s =>
    if !vregOk x.g rd true then .next (illegal i x 2 s)
    else if !(badIds i op x).isEmpty then .next (issueFault i x cIllegal 1 (badIds i op x) 0 [] s)
    else
      let r := syncLanes i op rd x s
      let go_ := x.lanes.filter fun l => !r.2.contains l
      let s := r.1.onGroup x.k fun g => g.advance go_ (after i)
      .next (if r.2.isEmpty then s
        else faultGroup x.k { cause := cDenied, pc := i.pc, threads := maskOf r.2, setm := x.set_, lanes := maskOf r.2 } 0 s)

def execSyncAdd (i : Ins) (rd : Nat) (s : State) : Out := syncInstr i 0x01 rd s
def execSyncSub (i : Ins) (rd : Nat) (s : State) : Out := syncInstr i 0x02 rd s
def execSyncSet (i : Ins) (rd : Nat) (s : State) : Out := syncInstr i 0x03 rd s
def execSyncTrydec (i : Ins) (rd : Nat) (s : State) : Out := syncInstr i 0x04 rd s
def execSyncWaitGe (i : Ins) (rd : Nat) (s : State) : Out := syncInstr i 0x10 rd s
def execSyncWaitEq (i : Ins) (rd : Nat) (s : State) : Out := syncInstr i 0x11 rd s
def execSyncWaitNz (i : Ins) (rd : Nat) (s : State) : Out := syncInstr i 0x12 rd s

/-- Threads of a group at an address that wait for a counter operation. -/
def syncSet (g : Group) (pc : Nat) : List Nat := (g.setOfPc pc).filter fun l => (g.thread l).sync.isSome

/-- One thread receives its result code and the counter value. -/
def syncReceive (l : Nat) (g : Group) : Group :=
  match (g.thread l).sync with
  | none => g
  | some o =>
    let g := (([(o.dst, BitVec.ofNat 32 o.code)] ++ wpair o.rd o.value) : Writes).foldl (fun g w => g.put1 l w) g
    g.onThread l fun t => { t with sync := none }

/-- The results of a set reach its threads once the operation of every one of them is released, and its group runs (R276
R287); `pc` is where the set stands. -/
def execSyncResultReturn (core slot pc : Nat) (s : State) : Out :=
  let k := gKey core slot
  let g := s.group k
  let ls := syncSet g pc
  if s.idRuns core && g.stage = .running && ls.all fun l => match (g.thread l).sync with | some o => o.fin | none => true then
    .next (s.onGroup k fun g => ls.foldl (fun g l => syncReceive l g) g)
  else .next s

end Sys2Proof.Machine
end

