-- ==== Sys2Proof/Machine/Dispatch.lean ====
section
/-! DEFINITION. One arm per command. -/
namespace Sys2Proof.Machine
open Sys2Proof

def exec (i : Instr) (s : State) : Host.Outcome State Fault Refusal :=
  match i with
  | .mma ins g pf qf accT bank zero retake => Sys2Proof.Machine.execMma ins g pf qf accT bank zero retake s
  | .accRead ins bank row status => Sys2Proof.Machine.execAccRead ins bank row status s
  | .accClear ins banks release setN => Sys2Proof.Machine.execAccClear ins banks release setN s
  | .tseqStart ins => Sys2Proof.Machine.execTseqStart ins s
  | .tseqWait ins us ut => Sys2Proof.Machine.execTseqWait ins us ut s
  | .extentSet ins => Sys2Proof.Machine.execExtentSet ins s
  | .ldl ins size => Sys2Proof.Machine.execLdl ins size s
  | .stl ins size => Sys2Proof.Machine.execStl ins size s
  | .ld ins size => Sys2Proof.Machine.execLd ins size s
  | .st ins size => Sys2Proof.Machine.execSt ins size s
  | .ldRsv ins size => Sys2Proof.Machine.execLdRsv ins size s
  | .stCnd ins size => Sys2Proof.Machine.execStCnd ins size s
  | .atomAdd ins size place => Sys2Proof.Machine.execAtomAdd ins size place s
  | .atomSub ins size place => Sys2Proof.Machine.execAtomSub ins size place s
  | .atomAnd ins size place => Sys2Proof.Machine.execAtomAnd ins size place s
  | .atomOr ins size place => Sys2Proof.Machine.execAtomOr ins size place s
  | .atomXor ins size place => Sys2Proof.Machine.execAtomXor ins size place s
  | .atomMin ins size place signed => Sys2Proof.Machine.execAtomMin ins size place signed s
  | .atomMax ins size place signed => Sys2Proof.Machine.execAtomMax ins size place signed s
  | .atomExch ins size place => Sys2Proof.Machine.execAtomExch ins size place s
  | .atomCas ins size place => Sys2Proof.Machine.execAtomCas ins size place s
  | .atomFadd ins place => Sys2Proof.Machine.execAtomFadd ins place s
  | .fenceO ins => Sys2Proof.Machine.execFenceO ins s
  | .fenceC ins => Sys2Proof.Machine.execFenceC ins s
  | .fenceCInv ins => Sys2Proof.Machine.execFenceCInv ins s
  | .syncAdd ins rd => Sys2Proof.Machine.execSyncAdd ins rd s
  | .syncSub ins rd => Sys2Proof.Machine.execSyncSub ins rd s
  | .syncSet ins rd => Sys2Proof.Machine.execSyncSet ins rd s
  | .syncTrydec ins rd => Sys2Proof.Machine.execSyncTrydec ins rd s
  | .syncWaitGe ins rd => Sys2Proof.Machine.execSyncWaitGe ins rd s
  | .syncWaitEq ins rd => Sys2Proof.Machine.execSyncWaitEq ins rd s
  | .syncWaitNz ins rd => Sys2Proof.Machine.execSyncWaitNz ins rd s
  | .syncResultReturn core slot pc => Sys2Proof.Machine.execSyncResultReturn core slot pc s
  | .shflIdx ins => Sys2Proof.Machine.execShflIdx ins s
  | .shflUp ins => Sys2Proof.Machine.execShflUp ins s
  | .shflDown ins => Sys2Proof.Machine.execShflDown ins s
  | .shflXor ins => Sys2Proof.Machine.execShflXor ins s
  | .voteAll ins q => Sys2Proof.Machine.execVoteAll ins q s
  | .voteAny ins q => Sys2Proof.Machine.execVoteAny ins q s
  | .voteBallot ins q => Sys2Proof.Machine.execVoteBallot ins q s
  | .voteMatch ins => Sys2Proof.Machine.execVoteMatch ins s
  | .gsync ins mask => Sys2Proof.Machine.execGsync ins mask s
  | .bra ins target join => Sys2Proof.Machine.execBra ins target join s
  | .joinHoldExpire core slot addr => Sys2Proof.Machine.execJoinHoldExpire core slot addr s
  | .exit ins => Sys2Proof.Machine.execExit ins s
  | .cut ins idx => Sys2Proof.Machine.execCut ins idx s
  | .checkpointWriteComplete core slot => Sys2Proof.Machine.execCheckpointWriteComplete core slot s
  | .tscRead ins uni => Sys2Proof.Machine.execTscRead ins uni s
  | .intAdd ins => Sys2Proof.Machine.execIntAdd ins s
  | .intSub ins => Sys2Proof.Machine.execIntSub ins s
  | .intAnd ins => Sys2Proof.Machine.execIntAnd ins s
  | .intOr ins => Sys2Proof.Machine.execIntOr ins s
  | .intXor ins => Sys2Proof.Machine.execIntXor ins s
  | .intShl ins => Sys2Proof.Machine.execIntShl ins s
  | .intShr ins => Sys2Proof.Machine.execIntShr ins s
  | .intTest ins cond => Sys2Proof.Machine.execIntTest ins cond s
  | .intMul ins => Sys2Proof.Machine.execIntMul ins s
  | .intMac ins => Sys2Proof.Machine.execIntMac ins s
  | .intMulWide ins signed => Sys2Proof.Machine.execIntMulWide ins signed s
  | .intMacWide ins signed => Sys2Proof.Machine.execIntMacWide ins signed s
  | .f32Add ins rnd => Sys2Proof.Machine.execF32Add ins rnd s
  | .f32Mul ins rnd => Sys2Proof.Machine.execF32Mul ins rnd s
  | .f32Mac ins rnd => Sys2Proof.Machine.execF32Mac ins rnd s
  | .f32Test ins cond => Sys2Proof.Machine.execF32Test ins cond s
  | .f32Max ins prop => Sys2Proof.Machine.execF32Max ins prop s
  | .f32Min ins prop => Sys2Proof.Machine.execF32Min ins prop s
  | .f32Recip ins => Sys2Proof.Machine.execF32Recip ins s
  | .f32Rsqrt ins => Sys2Proof.Machine.execF32Rsqrt ins s
  | .f32Exp2 ins => Sys2Proof.Machine.execF32Exp2 ins s
  | .f32Log2 ins => Sys2Proof.Machine.execF32Log2 ins s
  | .f32Sin ins => Sys2Proof.Machine.execF32Sin ins s
  | .f32Cos ins => Sys2Proof.Machine.execF32Cos ins s
  | .f64Add ins rnd => Sys2Proof.Machine.execF64Add ins rnd s
  | .f64Mul ins rnd => Sys2Proof.Machine.execF64Mul ins rnd s
  | .f64Mac ins rnd => Sys2Proof.Machine.execF64Mac ins rnd s
  | .f64Test ins cond => Sys2Proof.Machine.execF64Test ins cond s
  | .f64Max ins prop => Sys2Proof.Machine.execF64Max ins prop s
  | .f64Min ins prop => Sys2Proof.Machine.execF64Min ins prop s
  | .conv ins src dst rnd => Sys2Proof.Machine.execConv ins src dst rnd s
  | .uniAdd ins => Sys2Proof.Machine.execUniAdd ins s
  | .uniMov ins => Sys2Proof.Machine.execUniMov ins s
  | .uniShl ins => Sys2Proof.Machine.execUniShl ins s
  | .uniLdl ins => Sys2Proof.Machine.execUniLdl ins s
  | .loadReply core slot id rejected => Sys2Proof.Machine.execLoadReply core slot id rejected s
  | .groupPark core slot => Sys2Proof.Machine.execGroupPark core slot s
  | .storeBufferDrain p => Sys2Proof.Machine.execStoreBufferDrain p s
  | .planeStep p check => Sys2Proof.Machine.execPlaneStep p check s
  | .spareSwitchDone p => Sys2Proof.Machine.execSpareSwitchDone p s
  | .kgroupUpdate p => Sys2Proof.Machine.execKgroupUpdate p s
  | .retakeRunStart p => Sys2Proof.Machine.execRetakeRunStart p s
  | .mmaRetire p => Sys2Proof.Machine.execMmaRetire p s
  | .tseqProgramStart p => Sys2Proof.Machine.execTseqProgramStart p s
  | .haloPlace p entry => Sys2Proof.Machine.execHaloPlace p entry s
  | .haloAck p entry => Sys2Proof.Machine.execHaloAck p entry s
  | .haloTimeout p entry => Sys2Proof.Machine.execHaloTimeout p entry s
  | .tseqFetchReturn p => Sys2Proof.Machine.execTseqFetchReturn p s
  | .detailFetchReturn p block => Sys2Proof.Machine.execDetailFetchReturn p block s
  | .tseqPassStart p => Sys2Proof.Machine.execTseqPassStart p s
  | .tseqStoreComplete p => Sys2Proof.Machine.execTseqStoreComplete p s
  | .tseqProgramComplete p => Sys2Proof.Machine.execTseqProgramComplete p s
  | .lmBinsMerge p => Sys2Proof.Machine.execLmBinsMerge p s
  | .clipTotalUpdate p => Sys2Proof.Machine.execClipTotalUpdate p s
  | .governorTick die tj load floor gated => Sys2Proof.Machine.execGovernorTick die tj load floor gated s
  | .budgetTick powerW maxTj budgets => Sys2Proof.Machine.execBudgetTick powerW maxTj budgets s
  | .capTakesEffect => Sys2Proof.Machine.execCapTakesEffect s
  | .quadIdleDrop die q => Sys2Proof.Machine.execQuadIdleDrop die q s
  | .quadWritebackDone die q => Sys2Proof.Machine.execQuadWritebackDone die q s
  | .quadRetentionReached die q => Sys2Proof.Machine.execQuadRetentionReached die q s
  | .budgetLend die q => Sys2Proof.Machine.execBudgetLend die q s
  | .quadWake die q => Sys2Proof.Machine.execQuadWake die q s
  | .quadWakeComplete die q => Sys2Proof.Machine.execQuadWakeComplete die q s
  | .budgetReturn die q => Sys2Proof.Machine.execBudgetReturn die q s
  | .tscTimeLowRead who => Sys2Proof.Machine.execTscTimeLowRead who s
  | .tscReferenceLoss => Sys2Proof.Machine.execTscReferenceLoss s
  | .tscReferenceReturn => Sys2Proof.Machine.execTscReferenceReturn s
  | .homeRequest r => Sys2Proof.Machine.execHomeRequest r s
  | .tierFillComplete die slice bank => Sys2Proof.Machine.execTierFillComplete die slice bank s
  | .victimWritebackSend die slice => Sys2Proof.Machine.execVictimWritebackSend die slice s
  | .victimWritebackAck die slice => Sys2Proof.Machine.execVictimWritebackAck die slice s
  | .l1Writeback p line => Sys2Proof.Machine.execL1Writeback p line s
  | .homeAnswerTimeout line => Sys2Proof.Machine.execHomeAnswerTimeout line s
  | .dieRestartComplete die ok => Sys2Proof.Machine.execDieRestartComplete die ok s
  | .tierConversionComplete die slice => Sys2Proof.Machine.execTierConversionComplete die slice s
  | .patrolScrub pa stack err => Sys2Proof.Machine.execPatrolScrub pa stack err s
  | .segmentRemapStart u => Sys2Proof.Machine.execSegmentRemapStart u s
  | .segmentRemapComplete u => Sys2Proof.Machine.execSegmentRemapComplete u s
  | .tlbMissWalkStart stream ctx va need => Sys2Proof.Machine.execTlbMissWalkStart stream ctx va need s
  | .pageWalkComplete stream => Sys2Proof.Machine.execPageWalkComplete stream s
  | .errFaultHeadWrite fn v => Sys2Proof.Machine.execErrFaultHeadWrite fn v s
  | .faultReplay fn ctx gen seq upto => Sys2Proof.Machine.execFaultReplay fn ctx gen seq upto s
  | .faultAbandon fn ctx gen seq upto => Sys2Proof.Machine.execFaultAbandon fn ctx gen seq upto s
  | .mappingChangeComplete id => Sys2Proof.Machine.execMappingChangeComplete id s
  | .counterOp o => Sys2Proof.Machine.execCounterOp o s
  | .waitRegisterDeferred die => Sys2Proof.Machine.execWaitRegisterDeferred die s
  | .waitTimeout n => Sys2Proof.Machine.execWaitTimeout n s
  | .doorbellAdd fn ctx d => Sys2Proof.Machine.execDoorbellAdd fn ctx d s
  | .doorbellSub fn ctx d => Sys2Proof.Machine.execDoorbellSub fn ctx d s
  | .doorbellSet fn ctx d => Sys2Proof.Machine.execDoorbellSet fn ctx d s
  | .watchGe fn ctx d => Sys2Proof.Machine.execWatchGe fn ctx d s
  | .watchEq fn ctx d => Sys2Proof.Machine.execWatchEq fn ctx d s
  | .watchNz fn ctx d => Sys2Proof.Machine.execWatchNz fn ctx d s
  | .doorbellFenceSignal fn ctx d => Sys2Proof.Machine.execDoorbellFenceSignal fn ctx d s
  | .fenceClear fn ctx d => Sys2Proof.Machine.execFenceClear fn ctx d s
  | .fenceArm fn ctx d => Sys2Proof.Machine.execFenceArm fn ctx d s
  | .qdoorTail fn eng q v => Sys2Proof.Machine.execQdoorTail fn eng q v s
  | .qdoorChead fn eng q v => Sys2Proof.Machine.execQdoorChead fn eng q v s
  | .ringEntryFetch eng q => Sys2Proof.Machine.execRingEntryFetch eng q s
  | .submissionHeadWrite eng q => Sys2Proof.Machine.execSubmissionHeadWrite eng q s
  | .nop eng q => Sys2Proof.Machine.execNop eng q s
  | .jump eng q => Sys2Proof.Machine.execJump eng q s
  | .marker eng q => Sys2Proof.Machine.execMarker eng q s
  | .timestamp eng q => Sys2Proof.Machine.execTimestamp eng q s
  | .signal eng q => Sys2Proof.Machine.execSignal eng q s
  | .wait eng q => Sys2Proof.Machine.execWait eng q s
  | .fenceSignal eng q => Sys2Proof.Machine.execFenceSignal eng q s
  | .launch eng q => Sys2Proof.Machine.execLaunch eng q s
  | .copy eng q rejected => Sys2Proof.Machine.execCopy eng q rejected s
  | .copy2d eng q rejected => Sys2Proof.Machine.execCopy2d eng q rejected s
  | .copy3d eng q rejected => Sys2Proof.Machine.execCopy3d eng q rejected s
  | .fill eng q => Sys2Proof.Machine.execFill eng q s
  | .remotePut eng q rejected => Sys2Proof.Machine.execRemotePut eng q rejected s
  | .remoteGet eng q => Sys2Proof.Machine.execRemoteGet eng q s
  | .remoteWait eng q => Sys2Proof.Machine.execRemoteWait eng q s
  | .packetComplete eng q => Sys2Proof.Machine.execPacketComplete eng q s
  | .groupPlace key => Sys2Proof.Machine.execGroupPlace key s
  | .groupStart core slot => Sys2Proof.Machine.execGroupStart core slot s
  | .launchComplete key => Sys2Proof.Machine.execLaunchComplete key s
  | .launchDeferralTick key => Sys2Proof.Machine.execLaunchDeferralTick key s
  | .slotGrant eng q => Sys2Proof.Machine.execSlotGrant eng q s
  | .residencyRotate eng q => Sys2Proof.Machine.execResidencyRotate eng q s
  | .shareEval kind die n => Sys2Proof.Machine.execShareEval kind die n s
  | .groupSave core slot => Sys2Proof.Machine.execGroupSave core slot s
  | .stopBoundExpire core slot => Sys2Proof.Machine.execStopBoundExpire core slot s
  | .hangDeclare core slot => Sys2Proof.Machine.execHangDeclare core slot s
  | .groupRestore core slot n => Sys2Proof.Machine.execGroupRestore core slot n s
  | .arrayBlockTimeout core slot => Sys2Proof.Machine.execArrayBlockTimeout core slot s
  | .occupancySample meters => Sys2Proof.Machine.execOccupancySample meters s
  | .dailiesPeriodicWrite fn => Sys2Proof.Machine.execDailiesPeriodicWrite fn s
  | .mailboxWrite fn off data => Sys2Proof.Machine.execMailboxWrite fn off data s
  | .pmiRingBaseWrite fn rsp v => Sys2Proof.Machine.execPmiRingBaseWrite fn rsp v s
  | .pmiRspHeadWrite fn v => Sys2Proof.Machine.execPmiRspHeadWrite fn v s
  | .contextCreate h flags orphanTime rsvd => Sys2Proof.Machine.execContextCreate h flags orphanTime rsvd s
  | .contextDestroy h => Sys2Proof.Machine.execContextDestroy h s
  | .contextReset h addr size => Sys2Proof.Machine.execContextReset h addr size s
  | .snapshotArm h addr size => Sys2Proof.Machine.execSnapshotArm h addr size s
  | .generationRaise ctx => Sys2Proof.Machine.execGenerationRaise ctx s
  | .map h m => Sys2Proof.Machine.execMap h m s
  | .unmap h va len => Sys2Proof.Machine.execUnmap h va len s
  | .shareSet h sset add dev member => Sys2Proof.Machine.execShareSet h sset add dev member s
  | .quotaSet h kind fn v => Sys2Proof.Machine.execQuotaSet h kind fn v s
  | .tierConvert h die mask nps => Sys2Proof.Machine.execTierConvert h die mask nps s
  | .faultQueueConfig h r => Sys2Proof.Machine.execFaultQueueConfig h r s
  | .notifyRingConfig h r => Sys2Proof.Machine.execNotifyRingConfig h r s
  | .counterAlloc h first sset owned => Sys2Proof.Machine.execCounterAlloc h first sset owned s
  | .counterFree h first => Sys2Proof.Machine.execCounterFree h first s
  | .counterConfigure h id v => Sys2Proof.Machine.execCounterConfigure h id v s
  | .counterQuery h id => Sys2Proof.Machine.execCounterQuery h id s
  | .fenceTableRegister h addr sset => Sys2Proof.Machine.execFenceTableRegister h addr sset s
  | .queueCreate h c => Sys2Proof.Machine.execQueueCreate h c s
  | .queueDestroy h eng q drain => Sys2Proof.Machine.execQueueDestroy h eng q drain s
  | .parkRingConfig h r => Sys2Proof.Machine.execParkRingConfig h r s
  | .parkDecide h core slot abandon => Sys2Proof.Machine.execParkDecide h core slot abandon s
  | .mailboxConfig h first count dest ctr => Sys2Proof.Machine.execMailboxConfig h first count dest ctr s
  | .dailiesQuery h ctxs => Sys2Proof.Machine.execDailiesQuery h ctxs s
  | .dailiesPeriodic h r ms => Sys2Proof.Machine.execDailiesPeriodic h r ms s
  | .shareGroupSet h n f members => Sys2Proof.Machine.execShareGroupSet h n f members s
  | .deviceInfo h => Sys2Proof.Machine.execDeviceInfo h s
  | .coreMap h => Sys2Proof.Machine.execCoreMap h s
  | .spareState h addr => Sys2Proof.Machine.execSpareState h addr s
  | .selfTest h target unit => Sys2Proof.Machine.execSelfTest h target unit s
  | .selfTestDone bad => Sys2Proof.Machine.execSelfTestDone bad s
  | .coherenceMode h down => Sys2Proof.Machine.execCoherenceMode h down s
  | .powerCap h w => Sys2Proof.Machine.execPowerCap h w s
  | .withdrawnRanges h => Sys2Proof.Machine.execWithdrawnRanges h s
  | .fwStage h kind sigOk ver => Sys2Proof.Machine.execFwStage h kind sigOk ver s
  | .fwActivate h kind dies => Sys2Proof.Machine.execFwActivate h kind dies s
  | .microcodeDieDone die => Sys2Proof.Machine.execMicrocodeDieDone die s
  | .plowinCommit => Sys2Proof.Machine.execPlowinCommit s
  | .attachRead h addr => Sys2Proof.Machine.execAttachRead h addr s
  | .claim h token deliver => Sys2Proof.Machine.execClaim h token deliver s
  | .heartbeat h => Sys2Proof.Machine.execHeartbeat h s
  | .orphanLinkTimeout => Sys2Proof.Machine.execOrphanLinkTimeout s
  | .orphanHeartbeatTimeout fn => Sys2Proof.Machine.execOrphanHeartbeatTimeout fn s
  | .orphanTimeExpire ctx => Sys2Proof.Machine.execOrphanTimeExpire ctx s
  | .pcieLinkDown p => Sys2Proof.Machine.execPcieLinkDown p s
  | .pciePortReturn p => Sys2Proof.Machine.execPciePortReturn p s
  | .pcieLinkReset p perst => Sys2Proof.Machine.execPcieLinkReset p perst s
  | .functionLevelReset fn => Sys2Proof.Machine.execFunctionLevelReset fn s
  | .vfLeaveService num => Sys2Proof.Machine.execVfLeaveService num s
  | .barResize p size => Sys2Proof.Machine.execBarResize p size s
  | .bar2Read p fn off n => Sys2Proof.Machine.execBar2Read p fn off n s
  | .bar2Write p fn off data => Sys2Proof.Machine.execBar2Write p fn off data s
  | .bar0AccessRefused fn off write => Sys2Proof.Machine.execBar0AccessRefused fn off write s
  | .untrustedRequest p bus => Sys2Proof.Machine.execUntrustedRequest p bus s
  | .pcieCfgWrite p bus v => Sys2Proof.Machine.execPcieCfgWrite p bus v s
  | .portTrainingComplete port peer peerPort => Sys2Proof.Machine.execPortTrainingComplete port peer peerPort s
  | .linkPacketSend port => Sys2Proof.Machine.execLinkPacketSend port s
  | .linkPacket port crcOk rsvd k => Sys2Proof.Machine.execLinkPacket port crcOk rsvd k s
  | .packetForward io k => Sys2Proof.Machine.execPacketForward io k s
  | .put port crcOk k => Sys2Proof.Machine.execPut port crcOk k s
  | .get port crcOk k => Sys2Proof.Machine.execGet port crcOk k s
  | .fabricWait port crcOk k => Sys2Proof.Machine.execFabricWait port crcOk k s
  | .waitCancel port crcOk k => Sys2Proof.Machine.execWaitCancel port crcOk k s
  | .putAck port crcOk k => Sys2Proof.Machine.execPutAck port crcOk k s
  | .getData port crcOk k => Sys2Proof.Machine.execGetData port crcOk k s
  | .waitDone port crcOk k => Sys2Proof.Machine.execWaitDone port crcOk k s
  | .remoteRetry txn => Sys2Proof.Machine.execRemoteRetry txn s
  | .remoteRequestTimeout txn => Sys2Proof.Machine.execRemoteRequestTimeout txn s
  | .portDownTimeout port => Sys2Proof.Machine.execPortDownTimeout port s
  | .laneLockLoss port lane => Sys2Proof.Machine.execLaneLockLoss port lane s
  | .laneSpareResume port => Sys2Proof.Machine.execLaneSpareResume port s
  | .laneRetrainTick port lane ok => Sys2Proof.Machine.execLaneRetrainTick port lane ok s
  | .spareLaneRotation port => Sys2Proof.Machine.execSpareLaneRotation port s
  | .timePacketSend port => Sys2Proof.Machine.execTimePacketSend port s
  | .timePacket port k => Sys2Proof.Machine.execTimePacket port k s
  | .timeParentTimeout => Sys2Proof.Machine.execTimeParentTimeout s
  | .ppsPulse => Sys2Proof.Machine.execPpsPulse s
  | .fabConfigWrite v => Sys2Proof.Machine.execFabConfigWrite v s
  | .fabRouteDataWrite io v => Sys2Proof.Machine.execFabRouteDataWrite io v s
  | .fabDropsRead io => Sys2Proof.Machine.execFabDropsRead io s
  | .rotationSwapStart core => Sys2Proof.Machine.execRotationSwapStart core s
  | .standinEntryCheckDone core ok => Sys2Proof.Machine.execStandinEntryCheckDone core ok s
  | .standinIdentityMove core => Sys2Proof.Machine.execStandinIdentityMove core s
  | .coreSelfTestDone p ok => Sys2Proof.Machine.execCoreSelfTestDone p ok s
  | .fencedCoreRetest p ok => Sys2Proof.Machine.execFencedCoreRetest p ok s
  | .coreWatchdogTimeout die p => Sys2Proof.Machine.execCoreWatchdogTimeout die p s
  | .mgmtWatchdogTimeout m => Sys2Proof.Machine.execMgmtWatchdogTimeout m s
  | .engineInternalError eng => Sys2Proof.Machine.execEngineInternalError eng s
  | .hbmRetrain h => Sys2Proof.Machine.execHbmRetrain h s
  | .fatalEnter event => Sys2Proof.Machine.execFatalEnter event s
  | .dumpCopyComplete => Sys2Proof.Machine.execDumpCopyComplete s
  | .errDumpCtlWrite v => Sys2Proof.Machine.execErrDumpCtlWrite v s
  | .warmRestart => Sys2Proof.Machine.execWarmRestart s
  | .release => Sys2Proof.Machine.execRelease s
  | .errEringBaseWrite v => Sys2Proof.Machine.execErrEringBaseWrite v s
  | .errEringHeadWrite v => Sys2Proof.Machine.execErrEringHeadWrite v s
  | .registerWrite a v hwSet => Sys2Proof.Machine.execRegisterWrite a v hwSet s
  | .power12vApply mpos smb => Sys2Proof.Machine.execPower12vApply mpos smb s
  | .bootImageVerified okA okB => Sys2Proof.Machine.execBootImageVerified okA okB s
  | .mainSwitchClose => Sys2Proof.Machine.execMainSwitchClose s
  | .hbmTrainingDone ok => Sys2Proof.Machine.execHbmTrainingDone ok s
  | .tierSelfTestDone => Sys2Proof.Machine.execTierSelfTestDone s
  | .perstDeassert p => Sys2Proof.Machine.execPerstDeassert p s
  | .ready => Sys2Proof.Machine.execReady s
  | .mainPowerOff => Sys2Proof.Machine.execMainPowerOff s
  | .mainPowerOn => Sys2Proof.Machine.execMainPowerOn s
  | .boardCapWSet w => Sys2Proof.Machine.execBoardCapWSet w s
  | .pldmFirmwareUpdate => Sys2Proof.Machine.execPldmFirmwareUpdate s
  | .jtagInstruction t => Sys2Proof.Machine.execJtagInstruction t s
  | .protectionStop event => Sys2Proof.Machine.execProtectionStop event s
  | .auxSupplyLoss => Sys2Proof.Machine.execAuxSupplyLoss s
  | .input48vReturn => Sys2Proof.Machine.execInput48vReturn s
  | .fabricRefclkLoss io => Sys2Proof.Machine.execFabricRefclkLoss io s
  | .vrPhaseFailure rail carry => Sys2Proof.Machine.execVrPhaseFailure rail carry s
  | .pcieLinkUp p => Sys2Proof.Machine.execPcieLinkUp p s
  | .fabricRefclkReturn io => Sys2Proof.Machine.execFabricRefclkReturn io s
  | .unitRestartComplete u => Sys2Proof.Machine.execUnitRestartComplete u s
  | .pmiReqTailWrite fn v => Sys2Proof.Machine.execPmiReqTailWrite fn v s
  | .ringHeadWrite fn ring v => Sys2Proof.Machine.execRingHeadWrite fn ring v s
  | .registerReadRefused a => Sys2Proof.Machine.execRegisterReadRefused a s

end Sys2Proof.Machine
end

