-- ==== Sys2Proof/Machine/Tick.lean ====
section
/-! DEFINITION. One period of the 100 MHz reference (R42 to R45): what a step does while no command waits. -/
namespace Sys2Proof.Machine

/-- Multiples of `k` passed when a count goes from `a` to `b`. -/
def crossed (k a b : Nat) : Bool := a / k != b / k

/-- How far one period moves device time: 10 ns; a correction still to be slewed moves it by 1 ns more or less per
5,000 ns (R45: 200 ppm); the internal oscillator is off by at most 1 ns per 20,000 ns, either way (R44: 50 ppm), by an
amount the spec does not fix: `dev`. -/
def tickSlew (t : Tsc) : Int := if crossed 5000 t.time.toNat (t.time.toNat + 10) then Int.sign t.slew else 0
def tickDev (t : Tsc) (dev : DWord) : Int :=
  if !t.ref && crossed 20000 t.time.toNat (t.time.toNat + 10) then (dev.toNat % 3 : Nat) - (1 : Int) else 0
def tickNs (t : Tsc) (dev : DWord) : Nat := (10 + tickSlew t + tickDev t dev).toNat

/-- The pairs of engine and context of which a packet has started and not completed (R335). -/
def busyPairs (s : State) : List (Nat × Nat) :=
  (s.qs.foldl (fun l (k, q) =>
    if q.live && q.pkts.any (fun p => p.st = .running) && !l.contains (k / 1024, q.ctx) then (k / 1024, q.ctx) :: l else l) [])

/-- The engines that are busy. -/
def busyEngs (s : State) : List Nat := (busyPairs s).foldl (fun l x => if l.contains x.1 then l else x.1 :: l) []

/-- KENG_NS, CENG_NS and LENG_NS count the time of each such pair. -/
def engField (e : Nat) : Nat := if e < 8 then aKengNs else if e < 24 then aCengNs else aLengNs

/-- Device time advances while the 12 V supply is present. -/
def tick (s : State) : State :=
  if s.pwr.aux then
    let n := tickNs s.tsc s.draw
    let s' := s.onTsc fun t => relocked
      { t with time := t.time + BitVec.ofNat 64 n, slew := t.slew - tickSlew t, drift := if t.ref then t.drift else t.drift + tickDev t s.draw }
    let s' := forAll (busyPairs s) (fun (e, c) s => acctAdd c (engField e) n (s.onEngine e fun x => { x with work := x.work.upd c (· + n) })) s'
    let s' := forAll (busyEngs s) (fun e s => s.onEngine e fun x => { x with total := x.total + n }) s'
    let s' := irqsDue s'
    if s.tsc.ref then s' else s'.drawn
  else s

end Sys2Proof.Machine
end

