-- ==== Sys2Proof/WellFormed.lean ====
section
/-! DEFINITION. Well-formed commands: every operand in the range its field or its unit has. A command's meaning is total
and does not ask for it: what the device refuses (a wrong operand of a request, an illegal register) is the meaning's own
case, and only numbers that no such field could hold are ill-formed. -/
namespace Sys2Proof

/-- Access sizes of R217. -/
def accSize (n : Nat) : Bool := n = 1 || n = 2 || n = 4 || n = 8

/-- 256 vector register numbers, 64 uniform registers (R175). -/
def Src.wf : Src → Bool
  | .v n _ => decide (n < 256)
  | .u n => decide (n < 64)
  | .imm _ => true

/-- An instruction's fields (R175): logical core, slot, 52-bit or wider address, predicates p0 to p7. -/
def Ins.wf (i : Ins) : Bool :=
  decide (i.core < 1024) && decide (i.slot < 48) && decide (i.pc < 2 ^ 64) && (i.guard.all fun g => decide (g.1 < 8)) &&
  decide (i.dst < 256) && i.a.wf && i.b.wf && i.c.wf && decide (i.regErr < 4) &&
  decide (i.errReg < 256) && (i.rivals.all fun r => decide (r.1 < 48) && decide (r.2 < 2 ^ 64))

/-- A signed 32-bit field (R176). -/
def s32 (n : Int) : Bool := decide (-(2 ^ 31) ≤ n) && decide (n < 2 ^ 31)

/-- Errors of a plane step name cells, rows and columns of the array (R49). -/
def Check.wf (c : Check) : Bool :=
  (c.cells.all fun x => decide (x.1 < 64) && decide (x.2.1 < 8) && decide (x.2.2.1 < 32)) &&
  (c.cksCol.all fun x => decide (x.1 < 64)) && (c.cksRow.all fun x => decide (x.1 < 32)) && decide (c.residue < 3)

/-- A request at a home: at most a 128 B line, written bytes as many as its length. -/
def HomeReq.wf (r : HomeReq) : Bool :=
  decide (r.pa < 2 ^ 64) && decide (r.len ≤ 4096) && decide (r.agent < 2 ^ 16) && decide (r.core ≤ 1152) && decide (r.ctx < 4096)

/-- A remapped unit: 8 dies of 64 slices with 128 segments; 14 stacks. -/
def SpareUnit.wf : SpareUnit → Bool
  | .segment d i g => decide (d < 8) && decide (i < 64) && decide (g < 128)
  | .frame h _ => decide (h < 14)

/-- A unit that restarts alone: 32 engines, 8 I/O dies, 14 stacks (R391). -/
def Unit_.wf : Unit_ → Bool
  | .engine e => decide (e < 32)
  | .ioDie x => decide (x < 8)
  | .hbm h => decide (h < 14)

/-- A counter operation: an opcode of R273, a 32-bit ID. -/
def CtrOp.wf (o : CtrOp) : Bool :=
  (o.op = 1 || o.op = 2 || o.op = 3 || o.op = 4 || o.op = 0x10 || o.op = 0x11 || o.op = 0x12) && decide (o.id < 2 ^ 32) &&
  decide (o.ctx < 4096) && decide (o.src < 2 ^ 16)

/-- A request header (R310): function, 16-bit CONTEXT. -/
def Hdr.wf (h : Hdr) : Bool := decide (h.fn < 64) && decide (h.ctx < 2 ^ 16) && decide (h.payAddr < 2 ^ 64) && decide (h.odd.getD 0 < 2 ^ 16)

/-- A ring's parameters fit their fields (R262). -/
def RingCfg.wf (r : RingCfg) : Bool :=
  decide (r.addr < 2 ^ 64) && decide (r.tailAddr < 2 ^ 64) && decide (r.size < 2 ^ 32) && decide (r.vector < 2 ^ 16)

/-- A mapping's parameters fit their fields (R249). -/
def MapReq.wf (m : MapReq) : Bool :=
  decide (m.va < 2 ^ 64) && decide (m.len < 2 ^ 64) && decide (m.pa < 2 ^ 64) && decide (m.region < 16) && decide (m.pageSize < 16) &&
  decide (m.sset < 256) && decide (m.host < 2 ^ 64)

/-- A queue's parameters fit their fields (R315). -/
def QueueCfg.wf (c : QueueCfg) : Bool :=
  decide (c.kind < 256) && decide (c.inst < 256) && decide (c.s < 256) && decide (c.c < 256) && decide (c.f < 256) && decide (c.vector < 2 ^ 16)

/-- A packet's fields (R340). -/
def FPkt.wf (k : FPkt) : Bool :=
  decide (k.type < 256) && decide (k.flits < 256) && decide (k.vc < 4) && decide (k.hops < 256) && decide (k.dst < 2 ^ 16) &&
  decide (k.src < 2 ^ 16) && decide (k.sctx < 2 ^ 16) && decide (k.dctx < 2 ^ 16) && decide (k.txn < 2 ^ 32) && decide (k.len < 2 ^ 32) && decide (k.addr < 2 ^ 64) && decide (k.data.length ≤ 4096) && decide (k.bits < 256)

/-- An access of a register by a function or a core: of 1 to 4096 bytes, of which those of 4 and 8 are performed (R11). -/
def RegAcc.wf (a : RegAcc) : Bool := (a.fn.all fun f => decide (f < 64)) && decide (a.core < 1152) && decide (1 ≤ a.size) && decide (a.size ≤ 4096)

/-- Every operand in its range. -/
def Instr.wf : Instr → Bool
  | .mma i g pf qf accT _ _ retake => i.wf && decide (g ≤ 1024) && decide (pf < 256) && decide (qf < 256) && decide (accT < 4) && decide (retake < 4)
  | .accRead i _ row sat => i.wf && decide (row < 64) && (sat.all fun q => decide (q < 8))
  | .accClear i _ _ _ => i.wf
  | .tseqStart i => i.wf
  | .tseqWait i us ut => i.wf && decide (us < 64) && decide (ut < 64)
  | .extentSet i => i.wf
  | .ldl i size => i.wf && accSize size
  | .stl i size => i.wf && accSize size
  | .ld i size => i.wf && accSize size
  | .st i size => i.wf && accSize size
  | .ldRsv i size => i.wf && accSize size
  | .stCnd i size => i.wf && accSize size
  | .atomAdd i size _ => i.wf && accSize size
  | .atomSub i size _ => i.wf && accSize size
  | .atomAnd i size _ => i.wf && accSize size
  | .atomOr i size _ => i.wf && accSize size
  | .atomXor i size _ => i.wf && accSize size
  | .atomMin i size _ _ => i.wf && accSize size
  | .atomMax i size _ _ => i.wf && accSize size
  | .atomExch i size _ => i.wf && accSize size
  | .atomCas i size _ => i.wf && accSize size
  | .atomFadd i _ => i.wf
  | .fenceO i => i.wf
  | .fenceC i => i.wf
  | .fenceCInv i => i.wf
  | .syncAdd i rd => i.wf && decide (rd < 256)
  | .syncSub i rd => i.wf && decide (rd < 256)
  | .syncSet i rd => i.wf && decide (rd < 256)
  | .syncTrydec i rd => i.wf && decide (rd < 256)
  | .syncWaitGe i rd => i.wf && decide (rd < 256)
  | .syncWaitEq i rd => i.wf && decide (rd < 256)
  | .syncWaitNz i rd => i.wf && decide (rd < 256)
  | .syncResultReturn core slot _ => decide (core < 1024) && decide (slot < 48)
  | .shflIdx i => i.wf
  | .shflUp i => i.wf
  | .shflDown i => i.wf
  | .shflXor i => i.wf
  | .voteAll i q => i.wf && decide (q < 8)
  | .voteAny i q => i.wf && decide (q < 8)
  | .voteBallot i q => i.wf && decide (q < 8)
  | .voteMatch i => i.wf
  | .gsync i _ => i.wf
  | .bra i target join => i.wf && s32 target && s32 join
  | .joinHoldExpire core slot _ => decide (core < 1024) && decide (slot < 48)
  | .exit i => i.wf
  | .cut i idx => i.wf && decide (idx < 65536)
  | .checkpointWriteComplete core slot => decide (core < 1024) && decide (slot < 48)
  | .tscRead i _ => i.wf
  | .intAdd i => i.wf
  | .intSub i => i.wf
  | .intAnd i => i.wf
  | .intOr i => i.wf
  | .intXor i => i.wf
  | .intShl i => i.wf
  | .intShr i => i.wf
  | .intTest i _ => i.wf
  | .intMul i => i.wf
  | .intMac i => i.wf
  | .intMulWide i _ => i.wf
  | .intMacWide i _ => i.wf
  | .f32Add i _ => i.wf
  | .f32Mul i _ => i.wf
  | .f32Mac i _ => i.wf
  | .f32Test i _ => i.wf
  | .f32Max i _ => i.wf
  | .f32Min i _ => i.wf
  | .f32Recip i => i.wf
  | .f32Rsqrt i => i.wf
  | .f32Exp2 i => i.wf
  | .f32Log2 i => i.wf
  | .f32Sin i => i.wf
  | .f32Cos i => i.wf
  | .f64Add i _ => i.wf
  | .f64Mul i _ => i.wf
  | .f64Mac i _ => i.wf
  | .f64Test i _ => i.wf
  | .f64Max i _ => i.wf
  | .f64Min i _ => i.wf
  | .conv i src dst _ => i.wf && decide (src < 16) && decide (dst < 16)
  | .uniAdd i => i.wf
  | .uniMov i => i.wf
  | .uniShl i => i.wf
  | .uniLdl i => i.wf
  | .loadReply core slot _ _ => decide (core < 1024) && decide (slot < 48)
  | .groupPark core slot => decide (core < 1024) && decide (slot < 48)
  | .storeBufferDrain p => decide (p < 1152)
  | .planeStep p ch => decide (p < 1152) && ch.wf
  | .spareSwitchDone p => decide (p < 1152)
  | .kgroupUpdate p => decide (p < 1152)
  | .retakeRunStart p => decide (p < 1152)
  | .mmaRetire p => decide (p < 1152)
  | .tseqProgramStart p => decide (p < 1152)
  | .haloPlace p entry => decide (p < 1152) && decide (entry < 4)
  | .haloAck p entry => decide (p < 1152) && decide (entry < 4)
  | .haloTimeout p entry => decide (p < 1152) && decide (entry < 4)
  | .tseqFetchReturn p => decide (p < 1152)
  | .detailFetchReturn p block => decide (p < 1152) && decide (block < 65536)
  | .tseqPassStart p => decide (p < 1152)
  | .tseqStoreComplete p => decide (p < 1152)
  | .tseqProgramComplete p => decide (p < 1152)
  | .lmBinsMerge p => decide (p < 1152)
  | .clipTotalUpdate p => decide (p < 1152)
  | .governorTick die tj _ _ _ => decide (die < 8) && decide (tj < 256)
  | .budgetTick powerW maxTj _ => decide (powerW < 65536) && decide (maxTj < 256)
  | .capTakesEffect => true
  | .quadIdleDrop die q => decide (die < 8) && decide (q < 36)
  | .quadWritebackDone die q => decide (die < 8) && decide (q < 36)
  | .quadRetentionReached die q => decide (die < 8) && decide (q < 36)
  | .budgetLend die q => decide (die < 8) && decide (q < 36)
  | .quadWake die q => decide (die < 8) && decide (q < 36)
  | .quadWakeComplete die q => decide (die < 8) && decide (q < 36)
  | .budgetReturn die q => decide (die < 8) && decide (q < 36)
  | .tscTimeLowRead who => decide (who < 1216)
  | .tscReferenceLoss => true
  | .tscReferenceReturn => true
  | .homeRequest r => r.wf
  | .tierFillComplete die slice bank => decide (die < 8) && decide (slice < 64) && decide (bank < 4)
  | .victimWritebackSend die slice => decide (die < 8) && decide (slice < 64)
  | .victimWritebackAck die slice => decide (die < 8) && decide (slice < 64)
  | .l1Writeback p _ => decide (p < 1152)
  | .homeAnswerTimeout _ => true
  | .dieRestartComplete die _ => decide (die < 8)
  | .tierConversionComplete die slice => decide (die < 8) && decide (slice < 64)
  | .patrolScrub _ _ _ => true
  | .segmentRemapStart u => u.wf
  | .segmentRemapComplete u => u.wf
  | .tlbMissWalkStart _ ctx va _ => decide (ctx < 4096) && decide (va < 2 ^ 64)
  | .pageWalkComplete _ => true
  | .errFaultHeadWrite fn _ => decide (fn < 64)
  | .faultReplay fn ctx _ _ _ => decide (fn < 64) && decide (ctx < 4096)
  | .faultAbandon fn ctx _ _ _ => decide (fn < 64) && decide (ctx < 4096)
  | .mappingChangeComplete _ => true
  | .counterOp o => o.wf
  | .waitRegisterDeferred die => decide (die < 8)
  | .waitTimeout _ => true
  | .doorbellAdd fn ctx _ => decide (fn < 64) && decide (ctx < 4096)
  | .doorbellSub fn ctx _ => decide (fn < 64) && decide (ctx < 4096)
  | .doorbellSet fn ctx _ => decide (fn < 64) && decide (ctx < 4096)
  | .watchGe fn ctx _ => decide (fn < 64) && decide (ctx < 4096)
  | .watchEq fn ctx _ => decide (fn < 64) && decide (ctx < 4096)
  | .watchNz fn ctx _ => decide (fn < 64) && decide (ctx < 4096)
  | .doorbellFenceSignal fn ctx _ => decide (fn < 64) && decide (ctx < 4096)
  | .fenceClear fn ctx _ => decide (fn < 64) && decide (ctx < 4096)
  | .fenceArm fn ctx _ => decide (fn < 64) && decide (ctx < 4096)
  | .qdoorTail fn eng q _ => decide (fn < 64) && decide (eng < 32) && decide (q < 1024)
  | .qdoorChead fn eng q _ => decide (fn < 64) && decide (eng < 32) && decide (q < 1024)
  | .ringEntryFetch eng q => decide (eng < 32) && decide (q < 1024)
  | .submissionHeadWrite eng q => decide (eng < 32) && decide (q < 1024)
  | .nop eng q => decide (eng < 32) && decide (q < 1024)
  | .jump eng q => decide (eng < 32) && decide (q < 1024)
  | .marker eng q => decide (eng < 32) && decide (q < 1024)
  | .timestamp eng q => decide (eng < 32) && decide (q < 1024)
  | .signal eng q => decide (eng < 32) && decide (q < 1024)
  | .wait eng q => decide (eng < 32) && decide (q < 1024)
  | .fenceSignal eng q => decide (eng < 32) && decide (q < 1024)
  | .launch eng q => decide (eng < 32) && decide (q < 1024)
  | .copy eng q _ => decide (eng < 32) && decide (q < 1024)
  | .copy2d eng q _ => decide (eng < 32) && decide (q < 1024)
  | .copy3d eng q _ => decide (eng < 32) && decide (q < 1024)
  | .fill eng q => decide (eng < 32) && decide (q < 1024)
  | .remotePut eng q _ => decide (eng < 32) && decide (q < 1024)
  | .remoteGet eng q => decide (eng < 32) && decide (q < 1024)
  | .remoteWait eng q => decide (eng < 32) && decide (q < 1024)
  | .packetComplete eng q => decide (eng < 32) && decide (q < 1024)
  | .groupPlace _ => true
  | .groupStart core slot => decide (core < 1024) && decide (slot < 48)
  | .launchComplete _ => true
  | .launchDeferralTick _ => true
  | .slotGrant eng q => decide (eng < 32) && decide (q < 1024)
  | .residencyRotate eng q => decide (eng < 32) && decide (q < 1024)
  | .shareEval kind die n => decide (kind < 3) && decide (die < 8) && decide (n < 8)
  | .groupSave core slot => decide (core < 1024) && decide (slot < 48)
  | .stopBoundExpire core slot => decide (core < 1024) && decide (slot < 48)
  | .hangDeclare core slot => decide (core < 1024) && decide (slot < 48)
  | .groupRestore core slot _ => decide (core < 1024) && decide (slot < 48)
  | .arrayBlockTimeout core slot => decide (core < 1024) && decide (slot < 48)
  | .occupancySample ms => ms.all fun m => (match m.quad with | some q => decide (q < 288) && m.bytes.isEmpty | none => true) && m.bytes.all fun x => decide (x.1 < 4096)
  | .dailiesPeriodicWrite fn => decide (fn < 64)
  | .mailboxWrite fn _ _ => decide (fn < 64)
  | .pmiRingBaseWrite fn _ _ => decide (fn < 64)
  | .pmiRspHeadWrite fn _ => decide (fn < 64)
  | .contextCreate h _ _ _ => h.wf
  | .contextDestroy h => h.wf
  | .contextReset h _ _ => h.wf
  | .snapshotArm h _ _ => h.wf
  | .generationRaise ctx => decide (ctx < 4096)
  | .map h m => h.wf && m.wf
  | .unmap h va _ => h.wf && decide (va < 2 ^ 64)
  | .shareSet h sset _ _ member => h.wf && decide (sset < 65536) && decide (member < 65536)
  | .quotaSet h kind _ _ => h.wf && decide (kind < 65536)
  | .tierConvert h die _ nps => h.wf && decide (die < 65536) && nps.all fun x => decide (x < 65536)
  | .faultQueueConfig h r => h.wf && r.wf
  | .notifyRingConfig h r => h.wf && r.wf
  | .counterAlloc h first _ _ => h.wf && decide (first < 2 ^ 32)
  | .counterFree h first => h.wf && decide (first < 2 ^ 32)
  | .counterConfigure h id _ => h.wf && decide (id < 2 ^ 32)
  | .counterQuery h id => h.wf && decide (id < 2 ^ 32)
  | .fenceTableRegister h _ _ => h.wf
  | .queueCreate h c => h.wf && c.wf
  | .queueDestroy h eng q _ => h.wf && decide (eng < 65536) && decide (q < 65536)
  | .parkRingConfig h r => h.wf && r.wf
  | .parkDecide h core slot _ => h.wf && decide (core < 65536) && decide (slot < 65536)
  | .mailboxConfig h first count _ ctr => h.wf && decide (first < 2 ^ 32) && decide (count < 65536) && decide (ctr < 2 ^ 32)
  | .dailiesQuery h _ => h.wf
  | .dailiesPeriodic h r _ => h.wf && r.wf
  | .shareGroupSet h n _ _ => h.wf && decide (n < 65536)
  | .deviceInfo h => h.wf
  | .coreMap h => h.wf
  | .spareState h _ => h.wf
  | .selfTest h target unit => h.wf && decide (target < 65536) && decide (unit < 65536)
  | .selfTestDone _ => true
  | .coherenceMode h _ => h.wf
  | .powerCap h w => h.wf && decide (w < 65536)
  | .withdrawnRanges h => h.wf
  | .fwStage h kind _ _ => h.wf && decide (kind < 65536)
  | .fwActivate h kind _ => h.wf && decide (kind < 65536)
  | .microcodeDieDone die => decide (die < 8)
  | .plowinCommit => true
  | .attachRead h _ => h.wf
  | .claim h _ _ => h.wf
  | .heartbeat h => h.wf
  | .orphanLinkTimeout => true
  | .orphanHeartbeatTimeout fn => decide (fn < 64)
  | .orphanTimeExpire ctx => decide (ctx < 4096)
  | .pcieLinkDown p => decide (p < 2)
  | .pciePortReturn p => decide (p < 2)
  | .pcieLinkReset p _ => decide (p < 2)
  | .functionLevelReset fn => decide (fn < 64)
  | .vfLeaveService num => decide (num < 64)
  | .barResize p _ => decide (p < 2)
  | .bar2Read p fn _ _ => decide (p < 2) && decide (fn < 64)
  | .bar2Write p fn _ _ => decide (p < 2) && decide (fn < 64)
  | .bar0AccessRefused fn _ _ => decide (fn < 64)
  | .untrustedRequest p _ => decide (p < 2)
  | .pcieCfgWrite p _ _ => decide (p < 2)
  | .portTrainingComplete port _ _ => decide (port < 64)
  | .linkPacketSend port => decide (port < 64)
  | .linkPacket port _ _ k => decide (port < 64) && k.credit.length = 4
  | .packetForward io k => decide (io < 8) && k.wf
  | .put port _ k => decide (port < 64) && k.wf
  | .get port _ k => decide (port < 64) && k.wf
  | .fabricWait port _ k => decide (port < 64) && k.wf
  | .waitCancel port _ k => decide (port < 64) && k.wf
  | .putAck port _ k => decide (port < 64) && k.wf
  | .getData port _ k => decide (port < 64) && k.wf
  | .waitDone port _ k => decide (port < 64) && k.wf
  | .remoteRetry txn => decide (txn < 2 ^ 32)
  | .remoteRequestTimeout txn => decide (txn < 2 ^ 32)
  | .portDownTimeout port => decide (port < 64)
  | .laneLockLoss port lane => decide (port < 64) && decide (lane < 9)
  | .laneSpareResume port => decide (port < 64)
  | .laneRetrainTick port lane _ => decide (port < 64) && decide (lane < 9)
  | .spareLaneRotation port => decide (port < 64)
  | .timePacketSend port => decide (port < 64)
  | .timePacket port _ => decide (port < 64)
  | .timeParentTimeout => true
  | .ppsPulse => true
  | .fabConfigWrite _ => true
  | .fabRouteDataWrite io _ => decide (io < 8)
  | .fabDropsRead io => decide (io < 8)
  | .rotationSwapStart core => decide (core < 1024)
  | .standinEntryCheckDone core _ => decide (core < 1024)
  | .standinIdentityMove core => decide (core < 1024)
  | .coreSelfTestDone p _ => decide (p < 1152)
  | .fencedCoreRetest p _ => decide (p < 1152)
  | .coreWatchdogTimeout die _ => decide (die < 8)
  | .mgmtWatchdogTimeout m => decide (m < 3)
  | .engineInternalError eng => decide (eng < 40)
  | .hbmRetrain h => decide (h < 14)
  | .fatalEnter event => decide (event < 256)
  | .dumpCopyComplete => true
  | .errDumpCtlWrite _ => true
  | .warmRestart => true
  | .release => true
  | .errEringBaseWrite _ => true
  | .errEringHeadWrite _ => true
  | .registerWrite a _ _ => a.wf
  | .power12vApply _ _ => true
  | .bootImageVerified _ _ => true
  | .mainSwitchClose => true
  | .hbmTrainingDone _ => true
  | .tierSelfTestDone => true
  | .perstDeassert p => decide (p < 2)
  | .ready => true
  | .mainPowerOff => true
  | .mainPowerOn => true
  | .boardCapWSet w => decide (w < 65536)
  | .pldmFirmwareUpdate => true
  | .jtagInstruction _ => true
  | .protectionStop event => decide (event < 256)
  | .auxSupplyLoss => true
  | .input48vReturn => true
  | .fabricRefclkLoss io => decide (io < 8)
  | .vrPhaseFailure _ _ => true
  | .pcieLinkUp p => decide (p < 2)
  | .fabricRefclkReturn io => decide (io < 8)
  | .unitRestartComplete u => u.wf
  | .pmiReqTailWrite fn _ => decide (fn < 64)
  | .ringHeadWrite fn ring _ => decide (fn < 64) && decide (ring < 3)
  | .registerReadRefused a => a.wf

end Sys2Proof
end

