-- ==== Sys2Proof/Safety.lean ====
section
/-! DEFINITION. What counts as a safe state and as an instruction that runs undisturbed, in the terms the statements use. -/
namespace Sys2Proof.Machine

/-- The step went on: no fault, no refusal. -/
def completes (i : Instr) (s : State) : Prop := ∃ t, exec i s = .next t

/-- Memory keeps its canonical form: addresses strictly rising, no entry equal to what an unlisted address reads as. -/
def Memory.wf (m : Tbl Byte) : Bool := Tbl.wf m

/-- Every waiting command is well-formed. -/
def State.queueWf (s : State) : Bool := s.pending.all Instr.wf

/-! ### Instructions (ch. 07) -/

/-- The group an instruction is issued for, its set, and the lanes of the set that take part: those its guard names,
or all of them where it acts for the group (R150 R165 R170). -/
def insKey (i : Ins) : Nat := gKey i.core i.slot
def insGroup (i : Ins) (s : State) : Group := s.group (insKey i)
def insSet (i : Ins) (s : State) : List Nat := (insGroup i s).setOfPc i.pc
def insPart (i : Ins) (h : Shape) (s : State) : List Nat :=
  if h.grp then insSet i s else (insSet i s).filter (guardOk (insGroup i s) i)

/-- Vector registers an instruction of this shape reads, with their reuse marks, and all that it names. -/
def Shape.reads (h : Shape) : List (Nat × Bool) := h.srcs.flatMap srcRegs
def Shape.regs (h : Shape) : List Nat := h.reads.map (·.1) ++ dstRegs h.dst h.dstWide

/-- The core behind the logical ID, and a running core (R15 R36 R396). -/
def insCore (i : Ins) (s : State) : Nat := (s.phys i.core).getD 0
def onRunningCore (i : Ins) (s : State) : Bool := (s.phys i.core).isSome && s.coreRuns (insCore i s)

/-- The set may issue: its group runs, none of its threads waits or stands at a fault, the window has room, and no
load has still to write a register the instruction names (R151 R162 R163 R165). -/
def setReady (i : Ins) (h : Shape) (s : State) : Bool :=
  let g := insGroup i s
  let m := maskOf (insSet i s)
  g.stage = .running && !(insSet i s).isEmpty && (insSet i s).all (fun l => (g.thread l).free_) &&
  !(g.faults.any fun x => x.lanes &&& m != 0) && decide (g.win.length < 32) &&
  (h.early || !(g.win.any fun w => w.lanes &&& m != 0)) && !(h.regs.any fun r => (pendingRegs g m).contains r)

/-- Its page translates for execution, and no walk for it is pending (R251 R255). -/
def fetchable (i : Ins) (s : State) : Bool :=
  !walkPends s i.core (insGroup i s).ctx i.pc &&
  match translate s (insGroup i s).ctx i.pc needX with
  | .ok _ _ => true
  | .fault _ => false

/-- Its encoded values are legal: each fits its field, nothing is reserved, every register lies in the group's count, pairs
are even (R153 R175 R178). -/
def legal (i : Ins) (h : Shape) (s : State) : Bool :=
  i.wf && !i.rsvd && h.ok && h.srcs.all (srcOk (insGroup i s)) && vregOk (insGroup i s) h.dst h.dstWide && h.unis.all fun u => uregOk u.1 u.2

/-- No error is met in the operands it reads or in its datapath (R157 R381). -/
def clean (i : Ins) : Bool := i.regErr = 0 && i.residue = 0

/-- An instruction of this shape issues, its set being the one the core picks, and nothing keeps it from its effect. -/
def ready (i : Ins) (h : Shape) (s : State) : Bool :=
  onRunningCore i s && setReady i h s && fetchable i s && legal i h s && clean i && picked i s

/-- What a ready instruction issues as, and the state once it has issued: its issue counted and charged, nothing else. -/
def issOf (i : Ins) (h : Shape) (s : State) : Iss :=
  { p := insCore i s, k := insKey i, pc := i.pc, rivals := rivalsOf i s, g := insGroup i s, lanes := insSet i s, part := insPart i h s
    shadow := (insGroup i s).win.any fun w => w.lanes &&& maskOf (insSet i s) != 0 }
def issued (i : Ins) (h : Shape) (s : State) : State := issueCost (issOf i h s) h.reads s

/-- The array is free for the group: without a holder, or held by it, and with no program where the instruction waits
for programs (R58). -/
def arrayFree (i : Ins) (progs : Bool) (s : State) : Bool :=
  let c := s.core (insCore i s)
  match c.holder with
  | none => true
  | some o => o = (insGroup i s).slot && !(progs && !c.progs.isEmpty)
/-- A group instruction of the array once it has issued: its group is the holder. -/
def held (i : Ins) (h : Shape) (s : State) : State := acquire (issOf i h s) (issued i h s)

/-- The value of a register after a list of writes. -/
def lastTo (w : Writes) (n : Nat) (old : Word) : Word := w.foldl (fun o x => if x.1 = n then x.2 else o) old

/-- What an instruction that only writes registers leaves, `w` its vector and predicate writes per lane, `uni` its
uniform writes, `to_` where each lane goes: those registers of the participating lanes, the program counters of the
set, the issue counts, the core steps and the register cache change; everything else stands as it stood. -/
structure Wrote (i : Ins) (h : Shape) (w : Nat → Writes) (uni : Writes) (to_ : Nat → Nat) (s t : State) : Prop where
  /-- The written vector registers of the lanes that take part; every other vector register as before. -/
  vec : ∀ l n, ((insGroup i t).thread l).v.get n =
    if l ∈ insPart i h s ∧ n < 255 then lastTo (w l) n (((insGroup i s).thread l).v.get n) else ((insGroup i s).thread l).v.get n
  /-- The predicates. -/
  pred : ∀ l, ((insGroup i t).thread l).p =
    if l ∈ insPart i h s then (lastTo (w l) 256 (((insGroup i s).thread l).p.setWidth 32)).setWidth 8 else ((insGroup i s).thread l).p
  /-- The uniform registers. -/
  uniform : ∀ n, (insGroup i t).u.get n = lastTo (uni.map fun x => (x.1 % 64, x.2)) n ((insGroup i s).u.get n)
  /-- The set goes on; other threads stand where they stood. -/
  pc : ∀ l, ((insGroup i t).thread l).pc = if l ∈ insSet i s then to_ l else ((insGroup i s).thread l).pc
  /-- Nothing else of a thread. -/
  thread : ∀ l, let a := (insGroup i s).thread l; { (insGroup i t).thread l with v := a.v, p := a.p, pc := a.pc } = a
  /-- A window entry, whose results are final, only in the shadow of an older instruction (R163). -/
  window : if (insGroup i s).win.any (fun e => e.lanes &&& maskOf (insSet i s) != 0) then
      ∃ e, e.fin = true ∧ e.lanes = maskOf (insSet i s) ∧ (insGroup i t).win = (insGroup i s).win ++ [e]
    else (insGroup i t).win = (insGroup i s).win
  issues : (insGroup i t).issues = (insGroup i s).issues + 1
  /-- Nothing else of the group but its joins, its issue number and what the choice among ready sets goes by. -/
  group : let a := insGroup i s
    { insGroup i t with th := a.th, u := a.u, uw := a.uw, win := a.win, issues := a.issues, sched := a.sched, nextId := a.nextId, brs := a.brs, holds := a.holds } = a
  others : ∀ k, k ≠ insKey i → t.group k = s.group k
  /-- Of the cores, the register cache, the issue count and the core-steps of this one. -/
  rcache : ∀ p, { t.core p with rcache := (s.core p).rcache, issues := (s.core p).issues, work := (s.core p).work } = s.core p ∧ (p ≠ insCore i s → t.core p = s.core p)
  /-- Of the contexts, the core steps of the group's. -/
  steps : ∀ c, { t.ctx c with acct := (s.ctx c).acct } = s.ctx c ∧
    ∀ o, (t.ctx c).acct.get o = (s.ctx c).acct.get o +
      if c = (insGroup i s).ctx ∧ o = aCoreSteps then holdSteps (readRegs (insGroup i s).slot h.reads [] (s.core (insCore i s)).rcache).1 else 0
  /-- Everything else of the device, its memory among it. -/
  rest : { t with groups := s.groups, cores := s.cores, ctxs := s.ctxs, freeN := s.freeN } = s

/-- The command completes, leaves these register writes and nothing else, and its set goes on to the next instruction. -/
def Leaves (c : Instr) (i : Ins) (h : Shape) (w : Nat → Writes) (uni : Writes) (s : State) : Prop :=
  ∃ t, exec c s = .next t ∧ Wrote i h w uni (fun _ => i.pc + 16) s t

/-- The result of a lane at the instruction's width: a 64-bit value in an even pair, a 32-bit one in a register. -/
def sized (i : Ins) (wide : DWord) (narrow : Word) : Writes := if i.is64 then wpair i.dst wide else [(i.dst, narrow)]

/-! ### Management requests (ch. 12) -/

/-- The state once Plowin has taken the function's request. -/
def taken (h : Hdr) (s : State) : State := s.onFn h.fn fun x => { x with reqHead := x.reqHead + 1 }
/-- A request of the context that the header names is taken and not refused for its context. -/
def ctxReady (h : Hdr) (s : State) : Bool := pmiGo s h && !(s.ctx h.ctx).inReset && (ctxStatus s h).isNone

/-- Requests that name a context, with their code (R311). -/
def ctxRequest : Instr → Option (Hdr × Nat)
  | .contextDestroy h => some (h, 0x0002)
  | .contextReset h _ _ => some (h, 0x0003)
  | .snapshotArm h _ _ => some (h, 0x0003)
  | .map h _ => some (h, 0x0010)
  | .unmap h _ _ => some (h, 0x0011)
  | .counterAlloc h _ _ _ => some (h, 0x0020)
  | .counterFree h _ => some (h, 0x0021)
  | .counterConfigure h _ _ => some (h, 0x0022)
  | .counterQuery h _ => some (h, 0x0023)
  | .fenceTableRegister h _ _ => some (h, 0x0024)
  | .queueCreate h _ => some (h, 0x0030)
  | .queueDestroy h _ _ _ => some (h, 0x0031)
  | .parkDecide h _ _ _ => some (h, 0x0033)
  | .mailboxConfig h _ _ _ _ => some (h, 0x0034)
  | _ => none
/-- Requests that only the physical function may make, with their code (R311 to R314). -/
def pfRequest : Instr → Option (Hdr × Nat)
  | .quotaSet h _ _ _ => some (h, 0x0013)
  | .tierConvert h _ _ _ => some (h, 0x0014)
  | .shareGroupSet h _ _ _ => some (h, 0x0042)
  | .selfTest h _ _ => some (h, 0x0053)
  | .coherenceMode h _ => some (h, 0x0054)
  | .powerCap h _ => some (h, 0x0055)
  | .fwStage h _ _ _ => some (h, 0x0060)
  | .fwActivate h _ _ => some (h, 0x0061)
  | _ => none
/-- The other requests. -/
def openRequest : Instr → Option Hdr
  | .contextCreate h _ _ _ => some h
  | .shareSet h _ _ _ _ => some h
  | .faultQueueConfig h _ => some h
  | .notifyRingConfig h _ => some h
  | .parkRingConfig h _ => some h
  | .dailiesPeriodic h _ _ => some h
  | .dailiesQuery h _ => some h
  | .deviceInfo h => some h
  | .coreMap h => some h
  | .spareState h _ => some h
  | .withdrawnRanges h => some h
  | .attachRead h _ => some h
  | .claim h _ _ => some h
  | .heartbeat h => some h
  | _ => none
/-- The header of a request of the management interface. -/
def requestOf (c : Instr) : Option Hdr := ((ctxRequest c).map (·.1)).orElse fun _ => ((pfRequest c).map (·.1)).orElse fun _ => openRequest c

/-! ### What every step keeps -/

/-- Array content stands only in a core whose array has a holder: without one both banks, both SAT bits, the array queue
and the program queue are as after a release (R58 R59). -/
def State.arraysFree (s : State) : Prop :=
  ∀ p, let c := s.core p
    c.holder = none → c.acc0 = [] ∧ c.acc1 = [] ∧ c.sat0 = false ∧ c.sat1 = false ∧ c.mq = [] ∧ c.progs = [] ∧ c.doneProgs = []

/-- The instruction faults: its set is to park with this cause, detail and program counter; no register, no other group
and no byte of memory has changed. -/
def faults (c : Instr) (i : Ins) (cause detail : Nat) (s : State) : Prop :=
  ∃ t, exec c s = .next t ∧ (∃ pk ∈ (insGroup i t).faults, pk.cause = cause ∧ pk.detail = detail ∧ pk.pc = i.pc ∧ pk.setm = maskOf (insSet i s)) ∧
    (∀ l, (insGroup i t).thread l = (insGroup i s).thread l) ∧ (insGroup i t).u = (insGroup i s).u ∧
    (∀ k, k ≠ insKey i → t.group k = s.group k) ∧ t.mem = s.mem

end Sys2Proof.Machine
end

