-- ==== Sys2Proof/Certificates/Slice0/Obligations.lean ====
section
/-! DEFINITION. The statements for the provers. -/
open Sys2Proof Sys2Proof.Machine

/-- Integer sums and logic (R174). Of every ready INT.ADD, INT.SUB, INT.AND, INT.OR, INT.XOR, INT.MUL, INT.MAC, 64-bit forms
in even pairs: it completes, each participating lane's destination holds the result modulo the width, the set goes on,
and nothing else changes. -/
def Obligations.IntegerArithmeticResults : Prop :=
  ∀ (i : Ins) (s : State), let g := insGroup i s
  (ready i (intShape i) s = true →
    Leaves (.intAdd i) i (intShape i) (fun l => sized i (g.srcD l i.a + g.srcD l i.b) (g.src l i.a + g.src l i.b)) [] s ∧
    Leaves (.intSub i) i (intShape i) (fun l => sized i (g.srcD l i.a - g.srcD l i.b) (g.src l i.a - g.src l i.b)) [] s ∧
    Leaves (.intAnd i) i (intShape i) (fun l => sized i (g.srcD l i.a &&& g.srcD l i.b) (g.src l i.a &&& g.src l i.b)) [] s ∧
    Leaves (.intOr i) i (intShape i) (fun l => sized i (g.srcD l i.a ||| g.srcD l i.b) (g.src l i.a ||| g.src l i.b)) [] s ∧
    Leaves (.intXor i) i (intShape i) (fun l => sized i (g.srcD l i.a ^^^ g.srcD l i.b) (g.src l i.a ^^^ g.src l i.b)) [] s) ∧
  (∀ (h : Shape), h = { srcs := [(i.a, false), (i.b, false)], dst := i.dst } → ready i h s = true →
    Leaves (.intMul i) i h (fun l => [(i.dst, g.src l i.a * g.src l i.b)]) [] s) ∧
  (∀ (h : Shape), h = { srcs := [(i.a, false), (i.b, false), (i.c, false)], dst := i.dst } → ready i h s = true →
    Leaves (.intMac i) i h (fun l => [(i.dst, g.src l i.a * g.src l i.b + g.src l i.c)]) [] s)

/-- Integer shifts, wide products and tests (R174, R426). A 64-bit shift takes bits [5:0] of its count and brings in zeros; a
32-bit shift by less than 32 does as well, and by 32 or more its value is free, whatever it is (the spec states none,
notes/assumptions/8.md); MUL.WIDE and MAC.WIDE write the 64-bit product of two 32-bit operands, signed or not; TEST writes
one predicate with the signed comparison (notes/assumptions/8.md), and no register. -/
def Obligations.IntegerShiftWideTestResults : Prop :=
  ∀ (i : Ins) (s : State), let g := insGroup i s
  (∀ (h : Shape), h = { srcs := [(i.a, i.is64), (i.b, false)], dst := i.dst, dstWide := i.is64 } → ready i h s = true →
    let n l := (g.src l i.b).toNat
    let free l : Word := (Config.freeValue (s.freeN + l)).setWidth 32
    Leaves (.intShl i) i h (fun l => sized i (g.srcD l i.a <<< (n l % 64)) (if n l < 32 then g.src l i.a <<< n l else free l)) [] s ∧
    Leaves (.intShr i) i h (fun l => sized i (g.srcD l i.a >>> (n l % 64)) (if n l < 32 then g.src l i.a >>> n l else free l)) [] s) ∧
  (∀ (h : Shape) signed, h = { srcs := [(i.a, false), (i.b, false)], dst := i.dst, dstWide := true } → ready i h s = true →
    Leaves (.intMulWide i signed) i h (fun l => wpair i.dst (if signed then BitVec.ofInt 64 ((g.src l i.a).toInt * (g.src l i.b).toInt)
      else BitVec.ofNat 64 ((g.src l i.a).toNat * (g.src l i.b).toNat))) [] s) ∧
  (∀ (h : Shape) signed, h = { srcs := [(i.a, false), (i.b, false), (i.c, true)], dst := i.dst, dstWide := true } → ready i h s = true →
    Leaves (.intMacWide i signed) i h (fun l => wpair i.dst ((if signed then BitVec.ofInt 64 ((g.src l i.a).toInt * (g.src l i.b).toInt)
      else BitVec.ofNat 64 ((g.src l i.a).toNat * (g.src l i.b).toNat)) + g.srcD l i.c)) [] s) ∧
  (∀ (h : Shape) cond, cond ≠ .un → h = { srcs := [(i.a, i.is64), (i.b, i.is64)], ok := predOk i.dst } → ready i h s = true →
    Leaves (.intTest i cond) i h (fun l => wpredD g l i.dst (if i.is64 then intCmp 64 cond (g.srcD l i.a).toNat (g.srcD l i.b).toNat
      else intCmp 32 cond (g.src l i.a).toNat (g.src l i.b).toNat)) [] s)

/-- F32 instructions (R95, R99 to R101, R174). ADD, MUL and MAC round the exact sum, product and product plus addend once in
their mode; TEST writes a predicate; MAX and MIN give the operand as R100 orders them; the special functions write the
model's value of the function, drawn within the bound the spec gives. Nothing else changes. -/
def Obligations.SinglePrecisionResults : Prop :=
  ∀ (i : Ins) (s : State), let g := insGroup i s
  (∀ (h : Shape) rnd, rnd ≠ .sr → h = { srcs := [(i.a, false), (i.b, false)], dst := i.dst } → ready i h s = true →
    Leaves (.f32Add i rnd) i h (fun l => [(i.dst, enc32 rnd (fAdd rnd (dec32 (g.src l i.a)) (dec32 (g.src l i.b))))]) [] s ∧
    Leaves (.f32Mul i rnd) i h (fun l => [(i.dst, enc32 rnd (fMul (dec32 (g.src l i.a)) (dec32 (g.src l i.b))))]) [] s) ∧
  (∀ (h : Shape) rnd, rnd ≠ .sr → h = { srcs := [(i.a, false), (i.b, false), (i.c, false)], dst := i.dst } → ready i h s = true →
    Leaves (.f32Mac i rnd) i h
      (fun l => [(i.dst, enc32 rnd (fAdd rnd (fMul (dec32 (g.src l i.a)) (dec32 (g.src l i.b))) (dec32 (g.src l i.c))))]) [] s) ∧
  (∀ (h : Shape) cond, h = { srcs := [(i.a, false), (i.b, false)], ok := predOk i.dst } → ready i h s = true →
    Leaves (.f32Test i cond) i h (fun l => wpredD g l i.dst (fCmp cond (dec32 (g.src l i.a)) (dec32 (g.src l i.b)))) [] s) ∧
  (∀ (h : Shape) prop, h = { srcs := [(i.a, false), (i.b, false)], dst := i.dst } → ready i h s = true →
    Leaves (.f32Max i prop) i h (fun l => [(i.dst, enc32 .rne (fMaxMin true prop (dec32 (g.src l i.a)) (dec32 (g.src l i.b))))]) [] s ∧
    Leaves (.f32Min i prop) i h (fun l => [(i.dst, enc32 .rne (fMaxMin false prop (dec32 (g.src l i.a)) (dec32 (g.src l i.b))))]) [] s) ∧
  (∀ (h : Shape), h = { srcs := [(i.a, false)], dst := i.dst } → ready i h s = true →
    let d l := Config.freeValue (s.freeN + l)
    Leaves (.f32Recip i) i h (fun l => [(i.dst, enc32 .rne (fRecip (dec32 (g.src l i.a))))]) [] s ∧
    Leaves (.f32Rsqrt i) i h (fun l => [(i.dst, enc32 .rne (fRsqrt (dec32 (g.src l i.a))))]) [] s ∧
    Leaves (.f32Exp2 i) i h (fun l => [(i.dst, f32Exp2 (d l) (g.src l i.a))]) [] s ∧
    Leaves (.f32Log2 i) i h (fun l => [(i.dst, f32Log2 (d l) (g.src l i.a))]) [] s ∧
    Leaves (.f32Sin i) i h (fun l => [(i.dst, f32Trig false (d l) (g.src l i.a))]) [] s ∧
    Leaves (.f32Cos i) i h (fun l => [(i.dst, f32Trig true (d l) (g.src l i.a))]) [] s)

/-- F64 instructions (R95, R99, R100, R174): as the F32 ones, on even pairs. Nothing else changes. -/
def Obligations.DoublePrecisionResults : Prop :=
  ∀ (i : Ins) (s : State), let g := insGroup i s
  (∀ (h : Shape) rnd, rnd ≠ .sr → h = { srcs := [(i.a, true), (i.b, true)], dst := i.dst, dstWide := true } → ready i h s = true →
    Leaves (.f64Add i rnd) i h (fun l => wpair i.dst (enc64 rnd (fAdd rnd (dec64 (g.srcD l i.a)) (dec64 (g.srcD l i.b))))) [] s ∧
    Leaves (.f64Mul i rnd) i h (fun l => wpair i.dst (enc64 rnd (fMul (dec64 (g.srcD l i.a)) (dec64 (g.srcD l i.b))))) [] s) ∧
  (∀ (h : Shape) rnd, rnd ≠ .sr → h = { srcs := [(i.a, true), (i.b, true), (i.c, true)], dst := i.dst, dstWide := true } → ready i h s = true →
    Leaves (.f64Mac i rnd) i h
      (fun l => wpair i.dst (enc64 rnd (fAdd rnd (fMul (dec64 (g.srcD l i.a)) (dec64 (g.srcD l i.b))) (dec64 (g.srcD l i.c))))) [] s) ∧
  (∀ (h : Shape) cond, h = { srcs := [(i.a, true), (i.b, true)], ok := predOk i.dst } → ready i h s = true →
    Leaves (.f64Test i cond) i h (fun l => wpredD g l i.dst (fCmp cond (dec64 (g.srcD l i.a)) (dec64 (g.srcD l i.b)))) [] s) ∧
  (∀ (h : Shape) prop, h = { srcs := [(i.a, true), (i.b, true)], dst := i.dst, dstWide := true } → ready i h s = true →
    Leaves (.f64Max i prop) i h (fun l => wpair i.dst (enc64 .rne (fMaxMin true prop (dec64 (g.srcD l i.a)) (dec64 (g.srcD l i.b))))) [] s ∧
    Leaves (.f64Min i prop) i h (fun l => wpair i.dst (enc64 .rne (fMaxMin false prop (dec64 (g.srcD l i.a)) (dec64 (g.srcD l i.b))))) [] s)

/-- CONV and the uniform instructions (R78, R95, R107, R160, R174). A conversion writes the converted value, whose bits
above a narrow format's width are free (notes/assumptions/8.md); UNI.ADD, UNI.MOV and UNI.SHL write a uniform register
once, and only where a thread takes part, a vector source of theirs being a free value (notes/assumptions/8.md); UNI.LDL
reads four bytes of the group's local store at an aligned offset inside the allocation. Nothing else changes. -/
def Obligations.ConversionAndUniformResults : Prop :=
  ∀ (i : Ins) (s : State), let g := insGroup i s
  (∀ (h : Shape) src dst rnd, convFmt src = true → convFmt dst = true → convRnd dst rnd = true →
    h = { srcs := (i.a, src = 1) :: (if rnd = .sr then [(i.b, false)] else []), dst := i.dst, dstWide := dst = 1 } → ready i h s = true →
    Leaves (.conv i src dst rnd) i h (fun l =>
      let x := if src = 1 then (g.srcD l i.a).toNat else (g.src l i.a).toNat
      let r := (convTo dst rnd (g.src l i.b).toNat (decodeE src (x % 2 ^ widthOf src))).bits
      if dst = 1 then wpair i.dst (BitVec.ofNat 64 r) else [(i.dst, narrow (widthOf dst) r (Config.freeValue (s.freeN + l)))]) [] s) ∧
  (∀ (h : Shape) v, h = { srcs := [(i.a, i.is64), (i.b, i.is64)], unis := if i.dst = 255 then [] else [(i.dst, i.is64)] } →
    v = uniSrc g (Config.freeValue s.freeN) → ready i h s = true →
    Leaves (.uniAdd i) i h (fun _ => []) (if (insPart i h s).isEmpty then [] else uniRes i (v i.a + v i.b)) s) ∧
  (∀ (h : Shape) v, h = { srcs := [(i.a, i.is64)], unis := if i.dst = 255 then [] else [(i.dst, i.is64)] } →
    v = uniSrc g (Config.freeValue s.freeN) → ready i h s = true →
    Leaves (.uniMov i) i h (fun _ => []) (if (insPart i h s).isEmpty then [] else uniRes i (v i.a)) s) ∧
  (∀ (h : Shape) v n, h = { srcs := [(i.a, i.is64), (i.b, false)], unis := if i.dst = 255 then [] else [(i.dst, i.is64)] } →
    v = uniSrc g (Config.freeValue (s.freeN + 1)) → n = (v i.b).toNat % 2 ^ 32 → ready i h s = true →
    Leaves (.uniShl i) i h (fun _ => []) (if (insPart i h s).isEmpty then [] else
      uniRes i (if i.is64 then v i.a <<< (n % 64) else if n < 32 then v i.a <<< n else Config.freeValue s.freeN)) s) ∧
  (∀ (h : Shape) o, h = { srcs := [(i.a, false)], unis := if i.dst = 255 then [] else [(i.dst, i.is64)] } → ready i h s = true →
    o = (uniSrc g (Config.freeValue s.freeN) i.a).toNat % 2 ^ 32 → (insPart i h s ≠ [] → o % 4 = 0 ∧ o + 4 ≤ g.lsSize) →
    Leaves (.uniLdl i) i h (fun _ => []) (if (insPart i h s).isEmpty || i.dst = 255 then [] else [(i.dst, BitVec.ofNat 32 (leNat (readTbl g.ls o 4)))]) s)

/-- SHFL, VOTE and TSC.READ (R42, R170 to R172). SHFL gives each participating thread the named lane's source register,
its own where UP or DOWN name no lane, and a free value where XOR
names none (notes/assumptions/8.md); VOTE combines one predicate of the participating threads; TSC.READ writes device
time. Nothing else changes. -/
def Obligations.CooperationResults : Prop :=
  ∀ (i : Ins) (s : State), let g := insGroup i s
  (∀ (h : Shape), h = { srcs := [(i.a, false), (i.b, false)], dst := i.dst } → ready i h s = true →
    let n l := (g.src l i.b).toNat
    Leaves (.shflIdx i) i h (fun l => [(i.dst, g.src (n l % 32) i.a)]) [] s ∧
    Leaves (.shflUp i) i h (fun l => [(i.dst, g.src (if n l ≤ l then l - n l else l) i.a)]) [] s ∧
    Leaves (.shflDown i) i h (fun l => [(i.dst, g.src (if l + n l < 32 then l + n l else l) i.a)]) [] s ∧
    Leaves (.shflXor i) i h (fun l => [(i.dst, if l ^^^ n l < 32 then g.src (l ^^^ n l) i.a else (Config.freeValue (s.freeN + l)).setWidth 32)]) [] s) ∧
  (∀ (h : Shape) q, q < 8 → h = { ok := predOk i.dst } → ready i h s = true →
    let v := (insPart i h s).map fun l => (g.thread l).p.getLsbD q
    Leaves (.voteAll i q) i h (fun l => wpredD g l i.dst (v.all id)) [] s ∧
    Leaves (.voteAny i q) i h (fun l => wpredD g l i.dst (v.any id)) [] s) ∧
  (∀ (h : Shape) q, q < 8 → h = { dst := i.dst } → ready i h s = true →
    Leaves (.voteBallot i q) i h (fun _ => [(i.dst, maskOf ((insPart i h s).filter fun l => (g.thread l).p.getLsbD q))]) [] s) ∧
  (∀ (h : Shape), h = { srcs := [(i.a, false)], dst := i.dst } → ready i h s = true →
    Leaves (.voteMatch i) i h (fun l => [(i.dst, maskOf ((insPart i h s).filter fun r => g.src r i.a = g.src l i.a))]) [] s) ∧
  (∀ (h : Shape), h = { dst := i.dst, dstWide := true } → ready i h s = true → Leaves (.tscRead i none) i h (fun _ => wpair i.dst s.tsc.time) [] s) ∧
  (∀ (h : Shape) u, h = { unis := [(u, true)] } → ready i h s = true →
    Leaves (.tscRead i (some u)) i h (fun _ => []) (if (insPart i h s).isEmpty then [] else wpair u s.tsc.time) s)

/-- Local store and loads (R160 R162 R217 R218). LDL and STL of aligned offsets inside the allocation read and write the
group's local store, the highest lane's bytes remaining; LD and LD.RSV of aligned addresses below 2^52 enter the window,
their lines on other devices are asked for, and the set goes on; LOAD_REPLY, once every access of the load answers,
writes the registers and the load is final, and while some has not it keeps what it has. -/
def Obligations.LoadsAndLocalStoreComplete : Prop :=
  ∀ (i : Ins) (s : State), let g := insGroup i s
  (∀ (h : Shape) size, sizeOk size = true → h = { srcs := [(i.a, false)], dst := i.dst, dstWide := size = 8 } → ready i h s = true →
    (∀ l ∈ insPart i h s, (g.src l i.a).toNat % size = 0 ∧ (g.src l i.a).toNat + size ≤ g.lsSize) →
    Leaves (.ldl i size) i h (fun l => loadWrites i.dst size (readTbl g.ls (g.src l i.a).toNat size) (Config.freeValue (s.freeN + l))) [] s) ∧
  (∀ (h : Shape) size, sizeOk size = true → h = { early := false, srcs := [(i.a, false), (i.b, size = 8)] } → ready i h s = true →
    (∀ l ∈ insPart i h s, (g.src l i.a).toNat % size = 0 ∧ (g.src l i.a).toNat + size ≤ g.lsSize) →
    ∃ t, exec (.stl i size) s = .next t ∧ Wrote i h (fun _ => []) [] (fun _ => i.pc + 16) (s.onGroup (insKey i) fun a =>
      { a with ls := (insPart i h s).foldl (fun m l => writeTbl m (g.src l i.a).toNat (leBytes size (laneVal g l size i.b))) a.ls }) t) ∧
  (∀ (h : Shape) size rsv early c, (c = .ld i size ∧ rsv = false ∧ early = !loadLate i s ∨ c = .ldRsv i size ∧ rsv = true ∧ early = false) →
    sizeOk size = true → h = { early := early, srcs := [(i.a, true)], dst := i.dst, dstWide := size = 8 } → ready i h s = true →
    insPart i h s ≠ [] → (∀ l ∈ insPart i h s, vaFits size (laneVa i g l) = true) →
    exec c s = .next ((insPart i h s).foldl
      (fun z l => match translate z g.ctx (laneVa i g l) needR with
        | .ok pa _ => if paDev pa != z.devId && !allSb z (insCore i s) pa size && !(loadPending g (maskOf (insSet i s))) then
            coreGet { p := insCore i s, k := insKey i, lane := l } g.nextId pa z else z
        | .fault _ => z)
      ((issued i h s).onGroup (insKey i) fun a => ({ a with
        win := a.win ++ [({ id := g.nextId, lanes := maskOf (insSet i s), setm := maskOf (insSet i s), pc := i.pc, use := .load, ld := { part := maskOf (insPart i h s), va := (insPart i h s).foldl (fun t l => t.put l (g.srcD l i.a)) [], size := size, dst := i.dst, rsv := rsv } } : Win)],
        nextId := g.nextId + 1 } : Group).advance (insSet i s) fun _ => i.pc + 16))) ∧
  (∀ core slot id rejected p w u r, s.phys core = some p → s.coreRuns p = true →
    (s.group (gKey core slot)).win.find? (·.id = id) = some w → w.use = .load → w.fin = false → olderLoad (s.group (gKey core slot)) w = false →
    loadAll p (gKey core slot) w rejected s = (u, r) → r.bad = [] →
    exec (.loadReply core slot id rejected) s = .next (if r.wait then u.onGroup (gKey core slot) (loadPart id r.vals) else
      (((if w.ld.rsv then placeAll p (gKey core slot) w u else u).onGroup (gKey core slot)
        (loadDone id (if w.ld.rsv then placeAll p (gKey core slot) w u else u).freeN r.vals)).onFreeN (· + 32))))

/-- Stores, conditional stores and atomics (R219 R220 R226 to R229). ST of aligned addresses that all translate, with room in the
store buffer, puts the threads' bytes into it and changes no byte of memory; ST.CND and every atomic, once the threads'
earlier stores have drained and each thread's access answers, are performed for all participating threads in ascending
lane order: ST.CND tells each by a predicate whether its bytes were written, an atomic gives each what its own operation
found. -/
def Obligations.StoresAndAtomicsComplete : Prop :=
  ∀ (i : Ins) (s : State), let g := insGroup i s
  (∀ (h : Shape) size, sizeOk size = true → h = { early := false, srcs := [(i.a, true), (i.b, size = 8)] } → ready i h s = true →
    (∀ l ∈ insPart i h s, vaFits size (laneVa i g l) = true ∧ walkPends s g.lcore g.ctx (laneVa i g l) = false ∧ ∃ pa rg, translate s g.ctx (laneVa i g l) needW = .ok pa rg) →
    (s.core (insCore i s)).sb.length < 64 → ((storeAll i (issOf i h s) size (issued i h s)).core (insCore i s)).sb.length ≤ 64 →
    exec (.st i size) s = .next (finish i (issOf i h s) (fun _ => []) [] (fun _ => i.pc + 16) (storeAll i (issOf i h s) size (issued i h s))) ∧
    (finish i (issOf i h s) (fun _ => []) [] (fun _ => i.pc + 16) (storeAll i (issOf i h s) size (issued i h s))).mem = s.mem) ∧
  (∀ (h : Shape) size d u r, sizeOk size = true → predOk i.dst = true → h = { early := false, srcs := [(i.a, true), (i.b, size = 8)] } → ready i h s = true →
    drainLanes (insCore i s) (insKey i) (maskOf (insSet i s)) s = (d, true) → ready i h d = true →
    (∀ l ∈ insPart i h d, vaFits size (laneVa i (insGroup i d) l) = true) →
    lanesDo (fun l => coreCnd { p := insCore i d, k := insKey i, lane := l } (laneVa i (insGroup i d) l) (leBytes size (laneVal (insGroup i d) l size i.b)))
      (insPart i h d) (issued i h d) = some (u, r) →
    exec (.stCnd i size) s = .next (finish i (issOf i h d)
      (fun l => wpredD (insGroup i d) l i.dst (((r.find? fun y => y.1 = l).map (·.2)).getD [] == [1])) [] (fun _ => i.pc + 16) (u.onFreeN (· + 32)))) ∧
  (∀ c size place op third h d u r, (size = 4 ∨ size = 8) →
    (third = false ∧ (c = .atomAdd i size place ∧ op = .add ∨ c = .atomSub i size place ∧ op = .sub ∨ c = .atomAnd i size place ∧ op = .and ∨
      c = .atomOr i size place ∧ op = .or ∨ c = .atomXor i size place ∧ op = .xor ∨ (∃ sg, c = .atomMin i size place sg ∧ op = .min sg) ∨
      (∃ sg, c = .atomMax i size place sg ∧ op = .max sg) ∨ c = .atomExch i size place ∧ op = .exch ∨
      c = .atomFadd i place ∧ op = .fadd ∧ size = 4) ∨ third = true ∧ c = .atomCas i size place ∧ op = .cas) →
    h = { early := false, srcs := (i.a, true) :: (i.b, size = 8) :: (if third then [(i.c, size = 8)] else []), dst := i.dst, dstWide := size = 8 } →
    ready i h s = true → drainLanes (insCore i s) (insKey i) (maskOf (insSet i s)) s = (d, true) → ready i h d = true →
    (∀ l ∈ insPart i h d, vaFits size (laneVa i (insGroup i d) l) = true) →
    lanesDo (fun l => coreAtom { p := insCore i d, k := insKey i, lane := l } (laneVa i (insGroup i d) l) size place op
      (laneVal (insGroup i d) l size i.b) (laneVal (insGroup i d) l size i.c)) (insPart i h d) (issued i h d) = some (u, r) →
    exec c s = .next (finish i (issOf i h d)
      (fun l => loadWrites i.dst size (((r.find? fun y => y.1 = l).map (·.2)).getD []) (Config.freeValue (u.freeN + l))) []
      (fun _ => i.pc + 16) (u.onFreeN (· + 32))))

/-- Fences and counter operations of threads (R222 to R225, R275 R276). Once the threads' earlier stores have drained, FENCE.O lets
the set go on; FENCE.C, once no other device owes an acknowledgement, first writes the group's dirty lines back, and with
INV writes back and invalidates the whole L1; a sync instruction whose operations are legal and none denied performs each
participating thread's operation in ascending lane order, and its set goes on to wait for the results. -/
def Obligations.FencesAndSyncComplete : Prop :=
  ∀ (i : Ins) (s d : State), drainLanes (insCore i s) (insKey i) (maskOf (insSet i s)) s = (d, true) →
  let own := ((insGroup i d).slot, (insGroup i d).launch, (insGroup i d).gid)
  (∀ (h : Shape), h = { early := false } → ready i h s = true → ready i h d = true →
    ∃ t, exec (.fenceO i) s = .next t ∧ Wrote i h (fun _ => []) [] (fun _ => i.pc + 16) d t) ∧
  (∀ (h : Shape), h = { early := false } → ready i h s = true → ready i h d = true → remoteStores d own = false →
    exec (.fenceC i) s = .next (finish i (issOf i h d) (fun _ => []) [] (fun _ => i.pc + 16) (writeBackOwned (insCore i d) own (issued i h d))) ∧
    exec (.fenceCInv i) s = .next (finish i (issOf i h d) (fun _ => []) [] (fun _ => i.pc + 16)
      (l1Invalidate (insCore i d) (l1Flush (insCore i d) (writeBackOwned (insCore i d) own (issued i h d)))))) ∧
  (∀ c op rd h u, (c = .syncAdd i rd ∧ op = 0x01 ∨ c = .syncSub i rd ∧ op = 0x02 ∨ c = .syncSet i rd ∧ op = 0x03 ∨ c = .syncTrydec i rd ∧ op = 0x04 ∨
      c = .syncWaitGe i rd ∧ op = 0x10 ∨ c = .syncWaitEq i rd ∧ op = 0x11 ∨ c = .syncWaitNz i rd ∧ op = 0x12) →
    h = { early := false, srcs := [(i.a, false)] ++ (if op = 0x12 then [] else [(i.b, true)]) ++ (if op ≤ 3 then [] else [(i.c, false)]), dst := i.dst } →
    ready i h s = true → ready i h d = true → vregOk (insGroup i d) rd true = true →
    badIds i op (issOf i h d) = [] → syncLanes i op rd (issOf i h d) (issued i h d) = (u, []) →
    exec c s = .next (u.onGroup (insKey i) fun a => a.advance (insSet i d) fun _ => i.pc + 16))

/-- SYNC_RESULT_RETURN (R276). Of a running group, once the operations of every thread of the set at an address are released: each
thread of the set receives its result code in the register its operation named and the counter value in the pair it named,
and waits no more; its other registers and all else of it, the group's other threads, and everything else of the group
and of the device stand as they stood. -/
def Obligations.SyncResultsReturn : Prop :=
  ∀ (core slot pc : Nat) (s : State), let k := gKey core slot; let g := s.group k
    s.idRuns core = true → g.stage = .running →
    (∀ l ∈ syncSet g pc, ∀ o, (g.thread l).sync = some o → o.fin = true ∧ o.dst ≤ 255 ∧ o.rd ≤ 255) →
    ∃ t, exec (.syncResultReturn core slot pc) s = .next t ∧
      (∀ l ∈ syncSet g pc, ∀ o, (g.thread l).sync = some o →
        { (t.group k).thread l with v := (g.thread l).v } = { g.thread l with sync := none } ∧
        ∀ n < 255, ((t.group k).thread l).v.get n = lastTo ((o.dst, BitVec.ofNat 32 o.code) :: wpair o.rd o.value) n ((g.thread l).v.get n)) ∧
      (∀ l, l ∉ syncSet g pc → (t.group k).thread l = g.thread l) ∧
      { t.group k with th := g.th } = g ∧ (∀ j, j ≠ k → t.group j = s.group j) ∧ { t with groups := s.groups } = s

/-- Instructions of the array and of the tile sequencer (R54 R58 to R63, R76, R91, R127 R129, R138 R139). For a group to which the
array is free: MMA with legal operands and room enters the array queue and the window; ACC.READ gives thread t column t
of the named row, and SAT in a predicate; ACC.CLEAR zeroes the named banks and their SAT bits, sets the fraction, and may
release the array; TSEQ.START queues the copied descriptor; TSEQ.WAIT returns the oldest unreported program's status and
tile; EXTENT.SET sets the three extents. -/
def Obligations.ArrayInstructionsComplete : Prop :=
  ∀ (i : Ins) (s : State), let g := insGroup i s; let p := insCore i s
  (∀ (h : Shape) gE pf qf accT bank zero retake bs ts, accT < 3 → retake < 3 → h = { grp := true, srcs := [(i.a, false), (i.b, false)] } → ready i h s = true →
    arrayFree i true s = true → (s.core p).mq.length < 4 →
    mmaOperands g gE pf qf accT (uval (issOf i h s) s 0 i.a) (uval (issOf i h s) s 1 i.b) = some (bs, ts) →
    exec (.mma i gE pf qf accT bank zero retake) s = .next (((uniUse [i.a, i.b] (held i h s)).onCore p fun c => { c with
        mq := c.mq ++ [{ owner := g.slot, winId := g.nextId, pfmt := pf, qfmt := qf, accT := accT, bank := bank, zero := zero, retake := retake
                         rn := ((uniUse [i.a, i.b] (held i h s)).core p).rn, g := gE, blocks := bs, tiles := ts }] }).onGroup (insKey i) fun a =>
      ({ a with win := a.win ++ [({ id := g.nextId, lanes := maskOf (insSet i s), setm := maskOf (insSet i s), pc := i.pc, use := .mma } : Win)],
                nextId := g.nextId + 1 } : Group).advance (insSet i s) fun _ => i.pc + 16)) ∧
  (∀ (h : Shape) bank row status, row < 64 → (∀ q, status = some q → q < 8) →
    h = { grp := true, srcs := (match i.a with | .u n => [(.u n, false)] | _ => []), dst := i.dst } → ready i h s = true →
    arrayFree i true s = true → bankBusy (s.core p) bank = false →
    exec (.accRead i bank row status) s = .next (finish i (issOf i h s) (fun l =>
      let r := match i.a with | .u n => (g.uget n).toNat % 64 | _ => row
      (i.dst, (if bank then (s.core p).acc1 else (s.core p).acc0).get (32 * r + l)) ::
        (match status with | some q => wpred g l q (if bank then (s.core p).sat1 else (s.core p).sat0) | none => []))
      [] (fun _ => i.pc + 16) (held i h s))) ∧
  (∀ (h : Shape) banks release setN, (∀ n, setN = some n → 1 ≤ n ∧ n ≤ 24) → h = { early := false, grp := true } → ready i h s = true →
    arrayFree i true s = true → (banks.getLsbD 0 = true → bankBusy (s.core p) false = false) →
    (banks.getLsbD 1 = true → bankBusy (s.core p) true = false) → (release = true → (s.core p).mq = []) →
    exec (.accClear i banks release setN) s = .next (finish i (issOf i h s) (fun _ => []) [] (fun _ => i.pc + 16)
      ((if release then arrRelease p else id) ((held i h s).onCore p fun c => { c with
        acc0 := if banks.getLsbD 0 then [] else c.acc0, sat0 := c.sat0 && !banks.getLsbD 0
        acc1 := if banks.getLsbD 1 then [] else c.acc1, sat1 := c.sat1 && !banks.getLsbD 1, rn := setN.getD c.rn })))) ∧
  (∀ (h : Shape) off, h = { early := false, grp := true, srcs := [(i.a, false)] } → ready i h s = true → arrayFree i false s = true →
    (s.core p).progs.length < 2 → off = uval (issOf i h s) s 0 i.a → off % 64 = 0 → off + 256 ≤ g.lsSize →
    tseqReason (readTbl g.ls off 256) off g.lsSize = none →
    exec (.tseqStart i) s = .next (finish i (issOf i h s) (fun _ => []) [] (fun _ => i.pc + 16)
      ((uniUse [i.a] (held i h s)).onCore p fun c => { c with progs := c.progs ++ [{ desc := readTbl g.ls off 256, pc := i.pc }] }))) ∧
  (∀ (h : Shape) us ut st tile rest, h = { grp := true, unis := [(us, false), (ut, false)] } → ready i h s = true → arrayFree i false s = true →
    (s.core p).doneProgs = (st, tile) :: rest →
    exec (.tseqWait i us ut) s = .next (notePop (issOf i h s) (st, tile) (finish i (issOf i h s) (fun _ => []) [(us, BitVec.ofNat 32 st), (ut, BitVec.ofNat 32 tile)]
      (fun _ => i.pc + 16) ((held i h s).onCore p fun c => { c with doneProgs := rest })))) ∧
  (∀ (h : Shape), h = { early := false, grp := true, srcs := [(i.a, false), (i.b, false), (i.c, false)] } → ready i h s = true → arrayFree i false s = true →
    exec (.extentSet i) s = .next (finish i (issOf i h s) (fun _ => []) [] (fun _ => i.pc + 16)
      ((uniUse [i.a, i.b, i.c] (held i h s)).onCore p fun c => { c with
        em := uval (issOf i h s) s 0 i.a, en := uval (issOf i h s) s 1 i.b
        ek := uval (issOf i h s) s 2 i.c, progs := c.progs.map (Prog.refetch c) })))

/-- What the array does by itself (R49, R51, R60, R63 to R65, R71 to R76, R110 to R118, R183). On a running core without a spare
switch, with a run to feed: its words stand in the latch; a plane step whose row, column and residue checks agree is folded
into the running sums and counted in the holder's accounting, and one that passed when fed again is recorded as corrected;
one that fails is fed again; a repeated failure of one row and one column switches the spare row in; the end of the switch is
recorded, with one more record where no spare of the core is left (the model's choice of when, notes/assumptions/71.md), and the
step is fed again. The update of the oldest run that is fed adds its running sums to the MMA's banks; a retake run starts once
its planes are there; the oldest finished MMA retires into the banks. -/
def Obligations.ArrayEventsComplete : Prop :=
  ∀ (p : Nat) (s : State),
  (∀ m0 r check, feeding s p = some (m0, r) → ∀ m s1 l, m = m0.begin r → s1 = (onFeed p (fun _ => m) s).onCore p (loadLatch m r) → l = (s1.core p).latch →
    (r.step % ((m.krun r).hi - (m.krun r).lo) = 0 → l = m.latchOf r.g ((m.krun r).pass r.step)) ∧
    (check.residue % 3 = 0 → m.failRows (m.krun r) l check r.step = [] → m.failCols (m.krun r) l check r.step = [] →
      exec (.planeStep p check) s = .next (acctHolder p aPlaneSteps 1 (onFeed p (fun w => { w with
        runs := w.runs.dropLast ++ [{ r with step := r.step + 1, sums := m.fold (m.krun r) l check r.step r.sums }], fails := 0 })
        (if m.fails = 1 then errAdd (coreRec s1 p clArray sevCorrected) s1 else s1)))) ∧
    (m.fails = 0 → (check.residue % 3 ≠ 0 ∨ m.failRows (m.krun r) l check r.step ≠ [] ∨ m.failCols (m.krun r) l check r.step ≠ []) →
      exec (.planeStep p check) s = .next (onFeed p (fun w => { w with fails := 1 }) s1)) ∧
    (∀ row col, m.fails = 1 → check.residue % 3 = 0 → m.failRows (m.krun r) l check r.step = [row] → m.failCols (m.krun r) l check r.step = [col] →
      (s1.core p).spareRow = none →
      exec (.planeStep p check) s = .next (s1.onCore p fun c => { c with spareRow := some row, switching := 1 + 256 * row }))) ∧
  ((s.core p).switching ≠ 0 → ∀ t, t = errAdd { (coreRec s p clArray sevCorrected) with synd := (s.core p).switching }
      (onFeed p (fun m => { m with fails := if m.fails = 1 then 2 else m.fails }) (s.onCore p fun c => { c with switching := 0 })) →
    exec (.spareSwitchDone p) s = .next (if (s.core p).spareRow.isSome && (s.core p).spareCol.isSome then poolRec p (pDie p) t else t)) ∧
  (∀ m r rest, s.coreRuns p = true → workOf (s.core p) = some m → m.runs = r :: rest → m.whole r = true → (m.nextG ≠ 0 ∨ bankRead (s.core p) m = false) →
    ∀ b, b = m.update (m.krun r) r.sums (startBanks (s.core p) m) →
    (r.retake = false → exec (.kgroupUpdate p) s = .next (baseUpdate p m b s) ∧
      (m.retake = 0 → baseUpdate p m b s = onWork p (fun w => ({ w.hold b with nextG := w.nextG + 1, runs := w.runs.drop 1 } : Mma).close) s)) ∧
    (r.retake = true → exec (.kgroupUpdate p) s = .next (onWork p
      (fun w => ({ w.hold b with ran := w.ran ++ [r.g], runs := w.runs.drop 1 } : Mma).close) s))) ∧
  (∀ m g d, feedOf (s.core p) = some m → s.coreRuns p = true → m.runs.all m.whole = true → m.nextRetake = some g → detailOf m g = some d →
    exec (.retakeRunStart p) s = .next (countRetake p (onFeed p (fun m => { m with runs := m.runs ++ [{ g := g, retake := true, detail := d }] }) s))) ∧
  (∀ m rest, (s.core p).mq = m :: rest → m.fin = true → s.coreRuns p = true → bankRead (s.core p) m = false →
    (m.kloop = true → exec (.mmaRetire p) s = .next (s.onCore p fun c => { c with
      mq := rest, acc0 := (m.into (s.core p).banks).a0, acc1 := (m.into (s.core p).banks).a1, sat0 := (m.into (s.core p).banks).s0, sat1 := (m.into (s.core p).banks).s1 })) ∧
    (∀ k, holderKey s p = some k → m.kloop = false → olderThan (s.group k) m.winId = false →
      exec (.mmaRetire p) s = .next ((s.onCore p fun c => { c with
        mq := rest, acc0 := (m.into (s.core p).banks).a0, acc1 := (m.into (s.core p).banks).a1, sat0 := (m.into (s.core p).banks).s0, sat1 := (m.into (s.core p).banks).s1 }).onGroup k
          fun g => retireSweep { g with win := g.win.map fun w => if w.id = m.winId then { w with fin := true } else w })))

/-- Programs and halo exchange of the tile sequencer (R127 R128, R140 to R144). The next program starts once every earlier one
is over; a region of the neighbour that an entry matches is placed between tiles and marked at its sender; its
acknowledgement frees the send buffer; an entry that waits past its bound ends the program; a finished program leaves the
queue with its status. -/
def Obligations.TileProgramEventsComplete : Prop :=
  ∀ (p : Nat) (s : State) (k : Nat) (g : Group), holderRuns s p = some (k, g) →
  (∀ l pr rest, startable (s.core p) = some (l, pr, rest) → ∀ r, r = edgeFill g.lcore (g.ls, { pr with started := true, startAt := s.now }) →
    exec (.tseqProgramStart p) s = .next ((s.onGroup k fun a => { a with ls := r.1 }).onCore p fun c =>
      { c with progs := sendAll g.lcore r.1 (l ++ absentFail s g.lcore r.2 :: rest) }) ∧
    (pr.d.haloCount = 0 → absentFail s g.lcore r.2 = { pr with started := true, startAt := s.now })) ∧
  (∀ ls (pr : Prog) o e n, pr.started = true → pr.d.haloCount = 1 → e = 0 → haloTo g.lcore (pr.d.halo e) = some n → pr.sends = [] →
    pr.sendDue g.lcore ls o = if 131072 < sendHeld o n + haloLines (pr.d.halo e) * haloLine (pr.d.halo e) then pr else
      { pr with sends := [{ entry := e, dest := n, tag := haloTag (pr.d.halo e), bytes := regionRd ls pr.d (pr.d.halo e) (sendOff (pr.d.halo e)) }] }) ∧
  (∀ entry pr n q x, (s.core p).progs.find? (awaits entry) = some pr → haloTo g.lcore (pr.d.halo entry) = some n → s.phys n = some q →
    senderOf s g g.lcore q (haloTag (pr.d.halo entry)) = some x → x.bytes.length = haloLines (pr.d.halo entry) * haloLine (pr.d.halo entry) →
    betweenTiles (s.core p) = true →
    exec (.haloPlace p entry) s = .next (onProg q (fun y => y.sends.contains x)
      (fun y => { y with sends := y.sends.map fun z => if z = x then { z with placed := true } else z })
      ((onProg p (awaits entry) (fun y => { y with placed := y.placed ++ [entry] })
          (s.onGroup k fun a => { a with ls := regionWr g.ls pr.d (pr.d.halo entry) (recvOff (pr.d.halo entry)) x.bytes })).onCore p fun c =>
        { c with progs := sendAll g.lcore (regionWr g.ls pr.d (pr.d.halo entry) (recvOff (pr.d.halo entry)) x.bytes) c.progs }))) ∧
  (∀ entry, exec (.haloAck p entry) s = .next ((onProg p (fun a => a.sends.any fun y => y.entry = entry && y.placed && !y.acked) (fun a => { a with
      sends := a.sends.map fun y => if y.entry = entry && y.placed && !y.acked then { y with acked := true, bytes := [] } else y }) s).onCore p fun c =>
    { c with progs := sendAll g.lcore g.ls c.progs })) ∧
  (∀ entry, exec (.haloTimeout p entry) s = .next (onProg p (fun a =>
      a.started && awaits entry a && a.d.haloTimeout != 0 && decide (a.startAt + 1000 * a.d.haloTimeout ≤ s.now))
    (fun a => a.haloFail 1 (needTile (a.d.halo entry))) s)) ∧
  (∀ pr rest, (s.core p).progs = pr :: rest → pr.isOver (s.core p) = true →
    (s.fab.reqs.any fun r => r.grp = some g.ident && r.win = 0 && r.pkt.type = 1) = false → pr.stopAt = none → halosDone g.lcore pr = true →
    (pr.storeBad = none → exec (.tseqProgramComplete p) s = .next (s.onCore p fun c => { c with progs := rest, doneProgs := c.doneProgs ++ [(0, pr.d.tiles)] })) ∧
    (∀ t a n, pr.storeBad = some (t, a, n) → exec (.tseqProgramComplete p) s =
      .next ((tseqRecord p g clTier a n s).onCore p fun c => { c with progs := rest, doneProgs := c.doneProgs ++ [(5, t)] })))

/-- Fetches, passes and stores of a tile program at work, and the counts a core sends (R123 R125, R128 to R148). With no walk of the
sequencer's stream pending (R255), the operands of the next pass arrive within RUNAHEAD and wait in order; a pass whose halos
are placed and whose bank is free enters the array queue as a K-loop; under LATE the chosen block's detail planes arrive; a
store writes every piece of the oldest retired pass, counts it, and frees its bank; the kernel engine adds the oldest bins, and
the oldest clip count, of a core to the launch. -/
def Obligations.TilePassEventsComplete : Prop :=
  ∀ (p : Nat) (s : State),
  (∀ x y, tq? s p = some x → x.pr.fetchPos x.c = some y → x.pr.room y (passFill s x y) = true → x.walks (· != needW) s = false →
    ∀ x', x' = { x with ahead := decide (x.pr.now y < y.tile) } →
    exec (.tseqFetchReturn p) s = .next (fetchPass x' y s) ∧
    (ctrlOf s x y = none → tseqRanges x' needR s (passRanges s x y) = .ok → x.d.retakes = false → x.d.op = 0 → ∃ z u,
      fetchPass x' y s = onCur p (fun g => { g with buf := g.buf ++ [z], panel := g.keep y z.pbuf z.qbuf z.elig, got := [], bad := [] }) u ∧
      u.core p = s.core p ∧ (u.group x.k).ls = opbufPut x.pr y z.pbuf z.qbuf x.g.ls ∧
      (x.d.pLocal = false → x.pr.held false y = none → z.pbuf = passBlocks s x y) ∧ (∀ h, x.pr.held false y = some h → z.pbuf = h.data) ∧
      (x.d.qHere = false → x.pr.held true y = none → z.qbuf = passTiles s x y) ∧ (∀ h, x.pr.held true y = some h → z.qbuf = h.data))) ∧
  (∀ x y rest bs, tq? s p = some x → x.pr.buf = y :: rest →
    (∀ e < x.d.haloCount, y.tile < needTile (x.d.halo e) ∨ e ∈ x.pr.placed) →
    (∀ z ∈ x.pr.flight, x.d.mode = .single ∧ z.bank ≠ x.pr.bank) → x.g.stop = none → x.c.mq.length < 4 →
    bs = (if x.d.pLocal then passBlocks s x y else y.pbuf) → (∀ i < bs.length, blkOk x.d.pf x.d.accT i (bs.getD i []) = true) →
    ∃ m : Mma, m.owner = x.g.slot ∧ m.kloop = true ∧ m.bank = x.pr.bank ∧ m.zero = true ∧ m.blocks = bs ∧
      m.tiles = (if x.d.qHere then passTiles s x y else y.qbuf) ∧ m.g = bs.length ∧
      exec (.tseqPassStart p) s = .next ((onCur p (fun g => { g with
          buf := rest, flight := g.flight ++ [{ y with bank := g.bank, pbuf := [], qbuf := [] }], tile := y.tile, pass := y.pass + 1
          tileExt := some y.ext, bank := if x.d.mode = .single then !g.bank else g.bank })
        (if x.d.qMode = 2 then s.onGroup x.k fun g => { g with ls := opbufPut { x.pr with flight := [], buf := [] } y [] m.tiles g.ls } else s)).onCore p
        fun c => { c with mq := c.mq ++ [m] })) ∧
  (∀ x m block, tq? s p = some x → workOf (s.core p) = some m → m.kloop = true → m.late = true → m.due.contains block = true →
    m.ran.contains block = false → blkStaged (m.blk block) = false → m.dbuf.get block = [] → x.walks (· != needW) s = false →
    tseqRanges x needR s (detailSpans x.d (m.live.getD (64, 0, 0)).1 (m.blk block)) = .ok →
    ∃ u, exec (.detailFetchReturn p block) s = .next (onCur p (fun g => { g with got := [], bad := [] }) (onWork p
        (fun w => { w with dbuf := w.dbuf.put block (lateRows s x m block) }) u)) ∧ u.core p = s.core p) ∧
  (∀ x y ys, tq? s p = some x → unstored x.c = y :: ys → x.d.op = 0 → x.walks (· = needW) s = false →
    let o := storePieces x.d x.c (s.launches.get x.g.launch).seed y (oldRow x y)
    tseqRanges x needW s ((o.2.filter (Piece.far x.d)).map Piece.range) = .ok →
    ∃ u, exec (.tseqStoreComplete p) s = .next (onCur p (fun g => { g with flight := g.flight.drop 1, got := [], bad := [] }) (clipStep x y o.1 u)) ∧
      u.mem = (o.2.foldl (fun u q => (putPiece x y q u).1) s).mem) ∧
  (∀ k b rest, s.pwr.state ≠ .fatal → (s.core p).lmSent = (k, b) :: rest → (s.launches.get k).live = true →
    exec (.lmBinsMerge p) s = .next ((s.onLaunch k fun l => { l with lm := l.lm.add b, cores := if l.cores.contains p then l.cores else l.cores ++ [p] }).onCore p
      fun c => { c with lmSent := rest })) ∧
  (∀ k n rest, s.pwr.state ≠ .fatal → (s.core p).clipPend = (k, n) :: rest → (s.launches.get k).live = true →
    (s.launches.get k).clipT = 0 ∨ (s.launches.get k).clipTot + n < (s.launches.get k).clipT ∨ (s.launches.get k).clipped = true →
    exec (.clipTotalUpdate p) s = .next ((s.onCore p fun c => { c with clipPend := rest }).onLaunch k fun l =>
      { l with clipTot := (s.launches.get k).clipTot + n }))

/-- Governors, the cap and its budgets (R29, R32, R35 to R37, R406). A governor's tick sets every quad of its die: one without a core in
service is off and its cores keep only what Plowin keeps of them; an operating one takes 5 mV less while the die is hot, else
a busy one moves toward the legal voltage its even share of the budget allows, at most 100 mV a tick, and another stays;
quads of other dies stay, and cores of quads that are on. A budget tick under the cap sets every die's budget; a
requested cap is in force once its time has come, and never above the board's or a rail's. -/
def Obligations.GovernorAndCapComplete : Prop :=
  (∀ die tj load floor gated (s : State), die < 8 → s.pwr.islands = true → s.pwr.state ≠ .fatal →
    ∃ t, exec (.governorTick die tj load floor gated) s = .next t ∧
      let thermal := decide (95 < tj) || ((s.pwr.gov.get die).thermal && decide (93 < tj))
      let share := (s.pwr.gov.get die).budget / max 1 ((List.range 36).filter (quadBusy s die)).length
      let target := if floor then 550 else max 550 (min 900 (Config.quadMv share load / 5 * 5))
      (t.pwr.gov.get die).thermal = thermal ∧ (t.pwr.gov.get die).tj = tj ∧
      (∀ q < 36, (t.quad die q).mode = if quadDead s die q then .off else (s.quad die q).mode) ∧
      (∀ q < 36, quadDead s die q = false → (s.quad die q).mode = .operating →
        (t.quad die q).mv = if thermal then max 550 ((s.quad die q).mv - 5)
          else if quadBusy s die q = false then (s.quad die q).mv
          else if (s.quad die q).mv ≤ target then min target ((s.quad die q).mv + 100) else max target ((s.quad die q).mv - 100)) ∧
      (∀ d q, d ≠ die → d < 8 → q < 36 → t.quad d q = s.quad d q) ∧
      (∀ p, p < 1152 → t.core p = if pDie p = die ∧ quadDead s die (pQuad p) = true then
        { Core.kept (s.core p) with lmSent := (s.core p).lmSent, clipPend := (s.core p).clipPend, work := (s.core p).work, workAt := (s.core p).workAt } else s.core p) ∧
      { t with pwr := s.pwr, cores := s.cores } = s) ∧
  (∀ w m budgets (s : State), s.pwr.islands = true → budgets.sum ≤ s.pwr.cap →
    ∃ t, exec (.budgetTick w m budgets) s = .next t ∧ (∀ d < 8, t.pwr.gov.get d = { s.pwr.gov.get d with budget := budgets.getD d 0 }) ∧
      t.pwr.powerW = w % 65536 ∧ t.pwr.maxTj = m % 256 ∧ { t with pwr := s.pwr } = s) ∧
  (∀ w t0 rest (s : State), s.pwr.newCaps = (w, t0) :: rest → t0 ≤ s.now →
    ∃ t, exec .capTakesEffect s = .next t ∧ t.pwr = { s.pwr with newCaps := rest, reqCap := w, cap := min (min w s.pwr.boardCap) (s.pwr.vrCap.getD s.pwr.boardCap) } ∧
      { t with pwr := s.pwr } = s)

/-- Lending (R38 to R41). A quad that has been idle drops, writes its cores' dirty lines back before the ramp, and reaches 0.45 V; its
budget may be lent from the drop on; a waking event keeps it running at 0.55 V or above and wakes it otherwise, recorded
invalidations being applied before it runs; the budget returns while it wakes or runs. -/
def Obligations.BudgetLendingCompletes : Prop :=
  ∀ (die q : Nat) (s : State), die < 8 → q < 36 → let k := 36 * die + q; let x := s.quad die q
  (x.mode = .operating → quadIdle s die q = true → s.pwr.state ≠ .fatal →
    exec (.quadIdleDrop die q) s = .next (s.onQuad k fun x => { x with mode := .dropping, wrote := false })) ∧
  (x.mode = .dropping → exec (.quadWritebackDone die q) s = .next ((forAll (coresOfQuad die q) l1Flush s).onQuad k fun x =>
    { x with mode := .ramping, wrote := true, rampAt := (forAll (coresOfQuad die q) l1Flush s).now })) ∧
  (x.mode = .ramping → exec (.quadRetentionReached die q) s = .next (s.onQuad k fun x => { x with mode := .retention, mv := 450 })) ∧
  (x.lent = false → x.mode = .dropping ∨ x.mode = .ramping ∨ x.mode = .retention →
    exec (.budgetLend die q) s = .next (s.onQuad k fun x => { x with lent := true })) ∧
  (x.mode = .dropping → exec (.quadWake die q) s = .next (s.onQuad k fun x => { x with mode := .operating })) ∧
  (x.mode = .ramping → 550 ≤ rampMv x s.now →
    exec (.quadWake die q) s = .next (applyInval k (s.onQuad k fun y => { y with mode := .operating, mv := rampMv x s.now }))) ∧
  (x.mode = .ramping → rampMv x s.now < 550 → exec (.quadWake die q) s = .next (s.onQuad k fun y => { y with mode := .waking, mv := rampMv x s.now })) ∧
  (x.mode = .retention → exec (.quadWake die q) s = .next (s.onQuad k fun x => { x with mode := .waking })) ∧
  (x.mode = .waking → exec (.quadWakeComplete die q) s = .next (applyInval k (s.onQuad k fun x => { x with mode := .operating, mv := 550 }))) ∧
  (x.lent = true → x.mode = .operating ∨ x.mode = .waking → exec (.budgetReturn die q) s = .next (s.onQuad k fun x => { x with lent := false }))

/-- Device time (R42, R44, R46). A read of the low half of TSC_TIME answers the low half and captures the high one for the reader alone;
a lost reference unlocks the counter and raises its flag; when it returns the counter slews off what it gained meanwhile,
and is locked once nothing is left to slew; the time itself does not move. -/
def Obligations.DeviceTimeCommandsComplete : Prop :=
  ∀ (s : State),
  (∀ f, f < 64 → ∃ t, exec (.tscTimeLowRead f) s = .next t ∧ t.lastRead = BitVec.ofNat 64 (s.now % 2 ^ 32) ∧
    (t.fn f).tscHi = BitVec.ofNat 32 (s.now / 2 ^ 32) ∧ (∀ f', f' ≠ f → t.fn f' = s.fn f') ∧ t.tsc = s.tsc ∧
    { t with fns := s.fns, lastRead := s.lastRead } = s) ∧
  (∀ p, p < 1152 → ∃ t, exec (.tscTimeLowRead (64 + p)) s = .next t ∧ t.lastRead = BitVec.ofNat 64 (s.now % 2 ^ 32) ∧
    (t.core p).tscHi = BitVec.ofNat 32 (s.now / 2 ^ 32) ∧ (∀ q, q ≠ p → t.core q = s.core q) ∧ t.tsc = s.tsc ∧
    { t with cores := s.cores, lastRead := s.lastRead } = s) ∧
  (s.tsc.ref = true → exec .tscReferenceLoss s = .next ((s.onTsc fun t => { t with ref := false, locked := false }).onPwr
    fun w => { w with tscUnlocked := w.tscUnlocked.raise })) ∧
  (s.tsc.ref = true → exec .tscReferenceReturn s = .next s) ∧
  (s.tsc.ref = false → s.tsc.slew ≠ s.tsc.drift →
    exec .tscReferenceReturn s = .next (s.onTsc fun t => { t with ref := true, relock := true, slew := t.slew - t.drift, drift := 0 })) ∧
  (s.tsc.ref = false → s.tsc.slew = s.tsc.drift →
    exec .tscReferenceReturn s = .next (s.onTsc fun t => { t with ref := true, relock := false, locked := true, slew := 0, drift := 0 }))

/-- Requests at a home and what the tier and HBM do (R188 to R193, R203, R206 to R215, R235 R266). A request that the checks admit, with
no error met, is served: an uncached bulk read answers the bytes at its address, a bulk write leaves them there; a denied
one is answered so and recorded; a stale one gets no answer. A fill is installed, a dirty victim leaves and is then
written back, which frees its entry for a fill or a walk that waits; an L1 line is written back, an overdue owner poisons its
line in POISON mode and stops the die in DOWN mode; a slice whose walk is over and acknowledged ends its conversion; a scrub
records what it meets, and a spare segment, taken when the remap starts, or frame takes over; the last spare's use is
recorded (R382; when, is the model's choice, notes/assumptions/71.md). -/
def Obligations.HomeAndTierEventsComplete : Prop :=
  ∀ (s : State),
  (∀ (r : HomeReq), r.remote = none → (∃ d, zoneOf r.pa = .hbm d ∨ zoneOf r.pa = .pinned d) →
    (mayEnter s r.ctx r.gen r.mgmt r.pa = .stale → exec (.homeRequest r) s = .next s) ∧
    (mayEnter s r.ctx r.gen r.mgmt r.pa = .denied → exec (.homeRequest r) s = .next (homeAnswer r ansDenied [] (denyRec r.ctx r.gen r.pa s))) ∧
    (mayEnter s r.ctx r.gen r.mgmt r.pa = .ok → fencedAt s r.pa = false → r.err = .none_ → r.kind = .bulkRead →
      tierBegin (lineOf r.pa) false (decide (reqLen r = 128)) s = none → poisonOffs (tierTouch (lineOf r.pa) false false s) r.pa (reqLen r) = [] →
      exec (.homeRequest r) s = .next (homeAnswer r ansData ((tierTouch (lineOf r.pa) false false s).rd r.pa (reqLen r)) (tierTouch (lineOf r.pa) false false s))) ∧
    (mayEnter s r.ctx r.gen r.mgmt r.pa = .ok → fencedAt s r.pa = false → r.err = .none_ → r.kind = .bulkWrite →
      tierBegin (lineOf r.pa) true (decide (reqLen r = 128)) s = none → ∀ u, bulkWriteLine (lineOf r.pa) (withOffsets (r.pa % 128) (padTo (reqLen r) r.data)) [] s = (u, false) →
        exec (.homeRequest r) s = .next (homeAnswer r ansData [] u)) ∧
    (mayEnter s r.ctx r.gen r.mgmt r.pa = .ok → fencedAt s r.pa = false → r.err = .none_ → r.kind = .bulkRead ∨ r.kind = .bulkWrite →
      ∀ u, tierBegin (lineOf r.pa) (decide (r.kind = .bulkWrite)) (decide (reqLen r = 128)) s = some u → exec (.homeRequest r) s = .next (homeAnswer r ansWaits [] u))) ∧
  (∀ die slice bank l w, (s.slice (64 * die + slice)).blocked.get bank = l + 1 → (s.slice (64 * die + slice)).fill.get bank = w + 1 →
    (let u := s.onSlice (64 * die + slice) fun x => { x with blocked := x.blocked.put bank 0, fill := x.fill.put bank 0 }
     (s.slice (64 * die + slice)).openWays.contains w = true →
       exec (.tierFillComplete die slice bank) s = .next (putLine (64 * die + slice) l w false (hbmPoison u l) u))) ∧
  (∀ die slice v, (s.slice (64 * die + slice)).victims.find? (fun v => v.dirty && !v.flight) = some v → exec (.victimWritebackSend die slice) s =
    .next (s.onSlice (64 * die + slice) fun x => { x with victims := x.victims.map fun y => if y = v then { y with flight := true } else y })) ∧
  (∀ die slice v, (s.slice (64 * die + slice)).victims.find? (·.flight) = some v → exec (.victimWritebackAck die slice) s =
    .next (convWalk (64 * die + slice) (fillRetry (64 * die + slice) (hbmWriteBack v.addr v.poison (dropVictim (64 * die + slice) v.addr s))))) ∧
  (∀ p line, mute s p (lineOf line) = false → asleep s p = false → s.pwr.state ≠ .fatal → exec (.l1Writeback p line) s = .next (l1WriteBack p (lineOf line) s)) ∧
  (∀ line a t0, (lineOf line, a, t0) ∈ s.tier.waits → t0 + 20000 ≤ s.now →
    exec (.homeAnswerTimeout line) s = .next (if s.tier.down then domainStop (homeDie (lineOf line)) s
      else homePoison (lineOf line) (s.tier.waits.filter (·.1 = lineOf line)) s)) ∧
  (∀ die, die < 8 → (s.tier.dies.get die).stopped = true → exec (.dieRestartComplete die true) s = .next (dieRejoin die s) ∧
    ((s.tier.dies.get die).fails = 0 → exec (.dieRestartComplete die false) s = .next (s.onDom die fun x => { x with fails := x.fails + 1 }))) ∧
  (∀ die slice np, (s.slice (64 * die + slice)).target = some np → convDone (convWalk (64 * die + slice) s) (64 * die + slice) = true →
    exec (.tierConversionComplete die slice) s = .next (convEnd (64 * die + slice) np (convWalk (64 * die + slice) s))) ∧
  (∀ pa stack p, storeOf s pa stack = .hbm → exec (.patrolScrub pa stack (.correctable p)) s = .next (hbmCorrected (stackAt s pa).1 pa p s)) ∧
  (∀ d i seg, d < 8 → i < 64 → seg < 128 → (s.slice (64 * d + i)).moving = none → seg ∈ (s.slice (64 * d + i)).due →
    ∀ n t, spareFree s (64 * d + i) = some n → t = s.onSlice (64 * d + i) (fun x => { x with moving := some (seg, n) }) →
      exec (.segmentRemapStart (.segment d i seg)) s = .next (if spareLeft t (64 * d + i) = 0 then poolRec (64 * d + i) d t else t)) ∧
  (∀ h f, h < nStacks s.variant → f < 0xF0000 → (s.tier.hbms.get h).moving = none → f ∈ (s.tier.hbms.get h).due → (s.tier.hbms.get h).retired < 65536 →
    ∀ t, t = s.onStack h (fun x => { x with moving := some f }) →
      exec (.segmentRemapStart (.frame h f)) s = .next (if (s.tier.hbms.get h).retired = 65535 then poolRec h (stackDie s.variant h) t else t)) ∧
  (∀ d i seg n, (s.slice (64 * d + i)).moving = some (seg, n) → (s.slice (64 * d + i)).segs.get seg = 0 →
    exec (.segmentRemapComplete (.segment d i seg)) s = .next (errAdd { (sliceRec (64 * d + i) clTier sevCorrected 0) with flags := 0, synd := seg + 256 * n }
      (s.onSlice (64 * d + i) fun x => { x with
        segs := x.segs.put seg (n + 1), moving := none, due := x.due.erase seg, errs := x.errs.put seg [], remapped := x.remapped.raise }))) ∧
  (∀ h f, (s.tier.hbms.get h).moving = some f → exec (.segmentRemapComplete (.frame h f)) s = .next (errAdd
    (stackRec s.variant h clHbm sevCorrected (stackAddr s h (65536 * f))) (s.onStack h fun x => { x with
      frames := x.frames.put f (x.retired + 1), retired := x.retired + 1, moving := none, due := x.due.erase f, errs := x.errs.put f [], retiredF := x.retiredF.raise })))

/-- Walks, fault rings and decisions (R251 to R263). A miss of a stream waits in its die's walk order, where free walkers take it up to the stream's limit; a walk that ends at a usable
leaf fills the stream's micro-TLB and its die's TLB; a head of the fault ring that follows R262 is taken, another one is
recorded and changes nothing of the ring; a decision under a context's current generation takes effect on the stalled
streams it names, under another one on none; a mapping change with no pinned page and no access under the old entries
left is answered. -/
def Obligations.TranslationEventsComplete : Prop :=
  ∀ (s : State),
  (∀ stream ctx va need die, die = strmDie s.variant (strmOf stream) → strmOf stream ≠ .none_ → (s.ctx ctx).live = true → s.pwr.state ≠ .fatal →
    ((s.xl.micro.get stream).any (·.covers ctx (s.ctx ctx).gen va)) = false → walkPends s stream ctx va = false →
    ((s.xl.die.get die).find? (·.covers ctx (s.ctx ctx).gen va)) = none →
    exec (.tlbMissWalkStart stream ctx va need) s = .next (s.onXl fun y => { y with walks := y.walks.put die (walksGo (s.xl.walks.get die ++ [{ stream := stream, ctx := ctx, gen := (s.ctx ctx).gen, va := va, need := need }])) })) ∧
  (∀ stream die w l, die = strmDie s.variant (strmOf stream) → s.pwr.state ≠ .fatal →
    (s.xl.walks.get die).find? (fun w => w.stream = stream && w.busy) = some w → genOk s w.ctx w.gen = true →
    walkLeaf s die w.ctx w.va = some l → leafMalformed s l = false → l.entry.toNat &&& w.need = w.need →
    ∃ t, exec (.pageWalkComplete stream) s = .next t ∧
      { ctx := w.ctx, gen := w.gen, va := l.va, size := l.size, entry := l.entry } ∈ t.xl.micro.get stream ∧
      { ctx := w.ctx, gen := w.gen, va := l.va, size := l.size, entry := l.entry } ∈ t.xl.die.get die ∧
      t.xl.leaves = s.xl.leaves ∧ t.xl.stalls = s.xl.stalls ∧ { t with xl := s.xl, freeN := s.freeN } = s) ∧
  (∀ f v, f < 64 → headOk (s.fn f).fault.head v (s.fn f).fault.tail = true →
    exec (.errFaultHeadWrite f v) s = .next (ringFlush f .fault (s.onFn f fun x => { x with fault := { x.fault with head := v } }))) ∧
  (∀ f v, f < 64 → headOk (s.fn f).fault.head v (s.fn f).fault.tail = false →
    exec (.errFaultHeadWrite f v) s = .next (errAdd (plowinRec s clAccess sevContained) s)) ∧
  (∀ f c gen seq upto, genOk s c gen = false → exec (.faultReplay f c gen seq upto) s = .next s ∧ exec (.faultAbandon f c gen seq upto) s = .next s) ∧
  (∀ f c gen seq (t : Stall), genOk s c gen = true → s.xl.stalls.filter (fun t => t.fn = f && t.ctx = c && t.gen == gen && BitVec.ofNat 32 t.seq == seq) = [t] →
    exec (.faultReplay f c gen seq false) s = .next (stallDecide t false s) ∧ exec (.faultAbandon f c gen seq false) s = .next (stallDecide t true s)) ∧
  (∀ id m, s.xl.changes.find? (·.id = id) = some m → pinned s m = false → oldAccess s m = false → s.mgmt.ready = true →
    exec (.mappingChangeComplete id) s = .next (pmiAnswer m.h m.code pOk m.detail.toNat m.payload
      (granRelease m.old (s.onXl fun y => { y with changes := y.changes.erase m }))))

/-- Counter operations of an agent and of the host (R272 to R274, R276, R280). On a SHARED counter without waiters that the context
may use, ADD, SUB and SET leave the sum, the difference and the operand, modulo 2^64, TRYDEC takes the operand away where
the value allows it, and a wait that the value satisfies changes nothing; the doorbell does the same for the host. -/
def Obligations.CounterOperationsComplete : Prop :=
  ∀ (s : State) (id : Nat) (c : Ctr), c = s.sync.ctrs.get id → isFenceId id = false → idOk id = true → c.owned = false → c.abandoned = false →
    s.sync.waits = [] →
  (∀ (o : CtrOp), o.id = id → o.thr = none → genOk s o.ctx o.gen = true → ctrAllowed s c o.ctx = true →
    (o.op = 0x01 → exec (.counterOp o) s = .next (s.onCtr id fun c => { c with value := c.value + o.v })) ∧
    (o.op = 0x02 → exec (.counterOp o) s = .next (s.onCtr id fun c => { c with value := c.value - o.v })) ∧
    (o.op = 0x03 → exec (.counterOp o) s = .next (s.onCtr id fun c => { c with value := o.v })) ∧
    (o.op = 0x04 → o.v.toNat ≤ c.value.toNat → exec (.counterOp o) s = .next (s.onCtr id fun c => { c with value := c.value - o.v })) ∧
    (o.op = 0x10 → o.v.toNat ≤ c.value.toNat → exec (.counterOp o) s = .next s) ∧
    (o.op = 0x11 → c.value = o.v → exec (.counterOp o) s = .next s) ∧ (o.op = 0x12 → c.value ≠ 0 → exec (.counterOp o) s = .next s)) ∧
  (∀ fn ctx (d : Door), d.id.toNat = id → d.sized = true → d.listed = true → pageOwned s fn ctx = true → ctrAllowed s c ctx = true →
    exec (.doorbellAdd fn ctx d) s = .next (s.onCtr id fun c => { c with value := c.value + d.value }) ∧
    exec (.doorbellSub fn ctx d) s = .next (s.onCtr id fun c => { c with value := c.value - d.value }) ∧
    exec (.doorbellSet fn ctx d) s = .next (s.onCtr id fun c => { c with value := d.value }))

/-- Waits in the table, and watches and fences of the host (R274 R275, R280 to R286). A wait past its deadline is released with TIMEOUT; the
oldest deferred wait of a die is registered when there is an entry, and stays where its condition does not hold; a watch
whose condition holds writes its record at once, another one is registered; a fence the context may use is signalled,
cleared or armed: its entry in host memory follows. -/
def Obligations.WaitsWatchesFencesComplete : Prop :=
  ∀ (s : State),
  (∀ n w t0, (s.sync.waits ++ s.sync.queued)[n]? = some w → w.deadline = some t0 → t0 ≤ s.now → w.fence = false →
    exec (.waitTimeout n) s = .next (release w rTimeout 0 (s.onSync fun y => { y with queued := y.queued.erase w }))) ∧
  (∀ die w, s.sync.queued.filter (fun w => ctrDie w.id = die) = [w] → entryCount (tableWaits s die) < 8192 →
    (s.sync.waits.filter fun x => !x.fence && x.id = w.id) = [] →
    (s.sync.ctrs.get w.id).abandoned = false → w.fence = false → syncCond w.cond (s.sync.ctrs.get w.id).value w.value = false →
    exec (.waitRegisterDeferred die) s = .next (s.onSync fun y => { y with queued := y.queued.erase w, waits := y.waits ++ [w] })) ∧
  (∀ fn ctx (d : Door) op (cmd : Instr), (op = 0x10 ∧ cmd = .watchGe fn ctx d ∨ op = 0x11 ∧ cmd = .watchEq fn ctx d ∨ op = 0x12 ∧ cmd = .watchNz fn ctx d) →
    isFenceId d.id.toNat = false → idOk d.id.toNat = true → d.sized = true → d.listed = true → pageOwned s fn ctx = true →
    ctrAllowed s (s.sync.ctrs.get d.id.toNat) ctx = true → (s.sync.ctrs.get d.id.toNat).abandoned = false → armedWatches s fn < 4096 →
    ∀ w : Wait, w = { who := .watch, grp := fn, lanes := 1, fence := false, id := d.id.toNat, cond := op, value := if op = 0x12 then 0 else d.value, ctx := ctx, gen := (s.ctx ctx).gen, src := 0x0FFF, tag := d.tag.toNat, irq := d.flags.getLsbD 0 } →
    (syncCond op (s.sync.ctrs.get d.id.toNat).value w.value = true → exec cmd s = .next (notifyPush w 0 (s.sync.ctrs.get d.id.toNat).value s)) ∧
    (syncCond op (s.sync.ctrs.get d.id.toNat).value w.value = false → entryCount (tableWaits s (ctrDie d.id.toNat)) < 8192 →
      queuedWaits s (ctrDie d.id.toNat) = [] →
      exec cmd s = .next (s.onSync fun y => { y with waits := y.waits ++ [w] }))) ∧
  (∀ fn ctx (d : Door) k, isFenceId d.id.toNat = true → idOk d.id.toNat = true → d.sized = true → d.listed = true → pageOwned s fn ctx = true →
    fenceAllowed s d.id.toNat ctx = true → k = fenceKey d.id.toNat →
    ((s.sync.fences.get k).st = .unsignalled → exec (.doorbellFenceSignal fn ctx d) s = .next (fenceMove k .signalled 0x0FFF s)) ∧
    ((s.sync.fences.get k).st = .signalled → exec (.doorbellFenceSignal fn ctx d) s = .next s ∧ exec (.fenceClear fn ctx d) s = .next (fenceMove k .unsignalled 0x0FFF s)) ∧
    ((s.sync.fences.get k).st = .unsignalled → exec (.fenceArm fn ctx d) s =
      .next (fenceSlots k (fenceStore k (s.onFence k fun f => { f with armed := true, vector := d.value.toNat % 2048 })))))

/-- Queues (R289 R292 R301 to R304 R364). A function's doorbells of its own queue: a tail less than 2^31 past the present one and
at most the ring's size past the head is taken, and a queue without a slot that has entries is pending from then on; a
completion head between the present one and the completion tail is taken, and the reports of the consumed records are
given back; any other value changes nothing but for the error record. A doorbell of a queue that is not the function's
own changes nothing but for the error record. RING_ENTRY_FETCH reads the next entry of a queue that may read and opens its
list, where the entry is well formed. SUBMISSION_HEAD_WRITE writes the count of finished entries at the head address and
takes it as the head, and a queue with nothing left gives up its slot. PACKET_COMPLETE lets the oldest packet, once it has completed,
leave the queue and be counted; where it is recorded, its report, its record in the next completion slot and the new
tail are written first, and its interrupt is raised. -/
def Obligations.QueueCommandsComplete : Prop :=
  ∀ (eng q : Nat) (s : State), q < 1024 → eng < 32 → let k := queueKey eng q; let x := s.queue k
  (∀ fn v, x.live = true → x.fn = fn → (v - x.tail).toNat < 2 ^ 31 → (v - x.head).toNat ≤ 2 ^ x.s →
    exec (.qdoorTail fn eng q v) s = .next (s.onQueue k fun y => { y with
      tail := v, pendAt := if y.resident || v = y.head then y.pendAt else some (y.pendAt.getD s.now), crowd := y.crowd || (!y.resident && v != y.head && slotsFull s (k / 1024)) })) ∧
  (∀ fn v, x.live = true → x.fn = fn → (v - x.chead).toNat < 2 ^ 31 → (x.ct - v).toNat < 2 ^ 31 →
    exec (.qdoorChead fn eng q v) s = .next (s.onQueue k fun y => { y with
      chead := v, fspans := y.fspans.filter fun (n, _) => decide (2 ^ 31 ≤ (v - 1 - BitVec.ofNat 32 n).toNat) })) ∧
  (∀ fn v, x.live = true → x.fn = fn →
    (2 ^ 31 ≤ (v - x.tail).toNat ∨ 2 ^ x.s < (v - x.head).toNat → exec (.qdoorTail fn eng q v) s = .next (errAdd (regRefused s (.fn fn) (qdoorPa k)) s)) ∧
    (2 ^ 31 ≤ (v - x.chead).toNat ∨ 2 ^ 31 ≤ (x.ct - v).toNat → exec (.qdoorChead fn eng q v) s = .next (errAdd (regRefused s (.fn fn) (qdoorPa k + 4)) s))) ∧
  (∀ fn v, x.live = false ∨ x.fn ≠ fn →
    exec (.qdoorTail fn eng q v) s = .next (bar0Refused fn (qdoorOff eng q) s) ∧ exec (.qdoorChead fn eng q v) s = .next (bar0Refused fn (qdoorOff eng q) s)) ∧
  (∀ b u, queueReady s eng k = true → (x.pkts.any (·.st = .waiting)) = false → x.listOn = false → x.ent ≠ x.tail →
    queueRead k (x.ring + 16 * (x.ent.toNat % 2 ^ x.s)) 16 s = .ok b u → entryOk b = true →
    exec (.ringEntryFetch eng q) s = .next (u.onQueue k fun y => { y with
      ent := y.ent + 1, listOn := true, listAt := fieldN b 0 8, listLen := fieldN b 8 4, listOff := 0, stopOnFail := (fieldN b 12 4).testBit 0, got := [], bad := [] })) ∧
  (∀ u, x.live = true → engineRuns s eng = true → x.stalled = false → x.finished ≠ x.head → (x.finished - x.head).toNat < 2 ^ 31 →
    queueWrites k [(x.headAddr, leBytes 4 x.finished.toNat)] s = .ok u →
    exec (.submissionHeadWrite eng q) s = .next (drainCheck k (u.onQueue k fun y =>
      { y with head := x.finished, resident := y.resident && x.finished != y.tail, pendAt := if x.finished = y.tail then none else y.pendAt }))) ∧
  (∀ p rest, x.live = true → (s.engines.get eng).out = false → x.pkts = p :: rest → x.stalled = false → s.pwr.state ≠ .fatal → p.st = .done →
    (p.records = false → exec (.packetComplete eng q) s = .next (drainCheck k (pktRetire k p s))) ∧
    (∀ pos u, p.records = true → recordsHeld s x = false → x.full = false → x.place (reportBytes p x.f) = some pos → queueWrites k (recordBytes s x p pos) s = .ok u →
      let v := u.onQueue k fun y => y.recorded (reportBytes p x.f) pos
      exec (.packetComplete eng q) s = .next (drainCheck k (pktRetire k p (if p.irq then msixRaise x.fn x.vector v else v)))))

/-- Control packets (R291 R294 R295). A packet that is next in a queue that may start packets, its fields legal: NOP and MARKER
finish OK, MARKER with its value in its record; JUMP finishes OK, and the list goes on at its target; TIMESTAMP takes device
time, writes it where it names an address that may be written, and finishes OK, or FAILED_POISON where the write met poison. SIGNAL
and FENCE_SIGNAL end with the result of the sync operation; WAIT does so where the result is known, which ends its list
unless it is OK, and else is running. -/
def Obligations.ControlPacketsComplete : Prop :=
  ∀ (eng q : Nat) (p : Pkt) (s u : State), let k := queueKey eng q
  (pktTake eng q 0x00 s = .go p u → exec (.nop eng q) s = .next (pktDone k p stOk u)) ∧
  (pktTake eng q 0x01 s = .go p u → p.f 8 8 % 8 = 0 → vaOk (p.f 8 8) = true → p.arg % 8 = 0 → 8 ≤ p.arg → p.arg ≤ 2 ^ 24 →
    exec (.jump eng q) s = .next ((pktDone k p stOk u).onQueue k fun x => { x with listOn := true, listAt := p.f 8 8, listLen := p.arg, listOff := 0 })) ∧
  (pktTake eng q 0x02 s = .go p u → exec (.marker eng q) s = .next (pktDone k { p with value := BitVec.ofNat 64 (p.f 8 8) } stOk u)) ∧
  (pktTake eng q 0x03 s = .go p u → p.f 8 8 = 0 → exec (.timestamp eng q) s = .next (pktDone k { p with value := u.tsc.time } stOk u)) ∧
  (∀ v met, pktTake eng q 0x03 s = .go p u → p.f 8 8 ≠ 0 → p.f 8 8 % 8 = 0 → vaOk (p.f 8 8) = true →
    bulkCheck u (queueBulk u (u.queue k)) (p.f 8 8) 8 needW = none →
    bulkWr (queueBulk u (u.queue k)) none (p.f 8 8) (leBytes 8 u.now) [] u = (v, met) →
    exec (.timestamp eng q) s = .next (pktDone k { p with value := u.tsc.time } (if met then stPoison else stOk) v)) ∧
  (∀ v code x, pktTake eng q 0x04 s = .go p u → p.f 16 1 = 1 ∨ p.f 16 1 = 2 ∨ p.f 16 1 = 3 → p.f 17 7 = 0 → counterId p.arg = true →
    syncOp (p.f 16 1) (engWait u k (u.queue k) p.arg (BitVec.ofNat 64 (p.f 8 8))) 0 u = (v, .fin code x) →
    exec (.signal eng q) s = .next (pktSync k p code 0 false v)) ∧
  (∀ r, pktTake eng q 0x05 s = .go p u → condOk (p.f 16 1) = true → p.f 17 3 = 0 → idOk p.arg = true → (isFenceId p.arg = true → p.f 16 1 = 0x12) →
    r = syncOp (p.f 16 1) (engWait u k (u.queue k) p.arg (if p.f 16 1 = 0x12 then 0 else BitVec.ofNat 64 (p.f 8 8))) (p.f 20 4) u →
    (∀ v code x, r = (v, .fin code x) → exec (.wait eng q) s = .next (pktSync k p code x true v)) ∧
    (∀ v, r = (v, .waits) → exec (.wait eng q) s = .next (pktPush k { p with st := .running } false v))) ∧
  (∀ v code, pktTake eng q 0x06 s = .go p u → idOk p.arg = true → isFenceId p.arg = true → fenceAllowed u p.arg (u.queue k).ctx = true →
    fenceSignal (fenceKey p.arg) (engSrc eng) u = (v, code) → exec (.fenceSignal eng q) s = .next (pktSync k p code 0 false v))

/-- Launches, copies and remote packets (R296 to R300, R347). A packet that is next in a queue that may start packets, its fields
legal: LAUNCH, where its mask names a logical core with a physical one and the context's quota of groups is not 0, is running with a
launch record under the engine's next sequence number. COPY, COPY2D, COPY3D and FILL, where both sides translate, no piece lies
at a device without a route or must wait and the run store has room, run their rows one after the other, and what each came to is
noted. So do REMOTE_PUT and REMOTE_GET to this device, the far side in the space of DCONTEXT. To another device they pin
their local side, and the requests of their items leave. REMOTE_WAIT sends its WAIT to another device; on this one it
ends with the result of the sync operation, or is running. -/
def Obligations.TransferPacketsComplete : Prop :=
  ∀ (eng q : Nat) (rejected : List Nat) (p : Pkt) (s u : State), let k := queueKey eng q; let b := queueBulk u (u.queue k)
  let room (xs : List XRow) : Prop := (u.engines.get (k / 1024)).runsUsed + runsOf xs ≤ runStore
  let goes (xs : List XRow) : Prop := noWay u k xs = false ∧ xs.any (rowWaits u b) = false ∧ room xs
  let use (xs : List XRow) : State := u.onEngine (k / 1024) fun e => { e with runsUsed := e.runsUsed + runsOf xs }
  (pktTake eng q 0x10 s = .go p u → launchBad p = none → let l := launchOf u eng k { p with items := p.arg }
    l.mask.any (fun i => (u.phys (lOf eng i)).isSome) = true → groupQuota u (u.queue k).ctx ≠ some 0 →
    exec (.launch eng q) s = .next (pktPush k { p with items := p.arg, st := .running, launch := launchKey eng l.seq } false
      ((u.onEngine eng fun e => { e with launchSeq := (e.launchSeq + 1) % 2 ^ 32 }).onLaunches fun t => t.put (launchKey eng l.seq) l))) ∧
  (∀ (c : Instr) op rows pat rej xs, pktTake eng q op s = .go p u →
    (op = 0x20 ∧ c = .copy eng q rejected ∧ rej = rejected ∧ rows = cutRows (some (p.f 8 8)) (p.f 16 8) (p.f 24 8) ∧ pat = none ∨
     op = 0x21 ∧ c = .copy2d eng q rejected ∧ rej = rejected ∧ rows = rows2 p 1 0 0 ∧ pat = none ∨
     op = 0x22 ∧ c = .copy3d eng q rejected ∧ rej = rejected ∧ rows = rows2 p (p.f 48 4) (p.f 56 8) (p.f 64 8) ∧ p.f 52 4 = 0 ∧ pat = none ∨
     op = 0x23 ∧ c = .fill eng q ∧ rej = [] ∧ rows = cutRows none (p.f 8 8) (p.f 16 8) ∧ pat = some (p.f 24 8)) →
    rowsOk rows = true → vaOk (p.f 8 8) = true → (op = 0x23 ∨ vaOk (p.f 16 8) = true) → physRows u (u.queue k).ctx rows = .ok xs → goes xs →
    ∀ v n, v = rowsGo b k { p with items := rows.length } pat rej xs
        (pktPush k { p with items := rows.length, st := .running, pins := pinsOf rows, runs := runsOf xs } false (use xs)) →
      n = (if pat.isNone && overlaps xs then (xs.map fun x => x.row.len).sum else 0) →
      exec c s = .next (rowsDone k p.id v.2 (v.1.onFreeN (· + n)))) ∧
  (∀ (c : Instr) op get rows ns, pktTake eng q op s = .go p u →
    (op = 0x30 ∧ c = .remotePut eng q rejected ∧ get = false ∨ op = 0x31 ∧ c = .remoteGet eng q ∧ get = true) →
    rows = cutRows (some (p.f 8 8)) (p.f 16 8) (p.f 24 8) → remoteBad u eng rows (moveVa p) (moveOk p) (p.f 32 2) (p.f 36 1) = none → p.f 32 2 = u.devId →
    nearRanges u (u.queue k).ctx get rows = .ok ns →
    ∀ ys xs r v, ys = homeRows u get { p with items := rows.length } rows ns → xs = ys.filterMap id → goes xs →
      r = { p with items := rows.length, st := .running, runs := runsOf xs, pins := rows.map fun r => (if get then r.dst else r.src.getD 0, r.len) } →
      v = homeGo b k r ys (pktPush k r false (use xs)) → exec c s = .next (rowsDone k r.id v.2 v.1)) ∧
  (∀ (c : Instr) op rej rows side item ls, pktTake eng q op s = .go p u →
    (op = 0x30 ∧ c = .remotePut eng q rejected ∧ rej = rejected ∧ side = rows.map (fun r => { r with dst := 0 }) ∧ item = putItem ∨
     op = 0x31 ∧ c = .remoteGet eng q ∧ rej = [] ∧ side = rows.map (fun r => { r with src := none }) ∧ item = getItem) →
    rows = cutRows (some (p.f 8 8)) (p.f 16 8) (p.f 24 8) → remoteBad u eng rows (moveVa p) (moveOk p) (p.f 32 2) (p.f 36 1) = none → p.f 32 2 ≠ u.devId →
    physRows u (u.queue k).ctx side = .ok ls →
    ∀ xs r v, xs = farRows rows ls → goes xs → r = { p with items := rows.length, st := .running, runs := runsOf xs, pins := farPins xs } →
      v = remoteItems b rej r (item b k r) xs (use xs) → exec c s = .next (pktSettle k v.2.id (pktPush k v.2 false v.1))) ∧
  (pktTake eng q 0x32 s = .go p u → remoteBad u eng [] true (condOk (p.f 20 1) && bodyZero p 22 2 && bodyZero p 28 4 && counterId p.arg) (p.f 16 2) (p.f 21 1) = none →
    (p.f 16 2 ≠ u.devId → exec (.remoteWait eng q) s = .next (engSend k
      { pkt := { type := 5, dst := p.f 16 2, sctx := (u.queue k).ctx, sgen := p.gen, dctx := p.f 18 2, len := p.f 20 1, counter := BitVec.ofNat 32 p.arg, value := BitVec.ofNat 64 (p.f 8 8) }
        pktId := p.id, port := p.f 21 1 } (remoteTimeout u (p.f 24 4)) (pktPush k { p with st := .running } false u))) ∧
    (∀ r, p.f 16 2 = u.devId →
      r = syncOp (p.f 20 1) (engWait u k (u.queue k) p.arg (if p.f 20 1 = 0x12 then 0 else BitVec.ofNat 64 (p.f 8 8))) (if p.f 24 4 = 0 then coreTimeout u / 1000 else p.f 24 4) u →
      (∀ v code x, r = (v, .fin code x) → exec (.remoteWait eng q) s = .next (pktSync k p code x true v)) ∧
      (∀ v, r = (v, .waits) → exec (.remoteWait eng q) s = .next (pktPush k { p with st := .running } false v))))

/-- Control flow (R165 R167 R168 R173, R327 R329, R389). A ready BRA sends the participating threads to its target, the others on, and
changes nothing else but divergence and holds; GSYNC counts each thread's arrival and lets it wait exactly while a named
thread that has not exited has arrived less often; CUT with no stop pending and no replay point due goes on, with a stop
pending its threads are held; EXIT ends its threads, and with the last one the group; held sets of a join address end 63
issues after; a written checkpoint becomes the replay point. -/
def Obligations.ControlFlowCompletes : Prop :=
  ∀ (i : Ins) (s : State), let g := insGroup i s
  (∀ target join : Int, ready i {} s = true → ∃ t, exec (.bra i target join) s = .next t ∧
    Wrote i {} (fun _ => []) [] (fun l => if l ∈ insPart i {} s then (((i.pc : Int) + 16 * target) % 2 ^ 64).toNat else i.pc + 16) s t) ∧
  (∀ mask : Word, ready i {} s = true → ∃ t, exec (.gsync i mask) s = .next t ∧
    (∀ l ∈ insPart i {} s, ((insGroup i t).thread l).arrive = ((g.thread l).arrive + 1) % 2 ^ 32 ∧ ((insGroup i t).thread l).pc = i.pc + 16 ∧
      (((insGroup i t).thread l).gsync = none ↔ ∀ m < 32, mask.getLsbD m = true ∨ m = l →
        ((insGroup i t).thread m).exited = true ∨ ((insGroup i t).thread l).arrive ≤ ((insGroup i t).thread m).arrive)) ∧
    (∀ l, ((insGroup i t).thread l).v = (g.thread l).v ∧ ((insGroup i t).thread l).p = (g.thread l).p) ∧ t.mem = s.mem) ∧
  (∀ (h : Shape) idx, h = { early := false } → ready i h s = true →
    (g.stop = none → replayDue (issued i h s) g (insPart i h s) idx = none → Leaves (.cut i idx) i h (fun _ => []) [] s) ∧
    (∀ x, g.stop = some x → ∃ t, exec (.cut i idx) s = .next t ∧ (∀ l ∈ insPart i h s, ((insGroup i t).thread l).cut = some idx ∧ ((insGroup i t).thread l).pc = i.pc) ∧
      (∀ l ∈ insSet i s, l ∉ insPart i h s → ((insGroup i t).thread l).pc = i.pc + 16) ∧ t.mem = s.mem)) ∧
  (∀ (h : Shape), h = { early := false } → ready i h s = true → (∃ l ∈ g.alive, l ∉ insPart i h s) →
    ∃ t, exec (.exit i) s = .next t ∧ (∀ l ∈ insPart i h s, ((insGroup i t).thread l).exited = true) ∧
      (∀ l < 32, l ∉ insPart i h s → ((insGroup i t).thread l).exited = (g.thread l).exited ∧
        ((insGroup i t).thread l).pc = if l ∈ insSet i s then i.pc + 16 else (g.thread l).pc) ∧ t.mem = s.mem) ∧
  (∀ (h : Shape), h = { early := false } → ready i h s = true → (∀ l ∈ g.alive, l ∈ insPart i h s) →
    ((s.core (insCore i s)).holder = some g.slot → (s.core (insCore i s)).progs = []) →
    ∃ t, exec (.exit i) s = .next t ∧ (insGroup i t).stage = .empty ∧ (t.launches.get g.launch).gst.get g.gid = g.failed.getD stOk + 1) ∧
  (∀ core slot addr, s.idRuns core = true → exec (.joinHoldExpire core slot addr) s = .next (s.onGroup (gKey core slot) fun g =>
      { g with holds := g.holds.filter fun h => !(h.addr = addr && decide (h.since + 63 ≤ g.issues)) })) ∧
  (∀ core slot n rest, s.idRuns core = true → (s.group (gKey core slot)).slots = n :: rest →
    exec (.checkpointWriteComplete core slot) s = .next (s.onGroup (gKey core slot) fun g => { g with replay := some n, slots := rest }))

/-- Parks and the store buffer (R164 R178 to R181, R208 R220 R221). A group whose faulting instruction has no older instruction left parks:
its slot and registers stay, under a HOLD policy, and it ends as failed under ABANDON; a drained entry of a line no L1
holds, that its slice lets through and that no poison meets, puts exactly its bytes at their home. -/
def Obligations.ParksAndStoreDrainsComplete : Prop :=
  ∀ (s : State),
  (∀ core slot pk, let k := gKey core slot; let g := s.group k
    s.idRuns core = true → parkable g = some pk → pk.pages = [] →
    ∃ t, exec (.groupPark core slot) s = .next t ∧
      (pk.policy ≠ 1 → (t.group k).stage = .parked ∧ (t.group k).park = some (g.park.getD pk) ∧ (t.group k).faults = g.faults.erase pk ∧
        (∀ l, { (t.group k).thread l with resv := none } = { g.thread l with resv := none }) ∧ (t.group k).u = g.u ∧ (t.group k).ls = g.ls) ∧
      (pk.policy = 1 → (t.group k).stage = .empty ∧ (t.launches.get g.launch).gst.get g.gid = stFault + 1)) ∧
  (∀ p e rest full u, u = s.onCore p (fun c => { c with sb := rest }) → s.quadRuns p = true → s.pwr.state ≠ .fatal → (s.core p).sb = e :: rest → paDev e.line = s.devId → full = decide (e.cellsOf.length = 128) →
    ((∃ d, zoneOf (paLocal e.line) = .hbm d) ∨ ∃ d, zoneOf (paLocal e.line) = .pinned d) →
    (∀ t ∈ e.tags, mayEnter u t.1 t.2 false (paLocal e.line) = .ok) → fencedAt u (paLocal e.line) = false →
    (e.region ≠ .normal ∨ homeDie (paLocal e.line) ≠ pDie p) → holdersOf u (paLocal e.line) = [] →
    tierBegin (paLocal e.line) true (decide (e.mask.length = 128)) u = none →
    (∀ o < 128, poisonAt (tierTouch (paLocal e.line) true full u) (paLocal e.line + o) = false) →
    ∃ t, exec (.storeBufferDrain p) s = .next t ∧ (t.core p).sb = rest ∧
      ∀ x, t.mem.get x = if paLocal e.line ≤ x ∧ x < paLocal e.line + 128 ∧ x - paLocal e.line ∈ e.cellsOf.map (·.1)
        then e.bytes.get (x - paLocal e.line) else s.mem.get x)

/-- Placement and the life of a launch (R159 R161 R240 R297 R303 R322). The next group of a launch that wants one, on the lowest core of
the launch that has room for it and on which no other work goes first, takes that core's lowest free slot: the core has
the launch's split, and the group is placed and not yet started, with its context, its address and its registers as R297 gives
them. Under FIXED, with a core of the launch that has lost its physical core, the next group ends FAILED_FAULT. A placed group starts
once those of its launch with lower numbers have; before the first one of the launch on a core, the core's L1 is written back and
invalidated. A launch that is not busy completes its packet when every group has ended, and, when it can start no
further group, with REFUSED_QUOTA or REFUSED_CAPACITY for the groups never run; the L1s that hold its stores are written
back first. A group that has waited more than 100 us for room that work of higher precedence holds, or that lower work keeps because its
state has no room, counts one deferral, for its context and in its packet. -/
def Obligations.PlacementCompletes : Prop :=
  ∀ (s : State),
  (∀ key c p i, let l := s.launches.get key
    engineRuns s l.die = true → fixedLost s l = false → l.wants s = true →
    l.cores_.find? (fun c => fitsOn s l key c && !outranked s c (launchPrec s l) l.waitAt (· = key) (fun _ => false)) = some c → s.phys c = some p → freeSlot s c = some i →
    ∃ t, exec (.groupPlace key) s = .next t ∧ (t.launches.get key).nextG = l.nextG + 1 ∧ (t.core p).split = l.split ∧
      (let g := t.group (gKey c i); g.stage = .starting ∧ g.launch = key ∧ g.gid = l.nextG ∧ g.ctx = l.ctx ∧ g.gen = l.gen ∧
        g.u.get 0 = BitVec.ofNat 32 l.args ∧ g.u.get 1 = BitVec.ofNat 32 (l.args / 2 ^ 32) ∧ g.u.get 2 = BitVec.ofNat 32 l.nextG ∧
        g.u.get 3 = BitVec.ofNat 32 l.groups ∧ g.u.get 4 = BitVec.ofNat 32 c ∧ (∀ n, 5 ≤ n → g.u.get n = 0) ∧
        ∀ j < 32, (g.thread j).pc = l.entry ∧ (g.thread j).p = 0 ∧ (g.thread j).exited = false ∧
          (g.thread j).v.get 0 = BitVec.ofNat 32 j ∧ ∀ n, 1 ≤ n → (g.thread j).v.get n = 0)) ∧
  (∀ key, let l := s.launches.get key
    l.live = true → l.nextG < l.groups → engineRuns s l.die = true → fixedLost s l = true →
    exec (.groupPlace key) s = .next (s.onLaunch key fun l => { l with gst := l.gst.put l.nextG (stFault + 1), nextG := l.nextG + 1, waitAt := s.now, roomAt := s.now })) ∧
  (∀ core slot p, let k := gKey core slot; let g := s.group k
    s.phys core = some p → slot < 48 → g.stage = .starting → s.coreRuns p = true → earlierStarts s g = false →
    ∀ u, u = (if (s.launches.get g.launch).prepared.contains core then s
      else (l1Invalidate p (l1Flush p s)).onLaunch g.launch fun l => { l with prepared := l.prepared ++ [core] }) →
    exec (.groupStart core slot) s = .next (u.onGroup k fun g => { g with stage := .running, started := u.now })) ∧
  (∀ key, let l := s.launches.get key
    l.live = true → engineRuns s l.die = true → launchBusy s key = false →
    (l.groups ≤ l.nextG → exec (.launchComplete key) s = .next (launchDone key stOk (launchFlush key s))) ∧
    (∀ st, launchStuck s l = some st → exec (.launchComplete key) s = .next (launchDone key st (launchFlush key s)))) ∧
  (∀ key, let l := s.launches.get key
    l.wants s = true → l.roomAt + 100000 < s.now → l.deferG ≠ l.nextG + 1 → l.cores_.find? (fitsOn s l key) = none → roomHeld s l key = true →
    exec (.launchDeferralTick key) s = .next (acctAdd l.ctx aDeferrals 1 ((s.onLaunch key fun l => { l with deferG := l.nextG + 1 }).onQueue l.queue fun q =>
      { q with pkts := q.pkts.map fun x => if x.launch = key then { x with deferrals := min (x.deferrals + 1) 0xFFFF } else x })))

/-- Slots of queues, shares and accounts (R319 R320 R321 R322 R333 to R336). The pending queue that goes first takes a free slot, or, with every
slot taken, that of the queue that gives way to it; another pending queue is then deferred. A queue that goes first and has waited 2
ms takes the slot of the queue of its level that has been resident longest, at least 2 ms. 1 ms after the last evaluation, with no new
definition of the share groups due and work in the window, the share groups below their guarantee are those with work waiting whose
work in the window is less than their percentage of all. 1 ms after the last sample, every live context adds its tier and
HBM granules to its granule-milliseconds, keeps their peaks and adds its part of the energy metered, the rest of which
is the device's. A due period writes the snapshot of each of the function's contexts. -/
def Obligations.ResidencyAndAccountingComplete : Prop :=
  ∀ (s : State),
  (∀ eng q, let k := queueKey eng q
    q < 1024 → engineRuns s eng = true → (s.queue k).pending = true →
    (bestPending s eng = some k → (residentQs s eng).length < 64 → exec (.slotGrant eng q) s = .next (takeSlot k s)) ∧
    (∀ v, bestPending s eng = some k → ¬ (residentQs s eng).length < 64 → loserFor s eng (queuePrec s k) = some v →
      exec (.slotGrant eng q) s = .next (takeSlot k (loseSlot v s))) ∧
    (bestPending s eng ≠ some k → ¬ (residentQs s eng).length < 64 → exec (.slotGrant eng q) s = .next (deferNext k s))) ∧
  (∀ eng q v, let k := queueKey eng q
    q < 1024 → engineRuns s eng = true → (s.queue k).pending = true → bestPending s eng = some k → ¬ (residentQs s eng).length < 64 →
    waitedSince s k + 2000000 ≤ s.now → v ∈ residentQs s eng → queuePrec s v = queuePrec s k → (s.queue v).resAt + 2000000 ≤ s.now →
    (∀ w ∈ residentQs s eng, w ≠ v → queuePrec s w = queuePrec s k → (s.queue v).resAt < (s.queue w).resAt) →
    exec (.residencyRotate eng q) s = .next (takeSlot k (loseSlot v s))) ∧
  (∀ kind die n eng, kind < 3 → die < 8 → eng = engOn s.variant kind die n → engineRuns s eng = true → (s.engines.get eng).evalAt + 1000000 ≤ s.now → s.mgmt.newGroupsG = none → shareTotal s eng ≠ 0 →
    ∃ t, exec (.shareEval kind die n) s = .next t ∧ (t.engines.get eng).evalAt = s.now ∧
      (∀ n < 16, n ∈ (t.engines.get eng).belowG ↔ ∃ f l, s.mgmt.groupsG.get n = some (f, l) ∧ shareWaits s eng n = true ∧
        shareWork s eng n * 100 < f * shareTotal s eng) ∧
      { t with engines := s.engines } = s) ∧
  (∀ meters, s.mgmt.ready = true → s.mgmt.sampleAt + 1000000 ≤ s.now → (liveCtxs s).Nodup → ∃ t, exec (.occupancySample meters) s = .next t ∧
    (∀ c, { t.ctx c with acct := (s.ctx c).acct } = s.ctx c ∧ ∀ n, (t.ctx c).acct.get n =
      if c ∉ liveCtxs s then (s.ctx c).acct.get n
      else if n = aHbmGms then (s.ctx c).acct.get n + hbmNow s c else if n = aTierGms then (s.ctx c).acct.get n + tierNow s c
      else if n = aEnergy then (s.ctx c).acct.get n + energyOf s meters c
      else if n = aTierPeak then max (tierNow s c) ((s.ctx c).acct.get n) else if n = aHbmPeak then max (hbmNow s c) ((s.ctx c).acct.get n)
      else (s.ctx c).acct.get n) ∧
    t.mgmt = { s.mgmt with sampleAt := s.now, overheadMj := s.mgmt.overheadMj + ((meters.map (·.mj)).sum - ((liveCtxs s).map (energyOf s meters)).sum) } ∧
    { t with ctxs := s.ctxs, cores := s.cores, mgmt := s.mgmt } = s) ∧
  (∀ f, let x := s.fn f; f < 64 → x.snapR.on = true → x.snapPer ≠ 0 → x.snapAt + 1000000 * x.snapPer ≤ s.now → s.mgmt.ready = true →
    ∀ u, u = (s.onFn f fun x => { x with snapAt := x.snapAt + 1000000 * x.snapPer }) →
    exec (.dailiesPeriodicWrite f) s = .next (forAll ((liveCtxs u).filter fun c => (u.ctx c).fn = f) (fun c v => ringPush f .snap c true (dailies v c true false) v) u))

/-- Stops, saves and restores (R323 R329 to R332, R384, R388). A running group with a stop pending whose sets are all held at cut points with
entries, with nothing unretired, at a fault or in flight, leaves its slot with the live state of those entries; one of which a
set is held at a CUT without an entry, or no set can go on, and one that is parked, leave it with the full state. So does one that is not
stopped 50 us after the request. One not stopped after 1 ms, where nothing makes the reset wait, has its context declared
hung: it is recorded, counted and reset. A saved group of a context that may run, where it fits and no other work goes
first, goes back to a free slot of its core with its registers and local store. A running holder of lower precedence that has blocked an
LC or GUARANTEE group for more than 10 us is asked to stop, where the die has room for its state. -/
def Obligations.StopsAndSavesComplete : Prop :=
  ∀ (s : State) (core slot : Nat), let k := gKey core slot; let g := s.group k
  (∀ x m, slot < 48 → g.stop = some x → g.stage = .running → s.idRuns core = true → g.win = [] → g.faults = [] → inFlight s g = false → liveAt s g = some m →
    exec (.groupSave core slot) s = .next (stopGroup k (some m) s)) ∧
  (∀ x, slot < 48 → g.stop = some x → s.idRuns core = true →
    g.stage = .parked ∨ g.stage = .running ∧ liveAt s g = none ∧ (cutWithout s g = true ∨ g.alive.all (laneStopped s g) = true) →
    exec (.groupSave core slot) s = .next (stopGroup k none s)) ∧
  (∀ x, slot < 48 → g.stop = some x → g.stage = .running ∨ g.stage = .parked → s.idRuns core = true → x.since + 50000 ≤ s.now →
    exec (.stopBoundExpire core slot) s = .next (stopGroup k none s)) ∧
  (∀ x, slot < 48 → g.stop = some x → g.stage ≠ .empty → x.since + 1000000 ≤ s.now → (s.ctx g.ctx).inReset = false → s.mgmt.ready = true →
    resetWaits s g.ctx 1 (s.ctx g.ctx).snap = false →
    ∀ u, u = errAdd { (plowinRec s clCtx sevContained) with ctx := g.ctx, gen := (s.ctx g.ctx).gen } s →
    exec (.hangDeclare core slot) s = .next (acctAdd g.ctx aHang 1 (ctxReset g.ctx 1 (u.ctx g.ctx).snap none u))) ∧
  (∀ n z p, s.saved[n]? = some z → s.phys core = some p → z.lcore = core → slot < 48 → g.stage = .empty → s.coreRuns p = true → ctxRuns s z.ctx = true →
    fitsOn s (s.launches.get z.launch) z.launch core = true → z.arr = none → z.decided = none →
    (∀ r, z.rwait = some r → r.state ≠ 2) → (s.core p).split = (s.launches.get z.launch).split →
    outranked s core (groupPrec s z) z.savedAt (fun _ => false) (fun x => x.ident = z.ident) = false →
    ∃ t, exec (.groupRestore core slot n) s = .next t ∧ t.saved = s.saved.eraseIdx n ∧
      (let h := t.group k; h.th = z.th ∧ h.u = z.u ∧ h.ls = z.ls ∧ h.slot = slot ∧ h.started = s.now ∧ h.stop = none ∧ h.ident = z.ident) ∧ t.mem = s.mem) ∧
  (∀ p h t0, s.phys core = some p → g.arrBlock = some t0 → (s.core p).holder = some h → slot < 48 → g.stage = .running → h ≠ slot →
    t0 + 10000 < s.now → 1 ≤ groupPrec s g → groupPrec s (s.group (gKey core h)) < groupPrec s g → saveRoom s (lDie core) [s.group (gKey core h)] = true →
    (s.group (gKey core h)).stage = .running → (s.group (gKey core h)).stop = none →
    exec (.arrayBlockTimeout core slot) s = .next (s.onGroup (gKey core h) fun x => { x with stop := some { why := .displaced, since := s.now } }))

/-- Contexts over the management interface (R268 R314 R371 R377 R378 R390). A taken and well-formed CONTEXT_CREATE of a function in service
below its quota, with the trusted ranges set, makes the lowest free ID live with its flags, its function, the generation
the ID left off with and a new token. CONTEXT_DESTROY leaves of the context only its raised generation, and none of its
mappings. CONTEXT_RESET, where nothing makes it wait, halts, samples into the named buffer and removes; ARM_ONLY only
records the buffer. A reset ends with a raised generation, under which no TLB entry of the context is left and its
mappings stand. CLAIM with the token attaches; with another one it is refused and its time kept, for the 1 s in which
claims are refused. A heartbeat ends its function's orphaning. ATTACH_READ writes the attach record at its address. -/
def Obligations.ContextRequestsComplete : Prop :=
  ∀ (s : State) (h : Hdr), let u := taken h s
  (∀ flags ot c, pmiGo s h = true → flags.toNat < 32 → flags.toNat / 8 % 4 ≠ 3 → ot < 2 ^ 32 → h.fn = 0 ∨ (s.fn h.fn).vf = true → cfgMissing s = false →
    under ((liveCtxs s).filter fun c => (s.ctx c).fn = h.fn).length (s.fn h.fn).qCtxs = true → freeCtx s = some c →
    ∃ t, exec (.contextCreate h flags ot false) s = .next t ∧
      t.ctx c = { live := true, fn := h.fn, gen := (s.ctx c).gen, lendHeld := flags.getLsbD 0, poisonAb := flags.getLsbD 1, deniedAb := flags.getLsbD 2, orphan := flags.toNat / 8 % 4, orphanTime := ot, token := Config.token s.freeN } ∧
      (∀ d, d ≠ c → t.ctx d = s.ctx d) ∧ t.groups = s.groups ∧ t.qs = s.qs ∧ t.xl = s.xl) ∧
  (ctxReady h s = true → ∃ t, exec (.contextDestroy h) s = .next t ∧ t.ctx h.ctx = { gen := (s.ctx h.ctx).gen + 1 } ∧
    (∀ l ∈ t.xl.leaves, l.ctx ≠ h.ctx) ∧ ∀ m ∈ t.xl.maps, m.ctx ≠ h.ctx) ∧
  (∀ a n, ctxReady h s = true → a % 4096 = 0 → a < 2 ^ 64 → n < 2 ^ 32 →
    (resetWaits s h.ctx 0 (snapBuf a n) = false → exec (.contextReset h a n) s = .next (ctxReset h.ctx 0 (snapBuf a n) (some h) u)) ∧
    exec (.snapshotArm h a n) s = .next (pmiOk h 0x0003 (u.onCtx h.ctx fun x => { x with snap := snapBuf a n }))) ∧
  (∀ c, (s.ctx c).inReset = true → ∃ t, exec (.generationRaise c) s = .next t ∧ (t.ctx c).gen = (s.ctx c).gen + 1 ∧ (t.ctx c).inReset = false ∧
    (∀ n, ∀ e ∈ t.xl.micro.get n, e.ctx ≠ c) ∧ (∀ n, ∀ e ∈ t.xl.die.get n, e.ctx ≠ c) ∧ t.xl.leaves = s.xl.leaves) ∧
  (∀ token del, let x := s.ctx h.ctx
    pmiGo s h = true → x.inReset = false → h.ctx < 4096 → x.live = true → x.fn = h.fn → x.gen = h.gen → (∀ t0, x.badClaim = some t0 → t0 + 1000000000 ≤ s.now) →
    (x.token = token → exec (.claim h token del) s = .next (claimed h del u)) ∧
    (x.token ≠ token → exec (.claim h token del) s = .next (pmiRefuse h 0x0071 pAuth (u.onCtx h.ctx fun x => { x with badClaim := some s.now })))) ∧
  (pmiGo s h = true → exec (.heartbeat h) s = .next (pmiOk h 0x0072 (u.onFn h.fn fun x => { x with beat := some s.now, orphan := false }))) ∧
  (∀ a, pmiGo s h = true → a ≠ 0 → a < 2 ^ 64 → exec (.attachRead h a) s =
    .next (pmiAnswerAt true { h with payAddr := a } 0x0070 pOk 0 (attachRecord u h.fn) u))

/-- Mappings, share sets, quotas and conversions (R195 R249 R251 R256 R265 R325 R425). A legal MAP that nothing refuses takes its granules,
cuts the mappings it covers, replaces their leaves by its own in every replica and is answered with its record: at once where
no leaf was there, and else, like an UNMAP that covers whole pages, once the change that is recorded is complete; the TLBs have
dropped the range by then. An UNMAP that meets no leaf is answered at once with 0 bytes. A share set gains or loses a context
of the function, or a remote one; a quota is the value written, for a function or for the context named; a conversion joins the
queue, and those that wait for no earlier one start. -/
def Obligations.MappingRequestsComplete : Prop :=
  ∀ (s : State) (h : Hdr), let u := taken h s
  (∀ m, ctxReady h s = true → mapOk u h m = true → mapRefusal u h.ctx m = none → let old := overLeaves s h.ctx m.va m.len
    ∃ t, exec (.map h m) s = .next t ∧ t.xl.leaves = s.xl.leaves.filter (fun l => !old.contains l) ++ newLeaves s h.ctx m ∧
      t.xl.maps = cutMaps h.ctx m.va m.len s.xl.maps ++ [{ ctx := h.ctx, va := m.va, len := m.len, host := m.host, bar2 := m.bar2 }] ∧
      (takesGranules s m = true → ∀ k ∈ granules m.pa m.len, (t.tier.gran.get k).valid = true ∧ ((s.tier.gran.get k).valid = false → (t.tier.gran.get k).owner = h.ctx)) ∧
      (∀ k, k ∉ granules m.pa m.len → t.tier.gran.get k = s.tier.gran.get k) ∧ (old = [] → t.xl.micro = s.xl.micro ∧ t.xl.changes = s.xl.changes)) ∧
  (∀ m, ctxReady h s = true → mapOk u h m = true → mapRefusal u h.ctx m = none →
    exec (.map h m) s = .next (leafChange h 0x0010 m.va m.len 0 (overLeaves u h.ctx m.va m.len) (newLeaves u h.ctx m) (mapRecord m)
      ((granTake h.ctx m u).onXl fun y => { y with maps := cutMaps h.ctx m.va m.len y.maps ++ [{ ctx := h.ctx, va := m.va, len := m.len, host := m.host, bar2 := m.bar2 }] }))) ∧
  (∀ va len, ctxReady h s = true → let old := overLeaves s h.ctx va len; old.all (covered va len) = true → old ≠ [] →
    ∃ t, exec (.unmap h va len) s = .next t ∧ t.xl.leaves = s.xl.leaves.filter (fun l => !old.contains l) ∧ t.xl.maps = cutMaps h.ctx va len s.xl.maps ∧
      (∃ x, t.xl.changes = s.xl.changes ++ [x] ∧ x.h = h ∧ x.ctx = h.ctx ∧ x.va = va ∧ x.len = len ∧ x.old = leafPages old) ∧
      (∀ n, ∀ e ∈ t.xl.micro.get n, e.ctx = h.ctx → ¬ (e.va < va + len ∧ va < e.va + pageBytes e.size))) ∧
  (∀ va len, ctxReady h s = true → overLeaves u h.ctx va len = [] →
    exec (.unmap h va len) s = .next (pmiAnswer h 0x0011 pOk 0 [] (replicas [] [] ((u.onXl fun y => { y with maps := cutMaps h.ctx va len y.maps }).onXl fun y =>
      { y with leaves := y.leaves.filter (fun l => !([] : List Leaf).contains l) ++ [] })))) ∧
  (∀ sset add member, pmiGo s h = true → sset < 256 → member < 4096 → let x := s.tier.sets.get sset
    ((s.ctx member).live = true → (s.ctx member).fn = h.fn →
      exec (.shareSet h sset add none member) s = .next (pmiOk h 0x0012 (u.onTier fun t =>
        { t with sets := t.sets.put sset { x with locals := if add then member :: x.locals.filter (· != member) else x.locals.filter (· != member) } }))) ∧
    (∀ d, d < 65536 → let here := x.remotes.any (fun r => r.1 = d && r.2.1 = member)
      ∀ l, l = (if add then (if here then x.remotes else x.remotes ++ [(d, member, none)]) else x.remotes.filter fun r => !(r.1 = d && r.2.1 = member)) →
      (add = true → here = true ∨ x.remotes.length < 256) →
      exec (.shareSet h sset add (some d) member) s = .next (pmiOk h 0x0012 (u.onTier fun t => { t with sets := t.sets.put sset { x with remotes := l } })))) ∧
  (∀ kind f v, pmiGo s h = true → h.fn = 0 → f < 64 → kind < 6 →
    exec (.quotaSet h kind (some f) v) s = .next (pmiOk h 0x0013 (roomWaits u (u.onFn f (fnQuota kind v))))) ∧
  (∀ kind v, pmiGo s h = true → h.fn = 0 → h.ctx < 4096 → (s.ctx h.ctx).live = true → (s.ctx h.ctx).gen = h.gen → 1 ≤ kind → kind < 6 →
    exec (.quotaSet h kind none v) s = .next (pmiOk h 0x0013 (roomWaits u (u.onCtx h.ctx (ctxQuota kind v))))) ∧
  (∀ die mask nps tgts, pmiGo s h = true → h.fn = 0 → die < 8 → mask ≠ 0 → nps.length = (maskSlices mask).length → tgts = (maskSlices mask).zip nps →
    (∀ x ∈ tgts, x.2 ≤ 17 ∧ pinMapped u (64 * die + x.1) x.2 = false) →
    exec (.tierConvert h die mask nps) s = .next (convStart ((u.onMgmt fun m => { m with reqSeq := m.reqSeq + 1 }).onTier
      fun t => { t with convs := t.convs ++ [{ id := s.mgmt.reqSeq, die := die, tgt := tgts, h := h }] })))

/-- Counters, fence tables, queues, parks and mailboxes over the management interface (R181 R182 R271 R277 R278 R283 R288 R306 R313 R315 R427).
A free group of 16 counters becomes the context's, each at 1 where OWNED and else at 0; a group it holds is freed, each
counter's waits being released; a counter configured is live, with the value and no holder, and the waits that it
satisfies are released; a query reports it. A registered fence table has every fence UNSIGNALLED. A queue is created,
empty, under its engine's lowest free number. A destroyed one is cancelled, or with DRAIN goes on, a stall of it ended; it is gone
and the request answered once it is empty. A parked HOLD group that has no page fault is replayed or ends FAILED_FAULT,
a saved one when it is restored. Mailbox slots are bound to 64 bytes each and their counter. -/
def Obligations.ObjectRequestsComplete : Prop :=
  ∀ (s : State) (h : Hdr), ctxReady h s = true → let u := taken h s
  (∀ first (sset : Option Nat) owned, first % 16 = 0 → first < 131072 → sset.getD 0 < 256 →
    overQuota u h.ctx 16 (ctrsOf u) (s.ctx h.ctx).qCtrs (s.fn (s.ctx h.ctx).fn).qCtrs = false → (∀ i, first ≤ i → i < first + 16 → (s.sync.ctrs.get i).alloc = false) →
    ∃ t, exec (.counterAlloc h first sset owned) s = .next t ∧ (∀ i, t.sync.ctrs.get i = if first ≤ i ∧ i < first + 16
      then { alloc := true, owner := h.ctx, sset := sset, owned := owned, value := if owned then 1 else 0 } else s.sync.ctrs.get i) ∧ t.sync.waits = s.sync.waits) ∧
  (∀ first, first % 16 = 0 → first < 131072 → (∀ i, first ≤ i → i < first + 16 → ctrStatus s h i = none) →
    exec (.counterFree h first) s = .next (pmiOk h 0x0021 (forAll (ctrGroup first) ctrFree u))) ∧
  (∀ id v, id < 131072 → ctrStatus s h id = none →
    exec (.counterConfigure h id v) s = .next (pmiOk h 0x0022 (ctrSettle id (s.sync.waits.length * 33 + 1)
      (u.onCtr id fun c => { c with abandoned := false, value := v, holder := none }))) ∧
    exec (.counterQuery h id) s = .next (pmiAnswer h 0x0023 pOk 0 (ctrReport (s.sync.ctrs.get id)) u)) ∧
  (∀ a (sset : Option Nat), a + 2 ^ 20 ≤ 2 ^ 64 → sset.getD 0 < 256 → ∃ t, exec (.fenceTableRegister h a sset) s = .next t ∧
    (t.ctx h.ctx).fenceTab = some (a, sset) ∧ (∀ i < 65536, t.sync.fences.get (65536 * h.ctx + i) = {}) ∧ t.sync.ctrs = s.sync.ctrs) ∧
  (∀ c n, queueOk c = true → engNamed s c.kind c.inst = true → overQuota u h.ctx 1 (queuesOf u) (s.ctx h.ctx).qQueues (s.fn (s.ctx h.ctx).fn).qQueues = false →
    freeQueue s (engOf c.kind c.inst) = some n → ∃ t, exec (.queueCreate h c) s = .next t ∧
      (∀ k, t.queue k = if k = queueKey (engOf c.kind c.inst) n
        then { live := true, kind := c.kind, inst := c.inst, num := n, ctx := h.ctx, fn := h.fn, lc := !c.be, s := c.s, c := c.c, f := c.f, vector := c.vector, ring := c.ring, cring := c.cring, ctail := c.ctail, headAddr := c.head, fail := c.fail }
        else s.queue k)) ∧
  (∀ eng q, let k := queueKey eng q
    (s.queue k).drain = false → q < 1024 → eng < 32 → (s.queue k).live = true → (s.queue k).ctx = h.ctx →
    exec (.queueDestroy h eng q true) s = .next (drainCheck k (((dropQueueStalls k u).onQueue k fun y => { y with stalled := false, stallWhy := 0 }).onQueue k fun y =>
      { y with drain := true, drainReq := some h })) ∧
    exec (.queueDestroy h eng q false) s = .next (drainCheck k ((queueCancel k (failGroups (fun g => (u.launches.get g.launch).queue = k) stCancelled
      (queueUnwait k u))).onQueue k fun y => { y with drain := true, drainReq := some h }))) ∧
  (∀ core slot, core < 1024 → slot < 48 → let k := gKey core slot
    (decidable_ h.ctx core slot (s.group k) = true →
      exec (.parkDecide h core slot false) s = .next (pmiOk h 0x0033 (u.onGroup k fun g => { g with stage := .running, park := none })) ∧
      exec (.parkDecide h core slot true) s = .next (pmiOk h 0x0033 (groupEnd k stFault u))) ∧
    (∀ g ab, decidable_ h.ctx core slot (s.group k) = false → s.saved.find? (decidable_ h.ctx core slot) = some g →
      exec (.parkDecide h core slot ab) s = .next (pmiOk h 0x0033 (u.onIdent g.ident (Group.ruled ab))))) ∧
  (∀ first n dest ctr, 1 ≤ n → first + n ≤ 256 → dest % 64 = 0 → vaOk (dest + 64 * n - 1) = true → counterId ctr = true →
    ∃ t, exec (.mailboxConfig h first n dest ctr) s = .next t ∧ ∀ i < n, (t.fn h.fn).mail.get (first + i) = some (h.ctx, dest + 64 * i, ctr))

/-- Ring configurations, ring registers, mailboxes and dailies (R180 R262 R282 R306 R309 R316 R319 R335 R336). A legal configuration is answered
SUCCESS, and a ring so configured starts with both counts 0; periodic dailies also keep their period. A base of the management rings with a legal size
code is taken and a head that is neither backward nor ahead of the tail is; another is refused and changes nothing but the record. A 64-byte write to a
bound mailbox whose destination the context may write lands there, and 1 is added to its counter. Queried dailies are answered with one snapshot
for each context, and a share group that shares no member and with the others takes at most 90 per cent is kept for the next evaluation. -/
def Obligations.RingAndMailboxRequestsComplete : Prop :=
  ∀ (s : State) (h : Hdr),
  (∀ (r : RingCfg), pmiGo s h = true → ringOk r = true →
    exec (.faultQueueConfig h r) s = .next (pmiOk h 0x0015 (ringConfig h.fn .fault r (taken h s))) ∧
    exec (.notifyRingConfig h r) s = .next (pmiOk h 0x0016 (ringConfig h.fn .notify r (taken h s))) ∧
    exec (.parkRingConfig h r) s = .next (pmiOk h 0x0032 (ringConfig h.fn .park r (taken h s))) ∧
    ∀ ms, 10 ≤ ms → ms ≤ 3600000 → exec (.dailiesPeriodic h r ms) s =
      .next (pmiOk h 0x0041 (ringConfig h.fn .snap r ((taken h s).onFn h.fn fun x => { x with snapPer := ms, snapAt := s.now })))) ∧
  (∀ (r : RingCfg) i f, ((s.fn f).ring i).held = [] → ((ringConfig f i r s).fn f).ring i =
    { on := true, addr := r.addr, size := r.size, tailAddr := r.tailAddr, vector := r.vector, head := 0, tail := 0, held := [], irqAt := none }) ∧
  (∀ f rsp v, f < 64 →
    (v.toNat / 2 ^ 12 % 16 ≤ 8 → exec (.pmiRingBaseWrite f rsp v) s =
      .next (if rsp then rspFlush (s.onFn f fun x => { x with rspBase := v }) else s.onFn f fun x => { x with reqBase := v &&& ~~~0xFFE#64 })) ∧
    (8 < v.toNat / 2 ^ 12 % 16 → exec (.pmiRingBaseWrite f rsp v) s = .next (writeRefused (.fn f) (pmiPa f + if rsp then 8 else 0) s))) ∧
  (∀ f v, f < 64 →
    ((v - (s.fn f).rspHead).toNat < 2 ^ 31 ∧ ((s.fn f).rspTail - v).toNat < 2 ^ 31 → exec (.pmiRspHeadWrite f v) s =
      .next (rspFlush (s.onFn f fun x => { x with rspHead := v }))) ∧
    (2 ^ 31 ≤ (v - (s.fn f).rspHead).toNat ∨ 2 ^ 31 ≤ ((s.fn f).rspTail - v).toNat → exec (.pmiRspHeadWrite f v) s =
      .next (writeRefused (.fn f) (pmiPa f + 0x14) s))) ∧
  (∀ f off data c dest ctr, f < 64 → 0x4000 ≤ off → off < 0x8000 → off % 64 = 0 → (s.fn f).mail.get ((off - 0x4000) / 64) = some (c, dest, ctr) →
    data.length = 64 → (s.ctx c).inReset = false → bulkCheck s (hostBulk s c) dest 64 needW = none →
    ∀ u, u = (bulkWr (hostBulk s c) none dest data [] s).1 →
    exec (.mailboxWrite f off data) s = .next (syncOp 0x01 (agentWait u c hostSrc ctr 1) 0 u).1) ∧
  (∀ ctxs, pmiGo s h = true → ctxs ≠ [] → (∀ c ∈ ctxs, c < 4096 ∧ (s.ctx c).live = true ∧ (s.ctx c).fn = h.fn ∧ (s.ctx c).orphanedAt = none) →
    exec (.dailiesQuery h ctxs) s = .next (pmiAnswer h 0x0040 pOk 0 (ctxs.flatMap fun c => dailies (taken h s) c false false) (taken h s))) ∧
  (∀ n f members, pmiGo s h = true → h.fn = 0 → n < 16 → 1 ≤ f →
    ((((shareDefs s).filter fun (k, _) => k != n).map fun (_, x) => match x with | some (g, _) => g | none => 0).sum + f ≤ 90) →
    (∀ k g l, (k, some (g, l)) ∈ shareDefs s → k ≠ n → ∀ c ∈ members, c ∉ l) → (∀ c ∈ members, c < 4096 ∧ (s.ctx c).live = true) →
    exec (.shareGroupSet h n f members) s = .next (pmiOk h 0x0042 ((taken h s).onMgmt fun m => { m with newGroupsG := some ((shareDefs s).put n (some (f, members))) })))

/-- Reports, tests, modes and live updates (R2 R22 R33 R34 R75 R215 R237 R386 R387 R393 R394 R395). Each report is answered with what it reports (the
variant's number and the layout of a report that the spec does not lay out are the model's choice, notes/assumptions/53.md). A legal self-test
joins the queue in request order, and that of a fenced core starts at once; the first finished test is answered with its result and leaves the queue. The
coherence mode of a device with no context and a cap in range, in force 20 ms later, are taken. A verified image is staged; a Plowin activation swaps the roles of the
active core and the update target and leaves groups and queues alone, and the commit 10 s later moves the boot selection; microcode goes die by die in ascending
order: the engines of the die pause, then go on under raised unit generations, and the request is answered after the last die. -/
def Obligations.ServiceRequestsComplete : Prop :=
  ∀ (s : State) (h : Hdr),
  (pmiGo s h = true →
    exec (.deviceInfo h) s = .next (pmiAnswer h 0x0050 pOk 0 (leBytes 1 (variantCode s.variant) ++ leBytes 1 2 ++ leBytes 2 s.devId ++ leBytes 4 s.draw.toNat) (taken h s).drawn) ∧
    exec (.coreMap h) s = .next (pmiAnswer h 0x0051 pOk 0 (leBytes 8 s.mesh.seq ++ (List.range 1024).flatMap fun c => leBytes 2 ((s.phys c).getD 0xFFFF)) (taken h s)) ∧
    exec (.withdrawnRanges h) s = .next (pmiAnswer h 0x0056 pOk 0 ((withdrawnRanges s).flatMap fun (a, n) => leBytes 8 a ++ leBytes 8 n) (taken h s)) ∧
    ∀ a, a ≠ 0 → a + 808 ≤ 2 ^ 64 → exec (.spareState h a) s = .next (pmiAnswerAt true { h with payAddr := a } 0x0052 pOk 0 (spareReport (taken h s)) (taken h s))) ∧
  (∀ target unit, pmiGo s h = true → h.fn = 0 → testBad s target unit = none →
    exec (.selfTest h target unit) s = .next (if target = 1 ∧ (s.core unit).fenced then
      ((taken h s).onCore unit fun c => { c with testing := true }).onMgmt fun m => { m with tests := s.mgmt.tests ++ [{ h := h, target := target, unit := unit, cur := some unit }] }
      else testKick ((taken h s).onMgmt fun m => { m with tests := s.mgmt.tests ++ [{ h := h, target := target, unit := unit }] }))) ∧
  (∀ bad pre t post, s.mgmt.tests = pre ++ t :: post → t ∉ pre → (∀ x ∈ pre, x.cur.isSome = true ∨ x.next_ < (testCores s x).length) →
    t.cur = none → (testCores s t).length ≤ t.next_ → s.mgmt.ready = true → ∀ n, n = (if t.target = 3 then bad % 10 else t.bad) →
    exec (.selfTestDone bad) s = .next (testKick (pmiAnswer t.h 0x0053 pOk ((if n = 0 then 0 else 1) + 256 * n) [] (s.onMgmt fun m => { m with tests := pre ++ post })))) ∧
  (∀ down, pmiGo s h = true → h.fn = 0 → liveCtxs s = [] → exec (.coherenceMode h down) s = .next (pmiOk h 0x0054 ((taken h s).onTier fun t => { t with down := down }))) ∧
  (∀ w, pmiGo s h = true → h.fn = 0 → minCap ≤ w → w ≤ tdp s.variant →
    exec (.powerCap h w) s = .next (pmiOk h 0x0055 ((taken h s).onPwr fun p => { p with newCaps := p.newCaps ++ [(w, s.now + 20000000)] }))) ∧
  (∀ ver, pmiGo s h = true → h.fn = 0 → s.mgmt.minVer ≤ ver →
    exec (.fwStage h 0 true ver) s = .next (pmiOk h 0x0060 ((taken h s).onMgmt fun m => { m with staged := true, cores := m.cores.upd m.target fun c => { c with newFw := true } })) ∧
    exec (.fwStage h 1 true ver) s = .next (pmiOk h 0x0060 ((taken h s).onMgmt fun m => { m with stagedUc := true }))) ∧
  (pmiGo s h = true → h.fn = 0 → 2 ≤ mgmtCores s → s.mgmt.staged = true → s.mgmt.commitAt = none → ∀ dies, ∃ t, exec (.fwActivate h 0 dies) s = .next t ∧
    t = pmiOk h 0x0061 (switchOver (taken h s)) ∧
    t.mgmt.active = s.mgmt.target ∧ t.mgmt.target = s.mgmt.active ∧ t.mgmt.commitAt = some (s.now + 10000000000) ∧ t.groups = s.groups ∧ t.qs = s.qs) ∧
  (∀ dies d rest, pmiGo s h = true → h.fn = 0 → (List.range 8).filter dies.contains = d :: rest → (∀ x ∈ dies, x < 8) → s.mgmt.stagedUc = true → s.mgmt.ucDies = [] →
    exec (.fwActivate h 1 dies) s = .next (enginesOut d ((taken h s).onMgmt fun m => { m with ucDies := d :: rest, ucReq := some h }))) ∧
  (∀ d rest, s.mgmt.ucDies = d :: rest → ∃ t, exec (.microcodeDieDone d) s = .next t ∧
    (∀ e ∈ dieEngines d, (t.engines.get e).ugen = (s.engines.get e).ugen + 1) ∧ (t.tier.dies.get d).ugen = (s.tier.dies.get d).ugen + 1 ∧
    t.mgmt.ucDies = rest ∧ t.groups = s.groups ∧ t.qs = s.qs ∧
    ∀ u, u = ((forAll (dieEngines d) (fun e s => s.onEngine e fun x => { x with out := (s.tier.dies.get d).fenced, ugen := x.ugen + 1 }) s).onDom d
        fun x => { x with ugen := x.ugen + 1 }).onMgmt (fun m => { m with ucDies := rest }) →
      (∀ d2 r2, rest = d2 :: r2 → t = enginesOut d2 u) ∧
      (∀ hr, rest = [] → s.mgmt.ucReq = some hr → t = pmiAnswer hr 0x0061 pOk 0 [] (u.onMgmt fun m => { m with ucReq := none, stagedUc := false }))) ∧
  (∀ t0 a, s.mgmt.commitAt = some t0 → s.mgmt.formerActive = some a → t0 ≤ s.now → exec .plowinCommit s = .next (s.onMgmt fun m =>
    { m with commitAt := none, formerActive := none, staged := false, bootSlot := 1 - m.bootSlot, cores := m.cores.mapAll (fun c => { c with newFw := false }),
             standby := a, target := if mgmtCores s < 3 then a else m.standby }))

/-- Loss of the host and of a link (R360 R361 R370 R373 R374 R390). With both links down for 100 ms every function is orphaned, 10 s after
its last heartbeat one function is, and with a function each of its live contexts, which policy 1 pauses; a context under
policy 2 is reset with the cause of an orphan reset when its time has passed, once nothing keeps the reset waiting; a link that goes down counts the event, the other port
counts the failover and takes its traffic with one DEGRADED record, and a hot reset is the loss of that port's link alone; the traffic returns 1 s after the link is up again,
and a link that comes up beside one that is down takes it at once and ends the orphaning of each function whose heartbeat is not lost. -/
def Obligations.HostLossComplete : Prop :=
  ∀ (s : State),
  (∀ fns : Nat → Prop, ∀ cmd : Instr, ((∀ f, fns f ↔ f < 64) ∧ cmd = .orphanLinkTimeout ∧ bothGone s = true ∨
      ∃ f, f < 64 ∧ (∀ g, fns g ↔ g = f) ∧ cmd = .orphanHeartbeatTimeout f ∧ beatLost s f = true) →
    ∃ t, exec cmd s = .next t ∧ (∀ f, (t.fn f).orphan = true ↔ fns f ∨ (s.fn f).orphan = true) ∧
      (∀ c, (s.ctx c).live = true → fns (s.ctx c).fn → (t.ctx c).orphanedAt = some ((s.ctx c).orphanedAt.getD s.now) ∧
        ((s.ctx c).orphanedAt = none → (t.ctx c).paused = decide ((s.ctx c).orphan = 1))) ∧
      (∀ c, ¬ ((s.ctx c).live = true ∧ fns (s.ctx c).fn) → (s.ctxs.any fun x => x.1 = c && x.2.live && x.2 != s.ctx c) = false → t.ctx c = s.ctx c) ∧ t.mem = s.mem) ∧
  (∀ c t0, let x := s.ctx c
    x.orphanedAt = some t0 → x.live = true → x.orphan = 2 → x.resetAt = 0 → x.inReset = false → s.mgmt.ready = true → t0 + 1000000000 * x.orphanTime ≤ s.now →
    resetWaits s c 2 x.snap = false →
    exec (.orphanTimeExpire c) s = .next ((ctxReset c 2 x.snap none s).onCtx c fun x => { x with resetAt := s.now })) ∧
  (∀ p o perst (cmd : Instr) u, p + o = 1 → (cmd = .pcieLinkDown p ∧ u = s ∨ cmd = .pcieLinkReset p perst ∧ u = (if perst then s.onPwr fun w => { w with perst := w.perst.put p false } else s)) →
    (s.pcie.get p).up = true →
    ∀ v, v = u.onPci p (fun x => { x with up := false, downAt := some s.now, linkDown := x.linkDown.raise, serving := false }) →
    exec cmd s = .next (if (s.pcie.get o).up then errAdd { source := srcPcie p, cls := clPcie, sev := sevDegraded, unit := p, die := 0x10 + p }
      (v.onPci o fun x => { x with failover := x.failover.raise, serving := true }) else v)) ∧
  (∀ p, p < 2 → (s.pcie.get p).up = true → (s.pcie.get p).serving = false → (s.pcie.get p).upAt + 1000000000 ≤ s.now →
    exec (.pciePortReturn p) s = .next (s.onPci p fun x => { x with serving := true })) ∧
  (∀ p, p < 2 → (s.pcie.get p).up = false → s.pwr.perst.get p = true → 6 ≤ s.pwr.steps → s.pwr.islands = true → s.tsc.ref = true →
    (s.tier.dies.get (ioOwner s.variant p)).fenced = false →
    ∃ t, exec (.pcieLinkUp p) s = .next t ∧ (t.pcie.get p).up = true ∧ (t.pcie.get p).upAt = s.now ∧ (t.pcie.get p).downAt = none ∧
      ((s.pcie.get (1 - p)).up = false ∨ (s.pcie.get p).downAt = none → (t.pcie.get p).serving = true) ∧
      (∀ f, f < 64 → (t.fn f).orphan = ((s.fn f).orphan && beatLost s f)) ∧ t.ctxs = s.ctxs ∧ t.xl = s.xl ∧ t.groups = s.groups)

/-- Resets from PCIe and accesses of the host (R210 R243 R363 to R366, R368 R369 R371). A function level reset of a VF leaves its rings, its
MSI-X table and its base registers at their reset values and its contexts out of reset, and that of the PF also clears VF Enable; NumVFs decides which virtual
functions are in service, and one that leaves is reset likewise. BAR2 takes a legal size; a read request over BAR2 returns the mapped bytes, one that nothing maps is
aborted without data, with a record; a write request performs the mapped bytes, and one that nothing maps is recorded; refused BAR0 accesses are recorded and a refused read
returns 0; requests from untrusted buses are counted; PCIE_CFG takes a range that keeps its writer and refuses another. -/
def Obligations.HostAccessesComplete : Prop :=
  ∀ (s : State),
  (∀ f, f < 64 → f ≠ 0 → ∃ t, exec (.functionLevelReset f) s = .next t ∧ t = flr f s ∧
    (let x := t.fn f; x.reqBase = 0 ∧ x.rspBase = 0 ∧ x.reqTail = 0 ∧ x.reqHead = 0 ∧ x.rspHead = 0 ∧ x.rspTail = 0 ∧ x.fault = {} ∧ x.park = {} ∧
      x.notify = {} ∧ x.snapR = {} ∧ x.msixT = [] ∧ x.pba = []) ∧
    (∀ c ∈ fnCtxs s f, (t.ctx c).inReset = false)) ∧
  (∃ t, exec (.functionLevelReset 0) s = .next t ∧ ∀ f, 1 ≤ f → f < 64 → (t.fn f).vf = false) ∧
  (∀ num, ∃ t, exec (.vfLeaveService num) s = .next t ∧ ∀ f, 1 ≤ f → f < 64 →
    ((t.fn f).vf = true ↔ f ≤ num) ∧ (num < f → (s.fn f).vf = true → (t.fn f).reqBase = 0 ∧ (t.fn f).rspBase = 0 ∧ (t.fn f).fault = {} ∧ (t.fn f).park = {} ∧
      (t.fn f).notify = {} ∧ (t.fn f).snapR = {} ∧ (t.fn f).msixT = [])) ∧
  (∀ p size, p < 2 → size ∈ bar2Sizes → size ≤ bar2Max s.variant → exec (.barResize p size) s = .next (s.onPci p fun x => { x with bar2 := size })) ∧
  (∀ p fn off n, bar2Hit s p fn off n = true → off % 4096 + n ≤ 4096 →
    (∀ c va l, bar2Map s fn off = some (c, va) → bar2Bad s c va n needR = none → bulkRd s { ctx := c, gen := (s.ctx c).gen } va n = (l, []) →
      exec (.bar2Read p fn off n) s =
        .next ((bulkTouch { ctx := c, gen := (s.ctx c).gen } va n (s.onBar2Rsp fun _ => (0, []))).onBar2Rsp fun _ => (0, l))) ∧
    (bar2Map s fn off = none →
      exec (.bar2Read p fn off n) s = .next ((errAdd (bar2Rec p 0xFFFF 0 s) (s.onBar2Rsp fun _ => (0, []))).onBar2Rsp fun _ => (1, [])))) ∧
  (∀ p fn off data, bar2Hit s p fn off data.length = true → off % 512 + data.length ≤ 512 →
    (∀ c va, bar2Map s fn off = some (c, va) → bar2Bad s c va data.length needW = none →
      exec (.bar2Write p fn off data) s = .next (bulkWr { ctx := c, gen := (s.ctx c).gen } none va data [] s).1) ∧
    (bar2Map s fn off = none → exec (.bar2Write p fn off data) s = .next (errAdd (bar2Rec p 0xFFFF 0 s) s))) ∧
  (∀ f off, f < 64 → off < 0x4000000 → bar0Own s f off = false →
    exec (.bar0AccessRefused f off true) s = .next (bar0Refused f off s) ∧ exec (.bar0AccessRefused f off false) s = .next ((bar0Refused f off s).onLastRead fun _ => 0)) ∧
  (∀ p (bus : BitVec 8), p < 2 → (s.pcie.get p).up = true → ¬ ((s.pcie.get p).lo.toNat ≤ bus.toNat ∧ bus.toNat ≤ (s.pcie.get p).hi.toNat) →
    exec (.untrustedRequest p bus) s = .next (s.onPci p fun x => { x with peerRej := x.peerRej.raise })) ∧
  (∀ p o (bus : BitVec 8) (v : DWord), p < 2 → o < 2 → (s.pcie.get o).up = true → trusted s o bus = true →
    exec (.pcieCfgWrite p bus v) s = .next (if v.toNat % 256 ≤ bus.toNat ∧ bus.toNat ≤ v.toNat / 256 % 256 then
      s.onPci p fun x => { x with lo := BitVec.ofNat 8 (v.toNat % 256), hi := BitVec.ofNat 8 (v.toNat / 256 % 256), cfgSet := true }
      else writeRefused (.fn 0) (ctrlIoBase p + 0x110000) s))

/-- FATAL, the dump and the error ring (R262 R396 R397 R401). FATAL asserts FAULT_N, writes its record and, where no unreleased dump exists,
takes a dump; a copied dump lies in the host's buffer and is marked, and under AUTO_RESTART a warm restart follows; a warm restart leaves FATAL with the
contexts gone, and keeps the dump's region, fences and array spares, device time and the registers of the error unit; RELEASE frees the dump region; a legal ring base, which empties the ring where it
moves it, and a head that follows the head rule are taken and held records written; others are refused. -/
def Obligations.FatalAndErrorRingComplete : Prop :=
  ∀ (s : State),
  (∀ ev, s.mgmt.running = true → s.pwr.state ≠ .fatal → ∃ t, exec (.fatalEnter ev) s = .next t ∧
    t = fatalEnter (if ev = 0 then plowinRec s clMgmt sevFatal else { source := srcPower, cls := clPower, sev := sevFatal, die := 0x20 }) s ∧
    t.pwr.state = .fatal ∧ t.pwr.faultN = true ∧ t.err.seq = (s.err.seq + 1) % 2 ^ 32 ∧
    t.err.valid = true ∧ (s.err.valid = false → t.err.dumpSeq = BitVec.ofNat 32 s.err.seq ∧ t.err.copied = false) ∧ t.ctxs = s.ctxs) ∧
  (s.err.copying = true → anyLink s = true →
    ∀ u, u = (s.hostWr (4096 * s.err.dumpAddr) (s.rd (dumpBase s) dumpLen)).onErr (fun e => { e with copying := false, copied := true }) →
    exec .dumpCopyComplete s = .next (if s.err.auto then warmRestart u else u)) ∧
  (regsMay s = true → s.pwr.state = .fatal → ∃ t, exec .warmRestart s = .next t ∧ t = warmRestart s ∧
    t.pwr.state = .starting ∧ t.pwr.steps = 4 ∧ t.groups = [] ∧ t.saved = [] ∧ t.qs = [] ∧ t.xl = {} ∧ t.sync = {} ∧
    (∀ c, (t.ctx c).live = false ∧ (t.ctx c).gen = if (s.ctx c).live then (s.ctx c).gen + 1 else (s.ctx c).gen) ∧
    (∀ p, (t.core p).fenced = (s.core p).fenced ∧ (t.core p).spareRow = (s.core p).spareRow ∧ (t.core p).spareCol = (s.core p).spareCol) ∧
    t.err = s.err ∧ t.tsc.time = s.tsc.time ∧ (∀ a, hostBase ≤ a ∨ dumpBase s ≤ a ∧ a < dumpBase s + dumpLen → t.mem.get a = s.mem.get a)) ∧
  (regsMay s = true → exec .release s = .next (s.onErr fun e => { e with valid := false, copying := false, copied := false })) ∧
  (∀ (v : DWord), regsMay s = true →
    ∀ u, u = dumpStart (s.onErr fun e => { e with auto := decide (v.toNat % 2 = 1), dumpAddr := v.toNat / 2 ^ 12 }) →
    ∀ w, w = (if v.toNat / 4 % 2 = 1 then dumpRelease u else u) →
    exec (.errDumpCtlWrite v) s = .next (if v.toNat / 2 % 2 = 1 then warmRestart w else w)) ∧
  (∀ (v : DWord), regsMay s = true →
    (v.toNat / 2 ^ 12 % 16 ≤ 10 → ∀ moved, moved = decide (s.err.base.toNat / 2 ^ 12 ≠ v.toNat / 2 ^ 12) →
      exec (.errEringBaseWrite v) s =
        .next (errFlush (s.onErr fun e => { e with base := v, head := if moved then 0 else e.head, tail := if moved then 0 else e.tail }))) ∧
    (10 < v.toNat / 2 ^ 12 % 16 → exec (.errEringBaseWrite v) s = .next (writeRefused (.fn 0) eringPa s))) ∧
  (∀ v, regsMay s = true →
    exec (.errEringHeadWrite v) s = .next (if (v - s.err.head).toNat < 2 ^ 31 ∧ (s.err.tail - v).toNat < 2 ^ 31 then
      errFlush (s.onErr fun e => { e with head := v }) else writeRefused (.fn 0) (eringPa + 8) s))

/-- Registers and doorbells of the host (R11 to R13, R262 R309 R316 R317 R364). A legal register write of 8 bytes, or of 4 bytes at either half, has the register's action on
the bits it writes; a write of another size or alignment, where no register is defined or where the function has none, is recorded and does nothing else; a write of the
function's MSI-X table stores the bytes; a refused read is recorded and returns 0; a tail of requests is taken when it is ahead by no more than
the ring holds, and refused otherwise; a ring head that follows the head rule is taken, and another is recorded. -/
def Obligations.RegisterAccessesComplete : Prop :=
  ∀ (s : State),
  (∀ (a : RegAcc) v hw, accMay s a = true → a.msix = none →
    (∀ r, regAt s (a.pa / 8 * 8) = some r → (∀ f, a.fn = some f → ownReg s f r = true) →
      (a.size = 8 → a.pa % 8 = 0 → exec (.registerWrite a v hw) s = .next (regAction (accWho a) r v (BitVec.allOnes 64) hw none s)) ∧
      (a.size = 4 → a.pa % 8 = 0 → exec (.registerWrite a v hw) s = .next (regAction (accWho a) r v 0xFFFFFFFF hw none s)) ∧
      (a.size = 4 → a.pa % 8 = 4 →
        exec (.registerWrite a v hw) s = .next (regAction (accWho a) r (BitVec.ofNat 64 (v.toNat % 2 ^ 32 * 2 ^ 32)) 0xFFFFFFFF00000000 hw none s))) ∧
    (regAt s (a.pa / 8 * 8) = none ∨ regSized a.pa a.size = false ∨ (∃ f r, a.fn = some f ∧ regAt s (a.pa / 8 * 8) = some r ∧ ownReg s f r = false) →
      exec (.registerWrite a v hw) s = .next (errAdd (regRefused s (accWho a) a.pa) s))) ∧
  (∀ (a : RegAcc) f i v hw, accMay s a = true → a.fn = some f → a.msix = some i → regSized i a.size = true → i + a.size ≤ 32768 →
    exec (.registerWrite a v hw) s = .next (msixWrite f i (leBytes a.size v.toNat) s)) ∧
  (∀ (a : RegAcc), accMay s a = true → readRefused s a = true →
    exec (.registerReadRefused a) s = .next ((errAdd (regRefused s (accWho a) a.pa) s).onLastRead fun _ => 0)) ∧
  (∀ f (v : Word), let x := s.fn f
    f < 64 → anyLink s = true → exec (.pmiReqTailWrite f v) s =
      .next (if (v - x.reqTail).toNat < 2 ^ 31 ∧ (v - x.reqHead).toNat ≤ pmiSize x.reqBase then s.onFn f fun x => { x with reqTail := v }
        else writeRefused (.fn f) (pmiPa f + 0x10) s)) ∧
  (∀ f (v : Word) n i, f < 64 → anyLink s = true → (n = 0 ∧ i = RingId.park ∨ n = 1 ∧ i = RingId.notify ∨ n = 2 ∧ i = RingId.snap) →
    exec (.ringHeadWrite f n v) s =
      .next (if (v - ((s.fn f).ring i).head).toNat < 2 ^ 31 ∧ (((s.fn f).ring i).tail - v).toNat < 2 ^ 31 then
        ringFlush f i (s.onRing f i fun r => { r with head := v }) else errAdd (plowinRec s clAccess sevContained) s))

/-- Power-up, power-down and protection (R404 R410 to R415, R418 to R420). The steps follow one another from 12 V to READY, and out of its place a
step changes nothing; a stack that fails its training is recorded; a planned power-down keeps the management domain, device time and the error unit's count, and writes no record; a
protection stop opens the switch, turns every island off and writes its record with its EVENT code; 48 V that returns after an absence of 1 s, or MAIN_POWER ON,
starts the module again; the loss of 12 V stops the management domain and releases FAULT_N and THERM_N. -/
def Obligations.SupplySequenceCompletes : Prop :=
  ∀ (s : State),
  (∀ mpos smb, s.pwr.aux = false → ∃ t, exec (.power12vApply mpos smb) s = .next t ∧ t = powerOn mpos smb s ∧
    t.pwr.aux = true ∧ t.pwr.straps = mpos ∧ t.fab.devId = mpos ∧ t.pwr.cap = tdp s.variant ∧
    t.groups = [] ∧ t.ctxs = [] ∧ t.err = {} ∧ t.tsc.time = 0 ∧ t.pending = s.pending ∧ ∀ a, hostBase ≤ a → t.mem.get a = s.mem.get a) ∧
  (∀ okA okB, s.pwr.aux = true → s.pwr.state = .boot → s.pwr.steps = 1 → s.mgmt.bothBad = false →
    (okA = false → okB = false → ∃ t, exec (.bootImageVerified okA okB) s = .next t ∧ t.mgmt.bothBad = true ∧ t.pwr.faultN = true ∧ t.pwr.state = .boot ∧ t.mgmt.running = s.mgmt.running) ∧
    (okA = true ∨ okB = true → ∀ a rest, mgmtIn s = a :: rest → ∃ t, exec (.bootImageVerified okA okB) s = .next t ∧ t.pwr.state = .standby ∧ t.pwr.steps = 2 ∧ t.mgmt.running = true ∧ t.mgmt.active = a)) ∧
  (∀ cmd : Instr, (cmd = .mainSwitchClose ∧ s.mgmt.running = true ∧ s.pwr.state = .standby ∧ s.pwr.steps = 2 ∧ s.pwr.mainOn = true ∨
      cmd = .mainPowerOn ∧ s.mgmt.running = true ∧ s.pwr.v48 = true ∧ (s.pwr.state = .standby ∨ s.pwr.state = .protect) ∨
      cmd = .input48vReturn ∧ s.pwr.state = .protect ∧ (∀ t0, s.pwr.v48lost = some t0 → t0 + 1000000000 ≤ s.now)) →
    ∃ t, exec cmd s = .next t ∧ t.pwr.sw = true ∧ t.pwr.islands = true ∧ t.pwr.state = .starting ∧ t.pwr.steps = 4 ∧ ∀ q < 288, (t.pwr.quads.get q).mode = .operating ∧ (t.pwr.quads.get q).mv = 550) ∧
  (∀ ok, s.pwr.state = .starting → s.pwr.steps = 4 → ∃ t, exec (.hbmTrainingDone ok) s = .next t ∧ t.pwr.steps = 5 ∧
    (∀ h < nStacks s.variant, (t.tier.hbms.get h).trained = ok.contains h ∧ (ok.contains h = false → (t.tier.hbms.get h).failed = true)) ∧
    ((∀ h < nStacks s.variant, ok.contains h = true) → t.err = s.err)) ∧
  (s.pwr.state = .starting → s.pwr.steps = 5 → ∃ t, exec .tierSelfTestDone s = .next t ∧ t.pwr.steps = 6 ∧
    (∀ i < nPorts s.variant, (s.port i).enable = true → (s.fab.ios.get (i / 8)).refclk = true → (s.fab.ios.get (i / 8)).out = false → s.pwr.islands = true → (t.port i).st = .training)) ∧
  (∀ p, p < 2 → s.pwr.aux = true → exec (.perstDeassert p) s = .next (s.onPwr fun w => { w with perst := w.perst.put p true })) ∧
  (s.pwr.state = .starting → s.pwr.steps = 6 → s.mgmt.running = true → ∃ t, exec .ready s = .next t ∧ t.pwr.state = .ready ∧ t.pwr.steps = 7 ∧ t.pwr.faultN = false ∧ t.mgmt.ready = true ∧
    t.pwr.wakeN = (if s.pwr.afterStop then s.pwr.wakeN + 1 else s.pwr.wakeN)) ∧
  ((s.pwr.state ≠ .starting ∨ s.pwr.steps ≠ 4 → ∀ ok, exec (.hbmTrainingDone ok) s = .next s) ∧ (s.pwr.state ≠ .starting ∨ s.pwr.steps ≠ 5 → exec .tierSelfTestDone s = .next s) ∧
    (s.pwr.state ≠ .starting ∨ s.pwr.steps ≠ 6 → exec .ready s = .next s) ∧ (s.pwr.state ≠ .standby ∨ s.pwr.steps ≠ 2 → exec .mainSwitchClose s = .next s) ∧
    (s.pwr.state ≠ .boot ∨ s.pwr.steps ≠ 1 → ∀ okA okB, exec (.bootImageVerified okA okB) s = .next s)) ∧
  (s.mgmt.running = true → s.pwr.sw = true → ∃ t, exec .mainPowerOff s = .next t ∧ t.pwr.sw = false ∧ t.pwr.mainOn = false ∧ t.pwr.islands = false ∧ t.pwr.state = .standby ∧ t.groups = [] ∧
    t.mgmt.running = true ∧ t.tsc.time = s.tsc.time ∧ t.err.seq = s.err.seq ∧ t.err.log = s.err.log ∧ (∀ a, a < hostBase → t.mem.get a = 0) ∧ (∀ a, hostBase ≤ a → t.mem.get a = s.mem.get a)) ∧
  (∀ ev, 1 ≤ ev → ev ≤ 4 → s.pwr.sw = true → s.pwr.aux = true → ∃ t, exec (.protectionStop ev) s = .next t ∧ t = protect ev s ∧
    t.pwr.state = .protect ∧ t.pwr.sw = false ∧ t.pwr.islands = false ∧ t.pwr.faultN = true ∧
    t.err.seq = (s.err.seq + 1) % 2 ^ 32 ∧ t.groups = [] ∧ (∀ c, (t.ctx c).live = false) ∧ t.err.valid = false ∧ t.tsc.time = s.tsc.time) ∧
  (s.pwr.aux = true → ∃ t, exec .auxSupplyLoss s = .next t ∧ t.pwr.aux = false ∧ t.pwr.sw = false ∧ t.mgmt.running = false ∧ t.mgmt.ready = false ∧ t.pwr.faultN = false ∧ t.pwr.thermN = false ∧
    t.err.seq = s.err.seq)

/-- Sideband, clocks and regulators (R382 R405 to R407, R416). A board cap in range is taken and the cap in force follows, another changes nothing; after both
images have failed, the images are verified again after a firmware update; the TAP holds the instruction, and a test instruction acts as BYPASS while the switch is closed; without its
reference clock an I/O die's ports are DOWN and the others stay as they are, and with it again they train; the first failed phase of a rail is masked, a further one caps the
input power at what the remaining phases carry and is recorded. -/
def Obligations.SidebandAndClocksComplete : Prop :=
  ∀ (s : State),
  (∀ w, s.pwr.aux = true → minCap ≤ w → w ≤ tdp s.variant → exec (.boardCapWSet w) s = .next (s.onPwr fun p =>
    { p with boardCap := w, cap := min (min p.reqCap w) (p.vrCap.getD w) })) ∧
  (∀ w, w < minCap ∨ tdp s.variant < w → exec (.boardCapWSet w) s = .next s) ∧
  (s.pwr.aux = true → s.pwr.state = .boot → s.mgmt.bothBad = true → exec .pldmFirmwareUpdate s = .next (s.onMgmt fun m => { m with bothBad := false, slotOk := [] })) ∧
  (∀ t, exec (.jtagInstruction t) s = .next (s.onPwr fun p => { p with tap := tapCode (!s.pwr.sw) t })) ∧
  (∀ t, tapCode false t = if t = .idcode then tapCode true .idcode else tapCode true .bypass) ∧
  (∀ io, io < nIo s.variant → ∃ t, exec (.fabricRefclkLoss io) s = .next t ∧ (t.fab.ios.get io).refclk = false ∧ (∀ i < 8, (t.port (8 * io + i)).st = .down) ∧
    (∀ i, i / 8 ≠ io → (t.port i).st = (s.port i).st)) ∧
  (∀ io, io < nIo s.variant → (s.fab.ios.get io).refclk = false → 6 ≤ s.pwr.steps → s.pwr.islands = true → (s.fab.ios.get io).out = false → ∃ t, exec (.fabricRefclkReturn io) s = .next t ∧
    (t.fab.ios.get io).refclk = true ∧ ∀ i < 8, (s.port (8 * io + i)).st = .down → (s.port (8 * io + i)).enable = true → (t.port (8 * io + i)).st = .training) ∧
  (∀ rail carry, s.pwr.vrSpare.get rail = false → exec (.vrPhaseFailure rail carry) s = .next (s.onPwr fun p => { p with vrSpare := p.vrSpare.put rail true })) ∧
  (∀ rail carry, s.pwr.vrSpare.get rail = true → exec (.vrPhaseFailure rail carry) s =
    .next (errAdd { source := srcPower, cls := clPower, sev := sevDegraded, die := 0x20 } (capFix (s.onPwr fun p => { p with vrCap := some (min carry (p.vrCap.getD carry)) }))))

/-- Swaps and rotation of cores (R21 R22 R383 to R387). A planned swap takes a stand-in that keeps R21; one that passes its entry check takes over the split alone, and every resident group of
the ID is asked to stop; one that fails it is fenced and recorded, and another is chosen. Once the groups are out and the store buffer is empty the ID moves: the map
names the new core under the next sequence number and nothing else of the map changes; where the stand-in has been fenced, or a planned move no longer keeps R21, another is chosen.
The outgoing core is tested and, passed, returns to the pool, else it is fenced and recorded; a fenced core that passes a retest is in service again, behind an ID without a core where there is one (which of several is
the model's choice, notes/assumptions/59.md). -/
def Obligations.SwapsComplete : Prop :=
  ∀ (s : State), mgmtWorks s = true →
  (∀ c q, c < 1024 → (s.phys c).isSome = true → s.mesh.swaps.get c = none → chooseStandin s c false = some q →
    exec (.rotationSwapStart c) s = .next (s.onMesh fun m => { m with swaps := m.swaps.put c (some (q, false, 0)) })) ∧
  (∀ c p q why, s.mesh.swaps.get c = some (q, false, why) → s.phys c = some p → (s.core q).fenced = false → p ≠ q →
    ∃ t, exec (.standinEntryCheckDone c true) s = .next t ∧ t.mesh.swaps.get c = some (q, true, why) ∧ (t.core q).split = (s.core p).split ∧ (t.core q).holder = none ∧
      (t.core q).acc0 = [] ∧ (t.core q).acc1 = [] ∧ (t.core q).sb = [] ∧ (t.core q).l1 = [] ∧ t.mesh.map = s.mesh.map ∧ t.mesh.seq = s.mesh.seq ∧
      ∀ i < 48, (s.group (gKey c i)).stage = .running → (t.group (gKey c i)).stop.isSome = true) ∧
  (∀ c p q why, s.mesh.swaps.get c = some (q, false, why) → s.phys c = some p →
    exec (.standinEntryCheckDone c false) s = .next (swapAgain c why (testFails q (quadOn q s)))) ∧
  (∀ c p q why, s.mesh.swaps.get c = some (q, true, why) → s.phys c = some p → drained s c = true →
    ((s.core q).fenced = false → why = 2 ∨ keepsR21 s.mesh c q = true → (s.core p).sb = [] →
      ∃ t, exec (.standinIdentityMove c) s = .next t ∧ t.mesh.seq = s.mesh.seq + 1 ∧ t.mesh.swaps.get c = none ∧ t.mesh.map = s.mesh.map.put c (some (q + 1)) ∧
        (why ≠ 2 → (t.core p).testing = true)) ∧
    ((s.core q).fenced = true ∨ why ≠ 2 ∧ keepsR21 s.mesh c q = false → exec (.standinIdentityMove c) s = .next (swapAgain c why s))) ∧
  (∀ p, p < 1152 → (s.core p).fenced = false → logOf s.mesh p = none → (chosen s).contains p = false →
    exec (.coreSelfTestDone p true) s = .next (testStep p true ((quadOn p s).onCore p fun c => { c with testing := false, lastPass := s.now })) ∧
    exec (.coreSelfTestDone p false) s = .next (testStep p false (testFails p (quadOn p s)))) ∧
  (∀ p, testFails p s = poolWatch (pDie p) (fun s => s.onCore p fun c => { c with fenced := true, fencedByTest := true, testing := false })
    (errAdd { (coreRec s p clCore sevContained) with synd := (s.core p).lastPass } s)) ∧
  (∀ p, p < 1152 → (s.core p).fenced = true → (s.core p).fencedByTest = false ∨ (s.core p).testing = true → (s.tier.dies.get (pDie p)).fenced = false → logOf s.mesh p = none →
    ∃ u, u = (quadOn p s).onCore p (fun c => { c.noArray with fenced := false, fencedByTest := false, testing := false, lastPass := s.now, sb := [], l1 := [] }) ∧
      (∀ c, lostId u p = some c → exec (.fencedCoreRetest p true) s = .next (testStep p true (mapSet c (some p) u))) ∧
      (lostId u p = none → exec (.fencedCoreRetest p true) s = .next (testStep p true u)) ∧
      exec (.fencedCoreRetest p false) s = .next (testStep p false (testFails p (quadOn p s))))

/-- Watchdogs and units that restart (R381 R388 R391 R392 R394). A silent core is recorded and has a core fault; a silent die's domain stops; a silent
management core leaves service with a record and without a stop of any group: another that was active stays so, a silent active one is followed by the standby, or before the commit of a live update by
the former active core, which leaves the boot selection as it was; with none left the device is FATAL. An engine with an internal error fails its started packets, is recorded
and is out until its restart raises its unit generation; the data path of an I/O die and a stack in retraining are out until theirs. -/
def Obligations.WatchdogsAndRestartsComplete : Prop :=
  ∀ (s : State),
  (∀ d, d < 8 → (s.tier.dies.get d).fenced = false → (s.tier.dies.get d).stopped = false → s.pwr.state ≠ .fatal →
    (∀ p, pDie p = d → (s.core p).fenced = false → exec (.coreWatchdogTimeout d (some p)) s = .next (coreFault p true (errAdd (coreRec s p clCore sevContained) s))) ∧
    ∃ t, exec (.coreWatchdogTimeout d none) s = .next t ∧ t = domainStop d s ∧ (t.tier.dies.get d).stopped = true ∧ (∀ g ∈ t.saved, lDie g.lcore ≠ d)) ∧
  (∀ m, m < 3 → (s.mgmt.cores.get m).ok = true → s.mgmt.running = true → s.pwr.state ≠ .fatal →
    ((∀ i < 3, i ≠ m → (s.mgmt.cores.get i).ok = false) →
      ∃ t, exec (.mgmtWatchdogTimeout m) s = .next t ∧ t.pwr.state = .fatal ∧ t.pwr.faultN = true ∧ (t.mgmt.cores.get m).ok = false) ∧
    (∀ a, (m ≠ s.mgmt.active ∧ a = s.mgmt.active ∨ m = s.mgmt.active ∧ s.mgmt.commitAt = none ∧ a = s.mgmt.standby ∨
        m = s.mgmt.active ∧ s.mgmt.commitAt.isSome ∧ s.mgmt.formerActive = some a) → a ≠ m → a < 3 → (s.mgmt.cores.get a).ok = true →
      ∃ v, exec (.mgmtWatchdogTimeout m) s = .next (errAdd { source := srcMgmt a, cls := clMgmt, sev := if mgmtCores v = 1 then sevDegraded else sevContained, unit := m, die := 0x20 } v) ∧
        v.mgmt.active = a ∧ (v.mgmt.cores.get m).ok = false ∧ v.mgmt.bootSlot = s.mgmt.bootSlot ∧ (m = s.mgmt.active → v.mgmt.commitAt = none) ∧
        v.pwr = s.pwr ∧ v.groups = s.groups ∧ v.qs = s.qs)) ∧
  (∀ e, e < 32 → engineRuns s e = true → exec (.engineInternalError e) s =
    .next (errAdd { source := engSrc e, cls := clEngine, sev := sevContained, unit := e, die := if e < 24 then engDie s.variant e else 0x10 + (e - 24) }
      ((engineFail e s).onEngine e fun x => { x with out := true }))) ∧
  (∀ x, x < nIo s.variant → (s.fab.ios.get x).out = false → s.pwr.state ≠ .fatal → exec (.engineInternalError (32 + x)) s =
    .next (errAdd { source := srcLeng x, cls := clFabric, sev := sevContained, unit := x, die := 0x10 + x } (s.onIo x fun i => { i with out := true }))) ∧
  (∀ h, h < nStacks s.variant → (s.tier.hbms.get h).trained = true → exec (.hbmRetrain h) s = .next (s.onStack h fun x => { x with out := true })) ∧
  (∀ e, e < 32 → (s.engines.get e).out = true → ucPause s e = false → (s.tier.dies.get (engDie s.variant e)).fenced = false →
    exec (.unitRestartComplete (.engine e)) s = .next (s.onEngine e fun x => { x with out := false, ugen := x.ugen + 1 })) ∧
  (∀ h, (s.tier.hbms.get h).out = true → exec (.unitRestartComplete (.hbm h)) s = .next (s.onStack h fun x => { x with out := false, ugen := x.ugen + 1 })) ∧
  (∀ x, x < nIo s.variant → (s.fab.ios.get x).out = true → (s.tier.dies.get (ioOwner s.variant x)).fenced = false → exec (.unitRestartComplete (.ioDie x)) s =
    .next ((s.onIo x fun i => { i with out := false, ugen := i.ugen + 1 }).onEngine (24 + x) fun e => { e with out := false, ugen := e.ugen + 1 }))

/-- Ports and lanes (R339 R342 to R344, R353 R354). A port that trains and whose link packets name another device is UP on eight lanes, with the unacknowledged packets
sent again under the credits they hold, and one whose peer is this device stays in TRAINING with a DEGRADED record; a LINK packet frees what it acknowledges and returns credits,
with a NAK the rest goes again, and after 16 failures of one packet the port retrains, keeping its replay buffer; 100 ms without a link, or a third bad lane,
take it DOWN; a bad lane is replaced by the spare, with a CORRECTED record, or the port goes on with seven lanes, with a DEGRADED one, and what is unacknowledged goes again; a recovered lane is spare or active again;
the free spare rotates. -/
def Obligations.PortsAndLanesComplete : Prop :=
  ∀ (s : State) (i : Nat), let p := s.port i
  (∀ peer pp, i < nPorts s.variant → trains s i = true → p.badLanes.length ≤ 1 →
    (peer ≠ s.fab.devId → ∃ t, exec (.portTrainingComplete i peer pp) s = .next t ∧
      (let x := t.port i; x.st = .up ∧ x.lanes = 8 ∧ x.peer = peer ∧ x.peerPort = pp ∧ x.spare = p.badLanes.isEmpty ∧ x.replay = p.replay ∧ x.tx = p.tx ++ p.replay ∧
        ∀ v < 4, x.credits.get v = flitsOf (p.replay.filter fun k => k.vc = v))) ∧
    (peer = s.fab.devId → exec (.portTrainingComplete i peer pp) s = .next (errAdd (laneRec i sevDegraded) (s.onPort i fun t => { t with st := .training, peer := peer, peerPort := pp })))) ∧
  (p.isUp = true → exec (.linkPacketSend i) s = .next (s.onPort i fun t => { t with linkTx := t.linkTx + 1, nak := false, linkOut := some (
    { ack := p.wantL - 1, nak := p.nak, credit := [p.freed.get 0, p.freed.get 1, p.freed.get 2, p.freed.get 3], device := s.fab.devId, port := BitVec.ofNat 6 i } : LinkPkt) })) ∧
  (∀ k : LinkPkt, i < nPorts s.variant → p.isUp = true → k.credit.length = 4 → k.nak = false → ∃ t, exec (.linkPacket i true false k) s = .next t ∧
    (let x := t.port i; x.replay = p.replay.filter (fun y => !acked k.ack y) ∧ x.tx = p.tx ∧ x.st = p.st ∧ x.peer = k.device ∧ x.peerPort = k.port ∧
      ∀ v < 4, x.credits.get v = p.credits.get v - (k.credit.getD v 0 - p.peerFreed.get v).toNat ∧ x.peerFreed.get v = k.credit.getD v 0)) ∧
  (∀ (k : LinkPkt) rest n, i < nPorts s.variant → p.isUp = true → k.credit.length = 4 → k.nak = true → rest = p.replay.filter (fun y => !acked k.ack y) →
    n = (if rest.length < p.replay.length then 1 else p.failsN + 1) →
    (n < 16 → ∃ t, exec (.linkPacket i true false k) s = .next t ∧ (t.port i).failsN = n ∧ (t.port i).replay = rest ∧ (t.port i).tx = p.tx ++ rest ∧ (t.port i).st = p.st) ∧
    (16 ≤ n → ∃ t, exec (.linkPacket i true false k) s = .next t ∧ (t.port i).st = .training ∧ (t.port i).replay = rest ∧ (t.port i).retrained = p.retrained.raise)) ∧
  (∀ t0, p.lossAt = some t0 → p.st = .training → t0 + 100000000 ≤ s.now → ∃ t, exec (.portDownTimeout i) s = .next t ∧ (t.port i).st = .down ∧ (t.port i).replay = [] ∧
    (t.port i).downF = p.downF.raise) ∧
  (∀ lane, p.isUp = true → lane < 9 → p.badLanes.contains lane = false →
    ∀ u, u = s.onPort i (fun t => { t with badLanes := t.badLanes ++ [lane], moving := true }) →
    exec (.laneLockLoss i lane) s = .next (if p.badLanes.length < 2 then u else portDown i u)) ∧
  (p.isUp = true → p.moving = true →
    ∀ u, u = s.onPort i (fun t => { t with moving := false, tx := t.tx ++ t.replay, replays := t.replays + BitVec.ofNat 32 t.replay.length }) →
    ∀ v, v = (if p.spare then errAdd (laneRec i sevCorrected) (u.onPort i fun t => { t with spare := false, spared := t.spared.raise }) else u) →
    exec (.laneSpareResume i) s = .next (if 1 < p.badLanes.length ∧ p.st ≠ .upDegraded then
      timeElect (errAdd (laneRec i sevDegraded) (v.onPort i fun t => { t with st := .upDegraded, lanes := 7, lost := t.lost.raise })) else v)) ∧
  (∀ lane, p.moving = false → p.badLanes.contains lane = true → exec (.laneRetrainTick i lane true) s = .next (
    if p.isUp = false then s.onPort i fun t => { t with badLanes := t.badLanes.erase lane }
    else if p.st = .upDegraded then timeElect (s.onPort i fun t => { t with badLanes := t.badLanes.erase lane, st := .up, lanes := 8 })
    else s.onPort i fun t => { t with badLanes := t.badLanes.erase lane, spare := true })) ∧
  (p.isUp = true → p.spare = true → p.moving = false → exec (.spareLaneRotation i) s = .next (s.onPort i fun t => { t with rotLane := (t.rotLane + 1) % 8 }))

/-- Routing, registers and time of the fabric (R24 R45 R345 to R347, R355 to R357). A packet of another device leaves by the port that its request names, where the route has it, else by the one of its route with the most
free credits, with one hop more and the next LSEQ, or it is dropped and counted: after 64 hops, or with no port of its route that is not DOWN. FAB_CONFIG and the routes are what was written, but a device ID that changes while a port is enabled is
refused; a read of the drops returns and clears them; an absent I/O die's registers are not there. A TIME packet is recorded and the devices elect, and one of
the parent that echoes ours corrects device time, by the one step before ready or by slewing; a silent parent is no longer one; a pulse is captured, and a master that follows it slews
to a second between pulses. -/
def Obligations.RoutingAndTimeComplete : Prop :=
  ∀ (s : State),
  (∀ io k at_ ports, whereAt s io k = some at_ → io < nIo s.variant → (s.fab.ios.get io).out = false → k.dst ≠ s.devId →
    ports = (List.range (nPorts s.variant)).filter (fun j => ((s.fab.ios.get io).routes.get k.dst).toNat.testBit j) →
    (64 ≤ k.hops → exec (.packetForward io k) s = .next (routeDrop io false (takeAway at_ k s))) ∧
    (k.hops < 64 → (∀ j ∈ ports, (s.port j).st = .down) → exec (.packetForward io k) s = .next (routeDrop io true (takeAway at_ k s))) ∧
    (∀ i, k.hops < 64 → canSend (s.port i) k = true →
      (i ∈ ports ∧ at_ = none ∧ (∃ r, reqOf s k = some r ∧ r.port = i) ∨
        (at_ ≠ none ∨ ∀ r, reqOf s k = some r → r.port ∉ ports) ∧ mostFree s k.vc (ports.filter fun i => (s.port i).isUp) = some i) →
      ∃ t, exec (.packetForward io k) s = .next t ∧ t = (takeAway at_ k s).onPort i fun p =>
        { p with nextL := p.nextL + 1, credits := p.credits.upd (leaveVc p k) (· + k.flits),
                 replay := p.replay ++ [{ k with hops := k.hops + 1, vc := leaveVc p k, lseq := p.nextL }],
                 tx := p.tx ++ [{ k with hops := k.hops + 1, vc := leaveVc p k, lseq := p.nextL }] })) ∧
  (∀ io k noRoute, ∃ t, t = routeDrop io noRoute s ∧
    (t.fab.ios.get io).noRoute = (if noRoute then min ((s.fab.ios.get io).noRoute + 1) 0xFFFF else (s.fab.ios.get io).noRoute) ∧
    (t.fab.ios.get io).hopLim = (if noRoute then (s.fab.ios.get io).hopLim else min ((s.fab.ios.get io).hopLim + 1) 0xFFFF) ∧ (takeAway none k s).fab.out = s.fab.out.erase k) ∧
  (∀ v : DWord,
    (v.setWidth 16 = s.fab.devId ∨ (∀ i < nPorts s.variant, (s.port i).enable = false) → exec (.fabConfigWrite v) s = .next (timeElect (s.onFab fun f =>
      { f with devId := v.setWidth 16, prio := BitVec.ofNat 8 (v.toNat / 2 ^ 16), ppsEn := decide (v.toNat / 2 ^ 24 % 2 = 1), timeout := BitVec.ofNat 16 (v.toNat / 2 ^ 32) }))) ∧
    (v.setWidth 16 ≠ s.fab.devId → (∃ i < nPorts s.variant, (s.port i).enable = true) → exec (.fabConfigWrite v) s = .next (writeRefused (.fn 0) (ctrlIoBase 0) s))) ∧
  (∀ io v, io < nIo s.variant → exec (.fabRouteDataWrite io v) s = .next (s.onIo io fun x => { x with routes := x.routes.put x.routeIx.toNat (BitVec.ofNat 64 (v.toNat % 2 ^ nPorts s.variant)) })) ∧
  (∀ io, nIo s.variant ≤ io → io < 8 →
    (∀ v, exec (.fabRouteDataWrite io v) s = .next (errAdd (regRefused s (.fn 0) (ctrlIoBase io + 0x100010)) s)) ∧
    exec (.fabDropsRead io) s = .next ((errAdd (regRefused s (.fn 0) (ctrlIoBase io + 0x100020)) s).onLastRead fun _ => 0)) ∧
  (∀ io, io < nIo s.variant → ∃ t, exec (.fabDropsRead io) s = .next t ∧ t.lastRead = regVal s (.fn 0) (.drops io) ∧
    (t.fab.ios.get io).noRoute = 0 ∧ (t.fab.ios.get io).hopLim = 0 ∧ (t.fab.ios.get io).malformed = 0 ∧ t.err = s.err) ∧
  (∀ i, (s.port i).isUp = true → exec (.timePacketSend i) s = .next (s.onPort i fun t => { t with timeTx := t.timeTx + 1, timeOut := some (timePktOf s i) })) ∧
  (∀ i (k : TimePkt), i < nPorts s.variant → (s.port i).isUp = true → k.crcOk = true → k.rsvd = false →
    ∀ u, u = timeElect (s.onPort i fun t =>
      { t with tRecv := some (k.tSend, s.tsc.time), tMaster := some (k.prio.toNat, k.master.toNat, k.hops.toNat), tPps := k.pps, tAt := s.now }) →
    exec (.timePacket i k) s = .next (if u.fab.parent = some i ∧ ¬ (k.echoSend = 0 ∧ k.echoRecv = 0) then
      timeCorrect (((k.echoRecv.toNat - k.echoSend.toNat : Int) - (u.now - k.tSend.toNat : Int)) / 2) u else u)) ∧
  (∀ o : Int, ∃ t, t = timeCorrect o s ∧ t.tsc.offset = BitVec.ofInt 32 o ∧
    (s.pwr.state = .starting ∧ s.pwr.afterStop = false ∧ s.tsc.stepped = false → t.tsc.time = BitVec.ofInt 64 (s.tsc.time.toNat + o) ∧ t.tsc.stepped = true ∧ t.tsc.slew = 0) ∧
    (¬ (s.pwr.state = .starting ∧ s.pwr.afterStop = false ∧ s.tsc.stepped = false) → t.tsc.time = s.tsc.time ∧ t.tsc.slew = o ∧
      t.tsc.aligned = decide (o.natAbs ≤ max 40 (5 * s.tsc.hops.toNat)))) ∧
  (∀ p, s.fab.parent = some p → (s.port p).tAt + 10000000 ≤ s.now → exec .timeParentTimeout s = .next (timeElect (s.onPort p fun t => { t with tMaster := none }))) ∧
  (s.pwr.aux = true → s.tsc.ppsSeen = false ∨ s.tsc.ppsAt.toNat + 500000000 ≤ s.now → exec .ppsPulse s = .next (s.onTsc fun t =>
    { t with ppsAt := t.time, ppsSeen := true, pps := t.pps || (s.fab.ppsEn && decide (t.hops = 0)),
             slew := if s.fab.ppsEn ∧ t.hops = 0 ∧ t.ppsSeen then (1000000000 : Int) - (s.now - s.tsc.ppsAt.toNat) else t.slew }))

/-- Requests of other devices (R242 R341 R348 R349 R351). A PUT that arrives in order and is admitted puts its bytes at their homes, a PHYSICAL one those of its byte enables, counts
them where it says so, and is acknowledged, and a GET is answered with the bytes; a WAIT on a counter that holds its condition is answered, else registered; a cancelled wait is
forgotten. What translation, the context check or the counter denies is answered DENIED with its record, a generation behind the kept one gets no answer, and a unit that is out answers
RETRY_LATER, as a home whose die is stopped does. A packet with a bad CRC is only counted, and a NAK follows. -/
def Obligations.RemoteRequestsComplete : Prop :=
  ∀ (port : Nat) (k : FPkt) (s u : State),
  (∀ (c : Instr) (need : Nat), (c = .put port true k ∧ arrive 1 port true k s = .mine u ∧ need = needW ∨ c = .get port true k ∧ arrive 3 port true k s = .mine u ∧ need = needR) →
    (reqRetry u (port / 8) k = true → exec c s = .next (fabOut (response u k 1) u)) ∧
    (reqRetry u (port / 8) k = false → reqPieces u k need = none → exec c s = .next (denyReq (port / 8) k u)) ∧
    (∀ l, reqRetry u (port / 8) k = false → reqPieces u k need = some l →
      (admitAll k l u = .denied → exec c s = .next (denyReq (port / 8) k u)) ∧ (admitAll k l u = .stale → exec c s = .next u) ∧
      (admitAll k l u = .retry → exec c s = .next (fabOut (response u k 1) u)))) ∧
  (∀ l v, arrive 1 port true k s = .mine u → reqRetry u (port / 8) k = false → reqPieces u k needW = some l → admitAll k l u = .ok v →
    (k.phys = true → ∀ w met, putMasked k v = (w, met) → exec (.put port true k) s = .next (fabOut (response w k (if met || k.poison then 2 else 0)) w)) ∧
    (k.phys = false → k.count = true → farCounter u k = false → exec (.put port true k) s = .next (denyReq (port / 8) k v)) ∧
    (k.phys = false → (k.count = true → farCounter u k = true) → ∀ w met, putPieces l k.data (poisOffs k) v = (w, met) →
      ∀ n z, n = k.len - lostBytes v (l.map fun y => (paOf v.devId y.1, y.2)) (poisOffs k) →
      z = (if k.count then (ctrDo 0x01 (farWait (port / 8) k (BitVec.ofNat 64 n)) 0 (acctAdd k.dctx aFabRx k.len w)).1 else acctAdd k.dctx aFabRx k.len w) →
      exec (.put port true k) s = .next (fabOut (response z k (if met || k.poison then 2 else 0)) z))) ∧
  (∀ v, fencedAt v (lineOf k.addr) = false → putMasked k v = bulkWriteLine (lineOf k.addr)
    (k.mask.map fun o => (o, mixBits k.bits (byteN (v.rd (lineOf k.addr + o) 1) 0) (byteN k.data o))) (if k.poison then k.mask else []) v) ∧
  (∀ l v, arrive 3 port true k s = .mine u → reqRetry u (port / 8) k = false → reqPieces u k needR = some l → admitAll k l u = .ok v →
    exec (.get port true k) s = .next (getDo k l v)) ∧
  (∀ l v, ∃ r, r ∈ (getDo k l v).fab.out ∧ r.dst = k.src ∧ r.txn = k.txn ∧ r.sctx = k.sctx ∧ r.sgen = k.sgen ∧ r.len = k.len ∧
    r.data = (physRead v (l.map fun y => (paOf v.devId y.1, y.2))).1 ∧ r.status = (if (physRead v (l.map fun y => (paOf v.devId y.1, y.2))).2 = [] then 0 else 2)) ∧
  (arrive 5 port true k s = .mine u →
    (reqRetry u (port / 8) k = true → exec (.fabricWait port true k) s = .next (fabOut (response u k 1) u)) ∧
    (reqRetry u (port / 8) k = false → waitAdmit k u = .denied → exec (.fabricWait port true k) s = .next (denyReq (port / 8) k u)) ∧
    (∀ v w, reqRetry u (port / 8) k = false → waitAdmit k u = .ok v → w = farWait (port / 8) k (if k.len % 256 = 0x12 then 0 else k.value) →
      (∀ z code x, ctrDo (k.len % 256) w 0xFFFFFFFF v = (z, .fin code x) → exec (.fabricWait port true k) s = .next (fabOut (waitDonePkt z w code x) z)) ∧
      (∀ z, ctrDo (k.len % 256) w 0xFFFFFFFF v = (z, .waits) → exec (.fabricWait port true k) s = .next z))) ∧
  (arrive 7 port true k s = .mine u → exec (.waitCancel port true k) s = .next (u.onSync fun y =>
    { y with waits := y.waits.filter (fun w => !(w.who = .remote && w.dev = k.src && w.tag = k.txn)),
             queued := y.queued.filter (fun w => !(w.who = .remote && w.dev = k.src && w.tag = k.txn)) })) ∧
  (∀ (c : Instr), (c = .put port false k ∧ k.type = 1 ∨ c = .get port false k ∧ k.type = 3 ∨ c = .fabricWait port false k ∧ k.type = 5 ∨ c = .waitCancel port false k ∧ k.type = 7 ∨
      c = .putAck port false k ∧ k.type = 2 ∨ c = .getData port false k ∧ k.type = 4 ∨ c = .waitDone port false k ∧ k.type = 6) →
    port < nPorts s.variant → (s.port port).isUp = true → (s.port port).moving = false → exec c s = .next (s.onPort port fun t => { t with crc := t.crc + 1, nak := true }))

/-- Answers at their source (R348 R350). The answer that names an outstanding request under its requester's current generation ends it with
the outcome of its status, one that says RETRY_LATER waits twice as long as before, up to 256 us; a retry is sent once its time
has come; a request unanswered at its deadline ends with TIMEOUT_REMOTE, a wait with a cancel too and a load with poison; an answer to nothing changes nothing but the link. -/
def Obligations.RemoteAnswersComplete : Prop :=
  ∀ (port : Nat) (k : FPkt) (s u : State) (r : Rreq),
  (∀ (c : Instr) ty, (c = .putAck port true k ∧ ty = 2 ∧ r.pkt.type = 1 ∨ c = .getData port true k ∧ ty = 4 ∧ r.pkt.type = 3 ∨
      c = .waitDone port true k ∧ ty = 6 ∧ r.pkt.type = 5 ∧ r.queue.isSome) → arrive ty port true k s = .mine u →
    (answered u k = none → exec c s = .next u) ∧
    (answered u k = some r → k.status = 1 → ∀ b, b = (if r.backoff = 0 then 2000 else min (2 * r.backoff) 256000) →
      exec c s = .next (u.onFab fun f => { f with reqs := f.reqs.map fun y => if y = r then { y with backoff := b, retryAt := some (u.now + b) } else y }))) ∧
  (arrive 2 port true k s = .mine u → answered u k = some r → r.pkt.type = 1 → k.status ≠ 1 → exec (.putAck port true k) s = .next (putEnd r (itemStatus k.status) u)) ∧
  (arrive 4 port true k s = .mine u → answered u k = some r → r.pkt.type = 3 → (k.status = 0 ∨ k.status = 2 → k.len = r.pkt.len) → k.status ≠ 1 →
    ∀ v, v = acctAdd r.pkt.sctx aFabRx k.len u →
    (∀ q, r.queue = some q → r.pktId ≠ 0 → getWaits v r q = false → exec (.getData port true k) s = .next (getEnd r q k v)) ∧
    (∀ q, r.queue = some q → r.pktId = 0 → exec (.getData port true k) s = .next (lineGot r k.data k.status (reqEnd r v))) ∧
    (r.queue = none → exec (.getData port true k) s = .next (lineGot r k.data k.status (latchLoad r 1 (reqEnd r v))))) ∧
  (∀ q, arrive 6 port true k s = .mine u → answered u k = some r → r.queue = some q → r.pkt.type = 5 → k.status ≠ 1 →
    exec (.waitDone port true k) s = .next (waitPktEnd q (if k.status = 0 then rOk else if k.status = 4 then rAbandoned else rRemoteDenied) k.value (reqEnd r u))) ∧
  (itemStatus 0 = stOk ∧ itemStatus 2 = stPoison ∧ itemStatus 3 = stDenied ∧ itemStatus 4 = stAbandoned) ∧
  (∀ txn t0, reqNamed s txn = some r → r.retryAt = some t0 → t0 ≤ s.now → s.now < r.deadline → exec (.remoteRetry txn) s =
    .next (fabOut r.pkt (s.onFab fun f => { f with reqs := f.reqs.map fun y => if y = r then { y with retryAt := none } else y }))) ∧
  (∀ txn, reqNamed s txn = some r → r.deadline ≤ s.now →
    (r.pkt.type = 1 → exec (.remoteRequestTimeout txn) s = .next (putEnd r stTimeoutRemote s)) ∧
    (r.pkt.type = 3 → r.queue.isSome = true → r.pktId ≠ 0 → exec (.remoteRequestTimeout txn) s = .next (itemAnswer r stTimeoutRemote (reqEnd r s))) ∧
    (r.pkt.type = 3 → r.queue = none → exec (.remoteRequestTimeout txn) s = .next (lineGot r [] 2 (latchLoad r 2 (reqEnd r s)))) ∧
    (∀ q, r.pkt.type = 5 → r.queue = some q → exec (.remoteRequestTimeout txn) s =
      .next (waitPktEnd q rTimeout s.draw (fabOut { r.pkt with type := 7, len := 0, value := 0, counter := 0 } (reqEnd r s.drawn)))))

/-- A step performs the command at the front of the queue: exec of it, with the rest of the queue waiting. -/
def Obligations.StepRunsTheFrontCommand : Prop :=
  ∀ (c : Instr) (rest : List Instr) (s : State), s.pending = c :: rest → step s = exec c { s with pending := rest }

/-- With no command waiting, a step is one period of the 100 MHz reference (the model's choice, notes/assumptions/1.md; R42
R44 R45): with 12 V, the reference present and nothing to slew, device time rises by 10 ns; slewing, or running on the
internal oscillator, it rises by 8 to 12 ns; without 12 V nothing changes. Memory, groups and the queue stand. -/
def Obligations.IdleStepIsAClockPeriod : Prop :=
  ∀ (s : State), s.pending = [] →
  (s.pwr.aux = false → step s = .next s) ∧
  (s.pwr.aux = true → ∃ t n, step s = .next t ∧ t.tsc.time = s.tsc.time + BitVec.ofNat 64 n ∧ 8 ≤ n ∧ n ≤ 12 ∧
    (s.tsc.ref = true → s.tsc.slew = 0 → n = 10) ∧ t.mem = s.mem ∧ t.groups = s.groups ∧ t.cores = s.cores ∧ t.pending = [])

/-- Every command completes: whatever the state, exec answers a next state, and no command ends in a fault or a refusal. -/
def Obligations.EveryCommandCompletes : Prop := ∀ (c : Instr) (s : State), completes c s

/-- Every step keeps memory in its canonical form, takes exactly one command from the queue and leaves the others in order,
leaves the variant as it is, and never goes back in the model's free values. -/
def Obligations.StepKeepsMemoryAndQueue : Prop :=
  ∀ (s t : State), Memory.wf s.mem = true → step s = .next t →
    Memory.wf t.mem = true ∧ t.pending = s.pending.tail ∧ t.variant = s.variant ∧ s.freeN ≤ t.freeN

/-- Every step keeps arrays without a holder empty: whenever a group gives the array up, or loses it, both banks and both SAT
bits are zero and nothing is queued, so no accumulator content is there for the next holder (R59). -/
def Obligations.StepKeepsReleasedArraysZero : Prop :=
  ∀ (s t : State), s.arraysFree → step s = .next t → t.arraysFree

/-- After reset memory is canonical and every array without content; no command waits, no context and no group exists, and
management takes no request. -/
def Obligations.ResetHoldsTheInvariants : Prop :=
  Memory.wf State.reset.mem = true ∧ State.reset.arraysFree ∧ State.reset.pending = [] ∧ liveCtxs State.reset = [] ∧
    (∀ k, (State.reset.group k).stage = .empty) ∧ State.reset.mgmt.ready = false ∧ State.reset.tier.down = false

/-- R402 of every RW1C flag: in a write of its register, hardware's set wins and counts, whether the flag was 1 or not; else
writing 1 clears the flag and keeps the count, and writing 0 keeps both. A set outside a write counts as well. -/
def Obligations.EventFlagsSetWins : Prop :=
  (∀ x : Flag, x.raise = { on := true, count := x.count + 1 }) ∧
  ∀ (a : RegAcc) (r : Reg) (v : DWord) (hw : BitVec 8) (s : State), accMay s a = true → a.msix = none → a.size = 4 ∨ a.size = 8 → a.pa % 8 = 0 →
    regAt s a.pa = some r → (∀ f, a.fn = some f → ownReg s f r = true) →
    let f (x : Flag) (n : Nat) : Flag := if hw.getLsbD n then { on := true, count := x.count + 1 } else if v.getLsbD n then { x with on := false } else x
    (∀ k, r = .sliceEvents k → exec (.registerWrite a v hw) s = .next (s.onSlice k fun x =>
      { x with corrected := f x.corrected 0, poisoned := f x.poisoned 1, remapped := f x.remapped 2, refetched := f x.refetched 3 })) ∧
    (∀ k, r = .hbmEvents k → exec (.registerWrite a v hw) s = .next (s.onStack k fun x =>
      { x with corrected := f x.corrected 0, poisoned := f x.poisoned 1, retiredF := f x.retiredF 2 })) ∧
    (∀ d, r = .syncEvents d → exec (.registerWrite a v hw) s = .next (s.onSyncDie d fun x =>
      { x with full := f x.full 0, denied := f x.denied 1, abandon := f x.abandon 2 })) ∧
    (∀ i, r = .portEvents i → exec (.registerWrite a v hw) s = .next (s.onPort i fun x =>
      { x with spared := f x.spared 0, lost := f x.lost 1, downF := f x.downF 2, retrained := f x.retrained 3 })) ∧
    (∀ p, r = .pcieEvents p → exec (.registerWrite a v hw) s = .next (s.onPci p fun x =>
      { x with linkDown := f x.linkDown 0, failover := f x.failover 1, peerRej := f x.peerRej 2 })) ∧
    (r = .pwrEvents → exec (.registerWrite a v hw) s = .next (s.onPwr fun x =>
      { x with capLimiting := f x.capLimiting 0, capFloor := f x.capFloor 1, thermalLimit := f x.thermalLimit 2, tscUnlocked := f x.tscUnlocked 3 }))

/-- The coherence mode (R237). The physical function's request is accepted while no context exists and sets the one mode that
every die reads; while one exists it is refused and the mode stands; each power-up, and reset, leaves POISON. -/
def Obligations.CoherenceModeRequest : Prop :=
  State.reset.tier.down = false ∧
  ∀ (s : State),
  (∀ h down, pmiGo s h = true → h.fn = 0 → liveCtxs s = [] → ∃ t, exec (.coherenceMode h down) s = .next t ∧ t.tier = { s.tier with down := down }) ∧
  (∀ h down, pmiGo s h = true → liveCtxs s ≠ [] ∨ h.fn ≠ 0 → ∃ t, exec (.coherenceMode h down) s = .next t ∧ t.tier = s.tier) ∧
  (∀ mpos smb, s.pwr.aux = false → ∃ t, exec (.power12vApply mpos smb) s = .next t ∧ t.tier.down = false) ∧
  (∀ (c : Instr) t, c = .mainSwitchClose ∨ c = .mainPowerOn ∨ c = .input48vReturn → exec c s = .next t → s.pwr.sw = false → t.pwr.sw = true → t.tier.down = false) ∧
  (∀ (c : Instr) t, (∀ h d, c ≠ .coherenceMode h d) → exec c s = .next t → t.tier.down = true → s.tier.down = true)

/-- Old translations (R257). The end of a context's reset raises its generation and drops every TLB and walk-cache entry of
the context; a walk made for another generation than the context's installs nothing. -/
def Obligations.OldTranslationsAreDropped : Prop :=
  ∀ (s : State),
  (∀ c, (s.ctx c).inReset = true → ∃ t, exec (.generationRaise c) s = .next t ∧ (t.ctx c).gen = (s.ctx c).gen + 1 ∧
    (∀ k, ∀ e ∈ t.xl.micro.get k, e.ctx ≠ c ∨ e.gen ≠ (s.ctx c).gen) ∧ (∀ d, ∀ e ∈ t.xl.die.get d, e.ctx ≠ c ∨ e.gen ≠ (s.ctx c).gen) ∧
    (∀ d, ∀ e ∈ t.xl.wcache.get d, e.ctx ≠ c ∨ e.gen ≠ (s.ctx c).gen)) ∧
  (∀ stream w, (s.xl.walks.get (strmDie s.variant (strmOf stream))).find? (fun w => w.stream = stream && w.busy) = some w → (s.ctx w.ctx).gen ≠ w.gen →
    ∃ t, exec (.pageWalkComplete stream) s = .next t ∧ t.xl.micro = s.xl.micro ∧ t.xl.die = s.xl.die ∧ t.xl.wcache = s.xl.wcache)

/-- The pinned window (R204). Slice, way, set and bank of an offset in die d's window; it is backed exactly while its way is PINNED,
and with the first np ways of R195 pinned, exactly below np x 8 MiB of the slice's section. -/
def Obligations.PinnedWindowMap : Prop :=
  ∀ (s : State) (d o : Nat), d < 8 → o < 2 ^ 33 → let a := pinBase d + o
  homeSlice a = 64 * d + o / 2 ^ 27 ∧ pinWay a = 15 - o / 2 ^ 23 % 16 ∧ setOf a = o / 2 ^ 7 % 2 ^ 16 ∧ setOf a % 4 = o / 2 ^ 7 % 4 ∧
  (backed s a = true ↔ (s.slice (64 * d + o / 2 ^ 27)).wayOf (15 - o / 2 ^ 23 % 16) = .pinned) ∧
  (∀ np, np ≤ 16 → (∀ w, w < 16 → ((s.slice (64 * d + o / 2 ^ 27)).wayOf w = .pinned ↔ 16 - np ≤ w)) → (backed s a = true ↔ o % 2 ^ 27 < np * 2 ^ 23))

/-- Where an instruction faults instead (R153 R160 R178 R251). Of INT.ADD, INT.SUB, INT.AND, INT.OR and INT.XOR of a set that issues: a
reserved bit, or a register that is odd or out of the group's count, is an illegal instruction, and a page that does not translate
for execution is a page fault; no register of the group changes, nor another group, nor memory. -/
def Obligations.FaultingInstructionsChangeNothing : Prop :=
  ∀ (i : Ins) (s : State) (c : Instr), c ∈ [.intAdd i, .intSub i, .intAnd i, .intOr i, .intXor i] →
    onRunningCore i s = true → setReady i (intShape i) s = true → picked i s = true →
  (fetchable i s = true → i.rsvd = true → faults c i cIllegal 1 s) ∧
  (fetchable i s = true → i.rsvd = false → (intShape i).srcs.all (srcOk (insGroup i s)) = false ∨ vregOk (insGroup i s) i.dst i.is64 = false → faults c i cIllegal 2 s) ∧
  (∀ r, walkPends s i.core (insGroup i s).ctx i.pc = false → translate s (insGroup i s).ctx i.pc needX = .fault r → faults c i cPageFault 0 s)

/-- Requests that wait or are refused (R309 R311 to R313 R411). Before ready, and while none has been handed over, every request waits and
changes nothing; a physical-function request of another function is answered NOT_PERMITTED; one that names a context that is not there,
belongs to another function or has another generation is answered with that status, one that is not well formed with
INVALID_REQUEST; nothing else happens. -/
def Obligations.RequestsWaitOrAreRefused : Prop :=
  ∀ (c : Instr) (h : Hdr) (s : State),
  (requestOf c = some h → s.mgmt.ready = false ∨ (s.fn h.fn).reqHead = (s.fn h.fn).reqTail → exec c s = .next s) ∧
  (∀ code, pfRequest c = some (h, code) → pmiGo s h = true → h.fn ≠ 0 → exec c s = .next (pmiRefuse h code pPermit (taken h s))) ∧
  (∀ code st, ctxRequest c = some (h, code) → (∀ e q d, c = .queueDestroy h e q d → (s.queue (queueKey e q)).drain = false) → pmiGo s h = true →
    (s.ctx h.ctx).inReset = false → ctxStatus s h = some st → exec c s = .next (pmiRefuse h code st (taken h s))) ∧
  (∀ code k, pfRequest c = some (h, code) ∨ ctxRequest c = some (h, code) → (∀ e q d, c = .queueDestroy h e q d → (s.queue (queueKey e q)).drain = false) →
    h.odd = some k → pmiMay s h.fn = true → exec c s = .next (pmiRefuse h k pInvalid (taken h s)))

/-- The checksum row and column of the array (R71 to R73). Of any plane step of any run whose words stand in the latch: without an
error every row and column check passes; one cell whose output is wrong fails exactly the check of its row and the check
of its column, which locates it; an error of the checksum column or row fails exactly that check. -/
def Obligations.ArrayChecks : Prop :=
  ∀ (m : Mma) (r : KRun) (c st : Nat),
  m.failRows r (m.latchOf r.g c) {} st = [] ∧ m.failCols r (m.latchOf r.g c) {} st = [] ∧
  (∀ i k j v, i < 64 → k < 8 → j < 32 → v ≠ m.cell r (m.latchOf r.g c) {} st i k j →
    m.failRows r (m.latchOf r.g c) { cells := [(i, k, j, v)] } st = [i] ∧ m.failCols r (m.latchOf r.g c) { cells := [(i, k, j, v)] } st = [j]) ∧
  (∀ i e, i < 64 → e ≠ 0 → m.failRows r (m.latchOf r.g c) { cksCol := [(i, e)] } st = [i] ∧ m.failCols r (m.latchOf r.g c) { cksCol := [(i, e)] } st = []) ∧
  (∀ j e, j < 32 → e ≠ 0 → m.failRows r (m.latchOf r.g c) { cksRow := [(j, e)] } st = [] ∧ m.failCols r (m.latchOf r.g c) { cksRow := [(j, e)] } st = [j])

/-- The choice among ready sets (R151 R165 to R168). A set the core does not pick does not issue: nothing changes. Alone among the
ready sets of its core a set is picked. With a stop pending on another ready group and none on its own, or issued from later
than another group with a ready set, it is not; nor where another set of its group has waited for 63 issues and it has waited
for less, nor, none having waited so long, once it has had two issues of its turn in a row or is held at its join address. -/
def Obligations.IssueChoice : Prop :=
  ∀ (i : Ins) (s : State), let g := insGroup i s; let rs := rivalsOf i s; let own := (rs.filter (·.1 = i.slot)).map (·.2)
  (picked i s = false → ∀ early grp regs, issue? i early grp regs s = none) ∧
  (rs = [] → picked i s = true) ∧
  (∀ r ∈ rs, (s.group (gKey i.core r.1)).stop.isSome = true → g.stop = none → picked i s = false) ∧
  (∀ r ∈ rs, (s.group (gKey i.core r.1)).stop.isSome = g.stop.isSome → (s.group (gKey i.core r.1)).sched.last < g.sched.last → picked i s = false) ∧
  (∀ a ∈ own, 63 ≤ g.waited a → g.waited i.pc < g.waited a → picked i s = false) ∧
  ((∀ a ∈ i.pc :: own, g.waited a < 63) →
    (g.heldAt i.pc own = true → picked i s = false) ∧
    (∀ a ∈ own, g.heldAt a (i.pc :: own) = false → g.sched.turn ≠ 0 → g.sched.turn = maskOf (g.setOfPc i.pc) → 2 ≤ g.sched.turnN → picked i s = false))
end

