-- ==== Sys2Proof/Laws/State.lean ====
section
/-! SUPPORT. One lemma per update of a top-level field of the state: what the update leaves. -/
namespace Sys2Proof.Machine.State

@[simp] theorem onPending_frame (s : State) (g : _ → _) :
    (s.onPending g).pending = g s.pending ∧ (s.onPending g).freeN = s.freeN ∧ (s.onPending g).variant = s.variant ∧ (s.onPending g).pwr = s.pwr ∧ (s.onPending g).tsc = s.tsc ∧ (s.onPending g).mesh = s.mesh ∧ (s.onPending g).cores = s.cores ∧ (s.onPending g).groups = s.groups ∧ (s.onPending g).saved = s.saved ∧ (s.onPending g).mem = s.mem ∧ (s.onPending g).tier = s.tier ∧ (s.onPending g).xl = s.xl ∧ (s.onPending g).sync = s.sync ∧ (s.onPending g).qs = s.qs ∧ (s.onPending g).engines = s.engines ∧ (s.onPending g).launches = s.launches ∧ (s.onPending g).ctxs = s.ctxs ∧ (s.onPending g).fns = s.fns ∧ (s.onPending g).fab = s.fab ∧ (s.onPending g).pcie = s.pcie ∧ (s.onPending g).mgmt = s.mgmt ∧ (s.onPending g).err = s.err ∧ (s.onPending g).msix = s.msix ∧ (s.onPending g).wire = s.wire ∧ (s.onPending g).bar2Rsp = s.bar2Rsp ∧ (s.onPending g).lastRead = s.lastRead :=
  ⟨rfl, rfl, rfl, rfl, rfl, rfl, rfl, rfl, rfl, rfl, rfl, rfl, rfl, rfl, rfl, rfl, rfl, rfl, rfl, rfl, rfl, rfl, rfl, rfl, rfl, rfl⟩

@[simp] theorem onFreeN_frame (s : State) (g : _ → _) :
    (s.onFreeN g).freeN = g s.freeN ∧ (s.onFreeN g).pending = s.pending ∧ (s.onFreeN g).variant = s.variant ∧ (s.onFreeN g).pwr = s.pwr ∧ (s.onFreeN g).tsc = s.tsc ∧ (s.onFreeN g).mesh = s.mesh ∧ (s.onFreeN g).cores = s.cores ∧ (s.onFreeN g).groups = s.groups ∧ (s.onFreeN g).saved = s.saved ∧ (s.onFreeN g).mem = s.mem ∧ (s.onFreeN g).tier = s.tier ∧ (s.onFreeN g).xl = s.xl ∧ (s.onFreeN g).sync = s.sync ∧ (s.onFreeN g).qs = s.qs ∧ (s.onFreeN g).engines = s.engines ∧ (s.onFreeN g).launches = s.launches ∧ (s.onFreeN g).ctxs = s.ctxs ∧ (s.onFreeN g).fns = s.fns ∧ (s.onFreeN g).fab = s.fab ∧ (s.onFreeN g).pcie = s.pcie ∧ (s.onFreeN g).mgmt = s.mgmt ∧ (s.onFreeN g).err = s.err ∧ (s.onFreeN g).msix = s.msix ∧ (s.onFreeN g).wire = s.wire ∧ (s.onFreeN g).bar2Rsp = s.bar2Rsp ∧ (s.onFreeN g).lastRead = s.lastRead :=
  ⟨rfl, rfl, rfl, rfl, rfl, rfl, rfl, rfl, rfl, rfl, rfl, rfl, rfl, rfl, rfl, rfl, rfl, rfl, rfl, rfl, rfl, rfl, rfl, rfl, rfl, rfl⟩

@[simp] theorem onVariant_frame (s : State) (g : _ → _) :
    (s.onVariant g).variant = g s.variant ∧ (s.onVariant g).pending = s.pending ∧ (s.onVariant g).freeN = s.freeN ∧ (s.onVariant g).pwr = s.pwr ∧ (s.onVariant g).tsc = s.tsc ∧ (s.onVariant g).mesh = s.mesh ∧ (s.onVariant g).cores = s.cores ∧ (s.onVariant g).groups = s.groups ∧ (s.onVariant g).saved = s.saved ∧ (s.onVariant g).mem = s.mem ∧ (s.onVariant g).tier = s.tier ∧ (s.onVariant g).xl = s.xl ∧ (s.onVariant g).sync = s.sync ∧ (s.onVariant g).qs = s.qs ∧ (s.onVariant g).engines = s.engines ∧ (s.onVariant g).launches = s.launches ∧ (s.onVariant g).ctxs = s.ctxs ∧ (s.onVariant g).fns = s.fns ∧ (s.onVariant g).fab = s.fab ∧ (s.onVariant g).pcie = s.pcie ∧ (s.onVariant g).mgmt = s.mgmt ∧ (s.onVariant g).err = s.err ∧ (s.onVariant g).msix = s.msix ∧ (s.onVariant g).wire = s.wire ∧ (s.onVariant g).bar2Rsp = s.bar2Rsp ∧ (s.onVariant g).lastRead = s.lastRead :=
  ⟨rfl, rfl, rfl, rfl, rfl, rfl, rfl, rfl, rfl, rfl, rfl, rfl, rfl, rfl, rfl, rfl, rfl, rfl, rfl, rfl, rfl, rfl, rfl, rfl, rfl, rfl⟩

@[simp] theorem onPwr_frame (s : State) (g : _ → _) :
    (s.onPwr g).pwr = g s.pwr ∧ (s.onPwr g).pending = s.pending ∧ (s.onPwr g).freeN = s.freeN ∧ (s.onPwr g).variant = s.variant ∧ (s.onPwr g).tsc = s.tsc ∧ (s.onPwr g).mesh = s.mesh ∧ (s.onPwr g).cores = s.cores ∧ (s.onPwr g).groups = s.groups ∧ (s.onPwr g).saved = s.saved ∧ (s.onPwr g).mem = s.mem ∧ (s.onPwr g).tier = s.tier ∧ (s.onPwr g).xl = s.xl ∧ (s.onPwr g).sync = s.sync ∧ (s.onPwr g).qs = s.qs ∧ (s.onPwr g).engines = s.engines ∧ (s.onPwr g).launches = s.launches ∧ (s.onPwr g).ctxs = s.ctxs ∧ (s.onPwr g).fns = s.fns ∧ (s.onPwr g).fab = s.fab ∧ (s.onPwr g).pcie = s.pcie ∧ (s.onPwr g).mgmt = s.mgmt ∧ (s.onPwr g).err = s.err ∧ (s.onPwr g).msix = s.msix ∧ (s.onPwr g).wire = s.wire ∧ (s.onPwr g).bar2Rsp = s.bar2Rsp ∧ (s.onPwr g).lastRead = s.lastRead :=
  ⟨rfl, rfl, rfl, rfl, rfl, rfl, rfl, rfl, rfl, rfl, rfl, rfl, rfl, rfl, rfl, rfl, rfl, rfl, rfl, rfl, rfl, rfl, rfl, rfl, rfl, rfl⟩

@[simp] theorem onTsc_frame (s : State) (g : _ → _) :
    (s.onTsc g).tsc = g s.tsc ∧ (s.onTsc g).pending = s.pending ∧ (s.onTsc g).freeN = s.freeN ∧ (s.onTsc g).variant = s.variant ∧ (s.onTsc g).pwr = s.pwr ∧ (s.onTsc g).mesh = s.mesh ∧ (s.onTsc g).cores = s.cores ∧ (s.onTsc g).groups = s.groups ∧ (s.onTsc g).saved = s.saved ∧ (s.onTsc g).mem = s.mem ∧ (s.onTsc g).tier = s.tier ∧ (s.onTsc g).xl = s.xl ∧ (s.onTsc g).sync = s.sync ∧ (s.onTsc g).qs = s.qs ∧ (s.onTsc g).engines = s.engines ∧ (s.onTsc g).launches = s.launches ∧ (s.onTsc g).ctxs = s.ctxs ∧ (s.onTsc g).fns = s.fns ∧ (s.onTsc g).fab = s.fab ∧ (s.onTsc g).pcie = s.pcie ∧ (s.onTsc g).mgmt = s.mgmt ∧ (s.onTsc g).err = s.err ∧ (s.onTsc g).msix = s.msix ∧ (s.onTsc g).wire = s.wire ∧ (s.onTsc g).bar2Rsp = s.bar2Rsp ∧ (s.onTsc g).lastRead = s.lastRead :=
  ⟨rfl, rfl, rfl, rfl, rfl, rfl, rfl, rfl, rfl, rfl, rfl, rfl, rfl, rfl, rfl, rfl, rfl, rfl, rfl, rfl, rfl, rfl, rfl, rfl, rfl, rfl⟩

@[simp] theorem onMesh_frame (s : State) (g : _ → _) :
    (s.onMesh g).mesh = g s.mesh ∧ (s.onMesh g).pending = s.pending ∧ (s.onMesh g).freeN = s.freeN ∧ (s.onMesh g).variant = s.variant ∧ (s.onMesh g).pwr = s.pwr ∧ (s.onMesh g).tsc = s.tsc ∧ (s.onMesh g).cores = s.cores ∧ (s.onMesh g).groups = s.groups ∧ (s.onMesh g).saved = s.saved ∧ (s.onMesh g).mem = s.mem ∧ (s.onMesh g).tier = s.tier ∧ (s.onMesh g).xl = s.xl ∧ (s.onMesh g).sync = s.sync ∧ (s.onMesh g).qs = s.qs ∧ (s.onMesh g).engines = s.engines ∧ (s.onMesh g).launches = s.launches ∧ (s.onMesh g).ctxs = s.ctxs ∧ (s.onMesh g).fns = s.fns ∧ (s.onMesh g).fab = s.fab ∧ (s.onMesh g).pcie = s.pcie ∧ (s.onMesh g).mgmt = s.mgmt ∧ (s.onMesh g).err = s.err ∧ (s.onMesh g).msix = s.msix ∧ (s.onMesh g).wire = s.wire ∧ (s.onMesh g).bar2Rsp = s.bar2Rsp ∧ (s.onMesh g).lastRead = s.lastRead :=
  ⟨rfl, rfl, rfl, rfl, rfl, rfl, rfl, rfl, rfl, rfl, rfl, rfl, rfl, rfl, rfl, rfl, rfl, rfl, rfl, rfl, rfl, rfl, rfl, rfl, rfl, rfl⟩

@[simp] theorem onCores_frame (s : State) (g : _ → _) :
    (s.onCores g).cores = g s.cores ∧ (s.onCores g).pending = s.pending ∧ (s.onCores g).freeN = s.freeN ∧ (s.onCores g).variant = s.variant ∧ (s.onCores g).pwr = s.pwr ∧ (s.onCores g).tsc = s.tsc ∧ (s.onCores g).mesh = s.mesh ∧ (s.onCores g).groups = s.groups ∧ (s.onCores g).saved = s.saved ∧ (s.onCores g).mem = s.mem ∧ (s.onCores g).tier = s.tier ∧ (s.onCores g).xl = s.xl ∧ (s.onCores g).sync = s.sync ∧ (s.onCores g).qs = s.qs ∧ (s.onCores g).engines = s.engines ∧ (s.onCores g).launches = s.launches ∧ (s.onCores g).ctxs = s.ctxs ∧ (s.onCores g).fns = s.fns ∧ (s.onCores g).fab = s.fab ∧ (s.onCores g).pcie = s.pcie ∧ (s.onCores g).mgmt = s.mgmt ∧ (s.onCores g).err = s.err ∧ (s.onCores g).msix = s.msix ∧ (s.onCores g).wire = s.wire ∧ (s.onCores g).bar2Rsp = s.bar2Rsp ∧ (s.onCores g).lastRead = s.lastRead :=
  ⟨rfl, rfl, rfl, rfl, rfl, rfl, rfl, rfl, rfl, rfl, rfl, rfl, rfl, rfl, rfl, rfl, rfl, rfl, rfl, rfl, rfl, rfl, rfl, rfl, rfl, rfl⟩

@[simp] theorem onGroups_frame (s : State) (g : _ → _) :
    (s.onGroups g).groups = g s.groups ∧ (s.onGroups g).pending = s.pending ∧ (s.onGroups g).freeN = s.freeN ∧ (s.onGroups g).variant = s.variant ∧ (s.onGroups g).pwr = s.pwr ∧ (s.onGroups g).tsc = s.tsc ∧ (s.onGroups g).mesh = s.mesh ∧ (s.onGroups g).cores = s.cores ∧ (s.onGroups g).saved = s.saved ∧ (s.onGroups g).mem = s.mem ∧ (s.onGroups g).tier = s.tier ∧ (s.onGroups g).xl = s.xl ∧ (s.onGroups g).sync = s.sync ∧ (s.onGroups g).qs = s.qs ∧ (s.onGroups g).engines = s.engines ∧ (s.onGroups g).launches = s.launches ∧ (s.onGroups g).ctxs = s.ctxs ∧ (s.onGroups g).fns = s.fns ∧ (s.onGroups g).fab = s.fab ∧ (s.onGroups g).pcie = s.pcie ∧ (s.onGroups g).mgmt = s.mgmt ∧ (s.onGroups g).err = s.err ∧ (s.onGroups g).msix = s.msix ∧ (s.onGroups g).wire = s.wire ∧ (s.onGroups g).bar2Rsp = s.bar2Rsp ∧ (s.onGroups g).lastRead = s.lastRead :=
  ⟨rfl, rfl, rfl, rfl, rfl, rfl, rfl, rfl, rfl, rfl, rfl, rfl, rfl, rfl, rfl, rfl, rfl, rfl, rfl, rfl, rfl, rfl, rfl, rfl, rfl, rfl⟩

@[simp] theorem onSaved_frame (s : State) (g : _ → _) :
    (s.onSaved g).saved = g s.saved ∧ (s.onSaved g).pending = s.pending ∧ (s.onSaved g).freeN = s.freeN ∧ (s.onSaved g).variant = s.variant ∧ (s.onSaved g).pwr = s.pwr ∧ (s.onSaved g).tsc = s.tsc ∧ (s.onSaved g).mesh = s.mesh ∧ (s.onSaved g).cores = s.cores ∧ (s.onSaved g).groups = s.groups ∧ (s.onSaved g).mem = s.mem ∧ (s.onSaved g).tier = s.tier ∧ (s.onSaved g).xl = s.xl ∧ (s.onSaved g).sync = s.sync ∧ (s.onSaved g).qs = s.qs ∧ (s.onSaved g).engines = s.engines ∧ (s.onSaved g).launches = s.launches ∧ (s.onSaved g).ctxs = s.ctxs ∧ (s.onSaved g).fns = s.fns ∧ (s.onSaved g).fab = s.fab ∧ (s.onSaved g).pcie = s.pcie ∧ (s.onSaved g).mgmt = s.mgmt ∧ (s.onSaved g).err = s.err ∧ (s.onSaved g).msix = s.msix ∧ (s.onSaved g).wire = s.wire ∧ (s.onSaved g).bar2Rsp = s.bar2Rsp ∧ (s.onSaved g).lastRead = s.lastRead :=
  ⟨rfl, rfl, rfl, rfl, rfl, rfl, rfl, rfl, rfl, rfl, rfl, rfl, rfl, rfl, rfl, rfl, rfl, rfl, rfl, rfl, rfl, rfl, rfl, rfl, rfl, rfl⟩

@[simp] theorem onMem_frame (s : State) (g : _ → _) :
    (s.onMem g).mem = g s.mem ∧ (s.onMem g).pending = s.pending ∧ (s.onMem g).freeN = s.freeN ∧ (s.onMem g).variant = s.variant ∧ (s.onMem g).pwr = s.pwr ∧ (s.onMem g).tsc = s.tsc ∧ (s.onMem g).mesh = s.mesh ∧ (s.onMem g).cores = s.cores ∧ (s.onMem g).groups = s.groups ∧ (s.onMem g).saved = s.saved ∧ (s.onMem g).tier = s.tier ∧ (s.onMem g).xl = s.xl ∧ (s.onMem g).sync = s.sync ∧ (s.onMem g).qs = s.qs ∧ (s.onMem g).engines = s.engines ∧ (s.onMem g).launches = s.launches ∧ (s.onMem g).ctxs = s.ctxs ∧ (s.onMem g).fns = s.fns ∧ (s.onMem g).fab = s.fab ∧ (s.onMem g).pcie = s.pcie ∧ (s.onMem g).mgmt = s.mgmt ∧ (s.onMem g).err = s.err ∧ (s.onMem g).msix = s.msix ∧ (s.onMem g).wire = s.wire ∧ (s.onMem g).bar2Rsp = s.bar2Rsp ∧ (s.onMem g).lastRead = s.lastRead :=
  ⟨rfl, rfl, rfl, rfl, rfl, rfl, rfl, rfl, rfl, rfl, rfl, rfl, rfl, rfl, rfl, rfl, rfl, rfl, rfl, rfl, rfl, rfl, rfl, rfl, rfl, rfl⟩

@[simp] theorem onTier_frame (s : State) (g : _ → _) :
    (s.onTier g).tier = g s.tier ∧ (s.onTier g).pending = s.pending ∧ (s.onTier g).freeN = s.freeN ∧ (s.onTier g).variant = s.variant ∧ (s.onTier g).pwr = s.pwr ∧ (s.onTier g).tsc = s.tsc ∧ (s.onTier g).mesh = s.mesh ∧ (s.onTier g).cores = s.cores ∧ (s.onTier g).groups = s.groups ∧ (s.onTier g).saved = s.saved ∧ (s.onTier g).mem = s.mem ∧ (s.onTier g).xl = s.xl ∧ (s.onTier g).sync = s.sync ∧ (s.onTier g).qs = s.qs ∧ (s.onTier g).engines = s.engines ∧ (s.onTier g).launches = s.launches ∧ (s.onTier g).ctxs = s.ctxs ∧ (s.onTier g).fns = s.fns ∧ (s.onTier g).fab = s.fab ∧ (s.onTier g).pcie = s.pcie ∧ (s.onTier g).mgmt = s.mgmt ∧ (s.onTier g).err = s.err ∧ (s.onTier g).msix = s.msix ∧ (s.onTier g).wire = s.wire ∧ (s.onTier g).bar2Rsp = s.bar2Rsp ∧ (s.onTier g).lastRead = s.lastRead :=
  ⟨rfl, rfl, rfl, rfl, rfl, rfl, rfl, rfl, rfl, rfl, rfl, rfl, rfl, rfl, rfl, rfl, rfl, rfl, rfl, rfl, rfl, rfl, rfl, rfl, rfl, rfl⟩

@[simp] theorem onXl_frame (s : State) (g : _ → _) :
    (s.onXl g).xl = g s.xl ∧ (s.onXl g).pending = s.pending ∧ (s.onXl g).freeN = s.freeN ∧ (s.onXl g).variant = s.variant ∧ (s.onXl g).pwr = s.pwr ∧ (s.onXl g).tsc = s.tsc ∧ (s.onXl g).mesh = s.mesh ∧ (s.onXl g).cores = s.cores ∧ (s.onXl g).groups = s.groups ∧ (s.onXl g).saved = s.saved ∧ (s.onXl g).mem = s.mem ∧ (s.onXl g).tier = s.tier ∧ (s.onXl g).sync = s.sync ∧ (s.onXl g).qs = s.qs ∧ (s.onXl g).engines = s.engines ∧ (s.onXl g).launches = s.launches ∧ (s.onXl g).ctxs = s.ctxs ∧ (s.onXl g).fns = s.fns ∧ (s.onXl g).fab = s.fab ∧ (s.onXl g).pcie = s.pcie ∧ (s.onXl g).mgmt = s.mgmt ∧ (s.onXl g).err = s.err ∧ (s.onXl g).msix = s.msix ∧ (s.onXl g).wire = s.wire ∧ (s.onXl g).bar2Rsp = s.bar2Rsp ∧ (s.onXl g).lastRead = s.lastRead :=
  ⟨rfl, rfl, rfl, rfl, rfl, rfl, rfl, rfl, rfl, rfl, rfl, rfl, rfl, rfl, rfl, rfl, rfl, rfl, rfl, rfl, rfl, rfl, rfl, rfl, rfl, rfl⟩

@[simp] theorem onSync_frame (s : State) (g : _ → _) :
    (s.onSync g).sync = g s.sync ∧ (s.onSync g).pending = s.pending ∧ (s.onSync g).freeN = s.freeN ∧ (s.onSync g).variant = s.variant ∧ (s.onSync g).pwr = s.pwr ∧ (s.onSync g).tsc = s.tsc ∧ (s.onSync g).mesh = s.mesh ∧ (s.onSync g).cores = s.cores ∧ (s.onSync g).groups = s.groups ∧ (s.onSync g).saved = s.saved ∧ (s.onSync g).mem = s.mem ∧ (s.onSync g).tier = s.tier ∧ (s.onSync g).xl = s.xl ∧ (s.onSync g).qs = s.qs ∧ (s.onSync g).engines = s.engines ∧ (s.onSync g).launches = s.launches ∧ (s.onSync g).ctxs = s.ctxs ∧ (s.onSync g).fns = s.fns ∧ (s.onSync g).fab = s.fab ∧ (s.onSync g).pcie = s.pcie ∧ (s.onSync g).mgmt = s.mgmt ∧ (s.onSync g).err = s.err ∧ (s.onSync g).msix = s.msix ∧ (s.onSync g).wire = s.wire ∧ (s.onSync g).bar2Rsp = s.bar2Rsp ∧ (s.onSync g).lastRead = s.lastRead :=
  ⟨rfl, rfl, rfl, rfl, rfl, rfl, rfl, rfl, rfl, rfl, rfl, rfl, rfl, rfl, rfl, rfl, rfl, rfl, rfl, rfl, rfl, rfl, rfl, rfl, rfl, rfl⟩

@[simp] theorem onQs_frame (s : State) (g : _ → _) :
    (s.onQs g).qs = g s.qs ∧ (s.onQs g).pending = s.pending ∧ (s.onQs g).freeN = s.freeN ∧ (s.onQs g).variant = s.variant ∧ (s.onQs g).pwr = s.pwr ∧ (s.onQs g).tsc = s.tsc ∧ (s.onQs g).mesh = s.mesh ∧ (s.onQs g).cores = s.cores ∧ (s.onQs g).groups = s.groups ∧ (s.onQs g).saved = s.saved ∧ (s.onQs g).mem = s.mem ∧ (s.onQs g).tier = s.tier ∧ (s.onQs g).xl = s.xl ∧ (s.onQs g).sync = s.sync ∧ (s.onQs g).engines = s.engines ∧ (s.onQs g).launches = s.launches ∧ (s.onQs g).ctxs = s.ctxs ∧ (s.onQs g).fns = s.fns ∧ (s.onQs g).fab = s.fab ∧ (s.onQs g).pcie = s.pcie ∧ (s.onQs g).mgmt = s.mgmt ∧ (s.onQs g).err = s.err ∧ (s.onQs g).msix = s.msix ∧ (s.onQs g).wire = s.wire ∧ (s.onQs g).bar2Rsp = s.bar2Rsp ∧ (s.onQs g).lastRead = s.lastRead :=
  ⟨rfl, rfl, rfl, rfl, rfl, rfl, rfl, rfl, rfl, rfl, rfl, rfl, rfl, rfl, rfl, rfl, rfl, rfl, rfl, rfl, rfl, rfl, rfl, rfl, rfl, rfl⟩

@[simp] theorem onEngines_frame (s : State) (g : _ → _) :
    (s.onEngines g).engines = g s.engines ∧ (s.onEngines g).pending = s.pending ∧ (s.onEngines g).freeN = s.freeN ∧ (s.onEngines g).variant = s.variant ∧ (s.onEngines g).pwr = s.pwr ∧ (s.onEngines g).tsc = s.tsc ∧ (s.onEngines g).mesh = s.mesh ∧ (s.onEngines g).cores = s.cores ∧ (s.onEngines g).groups = s.groups ∧ (s.onEngines g).saved = s.saved ∧ (s.onEngines g).mem = s.mem ∧ (s.onEngines g).tier = s.tier ∧ (s.onEngines g).xl = s.xl ∧ (s.onEngines g).sync = s.sync ∧ (s.onEngines g).qs = s.qs ∧ (s.onEngines g).launches = s.launches ∧ (s.onEngines g).ctxs = s.ctxs ∧ (s.onEngines g).fns = s.fns ∧ (s.onEngines g).fab = s.fab ∧ (s.onEngines g).pcie = s.pcie ∧ (s.onEngines g).mgmt = s.mgmt ∧ (s.onEngines g).err = s.err ∧ (s.onEngines g).msix = s.msix ∧ (s.onEngines g).wire = s.wire ∧ (s.onEngines g).bar2Rsp = s.bar2Rsp ∧ (s.onEngines g).lastRead = s.lastRead :=
  ⟨rfl, rfl, rfl, rfl, rfl, rfl, rfl, rfl, rfl, rfl, rfl, rfl, rfl, rfl, rfl, rfl, rfl, rfl, rfl, rfl, rfl, rfl, rfl, rfl, rfl, rfl⟩

@[simp] theorem onLaunches_frame (s : State) (g : _ → _) :
    (s.onLaunches g).launches = g s.launches ∧ (s.onLaunches g).pending = s.pending ∧ (s.onLaunches g).freeN = s.freeN ∧ (s.onLaunches g).variant = s.variant ∧ (s.onLaunches g).pwr = s.pwr ∧ (s.onLaunches g).tsc = s.tsc ∧ (s.onLaunches g).mesh = s.mesh ∧ (s.onLaunches g).cores = s.cores ∧ (s.onLaunches g).groups = s.groups ∧ (s.onLaunches g).saved = s.saved ∧ (s.onLaunches g).mem = s.mem ∧ (s.onLaunches g).tier = s.tier ∧ (s.onLaunches g).xl = s.xl ∧ (s.onLaunches g).sync = s.sync ∧ (s.onLaunches g).qs = s.qs ∧ (s.onLaunches g).engines = s.engines ∧ (s.onLaunches g).ctxs = s.ctxs ∧ (s.onLaunches g).fns = s.fns ∧ (s.onLaunches g).fab = s.fab ∧ (s.onLaunches g).pcie = s.pcie ∧ (s.onLaunches g).mgmt = s.mgmt ∧ (s.onLaunches g).err = s.err ∧ (s.onLaunches g).msix = s.msix ∧ (s.onLaunches g).wire = s.wire ∧ (s.onLaunches g).bar2Rsp = s.bar2Rsp ∧ (s.onLaunches g).lastRead = s.lastRead :=
  ⟨rfl, rfl, rfl, rfl, rfl, rfl, rfl, rfl, rfl, rfl, rfl, rfl, rfl, rfl, rfl, rfl, rfl, rfl, rfl, rfl, rfl, rfl, rfl, rfl, rfl, rfl⟩

@[simp] theorem onCtxs_frame (s : State) (g : _ → _) :
    (s.onCtxs g).ctxs = g s.ctxs ∧ (s.onCtxs g).pending = s.pending ∧ (s.onCtxs g).freeN = s.freeN ∧ (s.onCtxs g).variant = s.variant ∧ (s.onCtxs g).pwr = s.pwr ∧ (s.onCtxs g).tsc = s.tsc ∧ (s.onCtxs g).mesh = s.mesh ∧ (s.onCtxs g).cores = s.cores ∧ (s.onCtxs g).groups = s.groups ∧ (s.onCtxs g).saved = s.saved ∧ (s.onCtxs g).mem = s.mem ∧ (s.onCtxs g).tier = s.tier ∧ (s.onCtxs g).xl = s.xl ∧ (s.onCtxs g).sync = s.sync ∧ (s.onCtxs g).qs = s.qs ∧ (s.onCtxs g).engines = s.engines ∧ (s.onCtxs g).launches = s.launches ∧ (s.onCtxs g).fns = s.fns ∧ (s.onCtxs g).fab = s.fab ∧ (s.onCtxs g).pcie = s.pcie ∧ (s.onCtxs g).mgmt = s.mgmt ∧ (s.onCtxs g).err = s.err ∧ (s.onCtxs g).msix = s.msix ∧ (s.onCtxs g).wire = s.wire ∧ (s.onCtxs g).bar2Rsp = s.bar2Rsp ∧ (s.onCtxs g).lastRead = s.lastRead :=
  ⟨rfl, rfl, rfl, rfl, rfl, rfl, rfl, rfl, rfl, rfl, rfl, rfl, rfl, rfl, rfl, rfl, rfl, rfl, rfl, rfl, rfl, rfl, rfl, rfl, rfl, rfl⟩

@[simp] theorem onFns_frame (s : State) (g : _ → _) :
    (s.onFns g).fns = g s.fns ∧ (s.onFns g).pending = s.pending ∧ (s.onFns g).freeN = s.freeN ∧ (s.onFns g).variant = s.variant ∧ (s.onFns g).pwr = s.pwr ∧ (s.onFns g).tsc = s.tsc ∧ (s.onFns g).mesh = s.mesh ∧ (s.onFns g).cores = s.cores ∧ (s.onFns g).groups = s.groups ∧ (s.onFns g).saved = s.saved ∧ (s.onFns g).mem = s.mem ∧ (s.onFns g).tier = s.tier ∧ (s.onFns g).xl = s.xl ∧ (s.onFns g).sync = s.sync ∧ (s.onFns g).qs = s.qs ∧ (s.onFns g).engines = s.engines ∧ (s.onFns g).launches = s.launches ∧ (s.onFns g).ctxs = s.ctxs ∧ (s.onFns g).fab = s.fab ∧ (s.onFns g).pcie = s.pcie ∧ (s.onFns g).mgmt = s.mgmt ∧ (s.onFns g).err = s.err ∧ (s.onFns g).msix = s.msix ∧ (s.onFns g).wire = s.wire ∧ (s.onFns g).bar2Rsp = s.bar2Rsp ∧ (s.onFns g).lastRead = s.lastRead :=
  ⟨rfl, rfl, rfl, rfl, rfl, rfl, rfl, rfl, rfl, rfl, rfl, rfl, rfl, rfl, rfl, rfl, rfl, rfl, rfl, rfl, rfl, rfl, rfl, rfl, rfl, rfl⟩

@[simp] theorem onFab_frame (s : State) (g : _ → _) :
    (s.onFab g).fab = g s.fab ∧ (s.onFab g).pending = s.pending ∧ (s.onFab g).freeN = s.freeN ∧ (s.onFab g).variant = s.variant ∧ (s.onFab g).pwr = s.pwr ∧ (s.onFab g).tsc = s.tsc ∧ (s.onFab g).mesh = s.mesh ∧ (s.onFab g).cores = s.cores ∧ (s.onFab g).groups = s.groups ∧ (s.onFab g).saved = s.saved ∧ (s.onFab g).mem = s.mem ∧ (s.onFab g).tier = s.tier ∧ (s.onFab g).xl = s.xl ∧ (s.onFab g).sync = s.sync ∧ (s.onFab g).qs = s.qs ∧ (s.onFab g).engines = s.engines ∧ (s.onFab g).launches = s.launches ∧ (s.onFab g).ctxs = s.ctxs ∧ (s.onFab g).fns = s.fns ∧ (s.onFab g).pcie = s.pcie ∧ (s.onFab g).mgmt = s.mgmt ∧ (s.onFab g).err = s.err ∧ (s.onFab g).msix = s.msix ∧ (s.onFab g).wire = s.wire ∧ (s.onFab g).bar2Rsp = s.bar2Rsp ∧ (s.onFab g).lastRead = s.lastRead :=
  ⟨rfl, rfl, rfl, rfl, rfl, rfl, rfl, rfl, rfl, rfl, rfl, rfl, rfl, rfl, rfl, rfl, rfl, rfl, rfl, rfl, rfl, rfl, rfl, rfl, rfl, rfl⟩

@[simp] theorem onPcie_frame (s : State) (g : _ → _) :
    (s.onPcie g).pcie = g s.pcie ∧ (s.onPcie g).pending = s.pending ∧ (s.onPcie g).freeN = s.freeN ∧ (s.onPcie g).variant = s.variant ∧ (s.onPcie g).pwr = s.pwr ∧ (s.onPcie g).tsc = s.tsc ∧ (s.onPcie g).mesh = s.mesh ∧ (s.onPcie g).cores = s.cores ∧ (s.onPcie g).groups = s.groups ∧ (s.onPcie g).saved = s.saved ∧ (s.onPcie g).mem = s.mem ∧ (s.onPcie g).tier = s.tier ∧ (s.onPcie g).xl = s.xl ∧ (s.onPcie g).sync = s.sync ∧ (s.onPcie g).qs = s.qs ∧ (s.onPcie g).engines = s.engines ∧ (s.onPcie g).launches = s.launches ∧ (s.onPcie g).ctxs = s.ctxs ∧ (s.onPcie g).fns = s.fns ∧ (s.onPcie g).fab = s.fab ∧ (s.onPcie g).mgmt = s.mgmt ∧ (s.onPcie g).err = s.err ∧ (s.onPcie g).msix = s.msix ∧ (s.onPcie g).wire = s.wire ∧ (s.onPcie g).bar2Rsp = s.bar2Rsp ∧ (s.onPcie g).lastRead = s.lastRead :=
  ⟨rfl, rfl, rfl, rfl, rfl, rfl, rfl, rfl, rfl, rfl, rfl, rfl, rfl, rfl, rfl, rfl, rfl, rfl, rfl, rfl, rfl, rfl, rfl, rfl, rfl, rfl⟩

@[simp] theorem onMgmt_frame (s : State) (g : _ → _) :
    (s.onMgmt g).mgmt = g s.mgmt ∧ (s.onMgmt g).pending = s.pending ∧ (s.onMgmt g).freeN = s.freeN ∧ (s.onMgmt g).variant = s.variant ∧ (s.onMgmt g).pwr = s.pwr ∧ (s.onMgmt g).tsc = s.tsc ∧ (s.onMgmt g).mesh = s.mesh ∧ (s.onMgmt g).cores = s.cores ∧ (s.onMgmt g).groups = s.groups ∧ (s.onMgmt g).saved = s.saved ∧ (s.onMgmt g).mem = s.mem ∧ (s.onMgmt g).tier = s.tier ∧ (s.onMgmt g).xl = s.xl ∧ (s.onMgmt g).sync = s.sync ∧ (s.onMgmt g).qs = s.qs ∧ (s.onMgmt g).engines = s.engines ∧ (s.onMgmt g).launches = s.launches ∧ (s.onMgmt g).ctxs = s.ctxs ∧ (s.onMgmt g).fns = s.fns ∧ (s.onMgmt g).fab = s.fab ∧ (s.onMgmt g).pcie = s.pcie ∧ (s.onMgmt g).err = s.err ∧ (s.onMgmt g).msix = s.msix ∧ (s.onMgmt g).wire = s.wire ∧ (s.onMgmt g).bar2Rsp = s.bar2Rsp ∧ (s.onMgmt g).lastRead = s.lastRead :=
  ⟨rfl, rfl, rfl, rfl, rfl, rfl, rfl, rfl, rfl, rfl, rfl, rfl, rfl, rfl, rfl, rfl, rfl, rfl, rfl, rfl, rfl, rfl, rfl, rfl, rfl, rfl⟩

@[simp] theorem onErr_frame (s : State) (g : _ → _) :
    (s.onErr g).err = g s.err ∧ (s.onErr g).pending = s.pending ∧ (s.onErr g).freeN = s.freeN ∧ (s.onErr g).variant = s.variant ∧ (s.onErr g).pwr = s.pwr ∧ (s.onErr g).tsc = s.tsc ∧ (s.onErr g).mesh = s.mesh ∧ (s.onErr g).cores = s.cores ∧ (s.onErr g).groups = s.groups ∧ (s.onErr g).saved = s.saved ∧ (s.onErr g).mem = s.mem ∧ (s.onErr g).tier = s.tier ∧ (s.onErr g).xl = s.xl ∧ (s.onErr g).sync = s.sync ∧ (s.onErr g).qs = s.qs ∧ (s.onErr g).engines = s.engines ∧ (s.onErr g).launches = s.launches ∧ (s.onErr g).ctxs = s.ctxs ∧ (s.onErr g).fns = s.fns ∧ (s.onErr g).fab = s.fab ∧ (s.onErr g).pcie = s.pcie ∧ (s.onErr g).mgmt = s.mgmt ∧ (s.onErr g).msix = s.msix ∧ (s.onErr g).wire = s.wire ∧ (s.onErr g).bar2Rsp = s.bar2Rsp ∧ (s.onErr g).lastRead = s.lastRead :=
  ⟨rfl, rfl, rfl, rfl, rfl, rfl, rfl, rfl, rfl, rfl, rfl, rfl, rfl, rfl, rfl, rfl, rfl, rfl, rfl, rfl, rfl, rfl, rfl, rfl, rfl, rfl⟩

@[simp] theorem onMsix_frame (s : State) (g : _ → _) :
    (s.onMsix g).msix = g s.msix ∧ (s.onMsix g).pending = s.pending ∧ (s.onMsix g).freeN = s.freeN ∧ (s.onMsix g).variant = s.variant ∧ (s.onMsix g).pwr = s.pwr ∧ (s.onMsix g).tsc = s.tsc ∧ (s.onMsix g).mesh = s.mesh ∧ (s.onMsix g).cores = s.cores ∧ (s.onMsix g).groups = s.groups ∧ (s.onMsix g).saved = s.saved ∧ (s.onMsix g).mem = s.mem ∧ (s.onMsix g).tier = s.tier ∧ (s.onMsix g).xl = s.xl ∧ (s.onMsix g).sync = s.sync ∧ (s.onMsix g).qs = s.qs ∧ (s.onMsix g).engines = s.engines ∧ (s.onMsix g).launches = s.launches ∧ (s.onMsix g).ctxs = s.ctxs ∧ (s.onMsix g).fns = s.fns ∧ (s.onMsix g).fab = s.fab ∧ (s.onMsix g).pcie = s.pcie ∧ (s.onMsix g).mgmt = s.mgmt ∧ (s.onMsix g).err = s.err ∧ (s.onMsix g).wire = s.wire ∧ (s.onMsix g).bar2Rsp = s.bar2Rsp ∧ (s.onMsix g).lastRead = s.lastRead :=
  ⟨rfl, rfl, rfl, rfl, rfl, rfl, rfl, rfl, rfl, rfl, rfl, rfl, rfl, rfl, rfl, rfl, rfl, rfl, rfl, rfl, rfl, rfl, rfl, rfl, rfl, rfl⟩

@[simp] theorem onWire_frame (s : State) (g : _ → _) :
    (s.onWire g).wire = g s.wire ∧ (s.onWire g).pending = s.pending ∧ (s.onWire g).freeN = s.freeN ∧ (s.onWire g).variant = s.variant ∧ (s.onWire g).pwr = s.pwr ∧ (s.onWire g).tsc = s.tsc ∧ (s.onWire g).mesh = s.mesh ∧ (s.onWire g).cores = s.cores ∧ (s.onWire g).groups = s.groups ∧ (s.onWire g).saved = s.saved ∧ (s.onWire g).mem = s.mem ∧ (s.onWire g).tier = s.tier ∧ (s.onWire g).xl = s.xl ∧ (s.onWire g).sync = s.sync ∧ (s.onWire g).qs = s.qs ∧ (s.onWire g).engines = s.engines ∧ (s.onWire g).launches = s.launches ∧ (s.onWire g).ctxs = s.ctxs ∧ (s.onWire g).fns = s.fns ∧ (s.onWire g).fab = s.fab ∧ (s.onWire g).pcie = s.pcie ∧ (s.onWire g).mgmt = s.mgmt ∧ (s.onWire g).err = s.err ∧ (s.onWire g).msix = s.msix ∧ (s.onWire g).bar2Rsp = s.bar2Rsp ∧ (s.onWire g).lastRead = s.lastRead :=
  ⟨rfl, rfl, rfl, rfl, rfl, rfl, rfl, rfl, rfl, rfl, rfl, rfl, rfl, rfl, rfl, rfl, rfl, rfl, rfl, rfl, rfl, rfl, rfl, rfl, rfl, rfl⟩

@[simp] theorem onBar2Rsp_frame (s : State) (g : _ → _) :
    (s.onBar2Rsp g).bar2Rsp = g s.bar2Rsp ∧ (s.onBar2Rsp g).pending = s.pending ∧ (s.onBar2Rsp g).freeN = s.freeN ∧ (s.onBar2Rsp g).variant = s.variant ∧ (s.onBar2Rsp g).pwr = s.pwr ∧ (s.onBar2Rsp g).tsc = s.tsc ∧ (s.onBar2Rsp g).mesh = s.mesh ∧ (s.onBar2Rsp g).cores = s.cores ∧ (s.onBar2Rsp g).groups = s.groups ∧ (s.onBar2Rsp g).saved = s.saved ∧ (s.onBar2Rsp g).mem = s.mem ∧ (s.onBar2Rsp g).tier = s.tier ∧ (s.onBar2Rsp g).xl = s.xl ∧ (s.onBar2Rsp g).sync = s.sync ∧ (s.onBar2Rsp g).qs = s.qs ∧ (s.onBar2Rsp g).engines = s.engines ∧ (s.onBar2Rsp g).launches = s.launches ∧ (s.onBar2Rsp g).ctxs = s.ctxs ∧ (s.onBar2Rsp g).fns = s.fns ∧ (s.onBar2Rsp g).fab = s.fab ∧ (s.onBar2Rsp g).pcie = s.pcie ∧ (s.onBar2Rsp g).mgmt = s.mgmt ∧ (s.onBar2Rsp g).err = s.err ∧ (s.onBar2Rsp g).msix = s.msix ∧ (s.onBar2Rsp g).wire = s.wire ∧ (s.onBar2Rsp g).lastRead = s.lastRead :=
  ⟨rfl, rfl, rfl, rfl, rfl, rfl, rfl, rfl, rfl, rfl, rfl, rfl, rfl, rfl, rfl, rfl, rfl, rfl, rfl, rfl, rfl, rfl, rfl, rfl, rfl, rfl⟩

@[simp] theorem onLastRead_frame (s : State) (g : _ → _) :
    (s.onLastRead g).lastRead = g s.lastRead ∧ (s.onLastRead g).pending = s.pending ∧ (s.onLastRead g).freeN = s.freeN ∧ (s.onLastRead g).variant = s.variant ∧ (s.onLastRead g).pwr = s.pwr ∧ (s.onLastRead g).tsc = s.tsc ∧ (s.onLastRead g).mesh = s.mesh ∧ (s.onLastRead g).cores = s.cores ∧ (s.onLastRead g).groups = s.groups ∧ (s.onLastRead g).saved = s.saved ∧ (s.onLastRead g).mem = s.mem ∧ (s.onLastRead g).tier = s.tier ∧ (s.onLastRead g).xl = s.xl ∧ (s.onLastRead g).sync = s.sync ∧ (s.onLastRead g).qs = s.qs ∧ (s.onLastRead g).engines = s.engines ∧ (s.onLastRead g).launches = s.launches ∧ (s.onLastRead g).ctxs = s.ctxs ∧ (s.onLastRead g).fns = s.fns ∧ (s.onLastRead g).fab = s.fab ∧ (s.onLastRead g).pcie = s.pcie ∧ (s.onLastRead g).mgmt = s.mgmt ∧ (s.onLastRead g).err = s.err ∧ (s.onLastRead g).msix = s.msix ∧ (s.onLastRead g).wire = s.wire ∧ (s.onLastRead g).bar2Rsp = s.bar2Rsp :=
  ⟨rfl, rfl, rfl, rfl, rfl, rfl, rfl, rfl, rfl, rfl, rfl, rfl, rfl, rfl, rfl, rfl, rfl, rfl, rfl, rfl, rfl, rfl, rfl, rfl, rfl, rfl⟩

end Sys2Proof.Machine.State
end

