-- ==== Sys2Proof/Laws/Table.lean ====
section
/-! SUPPORT. Laws of the sparse table: what a key reads as after each operation, and that each keeps the canonical
form. -/
namespace Sys2Proof.Tbl
variable {α : Type} [Inhabited α]

@[simp] theorem get_nil (n : Nat) : Tbl.get ([] : Tbl α) n = default := rfl

theorem get_drop (t : Tbl α) (n m : Nat) : Tbl.get (Tbl.drop t n) m = if m = n then default else Tbl.get t m := by
  induction t with
  | nil => simp [Tbl.drop, Tbl.get]
  | cons x t ih =>
    obtain ⟨k, v⟩ := x
    by_cases h : k = n
    · subst h; simp only [Tbl.drop, if_true, ih]; by_cases hm : m = k
      · simp [hm]
      · simp [hm, Tbl.get, Ne.symm hm]
    · simp only [Tbl.drop, h, if_false, Tbl.get, ih]
      by_cases hk : k = m
      · subst hk; simp [h]
      · simp [hk]

variable [DecidableEq α]

theorem get_cons (t : Tbl α) (n m : Nat) (v : α) (h : Tbl.get t n = default) :
    Tbl.get (Tbl.cons n v t) m = if m = n then v else Tbl.get t m := by
  unfold Tbl.cons
  by_cases hv : v = default
  · by_cases hm : m = n
    · subst hm; simp [hv, h]
    · simp [hv, hm]
  · by_cases hm : m = n
    · simp [hv, hm, Tbl.get]
    · simp [hv, hm, Tbl.get, Ne.symm hm]

/-- A key reads as what was last written to it, and every other key as before. -/
theorem get_put (t : Tbl α) (n m : Nat) (v : α) : Tbl.get (Tbl.put t n v) m = if m = n then v else Tbl.get t m := by
  induction t with
  | nil => exact get_cons ([] : Tbl α) n m v rfl
  | cons x t ih =>
    obtain ⟨k, w⟩ := x
    by_cases hk : k < n
    · simp only [Tbl.put, hk, if_true, Tbl.get, ih]
      by_cases hm : k = m
      · subst hm; simp [Nat.ne_of_lt hk]
      · simp [hm]
    · simp only [Tbl.put, hk, if_false]
      rw [get_cons _ _ _ _ (by simp [get_drop])]
      simp only [get_drop]
      by_cases hm : m = n <;> simp [hm]

@[simp] theorem get_put_same (t : Tbl α) (n : Nat) (v : α) : Tbl.get (Tbl.put t n v) n = v := by simp [get_put]
theorem get_put_other (t : Tbl α) {n m : Nat} (v : α) (h : m ≠ n) : Tbl.get (Tbl.put t n v) m = Tbl.get t m := by
  simp [get_put, h]
theorem get_upd (t : Tbl α) (n m : Nat) (f : α → α) :
    Tbl.get (Tbl.upd t n f) m = if m = n then f (Tbl.get t n) else Tbl.get t m := by simp [Tbl.upd, get_put]
@[simp] theorem get_upd_same (t : Tbl α) (n : Nat) (f : α → α) : Tbl.get (Tbl.upd t n f) n = f (Tbl.get t n) := by
  simp [get_upd]
theorem get_upd_other (t : Tbl α) {n m : Nat} (f : α → α) (h : m ≠ n) : Tbl.get (Tbl.upd t n f) m = Tbl.get t m := by
  simp [get_upd, h]

/-- A change of every listed value reaches every value, where it leaves an unlisted one as it is. -/
theorem get_mapAll (t : Tbl α) (f : α → α) (h : f default = default) (m : Nat) :
    Tbl.get (Tbl.mapAll t f) m = f (Tbl.get t m) := by
  induction t with
  | nil => simp [Tbl.mapAll, h]
  | cons x t ih =>
    obtain ⟨k, v⟩ := x
    simp only [Tbl.mapAll, get_put, Tbl.get, ih]
    by_cases hk : k = m
    · simp [hk]
    · simp [hk, Ne.symm hk]

/-! ### The canonical form -/

theorem wfFrom_le {t : Tbl α} {a b : Nat} (hab : b ≤ a) (h : Tbl.wfFrom a t = true) : Tbl.wfFrom b t = true := by
  cases t with
  | nil => rfl
  | cons x t =>
    obtain ⟨k, v⟩ := x
    simp only [Tbl.wfFrom, Bool.and_eq_true, decide_eq_true_eq] at h ⊢
    exact ⟨⟨Nat.le_trans hab h.1.1, h.1.2⟩, h.2⟩

theorem wfFrom_cons {t : Tbl α} {a n : Nat} (v : α) (h : Tbl.wfFrom (n + 1) t = true) (ha : a ≤ n) :
    Tbl.wfFrom a (Tbl.cons n v t) = true := by
  unfold Tbl.cons
  by_cases hv : v = default
  · simpa [hv] using wfFrom_le (Nat.le_succ_of_le ha) h
  · simp [hv, Tbl.wfFrom, ha, h]

theorem drop_eq {t : Tbl α} {a n : Nat} (h : Tbl.wfFrom a t = true) (hn : n < a) : Tbl.drop t n = t := by
  induction t generalizing a with
  | nil => rfl
  | cons x t ih =>
    obtain ⟨k, v⟩ := x
    simp only [Tbl.wfFrom, Bool.and_eq_true, decide_eq_true_eq] at h
    have hk : k ≠ n := by omega
    simp only [Tbl.drop, hk, if_false, ih h.2 (by omega)]

theorem wfFrom_put {t : Tbl α} {a : Nat} (n : Nat) (v : α) (h : Tbl.wfFrom a t = true) (ha : a ≤ n) :
    Tbl.wfFrom a (Tbl.put t n v) = true := by
  induction t generalizing a with
  | nil => exact wfFrom_cons v rfl ha
  | cons x t ih =>
    obtain ⟨k, w⟩ := x
    have h' := h
    simp only [Tbl.wfFrom, Bool.and_eq_true, decide_eq_true_eq] at h'
    by_cases hk : k < n
    · simp only [Tbl.put, hk, if_true, Tbl.wfFrom, Bool.and_eq_true, decide_eq_true_eq]
      exact ⟨h'.1, ih h'.2 hk⟩
    · simp only [Tbl.put, hk, if_false]
      refine wfFrom_cons v ?_ ha
      by_cases hkn : k = n
      · subst hkn
        simp only [Tbl.drop, if_true]
        rw [drop_eq h'.2 (Nat.lt_succ_self _)]
        exact h'.2
      · simp only [Tbl.drop, hkn, if_false]
        rw [drop_eq h'.2 (by omega)]
        simp only [Tbl.wfFrom, Bool.and_eq_true, decide_eq_true_eq]
        exact ⟨⟨by omega, h'.1.2⟩, h'.2⟩

/-- A write keeps the canonical form. -/
theorem wf_put {t : Tbl α} (n : Nat) (v : α) (h : Tbl.wf t = true) : Tbl.wf (Tbl.put t n v) = true :=
  wfFrom_put n v h (Nat.zero_le _)
theorem wf_upd {t : Tbl α} (n : Nat) (f : α → α) (h : Tbl.wf t = true) : Tbl.wf (Tbl.upd t n f) = true := wf_put n _ h
theorem wf_mapAll (t : Tbl α) (f : α → α) : Tbl.wf (Tbl.mapAll t f) = true := by
  induction t with
  | nil => rfl
  | cons x t ih => exact wf_put _ _ ih

theorem wfFrom_filter {t : Tbl α} {a : Nat} (p : Nat × α → Bool) (h : Tbl.wfFrom a t = true) :
    Tbl.wfFrom a (t.filter p) = true := by
  induction t generalizing a with
  | nil => rfl
  | cons x t ih =>
    obtain ⟨k, v⟩ := x
    have h' := h
    simp only [Tbl.wfFrom, Bool.and_eq_true, decide_eq_true_eq] at h'
    by_cases hp : p (k, v) = true
    · rw [List.filter_cons_of_pos hp]
      simp only [Tbl.wfFrom, Bool.and_eq_true, decide_eq_true_eq]
      exact ⟨h'.1, ih h'.2⟩
    · rw [List.filter_cons_of_neg hp]
      exact wfFrom_le (by omega) (ih h'.2)
theorem wf_filter {t : Tbl α} (p : Nat × α → Bool) (h : Tbl.wf t = true) : Tbl.wf (t.filter p) = true := wfFrom_filter p h

theorem wfFrom_append {t u : Tbl α} {a b : Nat} (ht : Tbl.wfFrom a t = true) (hu : Tbl.wfFrom b u = true) (hab : a ≤ b)
    (hb : ∀ x ∈ t, x.1 < b) : Tbl.wfFrom a (t ++ u) = true := by
  induction t generalizing a with
  | nil => exact wfFrom_le hab hu
  | cons x t ih =>
    obtain ⟨k, v⟩ := x
    simp only [Tbl.wfFrom, Bool.and_eq_true, decide_eq_true_eq] at ht
    simp only [List.cons_append, Tbl.wfFrom, Bool.and_eq_true, decide_eq_true_eq]
    have hk : k < b := hb (k, v) (by simp)
    exact ⟨ht.1, ih ht.2 hk fun y hy => hb y (by simp [hy])⟩

theorem wfFrom_raise {t : Tbl α} {a b : Nat} (h : Tbl.wfFrom a t = true) (hb : ∀ x ∈ t, b ≤ x.1) : Tbl.wfFrom b t = true := by
  cases t with
  | nil => rfl
  | cons x t =>
    obtain ⟨k, v⟩ := x
    simp only [Tbl.wfFrom, Bool.and_eq_true, decide_eq_true_eq] at h ⊢
    exact ⟨⟨hb (k, v) (by simp), h.1.2⟩, h.2⟩

/-- Replacing a range by a canonical block of that range keeps the canonical form. -/
theorem wf_splice {t : Tbl α} {lo n : Nat} {b : Tbl α} (h : Tbl.wf t = true) (hb : Tbl.wfFrom lo b = true)
    (hr : ∀ x ∈ b, x.1 < lo + n) : Tbl.wf (Tbl.splice t lo n b) = true := by
  unfold Tbl.splice Tbl.wf
  rw [List.append_assoc]
  refine wfFrom_append (wfFrom_filter _ h) (b := lo) ?_ (Nat.zero_le _) ?_
  · refine wfFrom_append hb (b := lo + n) ?_ (Nat.le_add_right _ _) hr
    refine wfFrom_raise (wfFrom_filter _ h) ?_
    intro x hx; simpa using (List.mem_filter.mp hx).2
  · intro x hx; simpa using (List.mem_filter.mp hx).2

omit [DecidableEq α] in
theorem get_filter_key (t : Tbl α) (p : Nat → Bool) (m : Nat) :
    Tbl.get (t.filter fun x => p x.1) m = if p m then Tbl.get t m else default := by
  induction t with
  | nil => simp
  | cons x t ih =>
    obtain ⟨k, v⟩ := x
    by_cases hp : p k = true
    · simp only [List.filter_cons, hp, if_true, Tbl.get, ih]
      by_cases hk : k = m
      · subst hk; simp [hp]
      · simp [hk]
    · simp only [List.filter_cons, hp, if_false, Tbl.get, ih, Bool.false_eq_true]
      by_cases hk : k = m
      · subst hk; simp [hp]
      · simp [hk]

end Sys2Proof.Tbl
end

