-- ==== Sys2Proof/Laws/Issue.lean ====
section
/-! SUPPORT. What an instruction does that issues: the start of a ready instruction, and everything that finishing it
changes. -/
namespace Sys2Proof.Machine

/-- A ready instruction issues, and its only effect so far is the cost of its issue. -/
theorem begin_ready {i : Ins} {h : Shape} {s : State} (hr : ready i h s = true) :
    begin_ i h s = .go (issOf i h s) (issueCost (issOf i h s) h.reads s) := by
  simp only [ready, onRunningCore, legal, clean, fetchable, setReady, Bool.and_eq_true, Option.isSome_iff_exists,
    decide_eq_true_eq, Bool.not_eq_true'] at hr
  obtain ⟨⟨⟨⟨⟨⟨⟨p, hp⟩, hc⟩, hset⟩, hf⟩, hl⟩, hcl⟩, hpk⟩ := hr
  obtain ⟨⟨⟨⟨⟨⟨h1, h2⟩, h3⟩, h4⟩, h5⟩, h6⟩, h7⟩ := hset
  obtain ⟨⟨⟨⟨⟨_, l1⟩, l2⟩, l3⟩, l4⟩, l5⟩ := hl
  have hi : issue? i h.early h.grp h.regs s = some (issOf i h s) := by
    have hpc : insCore i s = p := by simp [insCore, hp]
    rw [hpc] at hc
    have hw := hf.1
    simp only [insGroup, insKey, insSet] at h1 h2 h3 h4 h5 h6 h7 hw
    simp only [issue?, hp]
    rw [if_pos (by simp only [h1, h2, h3, h4, h5, h6, h7, hc, hpk, hw, decide_true, Bool.not_false, Bool.and_self])]
    simp [issOf, insPart, insSet, insGroup, insKey, hpc]
  have hg : (issOf i h s).g = insGroup i s := rfl
  simp only [Shape.regs] at hi
  simp only [begin_]
  rw [show (h.srcs.flatMap srcRegs) = h.reads from rfl, hi]
  simp only [hg]
  cases ht : translate s (insGroup i s).ctx i.pc needX with
  | fault r => simp [ht] at hf
  | ok pa rg => simp [l1, l2, l3, l4, l5, hcl.1, regErrors]

/-! ### The parts of finishing -/

theorem Group.thread_onThread (g : Group) (i l : Nat) (f : Thread → Thread) :
    (g.onThread i f).thread l = if l = i then f (g.thread i) else g.thread l := by
  simp [Group.thread, Group.onThread, Tbl.get_upd]

/-- A write changes one register of one lane. -/
theorem put1_thread (g : Group) (lane l : Nat) (w : Nat × Word) (hw : w.1 ≤ 256) :
    (g.put1 lane w).thread l = if l = lane then
      { g.thread l with
        v := if w.1 < 255 then (g.thread l).v.put w.1 w.2 else (g.thread l).v
        p := if w.1 = 256 then w.2.setWidth 8 else (g.thread l).p }
    else g.thread l := by
  unfold Group.put1
  by_cases h1 : w.1 = 255
  · simp [h1]
  · by_cases h2 : w.1 = 256
    · rw [if_neg h1, if_pos h2, Group.thread_onThread]
      by_cases hl : l = lane <;> simp [hl, h2]
    · have h3 : w.1 ≠ 257 := by omega
      have h4 : w.1 < 255 := by omega
      simp only [h1, h2, h3, h4, if_false, if_true, Group.thread_onThread]
      by_cases hl : l = lane <;> simp [hl]

/-- The vector registers of a lane after its writes. -/
def putsV (w : Writes) (v : Tbl Word) : Tbl Word := w.foldl (fun v x => if x.1 < 255 then v.put x.1 x.2 else v) v

theorem get_putsV (w : Writes) : ∀ (v : Tbl Word) (n : Nat),
    (putsV w v).get n = if n < 255 then lastTo w n (v.get n) else v.get n := by
  induction w with
  | nil => intro v n; simp [putsV, lastTo]
  | cons x w ih =>
    intro v n
    have := ih (if x.1 < 255 then v.put x.1 x.2 else v) n
    simp only [putsV, List.foldl_cons, lastTo] at this ⊢
    rw [this]
    by_cases hn : n < 255
    · simp only [hn, if_true]
      by_cases h5 : x.1 < 255
      · simp only [h5, if_true, Tbl.get_put, eq_comm]
      · have h6 : x.1 ≠ n := by omega
        simp [h5, h6]
    · simp only [hn, if_false]
      by_cases h5 : x.1 < 255
      · have h6 : n ≠ x.1 := by omega
        simp [h5, Tbl.get_put, h6]
      · simp [h5]

/-- The low bits of a register after writes follow from its low bits before. -/
theorem lastTo_low (w : Writes) (n : Nat) : ∀ (a b : Word), a.setWidth 8 = b.setWidth 8 →
    (lastTo w n a).setWidth 8 = (lastTo w n b).setWidth 8 := by
  induction w with
  | nil => intro a b h; exact h
  | cons x w ih =>
    intro a b h
    simp only [lastTo, List.foldl_cons] at ih ⊢
    refine ih _ _ ?_
    split
    · rfl
    · exact h

/-- The writes of one lane. -/
theorem puts_thread (w : Writes) : ∀ (g : Group) (lane l : Nat), (∀ x ∈ w, x.1 ≤ 256) →
    (w.foldl (fun g x => g.put1 lane x) g).thread l = if l = lane then
      { g.thread l with v := putsV w (g.thread l).v, p := (lastTo w 256 ((g.thread l).p.setWidth 32)).setWidth 8 } else g.thread l := by
  induction w with
  | nil => intro g lane l _; by_cases hl : l = lane <;> simp [hl, lastTo, putsV]
  | cons x w ih =>
    intro g lane l hw
    have hx := hw x (by simp)
    rw [List.foldl_cons, ih (g.put1 lane x) lane l (fun y hy => hw y (by simp [hy])), put1_thread g lane l x hx]
    by_cases hl : l = lane
    · simp only [hl, if_true, putsV, List.foldl_cons, lastTo]
      by_cases h5 : x.1 = 256
      · simp only [h5, if_true]
        have := lastTo_low w 256 (BitVec.setWidth 32 (BitVec.setWidth 8 x.2)) x.2 (by simp)
        simp only [lastTo] at this
        rw [this]
      · simp [h5]
    · simp [hl]

theorem put1_eq (g : Group) (lane : Nat) (w : Nat × Word) : ∃ th, g.put1 lane w = { g with th := th } := by
  unfold Group.put1 Group.onThread; split
  · exact ⟨g.th, rfl⟩
  · split
    · exact ⟨_, rfl⟩
    · split <;> exact ⟨_, rfl⟩
theorem puts_eq (w : Writes) : ∀ (g : Group) (lane : Nat), ∃ th, w.foldl (fun g x => g.put1 lane x) g = { g with th := th } := by
  induction w with
  | nil => intro g lane; exact ⟨g.th, rfl⟩
  | cons x w ih =>
    intro g lane
    obtain ⟨th, h⟩ := put1_eq g lane x
    obtain ⟨th2, h2⟩ := ih (g.put1 lane x) lane
    exact ⟨th2, by rw [List.foldl_cons, h2, h]⟩

/-- The writes of several lanes. -/
theorem lanes_thread (w : Nat → Writes) (l : Nat) : ∀ (ls : List Nat) (g : Group), ls.Nodup → (∀ i, ∀ x ∈ w i, x.1 ≤ 256) →
    (ls.foldl (fun g i => (w i).foldl (fun g x => g.put1 i x) g) g).thread l = if l ∈ ls then
      { g.thread l with v := putsV (w l) (g.thread l).v, p := (lastTo (w l) 256 ((g.thread l).p.setWidth 32)).setWidth 8 } else g.thread l := by
  intro ls
  induction ls with
  | nil => intro g _ _; simp
  | cons i ls ih =>
    intro g hn hw
    rw [List.foldl_cons, ih _ (List.nodup_cons.mp hn).2 hw, puts_thread (w i) g i l (hw i)]
    by_cases hl : l = i
    · subst hl
      have : l ∉ ls := (List.nodup_cons.mp hn).1
      simp [this]
    · simp [hl]
theorem lanes_eq (w : Nat → Writes) : ∀ (ls : List Nat) (g : Group), ∃ th,
    ls.foldl (fun g i => (w i).foldl (fun g x => g.put1 i x) g) g = { g with th := th } := by
  intro ls
  induction ls with
  | nil => intro g; exact ⟨g.th, rfl⟩
  | cons i ls ih =>
    intro g
    obtain ⟨th, h⟩ := puts_eq (w i) g i
    obtain ⟨th2, h2⟩ := ih ((w i).foldl (fun g x => g.put1 i x) g)
    exact ⟨th2, by rw [List.foldl_cons, h2, h]⟩

/-- Uniform writes. -/
theorem uni_get (uni : Writes) : ∀ (u : Tbl Word) (n : Nat),
    (uni.foldl (fun u (x : Nat × Word) => u.put (x.1 % 64) x.2) u).get n = lastTo (uni.map fun x => (x.1 % 64, x.2)) n (u.get n) := by
  induction uni with
  | nil => intro u n; rfl
  | cons x uni ih =>
    intro u n
    simp only [List.foldl_cons, ih, Tbl.get_put, List.map_cons, lastTo, eq_comm]

/-! ### The set goes on -/

theorem joinArrive_eq (g : Group) (lanes : List Nat) : ∃ br ho, joinArrive g lanes = { g with brs := br, holds := ho } := by
  unfold joinArrive
  suffices h : ∀ (bs : List Br) (a : Group), (∃ br ho, a = { g with brs := br, holds := ho }) → ∃ br ho, bs.foldl (init := a) (fun g b =>
      let here := (lanesOf b.lanes).filter fun l => !(g.thread l).exited && (g.thread l).pc = b.addr
      let away := (lanesOf b.lanes).filter fun l => !(g.thread l).exited && (g.thread l).pc != b.addr
      if here.isEmpty || !(lanes.any here.contains) then g
      else if away.isEmpty then
        { g with brs := g.brs.erase b, holds := g.holds.filter fun h => !(h.addr = b.addr && h.mates = b.lanes) }
      else
        { g with holds := g.holds.filter (fun h => !(h.addr = b.addr && h.mates = b.lanes)) ++
                   [{ lanes := maskOf here, mates := b.lanes, addr := b.addr, since := g.issues }] }) = { g with brs := br, holds := ho } from
    h g.brs g ⟨g.brs, g.holds, rfl⟩
  intro bs
  induction bs with
  | nil => intro a h; exact h
  | cons b bs ih =>
    intro a h
    rw [List.foldl_cons]
    apply ih
    obtain ⟨br, ho, rfl⟩ := h
    dsimp only
    split
    · exact ⟨_, _, rfl⟩
    · split <;> exact ⟨_, _, rfl⟩

theorem pcs_thread (to_ : Nat → Nat) (l : Nat) : ∀ (ls : List Nat) (g : Group),
    (ls.foldl (fun (g : Group) i => g.onThread i fun t => { t with pc := to_ i }) g).thread l =
      if l ∈ ls then { g.thread l with pc := to_ l } else g.thread l := by
  intro ls
  induction ls with
  | nil => intro g; simp
  | cons i ls ih =>
    intro g
    rw [List.foldl_cons, ih, Group.thread_onThread]
    by_cases hl : l = i
    · subst hl; by_cases hm : l ∈ ls <;> simp [hm]
    · simp [hl]
theorem pcs_eq (to_ : Nat → Nat) : ∀ (ls : List Nat) (g : Group), ∃ th,
    ls.foldl (fun (g : Group) i => g.onThread i fun t => { t with pc := to_ i }) g = { g with th := th } := by
  intro ls
  induction ls with
  | nil => intro g; exact ⟨g.th, rfl⟩
  | cons i ls ih =>
    intro g
    obtain ⟨th, h⟩ := ih (g.onThread i fun t => { t with pc := to_ i })
    exact ⟨th, by rw [List.foldl_cons, h]; rfl⟩

/-- The threads of an advanced set stand at their next addresses; nothing else of a thread changes. -/
theorem advance_thread (g : Group) (lanes : List Nat) (to_ : Nat → Nat) (l : Nat) :
    (g.advance lanes to_).thread l = if l ∈ lanes then { g.thread l with pc := to_ l } else g.thread l := by
  have hp := pcs_thread to_ l lanes { g with holds := g.holds.filter fun h => h.lanes &&& maskOf lanes = 0 }
  unfold Group.advance
  dsimp only
  obtain ⟨br, ho, h⟩ := joinArrive_eq (lanes.foldl (fun (g : Group) l => g.onThread l fun t => { t with pc := to_ l })
    { g with holds := g.holds.filter fun h => h.lanes &&& maskOf lanes = 0 }) lanes
  rw [h]
  exact hp
/-- Of the group only its threads, joins and holds change. -/
theorem advance_eq (g : Group) (lanes : List Nat) (to_ : Nat → Nat) :
    ∃ th br ho, g.advance lanes to_ = { g with th := th, brs := br, holds := ho } := by
  unfold Group.advance
  dsimp only
  obtain ⟨br, ho, h⟩ := joinArrive_eq (lanes.foldl (fun (g : Group) l => g.onThread l fun t => { t with pc := to_ l })
    { g with holds := g.holds.filter fun h => h.lanes &&& maskOf lanes = 0 }) lanes
  obtain ⟨th, h2⟩ := pcs_eq to_ lanes { g with holds := g.holds.filter fun h => h.lanes &&& maskOf lanes = 0 }
  rw [h, h2]
  exact ⟨th, br, ho, rfl⟩

theorem setOfPc_nodup (g : Group) (pc : Nat) : (g.setOfPc pc).Nodup := by
  unfold Group.setOfPc Group.alive
  exact (List.nodup_range.filter _).filter _
theorem insPart_nodup (i : Ins) (h : Shape) (s : State) : (insPart i h s).Nodup := by
  unfold insPart insSet
  split
  · exact setOfPc_nodup _ _
  · exact (setOfPc_nodup _ _).filter _

/-- The issue cost changes the issue count of the group, the register cache of the core and the core steps of the
context, and nothing else. -/
theorem issueCost_eq (x : Iss) (r : List (Nat × Bool)) (s : State) :
    issueCost x r s = { s with
      groups := s.groups.upd x.k fun g => g.issued ((s.core x.p).issues + 1) x
      cores := s.cores.upd x.p fun c => { c with rcache := (readRegs x.g.slot r [] (s.core x.p).rcache).2, issues := (s.core x.p).issues + 1, work := c.work.upd x.g.ctx (· + holdSteps (readRegs x.g.slot r [] (s.core x.p).rcache).1) }
      ctxs := s.ctxs.upd x.g.ctx fun c => { c with acct := c.acct.upd aCoreSteps (· + holdSteps (readRegs x.g.slot r [] (s.core x.p).rcache).1) } } := rfl

/-- Issuing counts the issue and changes what the choice among ready sets goes by. -/
theorem issued_eq (g : Group) (n : Nat) (x : Iss) : ∃ ho sc, g.issued n x = { g with issues := g.issues + 1, holds := ho, sched := sc } :=
  ⟨_, _, rfl⟩

/-- What finishing does to the group. -/
def finishGroup (i : Ins) (x : Iss) (res : Nat → Writes) (uni : Writes) (to_ : Nat → Nat) (g : Group) : Group :=
  let undo := x.part.flatMap (fun l => (res l).flatMap (g.undoOf l)) ++
    uni.map fun (n, _) => ({ lane := 32, reg := n % 64, old := g.uget n, prev := g.uw.get (n % 64) } : Undo)
  let g2 := x.part.foldl (fun g l => (res l).foldl (fun g w => g.put1 l w) g) g
  let g2 := { g2 with u := uni.foldl (fun u (n, v) => u.put (n % 64) v) g2.u, uw := uni.foldl (fun (u : Tbl Nat) (w : Nat × Word) => u.put (w.1 % 64) g.nextId) g2.uw, nextId := g.nextId + 1 }
  let g2 := if x.shadow then { g2 with win := g2.win ++ [{ id := g.nextId, lanes := x.set_, setm := x.set_, pc := i.pc, use := .reg, fin := true, undo := undo }] } else g2
  g2.advance x.lanes to_
theorem finish_eq (i : Ins) (x : Iss) (res : Nat → Writes) (uni : Writes) (to_ : Nat → Nat) (s : State) :
    finish i x res uni to_ s = s.onGroup x.k (finishGroup i x res uni to_) := rfl

/-- The group a finished instruction leaves. -/
theorem finishGroup_spec (i : Ins) (x : Iss) (res : Nat → Writes) (uni : Writes) (to_ : Nat → Nat) (g : Group)
    (hn : x.part.Nodup) (hw : ∀ l, ∀ y ∈ res l, y.1 ≤ 256) : ∃ th u uw win nx br ho,
    finishGroup i x res uni to_ g = { g with th := th, u := u, uw := uw, win := win, nextId := nx, brs := br, holds := ho } ∧
    (∀ n, u.get n = lastTo (uni.map fun x => (x.1 % 64, x.2)) n (g.u.get n)) ∧
    (if x.shadow then ∃ e, e.fin = true ∧ e.lanes = x.set_ ∧ win = g.win ++ [e] else win = g.win) ∧
    (∀ l, th.get l = { g.thread l with
      v := if l ∈ x.part then putsV (res l) (g.thread l).v else (g.thread l).v
      p := if l ∈ x.part then (lastTo (res l) 256 ((g.thread l).p.setWidth 32)).setWidth 8 else (g.thread l).p
      pc := if l ∈ x.lanes then to_ l else (g.thread l).pc }) := by
  have ht := fun l => lanes_thread res l x.part g hn hw
  obtain ⟨th1, h1⟩ := lanes_eq res x.part g
  rw [h1] at ht
  obtain ⟨uw, wn, hwin, h2⟩ : ∃ uw wn, (if x.shadow then ∃ e, e.fin = true ∧ e.lanes = x.set_ ∧ wn = g.win ++ [e] else wn = g.win) ∧
      finishGroup i x res uni to_ g = ({ g with th := th1, u := uni.foldl (fun u (n, v) => u.put (n % 64) v) g.u, uw := uw, win := wn, nextId := g.nextId + 1 } : Group).advance x.lanes to_ := by
    by_cases hs : x.shadow = true
    · refine ⟨uni.foldl (fun (u : Tbl Nat) (w : Nat × Word) => u.put (w.1 % 64) g.nextId) g.uw,
        g.win ++ [{ id := g.nextId, lanes := x.set_, setm := x.set_, pc := i.pc, use := .reg, fin := true
                    undo := x.part.flatMap (fun l => (res l).flatMap (g.undoOf l)) ++
                      uni.map fun (n, _) => ({ lane := 32, reg := n % 64, old := g.uget n, prev := g.uw.get (n % 64) } : Undo) }], ?_, ?_⟩
      · rw [if_pos hs]; exact ⟨_, rfl, rfl, rfl⟩
      · unfold finishGroup; dsimp only; rw [h1, if_pos hs]
    · refine ⟨uni.foldl (fun (u : Tbl Nat) (w : Nat × Word) => u.put (w.1 % 64) g.nextId) g.uw, g.win, by rw [if_neg hs], ?_⟩
      unfold finishGroup; dsimp only; rw [h1, if_neg hs]
  have ha := fun l => advance_thread ({ g with th := th1, u := uni.foldl (fun u (n, v) => u.put (n % 64) v) g.u, uw := uw, win := wn, nextId := g.nextId + 1 } : Group) x.lanes to_ l
  obtain ⟨th, br, ho, h3⟩ := advance_eq ({ g with th := th1, u := uni.foldl (fun u (n, v) => u.put (n % 64) v) g.u, uw := uw, win := wn, nextId := g.nextId + 1 } : Group) x.lanes to_
  rw [h3] at ha
  refine ⟨th, _, uw, wn, g.nextId + 1, br, ho, by rw [h2, h3], fun n => uni_get uni g.u n, hwin, fun l => ?_⟩
  have hl := ha l
  have e1 : th1.get l = _ := ht l
  simp only [Group.thread] at hl e1 ⊢
  rw [hl, e1]
  by_cases c1 : l ∈ x.part <;> by_cases c2 : l ∈ x.lanes <;> simp [c1, c2]

/-- What finishing a ready instruction leaves. -/
theorem finish_wrote {i : Ins} {h : Shape} {s : State} (w : Nat → Writes) (uni : Writes) (to_ : Nat → Nat)
    (hw : ∀ l, ∀ x ∈ w l, x.1 ≤ 256) (n : Nat) :
    Wrote i h w uni to_ s (finish i (issOf i h s) w uni to_ ((issueCost (issOf i h s) h.reads s).onFreeN fun _ => n)) := by
  obtain ⟨ho0, sc, hi⟩ := issued_eq (insGroup i s) ((s.core (insCore i s)).issues + 1) (issOf i h s)
  obtain ⟨th, u, uw, win, nx, br, ho, hg, hu, hwin, ht⟩ :=
    finishGroup_spec i (issOf i h s) w uni to_ { insGroup i s with issues := (insGroup i s).issues + 1, holds := ho0, sched := sc } (insPart_nodup i h s) hw
  have hG : insGroup i (finish i (issOf i h s) w uni to_ ((issueCost (issOf i h s) h.reads s).onFreeN fun _ => n)) =
      { insGroup i s with issues := (insGroup i s).issues + 1, sched := sc, th := th, u := u, uw := uw, win := win, nextId := nx, brs := br, holds := ho } := by
    rw [show ({ insGroup i s with issues := (insGroup i s).issues + 1, sched := sc, th := th, u := u, uw := uw, win := win, nextId := nx, brs := br, holds := ho } : Group) =
      finishGroup i (issOf i h s) w uni to_ { insGroup i s with issues := (insGroup i s).issues + 1, holds := ho0, sched := sc } from by rw [hg], ← hi, finish_eq]
    show Tbl.get (Tbl.upd (Tbl.upd s.groups (insKey i) fun g => g.issued ((s.core (insCore i s)).issues + 1) (issOf i h s)) (insKey i) (finishGroup i (issOf i h s) w uni to_)) (insKey i) = _
    rw [Tbl.get_upd_same, Tbl.get_upd_same]; rfl
  have hT : ∀ l, (insGroup i (finish i (issOf i h s) w uni to_ ((issueCost (issOf i h s) h.reads s).onFreeN fun _ => n))).thread l = th.get l := by
    intro l; rw [hG]; rfl
  have hpart : (issOf i h s).part = insPart i h s := rfl
  have hlanes : (issOf i h s).lanes = insSet i s := rfl
  have hth : ∀ l, ({ insGroup i s with issues := (insGroup i s).issues + 1, holds := ho0, sched := sc } : Group).thread l = (insGroup i s).thread l := fun _ => rfl
  simp only [hpart, hlanes, hth] at ht
  refine ⟨?_, ?_, ?_, ?_, ?_, ?_, ?_, ?_, ?_, ?_, ?_, rfl⟩
  · intro l m
    rw [hT, ht]
    by_cases c : l ∈ insPart i h s <;> by_cases c2 : m < 255 <;> simp [c, c2, get_putsV]
  · intro l; rw [hT, ht]
  · intro m; rw [hG]; exact hu m
  · intro l; rw [hT, ht]
  · intro l; rw [hT, ht]
  · rw [hG]; exact hwin
  · rw [hG]
  · rw [hG]
  · intro k hk
    rw [finish_eq]
    show Tbl.get (Tbl.upd (Tbl.upd s.groups (insKey i) fun g => g.issued ((s.core (insCore i s)).issues + 1) (issOf i h s)) (insKey i) (finishGroup i (issOf i h s) w uni to_)) k = _
    rw [Tbl.get_upd_other _ _ hk, Tbl.get_upd_other _ _ hk]; rfl
  · intro p
    rw [finish_eq]
    have hc : ∀ q, State.core (((issueCost (issOf i h s) h.reads s).onFreeN fun _ => n).onGroup (issOf i h s).k (finishGroup i (issOf i h s) w uni to_)) q =
        Tbl.get (Tbl.upd s.cores (insCore i s) fun c => { c with rcache := (readRegs (insGroup i s).slot h.reads [] (s.core (insCore i s)).rcache).2, issues := (s.core (insCore i s)).issues + 1, work := c.work.upd (insGroup i s).ctx (· + holdSteps (readRegs (insGroup i s).slot h.reads [] (s.core (insCore i s)).rcache).1) }) q := fun _ => rfl
    rw [hc, Tbl.get_upd]
    by_cases hp : p = insCore i s
    · subst hp; simp [State.core]
    · simp [hp, State.core]
  · intro c
    rw [finish_eq]
    have hc : State.ctx (((issueCost (issOf i h s) h.reads s).onFreeN fun _ => n).onGroup (issOf i h s).k (finishGroup i (issOf i h s) w uni to_)) c =
        Tbl.get (Tbl.upd s.ctxs (insGroup i s).ctx fun c => { c with acct := c.acct.upd aCoreSteps (· + holdSteps (readRegs (insGroup i s).slot h.reads [] (s.core (insCore i s)).rcache).1) }) c := rfl
    rw [hc, Tbl.get_upd]
    by_cases hp : c = (insGroup i s).ctx
    · subst hp
      refine ⟨by simp [State.ctx], fun o => ?_⟩
      by_cases ho : o = aCoreSteps <;> simp [Tbl.get_upd, ho, State.ctx]
    · simp [hp, State.ctx]

/-- A ready instruction of vector arithmetic. -/
theorem alu_ready {i : Ins} {h : Shape} {s : State} (residue free : Bool) (res : Group → Nat → DWord → Writes)
    (hr : ready i h s = true) (hw : ∀ g l f, ∀ x ∈ res g l f, x.1 ≤ 256) :
    ∃ t, alu i h residue free res s = .next t ∧
      Wrote i h (fun l => res (insGroup i s) l (Config.freeValue (s.freeN + l))) [] (after i) s t := by
  have hcl : i.residue = 0 := by
    simp only [ready, clean, Bool.and_eq_true, decide_eq_true_eq] at hr; exact hr.1.2.2
  refine ⟨_, ?_, finish_wrote (fun l => res (insGroup i s) l (Config.freeValue (s.freeN + l))) [] (after i) (fun l => hw _ _ _) (if free then s.freeN + 32 else s.freeN)⟩
  unfold alu
  rw [begin_ready hr]
  dsimp only
  cases free <;> simp [hcl] <;> rfl

/-- A ready uniform instruction. -/
theorem aluU_ready {i : Ins} {h : Shape} {s : State} (res : Group → (Src → DWord) → Writes) (hr : ready i h s = true) :
    ∃ t, aluU i h res s = .next t ∧
      Wrote i h (fun _ => []) (if (insPart i h s).isEmpty then [] else res (insGroup i s) (uniSrc (insGroup i s) (Config.freeValue s.freeN))) (after i) s t := by
  refine ⟨_, ?_, finish_wrote (fun _ => []) _ (after i) (fun l x hx => by simp at hx)
    (if h.srcs.any (fun y => !(srcRegs y).isEmpty) then s.freeN + 1 else s.freeN)⟩
  unfold aluU
  rw [begin_ready hr]
  dsimp only
  cases hs : h.srcs.any (fun y => !(srcRegs y).isEmpty) <;> simp <;> rfl

/-- Only the writes of lanes that take part matter. -/
theorem Wrote.congr {i : Ins} {h : Shape} {w w' : Nat → Writes} {uni : Writes} {to_ : Nat → Nat} {s t : State}
    (hw : ∀ l, l ∈ insPart i h s → w l = w' l) (h1 : Wrote i h w uni to_ s t) : Wrote i h w' uni to_ s t := by
  refine ⟨?_, ?_, h1.uniform, h1.pc, h1.thread, h1.window, h1.issues, h1.group, h1.others, h1.rcache, h1.steps, h1.rest⟩
  · intro l n; rw [h1.vec]
    by_cases c : l ∈ insPart i h s
    · rw [hw l c]
    · simp [c]
  · intro l; rw [h1.pred]
    by_cases c : l ∈ insPart i h s
    · rw [hw l c]
    · simp [c]

theorem wpair_le {n : Nat} {v : DWord} (hn : n ≤ 255) : ∀ x ∈ wpair n v, x.1 ≤ 256 := by
  intro x hx; unfold wpair at hx
  split at hx
  · simp at hx
  · simp only [List.mem_cons, List.not_mem_nil, or_false] at hx; rcases hx with h | h <;> (subst h; simp only; omega)
theorem wpredD_le (g : Group) (l n : Nat) (b : Bool) : ∀ x ∈ wpredD g l n b, x.1 ≤ 256 := by
  intro x hx; unfold wpredD wpred at hx
  split at hx
  · simp at hx
  · simp only [List.mem_cons, List.not_mem_nil, or_false] at hx; subst hx; exact Nat.le_refl _
theorem one_le {n : Nat} {v : Word} (hn : n ≤ 255) : ∀ x ∈ ([(n, v)] : Writes), x.1 ≤ 256 := by
  intro x hx; simp only [List.mem_cons, List.not_mem_nil, or_false] at hx; subst hx; simp only; omega

/-- The destination field of a ready instruction. -/
theorem ready_dst {i : Ins} {h : Shape} {s : State} (hr : ready i h s = true) : i.dst ≤ 255 := by
  simp only [ready, legal, Ins.wf, Bool.and_eq_true, decide_eq_true_eq] at hr
  omega

/-- A command whose meaning is vector arithmetic leaves its results. -/
theorem leaves_alu {c : Instr} {i : Ins} {h : Shape} {s : State} {residue free : Bool} {res : Group → Nat → DWord → Writes} {w : Nat → Writes}
    (hr : ready i h s = true) (hc : exec c s = alu i h residue free res s) (hw : ∀ g l f, ∀ x ∈ res g l f, x.1 ≤ 256)
    (he : ∀ l, l ∈ insPart i h s → res (insGroup i s) l (Config.freeValue (s.freeN + l)) = w l) : Leaves c i h w [] s := by
  obtain ⟨t, h1, h2⟩ := alu_ready residue free res hr hw
  exact ⟨t, hc.trans h1, h2.congr he⟩

/-- A command that ends by finishing a ready instruction. -/
theorem leaves_finish {c : Instr} {i : Ins} {h : Shape} {s : State} {w w' : Nat → Writes} {uni : Writes} (n : Nat)
    (hc : exec c s = .next (finish i (issOf i h s) w' uni (after i) ((issueCost (issOf i h s) h.reads s).onFreeN fun _ => n)))
    (hw : ∀ l, ∀ x ∈ w' l, x.1 ≤ 256) (he : ∀ l, l ∈ insPart i h s → w' l = w l) : Leaves c i h w uni s :=
  ⟨_, hc, (finish_wrote w' uni (after i) hw n).congr he⟩

end Sys2Proof.Machine
end

