-- ==== Sys2Proof/Laws/Memory.lean ====
section
/-! SUPPORT. Laws of memory: what reads see after each write, and that every operation on memory keeps its canonical
form. -/
namespace Sys2Proof.Machine

@[simp] theorem Memory.wf_nil : Memory.wf [] = true := rfl
theorem Memory.wf_put {m : Tbl Byte} (a : Nat) (b : Byte) (h : Memory.wf m = true) : Memory.wf (Tbl.put m a b) = true :=
  Tbl.wf_put a b h
theorem Memory.wf_writeTbl (l : List Byte) : ∀ {m : Tbl Byte} (a : Nat), Memory.wf m = true → Memory.wf (writeTbl m a l) = true := by
  induction l with
  | nil => intro m a h; exact h
  | cons b l ih => intro m a h; exact ih (a + 1) (Memory.wf_put a b h)
theorem Memory.wf_filter {m : Tbl Byte} (p : Nat × Byte → Bool) (h : Memory.wf m = true) : Memory.wf (m.filter p) = true :=
  Tbl.wf_filter p h

theorem wfFrom_cells (l : List Byte) : ∀ (a : Nat), Tbl.wfFrom a (cells a l) = true := by
  induction l with
  | nil => intro a; rfl
  | cons b l ih =>
    intro a
    by_cases hb : b = 0
    · simp only [cells, hb, if_true]; exact Tbl.wfFrom_le (Nat.le_succ a) (ih (a + 1))
    · simp only [cells, hb, if_false, Tbl.wfFrom, Bool.and_eq_true, decide_eq_true_eq]
      exact ⟨⟨Nat.le_refl a, hb⟩, ih (a + 1)⟩
theorem cells_lt (l : List Byte) : ∀ (a : Nat) (x : Nat × Byte), x ∈ cells a l → x.1 < a + l.length := by
  induction l with
  | nil => intro a x h; simp [cells] at h
  | cons b l ih =>
    intro a x h
    by_cases hb : b = 0
    · simp only [cells, hb, if_true] at h; have := ih _ _ h; simp only [List.length_cons]; omega
    · simp only [cells, hb, if_false, List.mem_cons] at h
      rcases h with h | h
      · subst h; simp only [List.length_cons]; omega
      · have := ih _ _ h; simp only [List.length_cons]; omega
theorem Memory.wf_splice {m : Tbl Byte} (a n : Nat) (h : Memory.wf m = true) : Memory.wf (m.splice a n []) = true :=
  Tbl.wf_splice h rfl (by simp)
theorem Memory.wf_writeBlock {m : Tbl Byte} (a : Nat) (l : List Byte) (h : Memory.wf m = true) :
    Memory.wf (writeBlock m a l) = true :=
  Tbl.wf_splice h (wfFrom_cells l a) (cells_lt l a)

/-- A byte after a write of a run of bytes: the run's byte inside it, what was there before outside. -/
theorem get_writeTbl (l : List Byte) : ∀ (m : Tbl Byte) (a i : Nat), Tbl.get (writeTbl m a l) i =
    if a ≤ i ∧ i < a + l.length then l.getD (i - a) 0 else Tbl.get m i := by
  induction l with
  | nil => intro m a i; simp [writeTbl] <;> omega
  | cons b l ih =>
    intro m a i
    simp only [writeTbl, ih, Tbl.get_put, List.length_cons]
    by_cases h0 : i = a
    · subst h0; rw [if_neg (by omega), if_pos rfl, if_pos (by omega)]; simp
    · by_cases h1 : a + 1 ≤ i ∧ i < a + 1 + l.length
      · obtain ⟨j, rfl⟩ : ∃ j, i = a + 1 + j := ⟨i - (a + 1), by omega⟩
        have e : a + 1 + j - a = j + 1 := by omega
        have h2 : a ≤ a + 1 + j ∧ a + 1 + j < a + (l.length + 1) := by omega
        have e2 : a + 1 + j - (a + 1) = j := by omega
        rw [if_pos h1, if_pos h2, e, e2]; rfl
      · have h2 : ¬(a ≤ i ∧ i < a + (l.length + 1)) := by omega
        rw [if_neg h1, if_neg h2, if_neg h0]

/-- A byte of the state's memory. -/
theorem wr_mem (s : State) (a : Nat) (l : List Byte) (i : Nat) :
    (s.wr a l).mem.get i = if a ≤ i ∧ i < a + l.length then l.getD (i - a) 0 else s.mem.get i := get_writeTbl l s.mem a i
/-- Reading back what was written. -/
theorem rd_wr (s : State) (a : Nat) (l : List Byte) : (s.wr a l).rd a l.length = l := by
  unfold State.rd readTbl
  refine List.ext_getElem (by simp) ?_
  intro i h1 h2
  simp only [List.getElem_map, List.getElem_range, wr_mem]
  rw [if_pos (by omega)]
  simp [List.getD_eq_getElem?_getD, List.getElem?_eq_getElem h2]
theorem wr_wf {s : State} (a : Nat) (l : List Byte) (h : Memory.wf s.mem = true) : Memory.wf (s.wr a l).mem = true :=
  Memory.wf_writeTbl l a h

end Sys2Proof.Machine
end

