-- ==== Sys2Proof/Laws/Requests.lean ====
section
/-! SUPPORT. What a management request does once it is taken and nothing refuses it. -/
namespace Sys2Proof.Machine

/-- A request that Plowin takes, and that its function may make, is performed on the state with the request taken. -/
theorem pmi_go {h : Hdr} {code : Nat} {pf : Bool} {run : State → State} {s : State} (hr : pmiGo s h = true) (hp : pf = false ∨ h.fn = 0) :
    pmi h code pf run s = .next (run (taken h s)) := by
  simp only [Bool.and_eq_true, pmiGo, Option.isNone_iff_eq_none] at hr
  have hf : (pf && h.fn != 0) = false := by rcases hp with hp | hp <;> simp [hp]
  unfold pmi
  rw [if_neg (by simp [hr.1]), hr.2]
  simp only [hf, Bool.false_eq_true, if_false]
  rfl

/-- So is one that names a context which does not keep it from being performed. -/
theorem pmiCtx_go {h : Hdr} {code : Nat} {run : State → State} {s : State} (hr : ctxReady h s = true) :
    pmiCtx h code run s = .next (run (taken h s)) := by
  simp only [ctxReady, Bool.and_eq_true, Bool.not_eq_true', Option.isNone_iff_eq_none] at hr
  obtain ⟨⟨h1, h2⟩, h3⟩ := hr
  have h4 : ctxStatus (taken h s) h = none := h3
  unfold pmiCtx
  rw [if_neg (by simp [h2]), pmi_go h1 (.inl rfl), h4]

end Sys2Proof.Machine
end

