-- ==== Sys2Proof/Tests/Slice0.lean ====
section
/-! SUPPORT. Tests: an ill-formed command for each check of WellFormed, and for every statement with hypotheses a state and
operands that meet them, at a boundary of their range where they have one, and the spec's worked examples. -/
namespace Sys2Proof.Tests
open Sys2Proof.Machine
set_option Elab.async false

/-! ### WellFormed -/

/-- A number, a register, an address, a size, a predicate or an offset that its field cannot hold, for each check that a command's own
operands have. -/
theorem test_wf_refuses_operands : (
  [.mma {} 1025 0 0 0 false false 0, .mma {} 0 256 0 0 false false 0, .mma {} 0 0 256 0 false false 0, .mma {} 0 0 0 4 false false
   0, .mma {} 0 0 0 0 false false 4, .accRead {} false 64 none, .tseqWait {} 64 0, .tseqWait {} 0 64, .syncAdd {} 256,
   .syncResultReturn 1024 0 0, .syncResultReturn 0 48 0, .voteAll {} 8, .cut {} 65536, .conv {} 16 0 default, .conv {} 0 16
   default, .storeBufferDrain 1152, .haloPlace 0 4, .detailFetchReturn 0 65536, .governorTick 8 0 0 false [], .governorTick 0 256 0
   false [], .budgetTick 65536 0 [], .budgetTick 0 256 [], .quadIdleDrop 0 36, .tscTimeLowRead 1216, .tierFillComplete 0 64 0,
   .tierFillComplete 0 0 4, .tlbMissWalkStart 0 4096 0 0, .tlbMissWalkStart 0 0 (2 ^ 64) 0, .errFaultHeadWrite 64 0, .qdoorTail 0
   32 0 0, .qdoorTail 0 0 1024 0, .shareSet {} 65536 false none 0, .shareSet {} 0 false none 65536, .quotaSet {} 65536 none none,
   .tierConvert {} 65536 0 [], .counterAlloc {} (2 ^ 32) none false, .counterConfigure {} (2 ^ 32) 0, .queueDestroy {} 65536 0 false,
   .queueDestroy {} 0 65536 false, .parkDecide {} 65536 0 false, .parkDecide {} 0 65536 false, .mailboxConfig {} 0 65536 0 0,
   .mailboxConfig {} 0 0 0 (2 ^ 32), .shareGroupSet {} 65536 0 [], .selfTest {} 65536 0, .selfTest {} 0 65536, .powerCap {} 65536,
   .pcieLinkDown 2, .vfLeaveService 64, .portTrainingComplete 64 0 0, .packetForward 8 {}, .remoteRetry (2 ^ 32), .laneLockLoss 0
   9, .mgmtWatchdogTimeout 3, .engineInternalError 40, .hbmRetrain 14, .fatalEnter 256, .ringHeadWrite 0 3 0] : List Instr).all (fun c => !c.wf) = true := by decide +kernel
/-- The same for each check of what a command carries: an instruction's fields, errors of a plane step, a home's request, a unit, a
counter operation, meters, a header, a ring, a mapping, a queue, a packet, a register access. -/
theorem test_wf_refuses_parts : (
  [.intAdd { core := 1024 }, .intAdd { slot := 48 }, .intAdd { pc := 2 ^ 64 }, .intAdd { guard := some (8, true) }, .intAdd { dst := 256 }, .intAdd { a := .v 256 false }, .intAdd { b := .u 64 }, .intAdd { c := .u 64 }, .intAdd { regErr := 4 }, .intAdd {
   errReg := 256 }, .intAdd { rivals := [(48, 0)] }, .intAdd { rivals := [(0, 2 ^ 64)] }, .ld {} 3, .bra {} (2 ^ 31) 0, .bra {} 0
   (-(2 ^ 31) - 1), .accRead {} false 0 (some 8), .planeStep 0 { cells := [(64, 0, 0, 0)] }, .planeStep 0 { cells := [(0, 8, 0, 0)]
   }, .planeStep 0 { cells := [(0, 0, 32, 0)] }, .planeStep 0 { cksCol := [(64, 0)] }, .planeStep 0 { cksRow := [(32, 0)] },
   .planeStep 0 { residue := 3 }, .homeRequest { pa := 2 ^ 64 }, .homeRequest { len := 4097 }, .homeRequest { agent := 65536 },
   .homeRequest { core := 1153 }, .homeRequest { ctx := 4096 }, .segmentRemapStart (.segment 8 0 0), .segmentRemapStart (.segment 0
   64 0), .segmentRemapStart (.segment 0 0 128), .segmentRemapComplete (.frame 14 0), .unitRestartComplete (.engine 32),
   .unitRestartComplete (.ioDie 8), .unitRestartComplete (.hbm 14), .counterOp { op := 5 }, .counterOp { id := 2 ^ 32 }, .counterOp
   { ctx := 4096 }, .counterOp { src := 65536 }, .occupancySample [{ quad := some 288 }], .occupancySample [{ quad := some 0, bytes := [(0, 1)] }], .occupancySample [{ bytes := [(4096, 1)] }], .heartbeat { fn := 64 }, .heartbeat { ctx := 65536 }, .heartbeat {
   payAddr := 2 ^ 64 }, .heartbeat { odd := some 65536 }, .parkRingConfig {} { addr := 2 ^ 64 }, .parkRingConfig {} { tailAddr := 2
   ^ 64 }, .parkRingConfig {} { size := 2 ^ 32 }, .parkRingConfig {} { vector := 65536 }, .map {} { va := 2 ^ 64 }, .map {} { len := 2 ^ 64 }, .map {} { pa := 2 ^ 64 }, .map {} { region := 16 }, .map {} { pageSize := 16 }, .map {} { sset := 256 }, .map {} {
   host := 2 ^ 64 }, .tierConvert {} 0 0 [65536], .shareEval 3 0 0, .shareEval 0 8 0, .shareEval 2 0 8, .queueCreate {} { kind := 256 }, .queueCreate {}
   { inst := 256 }, .queueCreate {} { s := 256 }, .queueCreate {} { c := 256 }, .queueCreate {} { f := 256 }, .queueCreate {} {
   vector := 65536 }, .linkPacket 0 true false {}, .put 0 true { type := 256 }, .put 0 true { flits := 256 }, .put 0 true { vc := 4 },
   .put 0 true { hops := 256 }, .put 0 true { dst := 65536 }, .put 0 true { src := 65536 }, .put 0 true { sctx := 65536 }, .put 0
   true { dctx := 65536 }, .put 0 true { txn := 2 ^ 32 }, .put 0 true { len := 2 ^ 32 }, .put 0 true { addr := 2 ^ 64 }, .put 0
   true { data := zeros 4097 }, .put 0 true { bits := 256 }, .registerReadRefused { fn := some 64 }, .registerReadRefused { core := 1152 }, .registerReadRefused { size := 0 }, .registerReadRefused { size := 4097 }] : List Instr).all (fun c => !c.wf) = true := by decide +kernel
/-- The highest numbers that the fields hold. -/
theorem test_wf_admits_bounds : (
  [.mma { core := 1023, slot := 47, pc := 2 ^ 64 - 16, guard := some (7, true), dst := 255, a := .v 255 false, b := .u 63, regErr := 3, errReg := 255, rivals := [(47, 2 ^ 64 - 16)] } 1024 255 255 3 true true 3,
   .st {} 8, .bra {} (2 ^ 31 - 1) (-(2 ^ 31)),
   .planeStep 1151 { cells := [(63, 7, 31, 1)], cksCol := [(63, 1)], cksRow := [(31, 1)], residue := 2 },
   .homeRequest { pa := 2 ^ 64 - 1, len := 4096, agent := 65535, core := 1152, ctx := 4095 }, .segmentRemapStart (.segment 7 63 127), .map { fn := 63, ctx := 65535 } { va := 2 ^ 64 - 1, sset := 255 },
   .linkPacket 63 true false { credit := [0, 0, 0, 0] }, .put 63 true { type := 255, vc := 3, hops := 255, data := zeros 4096 }, .registerWrite { fn := some 63, core := 1151, size := 2 } 0 0] : List Instr).all Instr.wf = true := by decide +kernel

/-! ### States -/

/-- A group of 32 threads at address 0, 255 vector registers, 4 KiB of local store. -/
def grp : Group := { stage := .running, ctx := 1, vregs := 255, lsSize := 4096 }
/-- Its context's leaf: 1 GiB at address 0, all accesses, from the start of die 0. -/
def leaf : Leaf := { ctx := 1, va := 0, size := 2, entry := BitVec.ofNat 64 (State.reset.devId * 2 ^ 48 + 0x20F) }
/-- The group in slot 0 of logical core 0, which runs. -/
def run : State :=
  { State.reset with
    pwr := { State.reset.pwr with quads := [(0, { mode := .operating, mv := 550 })] }
    ctxs := [(1, { live := true })]
    groups := [(gKey 0 0, grp)]
    tier := { State.reset.tier with gran := [(0, { valid := true, owner := 1 })] }
    xl := { State.reset.xl with leaves := [leaf] } }
/-- An instruction of it whose operands are the highest registers. -/
def ins : Ins := { dst := 254, a := .v 254 true, b := .u 63, c := .imm 1 }
/-- On even pairs. -/
def wide : Ins := { dst := 252, a := .v 252 true, b := .u 62, c := .imm 1, is64 := true }
/-- Without a destination, with immediate sources. -/
def bare : Ins := { a := .imm 8, b := .imm 8, c := .imm 8 }

/-! ### Results of instructions -/

theorem test_IntegerArithmetic : ready ins (intShape ins) run = true ∧ ready wide (intShape wide) run = true ∧
    ready ins { srcs := [(ins.a, false), (ins.b, false)], dst := ins.dst } run = true ∧
    ready ins { srcs := [(ins.a, false), (ins.b, false), (ins.c, false)], dst := ins.dst } run = true := by decide +kernel

theorem test_IntegerShiftWideTest :
    ready ins { srcs := [(ins.a, ins.is64), (ins.b, false)], dst := ins.dst, dstWide := ins.is64 } run = true ∧
    ready wide { srcs := [(wide.a, wide.is64), (wide.b, false)], dst := wide.dst, dstWide := wide.is64 } run = true ∧
    ready wide { srcs := [(wide.a, false), (wide.b, false)], dst := wide.dst, dstWide := true } run = true ∧
    ready wide { srcs := [(wide.a, false), (wide.b, false), (wide.c, true)], dst := wide.dst, dstWide := true } run = true ∧
    ready { wide with dst := 7 } { srcs := [(wide.a, true), (wide.b, true)], ok := predOk 7 } run = true := by decide +kernel

theorem test_SinglePrecision : Rnd.rtz ≠ .sr ∧
    ready ins { srcs := [(ins.a, false), (ins.b, false)], dst := ins.dst } run = true ∧
    ready ins { srcs := [(ins.a, false), (ins.b, false), (ins.c, false)], dst := ins.dst } run = true ∧
    ready { ins with dst := 7 } { srcs := [(ins.a, false), (ins.b, false)], ok := predOk 7 } run = true ∧
    ready ins { srcs := [(ins.a, false)], dst := ins.dst } run = true := by decide +kernel

theorem test_DoublePrecision : ready wide { srcs := [(wide.a, true), (wide.b, true)], dst := wide.dst, dstWide := true } run = true ∧
    ready wide { srcs := [(wide.a, true), (wide.b, true), (wide.c, true)], dst := wide.dst, dstWide := true } run = true ∧
    ready { wide with dst := 0 } { srcs := [(wide.a, true), (wide.b, true)], ok := predOk 0 } run = true := by decide +kernel

theorem test_ConversionAndUniform :
    (convFmt 1 = true ∧ convFmt 0xD = true ∧ convRnd 0xD .sr = true ∧ ready wide { srcs := [(wide.a, true), (wide.b, false)], dst := wide.dst } run = true) ∧
    ready { wide with dst := 62 } { srcs := [(wide.a, true), (wide.b, true)], unis := [(62, true)] } run = true ∧
    ready { ins with dst := 63 } { srcs := [(ins.a, false)], unis := [(63, false)] } run = true ∧
    ready { ins with dst := 255 } { srcs := [(ins.a, false), (ins.b, false)], unis := [] } run = true ∧
    (ready { ins with dst := 63, a := .imm 4092 } { srcs := [(.imm 4092, false)], unis := [(63, false)] } run = true ∧
      4092 % 4 = 0 ∧ 4092 + 4 ≤ (insGroup ins run).lsSize) := by decide +kernel

theorem test_Cooperation : ready ins { srcs := [(ins.a, false), (ins.b, false)], dst := ins.dst } run = true ∧
    ready { ins with dst := 7 } { ok := predOk 7 } run = true ∧ ready ins { dst := ins.dst } run = true ∧
    ready ins { srcs := [(ins.a, false)], dst := ins.dst } run = true ∧ ready wide { dst := wide.dst, dstWide := true } run = true ∧
    ready wide { unis := [(62, true)] } run = true := by decide +kernel

/-! ### Memory instructions -/

/-- An aligned access at the end of local store, and one of memory. -/
def mem : Ins := { dst := 252, a := .imm 4088, b := .v 252 false }
/-- With a load of memory in the window. -/
def loading : State := run.onGroup (gKey 0 0) fun g => { g with
  win := [{ id := 5, lanes := 0x80000000, setm := 0x80000000, use := .load, ld := { part := 0x80000000, va := [(31, 4088)], dst := 3 } }] }

theorem test_LoadsAndLocalStore :
    (sizeOk 8 = true ∧ ready mem { srcs := [(mem.a, false)], dst := mem.dst, dstWide := true } run = true ∧
      ∀ l ∈ insPart mem {} run, ((insGroup mem run).src l mem.a).toNat % 8 = 0 ∧ ((insGroup mem run).src l mem.a).toNat + 8 ≤ (insGroup mem run).lsSize) ∧
    ready mem { early := false, srcs := [(mem.a, false), (mem.b, true)] } run = true ∧
    (ready mem { early := !loadLate mem run, srcs := [(mem.a, true)], dst := mem.dst, dstWide := true } run = true ∧
      ready mem { early := false, srcs := [(mem.a, true)], dst := mem.dst, dstWide := true } run = true ∧
      insPart mem {} run ≠ [] ∧ ∀ l ∈ insPart mem {} run, vaFits 8 (laneVa mem (insGroup mem run) l) = true) ∧
    (loading.phys 0 = some 0 ∧ loading.coreRuns 0 = true ∧ ∃ w, (loading.group (gKey 0 0)).win.find? (·.id = 5) = some w ∧
      w.use = .load ∧ w.fin = false ∧ olderLoad (loading.group (gKey 0 0)) w = false ∧ (loadAll 0 (gKey 0 0) w false loading).2.bad = []) := by
  refine ⟨by decide +kernel, by decide +kernel, by decide +kernel, by decide +kernel, by decide +kernel, _, rfl, ?_⟩
  decide +kernel

theorem test_StoresAndAtomics :
    (ready mem { early := false, srcs := [(mem.a, true), (mem.b, true)] } run = true ∧
      (∀ l ∈ insPart mem {} run, vaFits 8 (laneVa mem (insGroup mem run) l) = true ∧ walkPends run (insGroup mem run).lcore (insGroup mem run).ctx (laneVa mem (insGroup mem run) l) = false ∧
        ∃ pa rg, translate run (insGroup mem run).ctx (laneVa mem (insGroup mem run) l) needW = .ok pa rg) ∧
      (run.core (insCore mem run)).sb.length < 64) ∧
    (predOk 7 = true ∧ ready { mem with dst := 7 } { early := false, srcs := [(mem.a, true), (mem.b, true)] } run = true ∧
      drainLanes (insCore mem run) (insKey mem) (maskOf (insSet mem run)) run = (run, true)) ∧
    ready mem { early := false, srcs := [(mem.a, true), (mem.b, true), (mem.c, true)], dst := mem.dst, dstWide := true } run = true := by
  refine ⟨⟨by decide +kernel, fun l hl => ⟨?_, ?_, ?_⟩, by decide +kernel⟩, by decide +kernel, by decide +kernel⟩
  · revert l; decide +kernel
  · revert l; decide +kernel
  · exact ⟨_, _, rfl⟩

/-! ### Fences, sync instructions, the array -/

/-- With counter 1 of the context, and with a thread whose operation is finished. -/
def counting : State := { run with sync := { run.sync with ctrs := [(1, { alloc := true, owner := 1, value := 7 })] } }
def released : State := run.onGroup (gKey 0 0) fun g => { g with th := [(31, { pc := 16, sync := some { dst := 254, rd := 252, fin := true, value := 9 } })] }
/-- A sync instruction on counter 1. -/
def sync1 : Ins := { dst := 254, a := .imm 1, b := .imm 2, c := .imm 0 }

theorem test_FencesAndSync :
    drainLanes (insCore bare run) (insKey bare) (maskOf (insSet bare run)) run = (run, true) ∧ ready bare { early := false } run = true ∧
    remoteStores run ((insGroup bare run).slot, (insGroup bare run).launch, (insGroup bare run).gid) = false ∧
    (drainLanes (insCore sync1 counting) (insKey sync1) (maskOf (insSet sync1 counting)) counting = (counting, true) ∧
      ready sync1 { early := false, srcs := [(sync1.a, false), (sync1.b, true)], dst := sync1.dst } counting = true ∧
      vregOk (insGroup sync1 counting) 252 true = true ∧
      ∀ h : Shape, h = { early := false, srcs := [(sync1.a, false), (sync1.b, true)], dst := sync1.dst } →
        badIds sync1 1 (issOf sync1 h counting) = [] ∧ (syncLanes sync1 1 252 (issOf sync1 h counting) (issued sync1 h counting)).2 = []) := by
  refine ⟨by decide +kernel, by decide +kernel, by decide +kernel, by decide +kernel, by decide +kernel, by decide +kernel, ?_⟩
  intro h hh; subst hh; decide +kernel

theorem test_SyncResults : released.idRuns 0 = true ∧ (released.group (gKey 0 0)).stage = .running ∧ syncSet (released.group (gKey 0 0)) 16 = [31] ∧
    ∀ l ∈ syncSet (released.group (gKey 0 0)) 16, ∀ o, ((released.group (gKey 0 0)).thread l).sync = some o → o.fin = true ∧ o.dst ≤ 255 ∧ o.rd ≤ 255 := by
  have e : syncSet (released.group (gKey 0 0)) 16 = [31] := by decide +kernel
  refine ⟨by decide +kernel, by decide +kernel, e, fun l hl o ho => ?_⟩
  rw [e, List.mem_singleton] at hl
  subst hl
  have h2 : ((released.group (gKey 0 0)).thread 31).sync = some { dst := 254, rd := 252, fin := true, value := 9 } := by decide +kernel
  rw [h2, Option.some.injEq] at ho
  subst ho
  decide

/-- A tile program of one tile: I8 P, Q and an I32 result of one element, all in local store. -/
def desc : List Byte := (List.range 256).map fun i => match i with
  | 0 => 1 | 2 => 0x11 | 3 => 0x11 | 4 => 26 | 8 => 1 | 12 => 1 | 16 => 1 | 20 => 1
  | 33 => 4 | 49 => 8 | 81 => 12 | 92 => 0x10 | 93 => 64 | 96 => 255 | 97 => 255 | 98 => 255 | 99 => 255 | _ => 0
/-- Local store with the descriptor at 0, an I8 block at 1024 and a Q tile at 2048. -/
def store : Tbl Byte := writeTbl (writeTbl [] 0 desc) 1024 [0x11, 8, 0, 0, 0, 0, 0, 0, 1]
def array : State := run.onGroup (gKey 0 0) fun g => { g with ls := store }
/-- The group holds the array and a program is at work. -/
def prog : Prog := { desc := desc, started := true }
def holding : State := array.onCore 0 fun c => { c with holder := some 0, progs := [prog] }
/-- With a finished program not yet waited for. -/
def waited : State := array.onCore 0 fun c => { c with holder := some 0, doneProgs := [(0, 1)] }
def mmaIns : Ins := { a := .imm 1024, b := .imm 2048 }

theorem test_ArrayInstructions :
    (ready mmaIns { grp := true, srcs := [(mmaIns.a, false), (mmaIns.b, false)] } array = true ∧ arrayFree mmaIns true array = true ∧
      (mmaOperands (insGroup mmaIns array) 1 0x11 0x11 2 1024 2048).isSome = true) ∧
    (ready ins { grp := true, srcs := [], dst := ins.dst } array = true ∧ arrayFree ins true array = true ∧ bankBusy (array.core 0) true = false) ∧
    (ready bare { early := false, grp := true } waited = true ∧ arrayFree bare true waited = true ∧ (waited.core (insCore bare waited)).mq = []) ∧
    (ready bare { early := false, grp := true, srcs := [(.imm 0, false)] } array = true ∧ arrayFree bare false array = true ∧
      tseqReason (readTbl store 0 256) 0 4096 = none) ∧
    (ready bare { grp := true, unis := [(62, false), (63, false)] } waited = true ∧ arrayFree bare false waited = true ∧
      (waited.core 0).doneProgs = (0, 1) :: []) ∧
    ready bare { early := false, grp := true, srcs := [(bare.a, false), (bare.b, false), (bare.c, false)] } array = true := by decide +kernel

/-- One K-group of the instruction's operands in the array queue: not begun, fed, and updated. -/
def mma : Mma :=
  { pfmt := 0x11, qfmt := 0x11, accT := 2, g := 1, winId := 3, blocks := [[0x11, 8]], tiles := [[]] }
def queued (m : Mma) : State := array.onCore 0 fun c => { c with holder := some 0, mq := [m] }

theorem test_PlaneSteps : (feeding (queued mma) 0).isSome = true ∧
    (∀ l, l = mma.latchOf 0 0 → mma.failRows (mma.krun { g := 0 }) l {} 0 = [] ∧ mma.failCols (mma.krun { g := 0 }) l {} 0 = [] ∧
      mma.failRows (mma.krun { g := 0 }) l { cells := [(63, 7, 31, 1)] } 0 = [63] ∧ mma.failCols (mma.krun { g := 0 }) l { cells := [(63, 7, 31, 1)] } 0 = [31]) := by
  refine ⟨by decide +kernel, fun l hl => ?_⟩
  subst hl
  decide +kernel
theorem test_ArrayEvents :
    ((array.onCore 0 fun c => { c with switching := 1 }).core 0).switching ≠ 0 ∧
    (∃ m r, (queued { mma with runs := [{ step := 8 }] }).coreRuns 0 = true ∧ workOf ((queued { mma with runs := [{ step := 8 }] }).core 0) = some m ∧
      m.runs = [r] ∧ m.whole r = true ∧ bankRead ((queued { mma with runs := [{ step := 8 }] }).core 0) m = false ∧ r.retake = false) ∧
    (queued { mma with nextG := 1, fin := true }).coreRuns 0 = true ∧
    holderKey (queued { mma with nextG := 1, fin := true }) 0 = some (gKey 0 0) ∧
    olderThan ((queued mma).group (gKey 0 0)) 3 = false := by
  refine ⟨by decide +kernel, ⟨_, _, by decide +kernel, rfl, rfl, ?_⟩, by decide +kernel⟩
  decide +kernel
/-- A layered MMA whose block is owed its retake run, its detail planes staged. -/
def retaking : Mma :=
  { pfmt := 0x20, qfmt := 0x11, accT := 0, g := 1, retake := 2, lag := 4, nextG := 1, due := [0], blocks := [[0x20, 1, 1, 1]], tiles := [[]] }
theorem test_RetakeRun : feedOf ((queued retaking).core 0) = some retaking ∧ (queued retaking).coreRuns 0 = true ∧ retaking.runs.all retaking.whole = true ∧
    retaking.nextRetake = some 0 ∧ detailOf retaking 0 = some [] := by decide +kernel

/-! ### The tile sequencer -/

/-- The same program with one halo entry: one line of one byte, sent from 3584 and received at 3648, needed by tile 1. -/
def haloDesc : List Byte := (((desc.set 9 1).set 128 1).set 129 1 |>.set 130 1 |>.set 133 14 |>.set 136 64 |>.set 137 14 |>.set 140 1 |>.set 144 1 |>.set 148 1)
def haloProg : Prog := { desc := haloDesc, started := true }
/-- Two neighbouring cores whose groups exchange a halo: the neighbour has sent its region. -/
def exchange : State :=
  let n := (haloTo 0 (haloDesc.drop 128)).getD 0
  { holding with
    pwr := { holding.pwr with quads := (List.range 36).map fun q => (q, { mode := .operating, mv := 550 }) }
    groups := [(gKey 0 0, { grp with ls := store }), (gKey n 0, { grp with lcore := n, ls := store })]
    cores := [(0, { holder := some 0, progs := [haloProg] }),
      (startPhys n, { holder := some 0, progs := [{ haloProg with sends := [{ entry := 0, dest := 0, tag := 0, bytes := [7] }] }] })] }

theorem test_TileProgramEvents :
    (∃ g, holderRuns (array.onCore 0 fun c => { c with holder := some 0, progs := [{ desc := desc }] }) 0 = some (gKey 0 0, g) ∧
      (startable ((array.onCore 0 fun c => { c with holder := some 0, progs := [{ desc := desc }] }).core 0)).isSome = true) ∧
    (haloProg.started = true ∧ haloProg.d.haloCount = 1 ∧ haloTo 0 (haloProg.d.halo 0) ≠ none ∧ haloProg.sends = []) ∧
    (∃ g pr n q x, holderRuns exchange 0 = some (gKey 0 0, g) ∧ (exchange.core 0).progs.find? (awaits 0) = some pr ∧
      haloTo g.lcore (pr.d.halo 0) = some n ∧ exchange.phys n = some q ∧ senderOf exchange g g.lcore q (haloTag (pr.d.halo 0)) = some x ∧
      x.bytes.length = haloLines (pr.d.halo 0) * haloLine (pr.d.halo 0) ∧ betweenTiles (exchange.core 0) = true) := by
  refine ⟨⟨_, rfl, by decide +kernel⟩, by decide +kernel, ?_⟩
  exact ⟨_, _, _, _, _, rfl, rfl, rfl, rfl, rfl, by decide +kernel, by decide +kernel⟩
/-- The program with its only pass stored. -/
def finished : State := array.onCore 0 fun c => { c with holder := some 0, progs := [{ prog with tile := 1, ended := true }] }
theorem test_TileProgramComplete : ∃ g pr, holderRuns finished 0 = some (gKey 0 0, g) ∧ (finished.core 0).progs = [pr] ∧ pr.isOver (finished.core 0) = true ∧
    (finished.fab.reqs.any fun r => r.grp = some g.ident && r.win = 0 && r.pkt.type = 1) = false ∧ pr.stopAt = none ∧ halosDone g.lcore pr = true ∧ pr.storeBad = none :=
  ⟨_, _, rfl, rfl, by decide +kernel⟩

theorem test_TileFetch : ∃ x y, tq? holding 0 = some x ∧ x.pr.fetchPos x.c = some y ∧ x.pr.room y (passFill holding x y) = true ∧
    x.walks (· != needW) holding = false ∧ ctrlOf holding x y = none ∧ tseqRanges x needR holding (passRanges holding x y) = .ok ∧
    x.d.retakes = false ∧ x.d.op = 0 :=
  ⟨_, _, rfl, rfl, by decide +kernel, by decide +kernel, by decide +kernel, rfl, by decide +kernel, by decide +kernel⟩
def fetched : State := array.onCore 0 fun c => { c with holder := some 0, progs := [{ prog with buf := [{ ext := (1, 1, 1) }] }] }
theorem test_TilePass : ∃ x y rest, tq? fetched 0 = some x ∧ x.pr.buf = y :: rest ∧ x.d.haloCount = 0 ∧ x.pr.flight = [] ∧ x.g.stop = none ∧ x.c.mq.length < 4 ∧
    x.d.pLocal = true ∧ ∀ i < (passBlocks fetched x y).length, blkOk x.d.pf x.d.accT i ((passBlocks fetched x y).getD i []) = true :=
  ⟨_, _, _, rfl, rfl, by decide +kernel, rfl, rfl, by decide +kernel, by decide +kernel, by decide +kernel⟩
def storing : State := array.onCore 0 fun c => { c with holder := some 0, progs := [{ prog with flight := [{ ext := (1, 1, 1) }], pass := 1, tileExt := some (1, 1, 1) }] }
theorem test_TileStore : ∃ x y ys, tq? storing 0 = some x ∧ unstored x.c = y :: ys ∧ x.d.op = 0 ∧ x.walks (· = needW) storing = false ∧
    tseqRanges x needW storing (((storePieces x.d x.c (storing.launches.get x.g.launch).seed y (oldRow x y)).2.filter (Piece.far x.d)).map Piece.range) = .ok :=
  ⟨_, _, _, rfl, rfl, by decide +kernel, by decide +kernel, rfl⟩
/-- A K-loop under LATE whose block is owed a retake run; its detail planes number 0. -/
def detailing : State := fetched.onCore 0 fun c => { c with
  mq := [{ retaking with kloop := true, late := true, blocks := [[0x20, 1, 0, 0]] }], progs := [{ prog with flight := [{ ext := (1, 1, 1) }], pass := 1, tileExt := some (1, 1, 1) }] }
theorem test_TileDetail : ∃ x m, tq? detailing 0 = some x ∧ workOf (detailing.core 0) = some m ∧ m.kloop = true ∧ m.late = true ∧ m.due.contains 0 = true ∧
    m.ran.contains 0 = false ∧ blkStaged (m.blk 0) = false ∧ m.dbuf.get 0 = [] ∧ x.walks (· != needW) detailing = false ∧
    tseqRanges x needR detailing (detailSpans x.d (m.live.getD (64, 0, 0)).1 (m.blk 0)) = .ok :=
  ⟨_, _, rfl, rfl, by decide +kernel, by decide +kernel, by decide +kernel, by decide +kernel, by decide +kernel, rfl, by decide +kernel, rfl⟩
/-- Counts of a live launch on their way. -/
def counts : State := { run with cores := [(1151, { lmSent := [(5, {})], clipPend := [(5, 9)] })], launches := [(5, { live := true, clipT := 10 })] }
theorem test_TileCounts : counts.pwr.state ≠ .fatal ∧ (counts.core 1151).lmSent = [(5, {})] ∧ (counts.core 1151).clipPend = [(5, 9)] ∧
    (counts.launches.get 5).live = true ∧ (counts.launches.get 5).clipTot + 9 < (counts.launches.get 5).clipT := by decide +kernel

/-! ### Power and time -/

theorem test_GovernorAndCap : ({ run with pwr := { run.pwr with islands := true } } : State).pwr.islands = true ∧ run.pwr.state ≠ .fatal ∧
    quadDead run 7 35 = false ∧ ([0, 0, 0, 0, 0, 0, 0, run.pwr.cap].sum ≤ run.pwr.cap) ∧
    (({ run with pwr := { run.pwr with newCaps := [(400, 0)] } } : State).pwr.newCaps = (400, 0) :: [] ∧ 0 ≤ run.now) := by decide +kernel
/-- Quad 35 of die 7 in a mode. -/
def quad (m : QMode) (mv : Nat) : State := { State.reset with pwr := { State.reset.pwr with quads := [(287, { mode := m, mv := mv })] } }
theorem test_BudgetLending : (7 < 8 ∧ 35 < 36) ∧ ((quad .operating 550).quad 7 35).mode = .operating ∧ quadIdle (quad .operating 550) 7 35 = true ∧
    (quad .operating 550).pwr.state ≠ .fatal ∧ ((quad .dropping 550).quad 7 35).mode = .dropping ∧ ((quad .dropping 550).quad 7 35).lent = false ∧
    550 ≤ rampMv ((quad .ramping 550).quad 7 35) (quad .ramping 550).now ∧ rampMv ((quad .ramping 549).quad 7 35) (quad .ramping 549).now < 550 ∧
    ((quad .retention 450).quad 7 35).mode = .retention ∧ ((quad .waking 450).quad 7 35).mode = .waking := by decide +kernel
theorem test_DeviceTime : ({ run with tsc := { run.tsc with ref := false, slew := 5, drift := 4 } } : State).tsc.slew ≠ 4 ∧
    ({ run with tsc := { run.tsc with ref := false, slew := 4, drift := 4 } } : State).tsc.ref = false ∧
    ({ run with tsc := { run.tsc with ref := true } } : State).tsc.ref = true := by decide +kernel

/-! ### Homes, the tier, translation -/

/-- A bulk request of 128 B for the last line of the context's granule. -/
def req (k : HomeKind) (ctx : Nat) : HomeReq := { pa := 65408, kind := k, len := 128, ctx := ctx }
theorem test_HomeRequests : (req .bulkRead 1).remote = none ∧ zoneOf 65408 = .hbm 0 ∧
    mayEnter run 1 9 false 65408 = .stale ∧ mayEnter run 1 0 false 65536 = .denied ∧ mayEnter run 1 0 false 65408 = .ok ∧ fencedAt run 65408 = false ∧
    (∃ u, tierBegin 65408 false true run = some u) ∧ tierBegin 65408 true true run = none := by
  refine ⟨by decide +kernel, by decide +kernel, by decide +kernel, by decide +kernel, by decide +kernel, by decide +kernel, ?_⟩
  exact ⟨⟨_, rfl⟩, by decide +kernel⟩
/-- Slice 63 of die 7 with a bank that waits for its fill, a dirty victim, one in flight, a due segment and one that moves. -/
def slice1 (x : Slice) : State := { run with tier := { run.tier with slices := [(511, x)] } }
theorem test_TierEvents :
    (((slice1 { blocked := [(3, 1)], fill := [(3, 1)] }).slice (64 * 7 + 63)).blocked.get 3 = 0 + 1 ∧
      ((slice1 { blocked := [(3, 1)], fill := [(3, 1)] }).slice (64 * 7 + 63)).openWays.contains 0 = true) ∧
    (((slice1 { victims := [{ dirty := true }] }).slice 511).victims.find? (fun v => v.dirty && !v.flight)).isSome = true ∧
    (((slice1 { victims := [{ dirty := true, flight := true }] }).slice 511).victims.find? (·.flight)).isSome = true ∧
    (mute run 0 0 = false ∧ asleep run 0 = false) ∧
    (((slice1 { due := [127] }).slice 511).moving = none ∧ (spareFree (slice1 { due := [127] }) 511).isSome = true) ∧
    (((slice1 { moving := some (127, 31) }).slice 511).moving = some (127, 31) ∧ ((slice1 { moving := some (127, 31) }).slice 511).segs.get 127 = 0) ∧
    ((slice1 { target := some 0 }).slice 511).target = some 0 ∧ convDone (convWalk 511 (slice1 { target := some 0 })) 511 = true ∧
    storeOf run 65408 true = .hbm := by decide +kernel
theorem test_HbmEvents :
    (nStacks State.reset.variant = 12 ∧ (({ run with tier := { run.tier with hbms := [(11, { due := [0xEFFFF], retired := 65535 })] } } : State).tier.hbms.get 11).retired < 65536) ∧
    (({ run with tier := { run.tier with hbms := [(11, { moving := some 0xEFFFF })] } } : State).tier.hbms.get 11).moving = some 0xEFFFF ∧
    (({ run with tier := { run.tier with waits := [(128, 3, 0)] }, tsc := { run.tsc with time := 20000 } } : State).now = 20000) ∧
    (({ run with tier := { run.tier with dies := [(7, { stopped := true })] } } : State).tier.dies.get 7).fails = 0 := by decide +kernel

/-! ### Translation, counters, waits, fences -/

/-- A walk under way in die 0, whose replica of the context's tables leads to the leaf: the root names a table and its first
entry is the leaf. -/
def walking : State :=
  { run with
    xl := { run.xl with walks := [(0, [{ stream := 0, ctx := 1, va := 5, need := 8, busy := true }])] }
    mem := writeBlock (writeBlock [] (tabRoot run 0 1) (leBytes 8 (tabLink (tabBlock run 0 0)))) (tabBlock run 0 0) (leBytes 8 leaf.entry.toNat) }
theorem test_WalkStart : 0 = strmDie run.variant (strmOf 1023) ∨ strmOf 1023 ≠ .none_ ∧ (run.ctx 1).live = true ∧ run.pwr.state ≠ .fatal ∧
    ((run.xl.micro.get 1023).any (·.covers 1 (run.ctx 1).gen 65535)) = false ∧ walkPends run 1023 1 65535 = false ∧
    ((run.xl.die.get 7).find? (·.covers 1 (run.ctx 1).gen 65535)) = none := by decide +kernel
theorem test_WalkEnd : ∃ w l, (walking.xl.walks.get 0).find? (fun w => w.stream = 0 && w.busy) = some w ∧ genOk walking w.ctx w.gen = true ∧
    walkLeaf walking 0 w.ctx w.va = some l ∧ leafMalformed walking l = false ∧ l.entry.toNat &&& w.need = w.need := by
  refine ⟨{ stream := 0, ctx := 1, va := 5, need := 8, busy := true }, { ctx := 1, va := 0, size := 2, entry := leaf.entry }, ?_⟩
  decide +kernel
theorem test_FaultRing : headOk (0 : Word) 0 0 = true ∧ headOk (0 : Word) 1 0 = false ∧ genOk run 1 1 = false ∧ genOk run 1 0 = true ∧
    ((({ run with xl := { run.xl with stalls := [{ fn := 0, ctx := 1, seq := 4294967295 }] } } : State).xl.stalls.filter
      fun t => t.fn = 0 && t.ctx = 1 && t.gen == 0 && BitVec.ofNat 32 t.seq == 4294967295).length = 1) := by decide +kernel
theorem test_MappingChange : ∃ m, ({ run with xl := { run.xl with changes := [{ id := 4, ctx := 1, len := 65536 }] }, mgmt := { run.mgmt with ready := true } } : State).xl.changes.find? (·.id = 4) = some m ∧
    pinned run m = false ∧ oldAccess run m = false :=
  ⟨_, rfl, by decide +kernel⟩

theorem test_CounterOperations : isFenceId 1 = false ∧ idOk 1 = true ∧ idOk 131071 = true ∧ idOk 131072 = false ∧ (counting.sync.ctrs.get 1).owned = false ∧
    (counting.sync.ctrs.get 1).abandoned = false ∧ counting.sync.waits = [] ∧ genOk counting 1 0 = true ∧
    ctrAllowed counting (counting.sync.ctrs.get 1) 1 = true ∧ (7 : DWord).toNat ≤ (counting.sync.ctrs.get 1).value.toNat ∧ pageOwned counting 0 1 = true := by decide +kernel
/-- One wait past its deadline and queued, its counter unsatisfied. -/
def overdue : Wait := { lanes := 1, id := 1, cond := 0x10, value := 8, deadline := some 0 }
def deferredW : State := { counting with sync := { counting.sync with queued := [overdue] } }
/-- Fence 0 of context 1. -/
def fenced : State := counting.onCtx 1 fun x => { x with fenceTab := some (0, none) }
theorem test_WaitsWatchesFences :
    ((deferredW.sync.waits ++ deferredW.sync.queued)[0]? = some overdue ∧ 0 ≤ deferredW.now) ∧
    (deferredW.sync.queued.filter (fun w => ctrDie w.id = 0) = [overdue] ∧ entryCount (tableWaits deferredW 0) < 8192 ∧
      (deferredW.sync.waits.filter fun x => !x.fence && x.id = 1) = [] ∧ syncCond 0x10 (deferredW.sync.ctrs.get 1).value 8 = false) ∧
    (armedWatches counting 0 < 4096 ∧ syncCond 0x12 (counting.sync.ctrs.get 1).value 0 = true ∧ syncCond 0x11 (counting.sync.ctrs.get 1).value 8 = false) ∧
    (isFenceId 0x80010000 = true ∧ idOk 0x80010000 = true ∧ fenceAllowed fenced 0x80010000 1 = true ∧
      (fenced.sync.fences.get (fenceKey 0x80010000)).st = .unsignalled ∧
      ((fenced.onFence (fenceKey 0x80010000) fun f => { f with st := .signalled }).sync.fences.get (fenceKey 0x80010000)).st = .signalled) := by decide +kernel

/-! ### Queues and packets -/

/-- A queue of a compute engine whose ring holds one entry, in the context's memory. -/
def queueK : Nat := queueKey 0 0
def q0 : Queue := { live := true, ctx := 1, tail := 1, head := 0, resident := true, ring := 0, headAddr := 4096, cring := 8192, ctail := 4100, fail := 12288 }
def queued1 (f : Queue → Queue) : State :=
  { run with qs := [(queueK, f q0)], mem := writeBlock [] 0 [0, 0x20, 0, 0, 0, 0, 0, 0, 0x40], mgmt := { run.mgmt with ready := true } }
theorem test_Queues :
    (0 < 1024 ∧ 0 < 32) ∧ ((queued1 id).queue queueK).live = true ∧
    ((((queued1 id).queue queueK).tail + 15 - ((queued1 id).queue queueK).tail).toNat < 2 ^ 31 ∧ (((queued1 id).queue queueK).tail + 15 - ((queued1 id).queue queueK).head).toNat ≤ 2 ^ ((queued1 id).queue queueK).s) ∧
    queueReady (queued1 id) 0 queueK = true ∧ ((queued1 id).queue queueK).ent ≠ ((queued1 id).queue queueK).tail ∧
    (∃ b u, queueRead queueK (((queued1 id).queue queueK).ring + 16 * (((queued1 id).queue queueK).ent.toNat % 2 ^ ((queued1 id).queue queueK).s)) 16 (queued1 id) = .ok b u ∧ entryOk b = true) := by
  refine ⟨by decide +kernel, by decide +kernel, by decide +kernel, by decide +kernel, by decide +kernel, ?_⟩
  exact ⟨_, _, rfl, by decide +kernel⟩

/-- A packet of an opcode whose translation is to be repeated, at the end of a queue of an engine. -/
def pkt (op : Nat) (bytes : List Byte) : Pkt := { op := op, bytes := bytes, st := .waiting }
def taking (eng : Nat) (op : Nat) (bytes : List Byte) (s : State) : State :=
  { s with qs := [(queueKey eng 1023, { q0 with num := 1023, pkts := [pkt op bytes] })], mgmt := { s.mgmt with ready := true } }
/-- A finished packet whose record is due, and one without a record. -/
def done (b : Byte) : Pkt := { st := .done, bytes := [0, 1, b] }
/-- A write of a queue that can be made. -/
def wrote : QWrite → Bool | .ok _ => true | _ => false
def ending : State := queued1 fun x => { x with ent := 1 }
def recording : State := queued1 fun x => { x with pkts := [done 1] }
theorem test_SubmissionHead : (ending.queue queueK).finished ≠ (ending.queue queueK).head ∧ engineRuns ending 0 = true ∧
    wrote (queueWrites queueK [((ending.queue queueK).headAddr, leBytes 4 (ending.queue queueK).finished.toNat)] ending) = true := by decide +kernel
theorem test_PacketComplete : (done 0).records = false ∧ (done 1).records = true ∧ (recording.queue queueK).pkts = [done 1] ∧ (recording.engines.get 0).out = false ∧
    recordsHeld recording (recording.queue queueK) = false ∧ (recording.queue queueK).full = false ∧
    (recording.queue queueK).place (reportBytes (done 1) 16) = some 0 ∧
    wrote (queueWrites queueK (recordBytes recording (recording.queue queueK) (done 1) 0) recording) = true := by decide +kernel

/-- The packet is taken, and something holds of it and of the state then. -/
def goes (x : Nxt) (f : Pkt → State → Bool) : Bool := match x with | .go p u => f p u | _ => false
theorem test_ControlPackets :
    goes (pktTake 27 1023 0x00 (taking 27 0x00 [0, 1] run)) (fun _ _ => true) = true ∧
    goes (pktTake 27 1023 0x01 (taking 27 0x01 [1, 2, 0, 0, 0, 0, 0, 1, 8] run)) (fun p _ => p.f 8 8 % 8 = 0 && vaOk (p.f 8 8) && p.arg = 2 ^ 24) = true ∧
    goes (pktTake 27 1023 0x03 (taking 27 0x03 [3, 2] run)) (fun p _ => p.f 8 8 = 0) = true ∧
    goes (pktTake 27 1023 0x03 (taking 27 0x03 [3, 2, 0, 0, 0, 0, 0, 0, 8] run))
      (fun p u => p.f 8 8 = 8 && bulkCheck u (queueBulk u (u.queue (queueKey 27 1023))) 8 8 needW = none) = true ∧
    goes (pktTake 27 1023 0x04 (taking 27 0x04 ([4, 3, 0, 0, 1] ++ zeros 11 ++ [3]) counting)) (fun p u => p.f 16 1 = 3 && p.f 17 7 = 0 && counterId p.arg &&
      (match (syncOp (p.f 16 1) (engWait u (queueKey 27 1023) (u.queue (queueKey 27 1023)) p.arg (BitVec.ofNat 64 (p.f 8 8))) 0 u).2 with | .fin _ _ => true | _ => false)) = true ∧
    goes (pktTake 27 1023 0x05 (taking 27 0x05 ([5, 3, 0, 0, 1] ++ zeros 11 ++ [0x12, 0, 0, 0, 1]) counting))
      (fun p _ => condOk (p.f 16 1) && p.f 17 3 = 0 && idOk p.arg && !isFenceId p.arg) = true ∧
    goes (pktTake 27 1023 0x06 (taking 27 0x06 [6, 1, 0, 0, 0, 0, 1, 0x80] fenced))
      (fun p u => idOk p.arg && isFenceId p.arg && fenceAllowed u p.arg (u.queue (queueKey 27 1023)).ctx) = true := by decide +kernel

/-- A LAUNCH of one group on the first core of the die. -/
def launchPkt : List Byte := [0x10, 9, 0, 0, 1, 0, 0, 0] ++ zeros 24 ++ [1] ++ zeros 15 ++ [255, 0, 48, 0] ++ zeros 20
theorem test_Launch : goes (pktTake 0 1023 0x10 (taking 0 0x10 launchPkt run)) (fun p u => launchBad p = none &&
    (launchOf u 0 (queueKey 0 1023) { p with items := p.arg }).mask.any (fun i => (u.phys (lOf 0 i)).isSome) &&
    groupQuota u (u.queue (queueKey 0 1023)).ctx != some 0) = true := by decide +kernel
/-- COPY of 8 bytes from 8 to 16, PUT of the same, to device `d`. -/
def movePkt (op u d : Nat) : List Byte := [BitVec.ofNat 8 op, BitVec.ofNat 8 u, 0, 0] ++ zeros 4 ++ leBytes 8 8 ++ leBytes 8 16 ++ leBytes 8 8 ++ leBytes 2 d ++ zeros 14
def movesOk (s : State) (k : Nat) (ys : Except (Nat × Nat × Nat) (List XRow)) : Bool :=
  match ys with
  | .ok xs => !noWay s k xs && !xs.any (rowWaits s (queueBulk s (s.queue k))) && decide ((s.engines.get (k / 1024)).runsUsed + runsOf xs ≤ runStore)
  | .error _ => false
theorem test_Copy : goes (pktTake 8 1023 0x20 (taking 8 0x20 (movePkt 0x20 4 0) run)) (fun p u =>
    rowsOk (cutRows (some (p.f 8 8)) (p.f 16 8) (p.f 24 8)) && vaOk (p.f 8 8) && vaOk (p.f 16 8) &&
    movesOk u (queueKey 8 1023) (physRows u (u.queue (queueKey 8 1023)).ctx (cutRows (some (p.f 8 8)) (p.f 16 8) (p.f 24 8)))) = true := by decide +kernel
/-- With a route to device 4095. -/
def routed : State := { run with fab := { run.fab with ios := [(0, { routes := [(4095, 1)] })] } }
theorem test_RemoteMoves : goes (pktTake 24 1023 0x30 (taking 24 0x30 (movePkt 0x30 6 4095) routed)) (fun p u =>
      remoteBad u 24 (cutRows (some (p.f 8 8)) (p.f 16 8) (p.f 24 8)) (moveVa p) (moveOk p) (p.f 32 2) (p.f 36 1) = none && p.f 32 2 != u.devId &&
      (match physRows u (u.queue (queueKey 24 1023)).ctx ((cutRows (some (p.f 8 8)) (p.f 16 8) (p.f 24 8)).map fun r => { r with dst := 0 }) with
        | .ok ls => movesOk u (queueKey 24 1023) (.ok (farRows (cutRows (some (p.f 8 8)) (p.f 16 8) (p.f 24 8)) ls))
        | .error _ => false)) = true ∧
    goes (pktTake 24 1023 0x32 (taking 24 0x32 ([0x32, 4, 0, 0, 1] ++ zeros 11 ++ leBytes 2 4095 ++ leBytes 2 1 ++ [0x12, 0xFF]) routed)) (fun p u =>
      remoteBad u 24 [] true (condOk (p.f 20 1) && bodyZero p 22 2 && bodyZero p 28 4 && counterId p.arg) (p.f 16 2) (p.f 21 1) = none && p.f 16 2 != u.devId) = true := by
  decide +kernel

/-! ### Control flow, parks, the scheduler -/

theorem test_ControlFlow : ready bare {} run = true ∧ ready bare { early := false } run = true ∧
    (insGroup bare run).stop = none ∧ replayDue (issued bare { early := false } run) (insGroup bare run) (insPart bare { early := false } run) 0 = none ∧
    (∃ l ∈ (insGroup ins run).alive, l ∉ insPart { bare with guard := some (0, false) } {} run) ∧ (∀ l ∈ (insGroup bare run).alive, l ∈ insPart bare { early := false } run) ∧
    ready bare { early := false } (run.onGroup (gKey 0 0) fun g => { g with stop := some { why := .displaced, since := 0 } }) = true ∧
    ((run.core 0).holder = some 0 → (run.core 0).progs = []) ∧ run.idRuns 0 = true ∧
    ((run.onGroup (gKey 0 0) fun g => { g with slots := [{}] }).group (gKey 0 0)).slots = {} :: [] := by decide +kernel

def parking (pol : Nat) : State := run.onGroup (gKey 0 0) fun g => { g with faults := [{ cause := 3, policy := pol, lanes := 1, threads := 1 }] }
/-- The last line of the context's granule, to be drained. -/
def sbEntry : SbEntry := { line := State.reset.devId * 2 ^ 48 + 65408, bytes := [(127, 9)], mask := List.range 128, ctx := 1, region := .stream }
theorem test_ParksAndStoreDrains :
    ((parking 0).idRuns 0 = true ∧ parkable ((parking 0).group (gKey 0 0)) = some { cause := 3, policy := 0, lanes := 1, threads := 1 } ∧
      parkable ((parking 1).group (gKey 0 0)) = some { cause := 3, policy := 1, lanes := 1, threads := 1 }) ∧
    run.quadRuns 0 = true ∧ paDev sbEntry.line = run.devId ∧ zoneOf (paLocal sbEntry.line) = .hbm 0 ∧
    (∀ t ∈ sbEntry.tags, mayEnter run t.1 t.2 false (paLocal sbEntry.line) = .ok) ∧ fencedAt run (paLocal sbEntry.line) = false ∧
    sbEntry.region ≠ .normal ∧ holdersOf run (paLocal sbEntry.line) = [] ∧ tierBegin (paLocal sbEntry.line) true (decide (sbEntry.mask.length = 128)) run = none ∧
    (∀ o < 128, poisonAt (tierTouch (paLocal sbEntry.line) true (decide (sbEntry.cellsOf.length = 128)) run) (paLocal sbEntry.line + o) = false) := by decide +kernel

/-- Launch 5 of one group, on the last core of die 0, and the LC launch 6 of the group that runs on core 0. -/
def launch5 : Launch := { live := true, queue := queueKey 0 0, ctx := 1, groups := 1, mask := [127], vregs := 8, lsSize := 4096 }
def placing (l : Launch) : State :=
  { run with
    launches := [(5, l), (6, { live := true, queue := queueKey 0 1, ctx := 1, groups := 1, nextG := 1 })]
    groups := [(gKey 0 0, { grp with launch := 6 })]
    qs := [(queueKey 0 0, q0), (queueKey 0 1, { q0 with lc := true })]
    tsc := { run.tsc with time := 100001 } }
theorem test_Placement :
    (∃ c p i, engineRuns (placing launch5) 0 = true ∧ fixedLost (placing launch5) launch5 = false ∧ launch5.wants (placing launch5) = true ∧
      launch5.cores_.find? (fun c => fitsOn (placing launch5) launch5 5 c && !outranked (placing launch5) c (launchPrec (placing launch5) launch5) launch5.waitAt (· = 5) (fun _ => false)) = some c ∧
      (placing launch5).phys c = some p ∧ freeSlot (placing launch5) c = some i) ∧
    (fixedLost { placing { launch5 with fixed := true } with mesh := { run.mesh with map := [(lOf 0 127, some 0)] } } { launch5 with fixed := true } = true) ∧
    ((run.onGroup (gKey 0 0) fun g => { g with stage := .starting }).group (gKey 0 0)).stage = .starting ∧ run.coreRuns 0 = true ∧ earlierStarts run grp = false ∧
    (launchBusy (placing launch5) 5 = false ∧ launchStuck (placing { launch5 with mask := [] }) { launch5 with mask := [] } = some stCapacity) ∧
    (let l := { launch5 with mask := [0], lsSize := splitLs 0 }
     l.wants (placing l) = true ∧ l.roomAt + 100000 < (placing l).now ∧ l.deferG ≠ l.nextG + 1 ∧ l.cores_.find? (fitsOn (placing l) l 5) = none ∧ roomHeld (placing l) l 5 = true) := by
  refine ⟨⟨_, _, _, rfl, rfl, rfl, rfl, rfl, rfl⟩, ?_⟩
  decide +kernel

/-- Resident queues 0 to `n` - 1 of engine 27 and the pending queues 1022 and 1023, the last one of class LC. -/
def slots (n : Nat) : State :=
  { run with
    qs := (List.range n).map (fun i => (queueKey 27 i, { q0 with num := i, resAt := i, lc := decide (i ≠ 0) })) ++
      [(queueKey 27 1022, { q0 with resident := false, num := 1022 }), (queueKey 27 1023, { q0 with resident := false, num := 1023, lc := true, pendAt := some 63 })]
    tsc := { run.tsc with time := 2000063 } }
/-- An engine that worked for share group 15, whose only context has waiting work. -/
def sharing : State :=
  { run with
    ctxs := [(1, { live := true, share := some 15 })], engines := [(27, { total := 100, work := [(1, 49)] })]
    qs := [(queueKey 27 1023, { q0 with resident := false, num := 1023 })], mgmt := { run.mgmt with groupsG := [(15, some (50, []))], ready := true }
    tsc := { run.tsc with time := 1000000 } }
theorem test_ResidencyAndAccounting :
    (engineRuns (slots 63) 27 = true ∧ ((slots 63).queue (queueKey 27 1023)).pending = true ∧ bestPending (slots 63) 27 = some (queueKey 27 1023) ∧ (residentQs (slots 63) 27).length < 64) ∧
    (¬ (residentQs (slots 64) 27).length < 64 ∧ loserFor (slots 64) 27 (queuePrec (slots 64) (queueKey 27 1023)) = some (queueKey 27 0) ∧
      ((slots 64).queue (queueKey 27 1022)).pending = true ∧ bestPending (slots 64) 27 ≠ some (queueKey 27 1022)) ∧
    (waitedSince (slots 64) (queueKey 27 1023) + 2000000 ≤ (slots 64).now ∧ queueKey 27 1 ∈ residentQs (slots 64) 27 ∧
      queuePrec (slots 64) (queueKey 27 1) = queuePrec (slots 64) (queueKey 27 1023) ∧ ((slots 64).queue (queueKey 27 1)).resAt + 2000000 ≤ (slots 64).now ∧
      ∀ w ∈ residentQs (slots 64) 27, w ≠ queueKey 27 1 → queuePrec (slots 64) w = queuePrec (slots 64) (queueKey 27 1023) → ((slots 64).queue (queueKey 27 1)).resAt < ((slots 64).queue w).resAt) ∧
    (engOn sharing.variant 2 (ioOwner sharing.variant 3) 0 = 27 ∧ engOn sharing.variant 1 7 1 = 23 ∧ engineRuns sharing 27 = true ∧ (sharing.engines.get 27).evalAt + 1000000 ≤ sharing.now ∧ sharing.mgmt.newGroupsG = none ∧ shareTotal sharing 27 ≠ 0 ∧
      shareWaits sharing 27 15 = true ∧ shareWork sharing 27 15 * 100 < 50 * shareTotal sharing 27) ∧
    (sharing.mgmt.sampleAt + 1000000 ≤ sharing.now ∧ (liveCtxs sharing).Nodup) ∧
    (let s := sharing.onFn 63 fun x => { x with snapPer := 1, snapR := { x.snapR with on := true } }
     (s.fn 63).snapR.on = true ∧ (s.fn 63).snapPer ≠ 0 ∧ (s.fn 63).snapAt + 1000000 * (s.fn 63).snapPer ≤ s.now ∧ s.mgmt.ready = true) := by decide +kernel

/-- The group, of launch 6, with a stop pending; its threads stand at CUT `c` of the launch's table, which names entry 0. -/
def stopping (c : Option Nat) (f : Group → Group) : State :=
  { placing launch5 with
    launches := [(6, { live := true, queue := queueKey 0 0, ctx := 1, groups := 1, nextG := 1, cut := 64 })]
    groups := [(gKey 0 0, f { grp with launch := 6, stop := some { why := .displaced, since := 0 }, th := (List.range 32).map fun l => (l, { cut := c }) })]
    mem := writeBlock [] 64 [1], tsc := { run.tsc with time := 1000000 }, mgmt := { run.mgmt with ready := true } }
/-- Its full state, saved. -/
def saved : State := { stopping none id with groups := [], saved := [{ grp with launch := 6 }] }
/-- A group of an LC launch that the holder has blocked. -/
def blockedArr : State :=
  let s := placing launch5
  { s with groups := [(gKey 0 0, { grp with launch := 6, arrBlock := some 90000 }), (gKey 0 1, { grp with launch := 5, slot := 1 })], cores := [(0, { holder := some 1 })] }
theorem test_StopsAndSaves :
    ((stopping (some 0) id).idRuns 0 = true ∧ inFlight (stopping (some 0) id) ((stopping (some 0) id).group 0) = false ∧
      (liveAt (stopping (some 0) id) ((stopping (some 0) id).group 0)).isSome = true) ∧
    (liveAt (stopping (some 1) id) ((stopping (some 1) id).group 0) = none ∧ cutWithout (stopping (some 1) id) ((stopping (some 1) id).group 0) = true) ∧
    (((stopping none fun g => { g with stage := .parked }).group 0).stage = .parked ∧ 0 + 1000000 ≤ (stopping none id).now ∧
      ((stopping none id).ctx 1).inReset = false ∧ resetWaits (stopping none id) 1 1 ((stopping none id).ctx 1).snap = false) ∧
    (saved.phys 0 = some 0 ∧ (saved.group 0).stage = .empty ∧ saved.coreRuns 0 = true ∧ ctxRuns saved 1 = true ∧
      fitsOn saved (saved.launches.get 6) 6 0 = true ∧ (saved.core 0).split = (saved.launches.get 6).split ∧
      outranked saved 0 (groupPrec saved { grp with launch := 6 }) 0 (fun _ => false) (fun x => x.ident = Group.ident { grp with launch := 6 }) = false) ∧
    ((blockedArr.core 0).holder = some 1 ∧ 90000 + 10000 < blockedArr.now ∧ 1 ≤ groupPrec blockedArr (blockedArr.group (gKey 0 0)) ∧
      groupPrec blockedArr (blockedArr.group (gKey 0 1)) < groupPrec blockedArr (blockedArr.group (gKey 0 0)) ∧
      saveRoom blockedArr 0 [blockedArr.group (gKey 0 1)] = true ∧ (blockedArr.group (gKey 0 1)).stage = .running) := by decide +kernel

/-! ### The management interface -/

/-- A link and the management firmware are up, and function 0 has one request in its ring; a change of the state beside that. -/
def asked (f : State → State) : State :=
  f { run with
    pcie := [(0, { up := true, serving := true, cfgSet := true })], mgmt := { run.mgmt with ready := true }
    fns := [(0, { run.fn 0 with reqBase := 1, reqTail := 1 })], tsc := { run.tsc with time := 1000000000 } }
/-- Its header: it names context 1. -/
def hdr : Hdr := { ctx := 1 }
theorem test_ContextRequests :
    (pmiGo (asked id) hdr = true ∧ (23 : BitVec 8).toNat < 32 ∧ (23 : BitVec 8).toNat / 8 % 4 ≠ 3 ∧ cfgMissing (asked id) = false ∧
      under ((liveCtxs (asked id)).filter fun c => ((asked id).ctx c).fn = 0).length ((asked id).fn 0).qCtxs = true ∧ freeCtx (asked id) = some 0) ∧
    ctxReady hdr (asked id) = true ∧ resetWaits (asked id) 1 0 (snapBuf 0 0) = false ∧ resetWaits (asked id) 1 0 (snapBuf (2 ^ 64 - 4096) 0) = false ∧
    (((asked id).onCtx 1 fun x => { x with inReset := true }).ctx 1).inReset = true ∧
    (pmiGo (asked fun s => s.onCtx 1 fun x => { x with badClaim := some 0 }) hdr = true ∧
      ∀ t0, ((asked fun s => s.onCtx 1 fun x => { x with badClaim := some 0 }).ctx 1).badClaim = some t0 → t0 + 1000000000 ≤ (asked fun s => s.onCtx 1 fun x => { x with badClaim := some 0 }).now) := by
  refine ⟨by decide +kernel, by decide +kernel, by decide +kernel, by decide +kernel, by decide +kernel, by decide +kernel, fun t0 h => ?_⟩
  have e : ((asked fun s => s.onCtx 1 fun x => { x with badClaim := some 0 }).ctx 1).badClaim = some 0 := by decide +kernel
  rw [e, Option.some.injEq] at h
  subst h
  decide +kernel

/-- A page of free HBM, and one that replaces the leaf. -/
def mapReq : MapReq := { va := 2 ^ 52 - 65536, len := 65536, pa := 131072 }
def mapOver : MapReq := { len := 1073741824, device := some 65534, pageSize := 2 }
theorem test_MappingRequests :
    (mapOk (taken hdr (asked id)) hdr mapReq = true ∧ mapRefusal (taken hdr (asked id)) 1 mapReq = none ∧ overLeaves (asked id) 1 mapReq.va mapReq.len = []) ∧
    (mapOk (taken hdr (asked id)) hdr mapOver = true ∧ mapRefusal (taken hdr (asked id)) 1 mapOver = none ∧
      overLeaves (asked id) 1 0 (2 ^ 30) = [leaf] ∧ (overLeaves (asked id) 1 0 (2 ^ 30)).all (covered 0 (2 ^ 30)) = true) ∧
    (((asked id).ctx 1).live = true ∧ ((asked id).ctx 1).fn = 0) ∧
    maskSlices 0x8000000000000001 = [0, 63] ∧ pinMapped (taken hdr (asked id)) (64 * 7 + 63) 17 = false ∧ pinMapped (taken hdr (asked id)) (64 * 7 + 63) 0 = false := by decide +kernel

theorem test_ObjectRequests :
    (overQuota (taken hdr (asked id)) 1 16 (ctrsOf (taken hdr (asked id))) ((asked id).ctx 1).qCtrs ((asked id).fn 0).qCtrs = false) ∧
    (∀ i ∈ ctrGroup 131056, ((asked id).sync.ctrs.get i).alloc = false) ∧
    (let s := asked fun s => s.onSync fun y => { y with ctrs := (List.range 16).map fun i => (131056 + i, { alloc := true, owner := 1 }) }
     ctxReady hdr s = true ∧ ∀ i ∈ ctrGroup 131056, ctrStatus s hdr i = none) ∧
    (queueOk { kind := 2, inst := 3, s := 16, c := 4, f := 30, vector := 2047 } = true ∧ engNamed (asked id) 2 3 = true ∧ freeQueue (asked id) 27 = some 0 ∧
      overQuota (taken hdr (asked id)) 1 1 (queuesOf (taken hdr (asked id))) ((asked id).ctx 1).qQueues ((asked id).fn 0).qQueues = false) ∧
    (let s := asked fun s => { s with qs := [(queueKey 27 1023, { q0 with num := 1023 })] }
     ctxReady hdr s = true ∧ (s.queue (queueKey 27 1023)).drain = false ∧ (s.queue (queueKey 27 1023)).live = true ∧ (s.queue (queueKey 27 1023)).ctx = 1) ∧
    (let g : Group := { grp with stage := .parked, park := some { cause := 3 } }
     decidable_ 1 0 0 g = true ∧ ctxReady hdr (asked fun s => { s with groups := [], saved := [g] }) = true ∧
     ((asked fun s => { s with groups := [], saved := [g] }).saved.find? (decidable_ 1 0 0)).isSome = true ∧
     decidable_ 1 0 0 ((asked fun s => { s with groups := [], saved := [g] }).group (gKey 0 0)) = false) ∧
    (255 + 1 ≤ 256 ∧ vaOk (4096 + 64 * 1 - 1) = true ∧ counterId 1 = true) := by decide +kernel

theorem test_RingAndMailboxRequests : ringOk { size := 64 } = true ∧ ringOk { size := 65536, vector := 2047 } = true ∧
    ((asked id).fn 0).ring .fault = {} ∧ (0x8000 : DWord).toNat / 2 ^ 12 % 16 ≤ 8 ∧ 8 < (0x9000 : DWord).toNat / 2 ^ 12 % 16 ∧
    ((0 : Word) - ((asked id).fn 0).rspHead).toNat < 2 ^ 31 ∧ (((asked id).fn 0).rspTail - (0 : Word)).toNat < 2 ^ 31 ∧
    2 ^ 31 ≤ ((0x80000000 : Word) - ((asked id).fn 0).rspHead).toNat ∧
    (let s := asked fun s => s.onFn 0 fun x => { x with mail := [(255, some (1, 65472, 1))] }
     (s.fn 0).mail.get ((0x7FC0 - 0x4000) / 64) = some (1, 65472, 1) ∧ bulkCheck s (hostBulk s 1) 65472 64 needW = none) ∧
    (((asked id).ctx 1).orphanedAt = none ∧ shareDefs (asked id) = []) ∧
    ((((shareDefs (asked id)).filter fun (k, _) => k != 15).map fun (_, x) => match x with | some (g, _) => g | none => 0).sum + 90 ≤ 90) := by decide +kernel

theorem test_ServiceRequests :
    (pmiGo (asked id) {} = true ∧ testBad (asked id) 1 1151 = none ∧ testBad (asked id) 2 7 = none ∧
      (({ asked id with cores := [(1151, { fenced := true })] } : State).core 1151).fenced = true) ∧
    (let s := asked fun s => { s with mgmt := { s.mgmt with tests := [{ h := {}, target := 2, unit := 0, cur := some 5 }, { h := {}, target := 0, unit := 3, next_ := 1 }] } }
     s.mgmt.tests = [{ h := {}, target := 2, unit := 0, cur := some 5 }] ++ ({ h := {}, target := 0, unit := 3, next_ := 1 } : SelfTest) :: [] ∧
     (testCores s { h := {}, target := 0, unit := 3, next_ := 1 }).length ≤ 1) ∧
    (liveCtxs { asked id with ctxs := [] } = [] ∧ minCap ≤ tdp (asked id).variant) ∧
    (let s := asked fun s => { s with mgmt := { s.mgmt with staged := true, stagedUc := true } }
     2 ≤ mgmtCores s ∧ s.mgmt.staged = true ∧ s.mgmt.commitAt = none ∧ s.mgmt.ucDies = [] ∧ (List.range 8).filter [7, 0].contains = 0 :: [7]) ∧
    (({ asked id with mgmt := { (asked id).mgmt with ucDies := [7], ucReq := some {} } } : State).mgmt.ucDies = 7 :: []) ∧
    (1000000000 ≤ (asked id).now) := by decide +kernel

/-! ### The host, registers, supplies, spares -/

/-- Both links down for 100 ms; the context orphaned for its time. -/
def hostGone : State :=
  { run with
    pcie := [(0, { downAt := some 0 })], fns := [(63, { run.fn 63 with beat := some 0 })], tsc := { run.tsc with time := 10000000000 }
    ctxs := [(1, { live := true, orphan := 2, orphanTime := 10, orphanedAt := some 0 })], mgmt := { run.mgmt with ready := true } }
/-- Beside two links that are up. -/
def linked (f : State → State) : State :=
  f { asked id with pcie := [(0, { up := true, serving := true, lo := 3, hi := 5 }), (1, { up := true })], pwr := { run.pwr with islands := true, steps := 6, perst := [(0, true), (1, true)] } }
theorem test_HostLoss :
    (bothGone hostGone = true ∧ beatLost hostGone 63 = true ∧ (hostGone.ctx 1).resetAt = 0 ∧ 0 + 1000000000 * 10 ≤ hostGone.now ∧
      resetWaits hostGone 1 2 (hostGone.ctx 1).snap = false) ∧
    (((linked id).pcie.get 1).up = true ∧ ((linked id).pcie.get 1).serving = false ∧ ((linked id).pcie.get 1).upAt + 1000000000 ≤ (linked id).now) ∧
    (((linked fun s => s.onPci 1 fun x => { x with up := false }).pcie.get 1).up = false ∧ (linked id).pwr.perst.get 1 = true ∧ (linked id).tsc.ref = true ∧
      ((linked id).tier.dies.get (ioOwner (linked id).variant 1)).fenced = false) := by decide +kernel

/-- A page of the context mapped into BAR2 from offset 4096 on. -/
def window : State := linked fun s => { s with xl := { s.xl with maps := [{ ctx := 1, len := 65536, bar2 := some 65536 }] } }
theorem test_HostAccesses :
    (2 ^ 30 ∈ bar2Sizes ∧ 2 ^ 30 ≤ bar2Max run.variant) ∧
    (bar2Hit window 1 0 131064 8 = true ∧ 131064 % 4096 + 8 ≤ 4096 ∧ bar2Map window 0 131064 = some (1, 65528) ∧ bar2Bad window 1 65528 8 needR = none ∧
      (bulkRd window { ctx := 1, gen := (window.ctx 1).gen } 65528 8).2 = [] ∧ bar2Bad window 1 65528 8 needW = none ∧ 131064 % 512 + 8 ≤ 512) ∧
    (bar2Hit window 1 0 131072 8 = true ∧ bar2Map window 0 131072 = none) ∧ bar0Own run 63 0x3FFFFF8 = false ∧
    (((linked id).pcie.get 0).up = true ∧ ¬ (3 ≤ (2 : BitVec 8).toNat ∧ (2 : BitVec 8).toNat ≤ 5) ∧ trusted (linked id) 0 5 = true) := by decide +kernel

theorem test_FatalAndErrorRing :
    (({ run with mgmt := { run.mgmt with running := true } } : State).mgmt.running = true ∧ run.pwr.state ≠ .fatal) ∧
    (({ linked id with err := { run.err with copying := true } } : State).err.copying = true ∧ anyLink (linked id) = true) ∧
    (regsMay ({ linked id with pwr := { (linked id).pwr with state := .fatal } }) = true) ∧
    ((0xA000 : DWord).toNat / 2 ^ 12 % 16 ≤ 10 ∧ 10 < (0xB000 : DWord).toNat / 2 ^ 12 % 16) ∧
    ((0x7FFFFFFF : Word) - (linked id).err.head).toNat < 2 ^ 31 ∧ ¬ ((linked id).err.tail - (0x7FFFFFFF : Word)).toNat < 2 ^ 31 := by decide +kernel

/-- An access of the error ring's registers, which are of 4 bytes at their upper half too. -/
def acc (f : Option Nat) (pa size : Nat) : RegAcc := { fn := f, pa := pa, size := size }
theorem test_RegisterAccesses :
    (accMay (linked id) (acc (some 0) eringPa 8) = true ∧ (regAt (linked id) (eringPa / 8 * 8)).isSome = true ∧ ownReg (linked id) 0 ((regAt (linked id) eringPa).getD .tscHi) = true ∧ eringPa % 8 = 0) ∧
    ((regAt (linked id) ((eringPa + 4) / 8 * 8)).isSome = true ∧ (eringPa + 4) % 8 = 4) ∧
    (regSized eringPa 2 = false ∧ accMay (linked id) (acc (some 63) eringPa 8) = true ∧ ownReg (linked id) 63 ((regAt (linked id) eringPa).getD .tscHi) = false) ∧
    (regSized 32764 4 = true ∧ 32764 + 4 ≤ 32768) ∧
    (readRefused (linked id) (acc none eringPa 2) = true ∧ accMay (linked id) { acc none eringPa 2 with core := 1151 } = true) ∧
    (((17 : Word) - ((asked id).fn 0).reqTail).toNat < 2 ^ 31 ∧ ¬ ((17 : Word) - ((asked id).fn 0).reqHead).toNat ≤ pmiSize ((asked id).fn 0).reqBase ∧
      ((16 : Word) - ((asked id).fn 0).reqHead).toNat ≤ pmiSize ((asked id).fn 0).reqBase) := by decide +kernel

/-- A step of the supply sequence. -/
def supply (st : ModSt) (n : Nat) (f : State → State) : State :=
  f { State.reset with pwr := { State.reset.pwr with state := st, steps := n }, mgmt := { State.reset.mgmt with running := true } }
theorem test_SupplySequence :
    ((supply .boot 1 fun s => { s with pwr := { s.pwr with aux := false } }).pwr.aux = false) ∧
    ((supply .boot 1 id).pwr.aux = true ∧ (supply .boot 1 id).mgmt.bothBad = false ∧ (mgmtIn (supply .boot 1 id)).head? = some 0) ∧
    ((supply .standby 2 id).pwr.mainOn = true ∧ (supply .protect 2 fun s => { s with pwr := { s.pwr with v48 := true } }).pwr.v48 = true ∧
      ((supply .protect 2 fun s => { s with pwr := { s.pwr with v48lost := some 0 }, tsc := { s.tsc with time := 1000000000 } }).pwr.v48lost = some 0) ∧
      0 + 1000000000 ≤ (supply .protect 2 fun s => { s with tsc := { s.tsc with time := 1000000000 } }).now) ∧
    ((supply .starting 4 id).pwr.steps = 4 ∧ 11 < nStacks (supply .starting 4 id).variant) ∧
    ((supply .starting 5 fun s => { s with pwr := { s.pwr with islands := true }, fab := { s.fab with ios := [(3, { refclk := true })], ports := [(31, { enable := true })] } }).port 31).enable = true ∧
    (supply .starting 6 id).mgmt.running = true ∧ (supply .ready 7 fun s => { s with pwr := { s.pwr with sw := true } }).pwr.sw = true := by decide +kernel

theorem test_SidebandAndClocks : (minCap ≤ 1200 ∧ 3000 ≤ tdp run.variant ∧ 1199 < minCap ∧ tdp run.variant < 3001) ∧
    ((supply .boot 1 fun s => { s with mgmt := { s.mgmt with bothBad := true } }).mgmt.bothBad = true) ∧
    (3 < nIo run.variant ∧ (({ run with fab := { run.fab with ios := [(3, { refclk := false })] } } : State).fab.ios.get 3).refclk = false) ∧ run.pwr.vrSpare.get 7 = false ∧
    ({ run with pwr := { run.pwr with vrSpare := [(7, true)] } } : State).pwr.vrSpare.get 7 = true := by decide +kernel

/-- A swap of logical core 0 to stand-in 24. -/
def swapping (x : Bool × Nat) : State := { run with mgmt := { run.mgmt with ready := true }, mesh := { run.mesh with swaps := [(0, some (24, x))] } }
theorem test_Swaps :
    (mgmtWorks (swapping (false, 0)) = true ∧ chooseStandin run 0 false = some 24 ∧ run.mesh.swaps.get 0 = none) ∧
    ((swapping (false, 0)).mesh.swaps.get 0 = some (24, false, 0) ∧ (swapping (false, 0)).phys 0 = some 0 ∧ ((swapping (false, 0)).core 24).fenced = false) ∧
    ((swapping (true, 0)).mesh.swaps.get 0 = some (24, true, 0) ∧ keepsR21 (swapping (true, 0)).mesh 0 24 = true ∧ ((swapping (true, 0)).core 0).sb = [] ∧
      drained { swapping (true, 0) with groups := [] } 0 = true) ∧
    (logOf run.mesh 27 = none ∧ (chosen (swapping (true, 0))).contains 27 = false ∧ (run.core 27).fenced = false) ∧
    ((({ run with cores := [(27, { fenced := true })] } : State).core 27).fencedByTest = false ∧ (run.tier.dies.get (pDie 27)).fenced = false) := by decide +kernel

/-! ### Watchdogs, the fabric -/

/-- Management core `a` is the active one, core 1 the standby; a switch-over from core 2 awaits its commit. -/
def roles (a : Nat) (commit : Bool) : State :=
  { run with mgmt := { run.mgmt with running := true, ready := true, active := a, standby := 1, commitAt := if commit then some 5 else none, formerActive := if commit then some 2 else none } }
theorem test_WatchdogsAndRestarts :
    ((run.tier.dies.get 7).fenced = false ∧ (run.tier.dies.get 7).stopped = false ∧ pDie 1151 = 7 ∧ (run.core 1151).fenced = false) ∧
    (((roles 0 false).mgmt.cores.get 0).ok = true ∧ (roles 0 false).mgmt.commitAt = none ∧ ((roles 0 false).mgmt.cores.get 1).ok = true ∧
      (roles 0 true).mgmt.commitAt.isSome ∧ (roles 0 true).mgmt.formerActive = some 2 ∧ ((roles 0 true).mgmt.cores.get 2).ok = true) ∧
    (∀ i < 3, i ≠ 0 → (({ roles 0 false with mgmt := { (roles 0 false).mgmt with cores := [(1, { ok := false }), (2, { ok := false })] } } : State).mgmt.cores.get i).ok = false) ∧
    engineRuns run 27 = true ∧ (3 < nIo run.variant ∧ (run.fab.ios.get 3).out = false) ∧
    (11 < nStacks run.variant ∧ (({ run with tier := { run.tier with hbms := [(11, { trained := true, out := true })] } } : State).tier.hbms.get 11).trained = true) ∧
    (let s := { run with engines := [(27, { out := true })], fab := { run.fab with ios := [(3, { out := true })] } }
     (s.engines.get 27).out = true ∧ ucPause s 27 = false ∧ (s.tier.dies.get (engDie s.variant 27)).fenced = false ∧ (s.fab.ios.get 3).out = true ∧ (s.tier.dies.get (ioOwner s.variant 3)).fenced = false) := by decide +kernel

/-- Device 1 behind the last port, which has a route to device 2, and a packet on its way there. -/
def onPort31 (p : FPort) : State := { run with fab := { run.fab with ports := [(31, p)], ios := [(3, { routes := [(2, 0x80000000)] })] }, tsc := { run.tsc with time := 100000000 } }
def upPort : FPort := { st := .up, lanes := 8, spare := true, peer := 1, wantL := 65535 }
theorem test_PortsAndLanes :
    (31 < nPorts run.variant ∧ trains (onPort31 { badLanes := [8], st := .training }) 31 = true ∧ (1 : BitVec 16) ≠ (onPort31 {}).fab.devId) ∧
    (((onPort31 upPort).port 31).isUp = true ∧ ([0, 0, 0, 0] : List (BitVec 16)).length = 4) ∧
    ((if ([] : List FPkt).length < (onPort31 { upPort with failsN := 15 } |>.port 31).replay.length then 1 else (onPort31 { upPort with failsN := 15 } |>.port 31).failsN + 1) = 16) ∧
    (((onPort31 { st := .training, lossAt := some 0 }).port 31).lossAt = some 0 ∧ 0 + 100000000 ≤ (onPort31 {}).now) ∧
    (((onPort31 { upPort with badLanes := [8, 0] }).port 31).badLanes.contains 7 = false) ∧
    (((onPort31 { upPort with badLanes := [8, 0], moving := true }).port 31).moving = true) ∧
    (((onPort31 { upPort with st := .upDegraded, badLanes := [8] }).port 31).badLanes.contains 8 = true) := by decide +kernel

def transit : FPkt := { type := 1, flits := 2, hops := 63, dst := 2, src := 1, len := 1, data := [7] }
/-- Leaving the device, and in the receive buffer of a port. -/
def sending (k : FPkt) : State := { onPort31 upPort with fab := { (onPort31 upPort).fab with out := [k] } }
theorem test_RoutingAndTime :
    (whereAt (sending transit) 3 transit = some none ∧ whereAt (onPort31 { upPort with rx := [transit] }) 3 transit = some (some 31) ∧ transit.dst ≠ run.devId ∧
      (List.range (nPorts run.variant)).filter (fun j => (((sending transit).fab.ios.get 3).routes.get transit.dst).toNat.testBit j) = [31] ∧
      canSend ((sending transit).port 31) transit = true ∧ reqOf (sending transit) transit = none ∧ mostFree (sending transit) transit.vc [31] = some 31) ∧
    (whereAt (sending { transit with hops := 64 }) 3 { transit with hops := 64 } = some none ∧ whereAt { sending transit with fab := { (sending transit).fab with ports := [] } } 3 transit = some none ∧
      (({ sending transit with fab := { (sending transit).fab with ports := [] } } : State).port 31).st = .down) ∧
    ((0xFFFF : DWord).setWidth 16 = run.fab.devId ∧ (run.port 31).enable = true) ∧ (nIo run.variant ≤ 7) ∧
    (({ onPort31 upPort with fab := { (onPort31 upPort).fab with parent := some 31 } } : State).fab.parent = some 31 ∧ ((onPort31 upPort).port 31).tAt + 10000000 ≤ (onPort31 upPort).now) ∧
    (run.pwr.aux = true ∧ run.tsc.ppsSeen = false) := by decide +kernel

/-- The packet is this device's, and something holds of the state then. -/
def mine (x : Arr) (f : State → Bool) : Bool := match x with | .mine u => f u | _ => false
def admits (x : ReqAns) (n : Nat) : Bool := match x with | .ok _ => n = 0 | .denied => n = 1 | .stale => n = 2 | .retry => n = 3
/-- Device 1's context 5 shares granule 0 and counter 1 of context 1. -/
def shared (f : State → State) : State :=
  f { onPort31 upPort with
    tier := { run.tier with gran := [(0, { valid := true, owner := 1, shared := true, sset := 255 })], sets := [(255, { remotes := [(1, 5, some 3)] })] }
    sync := { run.sync with ctrs := [(1, { alloc := true, owner := 1, sset := some 255, value := 7 })] } }
/-- A packet of it for this device. -/
def near (ty len : Nat) (data : List Byte) : FPkt :=
  { type := ty, flits := 1 + (data.length + 63) / 64, dst := State.reset.devId, src := 1, sctx := 5, sgen := 3, dctx := 1, len := len, addr := 65535, counter := 1, lseq := 65535, data := data, value := 7 }
theorem test_RemoteRequests :
    mine (arrive 1 31 true { near 1 1 [9] with count := true } (shared id)) (fun u => !reqRetry u 3 (near 1 1 [9]) && reqPieces u (near 1 1 [9]) needW == some [(65535, 1)] &&
      admits (admitAll (near 1 1 [9]) [(65535, 1)] u) 0 && farCounter u (near 1 1 [9])) = true ∧
    mine (arrive 3 31 true (near 3 1 []) (shared fun s => s.onCtx 1 fun x => { x with inReset := true })) (fun u => reqRetry u 3 (near 3 1 [])) = true ∧
    mine (arrive 3 31 true { near 3 1 [] with dctx := 4096 } (shared id)) (fun u => reqPieces u { near 3 1 [] with dctx := 4096 } needR == none) = true ∧
    mine (arrive 3 31 true { near 3 1 [] with sctx := 6 } (shared id)) (fun u => admits (admitAll { near 3 1 [] with sctx := 6 } [(65535, 1)] u) 1) = true ∧
    mine (arrive 3 31 true { near 3 1 [] with sgen := 2 } (shared id)) (fun u => admits (admitAll { near 3 1 [] with sgen := 2 } [(65535, 1)] u) 2) = true ∧
    mine (arrive 3 31 true (near 3 1 []) (shared fun s => s.onDom 0 fun d => { d with stopped := true })) (fun u => admits (admitAll (near 3 1 []) [(65535, 1)] u) 3) = true ∧
    mine (arrive 1 31 true { near 1 128 (zeros 128) with phys := true, addr := 0, mask := [127] } (shared id)) (fun u => reqPieces u { near 1 128 (zeros 128) with phys := true, addr := 0 } needW == some [(0, 128)]) = true ∧
    mine (arrive 5 31 true (near 5 0x10 []) (shared id)) (fun u => admits (waitAdmit (near 5 0x10 []) u) 0 &&
      match (ctrDo 0x10 (farWait 3 (near 5 0x10 []) 7) 0xFFFFFFFF u).2 with | .fin _ _ => true | _ => false) = true ∧
    mine (arrive 5 31 true { near 5 0x10 [] with counter := 2 } (shared id)) (fun u => admits (waitAdmit { near 5 0x10 [] with counter := 2 } u) 1) = true ∧
    mine (arrive 7 31 true (near 7 0 []) (shared id)) (fun _ => true) = true ∧
    fencedAt run (lineOf 65535) = false ∧ ((shared id).port 31).isUp = true ∧ ((shared id).port 31).moving = false := by decide +kernel

/-- A request of queue 0 that device 1 answers. -/
def reqT (ty : Nat) (q : Option Nat) : Rreq := { txn := 9, pkt := { type := ty, dst := 1, sctx := 1, len := 8 }, queue := q, pktId := 1, deadline := 100000001 }
def answering (r : Rreq) : State := { onPort31 upPort with fab := { (onPort31 upPort).fab with reqs := [r] } }
def answerP (ty len : Nat) (data : List Byte) : FPkt := { type := ty, flits := 1 + (data.length + 63) / 64, dst := State.reset.devId, src := 1, txn := 9, len := len, lseq := 65535, data := data }
theorem test_RemoteAnswers :
    mine (arrive 2 31 true (answerP 2 0 []) (answering (reqT 1 (some 0)))) (fun u => answered u (answerP 2 0 []) == some (reqT 1 (some 0))) = true ∧
    mine (arrive 4 31 true (answerP 4 8 (zeros 8)) (answering (reqT 3 none))) (fun u => answered u (answerP 4 8 (zeros 8)) == some (reqT 3 none)) = true ∧
    mine (arrive 4 31 true (answerP 4 8 (zeros 8)) (answering (reqT 3 (some 0)))) (fun u => answered u (answerP 4 8 (zeros 8)) == some (reqT 3 (some 0)) &&
      !getWaits (acctAdd 1 aFabRx 8 u) (reqT 3 (some 0)) 0) = true ∧
    mine (arrive 6 31 true (answerP 6 0 []) (answering (reqT 5 (some 0)))) (fun u => answered u (answerP 6 0 []) == some (reqT 5 (some 0)) && answered u { answerP 6 0 [] with txn := 8 } == none) = true ∧
    (reqNamed (answering { reqT 1 none with retryAt := some 100000000 }) 9 = some { reqT 1 none with retryAt := some 100000000 } ∧ 100000000 ≤ (onPort31 {}).now ∧ (onPort31 {}).now < 100000001) ∧
    (reqNamed (answering { reqT 5 (some 0) with deadline := 100000000 }) 9 = some { reqT 5 (some 0) with deadline := 100000000 }) := by decide +kernel

/-! ### Invariants and rules -/

theorem test_Queue : ({ run with pending := [.mainPowerOn] } : State).pending = [.mainPowerOn] ∧ run.pending = [] ∧ Memory.wf run.mem = true ∧ run.tsc.ref = true ∧ run.tsc.slew = 0 := by decide +kernel
theorem test_EventFlags : regAt (linked id) (ctrlMgmtBase + 0x10008) = some .pwrEvents ∧ (ctrlMgmtBase + 0x10008) % 8 = 0 := by decide +kernel
theorem test_Faulting : onRunningCore { ins with rsvd := true } run = true ∧ setReady { ins with rsvd := true } (intShape { ins with rsvd := true }) run = true ∧
    picked { ins with rsvd := true } run = true ∧ fetchable { ins with rsvd := true } run = true ∧ vregOk (insGroup { ins with dst := 253 } run) 253 true = false ∧
    walkPends run 0 1 (2 ^ 51) = false := by decide +kernel
theorem test_RequestsWaitOrAreRefused : ctxStatus (asked id) { ctx := 0 } = some pNotFound ∧ ctxStatus (asked id) { ctx := 4096 } = some pNotFound ∧
    ctxStatus (asked id) { ctx := 1, gen := 1 } = some pStale ∧ pmiMay (asked id) 0 = true ∧
    pmiGo (asked fun s => { s with fns := [(63, { s.fn 63 with reqBase := 1, reqTail := 1 })] }) { fn := 63 } = true := by decide +kernel
/-- Two ready sets of a group whose first one has had its turn, and a group with a stop pending beside it. -/
def contended : State :=
  { run with groups := [(gKey 0 0, { grp with th := (List.range 16).map fun l => (16 + l, { pc := 16 }), sched := { turn := 0xFFFF, turnN := 2 } }),
                        (gKey 0 47, { grp with slot := 47, stop := some { why := .displaced, since := 0 } })] }
theorem test_IssueChoice :
    (let i := { ins with rivals := [(0, 16)] }
     rivalsOf i contended = [(0, 16)] ∧ (∀ a ∈ [0, 16], (insGroup i contended).waited a < 63) ∧ (insGroup i contended).heldAt 16 [0, 16] = false ∧
     (insGroup i contended).sched.turn = maskOf ((insGroup i contended).setOfPc 0)) ∧
    (let i := { ins with rivals := [(47, 0)] }
     rivalsOf i contended = [(47, 0)] ∧ (contended.group (gKey 0 47)).stop.isSome = true ∧ (insGroup i contended).stop = none) ∧
    rivalsOf ins contended = [] := by decide +kernel

theorem test_OldTranslations : (walking.xl.walks.get (strmDie walking.variant (strmOf 0))).find? (fun w => w.stream = 0 && w.busy) ≠ none ∧
    ((walking.onCtx 1 fun x => { x with gen := 255 }).ctx 1).gen ≠ 0 ∧ (((walking.onCtx 1 fun x => { x with inReset := true }).ctx 1).inReset = true) := by decide +kernel
theorem test_ReleasedArrays : State.reset.arraysFree ∧ step { State.reset with pending := [.mainPowerOn] } = .next State.reset :=
  ⟨fun _ _ => ⟨rfl, rfl, rfl, rfl, rfl, rfl, rfl⟩, rfl⟩

/-! ### The spec's worked examples -/

/-- Core 767 (01_module.md, after R20). -/
theorem test_core_767 : lX 767 = 31 ∧ lY 767 = 23 ∧ lDie 767 = 5 ∧ lLocal 767 % 16 = 15 ∧ lLocal 767 / 16 = 7 ∧
    (List.range 4).map (lNeighbour 767) = [some 735, none, some 799, some 766] ∧ lDie 799 = 7 ∧ stacksOf .v12M4X 5 = [8, 9] := by decide +kernel
/-- The local address 0x0060_0000_3480 (08_memory_tiers.md, after R202). -/
theorem test_address_home : zoneOf 0x6000003480 = .hbm 3 ∧ stackAt State.reset 0x6000003480 = (5, 0x1480) ∧ homeSlice 0x6000003480 = 64 * 3 + 40 ∧
    setOf 0x6000003480 = 1 := by decide +kernel
/-- Counter 0x1_6C3A (11_sync_counters_fences.md, after R269). -/
theorem test_counter_home : ctrDie 0x16C3A = 5 ∧ ctrSlot 0x16C3A = 88 ∧ ctrInSlot 0x16C3A = 58 ∧ ctrHome 0x16C3A = 696 := by decide +kernel
/-- The device address 0x0004_2123_4500 (10_translation.md, R251). -/
theorem test_level_indices : [3, 2, 1, 0].map (levelIx · 0x421234500) = [0, 0x10, 0x109, 3] := by decide +kernel
/-- The sources of three units (02_self_timed_steps.md, after R47). -/
theorem test_sources : srcCeng 1 = 0x0C11 ∧ srcHbm 3 = 0x0A03 ∧ srcPcie 0 = 0x0E00 := by decide +kernel

/-- The merge of three records of one device (02_self_timed_steps.md, after R48). -/
theorem test_event_order :
    let e (t n : Nat) : Nat × ErrRec := (0, { tsc := BitVec.ofNat 64 t, source := n })
    eventBefore (e 5000118 0x0E00) (e 5000120 0x0A03) = true ∧ eventBefore (e 5000120 0x0A03) (e 5000120 0x0C11) = true ∧
    eventBefore (e 5000120 0x0C11) (e 5000120 0x0A03) = false ∧ eventBefore (1, (e 7 1).2) (0, (e 7 9).2) = false := by decide +kernel

def two (m : Nat) (e : Int) : FVal := .fin { m := m, e := e }
/-- The BF16 K-group whose small product is dropped, and the FP32 K-group with an infinity (03_plane_array.md, R68; 04_number_formats.md, R104). -/
theorem test_kgroup : enc32 .rne (kgFloat 24 (dec32 0) [(two 1 0, two 1 0), (two 1 (-12), two 1 (-12)), (two 1 (-15), two 1 (-14))]) = 0x3F800000 ∧
    enc32 .rne (kgFloat 24 (dec32 0x40000000) [(.inf false, two 3 0), (two 1 0, two 5 0), (two 1 0, two 0 0)]) = 0x7F800000 ∧
    enc32 .rne (kgFloat 24 (dec32 0x40000000) [(.inf false, two 0 0), (two 1 0, two 5 0)]) = 0x7FC00000 := by decide +kernel
/-- One element of the LF-E3 block with base and with detail planes (04_number_formats.md, R89): 0.625 and 0.71875. -/
def lfBlock : List Byte := ((((((zeros 704).set 0 0x41).set 1 3).set 2 2).set 128 5).set 384 1).set 512 1 |>.set 576 1 |>.set 640 1
theorem test_lf_element : pElem lfBlock 0x41 0 3 (scaleExp 0x7C) 0 0 = two 5 (-3) ∧ pElem lfBlock 0x41 0 5 (scaleExp 0x7C) 0 0 = two 23 (-5) := by decide +kernel
/-- The MXFP4 scale group (04_number_formats.md, R103): 21.0, -3.1, 1.0, 13.0. -/
theorem test_mxfp4_group : scaleByte (emaxOf 0x0C) [two 21 0, .fin { neg := true, m := 0xC66666, e := -22 }, two 1 0, two 13 0] = 0x81 ∧
    [two 21 (-2), .fin { neg := true, m := 0xC66666, e := -24 }, two 1 (-2), two 13 (-2)].map (fun v => (convTo 0x0C .rne 0 v).bits) = [7, 0xA, 0, 5] ∧
    (convTo 0x0C .rne 0 (two 1 (-2))).flush = true := by decide +kernel
/-- The LI-3 row with two detail planes (05_narrow_precision.md, after R109): base and full values of its elements, in units of 2^-5. -/
def liBlock : List Byte := (((((zeros 384).set 0 0x22).set 1 3).set 2 2).set 64 0x52).set 128 0x53 |>.set 192 0xCA |>.set 256 0x4D |>.set 320 0x20
theorem test_li_row : (List.range 8).map (fun k => planeInt liBlock 0x22 0 k 0 3) = [2, -1, 0, 1, -2, 0, -1, 1] ∧
    (List.range 8).map (fun k => planeInt liBlock 0x22 0 k 0 5) = [10, -4, 2, 6, -8, 1, -2, 4] ∧ pElem liBlock 0x22 0 3 (scaleExp 0x7C) 0 0 = two 2 (-3) := by decide +kernel

end Sys2Proof.Tests
end

/-! The meaning of every command goes on (O49): a command whose occasion is absent is itself a next state, in which nothing
has changed (notes/assumptions/4.md), and what the spec calls an error is a record, a status or a park. -/
namespace Sys2Proof.Machine
open Sys2Proof

/-- The meaning answers a next state. -/
def GoesOn (o : Out) : Prop := ∃ t, o = .next t

theorem completes_iff_goesOn (c : Instr) (s : State) : completes c s ↔ GoesOn (exec c s) := Iff.rfl

/-! ### The shapes that meanings are written in -/

theorem GoesOn.next (t : State) : GoesOn (.next t) := ⟨t, rfl⟩

theorem GoesOn.ite {c : Prop} [Decidable c] {a b : Out} (ha : GoesOn a) (hb : GoesOn b) : GoesOn (if c then a else b) := by
  split
  · exact ha
  · exact hb

/-- An instruction that does not issue, or is refused as it issues, leaves a next state. -/
theorem GoesOn.issue {b : Beg} {s : State} {f : Iss → State → Out} (hf : ∀ x t, GoesOn (f x t)) :
    GoesOn (match b with | .no => .next s | .bad t => .next t | .go x t => f x t) := by
  cases b with
  | no => exact .next _
  | bad t => exact .next _
  | go x t => exact hf x t

/-- So does a fabric packet that does not arrive, or is not the device's own. -/
theorem GoesOn.arrival {a : Arr} {s : State} {f : State → Out} (hf : ∀ t, GoesOn (f t)) :
    GoesOn (match a with | .no => .next s | .done t => .next t | .mine t => f t) := by
  cases a with
  | no => exact .next _
  | done t => exact .next _
  | mine t => exact hf t

/-! ### Meanings that several commands share -/

theorem alu_goesOn (i : Ins) (h : Shape) (residue free : Bool) (res : Group → Nat → DWord → Writes) (s : State) :
    GoesOn (alu i h residue free res s) := .issue fun _ _ => .ite (.next _) (.next _)

theorem aluU_goesOn (i : Ins) (h : Shape) (res : Group → (Src → DWord) → Writes) (s : State) : GoesOn (aluU i h res s) :=
  .issue fun _ _ => .next _

theorem shfl_goesOn (i : Ins) (from_ : Nat → Nat → Option Nat) (s : State) : GoesOn (shfl i from_ s) := .issue fun _ _ => .next _

theorem voteP_goesOn (i : Ins) (q : Nat) (f : List Nat → List Nat → Bool) (s : State) : GoesOn (voteP i q f s) :=
  .issue fun _ _ => .next _

theorem loadIssue_goesOn (i : Ins) (size : Nat) (rsv early : Bool) (s : State) : GoesOn (loadIssue i size rsv early s) :=
  .issue fun _ _ => .ite (.next _) (.ite (.next _) (.next _))

theorem allOrNone_goesOn (i : Ins) (h : Shape) (size need access : Nat) (f : Iss → Nat → State → State × MRes)
    (res : Iss → Nat → List Byte → DWord → Writes) (s : State) : GoesOn (allOrNone i h size need access f res s) := by
  refine .issue fun x t => .ite (.next _) ?_
  split
  · exact .next _
  · split
    · exact .next _
    · exact .next _

theorem atomic_goesOn (i : Ins) (size : Nat) (place : Place) (op : AtOp) (third ok : Bool) (s : State) :
    GoesOn (atomic i size place op third ok s) := by
  unfold atomic
  exact allOrNone_goesOn ..

theorem fenceC_goesOn (i : Ins) (inv : Bool) (s : State) : GoesOn (fenceC i inv s) := .issue fun _ _ => .ite (.next _) (.next _)

theorem syncInstr_goesOn (i : Ins) (op rd : Nat) (s : State) : GoesOn (syncInstr i op rd s) :=
  .issue fun _ _ => .ite (.next _) (.ite (.next _) (.next _))

theorem doorbell_goesOn (fn ctx : Nat) (d : Door) (kind : Nat → Bool) (run : State → State) (s : State) :
    GoesOn (doorbell fn ctx d kind run s) := .ite (.next _) (.ite (.next _) (.next _))

theorem onOwnQueue_goesOn (fn eng q : Nat) (f : Nat → State → State) (s : State) : GoesOn (onOwnQueue fn eng q f s) :=
  .ite (.next _) (.next _)

theorem packet_goesOn {e num op : Nat} {run : Nat → Pkt → State → Out} {s : State} (hr : ∀ k p t, GoesOn (run k p t)) :
    GoesOn (packet e num op run s) := by
  unfold packet
  cases pktTake e num op s with
  | no => exact .next _
  | stop t => exact .next _
  | go p t => exact hr _ p t

theorem pmi_goesOn (h : Hdr) (code : Nat) (pf : Bool) (run : State → State) (s : State) : GoesOn (pmi h code pf run s) :=
  .ite (.next _) (.next _)

theorem pmiCtx_goesOn (h : Hdr) (code : Nat) (run : State → State) (s : State) : GoesOn (pmiCtx h code run s) :=
  .ite (.next _) (pmi_goesOn ..)

/-! ### Core arrays and tile programs -/

theorem execMma_goesOn (i : Ins) (g pf qf accT : Nat) (bank zero : Bool) (retake : Nat) (s : State) :
    GoesOn (execMma i g pf qf accT bank zero retake s) := by
  refine .issue fun x t => .ite (.next _) ?_
  dsimp only
  split <;> exact .next _

theorem execTseqStart_goesOn (i : Ins) (s : State) : GoesOn (execTseqStart i s) := by
  refine .issue fun x t => .ite (.next _) <| .ite (.next _) <| .ite (.next _) ?_
  dsimp only
  split <;> exact .next _

theorem execTseqWait_goesOn (i : Ins) (us ut : Nat) (s : State) : GoesOn (execTseqWait i us ut s) := by
  refine .issue fun x t => ?_
  split <;> exact .next _

theorem execPlaneStep_goesOn (p : Nat) (check : Check) (s : State) : GoesOn (execPlaneStep p check s) := by
  unfold execPlaneStep
  split
  · exact .next _
  · exact .ite (.next _) (.ite (.next _) (.next _))

theorem execKgroupUpdate_goesOn (p : Nat) (s : State) : GoesOn (execKgroupUpdate p s) := by
  unfold execKgroupUpdate
  split <;> exact .next _

theorem execRetakeRunStart_goesOn (p : Nat) (s : State) : GoesOn (execRetakeRunStart p s) := by
  unfold execRetakeRunStart
  split
  · exact .next _
  · refine .ite (.next _) ?_
    split
    · exact .next _
    · split <;> exact .next _

theorem execMmaRetire_goesOn (p : Nat) (s : State) : GoesOn (execMmaRetire p s) := by
  unfold execMmaRetire
  split
  · exact .next _
  · exact .ite (.next _) (.next _)

theorem execTseqProgramStart_goesOn (p : Nat) (s : State) : GoesOn (execTseqProgramStart p s) := by
  unfold execTseqProgramStart
  split <;> exact .next _

theorem execHaloPlace_goesOn (p entry : Nat) (s : State) : GoesOn (execHaloPlace p entry s) := by
  unfold execHaloPlace
  split
  · dsimp only
    split
    · exact .next _
    · split
      · exact .next _
      · split
        · exact .next _
        · exact .ite (.next _) (.ite (.next _) (.next _))
  · exact .next _

theorem execHaloAck_goesOn (p entry : Nat) (s : State) : GoesOn (execHaloAck p entry s) := by
  unfold execHaloAck
  split <;> exact .next _

theorem execHaloTimeout_goesOn (p entry : Nat) (s : State) : GoesOn (execHaloTimeout p entry s) := by
  unfold execHaloTimeout
  split <;> exact .next _

theorem execTseqFetchReturn_goesOn (p : Nat) (s : State) : GoesOn (execTseqFetchReturn p s) := by
  unfold execTseqFetchReturn
  split
  · exact .next _
  · split
    · exact .next _
    · exact .ite (.next _) (.next _)

theorem execTseqPassStart_goesOn (p : Nat) (s : State) : GoesOn (execTseqPassStart p s) := by
  unfold execTseqPassStart
  split
  · exact .next _
  · split
    · exact .next _
    · exact .ite (.next _) (.ite (.next _) (.next _))

theorem execDetailFetchReturn_goesOn (p block : Nat) (s : State) : GoesOn (execDetailFetchReturn p block s) := by
  unfold execDetailFetchReturn
  split
  · refine .ite (.next _) ?_
    dsimp only
    split <;> exact .next _
  · exact .next _

theorem execTseqStoreComplete_goesOn (p : Nat) (s : State) : GoesOn (execTseqStoreComplete p s) := by
  unfold execTseqStoreComplete
  split
  · exact .next _
  · split <;> exact .next _

theorem execTseqProgramComplete_goesOn (p : Nat) (s : State) : GoesOn (execTseqProgramComplete p s) := by
  unfold execTseqProgramComplete
  split
  · refine .ite (.next _) ?_
    dsimp only
    split
    · split <;> exact .next _
    · refine .ite (.next _) ?_
      split <;> exact .next _
  · exact .next _

/-! ### Threads: loads, stores, control flow -/

theorem execLoadReply_goesOn (core slot id : Nat) (rejected : Bool) (s : State) : GoesOn (execLoadReply core slot id rejected s) := by
  unfold execLoadReply
  dsimp only
  split
  · exact .ite (.next _) (.ite (.next _) (.ite (.next _) (.next _)))
  · exact .next _

theorem execCut_goesOn (i : Ins) (idx : Nat) (s : State) : GoesOn (execCut i idx s) := .issue fun _ _ => .ite (.next _) (.next _)

/-! ### Counters, queues and packets -/

theorem execCounterOp_goesOn (o : CtrOp) (s : State) : GoesOn (execCounterOp o s) := by
  refine .ite (.next _) ?_
  split <;> exact .next _

theorem execWaitTimeout_goesOn (n : Nat) (s : State) : GoesOn (execWaitTimeout n s) := by
  unfold execWaitTimeout
  split
  · exact .next _
  · split
    · exact .next _
    · exact .ite (.next _) (.next _)

theorem execSubmissionHeadWrite_goesOn (eng q : Nat) (s : State) : GoesOn (execSubmissionHeadWrite eng q s) := by
  refine .ite (.next _) ?_
  split <;> exact .next _

theorem execTimestamp_goesOn (eng q : Nat) (s : State) : GoesOn (execTimestamp eng q s) := by
  refine packet_goesOn fun k p t => .ite (.next _) (.ite (.next _) ?_)
  dsimp only
  split
  -- the host is absent: the packet ends for an orphaned context and waits for another
  case h_5 => exact .ite (.next _) (.next _)
  all_goals exact .next _

theorem execSignal_goesOn (eng q : Nat) (s : State) : GoesOn (execSignal eng q s) := by
  refine packet_goesOn fun k p t => .ite (.next _) ?_
  split <;> exact .next _

theorem execWait_goesOn (eng q : Nat) (s : State) : GoesOn (execWait eng q s) := by
  refine packet_goesOn fun k p t => .ite (.next _) ?_
  split <;> exact .next _

theorem execLaunch_goesOn (eng q : Nat) (s : State) : GoesOn (execLaunch eng q s) := by
  refine packet_goesOn fun k p t => ?_
  dsimp only
  split
  · exact .next _
  · exact .ite (.next _) (.ite (.next _) (.next _))

theorem copyRun_goesOn (rows : List Row) (pat : Option Nat) (rejected : List Nat) (k : Nat) (p : Pkt) (s : State) :
    GoesOn (copyRun rows pat rejected k p s) := by
  unfold copyRun
  dsimp only
  split
  · exact .next _
  · exact .ite (.next _) (.ite (.next _) (.ite (.next _) (.next _)))

theorem copyPacket_goesOn (addrs : List Nat) (rows : Pkt → List Row) (bad5 : Pkt → Bool) (pat : Pkt → Option Nat) (rejected : List Nat)
    (k : Nat) (p : Pkt) (s : State) : GoesOn (copyPacket addrs rows bad5 pat rejected k p s) :=
  .ite (.next _) (.ite (.next _) (copyRun_goesOn ..))

theorem moveHome_goesOn (get : Bool) (rows : List Row) (k : Nat) (p : Pkt) (s : State) : GoesOn (moveHome get rows k p s) := by
  unfold moveHome
  dsimp only
  split
  · exact .next _
  · exact .ite (.next _) (.ite (.next _) (.ite (.next _) (.next _)))

theorem moveFar_goesOn (rejected : List Nat) (local_ rows : List Row) (go : Bulk → Nat → Pkt → Nat → XRow → State → State) (k : Nat) (p : Pkt)
    (s : State) : GoesOn (moveFar rejected local_ rows go k p s) := by
  unfold moveFar
  dsimp only
  split
  · exact .next _
  · exact .ite (.next _) (.ite (.next _) (.ite (.next _) (.next _)))

theorem execRemotePut_goesOn (eng q : Nat) (rejected : List Nat) (s : State) : GoesOn (execRemotePut eng q rejected s) := by
  refine packet_goesOn fun k p t => ?_
  dsimp only
  split
  · exact .next _
  · exact .ite (moveHome_goesOn ..) (moveFar_goesOn ..)

theorem execRemoteGet_goesOn (eng q : Nat) (s : State) : GoesOn (execRemoteGet eng q s) := by
  refine packet_goesOn fun k p t => ?_
  dsimp only
  split
  · exact .next _
  · exact .ite (moveHome_goesOn ..) (moveFar_goesOn ..)

theorem waitHome_goesOn (k : Nat) (p : Pkt) (s : State) : GoesOn (waitHome k p s) := by
  unfold waitHome
  dsimp only
  split <;> exact .next _

theorem execRemoteWait_goesOn (eng q : Nat) (s : State) : GoesOn (execRemoteWait eng q s) := by
  refine packet_goesOn fun k p t => ?_
  dsimp only
  split
  · exact .next _
  · exact .ite (waitHome_goesOn ..) (.next _)

/-! ### The fabric -/

theorem execPacketForward_goesOn (io : Nat) (k : FPkt) (s : State) : GoesOn (execPacketForward io k s) := by
  unfold execPacketForward
  split
  · exact .next _
  · refine .ite (.next _) (.ite (.next _) (.ite (.next _) ?_))
    dsimp only
    split
    · exact .next _
    · exact .ite (.next _) (.next _)

theorem execPortDownTimeout_goesOn (port : Nat) (s : State) : GoesOn (execPortDownTimeout port s) := by
  unfold execPortDownTimeout
  dsimp only
  split <;> exact .next _

theorem execTimeParentTimeout_goesOn (s : State) : GoesOn (execTimeParentTimeout s) := by
  unfold execTimeParentTimeout
  split <;> exact .next _

theorem execPut_goesOn (port : Nat) (crcOk : Bool) (k : FPkt) (s : State) : GoesOn (execPut port crcOk k s) := by
  refine .arrival fun t => .ite (.next _) ?_
  split
  · exact .next _
  · split
    -- admitted: performed, or denied for the counter it names
    case h_4 => exact .ite (.next _) (.next _)
    all_goals exact .next _

theorem execGet_goesOn (port : Nat) (crcOk : Bool) (k : FPkt) (s : State) : GoesOn (execGet port crcOk k s) := by
  refine .arrival fun t => .ite (.next _) ?_
  split
  · exact .next _
  · split <;> exact .next _

theorem execFabricWait_goesOn (port : Nat) (crcOk : Bool) (k : FPkt) (s : State) : GoesOn (execFabricWait port crcOk k s) := by
  refine .arrival fun t => .ite (.next _) ?_
  split
  -- admitted: the counter answers at once, or the wait is registered
  case h_4 =>
    dsimp only
    split <;> exact .next _
  all_goals exact .next _

theorem execPutAck_goesOn (port : Nat) (crcOk : Bool) (k : FPkt) (s : State) : GoesOn (execPutAck port crcOk k s) := by
  refine .arrival fun t => ?_
  split <;> exact .next _

theorem execGetData_goesOn (port : Nat) (crcOk : Bool) (k : FPkt) (s : State) : GoesOn (execGetData port crcOk k s) := by
  refine .arrival fun t => ?_
  split
  · exact .next _
  · refine .ite (.next _) (.ite (.next _) ?_)
    dsimp only
    split
    · exact .ite (.next _) (.ite (.next _) (.next _))
    · exact .next _

theorem execWaitDone_goesOn (port : Nat) (crcOk : Bool) (k : FPkt) (s : State) : GoesOn (execWaitDone port crcOk k s) := by
  refine .arrival fun t => ?_
  split
  · exact .next _
  · split
    · exact .next _
    · exact .ite (.next _) (.ite (.next _) (.next _))

theorem execRemoteRetry_goesOn (txn : Nat) (s : State) : GoesOn (execRemoteRetry txn s) := by
  unfold execRemoteRetry
  split
  · exact .next _
  · split
    · exact .next _
    · exact .ite (.next _) (.next _)

theorem execRemoteRequestTimeout_goesOn (txn : Nat) (s : State) : GoesOn (execRemoteRequestTimeout txn s) := by
  unfold execRemoteRequestTimeout
  split
  · exact .next _
  · refine .ite (.next _) ?_
    split
    -- a GET of a queue: a line of a packet, or an item
    case h_2 => exact .ite (.next _) (.next _)
    all_goals exact .next _

/-- What FAB_DROPS_READ answers. The definition is opened as a function, before it is applied: the kernel then compares the two
functions as they stand, where it would otherwise evaluate the register's address. -/
theorem execFabDropsRead_eq (io : Nat) (s : State) :
    execFabDropsRead io s = .next ((regRead (.fn 0) (ctrlIoBase io + 0x100020) 8 s).1.onLastRead fun _ =>
      (regRead (.fn 0) (ctrlIoBase io + 0x100020) 8 s).2) := by
  generalize hf : execFabDropsRead = f
  delta execFabDropsRead at hf
  refine (congrFun (congrFun hf io) s).symm.trans ?_
  generalize regRead (.fn 0) (ctrlIoBase io + 0x100020) 8 s = r
  cases r with
  | mk t v => rfl

theorem execFabDropsRead_goesOn (io : Nat) (s : State) : GoesOn (execFabDropsRead io s) := by
  rw [execFabDropsRead_eq]
  exact .next _

/-! ### Power, placement and residency -/

theorem execCapTakesEffect_goesOn (s : State) : GoesOn (execCapTakesEffect s) := by
  unfold execCapTakesEffect
  split
  · exact .ite (.next _) (.next _)
  · exact .next _

theorem execQuadWake_goesOn (die q : Nat) (s : State) : GoesOn (execQuadWake die q s) := by
  refine .ite (.next _) ?_
  split
  -- ramping: at 550 mV or above the quad operates at once
  case h_2 => exact .ite (.next _) (.next _)
  all_goals exact .next _

theorem execGroupPlace_goesOn (key : Nat) (s : State) : GoesOn (execGroupPlace key s) := by
  refine .ite (.next _) (.ite (.next _) (.ite (.next _) ?_))
  dsimp only
  split <;> exact .next _

theorem execGroupStart_goesOn (core slot : Nat) (s : State) : GoesOn (execGroupStart core slot s) := by
  unfold execGroupStart
  dsimp only
  split
  · exact .next _
  · exact .ite (.next _) (.next _)

theorem execLaunchComplete_goesOn (key : Nat) (s : State) : GoesOn (execLaunchComplete key s) := by
  refine .ite (.next _) ?_
  split
  · exact .next _
  · exact .ite (.next _) (.next _)

theorem execSlotGrant_goesOn (eng q : Nat) (s : State) : GoesOn (execSlotGrant eng q s) := by
  refine .ite (.next _) (.ite (.next _) (.ite (.next _) ?_))
  split <;> exact .next _

theorem execResidencyRotate_goesOn (eng q : Nat) (s : State) : GoesOn (execResidencyRotate eng q s) := by
  refine .ite (.next _) ?_
  split
  · exact .ite (.next _) (.next _)
  · exact .next _

theorem execGroupSave_goesOn (core slot : Nat) (s : State) : GoesOn (execGroupSave core slot s) := by
  refine .ite (.next _) (.ite (.next _) ?_)
  split
  · exact .next _
  · exact .ite (.next _) (.next _)

theorem execStopBoundExpire_goesOn (core slot : Nat) (s : State) : GoesOn (execStopBoundExpire core slot s) := by
  unfold execStopBoundExpire
  dsimp only
  split
  · exact .next _
  · exact .ite (.next _) (.next _)

theorem execHangDeclare_goesOn (core slot : Nat) (s : State) : GoesOn (execHangDeclare core slot s) := by
  unfold execHangDeclare
  dsimp only
  split
  · exact .next _
  · exact .ite (.next _) (.next _)

theorem execGroupRestore_goesOn (core slot n : Nat) (s : State) : GoesOn (execGroupRestore core slot n s) := by
  unfold execGroupRestore
  split
  · exact .ite (.next _) (.next _)
  · exact .next _

theorem execArrayBlockTimeout_goesOn (core slot : Nat) (s : State) : GoesOn (execArrayBlockTimeout core slot s) := by
  unfold execArrayBlockTimeout
  dsimp only
  split
  · split
    · exact .ite (.next _) (.next _)
    · exact .next _
  · exact .next _

/-! ### Translation and requests -/

theorem execTlbMissWalkStart_goesOn (stream ctx va need : Nat) (s : State) : GoesOn (execTlbMissWalkStart stream ctx va need s) := by
  refine .ite (.next _) ?_
  split <;> exact .next _

theorem execPageWalkComplete_goesOn (stream : Nat) (s : State) : GoesOn (execPageWalkComplete stream s) := by
  refine .ite (.next _) ?_
  split
  · exact .next _
  · refine .ite (.next _) ?_
    dsimp only
    split
    · exact .next _
    · exact .ite (.next _) (.ite (.next _) (.next _))

theorem execMappingChangeComplete_goesOn (id : Nat) (s : State) : GoesOn (execMappingChangeComplete id s) := by
  unfold execMappingChangeComplete
  split
  · exact .next _
  · exact .ite (.next _) (.next _)

theorem execMailboxWrite_goesOn (fn off : Nat) (data : List Byte) (s : State) : GoesOn (execMailboxWrite fn off data s) := by
  refine .ite (.next _) ?_
  split
  · exact .next _
  · refine .ite (.next _) (.ite (.next _) ?_)
    dsimp only
    split <;> exact .next _

theorem execContextReset_goesOn (h : Hdr) (addr size : Nat) (s : State) : GoesOn (execContextReset h addr size s) :=
  .ite (.next _) (pmiCtx_goesOn ..)

theorem execQueueDestroy_goesOn (h : Hdr) (eng q : Nat) (drain : Bool) (s : State) : GoesOn (execQueueDestroy h eng q drain s) :=
  .ite (.next _) (pmiCtx_goesOn ..)

theorem execClaim_goesOn (h : Hdr) (token : DWord) (deliver_ : Bool) (s : State) : GoesOn (execClaim h token deliver_ s) :=
  .ite (.next _) (pmi_goesOn ..)

theorem execSelfTestDone_goesOn (bad : Nat) (s : State) : GoesOn (execSelfTestDone bad s) := by
  unfold execSelfTestDone
  split
  · exact .next _
  · exact .ite (.next _) (.next _)

theorem execMicrocodeDieDone_goesOn (die : Nat) (s : State) : GoesOn (execMicrocodeDieDone die s) := by
  unfold execMicrocodeDieDone
  split
  · exact .next _
  · refine .ite (.next _) ?_
    dsimp only
    split
    · exact .next _
    · split <;> exact .next _

theorem execPlowinCommit_goesOn (s : State) : GoesOn (execPlowinCommit s) := by
  unfold execPlowinCommit
  split
  · exact .ite (.next _) (.next _)
  · exact .next _

theorem execOrphanTimeExpire_goesOn (ctx : Nat) (s : State) : GoesOn (execOrphanTimeExpire ctx s) := by
  unfold execOrphanTimeExpire
  dsimp only
  split
  · exact .next _
  · exact .ite (.next _) (.next _)

theorem execRegisterWrite_goesOn (a : RegAcc) (v : DWord) (hw : BitVec 8) (s : State) : GoesOn (execRegisterWrite a v hw s) := by
  refine .ite (.next _) ?_
  split <;> exact .next _

theorem execRingHeadWrite_goesOn (fn ring : Nat) (v : Word) (s : State) : GoesOn (execRingHeadWrite fn ring v s) := by
  refine .ite (.next _) ?_
  split <;> exact .next _

/-! ### Memory, spares and recovery -/

theorem execHomeRequest_goesOn (r : HomeReq) (s : State) : GoesOn (execHomeRequest r s) := by
  unfold execHomeRequest
  split
  split
  · split <;> exact .next _
  · split <;> exact .next _
  · exact .next _

theorem execVictimWritebackSend_goesOn (die slice : Nat) (s : State) : GoesOn (execVictimWritebackSend die slice s) := by
  unfold execVictimWritebackSend
  dsimp only
  split <;> exact .next _

theorem execVictimWritebackAck_goesOn (die slice : Nat) (s : State) : GoesOn (execVictimWritebackAck die slice s) := by
  unfold execVictimWritebackAck
  dsimp only
  split <;> exact .next _

theorem execTierConversionComplete_goesOn (die slice : Nat) (s : State) : GoesOn (execTierConversionComplete die slice s) := by
  unfold execTierConversionComplete
  dsimp only
  split <;> exact .next _

theorem execSegmentRemapStart_goesOn (u : SpareUnit) (s : State) : GoesOn (execSegmentRemapStart u s) := by
  cases u with
  | segment d i seg =>
    refine .ite (.next _) ?_
    split <;> exact .next _
  | frame h f => exact .ite (.next _) (.ite (.next _) (.next _))

theorem execSegmentRemapComplete_goesOn (u : SpareUnit) (s : State) : GoesOn (execSegmentRemapComplete u s) := by
  cases u with
  | segment d i seg =>
    dsimp only [execSegmentRemapComplete]
    split
    · exact .next _
    · exact .ite (.next _) (.next _)
  | frame h f => exact .ite (.next _) (.next _)

theorem execRotationSwapStart_goesOn (core : Nat) (s : State) : GoesOn (execRotationSwapStart core s) := by
  refine .ite (.next _) ?_
  split <;> exact .next _

theorem execStandinEntryCheckDone_goesOn (core : Nat) (ok : Bool) (s : State) : GoesOn (execStandinEntryCheckDone core ok s) := by
  unfold execStandinEntryCheckDone
  split
  · exact .ite (.next _) (.ite (.next _) (.next _))
  · exact .next _

theorem execStandinIdentityMove_goesOn (core : Nat) (s : State) : GoesOn (execStandinIdentityMove core s) := by
  unfold execStandinIdentityMove
  split
  · refine .ite (.next _) (.ite (.next _) ?_)
    split
    exact .ite (.next _) (.ite (.next _) (.next _))
  · exact .next _

theorem execCoreWatchdogTimeout_goesOn (die : Nat) (p : Option Nat) (s : State) : GoesOn (execCoreWatchdogTimeout die p s) := by
  refine .ite (.next _) ?_
  cases p with
  | some p => exact .next _
  | none => exact .next _

theorem execMgmtWatchdogTimeout_goesOn (m : Nat) (s : State) : GoesOn (execMgmtWatchdogTimeout m s) := by
  refine .ite (.next _) ?_
  dsimp only
  split <;> exact .next _

theorem execUnitRestartComplete_goesOn (u : Unit_) (s : State) : GoesOn (execUnitRestartComplete u s) := by
  cases u with
  | engine e => exact .ite (.next _) (.next _)
  | ioDie x => exact .ite (.next _) (.next _)
  | hbm h => exact .next _

theorem execBootImageVerified_goesOn (okA okB : Bool) (s : State) : GoesOn (execBootImageVerified okA okB s) := by
  refine .ite (.next _) (.ite (.next _) ?_)
  dsimp only
  split <;> exact .next _

/-! ### All commands -/

/-- The meaning of every command goes on. -/
theorem exec_goesOn (c : Instr) (s : State) : GoesOn (exec c s) := by
  cases c with
  | groupPark | storeBufferDrain | lmBinsMerge | clipTotalUpdate | tscReferenceReturn | tierFillComplete | l1Writeback | patrolScrub
  | errFaultHeadWrite | faultReplay | faultAbandon | waitRegisterDeferred | pmiRingBaseWrite | pmiRspHeadWrite | generationRaise
  | orphanLinkTimeout | orphanHeartbeatTimeout | pcieLinkDown | barResize | untrustedRequest | pcieCfgWrite | timePacketSend
  | fabConfigWrite | fabRouteDataWrite | hbmRetrain | errDumpCtlWrite | warmRestart | release | errEringBaseWrite | errEringHeadWrite
  | power12vApply | mainSwitchClose | perstDeassert | mainPowerOn | boardCapWSet | pldmFirmwareUpdate | jtagInstruction
  | protectionStop | pmiReqTailWrite | registerReadRefused | pciePortReturn | vfLeaveService | spareLaneRotation => exact .next _
  | syncResultReturn | joinHoldExpire | checkpointWriteComplete | spareSwitchDone | governorTick | quadIdleDrop | quadWritebackDone
  | quadRetentionReached | budgetLend | quadWakeComplete | budgetReturn | tscReferenceLoss | homeAnswerTimeout | packetComplete
  | launchDeferralTick | shareEval | occupancySample | dailiesPeriodicWrite | pcieLinkReset | bar2Read | bar2Write | linkPacketSend
  | laneLockLoss | laneSpareResume | laneRetrainTick | ppsPulse | coreSelfTestDone | dumpCopyComplete | hbmTrainingDone
  | tierSelfTestDone | ready | mainPowerOff | auxSupplyLoss | input48vReturn | fabricRefclkLoss | fabricRefclkReturn | vrPhaseFailure
  | pcieLinkUp => exact .ite (.next _) (.next _)
  | budgetTick | tscTimeLowRead | dieRestartComplete | functionLevelReset | bar0AccessRefused | portTrainingComplete | timePacket
  | fencedCoreRetest | fatalEnter => exact .ite (.next _) (.ite (.next _) (.next _))
  | ringEntryFetch => exact .ite (.next _) (.ite (.next _) (.ite (.next _) (.next _)))
  | linkPacket => exact .ite (.next _) (.ite (.next _) (.ite (.next _) (.ite (.next _) (.next _))))
  | engineInternalError => exact .ite (.ite (.next _) (.next _)) (.ite (.next _) (.next _))
  | extentSet | fenceO | voteBallot | voteMatch | gsync | bra | tscRead => exact .issue fun _ _ => .next _
  | accRead | accClear | ldl | stl | exit => exact .issue fun _ _ => .ite (.next _) (.next _)
  | uniLdl => exact .issue fun _ _ => .ite (.next _) (.ite (.next _) (.next _))
  | st => exact .issue fun _ _ => .ite (.next _) (.ite (.next _) (.ite (.next _) (.ite (.next _) (.next _))))
  | waitCancel => exact .arrival fun _ => .next _
  | intAdd | intSub | intAnd | intOr | intXor | intShl | intShr | intTest | intMul | intMac | intMulWide | intMacWide | f32Add | f32Mul
  | f32Mac | f32Test | f32Max | f32Min | f32Recip | f32Rsqrt | f32Exp2 | f32Log2 | f32Sin | f32Cos | f64Add | f64Mul | f64Mac | f64Test
  | f64Max | f64Min | conv =>
    dsimp only [exec, execIntAdd, execIntSub, execIntAnd, execIntOr, execIntXor, execIntShl, execIntShr, execIntTest, execIntMul,
      execIntMac, execIntMulWide, execIntMacWide, execF32Add, execF32Mul, execF32Mac, execF32Test, execF32Max, execF32Min, execF32Recip,
      execF32Rsqrt, execF32Exp2, execF32Log2, execF32Sin, execF32Cos, execF64Add, execF64Mul, execF64Mac, execF64Test, execF64Max,
      execF64Min, execConv, int2, intShift, f32Op1, f32Op2, f64Op2]
    exact alu_goesOn ..
  | uniAdd | uniMov | uniShl =>
    dsimp only [exec, execUniAdd, execUniMov, execUniShl]
    exact aluU_goesOn ..
  | shflIdx | shflUp | shflDown | shflXor =>
    dsimp only [exec, execShflIdx, execShflUp, execShflDown, execShflXor]
    exact shfl_goesOn ..
  | voteAll | voteAny =>
    dsimp only [exec, execVoteAll, execVoteAny]
    exact voteP_goesOn ..
  | ld | ldRsv =>
    dsimp only [exec, execLd, execLdRsv]
    exact loadIssue_goesOn ..
  | stCnd | atomAdd | atomSub | atomAnd | atomOr | atomXor | atomMin | atomMax | atomExch | atomCas | atomFadd =>
    dsimp only [exec, execStCnd, execAtomAdd, execAtomSub, execAtomAnd, execAtomOr, execAtomXor, execAtomMin, execAtomMax, execAtomExch,
      execAtomCas, execAtomFadd, atomic]
    exact allOrNone_goesOn ..
  | fenceC | fenceCInv =>
    dsimp only [exec, execFenceC, execFenceCInv]
    exact fenceC_goesOn ..
  | syncAdd | syncSub | syncSet | syncTrydec | syncWaitGe | syncWaitEq | syncWaitNz =>
    dsimp only [exec, execSyncAdd, execSyncSub, execSyncSet, execSyncTrydec, execSyncWaitGe, execSyncWaitEq, execSyncWaitNz]
    exact syncInstr_goesOn ..
  | doorbellAdd | doorbellSub | doorbellSet | watchGe | watchEq | watchNz | doorbellFenceSignal | fenceClear | fenceArm =>
    dsimp only [exec, execDoorbellAdd, execDoorbellSub, execDoorbellSet, execWatchGe, execWatchEq, execWatchNz, execDoorbellFenceSignal,
      execFenceClear, execFenceArm, doorCtr, doorFence]
    exact doorbell_goesOn ..
  | qdoorTail | qdoorChead =>
    dsimp only [exec, execQdoorTail, execQdoorChead]
    exact onOwnQueue_goesOn ..
  | nop | marker =>
    dsimp only [exec, execNop, execMarker]
    exact packet_goesOn fun _ _ _ => .next _
  | jump =>
    dsimp only [exec, execJump]
    exact packet_goesOn fun _ _ _ => .ite (.next _) (.next _)
  | fenceSignal =>
    dsimp only [exec, execFenceSignal]
    exact packet_goesOn fun _ _ _ => .ite (.next _) (.ite (.next _) (.next _))
  | copy | copy2d | copy3d | fill =>
    dsimp only [exec, execCopy, execCopy2d, execCopy3d, execFill]
    exact packet_goesOn fun _ _ _ => copyPacket_goesOn ..
  | contextCreate | shareSet | quotaSet | tierConvert | faultQueueConfig | notifyRingConfig | parkRingConfig | dailiesQuery
  | dailiesPeriodic | shareGroupSet | deviceInfo | coreMap | spareState | selfTest | coherenceMode | powerCap | withdrawnRanges
  | fwStage | fwActivate | attachRead | heartbeat =>
    dsimp only [exec, execContextCreate, execShareSet, execQuotaSet, execTierConvert, execFaultQueueConfig, execNotifyRingConfig,
      execParkRingConfig, execDailiesQuery, execDailiesPeriodic, execShareGroupSet, execDeviceInfo, execCoreMap, execSpareState,
      execSelfTest, execCoherenceMode, execPowerCap, execWithdrawnRanges, execFwStage, execFwActivate, execAttachRead, execHeartbeat,
      ringReq]
    exact pmi_goesOn ..
  | contextDestroy | snapshotArm | map | unmap | counterAlloc | counterFree | counterConfigure | counterQuery | fenceTableRegister
  | queueCreate | parkDecide | mailboxConfig =>
    dsimp only [exec, execContextDestroy, execSnapshotArm, execMap, execUnmap, execCounterAlloc, execCounterFree, execCounterConfigure,
      execCounterQuery, execFenceTableRegister, execQueueCreate, execParkDecide, execMailboxConfig]
    exact pmiCtx_goesOn ..
  | mma => exact execMma_goesOn ..
  | tseqStart => exact execTseqStart_goesOn ..
  | tseqWait => exact execTseqWait_goesOn ..
  | cut => exact execCut_goesOn ..
  | loadReply => exact execLoadReply_goesOn ..
  | planeStep => exact execPlaneStep_goesOn ..
  | kgroupUpdate => exact execKgroupUpdate_goesOn ..
  | retakeRunStart => exact execRetakeRunStart_goesOn ..
  | mmaRetire => exact execMmaRetire_goesOn ..
  | tseqProgramStart => exact execTseqProgramStart_goesOn ..
  | haloPlace => exact execHaloPlace_goesOn ..
  | haloAck => exact execHaloAck_goesOn ..
  | haloTimeout => exact execHaloTimeout_goesOn ..
  | tseqFetchReturn => exact execTseqFetchReturn_goesOn ..
  | detailFetchReturn => exact execDetailFetchReturn_goesOn ..
  | tseqPassStart => exact execTseqPassStart_goesOn ..
  | tseqStoreComplete => exact execTseqStoreComplete_goesOn ..
  | tseqProgramComplete => exact execTseqProgramComplete_goesOn ..
  | capTakesEffect => exact execCapTakesEffect_goesOn ..
  | quadWake => exact execQuadWake_goesOn ..
  | homeRequest => exact execHomeRequest_goesOn ..
  | victimWritebackSend => exact execVictimWritebackSend_goesOn ..
  | victimWritebackAck => exact execVictimWritebackAck_goesOn ..
  | tierConversionComplete => exact execTierConversionComplete_goesOn ..
  | segmentRemapStart => exact execSegmentRemapStart_goesOn ..
  | segmentRemapComplete => exact execSegmentRemapComplete_goesOn ..
  | tlbMissWalkStart => exact execTlbMissWalkStart_goesOn ..
  | pageWalkComplete => exact execPageWalkComplete_goesOn ..
  | mappingChangeComplete => exact execMappingChangeComplete_goesOn ..
  | counterOp => exact execCounterOp_goesOn ..
  | waitTimeout => exact execWaitTimeout_goesOn ..
  | submissionHeadWrite => exact execSubmissionHeadWrite_goesOn ..
  | timestamp => exact execTimestamp_goesOn ..
  | signal => exact execSignal_goesOn ..
  | wait => exact execWait_goesOn ..
  | launch => exact execLaunch_goesOn ..
  | remotePut => exact execRemotePut_goesOn ..
  | remoteGet => exact execRemoteGet_goesOn ..
  | remoteWait => exact execRemoteWait_goesOn ..
  | groupPlace => exact execGroupPlace_goesOn ..
  | groupStart => exact execGroupStart_goesOn ..
  | launchComplete => exact execLaunchComplete_goesOn ..
  | slotGrant => exact execSlotGrant_goesOn ..
  | residencyRotate => exact execResidencyRotate_goesOn ..
  | groupSave => exact execGroupSave_goesOn ..
  | stopBoundExpire => exact execStopBoundExpire_goesOn ..
  | hangDeclare => exact execHangDeclare_goesOn ..
  | groupRestore => exact execGroupRestore_goesOn ..
  | arrayBlockTimeout => exact execArrayBlockTimeout_goesOn ..
  | mailboxWrite => exact execMailboxWrite_goesOn ..
  | contextReset => exact execContextReset_goesOn ..
  | queueDestroy => exact execQueueDestroy_goesOn ..
  | selfTestDone => exact execSelfTestDone_goesOn ..
  | microcodeDieDone => exact execMicrocodeDieDone_goesOn ..
  | plowinCommit => exact execPlowinCommit_goesOn ..
  | claim => exact execClaim_goesOn ..
  | orphanTimeExpire => exact execOrphanTimeExpire_goesOn ..
  | packetForward => exact execPacketForward_goesOn ..
  | put => exact execPut_goesOn ..
  | get => exact execGet_goesOn ..
  | fabricWait => exact execFabricWait_goesOn ..
  | putAck => exact execPutAck_goesOn ..
  | getData => exact execGetData_goesOn ..
  | waitDone => exact execWaitDone_goesOn ..
  | remoteRetry => exact execRemoteRetry_goesOn ..
  | remoteRequestTimeout => exact execRemoteRequestTimeout_goesOn ..
  | portDownTimeout => exact execPortDownTimeout_goesOn ..
  | timeParentTimeout => exact execTimeParentTimeout_goesOn ..
  | fabDropsRead => exact execFabDropsRead_goesOn ..
  | rotationSwapStart => exact execRotationSwapStart_goesOn ..
  | standinEntryCheckDone => exact execStandinEntryCheckDone_goesOn ..
  | standinIdentityMove => exact execStandinIdentityMove_goesOn ..
  | coreWatchdogTimeout => exact execCoreWatchdogTimeout_goesOn ..
  | mgmtWatchdogTimeout => exact execMgmtWatchdogTimeout_goesOn ..
  | registerWrite => exact execRegisterWrite_goesOn ..
  | bootImageVerified => exact execBootImageVerified_goesOn ..
  | unitRestartComplete => exact execUnitRestartComplete_goesOn ..
  | ringHeadWrite => exact execRingHeadWrite_goesOn ..

/-- Settles O49: the meaning of each command is a case distinction whose branches are all next states. -/
theorem everyCommandCompletes : Obligations.EveryCommandCompletes := fun c s => (completes_iff_goesOn c s).mpr (exec_goesOn c s)

end Sys2Proof.Machine

/-! Registers and doorbells of the host (O38). A register is written by `regWrite`, which performs the action of a legal access
and records any other; the doorbells and ring heads are that action without the access. -/
namespace Sys2Proof.Machine
open Sys2Proof

/-- The register is one that the requester reaches: a core reaches each, a function its own (R364). -/
def Who.owns (w : Who) (s : State) (r : Reg) : Bool := match w with | .fn f => ownReg s f r | .core _ => true

@[simp] theorem Who.owns_fn (f : Nat) (s : State) (r : Reg) : (Who.fn f).owns s r = ownReg s f r := rfl
@[simp] theorem Who.owns_core (p : Nat) (s : State) (r : Reg) : (Who.core p).owns s r = true := rfl

theorem accWho_owns_iff (a : RegAcc) (s : State) (r : Reg) : (accWho a).owns s r = true ↔ ∀ f, a.fn = some f → ownReg s f r = true := by
  cases h : a.fn <;> simp [accWho, h]

theorem regSized_iff (a size : Nat) : regSized a size = true ↔ size = 8 ∧ a % 8 = 0 ∨ size = 4 ∧ a % 4 = 0 := by
  simp [regSized]

/-- The bits of the halves that a write covers, and the value with its bits in place. -/
def writeMask (a size : Nat) : DWord := if size = 8 then BitVec.allOnes 64 else if a % 8 = 0 then 0xFFFFFFFF else 0xFFFFFFFF00000000
def writeBits (a size : Nat) (v : DWord) : DWord := if size = 8 || a % 8 = 0 then v else BitVec.ofNat 64 (v.toNat % 2 ^ 32 * 2 ^ 32)

/-- A legal write has the register's action on the bits it writes. -/
theorem regWrite_legal {w : Who} {a size : Nat} {r : Reg} {s : State} (v : DWord) (hw : BitVec 8) (bus : Option Nat)
    (hr : regAt s (a / 8 * 8) = some r) (hs : regSized a size = true) (ho : w.owns s r = true) :
    regWrite w a size v hw bus s = regAction w r (writeBits a size v) (writeMask a size) hw bus s := by
  unfold regWrite
  rw [hr]
  cases w with
  | fn f => simp [hs, show ownReg s f r = true from ho, writeBits, writeMask]
  | core p => simp [hs, writeBits, writeMask]

/-- A write that no register of the requester takes is recorded, and nothing else. -/
theorem regWrite_refused {w : Who} {a size : Nat} {s : State} (v : DWord) (hw : BitVec 8) (bus : Option Nat)
    (h : ∀ r, regAt s (a / 8 * 8) = some r → regSized a size = true → w.owns s r = false) :
    regWrite w a size v hw bus s = errAdd (regRefused s w a) s := by
  unfold regWrite
  cases hr : regAt s (a / 8 * 8) with
  | none => rfl
  | some r =>
    have hc : (!regSized a size || !w.owns s r) = true := by
      cases hs : regSized a size with
      | false => rfl
      | true => simp [h r hr hs]
    cases w with
    | fn f => exact if_pos hc
    | core p => exact if_pos hc

/-- A write of the host or of a core that names no MSI-X table is a write of a register. -/
theorem exec_registerWrite {a : RegAcc} {s : State} (v : DWord) (hw : BitVec 8) (hm : accMay s a = true) (hx : a.msix = none) :
    exec (.registerWrite a v hw) s = .next (regWrite (accWho a) a.pa a.size v hw none s) := by
  show execRegisterWrite a v hw s = _
  simp [execRegisterWrite, hm, hx]

theorem exec_registerWrite_legal {a : RegAcc} {s : State} {r : Reg} (v : DWord) (hw : BitVec 8) (hm : accMay s a = true) (hx : a.msix = none)
    (hr : regAt s (a.pa / 8 * 8) = some r) (ho : ∀ f, a.fn = some f → ownReg s f r = true) (hs : regSized a.pa a.size = true) :
    exec (.registerWrite a v hw) s =
      .next (regAction (accWho a) r (writeBits a.pa a.size v) (writeMask a.pa a.size) hw none s) := by
  rw [exec_registerWrite v hw hm hx, regWrite_legal v hw none hr hs ((accWho_owns_iff a s r).mpr ho)]

theorem exec_registerWrite_refused {a : RegAcc} {s : State} (v : DWord) (hw : BitVec 8) (hm : accMay s a = true) (hx : a.msix = none)
    (h : regAt s (a.pa / 8 * 8) = none ∨ regSized a.pa a.size = false ∨
      ∃ f r, a.fn = some f ∧ regAt s (a.pa / 8 * 8) = some r ∧ ownReg s f r = false) :
    exec (.registerWrite a v hw) s = .next (errAdd (regRefused s (accWho a) a.pa) s) := by
  rw [exec_registerWrite v hw hm hx, regWrite_refused]
  intro r hr hs
  rcases h with hn | hn | ⟨f, r', hf, hr', ho⟩
  · simp [hn] at hr
  · simp [hn] at hs
  · obtain rfl : r' = r := Option.some.inj (hr'.symm.trans hr)
    simp [accWho, hf, ho]

/-- A write of the function's MSI-X table stores the bytes (R363). -/
theorem exec_registerWrite_msix {a : RegAcc} {s : State} {f i : Nat} (v : DWord) (hw : BitVec 8) (hm : accMay s a = true) (hf : a.fn = some f)
    (hx : a.msix = some i) (hs : regSized i a.size = true) (hi : i + a.size ≤ 32768) :
    exec (.registerWrite a v hw) s = .next (msixWrite f i (leBytes a.size v.toNat) s) := by
  show execRegisterWrite a v hw s = _
  simp [execRegisterWrite, hm, hf, hx, hs, hi]

theorem exec_registerReadRefused {a : RegAcc} {s : State} (hm : accMay s a = true) (hr : readRefused s a = true) :
    exec (.registerReadRefused a) s = .next ((errAdd (regRefused s (accWho a) a.pa) s).onLastRead fun _ => 0) := by
  show execRegisterReadRefused a s = _
  simp [execRegisterReadRefused, hm, hr]

theorem exec_pmiReqTailWrite {f : Nat} {s : State} (v : Word) (hf : f < 64) (hl : anyLink s = true) :
    exec (.pmiReqTailWrite f v) s = .next (pmiReqTail (.fn f) f v s) := by
  show execPmiReqTailWrite f v s = _
  simp [execPmiReqTailWrite, hf, hl]

/-- The rings whose heads RING_HEAD_WRITE advances. -/
theorem exec_ringHeadWrite {f n : Nat} {i : RingId} {s : State} (v : Word) (hf : f < 64) (hl : anyLink s = true)
    (hi : n = 0 ∧ i = .park ∨ n = 1 ∧ i = .notify ∨ n = 2 ∧ i = .snap) :
    exec (.ringHeadWrite f n v) s = .next (ringHead f i v s) := by
  show execRingHeadWrite f n v s = _
  have hg : (decide (64 ≤ f) || !anyLink s) = false := by simp [hl, hf]
  unfold execRingHeadWrite
  rw [if_neg (by simp [hg])]
  rcases hi with ⟨rfl, rfl⟩ | ⟨rfl, rfl⟩ | ⟨rfl, rfl⟩ <;> rfl

theorem headOk_iff (old new tail : Word) : headOk old new tail = true ↔ (new - old).toNat < 2 ^ 31 ∧ (tail - new).toNat < 2 ^ 31 := by
  simp [headOk]

/-- Settles O38, by the rule of each access. -/
theorem registerAccessesComplete : Obligations.RegisterAccessesComplete := by
  intro s
  refine ⟨fun a v hw hm hx => ⟨fun r hr ho => ⟨fun h8 ha => ?_, fun h4 ha => ?_, fun h4 ha => ?_⟩, exec_registerWrite_refused v hw hm hx⟩,
    fun a f i v hw hm hf hx hs hi => exec_registerWrite_msix v hw hm hf hx hs hi, fun a => exec_registerReadRefused, fun f v hf hl => ?_,
    fun f v n i hf hl hi => ?_⟩
  · have hs := (regSized_iff a.pa a.size).mpr (.inl ⟨h8, ha⟩)
    rw [exec_registerWrite_legal v hw hm hx hr ho hs]
    simp [writeBits, writeMask, h8]
  · have hs := (regSized_iff a.pa a.size).mpr (.inr ⟨h4, by omega⟩)
    rw [exec_registerWrite_legal v hw hm hx hr ho hs]
    simp [writeBits, writeMask, h4, ha]
  · have hs := (regSized_iff a.pa a.size).mpr (.inr ⟨h4, by omega⟩)
    rw [exec_registerWrite_legal v hw hm hx hr ho hs]
    simp [writeBits, writeMask, h4, ha]
  · rw [exec_pmiReqTailWrite v hf hl]
    simp [pmiReqTail]
  · rw [exec_ringHeadWrite v hf hl hi]
    simp [ringHead, headOk_iff]

end Sys2Proof.Machine

/-! Reports, tests, modes and live updates (O34): a request that Plowin takes is performed on the state with the request taken
(`pmi_go`), and its answer writes nothing but responses. -/
namespace Sys2Proof.Machine
open Sys2Proof

/-! ### What an answer leaves unchanged -/

/-- From `s` to `t` nothing but responses was written: host memory, the functions' rings, raised vectors and the responses. -/
structure OnlyResponds (s t : State) : Prop where
  state : { t with mem := s.mem, fns := s.fns, msix := s.msix, mgmt := s.mgmt } = s
  mgmt : { t.mgmt with responses := s.mgmt.responses, heldRsp := s.mgmt.heldRsp } = s.mgmt

namespace OnlyResponds
variable {s t u : State}

theorem refl (s : State) : OnlyResponds s s := ⟨rfl, rfl⟩

theorem trans (h1 : OnlyResponds s t) (h2 : OnlyResponds t u) : OnlyResponds s u := by
  obtain ⟨hs1, hm1⟩ := h1
  obtain ⟨hs2, hm2⟩ := h2
  constructor
  · rw [← hs1]
    rw [← hs2]
  · rw [← hm1]
    rw [← hm2]

theorem ite {c : Prop} [Decidable c] (ht : OnlyResponds s t) (hu : OnlyResponds s u) : OnlyResponds s (if c then t else u) := by
  split
  · exact ht
  · exact hu

theorem foldl {α : Type} {f : State → α → State} (hf : ∀ s x, OnlyResponds s (f s x)) (l : List α) : ∀ s, OnlyResponds s (l.foldl f s) := by
  induction l with
  | nil => exact refl
  | cons x l ih => exact fun s => (hf s x).trans (ih _)

theorem qs (h : OnlyResponds s t) : t.qs = s.qs := (congrArg State.qs h.state :)
theorem groups (h : OnlyResponds s t) : t.groups = s.groups := (congrArg State.groups h.state :)
theorem engines (h : OnlyResponds s t) : t.engines = s.engines := (congrArg State.engines h.state :)
theorem tier (h : OnlyResponds s t) : t.tier = s.tier := (congrArg State.tier h.state :)
theorem ucDies (h : OnlyResponds s t) : t.mgmt.ucDies = s.mgmt.ucDies := (congrArg Mgmt.ucDies h.mgmt :)
theorem active (h : OnlyResponds s t) : t.mgmt.active = s.mgmt.active := (congrArg Mgmt.active h.mgmt :)
theorem target (h : OnlyResponds s t) : t.mgmt.target = s.mgmt.target := (congrArg Mgmt.target h.mgmt :)
theorem commitAt (h : OnlyResponds s t) : t.mgmt.commitAt = s.mgmt.commitAt := (congrArg Mgmt.commitAt h.mgmt :)

end OnlyResponds

theorem hostWr_onlyResponds (s : State) (a : Nat) (l : List Byte) : OnlyResponds s (s.hostWr a l) := ⟨rfl, rfl⟩
theorem onFn_onlyResponds (s : State) (f : Nat) (g : Fn → Fn) : OnlyResponds s (s.onFn f g) := ⟨rfl, rfl⟩
theorem responses_onlyResponds (s : State) (l : Mgmt → List PmiRsp) : OnlyResponds s (s.onMgmt fun m => { m with responses := l m }) := ⟨rfl, rfl⟩
theorem heldRsp_onlyResponds (s : State) (l : Mgmt → List PmiRsp) : OnlyResponds s (s.onMgmt fun m => { m with heldRsp := l m }) := ⟨rfl, rfl⟩

theorem msixRaise_onlyResponds (f vec : Nat) (s : State) : OnlyResponds s (msixRaise f vec s) := .ite ⟨rfl, rfl⟩ ⟨rfl, rfl⟩

theorem rspPut_onlyResponds (s : State) (r : PmiRsp) : OnlyResponds s (rspPut s r) := by
  unfold rspPut
  dsimp only
  refine .ite (.trans ?put (msixRaise_onlyResponds ..)) ?put
  exact (((OnlyResponds.ite (.refl s) (hostWr_onlyResponds ..)).trans (hostWr_onlyResponds ..)).trans (onFn_onlyResponds ..)).trans
    (responses_onlyResponds ..)

theorem rspFlush_onlyResponds (s : State) : OnlyResponds s (rspFlush s) := by
  unfold rspFlush
  refine (heldRsp_onlyResponds s fun _ => []).trans (.foldl (fun t r => ?_) _ _)
  exact .ite (rspPut_onlyResponds t r) (heldRsp_onlyResponds ..)

theorem pmiAnswer_onlyResponds (h : Hdr) (code status detail : Nat) (payload : List Byte) (s : State) :
    OnlyResponds s (pmiAnswer h code status detail payload s) := by
  unfold pmiAnswer pmiAnswerAt
  exact .ite (.refl s) (.trans (heldRsp_onlyResponds ..) (rspFlush_onlyResponds _))

theorem pmiOk_onlyResponds (h : Hdr) (code : Nat) (s : State) : OnlyResponds s (pmiOk h code s) := pmiAnswer_onlyResponds ..

/-! ### Reports -/

theorem pmiValid_of_ok {h : Hdr} {code : Nat} {ok : Bool} {run : State → State} {s : State} (hk : ok = true) :
    pmiValid h code ok run s = run s := if_pos hk

theorem exec_deviceInfo {h : Hdr} {s : State} (hr : pmiGo s h = true) : exec (.deviceInfo h) s =
    .next (pmiAnswer h 0x0050 pOk 0 (leBytes 1 (variantCode s.variant) ++ leBytes 1 2 ++ leBytes 2 s.devId ++ leBytes 4 s.draw.toNat)
      (taken h s).drawn) := by
  dsimp only [exec, execDeviceInfo]
  rw [pmi_go hr (.inl rfl)]
  rfl

theorem exec_coreMap {h : Hdr} {s : State} (hr : pmiGo s h = true) : exec (.coreMap h) s =
    .next (pmiAnswer h 0x0051 pOk 0 (leBytes 8 s.mesh.seq ++ (List.range 1024).flatMap fun c => leBytes 2 ((s.phys c).getD 0xFFFF)) (taken h s)) := by
  dsimp only [exec, execCoreMap]
  rw [pmi_go hr (.inl rfl)]
  rfl

theorem exec_withdrawnRanges {h : Hdr} {s : State} (hr : pmiGo s h = true) : exec (.withdrawnRanges h) s =
    .next (pmiAnswer h 0x0056 pOk 0 ((withdrawnRanges s).flatMap fun (a, n) => leBytes 8 a ++ leBytes 8 n) (taken h s)) := by
  dsimp only [exec, execWithdrawnRanges]
  rw [pmi_go hr (.inl rfl)]
  rfl

theorem exec_spareState {h : Hdr} {s : State} {a : Nat} (hr : pmiGo s h = true) (h0 : a ≠ 0) (ha : a + 808 ≤ 2 ^ 64) :
    exec (.spareState h a) s =
      .next (pmiAnswerAt true { h with payAddr := a } 0x0052 pOk 0 (spareReport (taken h s)) (taken h s)) := by
  dsimp only [exec, execSpareState]
  rw [pmi_go hr (.inl rfl), pmiValid_of_ok]
  simpa [h0] using ha

/-! ### Self-tests -/

theorem exec_selfTest {h : Hdr} {s : State} {target unit : Nat} (hr : pmiGo s h = true) (hf : h.fn = 0) (hb : testBad s target unit = none) :
    exec (.selfTest h target unit) s = .next (testQueue h target unit (taken h s)) := by
  have hb' : testBad (taken h s) target unit = none := hb
  dsimp only [exec, execSelfTest]
  rw [pmi_go hr (.inr hf), hb']

/-- The first finished test of the queue. -/
theorem find?_testOver {s : State} {l pre post : List SelfTest} {t : SelfTest} (hl : l = pre ++ t :: post)
    (hp : ∀ x ∈ pre, x.cur.isSome = true ∨ x.next_ < (testCores s x).length) (hc : t.cur = none) (hn : (testCores s t).length ≤ t.next_) :
    l.find? (testOver s) = some t := by
  refine List.find?_eq_some_iff_append.mpr ⟨by simp [testOver, hc, hn], pre, post, hl, fun x hx => ?_⟩
  rcases hp x hx with h | h
  · simp [testOver, Option.isNone_eq_false_iff.mpr h]
  · simp [testOver, h]

/-- It is answered with its result and leaves the queue (R387). -/
theorem exec_selfTestDone {s : State} {bad : Nat} {pre post : List SelfTest} {t : SelfTest} (hl : s.mgmt.tests = pre ++ t :: post) (ht : t ∉ pre)
    (hp : ∀ x ∈ pre, x.cur.isSome = true ∨ x.next_ < (testCores s x).length) (hc : t.cur = none) (hn : (testCores s t).length ≤ t.next_)
    (hr : s.mgmt.ready = true) {n : Nat} (hb : n = (if t.target = 3 then bad % 10 else t.bad)) :
    exec (.selfTestDone bad) s = .next (testKick (pmiAnswer t.h 0x0053 pOk ((if n = 0 then 0 else 1) + 256 * n) []
      (s.onMgmt fun m => { m with tests := pre ++ post }))) := by
  have he : s.mgmt.tests.erase t = pre ++ post := by rw [hl, List.erase_append_right _ ht, List.erase_cons_head]
  dsimp only [exec, execSelfTestDone]
  rw [find?_testOver hl hp hc hn]
  simp [hr, hb, State.onMgmt, he]

/-! ### Modes -/

theorem exec_coherenceMode {h : Hdr} {s : State} (down : Bool) (hr : pmiGo s h = true) (hf : h.fn = 0) (hl : liveCtxs s = []) :
    exec (.coherenceMode h down) s = .next (pmiOk h 0x0054 ((taken h s).onTier fun t => { t with down := down })) := by
  have hl' : liveCtxs (taken h s) = [] := hl
  dsimp only [exec, execCoherenceMode]
  rw [pmi_go hr (.inr hf), hl']
  rfl

theorem exec_powerCap {h : Hdr} {s : State} {w : Nat} (hr : pmiGo s h = true) (hf : h.fn = 0) (h1 : minCap ≤ w) (h2 : w ≤ tdp s.variant) :
    exec (.powerCap h w) s = .next (pmiOk h 0x0055 ((taken h s).onPwr fun p => { p with newCaps := p.newCaps ++ [(w, s.now + 20000000)] })) := by
  dsimp only [exec, execPowerCap]
  rw [pmi_go hr (.inr hf), pmiValid_of_ok (by simp [h1, h2])]
  rfl

/-! ### Live updates -/

theorem exec_fwStage_plowin {h : Hdr} {s : State} {ver : Nat} (hr : pmiGo s h = true) (hf : h.fn = 0) (hv : s.mgmt.minVer ≤ ver) :
    exec (.fwStage h 0 true ver) s =
      .next (pmiOk h 0x0060 ((taken h s).onMgmt fun m => { m with staged := true, cores := m.cores.upd m.target fun c => { c with newFw := true } })) := by
  have hv' : ¬ ver < (taken h s).mgmt.minVer := Nat.not_lt.mpr hv
  dsimp only [exec, execFwStage]
  rw [pmi_go hr (.inr hf)]
  simp [hv']

theorem exec_fwStage_microcode {h : Hdr} {s : State} {ver : Nat} (hr : pmiGo s h = true) (hf : h.fn = 0) (hv : s.mgmt.minVer ≤ ver) :
    exec (.fwStage h 1 true ver) s = .next (pmiOk h 0x0060 ((taken h s).onMgmt fun m => { m with stagedUc := true })) := by
  have hv' : ¬ ver < (taken h s).mgmt.minVer := Nat.not_lt.mpr hv
  dsimp only [exec, execFwStage]
  rw [pmi_go hr (.inr hf)]
  simp [hv']

theorem exec_fwActivate_plowin {h : Hdr} {s : State} (dies : List Nat) (hr : pmiGo s h = true) (hf : h.fn = 0) (hm : 2 ≤ mgmtCores s)
    (hs : s.mgmt.staged = true) (hc : s.mgmt.commitAt = none) :
    exec (.fwActivate h 0 dies) s = .next (pmiOk h 0x0061 (switchOver (taken h s))) := by
  have hg : (decide (mgmtCores (taken h s) < 2) || !(taken h s).mgmt.staged || (taken h s).mgmt.commitAt.isSome) = false := by
    have hm' : ¬ mgmtCores (taken h s) < 2 := Nat.not_lt.mpr hm
    simp [hm', show (taken h s).mgmt.staged = true from hs, show (taken h s).mgmt.commitAt = none from hc]
  dsimp only [exec, execFwActivate]
  rw [pmi_go hr (.inr hf), hg]
  rfl

theorem exec_fwActivate_microcode {h : Hdr} {s : State} {dies : List Nat} {d : Nat} {rest : List Nat} (hr : pmiGo s h = true) (hf : h.fn = 0)
    (hd : (List.range 8).filter dies.contains = d :: rest) (h8 : ∀ x ∈ dies, x < 8) (hs : s.mgmt.stagedUc = true) (hu : s.mgmt.ucDies = []) :
    exec (.fwActivate h 1 dies) s = .next (enginesOut d ((taken h s).onMgmt fun m => { m with ucDies := d :: rest, ucReq := some h })) := by
  have h8' : ¬ (dies.any (8 ≤ ·)) = true := by simpa using h8
  dsimp only [exec, execFwActivate]
  rw [pmi_go hr (.inr hf), if_neg (by simp), if_pos rfl, hd]
  dsimp only
  rw [if_neg h8', if_neg (by simp [show (taken h s).mgmt.stagedUc = true from hs, show (taken h s).mgmt.ucDies = [] from hu])]

theorem exec_plowinCommit {s : State} {t0 a : Nat} (hc : s.mgmt.commitAt = some t0) (hf : s.mgmt.formerActive = some a) (ht : t0 ≤ s.now) :
    exec .plowinCommit s = .next (s.onMgmt fun m =>
      { m with commitAt := none, formerActive := none, staged := false, bootSlot := 1 - m.bootSlot, cores := m.cores.mapAll (fun c => { c with newFw := false }),
               standby := a, target := if mgmtCores s < 3 then a else m.standby }) := by
  dsimp only [exec, execPlowinCommit]
  rw [hc, hf]
  simp [Nat.not_lt.mpr ht]

/-! ### Microcode, die by die -/

theorem dieEngines_nodup (d : Nat) : (dieEngines d).Nodup := by
  simp [dieEngines]
  omega

/-- What a change of several engines takes from the tier domain may be read before the first of them. -/
theorem forAll_onEngine_tier (l : List Nat) (g : Tier → Engine → Engine) (s : State) :
    forAll l (fun e t => t.onEngine e (g t.tier)) s = forAll l (fun e t => t.onEngine e (g s.tier)) s := by
  induction l generalizing s with
  | nil => rfl
  | cons e l ih => exact ih (s.onEngine e (g s.tier))

/-- A change of several engines changes the table of engines alone. -/
theorem forAll_onEngine (l : List Nat) (g : Engine → Engine) (s : State) :
    forAll l (fun e s => s.onEngine e g) s = s.onEngines fun t => l.foldl (fun t e => t.upd e g) t := by
  induction l generalizing s with
  | nil => rfl
  | cons e l ih => exact ih (s.onEngine e g)

theorem get_foldl_upd {l : List Nat} (hl : l.Nodup) (g : Engine → Engine) (t : Tbl Engine) (k : Nat) :
    (l.foldl (fun t e => t.upd e g) t).get k = if k ∈ l then g (t.get k) else t.get k := by
  induction l generalizing t with
  | nil => simp
  | cons e l ih =>
    obtain ⟨he, hl⟩ := List.nodup_cons.mp hl
    rw [List.foldl_cons, ih hl, Tbl.get_upd]
    by_cases hk : k = e
    · subst hk; simp [he]
    · simp [hk]

/-- The state in which the engines of the die go on under raised unit generations and the pause of the next die is due. -/
def dieUpdated (d : Nat) (rest : List Nat) (s : State) : State :=
  ((forAll (dieEngines d) (fun e s' => s'.onEngine e fun x => { x with out := (s.tier.dies.get d).fenced, ugen := x.ugen + 1 }) s).onDom d
    fun x => { x with ugen := x.ugen + 1 }).onMgmt fun m => { m with ucDies := rest }

/-- The next die pauses, or the request is answered. -/
def updateGoesOn (rest : List Nat) (u : State) : State :=
  match rest with
  | d :: _ => enginesOut d u
  | [] => match u.mgmt.ucReq with
    | some h => pmiAnswer h 0x0061 pOk 0 [] (u.onMgmt fun m => { m with ucReq := none, stagedUc := false })
    | none => u

theorem exec_microcodeDieDone {s : State} {d : Nat} {rest : List Nat} (hd : s.mgmt.ucDies = d :: rest) :
    exec (.microcodeDieDone d) s = .next (updateGoesOn rest (dieUpdated d rest s)) := by
  dsimp only [exec, execMicrocodeDieDone]
  rw [hd]
  dsimp only
  rw [if_neg (by simp)]
  cases rest with
  | cons d2 r2 => rfl
  | nil =>
    unfold updateGoesOn
    cases hq : (dieUpdated d [] s).mgmt.ucReq <;> (dsimp only [dieUpdated] at hq; rw [hq]; rfl)

theorem dieUpdated_eq (d : Nat) (rest : List Nat) (s : State) : dieUpdated d rest s =
    ((s.onEngines fun t => (dieEngines d).foldl (fun t e => t.upd e fun x => { x with out := (s.tier.dies.get d).fenced, ugen := x.ugen + 1 }) t).onDom d
      fun x => { x with ugen := x.ugen + 1 }).onMgmt fun m => { m with ucDies := rest } := by
  rw [dieUpdated, forAll_onEngine]

theorem dieUpdated_engine_ugen {d e : Nat} (rest : List Nat) (s : State) (he : e ∈ dieEngines d) :
    ((dieUpdated d rest s).engines.get e).ugen = (s.engines.get e).ugen + 1 := by
  rw [dieUpdated_eq]
  show (Tbl.get (List.foldl _ s.engines _) e).ugen = _
  rw [get_foldl_upd (dieEngines_nodup d), if_pos he]

theorem dieUpdated_die_ugen (d : Nat) (rest : List Nat) (s : State) :
    ((dieUpdated d rest s).tier.dies.get d).ugen = (s.tier.dies.get d).ugen + 1 := by
  rw [dieUpdated_eq]
  simp [State.onDom]

/-- Unit generations, the dies still to update, groups and queues stand. -/
structure KeepsUnits (s t : State) : Prop where
  ugen : ∀ e, (t.engines.get e).ugen = (s.engines.get e).ugen
  tier : t.tier = s.tier
  ucDies : t.mgmt.ucDies = s.mgmt.ucDies
  groups : t.groups = s.groups
  qs : t.qs = s.qs

theorem enginesOut_keepsUnits (d : Nat) (s : State) : KeepsUnits s (enginesOut d s) := by
  unfold enginesOut
  rw [forAll_onEngine]
  refine ⟨fun e => ?_, rfl, rfl, rfl, rfl⟩
  show (Tbl.get (List.foldl _ s.engines _) e).ugen = _
  rw [get_foldl_upd (dieEngines_nodup d)]
  split <;> rfl

theorem OnlyResponds.keepsUnits {s t : State} (h : OnlyResponds s t) : KeepsUnits s t :=
  ⟨fun e => by rw [h.engines], h.tier, h.ucDies, h.groups, h.qs⟩

theorem updateGoesOn_keepsUnits (rest : List Nat) (u : State) : KeepsUnits u (updateGoesOn rest u) := by
  cases rest with
  | cons d r => exact enginesOut_keepsUnits d u
  | nil =>
    unfold updateGoesOn
    cases u.mgmt.ucReq with
    | none => exact ⟨fun _ => rfl, rfl, rfl, rfl, rfl⟩
    | some h =>
      obtain ⟨hu, ht, hd, hg, hq⟩ := (pmiAnswer_onlyResponds h 0x0061 pOk 0 [] (u.onMgmt fun m => { m with ucReq := none, stagedUc := false })).keepsUnits
      exact ⟨hu, ht, hd, hg, hq⟩

/-- What a finished die leaves: its engines and itself under raised unit generations, and the rest of the update. -/
theorem microcodeDieDone_leaves {s : State} {d : Nat} {rest : List Nat} :
    let t := updateGoesOn rest (dieUpdated d rest s)
    (∀ e ∈ dieEngines d, (t.engines.get e).ugen = (s.engines.get e).ugen + 1) ∧ (t.tier.dies.get d).ugen = (s.tier.dies.get d).ugen + 1 ∧
    t.mgmt.ucDies = rest ∧ t.groups = s.groups ∧ t.qs = s.qs := by
  obtain ⟨hu, ht, hd, hg, hq⟩ := updateGoesOn_keepsUnits rest (dieUpdated d rest s)
  refine ⟨fun e he => ?_, ?_, ?_, ?_, ?_⟩
  · rw [hu, dieUpdated_engine_ugen rest s he]
  · rw [ht, dieUpdated_die_ugen]
  · rw [hd, dieUpdated_eq]; rfl
  · rw [hg, dieUpdated_eq]; rfl
  · rw [hq, dieUpdated_eq]; rfl

/-- Settles O34, request by request. -/
theorem serviceRequestsComplete : Obligations.ServiceRequestsComplete := by
  intro s h
  refine ⟨fun hr => ⟨exec_deviceInfo hr, exec_coreMap hr, exec_withdrawnRanges hr, fun a h0 ha => exec_spareState hr h0 ha⟩,
    fun target unit hr hf hb => ?_, fun bad pre t post hl ht hp hc hn hr n hb => exec_selfTestDone hl ht hp hc hn hr hb,
    fun down => exec_coherenceMode down, fun w => exec_powerCap,
    fun ver hr hf hv => ⟨exec_fwStage_plowin hr hf hv, exec_fwStage_microcode hr hf hv⟩, fun hr hf hm hs hc dies => ?_,
    fun dies d rest => exec_fwActivate_microcode, fun d rest hd => ?_, fun t0 a => exec_plowinCommit⟩
  · rw [exec_selfTest hr hf hb]
    simp only [testQueue, Bool.and_eq_true, decide_eq_true_eq]
    rfl
  · have ho := pmiOk_onlyResponds h 0x0061 (switchOver (taken h s))
    exact ⟨_, exec_fwActivate_plowin dies hr hf hm hs hc, rfl, ho.active, ho.target, ho.commitAt, ho.groups, ho.qs⟩
  · obtain ⟨he, hx, hu, hg, hq⟩ := microcodeDieDone_leaves (s := s) (d := d) (rest := rest)
    refine ⟨_, exec_microcodeDieDone hd, he, hx, hu, hg, hq, fun u hu => ?_⟩
    obtain rfl : u = dieUpdated d rest s := by
      rw [hu, forAll_onEngine_tier _ fun y x => { x with out := (y.dies.get d).fenced, ugen := x.ugen + 1 }, dieUpdated]
    refine ⟨?_, ?_⟩
    · rintro d2 r2 rfl
      rfl
    · rintro hr rfl hq
      have hq' : (dieUpdated d [] s).mgmt.ucReq = some hr := by rw [dieUpdated_eq]; exact hq
      rw [updateGoesOn, hq']

end Sys2Proof.Machine

/-! What an error record and the wake of a quad leave unchanged, used by the swaps of cores (O41) and the routing of packets
(O44). -/
namespace Sys2Proof.Machine
open Sys2Proof

/-- What no step of a fold changes, the fold does not change. -/
theorem foldl_keeps {σ α β : Type} (v : σ → β) {f : σ → α → σ} (hf : ∀ s x, v (f s x) = v s) (l : List α) :
    ∀ s, v (l.foldl f s) = v s := by
  induction l with
  | nil => exact fun _ => rfl
  | cons x l ih => exact fun s => (ih (f s x)).trans (hf s x)

/-! ### Error records -/

/-- From `s` to `t` nothing but the error unit and memory, where its ring lies, was written. -/
structure OnlyRecords (s t : State) : Prop where
  state : { t with mem := s.mem, err := s.err } = s

namespace OnlyRecords
variable {s t u : State}

theorem refl (s : State) : OnlyRecords s s := ⟨rfl⟩

theorem trans (h1 : OnlyRecords s t) (h2 : OnlyRecords t u) : OnlyRecords s u := by
  obtain ⟨h1⟩ := h1
  obtain ⟨h2⟩ := h2
  constructor
  rw [← h1]
  rw [← h2]

theorem ite {c : Prop} [Decidable c] (ht : OnlyRecords s t) (hu : OnlyRecords s u) : OnlyRecords s (if c then t else u) := by
  split
  · exact ht
  · exact hu

theorem foldl {α : Type} {f : State → α → State} (hf : ∀ s x, OnlyRecords s (f s x)) (l : List α) : ∀ s, OnlyRecords s (l.foldl f s) := by
  induction l with
  | nil => exact refl
  | cons x l ih => exact fun s => (hf s x).trans (ih _)

theorem mesh (h : OnlyRecords s t) : t.mesh = s.mesh := (congrArg State.mesh h.state :)
theorem cores (h : OnlyRecords s t) : t.cores = s.cores := (congrArg State.cores h.state :)
theorem fab (h : OnlyRecords s t) : t.fab = s.fab := (congrArg State.fab h.state :)

end OnlyRecords

theorem onErr_onlyRecords (s : State) (g : ErrUnit → ErrUnit) : OnlyRecords s (s.onErr g) := ⟨rfl⟩

theorem hostWr_onlyRecords (s : State) (bus : Nat) (l : List Byte) : OnlyRecords s (s.hostWr bus l) := ⟨rfl⟩

theorem errPut_onlyRecords (s : State) (r : ErrRec) : OnlyRecords s (errPut s r) :=
  (hostWr_onlyRecords ..).trans (onErr_onlyRecords ..)

theorem errFlush_onlyRecords (s : State) : OnlyRecords s (errFlush s) :=
  (onErr_onlyRecords s _).trans (.foldl (fun t r => .ite (errPut_onlyRecords t r) (onErr_onlyRecords ..)) _ _)

theorem errHold_onlyRecords (s : State) (r : ErrRec) : OnlyRecords s (errHold s r) := by
  unfold errHold
  exact .ite (onErr_onlyRecords ..) (.ite (onErr_onlyRecords ..) (.ite (onErr_onlyRecords ..) (onErr_onlyRecords ..)))

theorem errAdd_onlyRecords (r : ErrRec) (s : State) : OnlyRecords s (errAdd r s) :=
  (errHold_onlyRecords ..).trans (errFlush_onlyRecords _)

@[simp] theorem errAdd_mesh (r : ErrRec) (s : State) : (errAdd r s).mesh = s.mesh := (errAdd_onlyRecords r s).mesh
@[simp] theorem errAdd_fab (r : ErrRec) (s : State) : (errAdd r s).fab = s.fab := (errAdd_onlyRecords r s).fab

/-- The watch of a pool adds at most a record to the change it watches. -/
theorem poolWatch_onlyRecords (d : Nat) (f : State → State) (s : State) : OnlyRecords (f s) (poolWatch d f s) :=
  .ite (errAdd_onlyRecords ..) (.refl _)

/-! ### The wake of a quad (R40) -/

/-- From `s` to `t` nothing but the power domain and lines of L1s was written. -/
structure OnlyWakes (s t : State) : Prop where
  state : { t with pwr := s.pwr, cores := s.cores } = s
  core : ∀ p, { t.core p with l1 := (s.core p).l1 } = s.core p

namespace OnlyWakes
variable {s t u : State}

theorem refl (s : State) : OnlyWakes s s := ⟨rfl, fun _ => rfl⟩

theorem trans (h1 : OnlyWakes s t) (h2 : OnlyWakes t u) : OnlyWakes s u := by
  obtain ⟨hs1, hc1⟩ := h1
  obtain ⟨hs2, hc2⟩ := h2
  constructor
  · rw [← hs1]
    rw [← hs2]
  · intro p
    rw [← hc1 p]
    rw [← hc2 p]

theorem foldl {α : Type} {f : State → α → State} (hf : ∀ s x, OnlyWakes s (f s x)) (l : List α) : ∀ s, OnlyWakes s (l.foldl f s) := by
  induction l with
  | nil => exact refl
  | cons x l ih => exact fun s => (hf s x).trans (ih _)

theorem mesh (h : OnlyWakes s t) : t.mesh = s.mesh := (congrArg State.mesh h.state :)
theorem groups (h : OnlyWakes s t) : t.groups = s.groups := (congrArg State.groups h.state :)
theorem tsc (h : OnlyWakes s t) : t.tsc = s.tsc := (congrArg State.tsc h.state :)
theorem split (h : OnlyWakes s t) (p : Nat) : (t.core p).split = (s.core p).split := (congrArg Core.split (h.core p) :)
theorem fenced (h : OnlyWakes s t) (p : Nat) : (t.core p).fenced = (s.core p).fenced := (congrArg Core.fenced (h.core p) :)

end OnlyWakes

theorem onQuad_onlyWakes (k : Nat) (g : Quad → Quad) (s : State) : OnlyWakes s (s.onQuad k g) := ⟨rfl, fun _ => rfl⟩

theorem onCore_l1_onlyWakes (p : Nat) (g : Core → Tbl L1Line) (s : State) : OnlyWakes s (s.onCore p fun c => { c with l1 := g c }) := by
  refine ⟨rfl, fun q => ?_⟩
  show { Tbl.get (Tbl.upd s.cores p fun c => { c with l1 := g c }) q with l1 := (s.core q).l1 } = s.core q
  rw [Tbl.get_upd]
  split
  · next h => subst h; rfl
  · rfl

theorem applyInval_onlyWakes (k : Nat) (s : State) : OnlyWakes s (applyInval k s) :=
  (OnlyWakes.foldl (fun s _ => onCore_l1_onlyWakes _ _ s) _ _).trans (onQuad_onlyWakes ..)

theorem quadOn_onlyWakes (p : Nat) (s : State) : OnlyWakes s (quadOn p s) := by
  unfold quadOn
  dsimp only
  split
  · exact .refl s
  · exact onQuad_onlyWakes ..
  all_goals exact (onQuad_onlyWakes ..).trans (applyInval_onlyWakes ..)

@[simp] theorem quadOn_now (p : Nat) (s : State) : (quadOn p s).now = s.now := by
  unfold State.now
  rw [(quadOn_onlyWakes p s).tsc]

/-! ### Write-backs at the home leave the mesh -/

@[simp] theorem onSlice_mesh (s : State) (k : Nat) (g : Slice → Slice) : (s.onSlice k g).mesh = s.mesh := rfl
@[simp] theorem onCore_mesh (s : State) (p : Nat) (g : Core → Core) : (s.onCore p g).mesh = s.mesh := rfl
@[simp] theorem onQuad_mesh (s : State) (k : Nat) (g : Quad → Quad) : (s.onQuad k g).mesh = s.mesh := rfl
@[simp] theorem hbmWriteBack_mesh (line : Nat) (po : BitVec 16) (s : State) : (hbmWriteBack line po s).mesh = s.mesh := rfl
@[simp] theorem dropVictim_mesh (k line : Nat) (s : State) : (dropVictim k line s).mesh = s.mesh := rfl
@[simp] theorem putLine_mesh (k line way : Nat) (dirty : Bool) (po : BitVec 16) (s : State) : (putLine k line way dirty po s).mesh = s.mesh := rfl
@[simp] theorem tierDropLine_mesh (k line : Nat) (s : State) : (tierDropLine k line s).mesh = s.mesh := rfl
@[simp] theorem setOwned_mesh (line : Nat) (s : State) : (setOwned line s).mesh = s.mesh := rfl

@[simp] theorem toVictims_mesh (k : Nat) (v : TLine) (s : State) : (toVictims k v s).mesh = s.mesh := by
  unfold toVictims
  dsimp only
  split
  · rfl
  · split <;> rfl

@[simp] theorem tierInstall_mesh (k line : Nat) (dirty : Bool) (po : BitVec 16) (s : State) : (tierInstall k line dirty po s).mesh = s.mesh := by
  unfold tierInstall
  split
  · rfl
  · simp
  · split <;> rfl

@[simp] theorem bankFill_mesh (k bank : Nat) (s : State) : (bankFill k bank s).mesh = s.mesh := by
  unfold bankFill
  split
  · dsimp only
    split <;> rfl
  · rfl

@[simp] theorem bankNow_mesh (k bank : Nat) (s : State) : (bankNow k bank s).mesh = s.mesh := by
  unfold bankNow
  split <;> simp

@[simp] theorem tierTouch_mesh (line : Nat) (wr full : Bool) (s : State) : (tierTouch line wr full s).mesh = s.mesh := by
  unfold tierTouch
  split
  · dsimp only
    split
    -- the line is in its set: in a converting way it leaves, else it comes to the front
    · split
      · split <;> simp [tierDrop]
      · simp
    · split
      -- it is in the victim buffer, or in HBM
      · split
        · split
          · split <;> simp
          · split <;> simp
        · simp
      · split
        · split <;> simp
        · split <;> simp
  · rfl

@[simp] theorem setPoison_mesh (a : Nat) (v : Bool) (s : State) : (setPoison a v s).mesh = s.mesh := by
  unfold setPoison
  split
  · dsimp only
    split
    · rfl
    · split <;> rfl
  · rfl
  · rfl

@[simp] theorem homeWrite_mesh (line : Nat) (bs : List (Nat × Byte)) (pois : List Nat) (s : State) : (homeWrite line bs pois s).1.mesh = s.mesh := by
  unfold homeWrite
  dsimp only
  refine (foldl_keeps (fun x : State × Bool => x.1.mesh) (fun x i => ?_) _ _).trans (tierTouch_mesh ..)
  obtain ⟨t, met⟩ := x
  have hput : ∀ (w : List (Nat × Byte)) (t : State), (w.foldl (fun s x => s.onMem fun t => t.put (line + x.1) x.2) t).mesh = t.mesh := by
    intro w t
    refine foldl_keeps State.mesh (fun s x => ?_) w t
    rfl
  dsimp only
  split
  · rfl
  · split
    · simp [hput]
    · split
      · rw [hput]; split <;> simp
      · split
        · simp
        · simp [hput]

@[simp] theorem markFailed_mesh (owners : List (Nat × Nat × Nat)) (status : Nat) (s : State) : (markFailed owners status s).mesh = s.mesh := by
  unfold markFailed
  refine foldl_keeps State.mesh (fun s x => ?_) _ s
  dsimp only
  split <;> rfl

@[simp] theorem l1WriteBack_mesh (p line : Nat) (s : State) : (l1WriteBack p line s).mesh = s.mesh := by
  unfold l1WriteBack
  dsimp only
  split
  · rfl
  · rw [setOwned_mesh, State.onL1, onCore_mesh]
    split <;> simp

@[simp] theorem l1Drop_mesh (p line : Nat) (s : State) : (l1Drop p line s).mesh = s.mesh := by
  unfold l1Drop
  split <;> rfl

@[simp] theorem l1Flush_mesh (p : Nat) (s : State) : (l1Flush p s).mesh = s.mesh :=
  foldl_keeps State.mesh (fun s (x : Nat × L1Line) => l1WriteBack_mesh p x.1 s) _ s

@[simp] theorem l1Invalidate_mesh (p : Nat) (s : State) : (l1Invalidate p s).mesh = s.mesh :=
  foldl_keeps State.mesh (fun s (x : Nat × L1Line) => l1Drop_mesh p x.1 s) _ s

end Sys2Proof.Machine

/-! Swaps and rotation of cores (O41): each command is performed on a state of its own name (`standinPassed`, `identityMoved`,
`retestPassed`), about which the mesh and the core are stated once. -/
namespace Sys2Proof.Machine
open Sys2Proof

/-! ### Stops of the resident groups -/

theorem mem_coreGroups_iff {s : State} {c i : Nat} (hi : i < 48) : gKey c i ∈ coreGroups s c ↔ (s.group (gKey c i)).stage ≠ .empty := by
  simp only [coreGroups, List.mem_filterMap, List.mem_range]
  constructor
  · rintro ⟨j, -, hj⟩
    split at hj
    · next h =>
      obtain rfl : j = i := by simpa [gKey] using hj
      simpa using h
    · simp at hj
  · exact fun h => ⟨i, hi, by simp [h]⟩

theorem group_onGroup (s : State) (k j : Nat) (g : Group → Group) : (s.onGroup k g).group j = if j = k then g (s.group k) else s.group j :=
  Tbl.get_upd ..

theorem core_onCore_same (s : State) (p : Nat) (g : Core → Core) : (s.onCore p g).core p = g (s.core p) := Tbl.get_upd_same ..

theorem requestStop_stage (k j : Nat) (why : StopWhy) (s : State) : ((requestStop k why s).group j).stage = (s.group j).stage := by
  rw [requestStop, group_onGroup]
  split
  · next h => subst h; split <;> rfl
  · rfl

/-- The first reason stands. -/
theorem requestStop_stop_isSome {s : State} {j : Nat} (k : Nat) (why : StopWhy) (h : (s.group j).stop.isSome = true) :
    ((requestStop k why s).group j).stop.isSome = true := by
  rw [requestStop, group_onGroup]
  split
  · next hj =>
    subst hj
    split
    · exact h
    · obtain ⟨x, hx⟩ := Option.isSome_iff_exists.mp h
      simp [hx]
  · exact h

theorem requestStop_running {s : State} {k : Nat} (why : StopWhy) (h : (s.group k).stage = .running) :
    ((requestStop k why s).group k).stop.isSome = true := by
  rw [requestStop, group_onGroup]
  cases (s.group k).stop <;> simp [h]

/-- Every running group that is asked has a stop. -/
theorem forAll_requestStop_running {l : List Nat} {k : Nat} {s : State} (why : StopWhy) (hk : k ∈ l ∨ (s.group k).stop.isSome = true)
    (hr : (s.group k).stage = .running) : ((forAll l (fun k => requestStop k why) s).group k).stop.isSome = true := by
  induction l generalizing s with
  | nil =>
    rcases hk with hk | hk
    · cases hk
    · exact hk
  | cons j l ih =>
    refine ih (s := requestStop j why s) ?_ ((requestStop_stage ..).trans hr)
    rcases hk with hk | hk
    · rcases List.mem_cons.mp hk with rfl | hk
      · exact .inr (requestStop_running why hr)
      · exact .inl hk
    · exact .inr (requestStop_stop_isSome j why hk)

theorem forAll_requestStop_mesh (l : List Nat) (why : StopWhy) (s : State) : (forAll l (fun k => requestStop k why) s).mesh = s.mesh :=
  foldl_keeps State.mesh (f := fun s k => requestStop k why s) (fun _ _ => rfl) l s

theorem forAll_requestStop_cores (l : List Nat) (why : StopWhy) (s : State) : (forAll l (fun k => requestStop k why) s).cores = s.cores :=
  foldl_keeps State.cores (f := fun s k => requestStop k why s) (fun _ _ => rfl) l s

/-! ### The start of a swap and the entry check (R384) -/

theorem exec_rotationSwapStart {s : State} {c q : Nat} (hm : mgmtWorks s = true) (hc : c < 1024) (hp : (s.phys c).isSome = true)
    (hw : s.mesh.swaps.get c = none) (hq : chooseStandin s c false = some q) :
    exec (.rotationSwapStart c) s = .next (swapStart c q whyRotation s) := by
  show execRotationSwapStart c s = _
  have hn : (s.phys c).isNone = false := by simpa [Option.isNone_eq_false_iff] using hp
  simp [execRotationSwapStart, hm, hn, hw, hq, Nat.not_le.mpr hc]

/-- The stand-in has taken over the split, and every resident group is asked to stop. -/
def standinPassed (c p q why : Nat) (s : State) : State :=
  let t := (standinReady p q s).onMesh fun m => { m with swaps := m.swaps.put c (some (q, true, why)) }
  forAll (coreGroups t c) (fun k => requestStop k .swap) t

theorem exec_standinEntryCheckDone_passed {s : State} {c p q why : Nat} (hm : mgmtWorks s = true) (hw : s.mesh.swaps.get c = some (q, false, why))
    (hp : s.phys c = some p) (hf : (s.core q).fenced = false) :
    exec (.standinEntryCheckDone c true) s = .next (standinPassed c p q why (quadOn q s)) := by
  show execStandinEntryCheckDone c true s = _
  have hf' := ((quadOn_onlyWakes q s).fenced q).trans hf
  unfold execStandinEntryCheckDone
  rw [hw, hp]
  simp only [hm, hf']
  rfl

theorem exec_standinEntryCheckDone_failed {s : State} {c p q why : Nat} (hm : mgmtWorks s = true) (hw : s.mesh.swaps.get c = some (q, false, why))
    (hp : s.phys c = some p) : exec (.standinEntryCheckDone c false) s = .next (swapAgain c why (testFails q (quadOn q s))) := by
  show execStandinEntryCheckDone c false s = _
  unfold execStandinEntryCheckDone
  rw [hw, hp]
  simp only [hm]
  rfl

theorem standinPassed_mesh (c p q why : Nat) (s : State) :
    (standinPassed c p q why s).mesh = { s.mesh with swaps := s.mesh.swaps.put c (some (q, true, why)) } :=
  forAll_requestStop_mesh ..

theorem standinReady_core (p q : Nat) (s : State) : (standinReady p q s).core q =
    { (s.core q).noArray with split := (s.core p).split, sb := [], l1 := [], rcache := [] } := by
  unfold standinReady
  exact core_onCore_same ..

theorem standinPassed_core (c p q why : Nat) (s : State) : (standinPassed c p q why s).core q =
    { (s.core q).noArray with split := (s.core p).split, sb := [], l1 := [], rcache := [] } :=
  (congrArg (Tbl.get · q) (forAll_requestStop_cores ..)).trans (standinReady_core ..)

theorem standinPassed_stops {s : State} {c i : Nat} (p q why : Nat) (hi : i < 48) (hr : (s.group (gKey c i)).stage = .running) :
    ((standinPassed c p q why s).group (gKey c i)).stop.isSome = true := by
  refine forAll_requestStop_running .swap (.inl ((mem_coreGroups_iff hi).mpr fun he => ?_)) hr
  cases hr.symm.trans he

/-! ### The move of the ID (R385) -/

/-- The ID is behind the stand-in. -/
def identityMoved (c q : Nat) (s : State) : State :=
  (poolWatch (lDie c) (mapSet c (some q)) (s.onMesh fun m => { m with swaps := m.swaps.put c none })).onXl fun y => { y with micro := y.micro.put c [] }

/-- The outgoing core is under test unless it is lost, and a rotation counts its ID. -/
def outgoingTested (c p why : Nat) (s : State) : State :=
  if why = whyFault then s
  else
    let s := s.onCore p fun c => { c with testing := true }
    if why = whyRotation then rotCount c s else s

theorem exec_standinIdentityMove_moves {s : State} {c p q why : Nat} (hm : mgmtWorks s = true) (hw : s.mesh.swaps.get c = some (q, true, why))
    (hp : s.phys c = some p) (hd : drained s c = true) (hf : (s.core q).fenced = false) (hk : why = 2 ∨ keepsR21 s.mesh c q = true)
    (hb : (s.core p).sb = []) : exec (.standinIdentityMove c) s = .next (outgoingTested c p why (identityMoved c q (l1Invalidate p (l1Flush p s)))) := by
  have hg : ((s.core q).fenced || (why != whyFault && !keepsR21 s.mesh c q)) = false := by
    rcases hk with rfl | hk
    · simp [hf, whyFault]
    · simp [hf, hk]
  show execStandinIdentityMove c s = _
  unfold execStandinIdentityMove
  rw [hw, hp]
  dsimp only
  rw [hg]
  simp only [hm, hd, hb, sbDrainTo, List.length_nil, List.any_nil]
  unfold outgoingTested
  by_cases h : why = whyFault
  · simp [h, identityMoved]
  · simp [h, identityMoved]

theorem exec_standinIdentityMove_again {s : State} {c p q why : Nat} (hm : mgmtWorks s = true) (hw : s.mesh.swaps.get c = some (q, true, why))
    (hp : s.phys c = some p) (hd : drained s c = true) (h : (s.core q).fenced = true ∨ why ≠ 2 ∧ keepsR21 s.mesh c q = false) :
    exec (.standinIdentityMove c) s = .next (swapAgain c why s) := by
  have hg : ((s.core q).fenced || (why != whyFault && !keepsR21 s.mesh c q)) = true := by
    rcases h with h | ⟨h1, h2⟩
    · simp [h]
    · simp [h1, h2, whyFault]
  show execStandinIdentityMove c s = _
  unfold execStandinIdentityMove
  rw [hw, hp]
  dsimp only
  rw [hg]
  simp [hm, hd]

theorem identityMoved_mesh (c q : Nat) (s : State) : (identityMoved c q s).mesh =
    { s.mesh with map := s.mesh.map.put c (some (q + 1)), seq := s.mesh.seq + 1, swaps := s.mesh.swaps.put c none } :=
  (poolWatch_onlyRecords ..).mesh

/-- Of the mesh, the test of the outgoing core changes what the rotation has counted. -/
theorem outgoingTested_mesh (c p why : Nat) (s : State) : ∃ seen done, (outgoingTested c p why s).mesh = { s.mesh with rotSeen := seen, rotDone := done } := by
  unfold outgoingTested
  split
  · exact ⟨_, _, rfl⟩
  · dsimp only
    split <;> exact ⟨_, _, rfl⟩

theorem rotCount_core (c p : Nat) (s : State) : (rotCount c s).core p = s.core p := rfl

theorem outgoingTested_testing {why : Nat} (c p : Nat) (s : State) (hy : why ≠ whyFault) : ((outgoingTested c p why s).core p).testing = true := by
  unfold outgoingTested
  rw [if_neg hy]
  dsimp only
  split
  · rw [rotCount_core, core_onCore_same]
  · rw [core_onCore_same]

/-! ### Self-tests of cores (R383 R385) -/

theorem exec_coreSelfTestDone {s : State} {p : Nat} (ok : Bool) (hm : mgmtWorks s = true) (hp : p < 1152) (hf : (s.core p).fenced = false)
    (hl : logOf s.mesh p = none) (hc : (chosen s).contains p = false) : exec (.coreSelfTestDone p ok) s =
      .next (testStep p ok (if ok then (quadOn p s).onCore p fun c => { c with testing := false, lastPass := s.now } else testFails p (quadOn p s))) := by
  show execCoreSelfTestDone p ok s = _
  unfold execCoreSelfTestDone
  dsimp only
  rw [if_neg (by simp only [hm, hf, hl, hc, Nat.not_le.mpr hp]; decide), quadOn_now]

/-- The core as a passed retest leaves it. -/
def retestPassed (p : Nat) (s : State) : State :=
  (quadOn p s).onCore p fun c => { c.noArray with fenced := false, fencedByTest := false, testing := false, lastPass := s.now, sb := [], l1 := [] }

/-- It is behind an ID without a core where there is one. -/
def backInService (p : Nat) (s : State) : State :=
  match lostId s p with
  | some c => mapSet c (some p) s
  | none => s

theorem backInService_some {s : State} {p c : Nat} (h : lostId s p = some c) : backInService p s = mapSet c (some p) s := by
  rw [backInService, h]

theorem backInService_none {s : State} {p : Nat} (h : lostId s p = none) : backInService p s = s := by
  rw [backInService, h]

theorem exec_fencedCoreRetest {s : State} {p : Nat} (ok : Bool) (hm : mgmtWorks s = true) (hp : p < 1152) (hf : (s.core p).fenced = true)
    (ht : (s.core p).fencedByTest = false ∨ (s.core p).testing = true) (hd : (s.tier.dies.get (pDie p)).fenced = false)
    (hl : logOf s.mesh p = none) : exec (.fencedCoreRetest p ok) s =
      .next (if ok then testStep p true (backInService p (retestPassed p s))
        else testStep p false (testFails p (quadOn p s))) := by
  show execFencedCoreRetest p ok s = _
  unfold execFencedCoreRetest retestPassed
  dsimp only
  rw [if_neg (by rcases ht with ht | ht <;> simp [hm, hf, hl, hd, ht, Nat.not_le.mpr hp]), quadOn_now]
  cases ok <;> rfl

/-- Settles O41, command by command; which of several IDs a returned core takes is the model's choice (notes/assumptions/59.md). -/
theorem swapsComplete : Obligations.SwapsComplete := by
  intro s hm
  refine ⟨fun c q hc hp hw => exec_rotationSwapStart hm hc hp hw, fun c p q why hw hp hf _ => ?_,
    fun c p q why hw hp => exec_standinEntryCheckDone_failed hm hw hp,
    fun c p q why hw hp hd => ⟨fun hf hk hb => ?_, exec_standinIdentityMove_again hm hw hp hd⟩,
    fun p hp hf hl hc => ⟨exec_coreSelfTestDone true hm hp hf hl hc, exec_coreSelfTestDone false hm hp hf hl hc⟩, fun p => rfl,
    fun p hp hf ht hd hl => ⟨retestPassed p s, rfl, fun c hc => ?_, fun hc => ?_, exec_fencedCoreRetest false hm hp hf ht hd hl⟩⟩
  · have ho := quadOn_onlyWakes q s
    have hq := standinPassed_core c p q why (quadOn q s)
    have hx := standinPassed_mesh c p q why (quadOn q s)
    rw [ho.mesh] at hx
    refine ⟨_, exec_standinEntryCheckDone_passed hm hw hp hf, by simp [hx], ?_, by rw [hq]; rfl, by rw [hq]; rfl, by rw [hq]; rfl,
      by rw [hq], by rw [hq], by rw [hx], by rw [hx], fun i hi hr => standinPassed_stops p q why hi ?_⟩
    · rw [hq]
      exact ho.split p
    · unfold State.group
      rw [ho.groups]
      exact hr
  · obtain ⟨seen, done, hx⟩ := outgoingTested_mesh c p why (identityMoved c q (l1Invalidate p (l1Flush p s)))
    rw [identityMoved_mesh, l1Invalidate_mesh, l1Flush_mesh] at hx
    exact ⟨_, exec_standinIdentityMove_moves hm hw hp hd hf hk hb, by rw [hx], by simp [hx], by rw [hx], outgoingTested_testing c p _⟩
  · rw [exec_fencedCoreRetest true hm hp hf ht hd hl, if_pos rfl, backInService_some hc]
  · rw [exec_fencedCoreRetest true hm hp hf ht hd hl, if_pos rfl, backInService_none hc]

end Sys2Proof.Machine

/-! Routing, registers and time of the fabric (O44): a packet of another device goes by `leavePort`, a register of an I/O die is found
by its address, and a TIME packet of the parent corrects device time by `timeCorrect`. -/
namespace Sys2Proof.Machine
open Sys2Proof

/-! ### Routing (R346 R347) -/

/-- The ports of a packet's route at an I/O die. -/
def routePorts (s : State) (io : Nat) (k : FPkt) : List Nat :=
  (List.range (nPorts s.variant)).filter fun i => ((s.fab.ios.get io).routes.get k.dst).toNat.testBit i

theorem mostFree_mem {s : State} {vc i : Nat} {l : List Nat} (h : mostFree s vc l = some i) : i ∈ l := by
  induction l generalizing i with
  | nil => cases h
  | cons j l ih =>
    rw [mostFree] at h
    split at h
    · cases h
      exact List.mem_cons_self
    · next m hm =>
      split at h
      · cases h
        exact List.mem_cons_self
      · cases h
        exact List.mem_cons_of_mem j (ih hm)

theorem isUp_not_down {t : FPort} (h : t.isUp = true) : t.st ≠ .down := by
  intro hd
  simp [FPort.isUp, hd] at h

theorem canSend_isUp {t : FPort} {k : FPkt} (h : canSend t k = true) : t.isUp = true := by
  simp only [canSend, Bool.and_eq_true] at h
  obtain ⟨⟨⟨hup, -⟩, -⟩, -⟩ := h
  exact hup

/-- The port that the packet's request names, where the device sends it and its route has the port (R346). -/
def namedPort (s : State) (ports : List Nat) (at_ : Option Nat) (k : FPkt) : Option Nat :=
  match at_, reqOf s k with
  | none, some r => if ports.contains r.port then some r.port else none
  | _, _ => none

theorem namedPort_named {s : State} {ports : List Nat} {k : FPkt} {r : Rreq} (hr : reqOf s k = some r) (hp : r.port ∈ ports) :
    namedPort s ports none k = some r.port := by
  simp [namedPort, hr, hp]

theorem namedPort_none {s : State} {ports : List Nat} {at_ : Option Nat} {k : FPkt} (h : at_ ≠ none ∨ ∀ r, reqOf s k = some r → r.port ∉ ports) :
    namedPort s ports at_ k = none := by
  unfold namedPort
  split
  · next r hr =>
    rcases h with h | h
    · exact absurd rfl h
    · simp [h r hr]
  · rfl

/-- The port by which a packet leaves: the named one, else the UP one of its route with the most free credits. -/
def leavePort (s : State) (ports : List Nat) (at_ : Option Nat) (k : FPkt) : Option Nat :=
  (namedPort s ports at_ k).orElse fun _ => mostFree s k.vc (ports.filter fun i => (s.port i).isUp)

theorem leavePort_mem {s : State} {ports : List Nat} {at_ : Option Nat} {k : FPkt} {i : Nat} (h : leavePort s ports at_ k = some i) :
    i ∈ ports := by
  unfold leavePort at h
  cases hn : namedPort s ports at_ k with
  | none =>
    rw [hn] at h
    exact (List.mem_filter.mp (mostFree_mem h)).1
  | some j =>
    rw [hn] at h
    obtain rfl : j = i := Option.some.inj h
    unfold namedPort at hn
    split at hn
    · split at hn
      · next hc =>
        obtain rfl := Option.some.inj hn
        simpa using hc
      · cases hn
    · cases hn

/-- The packet leaves by its port where that can send it now, else it waits. -/
def forwardBy (s : State) (at_ : Option Nat) (k : FPkt) : Option Nat → Out
  | none => .next s
  | some i => if canSend (s.port i) k then .next (sendOn i k (takeAway at_ k s)) else .next s

section Forward
variable {s : State} {io : Nat} {k : FPkt} {at_ : Option Nat}
variable (hw : whereAt s io k = some at_) (hio : io < nIo s.variant) (hout : (s.fab.ios.get io).out = false) (hd : k.dst ≠ s.devId)
include hw hio hout hd

/-- A packet of another device that waits at an I/O die in service is dropped after 64 links, else it goes by its route. -/
theorem exec_packetForward : exec (.packetForward io k) s =
    if 64 ≤ k.hops then .next (routeDrop io false (takeAway at_ k s))
    else if (routePorts s io k).all fun i => (s.port i).st = .down then .next (routeDrop io true (takeAway at_ k s))
    else forwardBy s at_ k (leavePort s (routePorts s io k) at_ k) := by
  show execPacketForward io k s = _
  unfold execPacketForward
  rw [hw]
  dsimp only
  rw [if_neg (by simp [hd, Nat.not_le.mpr hio, hout])]
  rfl

theorem exec_packetForward_noRoute (hh : k.hops < 64) (hp : ∀ j ∈ routePorts s io k, (s.port j).st = .down) :
    exec (.packetForward io k) s = .next (routeDrop io true (takeAway at_ k s)) := by
  rw [exec_packetForward hw hio hout hd, if_neg (Nat.not_le.mpr hh), if_pos (by simpa using hp)]

theorem exec_packetForward_leaves {i : Nat} (hh : k.hops < 64) (hi : leavePort s (routePorts s io k) at_ k = some i)
    (hc : canSend (s.port i) k = true) : exec (.packetForward io k) s = .next (sendOn i k (takeAway at_ k s)) := by
  have hup : ¬ ((routePorts s io k).all fun i => decide ((s.port i).st = .down)) = true := by
    intro hall
    have hdown := List.all_eq_true.mp hall i (leavePort_mem hi)
    exact isUp_not_down (canSend_isUp hc) (of_decide_eq_true hdown)
  rw [exec_packetForward hw hio hout hd, if_neg (Nat.not_le.mpr hh), if_neg hup, hi]
  exact if_pos hc

end Forward

/-- An I/O die that has counted a dropped packet. -/
def dropCounted (noRoute : Bool) (i : IoDie) : IoDie :=
  { i with noRoute := if noRoute then min (i.noRoute + 1) 0xFFFF else i.noRoute, hopLim := if noRoute then i.hopLim else min (i.hopLim + 1) 0xFFFF }

theorem dropCounted_eq (noRoute : Bool) (i : IoDie) : dropCounted noRoute i =
    if noRoute then { i with noRoute := min (i.noRoute + 1) 0xFFFF } else { i with hopLim := min (i.hopLim + 1) 0xFFFF } := by
  cases noRoute <;> rfl

theorem io_onIo_same (s : State) (x : Nat) (g : IoDie → IoDie) : (s.onIo x g).fab.ios.get x = g (s.fab.ios.get x) := Tbl.get_upd_same ..

/-- A dropped packet is counted, and of the die at most the time of its last record changes too (R347). -/
theorem routeDrop_io (x : Nat) (noRoute : Bool) (s : State) :
    ∃ r, (routeDrop x noRoute s).fab.ios.get x = { dropCounted noRoute (s.fab.ios.get x) with dropRec := r } := by
  unfold routeDrop
  simp only [← dropCounted_eq]
  refine iteInduction (motive := fun t : State => ∃ r, t.fab.ios.get x = { dropCounted noRoute (s.fab.ios.get x) with dropRec := r })
    (fun _ => ⟨some s.now, ?_⟩) (fun _ => ⟨(s.fab.ios.get x).dropRec, io_onIo_same ..⟩)
  rw [errAdd_fab, io_onIo_same, io_onIo_same]
  rfl

/-! ### Registers (R345 R347) -/

theorem fabConfigWrite_taken {v : DWord} {s : State} (w : Who)
    (h : v.setWidth 16 = s.fab.devId ∨ ∀ i < nPorts s.variant, (s.port i).enable = false) : fabConfigWrite w v s = timeElect (s.onFab fun f =>
      { f with devId := v.setWidth 16, prio := BitVec.ofNat 8 (v.toNat / 2 ^ 16), ppsEn := decide (v.toNat / 2 ^ 24 % 2 = 1),
               timeout := BitVec.ofNat 16 (v.toNat / 2 ^ 32) }) := by
  refine if_neg fun hc => ?_
  simp only [Bool.and_eq_true, bne_iff_ne, List.any_eq_true, List.mem_range] at hc
  obtain ⟨hne, i, hi, he⟩ := hc
  rcases h with h | h
  · exact hne h
  · simp [h i hi] at he

theorem fabConfigWrite_refused {v : DWord} {s : State} (w : Who) (hv : v.setWidth 16 ≠ s.fab.devId)
    (h : ∃ i < nPorts s.variant, (s.port i).enable = true) : fabConfigWrite w v s = writeRefused w (ctrlIoBase 0) s := by
  refine if_pos ?_
  simp only [Bool.and_eq_true, bne_iff_ne, List.any_eq_true, List.mem_range]
  exact ⟨hv, h⟩

theorem exec_fabRouteDataWrite {io : Nat} {s : State} (v : DWord) (h : io < nIo s.variant) :
    exec (.fabRouteDataWrite io v) s = .next (routeDataWrite io v s) :=
  congrArg Host.Outcome.next (if_pos h)

theorem exec_fabRouteDataWrite_absent {io : Nat} {s : State} (v : DWord) (h : nIo s.variant ≤ io) :
    exec (.fabRouteDataWrite io v) s = .next (errAdd (regRefused s (.fn 0) (ctrlIoBase io + 0x100010)) s) :=
  congrArg Host.Outcome.next (if_neg (Nat.not_lt.mpr h))

theorem zoneOf_ctrlIo {x o : Nat} (hx : x < 8) (ho : o < 0x1000000) : zoneOf (ctrlIoBase x + o) = .ctrlIo x := by
  unfold zoneOf ctrlIoBase hostBase
  rw [if_neg (by omega), if_neg (by simp; omega), if_neg (by simp; omega), if_neg (by simp; omega), if_pos (by simp; omega)]
  congr 1
  omega

theorem regAt_ctrlIo {x o : Nat} (s : State) (hx : x < 8) (ho : o < 0x1000000) : regAt s (ctrlIoBase x + o) = ioReg s x o := by
  rw [regAt, zoneOf_ctrlIo hx ho]
  simp

theorem nIo_le (v : Variant) : nIo v ≤ 8 := by cases v <;> decide

theorem ioReg_absent {x : Nat} (o : Nat) {s : State} (h : nIo s.variant ≤ x) : ioReg s x o = none := if_pos h

theorem ioReg_drops {x : Nat} {s : State} (h : x < nIo s.variant) : ioReg s x 0x100020 = some (.drops x) := by
  rw [ioReg, if_neg (Nat.not_le.mpr h)]
  rfl

theorem exec_fabDropsRead (io : Nat) (s : State) : exec (.fabDropsRead io) s =
    .next ((regRead (.fn 0) (ctrlIoBase io + 0x100020) 8 s).1.onLastRead fun _ => (regRead (.fn 0) (ctrlIoBase io + 0x100020) 8 s).2) :=
  execFabDropsRead_eq io s

theorem dropsAddr_aligned (io : Nat) : (ctrlIoBase io + 0x100020) % 8 = 0 := by
  unfold ctrlIoBase
  omega

theorem regRead_drops_absent {io : Nat} {s : State} (h : nIo s.variant ≤ io) (h8 : io < 8) :
    regRead (.fn 0) (ctrlIoBase io + 0x100020) 8 s = (errAdd (regRefused s (.fn 0) (ctrlIoBase io + 0x100020)) s, 0) := by
  rw [regRead, Nat.div_mul_cancel (Nat.dvd_of_mod_eq_zero (dropsAddr_aligned io)), regAt_ctrlIo s h8 (by omega), ioReg_absent _ h]

/-- A read returns the drops and clears them (R12 R347). -/
theorem regRead_drops {io : Nat} {s : State} (h : io < nIo s.variant) : regRead (.fn 0) (ctrlIoBase io + 0x100020) 8 s =
    (s.onIo io fun i => { i with noRoute := 0, hopLim := 0, malformed := 0 }, regVal s (.fn 0) (.drops io)) := by
  have hs : regSized (ctrlIoBase io + 0x100020) 8 = true := (regSized_iff ..).mpr (.inl ⟨rfl, dropsAddr_aligned io⟩)
  rw [regRead, Nat.div_mul_cancel (Nat.dvd_of_mod_eq_zero (dropsAddr_aligned io)), regAt_ctrlIo s (Nat.lt_of_lt_of_le h (nIo_le _)) (by omega),
    ioReg_drops h]
  simp [hs, ownReg, regReadEffect]

/-! ### Time (R45 R355 to R357) -/

theorem exec_timePacketSend {i : Nat} {s : State} (h : (s.port i).isUp = true) : exec (.timePacketSend i) s =
    .next (s.onPort i fun t => { t with timeTx := t.timeTx + 1, timeOut := some (timePktOf s i) }) :=
  congrArg Host.Outcome.next (if_pos h)

/-- A TIME packet is recorded at its port, and the devices elect (R355). -/
def timeRecorded (i : Nat) (k : TimePkt) (s : State) : State :=
  timeElect (s.onPort i fun t =>
    { t with tRecv := some (k.tSend, s.tsc.time), tMaster := some (k.prio.toNat, k.master.toNat, k.hops.toNat), tPps := k.pps, tAt := s.now })

theorem exec_timePacket {i : Nat} {k : TimePkt} {s : State} (hi : i < nPorts s.variant) (hu : (s.port i).isUp = true) (hc : k.crcOk = true)
    (hr : k.rsvd = false) : exec (.timePacket i k) s =
      .next (if (timeRecorded i k s).fab.parent = some i ∧ ¬ (k.echoSend = 0 ∧ k.echoRecv = 0) then
        timeCorrect (timeOffset k (timeRecorded i k s).now) (timeRecorded i k s) else timeRecorded i k s) := by
  show execTimePacket i k s = _
  unfold execTimePacket
  rw [if_neg (by simp [hu, Nat.not_le.mpr hi]), if_neg (by simp [hc, hr])]
  have hb : ∀ o : Option Nat, (decide (o = some i) && !(decide (k.echoSend = 0) && decide (k.echoRecv = 0))) = true ↔
      o = some i ∧ ¬ (k.echoSend = 0 ∧ k.echoRecv = 0) := fun o => by
    simp only [Bool.and_eq_true, Bool.not_eq_true', ← Bool.not_eq_true, decide_eq_true_eq]
  exact congrArg Host.Outcome.next (ite_congr (propext (hb _)) (fun _ => rfl) (fun _ => rfl))

theorem mayStep_iff (s : State) : mayStep s = true ↔ s.pwr.state = .starting ∧ s.pwr.afterStop = false ∧ s.tsc.stepped = false := by
  simp [mayStep, and_assoc]

/-- The correction by the one step before ready (R45). -/
theorem timeCorrect_step {s : State} (o : Int) (h : mayStep s = true) : timeCorrect o s = s.onTsc fun t =>
    { t with offset := BitVec.ofInt 32 o, time := BitVec.ofInt 64 (t.time.toNat + o), stepped := true, slew := 0, aligned := true } := by
  unfold timeCorrect
  rw [h]
  rfl

theorem timeCorrect_slew {s : State} (o : Int) (h : mayStep s = false) : timeCorrect o s = s.onTsc fun t =>
    { t with offset := BitVec.ofInt 32 o, aligned := decide (o.natAbs ≤ max 40 (5 * t.hops.toNat)), slew := o } := by
  unfold timeCorrect
  rw [h]
  rfl

theorem exec_timeParentTimeout {s : State} {p : Nat} (hp : s.fab.parent = some p) (ht : (s.port p).tAt + 10000000 ≤ s.now) :
    exec .timeParentTimeout s = .next (timeElect (s.onPort p fun t => { t with tMaster := none })) := by
  show execTimeParentTimeout s = _
  rw [execTimeParentTimeout, hp]
  exact congrArg Host.Outcome.next (if_pos ht)

theorem exec_ppsPulse {s : State} (ha : s.pwr.aux = true) (hp : s.tsc.ppsSeen = false ∨ s.tsc.ppsAt.toNat + 500000000 ≤ s.now) :
    exec .ppsPulse s = .next (s.onTsc fun t =>
      { t with ppsAt := t.time, ppsSeen := true, pps := t.pps || (s.fab.ppsEn && decide (t.hops = 0)),
               slew := if s.fab.ppsEn ∧ t.hops = 0 ∧ t.ppsSeen then (1000000000 : Int) - (s.now - s.tsc.ppsAt.toNat) else t.slew }) := by
  have hg : ¬ (!s.pwr.aux || (s.tsc.ppsSeen && decide (s.now < s.tsc.ppsAt.toNat + 500000000))) = true := by
    rcases hp with hp | hp
    · simp [ha, hp]
    · simp [ha, Nat.not_lt.mpr hp]
  show execPpsPulse s = _
  unfold execPpsPulse
  dsimp only
  rw [if_neg hg]
  by_cases he : s.fab.ppsEn = true
  · by_cases hh : s.tsc.hops = 0#8
    · simp [State.onTsc, he, hh]
    · simp [State.onTsc, he, hh]
  · simp [State.onTsc, he]

/-- Settles O44, command by command. -/
theorem routingAndTimeComplete : Obligations.RoutingAndTimeComplete := by
  intro s
  refine ⟨fun io k at_ ports hw hio hout hd hp => ?_, fun io k noRoute => ?_,
    fun v => ⟨fun h => congrArg Host.Outcome.next (fabConfigWrite_taken _ h), fun hv h => congrArg Host.Outcome.next (fabConfigWrite_refused _ hv h)⟩,
    fun io v h => exec_fabRouteDataWrite v h,
    fun io h h8 => ⟨fun v => exec_fabRouteDataWrite_absent v h, by rw [exec_fabDropsRead, regRead_drops_absent h h8]⟩,
    fun io h => ?_, fun i h => exec_timePacketSend h, fun i k hi hu hc hr u heq => ?_, fun o => ⟨_, rfl, ?_⟩,
    fun p hp ht => exec_timeParentTimeout hp ht, exec_ppsPulse⟩
  · obtain rfl : ports = routePorts s io k := hp
    refine ⟨fun hh => (exec_packetForward hw hio hout hd).trans (if_pos hh), exec_packetForward_noRoute hw hio hout hd, fun i hh hc hi => ?_⟩
    have hl : leavePort s (routePorts s io k) at_ k = some i := by
      rcases hi with ⟨hm, rfl, r, hr, rfl⟩ | ⟨hn, hf⟩
      · rw [leavePort, namedPort_named hr hm]
        rfl
      · rw [leavePort, namedPort_none hn]
        exact hf
    exact ⟨_, exec_packetForward_leaves hw hio hout hd hh hl hc, rfl⟩
  · obtain ⟨r, hr⟩ := routeDrop_io io noRoute s
    exact ⟨_, rfl, by rw [hr]; rfl, by rw [hr]; rfl, rfl⟩
  · refine ⟨_, exec_fabDropsRead io s, ?_⟩
    rw [regRead_drops h]
    simp [State.onIo]
  · subst heq
    exact exec_timePacket hi hu hc hr
  · rw [← mayStep_iff]
    cases h : mayStep s with
    | true => simp [timeCorrect_step o h]
    | false => simp [timeCorrect_slew o h]

end Sys2Proof.Machine

/-! SHFL, VOTE and TSC.READ (O6): each ends by finishing a ready instruction, so what it leaves is its register writes
(`leaves_finish`). -/
namespace Sys2Proof.Machine
open Sys2Proof

theorem mem_setOfPc_lt {g : Group} {pc l : Nat} (h : l ∈ g.setOfPc pc) : l < 32 := by
  simp only [Group.setOfPc, Group.alive, List.mem_filter, List.mem_range] at h
  exact h.1.1

theorem mem_insPart_lt {i : Ins} {h : Shape} {s : State} {l : Nat} (hl : l ∈ insPart i h s) : l < 32 := by
  unfold insPart insSet at hl
  split at hl
  · exact mem_setOfPc_lt hl
  · exact mem_setOfPc_lt (List.mem_filter.mp hl).1

/-! ### SHFL (R170 R171) -/

/-- The shape of a SHFL. -/
def shflShape (i : Ins) : Shape := { srcs := [(i.a, false), (i.b, false)], dst := i.dst }

/-- What a thread receives that names lane `m`, if any. -/
def shflVal (i : Ins) (g : Group) (n t : Nat) (m : Option Nat) : Word :=
  m.elim (g.src t i.a) fun l => if l < 32 then g.src l i.a else (Config.freeValue (n + t)).setWidth 32

@[simp] theorem shflVal_none (i : Ins) (g : Group) (n t : Nat) : shflVal i g n t none = g.src t i.a := rfl

theorem shflVal_lane (i : Ins) (g : Group) (n t : Nat) {l : Nat} (h : l < 32) : shflVal i g n t (some l) = g.src l i.a := if_pos h

theorem shfl_ready {i : Ins} {s : State} (from_ : Nat → Nat → Option Nat) (hr : ready i (shflShape i) s = true) :
    shfl i from_ s = .next (finish i (issOf i (shflShape i) s)
      (fun t => [(i.dst, shflVal i (insGroup i s) s.freeN t (from_ t ((insGroup i s).src t i.b).toNat))]) [] (after i)
      ((issueCost (issOf i (shflShape i) s) (shflShape i).reads s).onFreeN fun _ => s.freeN + 32)) := by
  have hval : ∀ (t : Nat) (m : Option Nat), (match m with
      | none => (insGroup i s).src t i.a
      | some l => if l < 32 then (insGroup i s).src l i.a else (Config.freeValue (s.freeN + t)).setWidth 32) =
      shflVal i (insGroup i s) s.freeN t m := fun t m => by cases m <;> rfl
  unfold shfl
  rw [show ({ srcs := [(i.a, false), (i.b, false)], dst := i.dst } : Shape) = shflShape i from rfl, begin_ready hr]
  refine congrArg Host.Outcome.next ?_
  refine congrArg (fun w => finish i (issOf i (shflShape i) s) w [] (after i) _) (funext fun t => ?_)
  exact congrArg (fun v => [(i.dst, v)]) (hval t _)

/-- A SHFL leaves in each participating thread what the lane it names holds. -/
theorem shfl_leaves {c : Instr} {i : Ins} {s : State} {from_ : Nat → Nat → Option Nat} {w : Nat → Word}
    (hr : ready i (shflShape i) s = true) (hc : exec c s = shfl i from_ s)
    (hv : ∀ l < 32, shflVal i (insGroup i s) s.freeN l (from_ l ((insGroup i s).src l i.b).toNat) = w l) :
    Leaves c i (shflShape i) (fun l => [(i.dst, w l)]) [] s := by
  refine leaves_finish _ (hc.trans (shfl_ready from_ hr)) (fun l => one_le (ready_dst hr)) fun l hl => ?_
  rw [hv l (mem_insPart_lt hl)]

theorem shflUp_leaves {i : Ins} {s : State} (hr : ready i (shflShape i) s = true) :
    Leaves (.shflUp i) i (shflShape i) (fun l =>
      [(i.dst, (insGroup i s).src (if ((insGroup i s).src l i.b).toNat ≤ l then l - ((insGroup i s).src l i.b).toNat else l) i.a)]) [] s := by
  refine shfl_leaves (from_ := fun t n => if n ≤ t then some (t - n) else none) hr rfl fun l hl => ?_
  split
  · exact shflVal_lane _ _ _ _ (by omega)
  · exact shflVal_none ..

theorem shflDown_leaves {i : Ins} {s : State} (hr : ready i (shflShape i) s = true) :
    Leaves (.shflDown i) i (shflShape i) (fun l =>
      [(i.dst, (insGroup i s).src (if l + ((insGroup i s).src l i.b).toNat < 32 then l + ((insGroup i s).src l i.b).toNat else l) i.a)]) [] s := by
  refine shfl_leaves (from_ := fun t n => if t + n < 32 then some (t + n) else none) hr rfl fun l hl => ?_
  split
  · next h => exact shflVal_lane _ _ _ _ h
  · exact shflVal_none ..

/-! ### VOTE (R172) -/

/-- Predicate `q` of each thread that votes. -/
def voteList (i : Ins) (h : Shape) (q : Nat) (s : State) : List Bool := (insPart i h s).map fun l => ((insGroup i s).thread l).p.getLsbD q

theorem votes_eq {i : Ins} {h : Shape} {q : Nat} {s : State} (hq : q < 8) :
    votes (issOf i h s) q = (insPart i h s).filter fun l => ((insGroup i s).thread l).p.getLsbD q := by
  unfold votes
  rw [Nat.mod_eq_of_lt hq]
  rfl

theorem votes_all {i : Ins} {h : Shape} {q : Nat} {s : State} (hq : q < 8) :
    decide ((votes (issOf i h s) q).length = (insPart i h s).length) = (voteList i h q s).all id := by
  rw [votes_eq hq, Bool.eq_iff_iff, decide_eq_true_iff, List.length_filter_eq_length_iff]
  simp [voteList]

theorem votes_any {i : Ins} {h : Shape} {q : Nat} {s : State} (hq : q < 8) :
    (!(votes (issOf i h s) q).isEmpty) = (voteList i h q s).any id := by
  rw [votes_eq hq, Bool.eq_iff_iff]
  simp [voteList]

/-- A VOTE that writes a predicate leaves what it makes of the votes in each participating thread. -/
theorem voteP_leaves {c : Instr} {i : Ins} {q : Nat} {s : State} {f : List Nat → List Nat → Bool} {b : Bool} (hq : q < 8)
    (hr : ready i { ok := predOk i.dst } s = true) (hc : exec c s = voteP i q f s)
    (hb : f (votes (issOf i { ok := predOk i.dst } s) q) (insPart i { ok := predOk i.dst } s) = b) :
    Leaves c i { ok := predOk i.dst } (fun l => wpredD (insGroup i s) l i.dst b) [] s := by
  refine leaves_finish s.freeN (hc.trans ?_) (fun l => wpredD_le _ _ _ _) fun _ _ => rfl
  unfold voteP
  rw [show ({ ok := predOk i.dst && decide (q < 8) } : Shape) = { ok := predOk i.dst } by simp [hq], begin_ready hr, ← hb]
  rfl

theorem voteBallot_leaves {i : Ins} {q : Nat} {s : State} (hq : q < 8) (hr : ready i { dst := i.dst } s = true) :
    Leaves (.voteBallot i q) i { dst := i.dst }
      (fun _ => [(i.dst, maskOf ((insPart i { dst := i.dst } s).filter fun l => ((insGroup i s).thread l).p.getLsbD q))]) [] s := by
  refine leaves_finish s.freeN ?_ (fun l => one_le (ready_dst hr)) fun _ _ => rfl
  show execVoteBallot i q s = _
  unfold execVoteBallot
  rw [show ({ dst := i.dst, ok := decide (q < 8) } : Shape) = { dst := i.dst } by simp [hq], begin_ready hr, ← votes_eq hq]
  rfl

theorem voteMatch_leaves {i : Ins} {h : Shape} {s : State} (hh : h = { srcs := [(i.a, false)], dst := i.dst }) (hr : ready i h s = true) :
    Leaves (.voteMatch i) i h
      (fun l => [(i.dst, maskOf ((insPart i h s).filter fun r => (insGroup i s).src r i.a = (insGroup i s).src l i.a))]) [] s := by
  refine leaves_finish s.freeN ?_ (fun l => one_le (ready_dst hr)) fun _ _ => rfl
  show execVoteMatch i s = _
  unfold execVoteMatch
  rw [← hh, begin_ready hr]
  rfl

/-! ### TSC.READ (R42) -/

theorem tscRead_leaves {i : Ins} {s : State} (hr : ready i { dst := i.dst, dstWide := true } s = true) :
    Leaves (.tscRead i none) i { dst := i.dst, dstWide := true } (fun _ => wpair i.dst s.tsc.time) [] s := by
  refine leaves_finish s.freeN ?_ (fun l => wpair_le (ready_dst hr)) fun _ _ => rfl
  show execTscRead i none s = _
  unfold execTscRead
  dsimp only
  rw [begin_ready hr]
  rfl

theorem tscRead_uniform_leaves {i : Ins} {u : Nat} {s : State} (hr : ready i { unis := [(u, true)] } s = true) :
    Leaves (.tscRead i (some u)) i { unis := [(u, true)] } (fun _ => [])
      (if (insPart i { unis := [(u, true)] } s).isEmpty then [] else wpair u s.tsc.time) s := by
  refine leaves_finish s.freeN ?_ (fun l x hx => absurd hx List.not_mem_nil) fun _ _ => rfl
  show execTscRead i (some u) s = _
  unfold execTscRead
  dsimp only
  rw [begin_ready hr]
  rfl

/-- Settles O6, instruction by instruction; what a XOR that names no lane gives is the model's choice (notes/assumptions/8.md). -/
theorem cooperationResults : Obligations.CooperationResults := by
  intro i s
  refine ⟨?_, ?_, ?_, fun h hh hr => voteMatch_leaves hh hr, ?_, ?_⟩
  · rintro h rfl hr
    have hidx : ∀ l n : Nat, l < 32 → shflVal i (insGroup i s) s.freeN l (some (n % 32)) = (insGroup i s).src (n % 32) i.a :=
      fun l n _ => shflVal_lane _ _ _ _ (Nat.mod_lt _ (by decide))
    exact ⟨shfl_leaves (from_ := fun _ n => some (n % 32)) hr rfl fun l hl => hidx l _ hl, shflUp_leaves hr, shflDown_leaves hr,
      shfl_leaves (from_ := fun t n => some (t ^^^ n)) hr rfl fun _ _ => rfl⟩
  · rintro h q hq rfl hr
    exact ⟨voteP_leaves (f := fun v part => v.length = part.length) hq hr rfl (votes_all hq),
      voteP_leaves (f := fun v _ => !v.isEmpty) hq hr rfl (votes_any hq)⟩
  · rintro h q hq rfl hr
    exact voteBallot_leaves hq hr
  · rintro h rfl hr
    exact tscRead_leaves hr
  · rintro h u rfl hr
    exact tscRead_uniform_leaves hr

end Sys2Proof.Machine

/-! Steps of the queue and of the clock (O47 O48). -/
namespace Sys2Proof.Machine
open Sys2Proof

/-- Settles O47, by the definition of a step. -/
theorem stepRunsTheFrontCommand : Obligations.StepRunsTheFrontCommand := by
  intro c rest s hp
  unfold step
  rw [hp]

/-! ### What a period of the reference leaves unchanged -/

/-- From `s` to `t` nothing was written but the engines' and contexts' accounts, the functions' rings, raised vectors, the error
unit and the model's count of free values. -/
structure OnlyAccounts (s t : State) : Prop where
  state : { t with engines := s.engines, ctxs := s.ctxs, fns := s.fns, msix := s.msix, err := s.err, freeN := s.freeN } = s

namespace OnlyAccounts
variable {s t u : State}

theorem refl (s : State) : OnlyAccounts s s := ⟨rfl⟩

theorem trans (h1 : OnlyAccounts s t) (h2 : OnlyAccounts t u) : OnlyAccounts s u := by
  obtain ⟨h1⟩ := h1
  obtain ⟨h2⟩ := h2
  constructor
  rw [← h1]
  rw [← h2]

theorem ite {c : Prop} [Decidable c] (ht : OnlyAccounts s t) (hu : OnlyAccounts s u) : OnlyAccounts s (if c then t else u) := by
  split
  · exact ht
  · exact hu

theorem foldl {α : Type} {f : State → α → State} (hf : ∀ s x, OnlyAccounts s (f s x)) (l : List α) : ∀ s, OnlyAccounts s (l.foldl f s) := by
  induction l with
  | nil => exact refl
  | cons x l ih => exact fun s => (hf s x).trans (ih _)

theorem tsc (h : OnlyAccounts s t) : t.tsc = s.tsc := (congrArg State.tsc h.state :)
theorem mem (h : OnlyAccounts s t) : t.mem = s.mem := (congrArg State.mem h.state :)
theorem groups (h : OnlyAccounts s t) : t.groups = s.groups := (congrArg State.groups h.state :)
theorem cores (h : OnlyAccounts s t) : t.cores = s.cores := (congrArg State.cores h.state :)
theorem pending (h : OnlyAccounts s t) : t.pending = s.pending := (congrArg State.pending h.state :)

end OnlyAccounts

theorem msixRaise_onlyAccounts (f vec : Nat) (s : State) : OnlyAccounts s (msixRaise f vec s) := .ite ⟨rfl⟩ ⟨rfl⟩
theorem onRing_onlyAccounts (s : State) (f : Nat) (i : RingId) (g : Ring → Ring) : OnlyAccounts s (s.onRing f i g) := ⟨rfl⟩
theorem onErr_onlyAccounts (s : State) (g : ErrUnit → ErrUnit) : OnlyAccounts s (s.onErr g) := ⟨rfl⟩
theorem drawn_onlyAccounts (s : State) : OnlyAccounts s s.drawn := ⟨rfl⟩

theorem ringIrq_onlyAccounts (f : Nat) (i : RingId) (s : State) : OnlyAccounts s (ringIrq f i s) :=
  .ite ((onRing_onlyAccounts ..).trans (msixRaise_onlyAccounts ..)) (.refl s)

theorem irqsDue_onlyAccounts (s : State) : OnlyAccounts s (irqsDue s) := by
  have herr : OnlyAccounts s (if irqDue s s.err.irqAt then msixRaise 0 s.err.vector (s.onErr fun e => { e with irqAt := none }) else s) :=
    .ite ((onErr_onlyAccounts ..).trans (msixRaise_onlyAccounts ..)) (.refl s)
  exact herr.trans (.foldl (fun s f => .foldl (fun s i => ringIrq_onlyAccounts f i s) _ s) _ _)

/-- The counter after a period: corrected by at most 1 ns, and off by at most another without the reference (R44 R45). -/
def ticked (t : Tsc) (dev : DWord) : Tsc := relocked
  { t with time := t.time + BitVec.ofNat 64 (tickNs t dev), slew := t.slew - tickSlew t, drift := if t.ref then t.drift else t.drift + tickDev t dev }

theorem relocked_time (t : Tsc) : (relocked t).time = t.time := by
  unfold relocked
  split <;> rfl

theorem ticked_time (t : Tsc) (dev : DWord) : (ticked t dev).time = t.time + BitVec.ofNat 64 (tickNs t dev) := relocked_time _

/-- The time of a period, billed to a context on an engine, and to an engine. -/
def pairBilled (n : Nat) (s : State) (x : Nat × Nat) : State :=
  acctAdd x.2 (engField x.1) n (s.onEngine x.1 fun e => { e with work := e.work.upd x.2 (· + n) })
def engineBilled (n : Nat) (s : State) (e : Nat) : State := s.onEngine e fun x => { x with total := x.total + n }
/-- And to all that are busy in `s`. -/
def billed (n : Nat) (s t : State) : State := (busyEngs s).foldl (engineBilled n) ((busyPairs s).foldl (pairBilled n) t)

theorem billed_onlyAccounts (n : Nat) (s t : State) : OnlyAccounts t (billed n s t) :=
  (OnlyAccounts.foldl (f := pairBilled n) (fun _ _ => ⟨rfl⟩) _ t).trans (.foldl (f := engineBilled n) (fun _ _ => ⟨rfl⟩) _ _)

theorem tick_on {s : State} (ha : s.pwr.aux = true) : tick s =
    if s.tsc.ref then irqsDue (billed (tickNs s.tsc s.draw) s (s.onTsc fun t => ticked t s.draw))
    else (irqsDue (billed (tickNs s.tsc s.draw) s (s.onTsc fun t => ticked t s.draw))).drawn := if_pos ha

theorem tick_onlyAccounts {s : State} (ha : s.pwr.aux = true) : OnlyAccounts (s.onTsc fun t => ticked t s.draw) (tick s) := by
  rw [tick_on ha]
  exact ((billed_onlyAccounts ..).trans (irqsDue_onlyAccounts _)).trans (.ite (.refl _) (drawn_onlyAccounts _))

theorem tick_off {s : State} (ha : s.pwr.aux = false) : tick s = s := if_neg (by simp [ha])

/-! ### The length of a period (R44 R45) -/

theorem tickSlew_bounds (t : Tsc) : -1 ≤ tickSlew t ∧ tickSlew t ≤ 1 := by
  unfold tickSlew
  split
  · rcases Int.sign_trichotomy t.slew with h | h | h <;> omega
  · omega

theorem tickSlew_of_slew_zero {t : Tsc} (h : t.slew = 0) : tickSlew t = 0 := by simp [tickSlew, h]

theorem tickDev_bounds (t : Tsc) (dev : DWord) : -1 ≤ tickDev t dev ∧ tickDev t dev ≤ 1 := by
  unfold tickDev
  split <;> omega

theorem tickDev_of_ref {t : Tsc} (dev : DWord) (h : t.ref = true) : tickDev t dev = 0 := by simp [tickDev, h]

theorem tickNs_bounds (t : Tsc) (dev : DWord) : 8 ≤ tickNs t dev ∧ tickNs t dev ≤ 12 := by
  have hs := tickSlew_bounds t
  have hd := tickDev_bounds t dev
  unfold tickNs
  omega

theorem tickNs_of_steady {t : Tsc} (dev : DWord) (hr : t.ref = true) (hs : t.slew = 0) : tickNs t dev = 10 := by
  simp [tickNs, tickSlew_of_slew_zero hs, tickDev_of_ref dev hr]

theorem step_idle {s : State} (hp : s.pending = []) : step s = .next (tick s) := by
  unfold step
  rw [hp]

/-- Settles O48; that an idle step is one period is the model's choice (notes/assumptions/1.md). -/
theorem idleStepIsAClockPeriod : Obligations.IdleStepIsAClockPeriod := by
  intro s hp
  refine ⟨fun ha => by rw [step_idle hp, tick_off ha], fun ha => ?_⟩
  have ho := tick_onlyAccounts ha
  obtain ⟨hlo, hhi⟩ := tickNs_bounds s.tsc s.draw
  refine ⟨tick s, tickNs s.tsc s.draw, step_idle hp, ?_, hlo, hhi, tickNs_of_steady _, ho.mem, ho.groups, ho.cores, ho.pending.trans hp⟩
  rw [ho.tsc]
  exact ticked_time s.tsc s.draw

end Sys2Proof.Machine

/-! Device time (O17) and lending (O16): one equation per command and case. -/
namespace Sys2Proof.Machine
open Sys2Proof

/-! ### Device time (R42 R44 R46) -/

theorem fn_onFn (s : State) (f k : Nat) (g : Fn → Fn) : (s.onFn f g).fn k = if k = f then g (s.fn f) else s.fn k := Tbl.get_upd ..

theorem core_onCore (s : State) (p k : Nat) (g : Core → Core) : (s.onCore p g).core k = if k = p then g (s.core p) else s.core k :=
  Tbl.get_upd ..

theorem tscCapture_fn (f k : Nat) (s : State) : (tscCapture (.fn f) s).fn k =
    if k = f then { s.fn f with tscHi := BitVec.ofNat 32 (s.now / 2 ^ 32) } else s.fn k :=
  fn_onFn s f k fun x => { x with tscHi := BitVec.ofNat 32 (s.now / 2 ^ 32) }

theorem tscCapture_core (p k : Nat) (s : State) : (tscCapture (.core p) s).core k =
    if k = p then { s.core p with tscHi := BitVec.ofNat 32 (s.now / 2 ^ 32) } else s.core k :=
  core_onCore s p k fun x => { x with tscHi := BitVec.ofNat 32 (s.now / 2 ^ 32) }

theorem exec_tscTimeLowRead_fn {f : Nat} (s : State) (hf : f < 64) : exec (.tscTimeLowRead f) s =
    .next ((tscCapture (.fn f) s).onLastRead fun _ => BitVec.ofNat 64 (s.now % 2 ^ 32)) := if_pos hf

theorem exec_tscTimeLowRead_core {p : Nat} (s : State) (hp : p < 1152) : exec (.tscTimeLowRead (64 + p)) s =
    .next ((tscCapture (.core p) s).onLastRead fun _ => BitVec.ofNat 64 (s.now % 2 ^ 32)) := by
  show execTscTimeLowRead (64 + p) s = _
  unfold execTscTimeLowRead
  dsimp only
  rw [if_neg (by omega), if_pos (by omega), Nat.add_sub_cancel_left]

theorem exec_tscReferenceReturn_present {s : State} (h : s.tsc.ref = true) : exec .tscReferenceReturn s = .next s :=
  congrArg Host.Outcome.next (if_pos h)

theorem exec_tscReferenceReturn_lost {s : State} (h : s.tsc.ref = false) : exec .tscReferenceReturn s =
    .next (s.onTsc fun t => relocked { t with ref := true, relock := true, slew := t.slew - t.drift, drift := 0 }) :=
  congrArg Host.Outcome.next (if_neg (by simp [h]))

theorem relocked_of_slew {t : Tsc} (h : t.slew ≠ 0) : relocked t = t := if_neg (by simp [h])

theorem relocked_of_done {t : Tsc} (hr : t.relock = true) (hf : t.ref = true) (hs : t.slew = 0) :
    relocked t = { t with locked := true, relock := false } := if_pos (by simp [hr, hf, hs])

/-- Settles O17, command by command: a counter is locked again only once nothing is left to slew (notes/assumptions/61.md), and a
return of a present reference changes nothing (notes/assumptions/4.md). -/
theorem deviceTimeCommandsComplete : Obligations.DeviceTimeCommandsComplete := by
  intro s
  refine ⟨fun f hf => ?_, fun p hp => ?_, fun h => if_pos h, exec_tscReferenceReturn_present, fun h hs => ?_, fun h hs => ?_⟩
  · exact ⟨_, exec_tscTimeLowRead_fn s hf, rfl, congrArg Fn.tscHi ((tscCapture_fn ..).trans (if_pos rfl)),
      fun f' hn => (tscCapture_fn ..).trans (if_neg hn), rfl, rfl⟩
  · exact ⟨_, exec_tscTimeLowRead_core s hp, rfl, congrArg Core.tscHi ((tscCapture_core ..).trans (if_pos rfl)),
      fun q hn => (tscCapture_core ..).trans (if_neg hn), rfl, rfl⟩
  · rw [exec_tscReferenceReturn_lost h]
    refine congrArg (fun t => Host.Outcome.next { s with tsc := t }) (relocked_of_slew fun h0 => hs ?_)
    exact Int.sub_eq_zero.mp h0
  · rw [exec_tscReferenceReturn_lost h]
    have h0 : s.tsc.slew - s.tsc.drift = 0 := Int.sub_eq_zero.mpr hs
    simp only [State.onTsc, h0]
    rw [relocked_of_done rfl rfl rfl]

/-! ### Lending (R38 to R41) -/

section Lending
variable {die q : Nat} {s : State} (hd : die < 8) (hq : q < 36)
include hd hq

theorem inDie_of_lt : inDie die q = true := by simp [inDie, hd, hq]

theorem exec_quadIdleDrop (hm : (s.quad die q).mode = .operating) (hi : quadIdle s die q = true) (hp : s.pwr.state ≠ .fatal) :
    exec (.quadIdleDrop die q) s = .next (s.onQuad (36 * die + q) fun x => { x with mode := .dropping, wrote := false }) :=
  if_pos (by simp [inDie_of_lt hd hq, hm, hi, hp])

theorem exec_quadWritebackDone (hm : (s.quad die q).mode = .dropping) :
    exec (.quadWritebackDone die q) s = .next ((forAll (coresOfQuad die q) l1Flush s).onQuad (36 * die + q) fun x =>
      { x with mode := .ramping, wrote := true, rampAt := (forAll (coresOfQuad die q) l1Flush s).now }) :=
  if_pos (by simp [inDie_of_lt hd hq, hm])

theorem exec_quadRetentionReached (hm : (s.quad die q).mode = .ramping) :
    exec (.quadRetentionReached die q) s = .next (s.onQuad (36 * die + q) fun x => { x with mode := .retention, mv := 450 }) :=
  if_pos (by simp [inDie_of_lt hd hq, hm])

theorem exec_budgetLend (hl : (s.quad die q).lent = false)
    (hm : (s.quad die q).mode = .dropping ∨ (s.quad die q).mode = .ramping ∨ (s.quad die q).mode = .retention) :
    exec (.budgetLend die q) s = .next (s.onQuad (36 * die + q) fun x => { x with lent := true }) := by
  refine if_pos ?_
  rcases hm with hm | hm | hm <;> simp [inDie_of_lt hd hq, hl, hm]

/-- A waking event of a quad goes by its mode. -/
theorem exec_quadWake : exec (.quadWake die q) s = match (s.quad die q).mode with
    | .dropping => .next (s.onQuad (36 * die + q) fun x => { x with mode := .operating })
    | .ramping =>
      if 550 ≤ rampMv (s.quad die q) s.now then
        .next (applyInval (36 * die + q) (s.onQuad (36 * die + q) fun x => { x with mode := .operating, mv := rampMv (s.quad die q) s.now }))
      else .next (s.onQuad (36 * die + q) fun x => { x with mode := .waking, mv := rampMv (s.quad die q) s.now })
    | .retention => .next (s.onQuad (36 * die + q) fun x => { x with mode := .waking })
    | _ => .next s :=
  if_neg (by simp [inDie_of_lt hd hq])

theorem exec_quadWakeComplete (hm : (s.quad die q).mode = .waking) :
    exec (.quadWakeComplete die q) s =
      .next (applyInval (36 * die + q) (s.onQuad (36 * die + q) fun x => { x with mode := .operating, mv := 550 })) :=
  if_pos (by simp [inDie_of_lt hd hq, hm])

theorem exec_budgetReturn (hl : (s.quad die q).lent = true) (hm : (s.quad die q).mode = .operating ∨ (s.quad die q).mode = .waking) :
    exec (.budgetReturn die q) s = .next (s.onQuad (36 * die + q) fun x => { x with lent := false }) := by
  refine if_pos ?_
  rcases hm with hm | hm <;> simp [inDie_of_lt hd hq, hl, hm]

end Lending

/-- Settles O16, command by command. -/
theorem budgetLendingCompletes : Obligations.BudgetLendingCompletes := by
  intro die q s hd hq
  refine ⟨exec_quadIdleDrop hd hq, exec_quadWritebackDone hd hq, exec_quadRetentionReached hd hq, exec_budgetLend hd hq,
    fun hm => ?_, fun hm hv => ?_, fun hm hv => ?_, fun hm => ?_, exec_quadWakeComplete hd hq, exec_budgetReturn hd hq⟩
  · rw [exec_quadWake hd hq, hm]
  · rw [exec_quadWake hd hq, hm]
    exact if_pos hv
  · rw [exec_quadWake hd hq, hm]
    exact if_neg (Nat.not_le.mpr hv)
  · rw [exec_quadWake hd hq, hm]

end Sys2Proof.Machine

/-! Governors, the cap and its budgets (O15): a governor's tick goes over the quads of its die, and what it does to one depends
on that quad and its cores alone (`quadView`), so each quad may be followed by itself (`foldl_at`). -/
namespace Sys2Proof.Machine
open Sys2Proof

/-! ### A change that goes over a list without repetition -/

theorem foldl_keeps_mem {σ α β : Type} (v : σ → β) {f : σ → α → σ} {l : List α} (hf : ∀ s, ∀ x ∈ l, v (f s x) = v s) :
    ∀ s, v (l.foldl f s) = v s := by
  induction l with
  | nil => exact fun _ => rfl
  | cons x l ih =>
    exact fun s => (ih (fun s y hy => hf s y (List.mem_cons_of_mem x hy)) (f s x)).trans (hf s x List.mem_cons_self)

/-- What the step of `x` alone changes, the fold changes as that step does. -/
theorem foldl_at {σ α β : Type} (v : σ → β) (g : β → β) {f : σ → α → σ} {l : List α} {x : α} (hl : l.Nodup) (hx : x ∈ l)
    (hs : ∀ s, v (f s x) = g (v s)) (ho : ∀ s, ∀ y ∈ l, y ≠ x → v (f s y) = v s) (s : σ) : v (l.foldl f s) = g (v s) := by
  obtain ⟨l₁, l₂, rfl⟩ := List.append_of_mem hx
  obtain ⟨-, hl₂, hdisj⟩ := List.nodup_append.mp hl
  have h₁ : ∀ s, v (l₁.foldl f s) = v s := foldl_keeps_mem v fun s y hy =>
    ho s y (by simp [hy]) (hdisj y hy x List.mem_cons_self)
  have h₂ : ∀ s, v (l₂.foldl f s) = v s := foldl_keeps_mem v fun s y hy =>
    ho s y (by simp [hy]) fun h => (List.nodup_cons.mp hl₂).1 (h ▸ hy)
  rw [List.foldl_append, List.foldl_cons, h₂, hs, h₁]

/-! ### Quads and their cores -/

/-- The quad of a core within its die. -/
theorem pQuad_mod (p : Nat) : pQuad (p % 144) = pQuad p := by
  unfold pQuad pRow pCol
  rw [Nat.mod_mod, Nat.mod_mod_of_dvd p (by decide)]

theorem mem_coresOfQuad_iff {d q p : Nat} : p ∈ coresOfQuad d q ↔ pDie p = d ∧ pQuad p = q := by
  simp only [coresOfQuad, List.mem_filterMap, List.mem_range, Option.ite_none_right_eq_some, Option.some.injEq]
  constructor
  · rintro ⟨i, hi, hq, rfl⟩
    refine ⟨by unfold pDie; omega, ?_⟩
    rw [← hq, ← pQuad_mod, Nat.mul_add_mod, Nat.mod_eq_of_lt hi]
  · rintro ⟨rfl, rfl⟩
    exact ⟨p % 144, Nat.mod_lt _ (by decide), pQuad_mod p, by unfold pDie; omega⟩

theorem coresOfQuad_nodup (d q : Nat) : (coresOfQuad d q).Nodup := by
  refine List.Pairwise.filterMap _ (fun i j hne p hi p' hj => ?_) List.nodup_range
  simp only [Option.ite_none_right_eq_some, Option.some.injEq] at hi hj
  omega

theorem pQuad_lt (p : Nat) : pQuad p < 36 := by
  unfold pQuad pRow pCol
  omega

/-! ### A quad that is turned off -/

/-- What a core keeps whose quad is off: what Plowin keeps of it, and the counts and work already reported for others. -/
def cutOff (c : Core) : Core := { Core.kept c with lmSent := c.lmSent, clipPend := c.clipPend, work := c.work, workAt := c.workAt }

theorem quadOff_eq {die q : Nat} (hq : q < 36) (s : State) : quadOff (36 * die + q) s =
    forAll (coresOfQuad die q) (fun p s => s.onCore p cutOff) (s.onQuad (36 * die + q) fun _ => { mode := .off }) := by
  have hdie : (36 * die + q) / 36 = die := by omega
  have hquad : (36 * die + q) % 36 = q := by omega
  unfold quadOff
  rw [hdie, hquad]
  rfl

theorem quadOff_pwr {die q : Nat} (hq : q < 36) (s : State) :
    (quadOff (36 * die + q) s).pwr = (s.onQuad (36 * die + q) fun _ => { mode := .off }).pwr := by
  rw [quadOff_eq hq]
  exact foldl_keeps State.pwr (f := fun s p => s.onCore p cutOff) (fun _ _ => rfl) _ _

theorem quadOff_core {die q : Nat} (hq : q < 36) (s : State) (p : Nat) :
    (quadOff (36 * die + q) s).core p = if p ∈ coresOfQuad die q then cutOff (s.core p) else s.core p := by
  have hother : ∀ (s : State), ∀ k ∈ coresOfQuad die q, k ≠ p → (s.onCore k cutOff).core p = s.core p :=
    fun s k _ hk => (core_onCore s k p cutOff).trans (if_neg (Ne.symm hk))
  rw [quadOff_eq hq]
  split
  · next hp =>
    exact foldl_at (State.core · p) cutOff (f := fun s p => s.onCore p cutOff) (coresOfQuad_nodup die q) hp
      (fun s => core_onCore_same s p cutOff) hother _
  · next hp =>
    exact foldl_keeps_mem (State.core · p) (f := fun s p => s.onCore p cutOff) (fun s k hk => hother s k hk fun h => hp (h ▸ hk)) _

/-- Nothing but the power domain and the cores is written. -/
theorem quadOff_frame {die q : Nat} (hq : q < 36) (s : State) (w : Power) (cs : Tbl Core) :
    { quadOff (36 * die + q) s with pwr := w, cores := cs } = { s with pwr := w, cores := cs } := by
  rw [quadOff_eq hq]
  exact foldl_keeps (fun s : State => { s with pwr := w, cores := cs }) (f := fun s p => s.onCore p cutOff) (fun _ _ => rfl) _ _

/-! ### The tick of a governor, quad by quad -/

/-- What a governor does to one quad: off without a core in service, else a change of its supply. -/
def governQuad (die : Nat) (f : Nat → Quad → Quad) (q : Nat) (s : State) : State :=
  if quadDead s die q then quadOff (36 * die + q) s else s.onQuad (36 * die + q) (f q)

/-- What it does to all quads of its die. -/
def governDie (die : Nat) (f : Nat → Quad → Quad) (s : State) : State := forAll (List.range 36) (governQuad die f) s

section GovernQuad
variable {die q : Nat} {f : Nat → Quad → Quad}

theorem quad_onQuad (s : State) (k d j : Nat) (g : Quad → Quad) :
    (s.onQuad k g).quad d j = if 36 * d + j = k then g (s.pwr.quads.get k) else s.quad d j := Tbl.get_upd ..

theorem governQuad_quad (hq : q < 36) (s : State) (d j : Nat) : (governQuad die f q s).quad d j =
    if 36 * d + j = 36 * die + q then (if quadDead s die q then { mode := .off } else f q (s.quad die q)) else s.quad d j := by
  unfold governQuad
  split
  · exact (congrArg (fun w : Power => w.quads.get (36 * d + j)) (quadOff_pwr hq s)).trans (quad_onQuad ..)
  · exact quad_onQuad ..

theorem governQuad_core (hq : q < 36) (s : State) (p : Nat) : (governQuad die f q s).core p =
    if p ∈ coresOfQuad die q ∧ quadDead s die q = true then cutOff (s.core p) else s.core p := by
  unfold governQuad
  split
  · next h => simp [quadOff_core hq, h]
  · next h => simp [h, State.core, State.onQuad]

theorem governQuad_gov (hq : q < 36) (s : State) : (governQuad die f q s).pwr.gov = s.pwr.gov := by
  unfold governQuad
  split
  · rw [quadOff_pwr hq]
    rfl
  · rfl

theorem governQuad_frame (hq : q < 36) (s : State) (w : Power) (cs : Tbl Core) :
    { governQuad die f q s with pwr := w, cores := cs } = { s with pwr := w, cores := cs } := by
  unfold governQuad
  split
  · exact quadOff_frame hq s w cs
  · rfl

end GovernQuad

/-- All that decides what a governor does to a quad, and all that it may change for it. -/
def quadView (die q : Nat) (s : State) : Quad × List Core := (s.quad die q, (coresOfQuad die q).map s.core)

theorem quadView_fst (die q : Nat) (s : State) : (quadView die q s).1 = s.quad die q := rfl
theorem quadView_snd (die q : Nat) (s : State) : (quadView die q s).2 = (coresOfQuad die q).map s.core := rfl

/-- What a governor makes of that. -/
def governView (g : Quad → Quad) (v : Quad × List Core) : Quad × List Core :=
  if v.2.all fun c => c.fenced && !c.testing then ({ mode := .off }, v.2.map cutOff) else (g v.1, v.2)

theorem governView_quadView (g : Quad → Quad) (die q : Nat) (s : State) : governView g (quadView die q s) =
    (if quadDead s die q then { mode := .off } else g (s.quad die q),
      (coresOfQuad die q).map fun p => if quadDead s die q = true then cutOff (s.core p) else s.core p) := by
  have hdead : (((coresOfQuad die q).map s.core).all fun c => c.fenced && !c.testing) = quadDead s die q := by
    simp [quadDead, Function.comp_def]
  unfold governView quadView
  rw [hdead]
  cases quadDead s die q <;> simp

theorem governQuad_view_same {die q : Nat} (f : Nat → Quad → Quad) (hq : q < 36) (s : State) :
    quadView die q (governQuad die f q s) = governView (f q) (quadView die q s) := by
  rw [governView_quadView]
  refine Prod.ext ((governQuad_quad hq s die q).trans (if_pos rfl)) (List.map_congr_left fun p hp => ?_)
  simp [governQuad_core hq, hp]

theorem governQuad_view_other {die q j : Nat} (f : Nat → Quad → Quad) (hj : j < 36) (h : j ≠ q) (s : State) :
    quadView die q (governQuad die f j s) = quadView die q s := by
  refine Prod.ext ((governQuad_quad hj s die q).trans (if_neg (by omega))) (List.map_congr_left fun p hp => ?_)
  have hp' : p ∉ coresOfQuad die j := fun hm => h ((mem_coresOfQuad_iff.mp hm).2.symm.trans (mem_coresOfQuad_iff.mp hp).2)
  simp [governQuad_core hj, hp']

section GovernDie
variable {die : Nat} {f : Nat → Quad → Quad}

/-- What no quad's turn changes, the tick does not change. -/
theorem governDie_keeps {β : Type} (v : State → β) (hv : ∀ s, ∀ q < 36, v (governQuad die f q s) = v s) (s : State) :
    v (governDie die f s) = v s := by
  unfold governDie forAll
  exact foldl_keeps_mem v (fun s q hq => hv s q (List.mem_range.mp hq)) s

theorem governDie_view {q : Nat} (hq : q < 36) (s : State) : quadView die q (governDie die f s) = governView (f q) (quadView die q s) := by
  unfold governDie forAll
  exact foldl_at (quadView die q) (governView (f q)) List.nodup_range (List.mem_range.mpr hq) (governQuad_view_same f hq)
    (fun s _ hj hne => governQuad_view_other f (List.mem_range.mp hj) hne s) s

theorem governDie_quad {q : Nat} (hq : q < 36) (s : State) :
    (governDie die f s).quad die q = if quadDead s die q then { mode := .off } else f q (s.quad die q) := by
  have hview := (governDie_view (die := die) (f := f) hq s).trans (governView_quadView ..)
  exact (quadView_fst ..).symm.trans (congrArg Prod.fst hview)

theorem governDie_quad_other {d q : Nat} (hd : d ≠ die) (hq : q < 36) (s : State) : (governDie die f s).quad d q = s.quad d q :=
  governDie_keeps (State.quad · d q) (fun s j hj => (governQuad_quad hj s d q).trans (if_neg (by omega))) s

theorem governDie_core (s : State) (p : Nat) : (governDie die f s).core p =
    if pDie p = die ∧ quadDead s die (pQuad p) = true then cutOff (s.core p) else s.core p := by
  by_cases hp : pDie p = die
  · have hview := (governDie_view (die := die) (f := f) (pQuad_lt p) s).trans (governView_quadView ..)
    have hcore := List.map_inj_left.mp ((quadView_snd ..).symm.trans (congrArg Prod.snd hview)) p (mem_coresOfQuad_iff.mpr ⟨hp, rfl⟩)
    simpa [hp] using hcore
  · rw [if_neg fun h => hp h.1]
    refine governDie_keeps (State.core · p) (fun s j hj => (governQuad_core hj s p).trans (if_neg fun h => hp ?_)) s
    exact (mem_coresOfQuad_iff.mp h.1).1

theorem governDie_gov (s : State) : (governDie die f s).pwr.gov = s.pwr.gov :=
  governDie_keeps (fun s => s.pwr.gov) (fun s _ hj => governQuad_gov hj s) s

theorem governDie_frame (s : State) (w : Power) (cs : Tbl Core) :
    { governDie die f s with pwr := w, cores := cs } = { s with pwr := w, cores := cs } :=
  governDie_keeps (fun s : State => { s with pwr := w, cores := cs }) (fun s _ hj => governQuad_frame hj s w cs) s

end GovernDie

/-! ### What the tick sets (R29 R35 to R37) -/

/-- The supply of a quad with a core in service after the tick. -/
def governed (thermal floor : Bool) (target : Nat) (busy gated : List Nat) (q : Nat) (x : Quad) : Quad :=
  { x.tick thermal (busy.contains q) target with gated := floor && busy.contains q && gated.contains q }

theorem Quad.tick_mode (thermal busy : Bool) (target : Nat) (x : Quad) : (x.tick thermal busy target).mode = x.mode := by
  unfold Quad.tick
  split
  · rfl
  · split
    · rfl
    · split <;> rfl

theorem Quad.tick_mv {x : Quad} (thermal busy : Bool) (target : Nat) (hm : x.mode = .operating) : (x.tick thermal busy target).mv =
    if thermal then max 550 (x.mv - 5) else if busy = false then x.mv
      else if x.mv ≤ target then min target (x.mv + 100) else max target (x.mv - 100) := by
  unfold Quad.tick
  rw [if_neg (by simp [hm])]
  cases thermal
  · cases busy <;> rfl
  · rfl

/-- The quads that share the die's budget (R35). -/
def busyQuads (s : State) (die : Nat) : List Nat := (List.range 36).filter (quadBusy s die)

theorem busyQuads_contains {q : Nat} (hq : q < 36) (s : State) (die : Nat) : (busyQuads s die).contains q = quadBusy s die q := by
  rw [Bool.eq_iff_iff]
  simp [busyQuads, hq]

/-- The die is hot: above 95 °C, or still above 93 °C since it was (R37). -/
def hotNow (g : Governor) (tj : Nat) : Bool := decide (95 < tj) || (g.thermal && decide (93 < tj))

/-- The voltage that a busy quad moves toward. -/
def targetMv (s : State) (die load : Nat) (floor : Bool) : Nat :=
  if floor then minMv else busyMv (s.pwr.gov.get die).budget (busyQuads s die).length load

/-- A tick sets the governor's own record and flags, then goes over the quads. -/
theorem exec_governorTick {die : Nat} (tj load : Nat) (floor : Bool) (gated : List Nat) {s : State} (hd : die < 8) (hi : s.pwr.islands = true)
    (hp : s.pwr.state ≠ .fatal) : ∃ w : Power, exec (.governorTick die tj load floor gated) s =
      .next (governDie die (governed (hotNow (s.pwr.gov.get die) tj) floor (targetMv s die load floor) (busyQuads s die) gated) { s with pwr := w }) ∧
      w.quads = s.pwr.quads ∧ w.gov = s.pwr.gov.upd die fun g => { g with tj := tj, thermal := hotNow (s.pwr.gov.get die) tj } := by
  refine ⟨_, if_neg ?_, rfl, rfl⟩
  simp [hi, hp, Nat.not_le.mpr hd]

/-! ### Budgets and the cap (R32 R35 R406) -/

theorem forAll_onGov (l : List Nat) (g : Nat → Governor → Governor) (s : State) : forAll l (fun d s => s.onGov d (g d)) s =
    s.onPwr fun w => { w with gov := l.foldl (fun t d => t.upd d (g d)) w.gov } := by
  induction l generalizing s with
  | nil => rfl
  | cons d l ih => exact ih (s.onGov d (g d))

/-- The budget of one die is set. -/
def budgetSet (budgets : List Nat) (d : Nat) (g : Governor) : Governor := { g with budget := budgets.getD d 0 }

/-- The budgets of all dies are set. -/
def budgeted (budgets : List Nat) (t : Tbl Governor) : Tbl Governor :=
  (List.range 8).foldl (fun t d => t.upd d (budgetSet budgets d)) t

theorem budgeted_get (budgets : List Nat) {d : Nat} (hd : d < 8) (t : Tbl Governor) :
    (budgeted budgets t).get d = budgetSet budgets d (t.get d) :=
  foldl_at (Tbl.get · d) (budgetSet budgets d) (f := fun t d => t.upd d (budgetSet budgets d)) List.nodup_range (List.mem_range.mpr hd)
    (fun _ => Tbl.get_upd_same ..) (fun _ _ _ hne => Tbl.get_upd_other _ _ hne.symm) t

theorem exec_budgetTick {w m : Nat} {budgets : List Nat} {s : State} (hi : s.pwr.islands = true) (hb : budgets.sum ≤ s.pwr.cap) :
    exec (.budgetTick w m budgets) s =
      .next (s.onPwr fun x => { x with powerW := w % 65536, maxTj := m % 256, gov := budgeted budgets x.gov }) := by
  show execBudgetTick w m budgets s = _
  unfold execBudgetTick
  dsimp only
  rw [if_neg (by simp [hi]), if_neg (by simpa [State.onPwr] using hb)]
  exact congrArg Host.Outcome.next (forAll_onGov _ (budgetSet budgets) _)

theorem exec_capTakesEffect {w t0 : Nat} {rest : List (Nat × Nat)} {s : State} (hc : s.pwr.newCaps = (w, t0) :: rest) (ht : t0 ≤ s.now) :
    exec .capTakesEffect s = .next (capFix (s.onPwr fun x => { x with newCaps := rest, reqCap := w })) := by
  show execCapTakesEffect s = _
  unfold execCapTakesEffect
  rw [hc]
  exact if_pos ht

/-- Settles O15, command by command: that a quad not busy keeps its voltage, and what the budget allows a busy one, is the model's
choice (notes/assumptions/40.md). -/
theorem governorAndCapComplete : Obligations.GovernorAndCapComplete := by
  refine ⟨fun die tj load floor gated s hd hi hp => ?_, fun w m budgets s hi hb => ?_, fun w t0 rest s hc ht => ?_⟩
  · obtain ⟨w, hx, hquads, hgov⟩ := exec_governorTick tj load floor gated hd hi hp
    have hquad : ∀ d q, ({ s with pwr := w } : State).quad d q = s.quad d q := fun d q => by simp [State.quad, hquads]
    have hdead : ∀ q, quadDead { s with pwr := w } die q = quadDead s die q := fun _ => rfl
    have hget := (congrArg (Tbl.get · die) hgov).trans (Tbl.get_upd_same ..)
    refine ⟨_, hx, ?_, ?_, fun q hq => ?_, fun q hq halive hm => ?_, fun d q hne _ hq => ?_, fun p _ => governDie_core _ p,
      governDie_frame _ _ _⟩
    · rw [governDie_gov, hget]
      rfl
    · rw [governDie_gov, hget]
    · rw [governDie_quad hq, hdead, hquad]
      split
      · rfl
      · exact Quad.tick_mode ..
    · rw [governDie_quad hq, hdead, if_neg (by simp [halive]), hquad, ← busyQuads_contains hq]
      exact Quad.tick_mv _ _ _ hm
    · exact (governDie_quad_other hne hq _).trans (hquad d q)
  · exact ⟨_, exec_budgetTick hi hb, fun d hd => budgeted_get budgets hd _, rfl, rfl, rfl⟩
  · exact ⟨_, exec_capTakesEffect hc ht, rfl, rfl⟩

end Sys2Proof.Machine

/-! Arrays without a holder (O51). A TSEQ.WAIT performed in shadow keeps what it returned until its window entry retires, for a
squash to put back. ACC.CLEAR waits for the window entries of its own threads only, so a diverged set can release the array while
such an entry of another set stands; a squash then puts the result back into the array that its group no longer holds. -/
namespace Sys2Proof.Tbl

theorem get_eq_default_or_mem {α : Type} [Inhabited α] (t : Tbl α) (n : Nat) : t.get n = default ∨ (n, t.get n) ∈ t := by
  induction t with
  | nil => exact .inl rfl
  | cons x t ih =>
    obtain ⟨k, v⟩ := x
    rw [Tbl.get]
    split
    · next h => exact .inr (by simp [h])
    · exact ih.imp_right (List.mem_cons_of_mem _)

end Sys2Proof.Tbl

namespace Sys2Proof.Machine
open Sys2Proof

/-- The array of the core is held, or without content. -/
@[reducible] def Core.HeldOrEmpty (c : Core) : Prop :=
  c.holder = none → c.acc0 = [] ∧ c.acc1 = [] ∧ c.sat0 = false ∧ c.sat1 = false ∧ c.mq = [] ∧ c.progs = [] ∧ c.doneProgs = []

/-- Only listed cores can hold anything. -/
theorem arraysFree_of_listed {s : State} (h : ∀ x ∈ s.cores, x.2.HeldOrEmpty) : s.arraysFree := fun p => by
  obtain hd | hm := Tbl.get_eq_default_or_mem s.cores p
  · rw [show s.core p = default from hd]
    exact fun _ => ⟨rfl, rfl, rfl, rfl, rfl, rfl, rfl⟩
  · exact h _ hm

/-- The group in slot 0 of logical core 0 holds its array, one of its tile programs has completed, and these commands wait: thread 0
branches away from the others; it loads from an address without a translation; in the shadow of that load it takes the program's
result; the others release the array; the load faults. -/
def releasing : State :=
  { State.reset with
    pwr := { State.reset.pwr with quads := [(0, { mode := .operating, mv := 550 })] }
    ctxs := [(1, { live := true })]
    groups := [(gKey 0 0, { stage := .running, ctx := 1, vregs := 8, lsSize := 4096, th := [(0, { p := 1 })] })]
    cores := [(0, { holder := some 0, doneProgs := [(0, 1)] })]
    xl := { State.reset.xl with leaves := [{ ctx := 1, va := 0, size := 2, entry := BitVec.ofNat 64 (State.reset.devId * 2 ^ 48 + 0x20F) }] }
    pending := [.bra { guard := some (0, false), pc := 0 } 10 0, .ld { pc := 160, dst := 3, a := .imm (2 ^ 40) } 4,
      .tseqWait { pc := 176 } 1 2, .accClear { pc := 16 } 3 true none, .loadReply 0 0 2 false] }

/-- The state after so many steps, each of which goes on. -/
def stepped : Nat → State → State
  | 0, s => s
  | n + 1, s => match step s with | .next t => stepped n t | _ => s

theorem step_stepped_one (s : State) : step s = .next (stepped 1 s) := by
  obtain ⟨t, ht⟩ : GoesOn (step s) := by
    unfold step
    split
    · exact .next _
    · exact everyCommandCompletes _ _
  simp [stepped, ht]

/-- Up to the release every array is held or empty. -/
theorem stepped_releasing_arraysFree : (stepped 4 releasing).arraysFree := arraysFree_of_listed (by decide +kernel)

/-- The fault then puts the result back into the array that nobody holds. -/
theorem stepped_releasing_returns :
    ((stepped 1 (stepped 4 releasing)).core 0).holder = none ∧ ((stepped 1 (stepped 4 releasing)).core 0).doneProgs = [(0, 1)] := by
  decide +kernel

/-- Refutes O51: after a diverged set has released the array, the squash of another set's TSEQ.WAIT in the shadow of a faulting load
puts the status it returned back into the array, which has no holder. -/
theorem not_stepKeepsReleasedArraysZero : ¬ Obligations.StepKeepsReleasedArraysZero := by
  intro h
  obtain ⟨hholder, hdone⟩ := stepped_releasing_returns
  obtain ⟨-, -, -, -, -, -, hempty⟩ := h _ _ stepped_releasing_arraysFree (step_stepped_one _) 0 hholder
  exact absurd (hdone.symm.trans hempty) (by simp)

end Sys2Proof.Machine

/-! The checks of the array (O59). With a K-group's words in the latch the sums of the cells agree with what the checksum column
and row form, so a check compares the errors of the cells it covers with the error of its checksum. -/
namespace Sys2Proof.Tbl

/-- A table that lists, of some keys, those whose value is not the default. -/
theorem get_filterMap {α : Type} [Inhabited α] {z : α} [DecidableEq α] (hz : default = z) (f : Nat → α) (n : Nat) (l : List Nat) :
    Tbl.get (l.filterMap fun i => if f i = z then none else some (i, f i)) n = if n ∈ l then f n else z := by
  induction l with
  | nil => exact hz
  | cons a l ih =>
    by_cases ha : f a = z
    · rw [List.filterMap_cons_none (f := fun i => if f i = z then none else some (i, f i)) (if_pos ha), ih]
      by_cases hn : n = a
      · simp [hn, ha]
      · simp [hn]
    · rw [List.filterMap_cons_some (f := fun i => if f i = z then none else some (i, f i)) (if_neg ha), Tbl.get, ih]
      by_cases hn : a = n
      · simp [hn]
      · simp [hn, Ne.symm hn]

end Sys2Proof.Tbl

namespace Sys2Proof.Machine
open Sys2Proof

/-! ### Sums of numbers below a bound -/

/-- The sum of `f` over the numbers below a bound. -/
def sumTo (f : Nat → Int) : Nat → Int
  | 0 => 0
  | n + 1 => sumTo f n + f n

theorem sum_map_range (f : Nat → Int) (n : Nat) : ((List.range n).map f).sum = sumTo f n := by
  induction n with
  | zero => rfl
  | succ n ih => rw [List.range_succ, List.map_append, List.sum_append, ih]; exact congrArg (sumTo f n + ·) (Int.add_zero _)

theorem sumTo_congr {f g : Nat → Int} {n : Nat} (h : ∀ x < n, f x = g x) : sumTo f n = sumTo g n := by
  induction n with
  | zero => rfl
  | succ n ih => rw [sumTo, sumTo, ih fun x hx => h x (Nat.lt_succ_of_lt hx), h n (Nat.lt_succ_self n)]

theorem sumTo_zero (n : Nat) : sumTo (fun _ => 0) n = 0 := by
  induction n with
  | zero => rfl
  | succ n ih => rw [sumTo, ih]; rfl

theorem sumTo_add (f g : Nat → Int) (n : Nat) : sumTo (fun x => f x + g x) n = sumTo f n + sumTo g n := by
  induction n with
  | zero => rfl
  | succ n ih => simp only [sumTo, ih]; omega

theorem sumTo_sub (f g : Nat → Int) (n : Nat) : sumTo (fun x => f x - g x) n = sumTo f n - sumTo g n := by
  induction n with
  | zero => rfl
  | succ n ih => simp only [sumTo, ih]; omega

theorem sumTo_comm (f : Nat → Nat → Int) (n m : Nat) :
    sumTo (fun x => sumTo (f x) m) n = sumTo (fun y => sumTo (fun x => f x y) n) m := by
  induction n with
  | zero => exact (sumTo_zero m).symm
  | succ n ih => simp only [sumTo, ih, sumTo_add]

/-- A condition that does not depend on the number leaves the sum. -/
theorem sumTo_ite (c : Prop) [Decidable c] (f : Nat → Int) (n : Nat) :
    sumTo (fun x => if c then f x else 0) n = if c then sumTo f n else 0 := by
  split
  · rfl
  · exact sumTo_zero n

/-- A sum with one term that is not zero. -/
theorem sumTo_point {n a : Nat} (d : Int) (ha : a < n) : sumTo (fun x => if x = a then d else 0) n = d := by
  induction n with
  | zero => exact absurd ha (Nat.not_lt_zero a)
  | succ n ih =>
    rw [sumTo]
    by_cases h : n = a
    · have hz : sumTo (fun x => if x = a then d else 0) n = sumTo (fun _ => 0) n :=
        sumTo_congr fun x hx => if_neg (by omega)
      rw [hz, sumTo_zero, if_pos h, Int.zero_add]
    · rw [ih (by omega), if_neg h, Int.add_zero]

/-- A sum of equal terms counts them. -/
theorem sumTo_count (p : Nat → Bool) (v : Int) (n : Nat) :
    sumTo (fun x => if p x then v else 0) n = (((List.range n).filter p).length : Int) * v := by
  induction n with
  | zero => exact (Int.zero_mul v).symm
  | succ n ih =>
    rw [sumTo, ih, List.range_succ, List.filter_append, List.length_append, Int.natCast_add, Int.add_mul]
    cases h : p n
    · rw [List.filter_cons_of_neg (by simp only [h, Bool.false_eq_true, not_false_eq_true])]
      simp only [Bool.false_eq_true, if_false, List.filter_nil, List.length_nil, Int.ofNat_zero, Int.zero_mul]
    · rw [List.filter_cons_of_pos h]
      simp only [if_true, List.filter_nil, List.length_cons, List.length_nil, Nat.zero_add, Int.ofNat_one, Int.one_mul]

/-- Of the numbers below `n` the values differ from zero at `a` alone. -/
theorem filter_range_point {n a : Nat} {d : Int} {f : Nat → Int} (ha : a < n) (hd : d ≠ 0) (hf : ∀ x, f x = if x = a then d else 0) :
    (List.range n).filter (fun x => f x != 0) = [a] := by
  have hat : (f a != 0) = true := by rw [hf, if_pos rfl]; exact bne_iff_ne.mpr hd
  have hoff (x : Nat) (hx : x ≠ a) : ¬(f x != 0) = true := by rw [hf, if_neg hx]; exact Bool.false_ne_true
  induction n with
  | zero => exact absurd ha (Nat.not_lt_zero a)
  | succ n ih =>
    rw [List.range_succ, List.filter_append]
    by_cases h : n = a
    · subst h
      rw [List.filter_cons_of_pos (p := fun x => f x != 0) hat, List.filter_eq_nil_iff.mpr fun x hx => hoff x (Nat.ne_of_lt (List.mem_range.mp hx))]
      rfl
    · rw [ih (by omega), List.filter_cons_of_neg (p := fun x => f x != 0) (hoff n h)]
      rfl

theorem filter_range_zero {n : Nat} {f : Nat → Int} (hf : ∀ x, f x = 0) : (List.range n).filter (fun x => f x != 0) = [] :=
  List.filter_eq_nil_iff.mpr fun x _ => by rw [hf]; exact Bool.false_ne_true

/-! ### The latch (R51 R71) -/

/-- The number that lane (k, j) stands for while the words of K-group `g` for pass `c` are in the latch. -/
def Mma.laneVal (m : Mma) (g c k j : Nat) : Int := laneNum (m.mode = .wide) (qFloat m.qfmt) (m.lane g c k j)

theorem latchOf_lane (m : Mma) (g c : Nat) {k j : Nat} (hk : k < 8) (hj : j < 32) :
    (m.latchOf g c).lanes.get (32 * k + j) = m.lane g c k j := by
  have h := Tbl.get_filterMap (α := BitVec 12) (z := 0) rfl (fun n => m.lane g c (n / 32) (n % 32)) (32 * k + j) (List.range 256)
  rw [if_pos (List.mem_range.mpr (by omega)), show (32 * k + j) / 32 = k by omega, show (32 * k + j) % 32 = j by omega] at h
  exact h

theorem latchOf_qsum (m : Mma) (g c : Nat) {k : Nat} (hk : k < 8) : (m.latchOf g c).qsum.get k = sumTo (m.laneVal g c k) 32 := by
  have h := Tbl.get_filterMap (α := Int) (z := 0) rfl (fun k => ((List.range 32).map (m.laneVal g c k)).sum) k (List.range 8)
  rw [if_pos (List.mem_range.mpr hk), sum_map_range] at h
  exact h

/-! ### Errors of cells and of checksums (R71) -/

section Checks
variable {m : Mma} {r : KRun} {c st : Nat}

theorem cell_of_cells_nil {ch : Check} (l : Latch) (i k j : Nat) (hch : ch.cells = []) :
    m.cell r l ch st i k j = if m.pBit r st i k then laneNum (m.mode = .wide) (qFloat m.qfmt) (l.lanes.get (32 * k + j)) else 0 := by
  rw [Mma.cell, hch]
  rfl

/-- What a faulty cell adds to the sums it is in. -/
def Mma.cellErr (m : Mma) (r : KRun) (c : Nat) (ch : Check) (st i k j : Nat) : Int :=
  m.cell r (m.latchOf r.g c) ch st i k j - m.cell r (m.latchOf r.g c) {} st i k j

/-- The cells of a row without an error sum to what the checksum column forms. -/
theorem rowSum_eq_checksum (i : Nat) : sumTo (fun k => sumTo (fun j => m.cell r (m.latchOf r.g c) {} st i k j) 32) 8 =
    sumTo (fun k => if m.pBit r st i k then (m.latchOf r.g c).qsum.get k else 0) 8 := by
  refine sumTo_congr fun k hk => ?_
  have hcell : ∀ j < 32, m.cell r (m.latchOf r.g c) {} st i k j = if m.pBit r st i k then m.laneVal r.g c k j else 0 := fun j hj => by
    rw [cell_of_cells_nil _ _ _ _ rfl, latchOf_lane m r.g c hk hj]
    rfl
  rw [sumTo_congr hcell, sumTo_ite, latchOf_qsum m r.g c hk]

/-- The cells of a column without an error sum to what the checksum row forms. -/
theorem colSum_eq_checksum (l : Latch) (j : Nat) : sumTo (fun i => sumTo (fun k => m.cell r l {} st i k j) 8) 64 =
    sumTo (fun k => (m.pcount r st k : Int) * laneNum (m.mode = .wide) (qFloat m.qfmt) (l.lanes.get (32 * k + j))) 8 := by
  rw [sumTo_comm]
  refine sumTo_congr fun k _ => ?_
  exact (sumTo_congr fun i _ => cell_of_cells_nil l i k j rfl).trans (sumTo_count (fun i => m.pBit r st i k) _ 64)

theorem bne_add_iff_sub_sub (a b e : Int) : (a != b + e) = (a - b - e != 0) := by
  rw [Bool.eq_iff_iff, bne_iff_ne, bne_iff_ne]
  omega

/-- A row's check fails where the errors of its cells differ from that of the checksum column. -/
theorem failRows_eq (ch : Check) : m.failRows r (m.latchOf r.g c) ch st =
    (List.range 64).filter fun i => sumTo (fun k => sumTo (m.cellErr r c ch st i k) 32) 8 - errOf ch.cksCol i != 0 := by
  refine List.filter_congr fun i _ => ?_
  have hsum : sumTo (fun k => sumTo (m.cellErr r c ch st i k) 32) 8 =
      sumTo (fun k => sumTo (fun j => m.cell r (m.latchOf r.g c) ch st i k j) 32) 8 -
      sumTo (fun k => if m.pBit r st i k then (m.latchOf r.g c).qsum.get k else 0) 8 := by
    rw [← rowSum_eq_checksum i, ← sumTo_sub]
    exact sumTo_congr fun k _ => sumTo_sub _ _ 32
  simp only [sum_map_range]
  rw [hsum]
  exact bne_add_iff_sub_sub _ _ _

/-- A column's check fails where the errors of its cells differ from that of the checksum row. -/
theorem failCols_eq (ch : Check) : m.failCols r (m.latchOf r.g c) ch st =
    (List.range 32).filter fun j => sumTo (fun i => sumTo (fun k => m.cellErr r c ch st i k j) 8) 64 - errOf ch.cksRow j != 0 := by
  refine List.filter_congr fun j _ => ?_
  have hsum : sumTo (fun i => sumTo (fun k => m.cellErr r c ch st i k j) 8) 64 =
      sumTo (fun i => sumTo (fun k => m.cell r (m.latchOf r.g c) ch st i k j) 8) 64 -
      sumTo (fun k => (m.pcount r st k : Int) * laneNum (m.mode = .wide) (qFloat m.qfmt) ((m.latchOf r.g c).lanes.get (32 * k + j))) 8 := by
    rw [← colSum_eq_checksum, ← sumTo_sub]
    exact sumTo_congr fun i _ => sumTo_sub _ _ 8
  simp only [sum_map_range]
  rw [hsum]
  exact bne_add_iff_sub_sub _ _ _

/-- Without a faulty cell no cell is in error. -/
theorem cellErr_of_cells_nil {ch : Check} (hch : ch.cells = []) : m.cellErr r c ch st = fun _ _ _ => 0 := by
  funext i k j
  rw [Mma.cellErr, cell_of_cells_nil _ _ _ _ hch, cell_of_cells_nil _ _ _ _ rfl, Int.sub_self]

theorem cell_of_one_fault (i k j : Nat) (v : Int) (l : Latch) (i' k' j' : Nat) : m.cell r l { cells := [(i, k, j, v)] } st i' k' j' =
    if i' = i ∧ k' = k ∧ j' = j then v else m.cell r l {} st i' k' j' := by
  by_cases h : i' = i ∧ k' = k ∧ j' = j
  · obtain ⟨rfl, rfl, rfl⟩ := h
    rw [if_pos ⟨rfl, rfl, rfl⟩, Mma.cell,
      List.find?_cons_of_pos (by simp only [decide_true, Bool.and_self])]
  · have hf : ¬(i = i' ∧ k = k' ∧ j = j') := fun ⟨hi, hk, hj⟩ => h ⟨hi.symm, hk.symm, hj.symm⟩
    rw [if_neg h, Mma.cell, List.find?_cons_of_neg (by simpa only [Bool.and_eq_true, decide_eq_true_eq, and_assoc] using hf)]
    rfl

/-- One faulty cell is in error alone. -/
theorem cellErr_of_one_fault (i k j : Nat) (v : Int) : m.cellErr r c { cells := [(i, k, j, v)] } st = fun i' k' j' =>
    if i' = i then if k' = k then if j' = j then v - m.cell r (m.latchOf r.g c) {} st i k j else 0 else 0 else 0 := by
  funext i' k' j'
  rw [Mma.cellErr, cell_of_one_fault]
  by_cases h : i' = i ∧ k' = k ∧ j' = j
  · obtain ⟨rfl, rfl, rfl⟩ := h
    rw [if_pos ⟨rfl, rfl, rfl⟩, if_pos rfl, if_pos rfl, if_pos rfl]
  · rw [if_neg h, Int.sub_self]
    by_cases hi : i' = i
    · by_cases hk : k' = k
      · rw [if_pos hi, if_pos hk, if_neg fun hj => h ⟨hi, hk, hj⟩]
      · rw [if_pos hi, if_neg hk]
    · rw [if_neg hi]

theorem errOf_nil (n : Nat) : errOf [] n = 0 := rfl

theorem errOf_singleton (i : Nat) (e : Int) (n : Nat) : errOf [(i, e)] n = if n = i then e else 0 := by
  rw [errOf]
  by_cases h : n = i
  · rw [if_pos h, List.filter_cons_of_pos (p := fun x : Nat × Int => decide (x.1 = n)) (decide_eq_true h.symm)]
    exact Int.add_zero e
  · rw [if_neg h, List.filter_cons_of_neg (p := fun x : Nat × Int => decide (x.1 = n)) (by simpa only [decide_eq_true_eq] using Ne.symm h)]
    rfl

theorem zero_sub_ite (p : Prop) [Decidable p] (e : Int) : 0 - (if p then e else 0) = if p then -e else 0 := by
  split <;> omega

theorem failRows_nil {ch : Check} (hc : ch.cells = []) (he : ch.cksCol = []) : m.failRows r (m.latchOf r.g c) ch st = [] := by
  rw [failRows_eq, cellErr_of_cells_nil hc, he]
  exact filter_range_zero fun x => by simp only [sumTo_zero, errOf_nil, Int.sub_self]

theorem failCols_nil {ch : Check} (hc : ch.cells = []) (he : ch.cksRow = []) : m.failCols r (m.latchOf r.g c) ch st = [] := by
  rw [failCols_eq, cellErr_of_cells_nil hc, he]
  exact filter_range_zero fun x => by simp only [sumTo_zero, errOf_nil, Int.sub_self]

end Checks

/-- Settles O59: the checks that fail are those whose difference is not zero, which are the one of the row and the one of the column
in error. -/
theorem arrayChecks : Obligations.ArrayChecks := by
  intro m r c st
  refine ⟨failRows_nil rfl rfl, failCols_nil rfl rfl, fun i k j v hi hk hj hv => ⟨?_, ?_⟩, fun i e hi he => ⟨?_, failCols_nil rfl rfl⟩,
    fun j e hj he => ⟨failRows_nil rfl rfl, ?_⟩⟩
  · rw [failRows_eq, cellErr_of_one_fault]
    exact filter_range_point hi (fun h => hv (Int.sub_eq_zero.mp h)) fun x => by
      simp only [sumTo_ite, sumTo_point _ hj, sumTo_point _ hk, errOf_nil, Int.sub_zero]
  · rw [failCols_eq, cellErr_of_one_fault]
    exact filter_range_point hj (fun h => hv (Int.sub_eq_zero.mp h)) fun x => by
      simp only [sumTo_ite, sumTo_point _ hi, sumTo_point _ hk, errOf_nil, Int.sub_zero]
  · rw [failRows_eq, cellErr_of_cells_nil rfl]
    exact filter_range_point hi (Int.neg_ne_zero.mpr he) fun x => by simp only [sumTo_zero, errOf_singleton, zero_sub_ite]
  · rw [failCols_eq, cellErr_of_cells_nil rfl]
    exact filter_range_point hj (Int.neg_ne_zero.mpr he) fun x => by simp only [sumTo_zero, errOf_singleton, zero_sub_ite]

end Sys2Proof.Machine

/-! Instructions of the array and of the tile sequencer (O11): a ready one whose group the array is free to begins as the holder. -/
namespace Sys2Proof.Machine
open Sys2Proof

/-! ### The holder (R58) -/

/-- Becoming the holder changes nothing of what the array holds and queues. -/
theorem acquire_core (x : Iss) (s : State) : ∃ ho k rn em en ek, (acquire x s).core x.p =
    { s.core x.p with holder := ho, lmKey := k, rn := rn, em := em, en := en, ek := ek } := by
  unfold acquire
  dsimp only
  split
  · exact ⟨_, _, _, _, _, _, rfl⟩
  · exact ⟨_, _, _, _, _, _, core_onCore_same _ _ _⟩

theorem issueCost_core (x : Iss) (reads : List (Nat × Bool)) (s : State) : ∃ rc n w, (issueCost x reads s).core x.p =
    { s.core x.p with rcache := rc, issues := n, work := w } :=
  ⟨_, _, _, core_onCore_same s x.p fun c => { c with
    rcache := (readRegs x.g.slot reads [] (s.core x.p).rcache).2, issues := (s.core x.p).issues + 1
    work := c.work.upd x.g.ctx (· + holdSteps (readRegs x.g.slot reads [] (s.core x.p).rcache).1) }⟩

@[simp] theorem issOf_p (i : Ins) (h : Shape) (s : State) : (issOf i h s).p = insCore i s := rfl
@[simp] theorem issOf_g (i : Ins) (h : Shape) (s : State) : (issOf i h s).g = insGroup i s := rfl

section Held
variable {i : Ins} {h h0 : Shape} {s : State}

theorem held_core : ∃ rc n w ho k rn em en ek, (held i h s).core (insCore i s) =
    { s.core (insCore i s) with rcache := rc, issues := n, work := w, holder := ho, lmKey := k, rn := rn, em := em, en := en, ek := ek } := by
  obtain ⟨rc, n, w, hc⟩ := issueCost_core (issOf i h s) h.reads s
  obtain ⟨ho, k, rn, em, en, ek, ha⟩ := acquire_core (issOf i h s) (issued i h s)
  exact ⟨rc, n, w, ho, k, rn, em, en, ek, ha.trans (by rw [issued, hc]; rfl)⟩

/-- An instruction that has begun finds the array and the finished programs as they stood. -/
@[simp] theorem held_array :
    ((held i h s).core (insCore i s)).acc0 = (s.core (insCore i s)).acc0 ∧ ((held i h s).core (insCore i s)).acc1 = (s.core (insCore i s)).acc1 ∧
    ((held i h s).core (insCore i s)).sat0 = (s.core (insCore i s)).sat0 ∧ ((held i h s).core (insCore i s)).sat1 = (s.core (insCore i s)).sat1 ∧
    ((held i h s).core (insCore i s)).mq = (s.core (insCore i s)).mq ∧ ((held i h s).core (insCore i s)).doneProgs = (s.core (insCore i s)).doneProgs := by
  obtain ⟨_, _, _, _, _, _, _, _, _, hc⟩ := held_core (i := i) (h := h) (s := s)
  rw [hc]
  exact ⟨rfl, rfl, rfl, rfl, rfl, rfl⟩

@[simp] theorem held_bankBusy (b : Bool) : bankBusy ((held i h s).core (insCore i s)) b = bankBusy (s.core (insCore i s)) b := by
  simp [bankBusy]

/-- A ready array instruction of a group to which the array is free begins, its group the holder. -/
theorem beginArray_free {progs : Bool} (hh : h = { h0 with grp := true }) (hr : ready i h s = true) (ha : arrayFree i progs s = true) :
    beginArray i h0 progs s = .go (issOf i h s) (held i h s) := by
  rw [beginArray, ← hh, begin_ready hr]
  dsimp only
  unfold arrayFree at ha
  dsimp only at ha
  split at ha
  · next hn =>
    rw [issOf_p, hn]
    rfl
  · next o ho =>
    obtain ⟨rfl, hp⟩ : o = (insGroup i s).slot ∧ (progs && !(s.core (insCore i s)).progs.isEmpty) = false := by
      simpa only [Bool.and_eq_true, decide_eq_true_eq, Bool.not_eq_true'] using ha
    rw [issOf_p, ho]
    dsimp only
    rw [if_neg (by simp), hp]
    rfl

/-! ### MMA, ACC.READ and ACC.CLEAR -/

theorem exec_mma {gE pf qf accT retake : Nat} {bank zero : Bool} {bs ts : List (List Byte)} (hT : accT < 3) (hR : retake < 3)
    (hh : h = { grp := true, srcs := [(i.a, false), (i.b, false)] }) (hr : ready i h s = true) (ha : arrayFree i true s = true)
    (hq : (s.core (insCore i s)).mq.length < 4)
    (hop : mmaOperands (insGroup i s) gE pf qf accT (uval (issOf i h s) s 0 i.a) (uval (issOf i h s) s 1 i.b) = some (bs, ts)) :
    exec (.mma i gE pf qf accT bank zero retake) s =
      .next (((uniUse [i.a, i.b] (held i h s)).onCore (insCore i s) fun c => { c with
          mq := c.mq ++ [{ owner := (insGroup i s).slot, winId := (insGroup i s).nextId, pfmt := pf, qfmt := qf, accT := accT, bank := bank
                           zero := zero, retake := retake, rn := ((uniUse [i.a, i.b] (held i h s)).core (insCore i s)).rn
                           g := gE, blocks := bs, tiles := ts }] }).onGroup (insKey i) fun a =>
        ({ a with win := a.win ++ [({ id := (insGroup i s).nextId, lanes := maskOf (insSet i s), setm := maskOf (insSet i s), pc := i.pc, use := .mma } : Win)]
                  nextId := (insGroup i s).nextId + 1 } : Group).advance (insSet i s) fun _ => i.pc + 16) := by
  show execMma i gE pf qf accT bank zero retake s = _
  rw [execMma, beginArray_free (by simp [hh, hT, hR]) hr ha]
  simp only [issOf_p, issOf_g, hop, Nat.not_le.mpr hq]
  rfl

/-- The source of an ACC.READ is the uniform register that holds its row number, where one does. -/
def accReadSrcs (i : Ins) : List (Src × Bool) :=
  match i.a with | .u n => [(.u n, false)] | _ => []

/-- A predicate that an ACC.READ names is one of the eight. -/
def statusOk (status : Option Nat) : Bool :=
  match status with | some q => decide (q < 8) | none => true

/-- The row of an ACC.READ: a uniform register's or the immediate. -/
def accReadRow (i : Ins) (g : Group) (row : Nat) : Nat :=
  match i.a with | .u n => (g.uget n).toNat % 64 | _ => row

/-- The predicate an ACC.READ writes, where it names one. -/
def statusWrites (g : Group) (l : Nat) (sat : Bool) (status : Option Nat) : Writes :=
  match status with | some q => wpred g l q sat | none => []

theorem exec_accRead_eq (i : Ins) (bank : Bool) (row : Nat) (status : Option Nat) (s : State) : exec (.accRead i bank row status) s =
    match beginArray i { srcs := accReadSrcs i, dst := i.dst, ok := decide (row < 64) && statusOk status } true s with
    | .no => .next s
    | .bad t => .next t
    | .go x t =>
      if bankBusy (t.core x.p) bank then .next s
      else .next (finish i x (fun l =>
        (i.dst, (if bank then (t.core x.p).acc1 else (t.core x.p).acc0).get (32 * accReadRow i x.g row + l)) ::
          statusWrites x.g l (if bank then (t.core x.p).sat1 else (t.core x.p).sat0) status) [] (after i) t) := rfl

theorem exec_accRead {bank : Bool} {row : Nat} {status : Option Nat} (hrow : row < 64) (hst : ∀ q, status = some q → q < 8)
    (hh : h = { grp := true, srcs := accReadSrcs i, dst := i.dst }) (hr : ready i h s = true)
    (ha : arrayFree i true s = true) (hb : bankBusy (s.core (insCore i s)) bank = false) :
    exec (.accRead i bank row status) s = .next (finish i (issOf i h s) (fun l =>
      (i.dst, (if bank then (s.core (insCore i s)).acc1 else (s.core (insCore i s)).acc0).get (32 * accReadRow i (insGroup i s) row + l)) ::
        statusWrites (insGroup i s) l (if bank then (s.core (insCore i s)).sat1 else (s.core (insCore i s)).sat0) status)
      [] (fun _ => i.pc + 16) (held i h s)) := by
  have hok : (decide (row < 64) && statusOk status) = true := by
    rw [decide_eq_true hrow, Bool.true_and]
    cases status with
    | none => rfl
    | some q => exact decide_eq_true (hst q rfl)
  rw [exec_accRead_eq, beginArray_free (by rw [hh, hok]) hr ha]
  simp only [issOf_p, issOf_g, held_bankBusy, hb, held_array]
  rfl

/-- The retake fraction that an ACC.CLEAR sets lies in its range. -/
def fractionOk (setN : Option Nat) : Bool :=
  match setN with | some n => decide (1 ≤ n) && decide (n ≤ 24) | none => true

/-- ACC.CLEAR waits for earlier MMAs of the banks it clears, and to release for all of them. -/
def clearWaits (c : Core) (banks : BitVec 2) (release : Bool) : Bool :=
  (banks.getLsbD 0 && bankBusy c false) || (banks.getLsbD 1 && bankBusy c true) || (release && !c.mq.isEmpty)

/-- The core with the named banks and their SAT bits cleared and the fraction set. -/
def Core.cleared (banks : BitVec 2) (setN : Option Nat) (c : Core) : Core :=
  { c with
    acc0 := if banks.getLsbD 0 then [] else c.acc0, sat0 := c.sat0 && !banks.getLsbD 0
    acc1 := if banks.getLsbD 1 then [] else c.acc1, sat1 := c.sat1 && !banks.getLsbD 1, rn := setN.getD c.rn }

theorem exec_accClear_eq (i : Ins) (banks : BitVec 2) (release : Bool) (setN : Option Nat) (s : State) : exec (.accClear i banks release setN) s =
    match beginArray i { early := false, ok := fractionOk setN } true s with
    | .no => .next s
    | .bad t => .next t
    | .go x t =>
      if clearWaits (t.core x.p) banks release then .next s
      else .next (finish i x (fun _ => []) [] (after i)
        (if release then arrRelease x.p (t.onCore x.p (Core.cleared banks setN)) else t.onCore x.p (Core.cleared banks setN))) := rfl

theorem exec_accClear {banks : BitVec 2} {release : Bool} {setN : Option Nat} (hN : ∀ n, setN = some n → 1 ≤ n ∧ n ≤ 24)
    (hh : h = { early := false, grp := true }) (hr : ready i h s = true) (ha : arrayFree i true s = true)
    (h0 : banks.getLsbD 0 = true → bankBusy (s.core (insCore i s)) false = false)
    (h1 : banks.getLsbD 1 = true → bankBusy (s.core (insCore i s)) true = false) (hrel : release = true → (s.core (insCore i s)).mq = []) :
    exec (.accClear i banks release setN) s = .next (finish i (issOf i h s) (fun _ => []) [] (fun _ => i.pc + 16)
      ((if release then arrRelease (insCore i s) else id) ((held i h s).onCore (insCore i s) (Core.cleared banks setN)))) := by
  have hok : fractionOk setN = true := by
    cases setN with
    | none => rfl
    | some n => simpa [fractionOk] using hN n rfl
  have hw : clearWaits ((held i h s).core (insCore i s)) banks release = false := by
    simp only [clearWaits, held_bankBusy, held_array, Bool.or_eq_false_iff, Bool.and_eq_false_imp]
    exact ⟨⟨h0, h1⟩, fun hy => by simp [hrel hy]⟩
  rw [exec_accClear_eq, beginArray_free (by rw [hh, hok]) hr ha]
  simp only [issOf_p, hw]
  cases release <;> rfl

/-! ### The tile sequencer -/

theorem exec_tseqStart {off : Nat} (hh : h = { early := false, grp := true, srcs := [(i.a, false)] }) (hr : ready i h s = true)
    (ha : arrayFree i false s = true) (hp : (s.core (insCore i s)).progs.length < 2) (ho : off = uval (issOf i h s) s 0 i.a)
    (h64 : off % 64 = 0) (hls : off + 256 ≤ (insGroup i s).lsSize)
    (hd : tseqReason (readTbl (insGroup i s).ls off 256) off (insGroup i s).lsSize = none) :
    exec (.tseqStart i) s = .next (finish i (issOf i h s) (fun _ => []) [] (fun _ => i.pc + 16)
      ((uniUse [i.a] (held i h s)).onCore (insCore i s) fun c => { c with
        progs := c.progs ++ [{ desc := readTbl (insGroup i s).ls off 256, pc := i.pc }] })) := by
  show execTseqStart i s = _
  rw [execTseqStart, beginArray_free (by rw [hh]) hr ha]
  simp only [issOf_p, issOf_g, ← ho, h64, hd, Nat.not_le.mpr hp, Nat.not_lt.mpr hls]
  rfl

theorem exec_tseqWait {us ut st tile : Nat} {rest : List (Nat × Nat)} (hh : h = { grp := true, unis := [(us, false), (ut, false)] })
    (hr : ready i h s = true) (ha : arrayFree i false s = true) (hd : (s.core (insCore i s)).doneProgs = (st, tile) :: rest) :
    exec (.tseqWait i us ut) s = .next (notePop (issOf i h s) (st, tile) (finish i (issOf i h s) (fun _ => [])
      [(us, BitVec.ofNat 32 st), (ut, BitVec.ofNat 32 tile)] (fun _ => i.pc + 16)
      ((held i h s).onCore (insCore i s) fun c => { c with doneProgs := rest }))) := by
  show execTseqWait i us ut s = _
  rw [execTseqWait, beginArray_free (by rw [hh]) hr ha]
  simp only [issOf_p, held_array, hd]
  rfl

theorem exec_extentSet (hh : h = { early := false, grp := true, srcs := [(i.a, false), (i.b, false), (i.c, false)] })
    (hr : ready i h s = true) (ha : arrayFree i false s = true) :
    exec (.extentSet i) s = .next (finish i (issOf i h s) (fun _ => []) [] (fun _ => i.pc + 16)
      ((uniUse [i.a, i.b, i.c] (held i h s)).onCore (insCore i s) fun c => { c with
        em := uval (issOf i h s) s 0 i.a, en := uval (issOf i h s) s 1 i.b, ek := uval (issOf i h s) s 2 i.c
        progs := c.progs.map (Prog.refetch c) })) := by
  show execExtentSet i s = _
  rw [execExtentSet, beginArray_free (by rw [hh]) hr ha]
  rfl

end Held

/-- Settles O11, instruction by instruction: that an MMA reads its operands as it issues and keeps them with its queue entry is the
model's choice (notes/assumptions/34.md). -/
theorem arrayInstructionsComplete : Obligations.ArrayInstructionsComplete := by
  intro i s
  refine ⟨fun h gE pf qf accT bank zero retake bs ts hT hR hh hr ha hq hop => exec_mma hT hR hh hr ha hq hop,
    fun h bank row status hrow hst hh hr ha hb => exec_accRead hrow hst hh hr ha hb,
    fun h banks release setN hN hh hr ha h0 h1 hrel => exec_accClear hN hh hr ha h0 h1 hrel,
    fun h off hh hr ha hp ho h64 hls hd => exec_tseqStart hh hr ha hp ho h64 hls hd,
    fun h us ut st tile rest hh hr ha hd => exec_tseqWait hh hr ha hd,
    fun h hh hr ha => exec_extentSet hh hr ha⟩

end Sys2Proof.Machine

/-! What the array does by itself (O12): one equation per event and outcome. -/
namespace Sys2Proof.Machine
open Sys2Proof

/-! ### Plane steps (R49 R71 to R75) -/

theorem loadLatch_latch {m : Mma} {r : Run} (c : Core) (h : r.step % ((m.krun r).hi - (m.krun r).lo) = 0) :
    (loadLatch m r c).latch = m.latchOf r.g ((m.krun r).pass r.step) := by
  simp [loadLatch, h]

/-- A failed check of a step that is fed for the first time. -/
theorem checkFail_first {p : Nat} {m : Mma} (rows cols : List Nat) (s : State) (h : m.fails = 0) :
    checkFail p m rows cols s = onFeed p (fun w => { w with fails := 1 }) s := if_pos h

/-- A repeated failure that one row and one column locate, while the spare row is free. -/
theorem checkFail_located {p : Nat} {m : Mma} (row col : Nat) {s : State} (h : m.fails = 1) (hs : (s.core p).spareRow = none) :
    checkFail p m [row] [col] s = s.onCore p fun c => { c with spareRow := some row, switching := 1 + 256 * row } := by
  unfold checkFail
  rw [if_neg (by omega), if_pos h]
  exact if_pos (Option.isNone_iff_eq_none.mpr hs)

section PlaneStep
variable {p : Nat} {s s1 : State} {m0 m : Mma} {r : Run} {check : Check} {l : Latch}
  (hf : feeding s p = some (m0, r)) (hm : m = m0.begin r) (hs : s1 = (onFeed p (fun _ => m) s).onCore p (loadLatch m r))
  (hl : l = (s1.core p).latch)
include hf hm hs hl

theorem exec_planeStep : exec (.planeStep p check) s =
    if check.residue % 3 != 0 then .next (checkFail p m [] [] s1)
    else if (m.failRows (m.krun r) l check r.step).isEmpty && (m.failCols (m.krun r) l check r.step).isEmpty then .next (checkPass p m r l check s1)
    else .next (checkFail p m (m.failRows (m.krun r) l check r.step) (m.failCols (m.krun r) l check r.step) s1) := by
  subst hl hs hm
  show execPlaneStep p check s = _
  rw [execPlaneStep, hf]

/-- The row, column and residue checks agree. -/
theorem exec_planeStep_pass (hx : check.residue % 3 = 0) (hr : m.failRows (m.krun r) l check r.step = [])
    (hc : m.failCols (m.krun r) l check r.step = []) : exec (.planeStep p check) s = .next (checkPass p m r l check s1) := by
  rw [exec_planeStep hf hm hs hl, hr, hc]
  simp [hx]

/-- The step is fed again where any check fails. -/
theorem exec_planeStep_again (h0 : m.fails = 0) (hx : check.residue % 3 ≠ 0 ∨ m.failRows (m.krun r) l check r.step ≠ [] ∨
    m.failCols (m.krun r) l check r.step ≠ []) : exec (.planeStep p check) s = .next (onFeed p (fun w => { w with fails := 1 }) s1) := by
  rw [exec_planeStep hf hm hs hl]
  simp only [checkFail_first _ _ _ h0]
  split
  · rfl
  · next hres =>
    rw [if_neg]
    obtain hx | hx | hx := hx
    · exact absurd hx (by simpa using hres)
    · simp [hx]
    · simp [hx]

theorem exec_planeStep_located {row col : Nat} (h1 : m.fails = 1) (hx : check.residue % 3 = 0) (hr : m.failRows (m.krun r) l check r.step = [row])
    (hc : m.failCols (m.krun r) l check r.step = [col]) (hspare : (s1.core p).spareRow = none) :
    exec (.planeStep p check) s = .next (s1.onCore p fun c => { c with spareRow := some row, switching := 1 + 256 * row }) := by
  rw [exec_planeStep hf hm hs hl, hr, hc, checkFail_located row col h1 hspare]
  simp [hx]

end PlaneStep

/-- The state after a spare switch: it is recorded, and the step that failed is fed again. -/
def switched (p : Nat) (s : State) : State :=
  errAdd { (coreRec s p clArray sevCorrected) with synd := (s.core p).switching }
    (onFeed p (fun m => { m with fails := if m.fails = 1 then 2 else m.fails }) (s.onCore p fun c => { c with switching := 0 }))

theorem exec_spareSwitchDone {p : Nat} {s : State} (hw : (s.core p).switching ≠ 0) : exec (.spareSwitchDone p) s =
    .next (if (s.core p).spareRow.isSome && (s.core p).spareCol.isSome then poolRec p (pDie p) (switched p s) else switched p s) := by
  show execSpareSwitchDone p s = _
  exact if_neg hw

/-! ### Updates (R64 R65 R110 to R118) -/

section Update
variable {p : Nat} {s : State} {m : Mma} {r : Run} {rest : List Run}

theorem updating_eq (hc : s.coreRuns p = true) (hw : workOf (s.core p) = some m) (hr : m.runs = r :: rest) (hwhole : m.whole r = true)
    (hb : m.nextG ≠ 0 ∨ bankRead (s.core p) m = false) : updating s p = some (m, r) := by
  rw [updating, if_neg (by simp [hc]), hw]
  simp only [hr, hwhole]
  exact if_pos (by simpa using hb)

theorem exec_kgroupUpdate (hu : updating s p = some (m, r)) {b : Banks} (hb : b = m.update (m.krun r) r.sums (startBanks (s.core p) m)) :
    exec (.kgroupUpdate p) s = .next (if r.retake then retakeUpdate p r.g b s else baseUpdate p m b s) := by
  subst hb
  show execKgroupUpdate p s = _
  rw [execKgroupUpdate, hu]

/-- Without retakes the update of a base run makes no test and owes nothing. -/
theorem baseUpdate_off (b : Banks) (h : m.retake = 0) : baseUpdate p m b s =
    onWork p (fun w => ({ w.hold b with nextG := w.nextG + 1, runs := w.runs.drop 1 } : Mma).close) s := by
  unfold baseUpdate
  rw [h]
  rfl

end Update

theorem exec_retakeRunStart {p g : Nat} {s : State} {m : Mma} {d : List Byte} (hf : feedOf (s.core p) = some m) (hc : s.coreRuns p = true)
    (hw : m.runs.all m.whole = true) (hn : m.nextRetake = some g) (hd : detailOf m g = some d) : exec (.retakeRunStart p) s =
    .next (countRetake p (onFeed p (fun m => { m with runs := m.runs ++ [{ g := g, retake := true, detail := d }] }) s)) := by
  show execRetakeRunStart p s = _
  rw [execRetakeRunStart, hf]
  simp only [hc, hw, hn, hd]
  rfl

/-! ### Retirement (R60 R63 R183) -/

theorem onCore_congr {s : State} {p : Nat} {f g : Core → Core} (h : f (s.core p) = g (s.core p)) : s.onCore p f = s.onCore p g :=
  congrArg (fun c => { s with cores := s.cores.put p c }) h

theorem holderKey_onCore {s : State} {p : Nat} {f : Core → Core} (h : (f (s.core p)).holder = (s.core p).holder) :
    holderKey (s.onCore p f) p = holderKey s p := by
  rw [holderKey, core_onCore_same, h]
  rfl

/-- Whether an MMA waits for an older instruction of its threads before it retires; a K-loop waits for none. -/
def retireWaits (s : State) (p : Nat) (m : Mma) : Bool :=
  match holderKey s p with | some k => !m.kloop && olderThan (s.group k) m.winId | none => false

theorem retireWaits_of_kloop {s : State} {p : Nat} {m : Mma} (h : m.kloop = true) : retireWaits s p m = false := by
  unfold retireWaits
  split <;> simp [h]

theorem retireWaits_of_holder {s : State} {p k : Nat} {m : Mma} (hk : holderKey s p = some k) (h : olderThan (s.group k) m.winId = false) :
    retireWaits s p m = false := by simp [retireWaits, hk, h]

section Retire
variable {p : Nat} {s : State} {m : Mma} {rest : List Mma}

theorem exec_mmaRetire (hq : (s.core p).mq = m :: rest) (hfin : m.fin = true) (hc : s.coreRuns p = true) (hb : bankRead (s.core p) m = false)
    (hw : retireWaits s p m = false) : exec (.mmaRetire p) s = .next (retire p m s) := by
  show execMmaRetire p s = _
  rw [execMmaRetire, hq]
  exact if_pos (show (m.fin && !retireWaits s p m && !bankRead (s.core p) m && s.coreRuns p) = true by simp [hfin, hc, hb, hw])

/-- The core with its oldest MMA retired into the banks. -/
def Core.retired (rest : List Mma) (b : Banks) (c : Core) : Core :=
  { c with mq := rest, acc0 := b.a0, acc1 := b.a1, sat0 := b.s0, sat1 := b.s1 }

theorem retire_core (hq : (s.core p).mq = m :: rest) : (s.onCore p fun c => { c with
    mq := c.mq.drop 1, acc0 := (m.into (s.core p).banks).a0, acc1 := (m.into (s.core p).banks).a1
    sat0 := (m.into (s.core p).banks).s0, sat1 := (m.into (s.core p).banks).s1 }) = s.onCore p (Core.retired rest (m.into (s.core p).banks)) :=
  onCore_congr (by simp [Core.retired, hq])

theorem retire_kloop (hq : (s.core p).mq = m :: rest) (hk : m.kloop = true) :
    retire p m s = s.onCore p (Core.retired rest (m.into (s.core p).banks)) := by
  rw [retire, retire_core hq, if_pos hk]

theorem retire_mma {k : Nat} (hq : (s.core p).mq = m :: rest) (hh : holderKey s p = some k) (hk : m.kloop = false) :
    retire p m s = (s.onCore p (Core.retired rest (m.into (s.core p).banks))).onGroup k fun g =>
      retireSweep { g with win := g.win.map fun w => if w.id = m.winId then { w with fin := true } else w } := by
  have hr : holderKey (s.onCore p (Core.retired rest (m.into (s.core p).banks))) p = some k := (holderKey_onCore rfl).trans hh
  rw [retire, retire_core hq]
  simp only [hk, hr]
  rfl

end Retire

/-- Settles O12, event by event: how the record of a spare switch names the row or column is the model's choice
(notes/assumptions/38.md), as is when a pool counts as exhausted (notes/assumptions/71.md). -/
theorem arrayEventsComplete : Obligations.ArrayEventsComplete := by
  intro p s
  refine ⟨fun m0 r check hf m s1 l hm hs hl => ⟨fun h0 => ?_, fun hx hr hc => ?_, exec_planeStep_again hf hm hs hl,
      fun row col h1 hx hr hc => exec_planeStep_located hf hm hs hl h1 hx hr hc⟩,
    fun hw t ht => ?_, fun _ r _ hc hw hr hwhole hb b hbanks => ⟨fun hret => ⟨?_, baseUpdate_off b⟩, fun hret => ?_⟩,
    fun m g d => exec_retakeRunStart, fun _ rest hq hfin hc hb => ⟨fun hk => ?_, fun k hh hk hold => ?_⟩⟩
  · rw [hl, hs, core_onCore_same]
    exact loadLatch_latch _ h0
  · exact exec_planeStep_pass hf hm hs hl hx hr hc
  · rw [ht]
    exact exec_spareSwitchDone hw
  · rw [exec_kgroupUpdate (updating_eq hc hw hr hwhole hb) hbanks, hret]
    rfl
  · rw [exec_kgroupUpdate (updating_eq hc hw hr hwhole hb) hbanks, hret]
    rfl
  · rw [exec_mmaRetire hq hfin hc hb (retireWaits_of_kloop hk), retire_kloop hq hk]
    rfl
  · rw [exec_mmaRetire hq hfin hc hb (retireWaits_of_holder hh hold), retire_mma hq hh hk]
    rfl

end Sys2Proof.Machine

/-! F32, F64, CONV and uniform instructions (O3 O4 O5): each is `alu` or `aluU` at one shape, so what it leaves is its
register writes (`leaves_alu`, `leaves_aluU`), for all instructions of one operand form at once. -/
namespace Sys2Proof.Machine
open Sys2Proof

theorem arithRnd_eq_true {rnd : Rnd} (h : rnd ≠ .sr) : arithRnd rnd = true := bne_iff_ne.mpr h

section OperandForms
variable {c : Instr} {i : Ins} {h : Shape} {s : State}

/-! ### Vector instructions by their operand form (R95 R99 R100 R174) -/

theorem f32Op1_leaves {free : Bool} {f : DWord → Word → Word} (hh : h = { srcs := [(i.a, false)], dst := i.dst })
    (hr : ready i h s = true) (hc : exec c s = f32Op1 i free f s) :
    Leaves c i h (fun l => [(i.dst, f (Config.freeValue (s.freeN + l)) ((insGroup i s).src l i.a))]) [] s := by
  subst hh
  exact leaves_alu hr hc (fun _ _ _ => one_le (ready_dst hr)) fun _ _ => rfl

theorem f32Op2_leaves {ok : Bool} {f : Word → Word → Word} (hok : ok = true)
    (hh : h = { srcs := [(i.a, false), (i.b, false)], dst := i.dst }) (hr : ready i h s = true) (hc : exec c s = f32Op2 i ok f s) :
    Leaves c i h (fun l => [(i.dst, f ((insGroup i s).src l i.a) ((insGroup i s).src l i.b))]) [] s := by
  subst hh hok
  exact leaves_alu hr hc (fun _ _ _ => one_le (ready_dst hr)) fun _ _ => rfl

theorem f64Op2_leaves {ok : Bool} {f : DWord → DWord → DWord} (hok : ok = true)
    (hh : h = { srcs := [(i.a, true), (i.b, true)], dst := i.dst, dstWide := true }) (hr : ready i h s = true)
    (hc : exec c s = f64Op2 i ok f s) :
    Leaves c i h (fun l => wpair i.dst (f ((insGroup i s).srcD l i.a) ((insGroup i s).srcD l i.b))) [] s := by
  subst hh hok
  exact leaves_alu hr hc (fun _ _ _ => wpair_le (ready_dst hr)) fun _ _ => rfl

theorem f32Op3_leaves {ok : Bool} {f : Word → Word → Word → Word} (hok : ok = true)
    (hh : h = { srcs := [(i.a, false), (i.b, false), (i.c, false)], dst := i.dst }) (hr : ready i h s = true)
    (hc : exec c s = alu i { srcs := [(i.a, false), (i.b, false), (i.c, false)], dst := i.dst, ok := ok } true false
      (fun g l _ => [(i.dst, f (g.src l i.a) (g.src l i.b) (g.src l i.c))]) s) :
    Leaves c i h (fun l => [(i.dst, f ((insGroup i s).src l i.a) ((insGroup i s).src l i.b) ((insGroup i s).src l i.c))]) [] s := by
  subst hh hok
  exact leaves_alu hr hc (fun _ _ _ => one_le (ready_dst hr)) fun _ _ => rfl

theorem f64Op3_leaves {ok : Bool} {f : DWord → DWord → DWord → DWord} (hok : ok = true)
    (hh : h = { srcs := [(i.a, true), (i.b, true), (i.c, true)], dst := i.dst, dstWide := true }) (hr : ready i h s = true)
    (hc : exec c s = alu i { srcs := [(i.a, true), (i.b, true), (i.c, true)], dst := i.dst, dstWide := true, ok := ok } true false
      (fun g l _ => wpair i.dst (f (g.srcD l i.a) (g.srcD l i.b) (g.srcD l i.c))) s) :
    Leaves c i h (fun l => wpair i.dst (f ((insGroup i s).srcD l i.a) ((insGroup i s).srcD l i.b) ((insGroup i s).srcD l i.c))) [] s := by
  subst hh hok
  exact leaves_alu hr hc (fun _ _ _ => wpair_le (ready_dst hr)) fun _ _ => rfl

/-- An instruction that compares two operands, of either width, leaves one predicate. -/
theorem test_leaves {wide : Bool} {p : Group → Nat → Bool} (hh : h = { srcs := [(i.a, wide), (i.b, wide)], ok := predOk i.dst })
    (hr : ready i h s = true) (hc : exec c s = alu i { srcs := [(i.a, wide), (i.b, wide)], ok := predOk i.dst } true false
      (fun g l _ => wpredD g l i.dst (p g l)) s) :
    Leaves c i h (fun l => wpredD (insGroup i s) l i.dst (p (insGroup i s) l)) [] s := by
  subst hh
  exact leaves_alu hr hc (fun _ _ _ => wpredD_le _ _ _ _) fun _ _ => rfl

end OperandForms

/-- Settles O3, by the operand form of each instruction. -/
theorem singlePrecisionResults : Obligations.SinglePrecisionResults := by
  intro i s
  refine ⟨fun h rnd hrnd hh hr => ⟨?add, ?mul⟩, fun h rnd hrnd hh hr => ?mac, fun h cond hh hr => ?test,
    fun h prop hh hr => ⟨?max, ?min⟩, fun h hh hr => ⟨?recip, ?rsqrt, ?exp2, ?log2, ?sin, ?cos⟩⟩
  case add => exact f32Op2_leaves (f := fun a b => enc32 rnd (fAdd rnd (dec32 a) (dec32 b))) (arithRnd_eq_true hrnd) hh hr rfl
  case mul => exact f32Op2_leaves (f := fun a b => enc32 rnd (fMul (dec32 a) (dec32 b))) (arithRnd_eq_true hrnd) hh hr rfl
  case mac => exact f32Op3_leaves (f := fun a b c => enc32 rnd (fAdd rnd (fMul (dec32 a) (dec32 b)) (dec32 c))) (arithRnd_eq_true hrnd) hh hr rfl
  case test => exact test_leaves (p := fun g l => fCmp cond (dec32 (g.src l i.a)) (dec32 (g.src l i.b))) hh hr rfl
  case max => exact f32Op2_leaves (f := fun a b => enc32 .rne (fMaxMin true prop (dec32 a) (dec32 b))) rfl hh hr rfl
  case min => exact f32Op2_leaves (f := fun a b => enc32 .rne (fMaxMin false prop (dec32 a) (dec32 b))) rfl hh hr rfl
  case recip => exact f32Op1_leaves (f := fun _ a => enc32 .rne (fRecip (dec32 a))) hh hr rfl
  case rsqrt => exact f32Op1_leaves (f := fun _ a => enc32 .rne (fRsqrt (dec32 a))) hh hr rfl
  case exp2 => exact f32Op1_leaves hh hr rfl
  case log2 => exact f32Op1_leaves hh hr rfl
  case sin => exact f32Op1_leaves hh hr rfl
  case cos => exact f32Op1_leaves hh hr rfl

/-- Settles O4, by the operand form of each instruction. -/
theorem doublePrecisionResults : Obligations.DoublePrecisionResults := by
  intro i s
  refine ⟨fun h rnd hrnd hh hr => ⟨?add, ?mul⟩, fun h rnd hrnd hh hr => ?mac, fun h cond hh hr => ?test,
    fun h prop hh hr => ⟨?max, ?min⟩⟩
  case add => exact f64Op2_leaves (f := fun a b => enc64 rnd (fAdd rnd (dec64 a) (dec64 b))) (arithRnd_eq_true hrnd) hh hr rfl
  case mul => exact f64Op2_leaves (f := fun a b => enc64 rnd (fMul (dec64 a) (dec64 b))) (arithRnd_eq_true hrnd) hh hr rfl
  case mac => exact f64Op3_leaves (f := fun a b c => enc64 rnd (fAdd rnd (fMul (dec64 a) (dec64 b)) (dec64 c))) (arithRnd_eq_true hrnd) hh hr rfl
  case test => exact test_leaves (p := fun g l => fCmp cond (dec64 (g.srcD l i.a)) (dec64 (g.srcD l i.b))) hh hr rfl
  case max => exact f64Op2_leaves (f := fun a b => enc64 .rne (fMaxMin true prop (dec64 a) (dec64 b))) rfl hh hr rfl
  case min => exact f64Op2_leaves (f := fun a b => enc64 .rne (fMaxMin false prop (dec64 a) (dec64 b))) rfl hh hr rfl

section ConvAndUniform
variable {c : Instr} {i : Ins} {h : Shape} {s : State}

/-! ### CONV (R78 R95) -/

/-- The shape of a CONV. -/
def convShape (i : Ins) (src dst : Nat) (rnd : Rnd) : Shape :=
  { srcs := (i.a, src = 1) :: (if rnd = .sr then [(i.b, false)] else []), dst := i.dst, dstWide := dst = 1 }

/-- What CONV writes in a lane, from its operands in the group and a free value. -/
def convWrites (i : Ins) (src dst : Nat) (rnd : Rnd) (g : Group) (l : Nat) (free : DWord) : Writes :=
  let x := if src = 1 then (g.srcD l i.a).toNat else (g.src l i.a).toNat
  let r := (convTo dst rnd (g.src l i.b).toNat (decodeE src (x % 2 ^ widthOf src))).bits
  if dst = 1 then wpair i.dst (BitVec.ofNat 64 r) else [(i.dst, narrow (widthOf dst) r free)]

theorem exec_conv {src dst : Nat} {rnd : Rnd} (hs : convFmt src = true) (hd : convFmt dst = true) (hm : convRnd dst rnd = true) :
    exec (.conv i src dst rnd) s = alu i (convShape i src dst rnd) true true (convWrites i src dst rnd) s := by
  have hok : (convFmt src && convFmt dst && convRnd dst rnd) = true := by rw [hs, hd, hm]; rfl
  exact congrArg (fun ok => alu i { convShape i src dst rnd with ok := ok } true true (convWrites i src dst rnd) s) hok

theorem convWrites_le (src dst : Nat) (rnd : Rnd) (hi : i.dst ≤ 255) (g : Group) (l : Nat) (free : DWord) :
    ∀ x ∈ convWrites i src dst rnd g l free, x.1 ≤ 256 := by
  show ∀ x ∈ (if dst = 1 then wpair i.dst _ else [(i.dst, _)] : Writes), x.1 ≤ 256
  split
  · exact wpair_le hi
  · exact one_le hi

theorem conv_leaves {src dst : Nat} {rnd : Rnd} (hs : convFmt src = true) (hd : convFmt dst = true) (hm : convRnd dst rnd = true)
    (hh : h = convShape i src dst rnd) (hr : ready i h s = true) :
    Leaves (.conv i src dst rnd) i h (fun l => convWrites i src dst rnd (insGroup i s) l (Config.freeValue (s.freeN + l))) [] s := by
  subst hh
  exact leaves_alu hr (exec_conv hs hd hm) (convWrites_le src dst rnd (ready_dst hr)) fun _ _ => rfl

/-! ### Uniform instructions (R107 R174) -/

theorem leaves_aluU {res : Group → (Src → DWord) → Writes} (hr : ready i h s = true) (hc : exec c s = aluU i h res s) :
    Leaves c i h (fun _ => [])
      (if (insPart i h s).isEmpty then [] else res (insGroup i s) (uniSrc (insGroup i s) (Config.freeValue s.freeN))) s := by
  obtain ⟨t, ht, hw⟩ := aluU_ready res hr
  exact ⟨t, hc.trans ht, hw⟩

/-- What is taken from the free-value counter before an instruction begins changes nothing that its writes are told by. -/
theorem Wrote.of_drawn {w : Nat → Writes} {uni : Writes} {to_ : Nat → Nat} {t : State} (hw : Wrote i h w uni to_ s.drawn t) :
    Wrote i h w uni to_ s t :=
  { hw with rest := congrArg (fun x : State => x.onFreeN fun _ => s.freeN) hw.rest }

theorem ready_drawn : ready i h s.drawn = ready i h s := rfl

/-- What UNI.SHL writes, `free` where it shifts 32 bits by 32 or more. -/
def uniShlWrites (i : Ins) (free : DWord) (v : Src → DWord) : Writes :=
  let n := (v i.b).toNat % 2 ^ 32
  uniRes i (if i.is64 then v i.a <<< (n % 64) else if n < 32 then v i.a <<< n else free)

theorem exec_uniShl : exec (.uniShl i) s =
    aluU i (uniShape i [(i.a, i.is64), (i.b, false)]) (fun _ => uniShlWrites i (Config.freeValue s.freeN)) s.drawn := by
  show execUniShl i s = _
  simp only [execUniShl, State.draw, ← Nat.not_lt, ite_not]
  rfl

theorem uniShl_leaves (hh : h = uniShape i [(i.a, i.is64), (i.b, false)]) (hr : ready i h s = true) :
    Leaves (.uniShl i) i h (fun _ => []) (if (insPart i h s).isEmpty then [] else
      uniShlWrites i (Config.freeValue s.freeN) (uniSrc (insGroup i s) (Config.freeValue (s.freeN + 1)))) s := by
  subst hh
  obtain ⟨t, ht, hw⟩ := aluU_ready (fun _ => uniShlWrites i (Config.freeValue s.freeN)) (ready_drawn.trans hr)
  exact ⟨t, exec_uniShl.trans ht, hw.of_drawn⟩

theorem drawn_unless (b : Bool) (x : State) : (if b then x else x.drawn) = x.onFreeN fun _ => if b then x.freeN else x.freeN + 1 := by
  cases b <;> rfl

/-- UNI.LDL (R160): the offset is checked only where a thread takes part. -/
theorem uniLdl_leaves (hh : h = uniShape i [(i.a, false)]) (hr : ready i h s = true) {o : Nat}
    (ho : o = (uniSrc (insGroup i s) (Config.freeValue s.freeN) i.a).toNat % 2 ^ 32)
    (hin : insPart i h s ≠ [] → o % 4 = 0 ∧ o + 4 ≤ (insGroup i s).lsSize) :
    Leaves (.uniLdl i) i h (fun _ => [])
      (if (insPart i h s).isEmpty || i.dst = 255 then [] else [(i.dst, BitVec.ofNat 32 (leNat (readTbl (insGroup i s).ls o 4)))]) s := by
  refine leaves_finish (if (srcRegs (i.a, false)).isEmpty then s.freeN else s.freeN + 1) ?_ (fun _ _ hx => absurd hx List.not_mem_nil) fun _ _ => rfl
  show execUniLdl i s = _
  rw [execUniLdl, ← hh, begin_ready hr]
  dsimp only
  rw [drawn_unless]
  cases hp : (insPart i h s).isEmpty with
  | true => exact if_pos hp
  | false =>
    obtain ⟨h4, hls⟩ := hin (List.isEmpty_eq_false_iff.mp hp)
    have hok : ¬ (o % 4 != 0 || decide ((insGroup i s).lsSize < o + 4)) = true := by simp [h4, hls]
    subst ho
    refine (if_neg (Bool.not_eq_true _ ▸ hp)).trans ((if_neg hok).trans ?_)
    simp only [Bool.false_or, decide_eq_true_eq]
    rfl

end ConvAndUniform

/-- Settles O5, instruction by instruction; the bits above a narrow format and a vector source of a uniform instruction
are the model's free values (notes/assumptions/8.md). -/
theorem conversionAndUniformResults : Obligations.ConversionAndUniformResults := by
  intro i s
  refine ⟨fun h src dst rnd hs hd hm => conv_leaves hs hd hm, fun h v hh hv hr => ?add, fun h v hh hv hr => ?mov,
    fun h v n hh hv hn hr => ?shl, fun h o hh hr ho hin => uniLdl_leaves hh hr ho hin⟩
  case add =>
    subst hh hv
    exact leaves_aluU (res := fun _ v => uniRes i (v i.a + v i.b)) hr rfl
  case mov =>
    subst hh hv
    exact leaves_aluU (res := fun _ v => uniRes i (v i.a)) hr rfl
  case shl =>
    subst hv hn
    exact uniShl_leaves hh hr

end Sys2Proof.Machine

/-! Fetches, passes, stores and counts of a tile program at work (O14). What the operands of a pass are read through, the slices of
the tier and the records of fenced dies, is apart from what cores and groups hold, so a fetch finds both as they stood. -/
namespace Sys2Proof.Machine
open Sys2Proof

/-! ### Bulk reads leave everything but memory, its tier and the error unit -/

/-- The state without memory, the tier and the error unit: all that a bulk read may write. -/
def State.sansMemory (s : State) : State := { s with mem := [], tier := {}, err := {} }

@[simp] theorem onTier_sansMemory (s : State) (g : Tier → Tier) : (s.onTier g).sansMemory = s.sansMemory := rfl
@[simp] theorem onSlice_sansMemory (s : State) (k : Nat) (g : Slice → Slice) : (s.onSlice k g).sansMemory = s.sansMemory := rfl
@[simp] theorem hbmWriteBack_sansMemory (line : Nat) (po : BitVec 16) (s : State) : (hbmWriteBack line po s).sansMemory = s.sansMemory := rfl
@[simp] theorem dropVictim_sansMemory (k line : Nat) (s : State) : (dropVictim k line s).sansMemory = s.sansMemory := rfl
@[simp] theorem putLine_sansMemory (k line way : Nat) (dirty : Bool) (po : BitVec 16) (s : State) :
    (putLine k line way dirty po s).sansMemory = s.sansMemory := rfl
@[simp] theorem tierDropLine_sansMemory (k line : Nat) (s : State) : (tierDropLine k line s).sansMemory = s.sansMemory := rfl
@[simp] theorem tierDrop_sansMemory (k line : Nat) (s : State) : (tierDrop k line s).sansMemory = s.sansMemory := rfl

@[simp] theorem toVictims_sansMemory (k : Nat) (v : TLine) (s : State) : (toVictims k v s).sansMemory = s.sansMemory := by
  rw [toVictims, onSlice_sansMemory]
  split
  · rfl
  · split <;> rfl

@[simp] theorem tierInstall_sansMemory (k line : Nat) (dirty : Bool) (po : BitVec 16) (s : State) :
    (tierInstall k line dirty po s).sansMemory = s.sansMemory := by
  unfold tierInstall
  split
  · rfl
  · simp
  · split <;> rfl

@[simp] theorem bankNow_sansMemory (k bank : Nat) (s : State) : (bankNow k bank s).sansMemory = s.sansMemory := by
  unfold bankNow
  split
  · simp
  · unfold bankFill
    split
    · dsimp only
      split <;> rfl
    · rfl

theorem tierTouch_sansMemory (line : Nat) (wr full : Bool) (s : State) : (tierTouch line wr full s).sansMemory = s.sansMemory := by
  unfold tierTouch
  split
  · dsimp only
    -- a hit, an entry of the victim buffer or HBM, in a converting way or not: each changes the tier alone
    repeat' split
    all_goals simp
  · rfl

theorem errAdd_sansMemory (r : ErrRec) (s : State) : (errAdd r s).sansMemory = s.sansMemory :=
  (congrArg State.sansMemory (errAdd_onlyRecords r s).state :)

theorem fencedRec_sansMemory (a : Nat) (s : State) : (fencedRec a s).sansMemory = s.sansMemory := by
  unfold fencedRec
  split
  · split
    · exact errAdd_sansMemory ..
    · rfl
  · split
    · exact errAdd_sansMemory ..
    · rfl
  · rfl

theorem touchRange_sansMemory (a n : Nat) (s : State) : (touchRange a n s).sansMemory = s.sansMemory :=
  foldl_keeps State.sansMemory (fun s (x : Nat × Nat) => tierTouch_sansMemory (lineOf x.1) false false s) _ s

theorem bulkTouch_sansMemory (b : Bulk) (va n : Nat) (s : State) : (bulkTouch b va n s).sansMemory = s.sansMemory := by
  refine foldl_keeps State.sansMemory (fun s x => ?_) _ s
  dsimp only
  split
  · split
    · exact (fencedRec_sansMemory ..).trans (touchRange_sansMemory ..)
    · rfl
  · rfl

/-- The lines of several ranges pass through their slices. -/
def touchAll (b : Bulk) (rs : List (Nat × Nat)) (s : State) : State := rs.foldl (fun s r => bulkTouch b r.1 r.2 s) s

theorem touchAll_sansMemory (b : Bulk) (rs : List (Nat × Nat)) (s : State) : (touchAll b rs s).sansMemory = s.sansMemory :=
  foldl_keeps State.sansMemory (fun s (r : Nat × Nat) => bulkTouch_sansMemory b r.1 r.2 s) rs s

@[simp] theorem touchAll_core (b : Bulk) (rs : List (Nat × Nat)) (s : State) (p : Nat) : (touchAll b rs s).core p = s.core p :=
  (congrArg (State.core · p) (touchAll_sansMemory b rs s) :)

@[simp] theorem touchAll_group (b : Bulk) (rs : List (Nat × Nat)) (s : State) (k : Nat) : (touchAll b rs s).group k = s.group k :=
  (congrArg (State.group · k) (touchAll_sansMemory b rs s) :)

/-! ### The program at work -/

section AtWork
variable {p : Nat} {s : State} {x : Tq} {y : PassBuf}

theorem holderRuns_group {k : Nat} {g : Group} (h : holderRuns s p = some (k, g)) : g = s.group k := by
  unfold holderRuns at h
  split at h
  · dsimp only at h
    split at h
    · cases h
      rfl
    · cases h
  · cases h

theorem tq?_eq_some (h : tq? s p = some x) : x.p = p ∧ x.c = s.core p ∧ x.g = s.group x.k := by
  unfold tq? at h
  split at h
  · next hr _ =>
    split at h
    · cases h
      exact ⟨rfl, rfl, holderRuns_group hr⟩
    · cases h
  · cases h

/-! ### Fetches (R135 R145) -/

theorem exec_tseqFetchReturn (hx : tq? s p = some x) (hy : x.pr.fetchPos x.c = some y) (hroom : x.pr.room y (passFill s x y) = true)
    (hw : x.walks (· != needW) s = false) :
    exec (.tseqFetchReturn p) s = .next (fetchPass { x with ahead := decide (x.pr.now y < y.tile) } y s) := by
  show execTseqFetchReturn p s = _
  simp only [execTseqFetchReturn, hx, hy, hroom, hw]
  rfl

theorem staging_of_not_retakes {d : Desc} (h : d.retakes = false) : staging d = false := by simp [staging, h]
theorem bitRanges_of_not_retakes (h : x.d.retakes = false) (bs : List (List Byte)) : bitRanges s x bs = [] := by simp [bitRanges, h]
theorem detailRanges_of_not_retakes (h : x.d.retakes = false) (mv : Nat) (bs : List (List Byte)) : detailRanges s x mv bs = [] := by
  simp [detailRanges, staging_of_not_retakes h]
theorem stageOne_of_not_retakes (h : x.d.retakes = false) (mv kn : Nat) (blk : List Byte) : stageOne s x mv kn blk = blk := by
  simp [stageOne, staging_of_not_retakes h]
theorem cRanges_of_op_zero {d : Desc} (h : d.op = 0) : cRanges d y = [] := by simp [cRanges, h]
theorem cNeeds_of_op_zero (h : x.d.op = 0) : cNeeds s x y = [] := by simp [cNeeds, cRanges_of_op_zero h]

/-- The state in which the lines of a pass have been read and the operand buffer holds its operands. -/
def operandsRead (x : Tq) (y z : PassBuf) (s : State) : State :=
  (touchAll x.b (passRanges s x y) s).onGroup x.k fun g => { g with ls := opbufPut x.pr y z.pbuf z.qbuf g.ls }

theorem operandsRead_core (z : PassBuf) (p : Nat) : (operandsRead x y z s).core p = s.core p := touchAll_core ..

theorem operandsRead_ls (z : PassBuf) : ((operandsRead x y z s).group x.k).ls = opbufPut x.pr y z.pbuf z.qbuf (s.group x.k).ls := by
  rw [operandsRead, group_onGroup, if_pos rfl, touchAll_group]

/-- Without retakes, and where the destination is not read, a pass needs its blocks and tiles only. -/
theorem fetchPass_plain (hc : ctrlOf s x y = none) (hok : tseqRanges x needR s (passRanges s x y) = .ok) (hb : x.d.retakes = false)
    (ho : x.d.op = 0) : fetchPass x y s = onCur x.p (fun g => { g with
      buf := g.buf ++ [passFill s x y], panel := g.keep y (passFill s x y).pbuf (passFill s x y).qbuf (passFill s x y).elig, got := [], bad := [] })
      (operandsRead x y (passFill s x y) s) := by
  simp only [fetchPass, hc, hok, bitRanges_of_not_retakes hb, detailRanges_of_not_retakes hb, cNeeds_of_op_zero ho, cRanges_of_op_zero ho,
    List.append_nil]
  rfl

theorem passFill_blocks (hl : x.d.pLocal = false) (hh : x.pr.held false y = none) (hb : x.d.retakes = false) :
    (passFill s x y).pbuf = passBlocks s x y := by
  simp only [passFill, hh, hl, stageOne_of_not_retakes hb]
  refine List.ext_getElem (by simp) fun i h1 h2 => ?_
  simp [List.getD_eq_getElem?_getD, List.getElem?_eq_getElem h2]

theorem passFill_blocks_held {h : Pan} (hh : x.pr.held false y = some h) : (passFill s x y).pbuf = h.data := by simp [passFill, hh]

theorem passFill_tiles (hq : x.d.qHere = false) (hh : x.pr.held true y = none) : (passFill s x y).qbuf = passTiles s x y := by
  simp [passFill, hh, hq]

theorem passFill_tiles_held {h : Pan} (hh : x.pr.held true y = some h) : (passFill s x y).qbuf = h.data := by simp [passFill, hh]

/-! ### Passes (R131 R134) -/

/-- The K-loop that a pass enters into the array queue, on its blocks and tiles. -/
def passLoop (x : Tq) (y : PassBuf) (bs qs : List (List Byte)) : Mma :=
  ({ owner := x.g.slot, kloop := true, pfmt := x.d.pf, qfmt := x.d.qf, accT := x.d.accT, bank := x.pr.bank, zero := true, retake := x.d.retake
     rn := x.d.retakeN, lag := x.d.lag, late := x.d.late, g := bs.length, blocks := bs, tiles := qs
     elig := y.elig, live := some ((liveOf x.d y).1, (liveOf x.d y).2, y.ext.2.2) } : Mma).close

theorem exec_tseqPassStart {rest : List PassBuf} {bs qs : List (List Byte)} (hx : tq? s p = some x) (hbuf : x.pr.buf = y :: rest)
    (hhalo : ∀ e < x.d.haloCount, y.tile < needTile (x.d.halo e) ∨ e ∈ x.pr.placed)
    (hbank : ∀ z ∈ x.pr.flight, x.d.mode = .single ∧ z.bank ≠ x.pr.bank) (hstop : x.g.stop = none) (hroom : x.c.mq.length < 4)
    (hbs : bs = if x.d.pLocal then passBlocks s x y else y.pbuf) (hqs : qs = if x.d.qHere then passTiles s x y else y.qbuf)
    (hok : ∀ i < bs.length, blkOk x.d.pf x.d.accT i (bs.getD i []) = true) :
    exec (.tseqPassStart p) s = .next ((onCur p (fun g => { g with
        buf := rest, flight := g.flight ++ [{ y with bank := g.bank, pbuf := [], qbuf := [] }], tile := y.tile, pass := y.pass + 1
        tileExt := some y.ext, bank := if x.d.mode = .single then !g.bank else g.bank })
      (if x.d.qMode = 2 then s.onGroup x.k fun g => { g with ls := opbufPut { x.pr with flight := [], buf := [] } y [] qs g.ls } else s)).onCore p
      fun c => { c with mq := c.mq ++ [passLoop x y bs qs] }) := by
  have hplaced : ((List.range x.d.haloCount).all fun e => decide (y.tile < needTile (x.d.halo e)) || x.pr.placed.contains e) = true := by
    simpa using hhalo
  have hfree : (x.pr.flight.any fun z => x.d.mode != .single || z.bank == x.pr.bank) = false := by
    simpa using hbank
  have hlegal : ((List.range bs.length).all fun i => blkOk x.d.pf x.d.accT i (bs.getD i [])) = true := by
    simpa using hok
  show execTseqPassStart p s = _
  subst hbs hqs
  simp only [execTseqPassStart, hx, hbuf, hplaced, hfree, hstop, hlegal, Nat.not_le.mpr hroom]
  rfl

/-! ### Detail planes under LATE -/

theorem exec_detailFetchReturn {m : Mma} {block : Nat} (hx : tq? s p = some x) (hm : workOf (s.core p) = some m) (hk : m.kloop = true)
    (hl : m.late = true) (hd : m.due.contains block = true) (hr : m.ran.contains block = false) (hs : blkStaged (m.blk block) = false)
    (he : m.dbuf.get block = []) (hw : x.walks (· != needW) s = false)
    (hok : tseqRanges x needR s (detailSpans x.d (m.live.getD (64, 0, 0)).1 (m.blk block)) = .ok) :
    exec (.detailFetchReturn p block) s = .next (onCur p (fun g => { g with got := [], bad := [] }) (onWork p
      (fun w => { w with dbuf := w.dbuf.put block (lateRows s x m block) })
      ((touchAll x.b (detailSpans x.d (m.live.getD (64, 0, 0)).1 (m.blk block)) s).onGroup x.k fun g => { g with
        ls := writeBlock g.ls (x.d.opbuf + block % x.d.lag * (64 * x.d.detailMax)) ((lateRows s x m block).take (64 * x.d.detailMax)) }))) := by
  show execDetailFetchReturn p block s = _
  simp only [execDetailFetchReturn, hx, hm, hk, hl, hd, hr, hs, he, hw, hok]
  rfl

/-! ### Stores (R119 to R124, R147, R148) -/

theorem onCur_mem (p : Nat) (f : Prog → Prog) (s : State) : (onCur p f s).mem = s.mem := rfl
theorem lmStore_mem (x : Tq) (y : PassBuf) (o : PassOut) (s : State) : (lmStore x y o s).mem = s.mem := rfl

theorem exec_tseqStoreComplete {ys : List PassBuf} (hx : tq? s p = some x) (hy : unstored x.c = y :: ys) (hw : x.walks (· = needW) s = false) :
    exec (.tseqStoreComplete p) s = .next (storePass x y s) := by
  show execTseqStoreComplete p s = _
  simp only [execTseqStoreComplete, hx, hy, hw]
  rfl

theorem storePass_ok {o : PassOut × List Piece} (ho : o = storePieces x.d x.c (s.launches.get x.g.launch).seed y (oldRow x y))
    (hok : tseqRanges x needW s ((o.2.filter (Piece.far x.d)).map Piece.range) = .ok) :
    ∃ u, storePass x y s = onCur x.p (fun g => { g with flight := g.flight.drop 1, got := [], bad := [] }) (clipStep x y o.1 u) ∧
      u.mem = (o.2.foldl (fun u q => (putPiece x y q u).1) s).mem := by
  subst ho
  simp only [storePass, hok]
  refine ⟨_, rfl, ?_⟩
  simp only [onCur_mem, lmStore_mem, State.onFab_frame]
  exact congrArg State.mem (List.foldl_hom Prod.fst fun _ _ => rfl).symm

end AtWork

/-! ### Counts sent to the kernel engine (R123 R125) -/

theorem onLaunch_congr {s : State} {k : Nat} {f g : Launch → Launch} (h : f (s.launches.get k) = g (s.launches.get k)) :
    s.onLaunch k f = s.onLaunch k g :=
  congrArg (fun l => { s with launches := s.launches.put k l }) h

section Counts
variable {p k : Nat} {s : State}

theorem exec_lmBinsMerge {b : LmBins} {rest : List (Nat × LmBins)} (hp : s.pwr.state ≠ .fatal) (hq : (s.core p).lmSent = (k, b) :: rest)
    (hl : (s.launches.get k).live = true) : exec (.lmBinsMerge p) s =
      .next ((s.onLaunch k fun l => { l with lm := l.lm.add b, cores := if l.cores.contains p then l.cores else l.cores ++ [p] }).onCore p
        fun c => { c with lmSent := rest }) := by
  have hlive : s.onLaunch k (fun l => if !l.live then l else { l with lm := l.lm.add b, cores := if l.cores.contains p then l.cores else l.cores ++ [p] }) =
      s.onLaunch k fun l => { l with lm := l.lm.add b, cores := if l.cores.contains p then l.cores else l.cores ++ [p] } :=
    onLaunch_congr (if_neg (by simp [hl]))
  show execLmBinsMerge p s = _
  rw [execLmBinsMerge, if_neg hp, lmMerge, hq]
  exact congrArg (fun u : State => Host.Outcome.next (u.onCore p fun c => { c with lmSent := rest })) hlive

/-- A total that stays below the threshold, has none or was reported already raises nothing. -/
theorem exec_clipTotalUpdate {n : Nat} {rest : List (Nat × Nat)} (hp : s.pwr.state ≠ .fatal) (hq : (s.core p).clipPend = (k, n) :: rest)
    (hl : (s.launches.get k).live = true) (ht : (s.launches.get k).clipT = 0 ∨ (s.launches.get k).clipTot + n < (s.launches.get k).clipT ∨
      (s.launches.get k).clipped = true) : exec (.clipTotalUpdate p) s =
      .next ((s.onCore p fun c => { c with clipPend := rest }).onLaunch k fun l => { l with clipTot := (s.launches.get k).clipTot + n }) := by
  have hfire : ((s.launches.get k).live && (s.launches.get k).clipT != 0 && !(s.launches.get k).clipped &&
      decide ((s.launches.get k).clipT ≤ (s.launches.get k).clipTot + n)) = false := by
    obtain ht | ht | ht := ht
    · simp [ht]
    · simp [Nat.not_le.mpr ht]
    · simp [ht]
  show execClipTotalUpdate p s = _
  rw [execClipTotalUpdate, if_neg hp, clipAdd, hq]
  simp only [hfire, Bool.or_false]
  refine congrArg Host.Outcome.next (onLaunch_congr ?_)
  exact if_pos hl

end Counts

/-- Settles O14, event by event: where a fetched operand lies in the operand buffer, and that the array reads it as it was
fetched, is the model's choice (notes/assumptions/64.md). -/
theorem tilePassEventsComplete : Obligations.TilePassEventsComplete := by
  intro p s
  refine ⟨fun x y hx hy hroom hw x' hx' => ⟨?fetch, fun hc hok hb ho => ?operands⟩, fun x y rest bs hx hbuf hhalo hbank hstop hroom hbs hok => ?pass,
    fun x m block hx hm hk hl hd hr hs he hw hok => ?detail, fun x y ys hx hy _ hw hok => ?store,
    fun k b rest hp hq hl => exec_lmBinsMerge hp hq hl, fun k n rest hp hq hl ht => exec_clipTotalUpdate hp hq hl ht⟩
  case fetch =>
    rw [hx']
    exact exec_tseqFetchReturn hx hy hroom hw
  case operands =>
    obtain ⟨rfl, -, hg⟩ := tq?_eq_some hx
    subst hx'
    exact ⟨_, _, fetchPass_plain hc hok hb ho, operandsRead_core .., hg ▸ operandsRead_ls .., fun hl hh => passFill_blocks hl hh hb,
      fun h hh => passFill_blocks_held hh, fun hq hh => passFill_tiles hq hh, fun h hh => passFill_tiles_held hh⟩
  case pass =>
    exact ⟨passLoop x y bs _, rfl, rfl, rfl, rfl, rfl, rfl, rfl, exec_tseqPassStart hx hbuf hhalo hbank hstop hroom hbs rfl hok⟩
  case detail =>
    exact ⟨_, exec_detailFetchReturn hx hm hk hl hd hr hs he hw hok, touchAll_core ..⟩
  case store =>
    obtain ⟨rfl, -, -⟩ := tq?_eq_some hx
    obtain ⟨u, hu, hm⟩ := storePass_ok rfl hok
    exact ⟨u, (exec_tseqStoreComplete hx hy hw).trans (congrArg Host.Outcome.next hu), hm⟩

end Sys2Proof.Machine

/-! Programs and halo exchange of the tile sequencer (O13): one equation per event, over the group of the core's running holder. -/
namespace Sys2Proof.Machine
open Sys2Proof

/-- A program's descriptor, in the spelling of the statements. -/
theorem Prog.desc_eq_d (g : Prog) : g.desc = g.d := rfl

/-! ### Programs without halo entries, and with one (R140 R141 R143) -/

/-- Without a halo entry no neighbour is missed at the start. -/
theorem absentFail_edgeFill_of_no_halos {pr : Prog} (s : State) (lcore : Nat) (ls : Tbl Byte) (h : pr.d.haloCount = 0) :
    absentFail s lcore (edgeFill lcore (ls, pr)).2 = pr := by
  have hedge : edgeFill lcore (ls, pr) = (ls, pr) := by simp [edgeFill, Prog.desc_eq_d, h]
  simp [hedge, absentFail, Prog.desc_eq_d, h]

/-- The only entry of a started program that has sent nothing sends its region once the direction's send buffer has room. -/
theorem sendDue_of_one_halo {pr : Prog} {lcore n : Nat} (ls : Tbl Byte) (o : List HaloSend) (hs : pr.started = true)
    (h1 : pr.d.haloCount = 1) (hn : haloTo lcore (pr.d.halo 0) = some n) (hnone : pr.sends = []) :
    pr.sendDue lcore ls o = if 131072 < sendHeld o n + haloLines (pr.d.halo 0) * haloLine (pr.d.halo 0) then pr else
      { pr with sends := [{ entry := 0, dest := n, tag := haloTag (pr.d.halo 0), bytes := regionRd ls pr.d (pr.d.halo 0) (sendOff (pr.d.halo 0)) }] } := by
  simp [Prog.sendDue, Prog.desc_eq_d, hs, h1, hn, hnone]

/-! ### Events of a running holder -/

section Halo
variable {p k : Nat} {g : Group} {s : State}

theorem exec_tseqProgramStart {l rest : List Prog} {pr : Prog} {r : Tbl Byte × Prog} (hr : holderRuns s p = some (k, g))
    (hst : startable (s.core p) = some (l, pr, rest)) (he : r = edgeFill g.lcore (g.ls, { pr with started := true, startAt := s.now })) :
    exec (.tseqProgramStart p) s = .next ((s.onGroup k fun a => { a with ls := r.1 }).onCore p fun c =>
      { c with progs := sendAll g.lcore r.1 (l ++ absentFail s g.lcore r.2 :: rest) }) := by
  show execTseqProgramStart p s = _
  simp only [execTseqProgramStart, hr, hst, he]

/-- A region of the length its entry expects is placed between tiles, and its sender marks it. -/
theorem exec_haloPlace {entry n q : Nat} {pr : Prog} {x : HaloSend} (hr : holderRuns s p = some (k, g))
    (hpr : (s.core p).progs.find? (awaits entry) = some pr) (hto : haloTo g.lcore (pr.d.halo entry) = some n) (hq : s.phys n = some q)
    (hx : senderOf s g g.lcore q (haloTag (pr.d.halo entry)) = some x)
    (hlen : x.bytes.length = haloLines (pr.d.halo entry) * haloLine (pr.d.halo entry)) (hbt : betweenTiles (s.core p) = true) :
    exec (.haloPlace p entry) s = .next (onProg q (fun y => y.sends.contains x)
      (fun y => { y with sends := y.sends.map fun z => if z = x then { z with placed := true } else z })
      ((onProg p (awaits entry) (fun y => { y with placed := y.placed ++ [entry] })
          (s.onGroup k fun a => { a with ls := regionWr g.ls pr.d (pr.d.halo entry) (recvOff (pr.d.halo entry)) x.bytes })).onCore p fun c =>
        { c with progs := sendAll g.lcore (regionWr g.ls pr.d (pr.d.halo entry) (recvOff (pr.d.halo entry)) x.bytes) c.progs })) := by
  show execHaloPlace p entry s = _
  simp only [execHaloPlace, Prog.desc_eq_d, hr, hpr, hto, hq, hx, hlen, hbt, bne_self_eq_false]
  rfl

theorem exec_haloAck (entry : Nat) (hr : holderRuns s p = some (k, g)) :
    exec (.haloAck p entry) s = .next ((onProg p (fun a => a.sends.any fun y => y.entry = entry && y.placed && !y.acked) (fun a => { a with
        sends := a.sends.map fun y => if y.entry = entry && y.placed && !y.acked then { y with acked := true, bytes := [] } else y }) s).onCore p
      fun c => { c with progs := sendAll g.lcore g.ls c.progs }) := by
  show execHaloAck p entry s = _
  simp only [execHaloAck, hr]

theorem exec_haloTimeout (entry : Nat) (hr : holderRuns s p = some (k, g)) :
    exec (.haloTimeout p entry) s = .next (onProg p (fun a =>
        a.started && awaits entry a && a.d.haloTimeout != 0 && decide (a.startAt + 1000 * a.d.haloTimeout ≤ s.now))
      (fun a => a.haloFail 1 (needTile (a.d.halo entry))) s) := by
  show execHaloTimeout p entry s = _
  simp only [execHaloTimeout, hr]

/-! ### Completion (R128 R143) -/

/-- The status that a program ends with that nothing stopped, and the tile it names: all of its tiles, or the first whose
store failed. -/
def endStatus (pr : Prog) : Nat × Nat :=
  match pr.storeBad with | some (t, _, _) => (5, t) | none => (0, pr.d.tiles)

/-- A store that failed is recorded as the program ends. -/
def endRecord (p : Nat) (g : Group) (pr : Prog) (s : State) : State :=
  match pr.storeBad with | some (_, a, n) => tseqRecord p g clTier a n s | none => s

/-- The oldest program leaves the queue once its passes and halos are done and no store of it is on its way. -/
theorem exec_tseqProgramComplete {pr : Prog} {rest : List Prog} (hr : holderRuns s p = some (k, g)) (hpr : (s.core p).progs = pr :: rest)
    (hover : pr.isOver (s.core p) = true) (hreq : (s.fab.reqs.any fun r => r.grp = some g.ident && r.win = 0 && r.pkt.type = 1) = false)
    (hstop : pr.stopAt = none) (hdone : halosDone g.lcore pr = true) :
    exec (.tseqProgramComplete p) s = .next ((endRecord p g pr s).onCore p fun c =>
      { c with progs := rest, doneProgs := c.doneProgs ++ [endStatus pr] }) := by
  show execTseqProgramComplete p s = _
  simp only [execTseqProgramComplete, hr, hpr, hover, hreq, hstop, hdone]
  cases hb : pr.storeBad <;> simp [endRecord, endStatus, Prog.desc_eq_d, hb]

end Halo

/-- Settles O13, event by event: that a failed store's record has the class TIER is deduced (notes/assumptions/12.md). -/
theorem tileProgramEventsComplete : Obligations.TileProgramEventsComplete := by
  intro p s k g hr
  refine ⟨fun l pr rest hst r he => ⟨exec_tseqProgramStart hr hst he, fun h0 => ?start⟩, fun ls pr o e n hs h1 he hn hnone => ?send,
    fun entry pr n q x hpr hto hq hx hlen hbt => exec_haloPlace hr hpr hto hq hx hlen hbt, fun entry => exec_haloAck entry hr,
    fun entry => exec_haloTimeout entry hr, fun pr rest hpr hover hreq hstop hdone => ⟨fun hb => ?stored, fun t a n hb => ?storeFailed⟩⟩
  case start =>
    rw [he]
    exact absentFail_edgeFill_of_no_halos s g.lcore g.ls h0
  case send =>
    subst he
    exact sendDue_of_one_halo ls o hs h1 hn hnone
  case stored => simpa only [endRecord, endStatus, hb] using exec_tseqProgramComplete hr hpr hover hreq hstop hdone
  case storeFailed => simpa only [endRecord, endStatus, hb] using exec_tseqProgramComplete hr hpr hover hreq hstop hdone

end Sys2Proof.Machine

/-! Integer instructions (O1 O2): each is `alu` at one shape, so what it leaves is its register writes (`leaves_alu`). -/
namespace Sys2Proof.Machine
open Sys2Proof

/-! ### The number forms of the results, modulo the width -/

theorem ofNat_add_toNat {w : Nat} (a b : BitVec w) : BitVec.ofNat w (a.toNat + b.toNat) = a + b :=
  BitVec.eq_of_toNat_eq (by simp)

/-- A difference formed above 2^64 is the difference modulo a width of at most 64. -/
theorem ofNat_sub_toNat {w : Nat} (a b : BitVec w) (hw : w ≤ 64) : BitVec.ofNat w (a.toNat + 2 ^ 64 - b.toNat) = a - b := by
  have hp : (2 : Nat) ^ 64 = 2 ^ w * 2 ^ (64 - w) := by rw [← Nat.pow_add, Nat.add_sub_cancel' hw]
  have hb : b.toNat < 2 ^ w := b.isLt
  obtain ⟨c, hc⟩ : ∃ c, 2 ^ (64 - w) = c + 1 := ⟨2 ^ (64 - w) - 1, by have := Nat.two_pow_pos (64 - w); omega⟩
  refine BitVec.eq_of_toNat_eq ?_
  rw [BitVec.toNat_ofNat, BitVec.toNat_sub, hp, hc, Nat.mul_add_one,
    show a.toNat + (2 ^ w * c + 2 ^ w) - b.toNat = (2 ^ w - b.toNat + a.toNat) + 2 ^ w * c by omega, Nat.add_mul_mod_self_left]

theorem ofNat_and_toNat {w : Nat} (a b : BitVec w) : BitVec.ofNat w (a.toNat &&& b.toNat) = a &&& b := by
  rw [← BitVec.toNat_and, BitVec.ofNat_toNat, BitVec.setWidth_eq]
theorem ofNat_or_toNat {w : Nat} (a b : BitVec w) : BitVec.ofNat w (a.toNat ||| b.toNat) = a ||| b := by
  rw [← BitVec.toNat_or, BitVec.ofNat_toNat, BitVec.setWidth_eq]
theorem ofNat_xor_toNat {w : Nat} (a b : BitVec w) : BitVec.ofNat w (a.toNat ^^^ b.toNat) = a ^^^ b := by
  rw [← BitVec.toNat_xor, BitVec.ofNat_toNat, BitVec.setWidth_eq]

theorem sized_le {i : Ins} (hi : i.dst ≤ 255) (d : DWord) (n : Word) : ∀ x ∈ sized i d n, x.1 ≤ 256 := by
  unfold sized
  split
  · exact wpair_le hi
  · exact one_le hi

/-! ### Sums, differences and logic (R174) -/

theorem int2_leaves {c : Instr} {i : Ins} {s : State} {f : Nat → Nat → Nat} {d : DWord → DWord → DWord} {n : Word → Word → Word}
    (hr : ready i (intShape i) s = true) (hc : exec c s = int2 i f s)
    (hd : ∀ a b : DWord, BitVec.ofNat 64 (f a.toNat b.toNat) = d a b) (hn : ∀ a b : Word, BitVec.ofNat 32 (f a.toNat b.toNat) = n a b) :
    Leaves c i (intShape i) (fun l => sized i (d ((insGroup i s).srcD l i.a) ((insGroup i s).srcD l i.b))
      (n ((insGroup i s).src l i.a) ((insGroup i s).src l i.b))) [] s := by
  refine leaves_alu hr hc (fun _ _ _ => sized_le (ready_dst hr) _ _) fun l _ => ?_
  rw [← hd, ← hn]
  rfl

/-- Settles O1: the seven instructions by their operand forms, each result modulo its width. -/
theorem integerArithmeticResults : Obligations.IntegerArithmeticResults := by
  intro i s
  refine ⟨fun hr => ⟨?add, ?sub, ?and, ?or, ?xor⟩, fun h hh hr => ?mul, fun h hh hr => ?mac⟩
  case add => exact int2_leaves (f := fun a b => a + b) hr rfl ofNat_add_toNat ofNat_add_toNat
  case sub => exact int2_leaves (f := fun a b => a + 2 ^ 64 - b) hr rfl (fun a b => ofNat_sub_toNat a b (by decide)) fun a b => ofNat_sub_toNat a b (by decide)
  case and => exact int2_leaves (f := fun a b => a &&& b) hr rfl ofNat_and_toNat ofNat_and_toNat
  case or => exact int2_leaves (f := fun a b => a ||| b) hr rfl ofNat_or_toNat ofNat_or_toNat
  case xor => exact int2_leaves (f := fun a b => a ^^^ b) hr rfl ofNat_xor_toNat ofNat_xor_toNat
  case mul => exact f32Op2_leaves (f := fun a b => a * b) rfl hh hr rfl
  case mac => exact f32Op3_leaves (ok := true) (f := fun a b c => a * b + c) rfl hh hr rfl

/-! ### Shifts, wide products and tests (R174 R426) -/

/-- The 64-bit product of two 32-bit operands, signed or not. -/
theorem wideMul_eq (signed : Bool) (a b : Word) : wideMul signed a b =
    if signed then BitVec.ofInt 64 (a.toInt * b.toInt) else BitVec.ofNat 64 (a.toNat * b.toNat) := by
  cases signed with
  | true =>
    rw [wideMul, if_pos rfl, if_pos rfl, BitVec.ofInt_mul]
    rfl
  | false =>
    rw [wideMul, if_neg Bool.false_ne_true, if_neg Bool.false_ne_true, BitVec.ofNat_mul, BitVec.ofNat_toNat, BitVec.ofNat_toNat]

/-- A shift to the left or right, 64 bits wide or 32, with the free value of a 32-bit shift by 32 or more. -/
theorem intShift_leaves {c : Instr} {i : Ins} {h : Shape} {s : State} (left : Bool)
    (hh : h = { srcs := [(i.a, i.is64), (i.b, false)], dst := i.dst, dstWide := i.is64 }) (hr : ready i h s = true) (hc : exec c s = intShift i left s) :
    let g := insGroup i s
    let n l := (g.src l i.b).toNat
    Leaves c i h (fun l => sized i (if left then g.srcD l i.a <<< (n l % 64) else g.srcD l i.a >>> (n l % 64))
      (if n l < 32 then (if left then g.src l i.a <<< n l else g.src l i.a >>> n l) else (Config.freeValue (s.freeN + l)).setWidth 32)) [] s := by
  subst hh
  refine leaves_alu hr hc (fun _ _ _ => sized_le (ready_dst hr) _ _) fun l _ => ?_
  simp only [← Nat.not_lt, ite_not]
  rfl

theorem wide_leaves {c : Instr} {i : Ins} {h : Shape} {s : State} {ss : List (Src × Bool)} {v : Group → Nat → DWord}
    (hh : h = { srcs := ss, dst := i.dst, dstWide := true }) (hr : ready i h s = true)
    (hc : exec c s = alu i { srcs := ss, dst := i.dst, dstWide := true } true false (fun g l _ => wpair i.dst (v g l)) s) :
    Leaves c i h (fun l => wpair i.dst (v (insGroup i s) l)) [] s := by
  subst hh
  exact leaves_alu hr hc (fun _ _ _ => wpair_le (ready_dst hr)) fun _ _ => rfl

theorem exec_intTest {i : Ins} {s : State} {cond : Cond} (hcond : cond ≠ .un) : exec (.intTest i cond) s =
    alu i { srcs := [(i.a, i.is64), (i.b, i.is64)], ok := predOk i.dst } true false (fun g l _ =>
      wpredD g l i.dst (if i.is64 then intCmp 64 cond (g.srcD l i.a).toNat (g.srcD l i.b).toNat
        else intCmp 32 cond (g.src l i.a).toNat (g.src l i.b).toNat)) s := by
  show execIntTest i cond s = _
  rw [execIntTest, bne_iff_ne.mpr hcond, Bool.and_true]

/-- Settles O2: shifts, wide products and tests by their operand forms; the value of a 32-bit shift by 32 or more and the signed
comparison are notes/assumptions/8.md. -/
theorem integerShiftWideTestResults : Obligations.IntegerShiftWideTestResults := by
  intro i s
  refine ⟨fun h hh hr => ⟨?shl, ?shr⟩, fun h signed hh hr => ?mulWide, fun h signed hh hr => ?macWide, fun h cond hcond hh hr => ?test⟩
  case shl => exact intShift_leaves true hh hr rfl
  case shr => exact intShift_leaves false hh hr rfl
  case mulWide =>
    simp only [← wideMul_eq]
    exact wide_leaves (v := fun g l => wideMul signed (g.src l i.a) (g.src l i.b)) hh hr rfl
  case macWide =>
    simp only [← wideMul_eq]
    exact wide_leaves (v := fun g l => wideMul signed (g.src l i.a) (g.src l i.b) + g.srcD l i.c) hh hr rfl
  case test =>
    exact test_leaves (p := fun g l => if i.is64 then intCmp 64 cond (g.srcD l i.a).toNat (g.srcD l i.b).toNat
      else intCmp 32 cond (g.src l i.a).toNat (g.src l i.b).toNat) hh hr (exec_intTest hcond)

end Sys2Proof.Machine

/-! The choice among ready sets (O60): what keeps a set from being picked, of its group (`groupTurn`) and of the sets of its group
(`setTurn`). Rivals are the sets that the command names (notes/assumptions/10.md). -/
namespace Sys2Proof.Machine
open Sys2Proof

/-- A set that is not picked does not issue. -/
theorem issue?_of_not_picked {i : Ins} {s : State} (h : picked i s = false) (early grp : Bool) (regs : List Nat) : issue? i early grp regs s = none := by
  unfold issue?
  cases s.phys i.core with
  | none => rfl
  | some p => simp only [h, Bool.and_false, Bool.false_eq_true, if_false]

theorem not_picked_of_not_groupTurn {i : Ins} {s : State} (h : groupTurn i (rivalsOf i s) s = false) : picked i s = false := by
  simp only [picked, h, Bool.false_and]

theorem not_picked_of_not_setTurn {i : Ins} {s : State}
    (h : (insGroup i s).setTurn i.pc (((rivalsOf i s).filter (·.1 = i.slot)).map (·.2)) = false) : picked i s = false := by
  have h' : (s.group (gKey i.core i.slot)).setTurn i.pc (((rivalsOf i s).filter (·.1 = i.slot)).map (·.2)) = false := h
  simp only [picked, h', Bool.and_false]

/-! ### Alone (R151) -/

theorem setTurn_alone (g : Group) (pc : Nat) : g.setTurn pc [] = true := by
  have hh : g.heldAt pc [] = false := by simp [Group.heldAt]
  by_cases hd : 63 ≤ g.waited pc <;> simp [Group.setTurn, hd, hh]

theorem picked_of_no_rivals {i : Ins} {s : State} (h : rivalsOf i s = []) : picked i s = true := by
  have hg : groupTurn i [] s = true := by cases hs : (s.group (gKey i.core i.slot)).stop <;> simp [groupTurn, hs]
  rw [picked, h, hg]
  exact setTurn_alone _ _

/-! ### The turn of the group (R151) -/

section GroupTurn
variable {i : Ins} {s : State} {rivals : List (Nat × Nat)} {r : Nat × Nat}

theorem not_groupTurn_of_stop (hr : r ∈ rivals) (hs : (s.group (gKey i.core r.1)).stop.isSome = true) (hn : (insGroup i s).stop = none) :
    groupTurn i rivals s = false := by
  have hany : (rivals.any fun r => (s.group (gKey i.core r.1)).stop.isSome) = true := List.any_eq_true.mpr ⟨r, hr, hs⟩
  have hown : (s.group (gKey i.core i.slot)).stop = none := hn
  simp [groupTurn, hany, hown]

/-- A rival of a group that was issued from earlier, where both groups have a stop pending or neither has. -/
theorem not_groupTurn_of_later (hr : r ∈ rivals) (hs : (s.group (gKey i.core r.1)).stop.isSome = (insGroup i s).stop.isSome)
    (hl : (s.group (gKey i.core r.1)).sched.last < (insGroup i s).sched.last) : groupTurn i rivals s = false := by
  have hs' : (s.group (gKey i.core r.1)).stop.isSome = (s.group (gKey i.core i.slot)).stop.isSome := hs
  have hl' : (s.group (gKey i.core r.1)).sched.last < (s.group (gKey i.core i.slot)).sched.last := hl
  refine Bool.eq_false_iff.mpr fun ht => ?_
  simp only [groupTurn, Bool.and_eq_true, List.all_eq_true] at ht
  obtain ⟨hown, hall⟩ := ht
  have hrival := hall r hr
  generalize ((s.group (gKey i.core i.slot)).stop.isSome || rivals.any fun r => (s.group (gKey i.core r.1)).stop.isSome) = stops at hown hrival
  rw [← hs'] at hown
  simp only [Bool.or_eq_true, Bool.and_eq_true, decide_eq_true_eq, Bool.not_eq_true', Option.isNone_iff_eq_none] at hown hrival
  rcases hrival with (⟨hstops, hnone⟩ | hlt) | ⟨heq, -⟩
  · simp [hstops, hnone] at hown
  · omega
  · omega

end GroupTurn

/-! ### The turn of the set (R165 to R168) -/

section SetTurn
variable {g : Group} {pc a : Nat} {own : List Nat}

/-- Of the sets that have waited for 63 issues, one that has waited for longer goes first (R168). -/
theorem not_setTurn_of_due (ha : a ∈ own) (hd : 63 ≤ g.waited a) (hw : g.waited pc < g.waited a) : g.setTurn pc own = false := by
  have hmem : a ∈ (pc :: own).filter fun a => decide (63 ≤ g.waited a) := by simp [ha, hd]
  have hne : ((pc :: own).filter fun a => decide (63 ≤ g.waited a)).isEmpty = false := List.isEmpty_eq_false_iff.mpr (List.ne_nil_of_mem hmem)
  refine Bool.eq_false_iff.mpr fun ht => ?_
  simp only [Group.setTurn, hne, Bool.not_false, if_true, Bool.and_eq_true, List.all_eq_true, Bool.or_eq_true, decide_eq_true_eq] at ht
  rcases ht.2 a hmem with hlt | ⟨heq, -⟩ <;> omega

theorem no_due (h : ∀ a ∈ pc :: own, g.waited a < 63) : ((pc :: own).filter fun a => decide (63 ≤ g.waited a)) = [] :=
  List.filter_eq_nil_iff.mpr fun a ha => by simpa using h a ha

theorem not_setTurn_of_held (hn : ∀ a ∈ pc :: own, g.waited a < 63) (hh : g.heldAt pc own = true) : g.setTurn pc own = false := by
  simp [Group.setTurn, no_due hn, hh]

/-- After two issues of its turn a set makes way for another that is not held (R166). -/
theorem not_setTurn_of_turn_over (hn : ∀ a ∈ pc :: own, g.waited a < 63) (ha : a ∈ own) (hf : g.heldAt a (pc :: own) = false)
    (h0 : g.sched.turn ≠ 0) (ht : g.sched.turn = maskOf (g.setOfPc pc)) (h2 : 2 ≤ g.sched.turnN) : g.setTurn pc own = false := by
  have hfree : (own.filter fun a => !g.heldAt a (pc :: own)).isEmpty = false :=
    List.isEmpty_eq_false_iff.mpr (List.ne_nil_of_mem (List.mem_filter.mpr ⟨ha, by simp [hf]⟩))
  have hturn : (g.sched.turn != 0 && decide (g.sched.turn = maskOf (g.setOfPc pc))) = true :=
    Bool.and_eq_true_iff.mpr ⟨bne_iff_ne.mpr h0, decide_eq_true ht⟩
  unfold Group.setTurn
  rw [no_due hn]
  simp only [List.isEmpty_nil, Bool.not_true, Bool.false_eq_true, if_false, hfree, hturn, if_true]
  cases g.heldAt pc own with
  | true => rfl
  | false => exact decide_eq_false (by omega)

end SetTurn

/-- Settles O60, reason by reason. -/
theorem issueChoice : Obligations.IssueChoice := by
  intro i s
  refine ⟨fun h early grp regs => issue?_of_not_picked h early grp regs, picked_of_no_rivals,
    fun r hr hs hn => not_picked_of_not_groupTurn (not_groupTurn_of_stop hr hs hn),
    fun r hr hs hl => not_picked_of_not_groupTurn (not_groupTurn_of_later hr hs hl),
    fun a ha hd hw => not_picked_of_not_setTurn (not_setTurn_of_due ha hd hw),
    fun hn => ⟨fun hh => not_picked_of_not_setTurn (not_setTurn_of_held hn hh),
      fun a ha hf h0 ht h2 => not_picked_of_not_setTurn (not_setTurn_of_turn_over hn ha hf h0 ht h2)⟩⟩

end Sys2Proof.Machine

/-! Instructions that fault (O57). A fault takes the reservations of its group (R229, `faultGroup`), so the threads that it leaves are
not quite those that it found. -/
namespace Sys2Proof.Machine
open Sys2Proof

/-- The group in slot 0 of logical core 0 runs at address 0, and its thread 0 holds a reservation. -/
def reserving : State :=
  { State.reset with
    pwr := { State.reset.pwr with quads := [(0, { mode := .operating, mv := 550 })] }
    ctxs := [(1, { live := true })]
    groups := [(gKey 0 0, { stage := .running, ctx := 1, vregs := 8, lsSize := 4096, th := [(0, { resv := some { line := 128 } })] })]
    xl := { State.reset.xl with leaves := [{ ctx := 1, va := 0, size := 2, entry := BitVec.ofNat 64 (State.reset.devId * 2 ^ 48 + 0x20F) }] } }

/-- An integer instruction with a reserved bit set. -/
def reservedBit : Ins := { rsvd := true }

theorem reservedBit_issues : onRunningCore reservedBit reserving = true ∧ setReady reservedBit (intShape reservedBit) reserving = true ∧
    picked reservedBit reserving = true ∧ fetchable reservedBit reserving = true := by decide +kernel

/-- The reservation of a thread of a group that an instruction leaves. -/
def resvAfter (k l : Nat) (o : Out) : Option Resv :=
  match o with
  | .next t => ((t.group k).thread l).resv
  | _ => none

theorem reservedBit_ends_reservation : resvAfter (insKey reservedBit) 0 (exec (.intAdd reservedBit) reserving) = none ∧
    ((insGroup reservedBit reserving).thread 0).resv = some { line := 128 } := by decide +kernel

/-- Refutes O57: an illegal instruction takes the reservation of a thread of its group, so that thread does not stand as it stood. -/
theorem not_faultingInstructionsChangeNothing : ¬ Obligations.FaultingInstructionsChangeNothing := by
  intro h
  obtain ⟨hcore, hset, hpick, hfetch⟩ := reservedBit_issues
  obtain ⟨hillegal, -, -⟩ := h reservedBit reserving (.intAdd reservedBit) List.mem_cons_self hcore hset hpick
  obtain ⟨t, ht, -, hthread, -, -, -⟩ := hillegal hfetch rfl
  obtain ⟨hafter, hbefore⟩ := reservedBit_ends_reservation
  rw [ht] at hafter
  exact absurd (hafter.symm.trans ((congrArg Thread.resv (hthread 0)).trans hbefore)) (by simp)

end Sys2Proof.Machine

/-! Local store and loads (O7). An instruction that changes its group's local store before it finishes leaves what it would leave in
the state with that change (`Wrote.of_finishGroup`), where nothing that the issue goes by has changed. -/
namespace Sys2Proof.Machine
open Sys2Proof

/-- A state without its groups and the count of free values. -/
def State.sansGroups (s : State) : State := { s with groups := [], freeN := 0 }

theorem group_onGroup_same (s : State) (k : Nat) (g : Group → Group) : (s.onGroup k g).group k = g (s.group k) := Tbl.get_upd_same ..
theorem group_onGroup_other (s : State) {k j : Nat} (g : Group → Group) (hj : j ≠ k) : (s.onGroup k g).group j = s.group j :=
  Tbl.get_upd_other _ _ hj

/-- The group of an instruction that has issued. -/
theorem insGroup_issued (i : Ins) (h : Shape) (s : State) :
    insGroup i (issued i h s) = (insGroup i s).issued ((s.core (insCore i s)).issues + 1) (issOf i h s) :=
  Tbl.get_upd_same s.groups (insKey i) fun g => g.issued ((s.core (insCore i s)).issues + 1) (issOf i h s)

theorem group_issued_other {i : Ins} (h : Shape) (s : State) {k : Nat} (hk : k ≠ insKey i) : (issued i h s).group k = s.group k :=
  Tbl.get_upd_other s.groups (fun g => g.issued ((s.core (insCore i s)).issues + 1) (issOf i h s)) hk

@[simp] theorem issOf_k (i : Ins) (h : Shape) (s : State) : (issOf i h s).k = insKey i := rfl

/-! ### Finishing a group whose joins, or what the choice goes by, were changed first -/

section FinishGroup
variable {i : Ins} {h : Shape} {s t : State} {w : Nat → Writes} {uni : Writes} {to_ : Nat → Nat}

/-- A state whose group is the finished one, and that is the issued state elsewhere, holds what the instruction leaves. -/
theorem Wrote.of_finishGroup (hw : ∀ l, ∀ x ∈ w l, x.1 ≤ 256) (ho : List Hold) (sc : Sched) (br : List Br)
    (hG : insGroup i t = finishGroup i (issOf i h s) w uni to_
      { insGroup i s with issues := (insGroup i s).issues + 1, holds := ho, sched := sc, brs := br })
    (hothers : ∀ k, k ≠ insKey i → t.group k = s.group k)
    (hrest : t.sansGroups = (issued i h s).sansGroups) :
    Wrote i h w uni to_ s t := by
  have hdev := finish_wrote (i := i) (h := h) (s := s) w uni to_ hw s.freeN
  have hcores : t.cores = (issued i h s).cores := (congrArg State.cores hrest :)
  have hctxs : t.ctxs = (issued i h s).ctxs := (congrArg State.ctxs hrest :)
  obtain ⟨th, u, uw, win, nx, br', ho', hg, hu, hwin, hth⟩ := finishGroup_spec i (issOf i h s) w uni to_
    { insGroup i s with issues := (insGroup i s).issues + 1, holds := ho, sched := sc, brs := br } (insPart_nodup i h s) hw
  rw [hg] at hG
  have hT (l : Nat) : (insGroup i t).thread l = th.get l := by rw [hG]; rfl
  refine { vec := fun l n => ?_, pred := fun l => ?_, uniform := fun n => ?_, pc := fun l => ?_, thread := fun l => ?_, window := ?_,
           issues := ?_, group := ?_, others := hothers, rcache := fun p => ?_, steps := fun c => ?_,
           rest := congrArg (fun x : State => { x with groups := s.groups, cores := s.cores, ctxs := s.ctxs, freeN := s.freeN }) hrest }
  · rw [hT, hth]
    by_cases hl : l ∈ insPart i h s <;> by_cases hn : n < 255 <;> simp [issOf, hl, hn, get_putsV] <;> rfl
  · rw [hT, hth]; rfl
  · rw [hG]; exact hu n
  · rw [hT, hth]; rfl
  · rw [hT, hth]; rfl
  · rw [hG]; exact hwin
  · rw [hG]
  · rw [hG]
  · rw [show t.core p = (issued i h s).core p from congrArg (Tbl.get · p) hcores]
    exact hdev.rcache p
  · rw [show t.ctx c = (issued i h s).ctx c from congrArg (Tbl.get · c) hctxs]
    exact hdev.steps c

/-- Of the issue, finishing goes by the threads and the shadow alone. -/
theorem finishGroup_congr {x y : Iss} (hp : x.part = y.part) (hl : x.lanes = y.lanes) (hs : x.shadow = y.shadow) :
    finishGroup i x w uni to_ = finishGroup i y w uni to_ := by
  funext g
  simp only [finishGroup, Iss.set_, hp, hl, hs]

end FinishGroup

/-! ### LDL and STL (R160) -/

section LocalStore
variable {i : Ins} {h : Shape} {s : State} {size : Nat}

theorem loadWrites_le (dst size : Nat) (b : List Byte) (free : DWord) (hd : dst ≤ 255) : ∀ x ∈ loadWrites dst size b free, x.1 ≤ 256 := by
  unfold loadWrites
  split
  · exact wpair_le hd
  · exact one_le hd

theorem badOffs_eq_nil (hin : ∀ l ∈ insPart i h s, ((insGroup i s).src l i.a).toNat % size = 0 ∧ ((insGroup i s).src l i.a).toNat + size ≤ (insGroup i s).lsSize) :
    badOffs i (issOf i h s) size = [] := by
  refine List.filter_eq_nil_iff.mpr fun l hl => ?_
  obtain ⟨halign, hend⟩ := hin l hl
  simp [halign, Nat.not_lt.mpr hend]

theorem ldl_leaves (hz : sizeOk size = true) (hh : h = { srcs := [(i.a, false)], dst := i.dst, dstWide := size = 8 }) (hr : ready i h s = true)
    (hin : ∀ l ∈ insPart i h s, ((insGroup i s).src l i.a).toNat % size = 0 ∧ ((insGroup i s).src l i.a).toNat + size ≤ (insGroup i s).lsSize) :
    Leaves (.ldl i size) i h (fun l =>
      loadWrites i.dst size (readTbl (insGroup i s).ls ((insGroup i s).src l i.a).toNat size) (Config.freeValue (s.freeN + l))) [] s := by
  refine leaves_finish (s.freeN + 32) ?_ (fun _ => loadWrites_le _ _ _ _ (ready_dst hr)) fun _ _ => rfl
  show execLdl i size s = _
  rw [execLdl, hz, ← hh, begin_ready hr]
  dsimp only
  rw [badOffs_eq_nil hin]
  rfl

/-- The local store with the values of these threads written, in their order: the last one's bytes remain. -/
def storeLanes (i : Ins) (g : Group) (size : Nat) (lanes : List Nat) (m : Tbl Byte) : Tbl Byte :=
  lanes.foldl (fun m l => writeTbl m (g.src l i.a).toNat (leBytes size (laneVal g l size i.b))) m

/-- The state with another local store of the instruction's group. -/
def State.onLs (s : State) (i : Ins) (f : Tbl Byte → Tbl Byte) : State := s.onGroup (insKey i) fun a => { a with ls := f a.ls }

section OnLs
variable {f : Tbl Byte → Tbl Byte}

theorem insGroup_onLs : insGroup i (s.onLs i f) = { insGroup i s with ls := f (insGroup i s).ls } :=
  group_onGroup_same s ..

theorem insSet_onLs : insSet i (s.onLs i f) = insSet i s := by rw [insSet, insGroup_onLs]; rfl

theorem insPart_onLs : insPart i h (s.onLs i f) = insPart i h s := by rw [insPart, insSet_onLs, insGroup_onLs]; rfl

theorem issued_onLs_sansGroups : (issued i h (s.onLs i f)).sansGroups = (issued i h s).sansGroups := by
  show ((issueCost { issOf i h (s.onLs i f) with g := insGroup i (s.onLs i f) } h.reads (s.onLs i f))).sansGroups = _
  rw [insGroup_onLs]
  rfl

end OnLs

theorem exec_stl (hz : sizeOk size = true) (hh : h = { early := false, srcs := [(i.a, false), (i.b, size = 8)] }) (hr : ready i h s = true)
    (hin : ∀ l ∈ insPart i h s, ((insGroup i s).src l i.a).toNat % size = 0 ∧ ((insGroup i s).src l i.a).toNat + size ≤ (insGroup i s).lsSize) :
    exec (.stl i size) s = .next (finish i (issOf i h s) (fun _ => []) [] (after i)
      ((issued i h s).onLs i (storeLanes i (insGroup i s) size (insPart i h s)))) := by
  show execStl i size s = _
  rw [execStl, hz, ← hh, begin_ready hr]
  dsimp only
  rw [badOffs_eq_nil hin]
  rfl

/-- STL leaves what an instruction without results would leave in the state with the new local store. -/
theorem stl_wrote (f : Tbl Byte → Tbl Byte) :
    Wrote i h (fun _ => []) [] (after i) (s.onLs i f) (finish i (issOf i h s) (fun _ => []) [] (after i) ((issued i h s).onLs i f)) := by
  obtain ⟨ho, sc, hissued⟩ := issued_eq (insGroup i s) ((s.core (insCore i s)).issues + 1) (issOf i h s)
  refine Wrote.of_finishGroup (fun _ _ hx => absurd hx List.not_mem_nil) ho sc (insGroup i s).brs ?group (fun k hk => ?others) ?rest
  case group =>
    have hx : finishGroup i (issOf i h (s.onLs i f)) (fun _ => []) [] (after i) = finishGroup i (issOf i h s) (fun _ => []) [] (after i) :=
      finishGroup_congr insPart_onLs insSet_onLs (by simp only [issOf, insGroup_onLs, insSet_onLs])
    rw [hx, insGroup_onLs]
    rw [finish_eq]
    refine (group_onGroup_same ..).trans (congrArg _ ?_)
    refine insGroup_onLs.trans ?_
    rw [insGroup_issued, hissued]
  case others =>
    rw [finish_eq, issOf_k, group_onGroup_other _ _ hk, State.onLs, group_onGroup_other _ _ hk, group_issued_other h s hk, State.onLs,
      group_onGroup_other _ _ hk]
  case rest => exact (issued_onLs_sansGroups (i := i) (h := h) (s := s) (f := f)).symm

end LocalStore

/-! ### Loads (R162 R217 R218) -/

section Loads
variable {i : Ins} {h : Shape} {s : State} {size : Nat}

theorem badLanes_eq_nil (hva : ∀ l ∈ insPart i h s, vaFits size (laneVa i (insGroup i s) l) = true) : badLanes i (issOf i h s) size = [] :=
  List.filter_eq_nil_iff.mpr fun l hl => by simpa using hva l hl

/-- The window entry of a load. -/
def loadEntry (i : Ins) (h : Shape) (s : State) (size : Nat) (rsv : Bool) : Win :=
  { id := (insGroup i s).nextId, lanes := maskOf (insSet i s), setm := maskOf (insSet i s), pc := i.pc, use := .load
    ld := { part := maskOf (insPart i h s), va := (insPart i h s).foldl (fun t l => t.put l ((insGroup i s).srcD l i.a)) []
            size := size, dst := i.dst, rsv := rsv } }

/-- The issued state once the load has entered the window and its set has gone on. -/
def loadEntered (i : Ins) (h : Shape) (s : State) (size : Nat) (rsv : Bool) : State :=
  (issued i h s).onGroup (insKey i) fun a =>
    ({ a with win := a.win ++ [loadEntry i h s size rsv], nextId := (insGroup i s).nextId + 1 } : Group).advance (insSet i s) fun _ => i.pc + 16

/-- The line that a thread loads from is asked for, where it is another device's, the store buffer does not hold all its bytes and no
older load of the set is pending. -/
def askLine (i : Ins) (s : State) (size : Nat) (z : State) (l : Nat) : State :=
  match translate z (insGroup i s).ctx (laneVa i (insGroup i s) l) needR with
  | .ok pa _ => if paDev pa != z.devId && !allSb z (insCore i s) pa size && !(loadPending (insGroup i s) (maskOf (insSet i s))) then
      coreGet { p := insCore i s, k := insKey i, lane := l } (insGroup i s).nextId pa z else z
  | .fault _ => z

theorem loadIssue_ready {rsv early : Bool} (hz : sizeOk size = true)
    (hh : h = { early := early, srcs := [(i.a, true)], dst := i.dst, dstWide := size = 8 }) (hr : ready i h s = true)
    (hp : insPart i h s ≠ []) (hva : ∀ l ∈ insPart i h s, vaFits size (laneVa i (insGroup i s) l) = true) :
    loadIssue i size rsv early s = .next ((insPart i h s).foldl (askLine i s size) (loadEntered i h s size rsv)) := by
  have hpart : (issOf i h s).part.isEmpty = false := List.isEmpty_eq_false_iff.mpr hp
  rw [loadIssue, hz, ← hh, begin_ready hr]
  dsimp only
  rw [badLanes_eq_nil hva, hpart]
  rfl

/-- A load that is not final and has no older load before it, once its accesses are tried and none of them faults. -/
theorem exec_loadReply {core slot id p : Nat} {rejected : Bool} {w : Win} {u : State} {r : Loads} (hp : s.phys core = some p)
    (hc : s.coreRuns p = true) (hw : (s.group (gKey core slot)).win.find? (·.id = id) = some w) (hu : w.use = .load) (hf : w.fin = false)
    (ho : olderLoad (s.group (gKey core slot)) w = false) (hl : loadAll p (gKey core slot) w rejected s = (u, r)) (hb : r.bad = []) :
    exec (.loadReply core slot id rejected) s = .next (if r.wait then u.onGroup (gKey core slot) (loadPart id r.vals) else
      (((if w.ld.rsv then placeAll p (gKey core slot) w u else u).onGroup (gKey core slot)
        (loadDone id (if w.ld.rsv then placeAll p (gKey core slot) w u else u).freeN r.vals)).onFreeN (· + 32))) := by
  show execLoadReply core slot id rejected s = _
  simp only [execLoadReply, hp, hw, hu, hf, ho, hc, hl, hb, List.isEmpty_nil, Bool.not_true, Bool.or_self, Bool.false_eq_true, if_false]
  cases r.wait <;> rfl

end Loads

/-- Settles O7: LDL by its register writes, STL by the local store it leaves, loads as they issue and as they are answered. The bits above
a narrow load are free values (notes/assumptions/8.md). -/
theorem loadsAndLocalStoreComplete : Obligations.LoadsAndLocalStoreComplete := by
  intro i s
  refine ⟨fun h size hz hh hr hin => ldl_leaves hz hh hr hin, fun h size hz hh hr hin => ⟨_, exec_stl hz hh hr hin, stl_wrote (storeLanes i _ size _)⟩,
    fun h size rsv early c hc hz hh hr hp hva => ?load,
    fun core slot id rejected p w u r hp hc hw hu hf ho hl hb => exec_loadReply hp hc hw hu hf ho hl hb⟩
  case load =>
    have hexec : exec c s = loadIssue i size rsv early s := by
      rcases hc with ⟨rfl, rfl, rfl⟩ | ⟨rfl, rfl, rfl⟩ <;> rfl
    exact hexec.trans (loadIssue_ready hz hh hr hp hva)

end Sys2Proof.Machine

/-! Control flow (O25): what BRA, GSYNC, CUT and EXIT do to the threads of their group, thread by thread, and what the end of a group
leaves of it (`groupEnd_slot`). -/
namespace Sys2Proof.Machine
open Sys2Proof

theorem onGroup_congr {s : State} {k : Nat} {f g : Group → Group} (h : f (s.group k) = g (s.group k)) : s.onGroup k f = s.onGroup k g :=
  congrArg (fun x => s.onGroups fun t => t.put k x) h

/-! ### Changes of some threads of a group -/

/-- A change of each of these threads on its own. -/
theorem foldl_onThread_thread (f : Nat → Thread → Thread) {ls : List Nat} (hl : ls.Nodup) (g : Group) (l : Nat) :
    (ls.foldl (fun g i => Group.onThread g i (f i)) g).thread l = if l ∈ ls then f l (g.thread l) else g.thread l := by
  split
  · next h =>
    exact foldl_at (fun g : Group => g.thread l) (f l) (f := fun g i => g.onThread i (f i)) hl h (fun g => by simp [Group.thread_onThread])
      (fun g i _ hi => by simp [Group.thread_onThread, Ne.symm hi]) g
  · next h =>
    exact foldl_keeps_mem (fun g : Group => g.thread l) (f := fun g i => g.onThread i (f i))
      (fun g i hi => by simp [Group.thread_onThread, show l ≠ i from fun e => h (e ▸ hi)]) g

/-- A group without its threads and what follows from where they stand. -/
def Group.sansThreads (g : Group) : Group := { g with th := [], brs := [], holds := [] }

theorem foldl_onThread_sansThreads (f : Nat → Thread → Thread) (ls : List Nat) (g : Group) :
    (ls.foldl (fun g i => Group.onThread g i (f i)) g).sansThreads = g.sansThreads :=
  foldl_keeps Group.sansThreads (f := fun g i => Group.onThread g i (f i)) (fun _ _ => rfl) ls g

theorem advance_sansThreads (g : Group) (ls : List Nat) (to_ : Nat → Nat) : (g.advance ls to_).sansThreads = g.sansThreads := by
  obtain ⟨th, br, ho, h⟩ := advance_eq g ls to_
  rw [h]
  rfl

/-- The threads of a group that an instruction finishes: what its writes make of them, those of its set at their next addresses. -/
theorem finishGroup_thread (i : Ins) (x : Iss) (res : Nat → Writes) (uni : Writes) (to_ : Nat → Nat) (g : Group) (l : Nat) :
    let a := (x.part.foldl (fun g l => (res l).foldl (fun g w => g.put1 l w) g) g).thread l
    (finishGroup i x res uni to_ g).thread l = if l ∈ x.lanes then { a with pc := to_ l } else a := by
  rw [finishGroup]
  dsimp only
  rw [advance_thread]
  cases x.shadow <;> rfl

/-! ### GSYNC (R173) -/

/-- Whether the threads that a GSYNC of mask `m` names have all arrived, or exited, for a thread that does. -/
def Group.arrived (g : Group) (t : Thread) (m : Word) : Bool :=
  (lanesOf m).all fun i => (g.thread i).exited || decide (t.arrive ≤ (g.thread i).arrive)

/-- A thread once the GSYNCs of its group are settled. -/
def Group.settled (g : Group) (t : Thread) : Thread :=
  match t.gsync with
  | some m => if g.arrived t m then { t with gsync := none } else t
  | none => t

theorem gsyncSettle_thread (g : Group) (l : Nat) : (gsyncSettle g).thread l = g.settled (g.thread l) := Tbl.get_mapAll g.th g.settled rfl l

theorem settled_eq (g : Group) (t : Thread) : g.settled t = { t with gsync := (g.settled t).gsync } := by
  unfold Group.settled
  cases t.gsync with
  | none => rfl
  | some m => dsimp only; split <;> rfl

theorem settled_of_waits {g : Group} {t : Thread} {m : Word} (h : t.gsync = some m) :
    (g.settled t).gsync = none ↔ g.arrived t m = true := by
  unfold Group.settled
  rw [h]
  dsimp only
  split
  · next ha => simp [ha]
  · next ha => simp [ha, h]

theorem mem_lanesOf {m : Word} {l : Nat} : l ∈ lanesOf m ↔ l < 32 ∧ m.getLsbD l = true := by simp [lanesOf]

theorem getLsbD_laneBit {l n : Nat} (hl : l < 32) : (laneBit l).getLsbD n = decide (n = l) := by
  simp only [laneBit, BitVec.getLsbD_shiftLeft, BitVec.getLsbD_one]
  by_cases h : n = l
  · simp [h, hl]
  · simp [h]
    omega

/-- Who a thread waits for: the threads that the mask names, and itself. -/
theorem arrived_iff {g : Group} {t : Thread} {mask : Word} {l : Nat} (hl : l < 32) : g.arrived t (mask ||| laneBit l) = true ↔
    ∀ m < 32, mask.getLsbD m = true ∨ m = l → (g.thread m).exited = true ∨ t.arrive ≤ (g.thread m).arrive := by
  simp only [Group.arrived, List.all_eq_true, mem_lanesOf, BitVec.getLsbD_or, getLsbD_laneBit hl, Bool.or_eq_true, decide_eq_true_eq, and_imp]

/-- GSYNC issues: the arrival count rises and the thread waits. -/
theorem exec_gsync {i : Ins} {s : State} (mask : Word) (hr : ready i {} s = true) : exec (.gsync i mask) s =
    .next ((finish i (issOf i {} s) (fun l => [(257, BitVec.ofNat 32 (((insGroup i s).thread l).arrive + 1))]) [] (after i) (issued i {} s)).onGroup
      (insKey i) (gsyncEnter mask (insPart i {} s))) := by
  show execGsync i mask s = _
  rw [execGsync, begin_ready hr]
  rfl

/-- A thread of a group that issued GSYNC, before the GSYNCs are settled. -/
def gsyncThread (i : Ins) (mask : Word) (s : State) (l : Nat) : Thread :=
  let t := (insGroup i s).thread l
  let t := if l ∈ insSet i s then { t with pc := i.pc + 16 } else t
  if l ∈ insPart i {} s then { t with arrive := (t.arrive + 1) % 2 ^ 32, gsync := some (mask ||| laneBit l) } else t

/-- The group that has arrived at a GSYNC and not yet been let on. -/
def gsyncGroup (i : Ins) (mask : Word) (s : State) : Group :=
  (insPart i {} s).foldl (fun g l => g.onThread l fun t => { t with gsync := some (mask ||| laneBit l) })
    (finishGroup i (issOf i {} s) (fun l => [(257, BitVec.ofNat 32 (((insGroup i s).thread l).arrive + 1))]) [] (after i) (insGroup i (issued i {} s)))

theorem gsyncGroup_thread (i : Ins) (mask : Word) (s : State) (l : Nat) : (gsyncGroup i mask s).thread l = gsyncThread i mask s l := by
  rw [gsyncGroup, foldl_onThread_thread (fun l t => { t with gsync := some (mask ||| laneBit l) }) (insPart_nodup i {} s), finishGroup_thread]
  have harrive : ((insPart i {} s).foldl (fun g l => [(257, BitVec.ofNat 32 (((insGroup i s).thread l).arrive + 1))].foldl (fun g w => g.put1 l w) g)
      (insGroup i (issued i {} s))).thread l = if l ∈ insPart i {} s
        then { (insGroup i s).thread l with arrive := (((insGroup i s).thread l).arrive + 1) % 2 ^ 32 } else (insGroup i s).thread l := by
    refine (foldl_onThread_thread (fun l t => { t with arrive := (BitVec.ofNat 32 (((insGroup i s).thread l).arrive + 1)).toNat })
      (insPart_nodup i {} s) _ l).trans ?_
    rw [insGroup_issued]
    simp only [BitVec.toNat_ofNat]
    rfl
  simp only [gsyncThread]
  rw [show (issOf i {} s).part = insPart i {} s from rfl, show (issOf i {} s).lanes = insSet i s from rfl, harrive]
  by_cases hp : l ∈ insPart i {} s <;> by_cases hs : l ∈ insSet i s <;> simp [hp, hs, after]

theorem mem_insSet_of_mem_insPart {i : Ins} {h : Shape} {s : State} {l : Nat} (hl : l ∈ insPart i h s) : l ∈ insSet i s := by
  unfold insPart at hl
  split at hl
  · exact hl
  · exact (List.mem_filter.mp hl).1

theorem gsync_leaves {i : Ins} {s : State} (mask : Word) (hr : ready i {} s = true) : ∃ t, exec (.gsync i mask) s = .next t ∧
    (∀ l, (insGroup i t).thread l = (gsyncGroup i mask s).settled (gsyncThread i mask s l)) ∧ t.mem = s.mem := by
  refine ⟨_, exec_gsync mask hr, fun l => ?_, rfl⟩
  have hgroup : insGroup i (((finish i (issOf i {} s) (fun l => [(257, BitVec.ofNat 32 (((insGroup i s).thread l).arrive + 1))]) [] (after i)
      (issued i {} s))).onGroup (insKey i) (gsyncEnter mask (insPart i {} s))) = gsyncSettle (gsyncGroup i mask s) := by
    refine (group_onGroup_same ..).trans ?_
    rw [finish_eq, issOf_k, group_onGroup_same]
    rfl
  rw [hgroup, gsyncSettle_thread, gsyncGroup_thread]

/-- An arriving thread waits exactly while a thread that it names has arrived less often and not exited. -/
theorem gsync_arrival {i : Ins} {s t : State} {mask : Word}
    (ht : ∀ l, (insGroup i t).thread l = (gsyncGroup i mask s).settled (gsyncThread i mask s l)) {l : Nat} (hl : l ∈ insPart i {} s) :
    ((insGroup i t).thread l).arrive = (((insGroup i s).thread l).arrive + 1) % 2 ^ 32 ∧ ((insGroup i t).thread l).pc = i.pc + 16 ∧
      (((insGroup i t).thread l).gsync = none ↔ ∀ m < 32, mask.getLsbD m = true ∨ m = l →
        ((insGroup i t).thread m).exited = true ∨ ((insGroup i t).thread l).arrive ≤ ((insGroup i t).thread m).arrive) := by
  have hexited (m : Nat) : ((insGroup i t).thread m).exited = ((gsyncGroup i mask s).thread m).exited := by
    rw [ht, settled_eq, gsyncGroup_thread]
  have harrive (m : Nat) : ((insGroup i t).thread m).arrive = ((gsyncGroup i mask s).thread m).arrive := by
    rw [ht, settled_eq, gsyncGroup_thread]
  have hthread : gsyncThread i mask s l = { (insGroup i s).thread l with
      pc := i.pc + 16, arrive := (((insGroup i s).thread l).arrive + 1) % 2 ^ 32, gsync := some (mask ||| laneBit l) } := by
    simp only [gsyncThread, hl, mem_insSet_of_mem_insPart hl, if_true]
  refine ⟨?_, ?_, ?_⟩
  · rw [harrive, gsyncGroup_thread, hthread]
  · rw [ht, settled_eq, hthread]
  · simp only [hexited, harrive]
    rw [ht, settled_of_waits (by rw [hthread]), arrived_iff (mem_insPart_lt hl), gsyncGroup_thread i mask s l]

theorem gsync_registers {i : Ins} {s t : State} {mask : Word}
    (ht : ∀ l, (insGroup i t).thread l = (gsyncGroup i mask s).settled (gsyncThread i mask s l)) (l : Nat) :
    ((insGroup i t).thread l).v = ((insGroup i s).thread l).v ∧ ((insGroup i t).thread l).p = ((insGroup i s).thread l).p := by
  rw [ht, settled_eq]
  by_cases hp : l ∈ insPart i {} s <;> by_cases hs : l ∈ insSet i s <;> simp [gsyncThread, hp, hs]

/-! ### BRA (R167) -/

/-- A branch opens a divergence and ends the turn of its set; nothing else of the group changes before the set goes on. -/
theorem diverge_endTurn_eq (x : Iss) (pc : Nat) (target join : Int) (g : Group) : ∃ br,
    (diverge x pc target join g).endTurn = { g with brs := br, sched := { g.sched with turn := 0, turnN := 0 } } := by
  unfold diverge Group.endTurn
  split <;> exact ⟨_, rfl⟩

theorem bra_wrote {i : Ins} {s : State} (target join : Int) (hr : ready i {} s = true) : ∃ t, exec (.bra i target join) s = .next t ∧
    Wrote i {} (fun _ => []) [] (fun l => if l ∈ insPart i {} s then branchTo i.pc target else i.pc + 16) s t := by
  have hexec : exec (.bra i target join) s = .next (finish i (issOf i {} s) (fun _ => []) []
      (fun l => if l ∈ insPart i {} s then branchTo i.pc target else i.pc + 16)
      ((issued i {} s).onGroup (insKey i) fun g => (diverge (issOf i {} s) i.pc target join g).endTurn)) := by
    show execBra i target join s = _
    rw [execBra, begin_ready hr]
    simp only [List.contains_iff_mem]
    rfl
  obtain ⟨ho, sc, hissued⟩ := issued_eq (insGroup i s) ((s.core (insCore i s)).issues + 1) (issOf i {} s)
  obtain ⟨br, hdiverge⟩ := diverge_endTurn_eq (issOf i {} s) i.pc target join (insGroup i (issued i {} s))
  refine ⟨_, hexec, Wrote.of_finishGroup (fun _ _ hx => absurd hx List.not_mem_nil) ho { sc with turn := 0, turnN := 0 } br ?group
    (fun k hk => ?others) rfl⟩
  case group =>
    rw [finish_eq]
    refine (group_onGroup_same ..).trans (congrArg _ ?_)
    refine (group_onGroup_same ..).trans (hdiverge.trans ?_)
    rw [insGroup_issued, hissued]
  case others => rw [finish_eq, issOf_k, group_onGroup_other _ _ hk, group_onGroup_other _ _ hk, group_issued_other _ s hk]

/-! ### CUT (R327 R329 R389) -/

section Cut
variable {i : Ins} {h : Shape} {s : State} {idx : Nat}

theorem cut_leaves (hh : h = { early := false }) (hr : ready i h s = true) (hstop : (insGroup i s).stop = none)
    (hdue : replayDue (issued i h s) (insGroup i s) (insPart i h s) idx = none) : Leaves (.cut i idx) i h (fun _ => []) [] s := by
  refine leaves_finish s.freeN ?_ (fun _ _ hx => absurd hx List.not_mem_nil) fun _ _ => rfl
  show execCut i idx s = _
  rw [execCut, ← hh, begin_ready hr]
  have hdue' : replayDue (issueCost (issOf i h s) h.reads s) (issOf i h s).g (issOf i h s).part idx = none := hdue
  simp only [issOf_g, hstop, Option.isSome_none, Bool.false_eq_true, if_false] at hdue' ⊢
  rw [hdue']
  rfl

/-- The threads of the set that do not take part. -/
def insOthers (i : Ins) (h : Shape) (s : State) : List Nat := (insSet i s).filter fun l => !(insPart i h s).contains l

theorem mem_insOthers {l : Nat} : l ∈ insOthers i h s ↔ l ∈ insSet i s ∧ l ∉ insPart i h s := by simp [insOthers]

theorem exec_cut_stop {x : Stop} (hh : h = { early := false }) (hr : ready i h s = true) (hstop : (insGroup i s).stop = some x) :
    exec (.cut i idx) s = .next ((issued i h s).onGroup (insKey i) fun g =>
      ((insPart i h s).foldl (fun g l => g.onThread l fun t => { t with cut := some idx }) g).advance (insOthers i h s) (after i)) := by
  show execCut i idx s = _
  rw [execCut, ← hh, begin_ready hr]
  dsimp only
  rw [issOf_g, hstop]
  rfl

theorem thread_insGroup_issued (l : Nat) : (insGroup i (issued i h s)).thread l = (insGroup i s).thread l := by rw [insGroup_issued]; rfl

theorem pc_of_mem_insSet {l : Nat} (hl : l ∈ insSet i s) : ((insGroup i s).thread l).pc = i.pc := by
  simpa using (List.mem_filter.mp hl).2

/-- With a stop pending the threads that take part are held at the cut point, and the others of their set go on. -/
theorem cut_holds {x : Stop} (hh : h = { early := false }) (hr : ready i h s = true) (hstop : (insGroup i s).stop = some x) :
    ∃ t, exec (.cut i idx) s = .next t ∧
      (∀ l ∈ insPart i h s, ((insGroup i t).thread l).cut = some idx ∧ ((insGroup i t).thread l).pc = i.pc) ∧
      (∀ l ∈ insSet i s, l ∉ insPart i h s → ((insGroup i t).thread l).pc = i.pc + 16) ∧ t.mem = s.mem := by
  refine ⟨_, exec_cut_stop hh hr hstop, fun l hl => ?part, fun l hs hl => ?others, rfl⟩
  all_goals
    rw [show insGroup i ((issued i h s).onGroup (insKey i) _) = _ from group_onGroup_same .., advance_thread,
      foldl_onThread_thread (fun _ t => { t with cut := some idx }) (insPart_nodup i h s)]
  case part =>
    have hpc : ((insGroup i (issued i h s)).thread l).pc = i.pc := by
      rw [thread_insGroup_issued, pc_of_mem_insSet (mem_insSet_of_mem_insPart hl)]
    rw [if_neg fun ho => (mem_insOthers.mp ho).2 hl, if_pos hl]
    exact ⟨rfl, hpc⟩
  case others => rw [if_pos (mem_insOthers.mpr ⟨hs, hl⟩)]; rfl

end Cut

/-! ### EXIT (R168) -/

section Exit
variable {i : Ins} {h : Shape} {s : State}

/-- The issued state whose participating threads have exited; the others of the set go on. -/
def exited (i : Ins) (h : Shape) (s : State) : State :=
  (issued i h s).onGroup (insKey i) fun g => (exitLanes (insPart i h s) g).advance (insOthers i h s) (after i)

theorem exec_exit_some (hh : h = { early := false }) (hr : ready i h s = true) (hl : ∃ l ∈ (insGroup i s).alive, l ∉ insPart i h s) :
    exec (.exit i) s = .next (exited i h s) := by
  have hlast : (issOf i h s).g.alive.all (issOf i h s).part.contains = false := by
    obtain ⟨l, ha, hp⟩ := hl
    exact List.all_eq_false.mpr ⟨l, ha, by simpa [issOf] using hp⟩
  show execExit i s = _
  rw [execExit, ← hh, begin_ready hr]
  dsimp only
  rw [hlast]
  rfl

theorem exec_exit_last (hh : h = { early := false }) (hr : ready i h s = true) (hl : ∀ l ∈ (insGroup i s).alive, l ∈ insPart i h s)
    (hp : (s.core (insCore i s)).holder = some (insGroup i s).slot → (s.core (insCore i s)).progs = []) :
    exec (.exit i) s = .next (groupEnd (insKey i) stOk (exited i h s)) := by
  have hlast : (issOf i h s).g.alive.all (issOf i h s).part.contains = true :=
    List.all_eq_true.mpr fun l ha => by simpa [issOf] using hl l ha
  have hissued : ∃ rc n w, (issueCost (issOf i h s) h.reads s).core (insCore i s) =
      { s.core (insCore i s) with rcache := rc, issues := n, work := w } := issueCost_core (issOf i h s) h.reads s
  have hfree : (isHolder (issueCost (issOf i h s) h.reads s) (issOf i h s).p (issOf i h s).g.slot &&
      !((issueCost (issOf i h s) h.reads s).core (issOf i h s).p).progs.isEmpty) = false := by
    obtain ⟨rc, n, w, hc⟩ := hissued
    rw [issOf_p, issOf_g, isHolder, hc]
    by_cases hh : (s.core (insCore i s)).holder = some (insGroup i s).slot
    · simp [hp hh]
    · simp [hh]
  show execExit i s = _
  rw [execExit, ← hh, begin_ready hr]
  dsimp only
  rw [hlast, Bool.true_and, hfree]
  rfl

/-- A thread of the group after EXIT: GSYNCs that waited for the exited ones have been settled. -/
theorem exited_thread (l : Nat) : ∃ g : Group, (insGroup i (exited i h s)).thread l =
    let t := g.settled (if l ∈ insPart i h s then { (insGroup i s).thread l with exited := true } else (insGroup i s).thread l)
    if l ∈ insOthers i h s then { t with pc := i.pc + 16 } else t := by
  refine ⟨(insPart i h s).foldl (fun g l => g.onThread l fun t => { t with exited := true }) (insGroup i (issued i h s)), ?_⟩
  rw [exited, show insGroup i ((issued i h s).onGroup (insKey i) _) = _ from group_onGroup_same .., advance_thread, exitLanes,
    gsyncSettle_thread, foldl_onThread_thread (fun _ t => { t with exited := true }) (insPart_nodup i h s)]
  rw [show ((issued i h s).group (insKey i)).thread l = (insGroup i s).thread l from thread_insGroup_issued l]
  rfl

theorem exited_thread_exited (l : Nat) : ((insGroup i (exited i h s)).thread l).exited =
    if l ∈ insPart i h s then true else ((insGroup i s).thread l).exited := by
  obtain ⟨g, hg⟩ := exited_thread (i := i) (h := h) (s := s) l
  rw [hg, settled_eq]
  by_cases ho : l ∈ insOthers i h s <;> by_cases hp : l ∈ insPart i h s <;> simp [hp, ho]

theorem exited_thread_pc (l : Nat) : ((insGroup i (exited i h s)).thread l).pc =
    if l ∈ insOthers i h s then i.pc + 16 else ((insGroup i s).thread l).pc := by
  obtain ⟨g, hg⟩ := exited_thread (i := i) (h := h) (s := s) l
  rw [hg, settled_eq]
  by_cases ho : l ∈ insOthers i h s <;> by_cases hp : l ∈ insPart i h s <;> simp [hp, ho]

theorem exited_sansThreads : (insGroup i (exited i h s)).sansThreads =
    ((insGroup i s).issued ((s.core (insCore i s)).issues + 1) (issOf i h s)).sansThreads := by
  rw [← insGroup_issued, exited, show insGroup i ((issued i h s).onGroup (insKey i) _) = _ from group_onGroup_same .., advance_sansThreads]
  exact foldl_onThread_sansThreads (fun _ t => { t with exited := true }) _ _

/-! ### The end of a group (R58 R168) -/

/-- Launches that wait for room from now on keep everything else. -/
theorem roomWaits_launch (s t : State) (k : Nat) : ∃ r, (roomWaits s t).launches.get k = { t.launches.get k with roomAt := r } := by
  have h : (roomWaits s t).launches.get k = (fun l : Launch => if !l.wants s && l.wants t then { l with roomAt := t.now } else l) (t.launches.get k) :=
    Tbl.get_mapAll t.launches (fun l : Launch => if !l.wants s && l.wants t then { l with roomAt := t.now } else l) rfl k
  rw [h]
  dsimp only
  split <;> exact ⟨_, rfl⟩

theorem slotAdd_launches (g : Group) (s : State) : (slotAdd g s).launches = s.launches := by
  unfold slotAdd
  split <;> rfl

theorem launch_onLaunch_same (s : State) (k : Nat) (g : Launch → Launch) : (s.onLaunch k g).launches.get k = g (s.launches.get k) :=
  Tbl.get_upd_same ..

/-- The status of a group that ends: that of a mark, where it would have completed. -/
def Group.endStatus (g : Group) (status : Nat) : Nat := if status = stOk then g.failed.getD stOk else status

/-- A launch that has recorded how a group of it ended. -/
def Launch.record (g : Group) (status : Nat) (l : Launch) : Launch :=
  { l with gst := l.gst.put g.gid (g.endStatus status + 1), replayed := l.replayed || g.replayed }

theorem groupEnd_eq {s : State} {k : Nat} (status : Nat) (hs : (s.group k).stage ≠ .empty) : ∃ u : State, groupEnd k status s =
    roomWaits s ((slotAdd (s.group k) (u.onLaunch (s.group k).launch (Launch.record (s.group k) status))).onGroups fun t => t.put k {}) := by
  unfold groupEnd
  rw [if_neg hs]
  exact ⟨_, rfl⟩

/-- A group that ends leaves its slot, and its status stands with its launch. -/
theorem groupEnd_slot {s : State} {k : Nat} (status : Nat) (hs : (s.group k).stage ≠ .empty) :
    ((groupEnd k status s).group k).stage = .empty ∧
      ((groupEnd k status s).launches.get (s.group k).launch).gst.get (s.group k).gid = (s.group k).endStatus status + 1 := by
  obtain ⟨u, hu⟩ := groupEnd_eq status hs
  generalize hv : slotAdd (s.group k) (u.onLaunch (s.group k).launch (Launch.record (s.group k) status)) = v at hu
  have hl : v.launches.get (s.group k).launch = Launch.record (s.group k) status (u.launches.get (s.group k).launch) := by
    rw [← hv, slotAdd_launches, launch_onLaunch_same]
  obtain ⟨r, hr⟩ := roomWaits_launch s (v.onGroups fun t => t.put k {}) (s.group k).launch
  rw [hu]
  refine ⟨congrArg Group.stage (Tbl.get_put_same v.groups k {} :), ?_⟩
  rw [hr]
  show (v.launches.get (s.group k).launch).gst.get _ = _
  rw [hl]
  exact Tbl.get_put_same ..

end Exit

/-- Settles O25, command by command. -/
theorem controlFlowCompletes : Obligations.ControlFlowCompletes := by
  intro i s
  refine ⟨fun target join hr => bra_wrote target join hr, fun mask hr => ?gsync, fun h idx hh hr => ⟨cut_leaves hh hr, fun x => cut_holds hh hr⟩,
    fun h hh hr hl => ?exitSome, fun h hh hr hl hp => ?exitLast, fun core slot addr hc => ?join, fun core slot n rest hc hs => ?checkpoint⟩
  case gsync =>
    obtain ⟨t, ht, hthread, hmem⟩ := gsync_leaves mask hr
    exact ⟨t, ht, fun l hl => gsync_arrival hthread hl, gsync_registers hthread, hmem⟩
  case exitSome =>
    refine ⟨_, exec_exit_some hh hr hl, fun l hl => by rw [exited_thread_exited, if_pos hl], fun l _ hl => ⟨?_, ?_⟩, rfl⟩
    · rw [exited_thread_exited, if_neg hl]
    · simp only [exited_thread_pc, mem_insOthers, hl, not_false_eq_true, and_true]
  case exitLast =>
    have hx : (insGroup i (exited i h s)).sansThreads = _ := exited_sansThreads
    have hstage : (insGroup i (exited i h s)).stage = (insGroup i s).stage := (congrArg Group.stage hx :)
    have hlaunch : (insGroup i (exited i h s)).launch = (insGroup i s).launch := (congrArg Group.launch hx :)
    have hgid : (insGroup i (exited i h s)).gid = (insGroup i s).gid := (congrArg Group.gid hx :)
    have hfailed : (insGroup i (exited i h s)).failed = (insGroup i s).failed := (congrArg Group.failed hx :)
    have hrun : (insGroup i s).stage = .running := by
      simp only [ready, setReady, Bool.and_eq_true, decide_eq_true_eq] at hr
      simp only [hr]
    obtain ⟨hempty, hstatus⟩ := groupEnd_slot stOk (show ((exited i h s).group (insKey i)).stage ≠ .empty by
      rw [show (exited i h s).group (insKey i) = insGroup i (exited i h s) from rfl, hstage, hrun]
      decide)
    refine ⟨_, exec_exit_last hh hr hl hp, hempty, ?_⟩
    rw [show (exited i h s).group (insKey i) = insGroup i (exited i h s) from rfl, hlaunch, hgid, Group.endStatus, if_pos rfl, hfailed] at hstatus
    exact hstatus
  case join =>
    show execJoinHoldExpire core slot addr s = _
    simp only [execJoinHoldExpire, hc, Bool.not_true, Bool.false_eq_true, if_false]
  case checkpoint =>
    show execCheckpointWriteComplete core slot s = _
    simp only [execCheckpointWriteComplete, hc, Bool.not_true, Bool.false_eq_true, if_false]
    exact congrArg Host.Outcome.next (onGroup_congr (by rw [hs]))

end Sys2Proof.Machine

/-! Placement and the life of a launch (O27): one equation per command and outcome. The flush of an L1 for another split writes at homes
and can mark groups of a launch, but leaves which group of a launch comes next (`resplit_nextG`). -/
namespace Sys2Proof.Tbl

/-- A table to which the values of a function have been written at these keys. -/
theorem get_foldl_put {α : Type} [Inhabited α] [DecidableEq α] {k : Nat → Nat} (hk : Function.Injective k) (f : Nat → α) (ls : List Nat) (j : Nat) :
    ∀ t : Tbl α, Tbl.get (ls.foldl (fun t i => Tbl.put t (k i) (f i)) t) (k j) = if j ∈ ls then f j else Tbl.get t (k j) := by
  induction ls with
  | nil => intro t; simp
  | cons i ls ih =>
    intro t
    rw [List.foldl_cons, ih, get_put]
    by_cases hj : j = i
    · subst hj; simp
    · simp [hj, hk.eq_iff]

end Sys2Proof.Tbl

namespace Sys2Proof.Machine
open Sys2Proof

/-! ### Writes at homes and of L1s leave the launches but for the marks of their groups -/

theorem setPoison_sansMemory (a : Nat) (v : Bool) (s : State) : (setPoison a v s).sansMemory = s.sansMemory := by
  unfold setPoison
  split
  · dsimp only
    split
    · rfl
    · split <;> rfl
  · rfl
  · rfl

/-- The bytes of a granule that are put to memory. -/
theorem foldl_put_sansMemory (line : Nat) (w : List (Nat × Byte)) (s : State) :
    (w.foldl (fun s x => s.onMem fun t => t.put (line + x.1) x.2) s).sansMemory = s.sansMemory :=
  foldl_keeps State.sansMemory (f := fun s (x : Nat × Byte) => s.onMem fun t => t.put (line + x.1) x.2) (fun _ _ => rfl) w s

theorem homeWrite_sansMemory (line : Nat) (bs : List (Nat × Byte)) (pois : List Nat) (s : State) :
    (homeWrite line bs pois s).1.sansMemory = s.sansMemory := by
  unfold homeWrite
  dsimp only
  refine (foldl_keeps (fun x : State × Bool => x.1.sansMemory) (fun x i => ?_) _ _).trans (tierTouch_sansMemory ..)
  obtain ⟨t, met⟩ := x
  dsimp only
  -- no byte, a byte to be poisoned, a whole granule, a part of a poisoned one, or a part of a sound one
  split
  · rfl
  · split
    · exact (setPoison_sansMemory ..).trans (foldl_put_sansMemory line _ t)
    · split
      · refine (foldl_put_sansMemory line _ _).trans ?_
        split
        · exact setPoison_sansMemory ..
        · rfl
      · split
        · exact errAdd_sansMemory ..
        · exact foldl_put_sansMemory line _ t

section NextG
variable (key : Nat) (s : State)

/-- The number of the group of a launch that comes next. -/
def State.nextOf (key : Nat) (s : State) : Nat := (s.launches.get key).nextG

theorem nextOf_of_sansMemory {s t : State} (h : t.sansMemory = s.sansMemory) : t.nextOf key = s.nextOf key :=
  (congrArg (State.nextOf key) h :)

theorem onLaunch_nextOf {k : Nat} {g : Launch → Launch} (hg : ∀ l, (g l).nextG = l.nextG) : (s.onLaunch k g).nextOf key = s.nextOf key := by
  show ((Tbl.upd s.launches k g).get key).nextG = _
  rw [Tbl.get_upd]
  split
  · next h => rw [hg, h]; rfl
  · rfl

theorem markFailed_nextOf (owners : List (Nat × Nat × Nat)) (status : Nat) : (markFailed owners status s).nextOf key = s.nextOf key := by
  unfold markFailed
  refine foldl_keeps (State.nextOf key) (fun s x => ?_) _ s
  dsimp only
  split
  · rfl
  · exact onLaunch_nextOf key s fun l => by split <;> rfl

theorem l1WriteBack_nextOf (p line : Nat) : (l1WriteBack p line s).nextOf key = s.nextOf key := by
  unfold l1WriteBack
  dsimp only
  split
  · rfl
  · have hw := nextOf_of_sansMemory key (homeWrite_sansMemory line (((s.core p).l1.get line).mask.map fun o => (o, ((s.core p).l1.get line).data.getD o 0)) [] s)
    show State.nextOf key (if _ then _ else _) = _
    split
    · exact (markFailed_nextOf ..).trans hw
    · exact hw

theorem l1Drop_nextOf (p line : Nat) : (l1Drop p line s).nextOf key = s.nextOf key := by
  unfold l1Drop
  split <;> rfl

theorem l1Flush_nextOf (p : Nat) : (l1Flush p s).nextOf key = s.nextOf key :=
  foldl_keeps (State.nextOf key) (fun s (x : Nat × L1Line) => l1WriteBack_nextOf key s p x.1) _ s

theorem l1Invalidate_nextOf (p : Nat) : (l1Invalidate p s).nextOf key = s.nextOf key :=
  foldl_keeps (State.nextOf key) (fun s (x : Nat × L1Line) => l1Drop_nextOf key s p x.1) _ s

theorem resplit_nextOf (p split_ : Nat) : (resplit p split_ s).nextOf key = s.nextOf key := by
  unfold resplit
  split
  · rfl
  · exact (l1Invalidate_nextOf key _ p).trans (l1Flush_nextOf key s p)

end NextG

theorem resplit_split (p split_ : Nat) (s : State) : ((resplit p split_ s).core p).split = split_ := by
  unfold resplit
  split
  · assumption
  · rw [core_onCore_same]

/-! ### A group at its start (R297) -/

section GroupInit
variable (l : Launch) (key gid c slot : Nat)

/-- What its uniform registers hold: where its arguments are, its number, how many groups there are, its core. -/
theorem groupInit_u : (groupInit l key gid c slot).u.get 0 = BitVec.ofNat 32 l.args ∧
    (groupInit l key gid c slot).u.get 1 = BitVec.ofNat 32 (l.args / 2 ^ 32) ∧ (groupInit l key gid c slot).u.get 2 = BitVec.ofNat 32 gid ∧
    (groupInit l key gid c slot).u.get 3 = BitVec.ofNat 32 l.groups ∧ (groupInit l key gid c slot).u.get 4 = BitVec.ofNat 32 c ∧
    ∀ n, 5 ≤ n → (groupInit l key gid c slot).u.get n = 0 := by
  refine ⟨?_, ?_, ?_, ?_, ?_, fun n hn => ?_⟩
  case refine_6 =>
    simp only [groupInit, List.foldl, Tbl.get_put, show n ≠ 0 by omega, show n ≠ 1 by omega, show n ≠ 2 by omega, show n ≠ 3 by omega,
      show n ≠ 4 by omega, if_false]
    rfl
  all_goals simp [groupInit, Tbl.get_put]

/-- A thread at its start: at the entry, its number in its first register. -/
def Launch.thread (l : Launch) (j : Nat) : Thread := { pc := l.entry, v := (Tbl.put [] 0 (BitVec.ofNat 32 j) : Tbl Word) }

theorem groupInit_th : (groupInit l key gid c slot).th = (List.range 32).foldl (fun t i => Tbl.put t i (l.thread i)) [] := by
  unfold groupInit Launch.thread
  generalize List.range 32 = threads
  with_reducible rfl

theorem groupInit_thread {j : Nat} (hj : j < 32) : (groupInit l key gid c slot).thread j = l.thread j := by
  rw [Group.thread, groupInit_th, Tbl.get_foldl_put (k := fun i => i) Function.injective_id, if_pos (List.mem_range.mpr hj)]

/-- A thread stands at the entry; of its registers the first alone is not 0 and holds the thread's number. -/
theorem launchThread_registers (j : Nat) : (l.thread j).pc = l.entry ∧ (l.thread j).p = 0 ∧ (l.thread j).exited = false ∧
    (l.thread j).v.get 0 = BitVec.ofNat 32 j ∧ ∀ n, 1 ≤ n → (l.thread j).v.get n = 0 :=
  ⟨rfl, rfl, rfl, Tbl.get_put_same .., fun n hn => Tbl.get_put_other _ _ (by omega)⟩

end GroupInit

/-! ### Placement (R159 R161 R297) -/

section Launches
variable {s : State} {key : Nat}

theorem wants_live {l : Launch} (h : l.wants s = true) : l.live = true ∧ l.nextG < l.groups := by
  simp only [Launch.wants, Bool.and_eq_true, decide_eq_true_eq] at h
  exact ⟨h.1.1.1, h.1.1.2⟩

theorem exec_groupPlace {c : Nat} (he : engineRuns s (s.launches.get key).die = true) (hf : fixedLost s (s.launches.get key) = false)
    (hw : (s.launches.get key).wants s = true)
    (hc : (s.launches.get key).cores_.find? (fun c => fitsOn s (s.launches.get key) key c &&
      !outranked s c (launchPrec s (s.launches.get key)) (s.launches.get key).waitAt (· = key) (fun _ => false)) = some c) :
    exec (.groupPlace key) s = .next (placeGroup key c s) := by
  obtain ⟨hlive, hnext⟩ := wants_live hw
  show execGroupPlace key s = _
  simp only [execGroupPlace, hlive, Nat.not_le.mpr hnext, he, hf, hw, hc, Bool.not_true, decide_false, Bool.or_self, Bool.false_eq_true, if_false]

theorem exec_groupPlace_fixedLost (hl : (s.launches.get key).live = true) (hn : (s.launches.get key).nextG < (s.launches.get key).groups)
    (he : engineRuns s (s.launches.get key).die = true) (hf : fixedLost s (s.launches.get key) = true) :
    exec (.groupPlace key) s = .next (s.onLaunch key fun l =>
      { l with gst := l.gst.put l.nextG (stFault + 1), nextG := l.nextG + 1, waitAt := s.now, roomAt := s.now }) := by
  show execGroupPlace key s = _
  simp only [execGroupPlace, hl, Nat.not_le.mpr hn, he, hf, Bool.not_true, decide_false, Bool.or_self, Bool.false_eq_true, if_false, if_true]

/-- The group that a placement puts in a slot. -/
def placedGroup (key c i : Nat) (s : State) : Group :=
  { groupInit (s.launches.get key) key (s.launches.get key).nextG c i with stage := .starting }

theorem placedGroup_u (key c i : Nat) (s : State) :
    (placedGroup key c i s).u = (groupInit (s.launches.get key) key (s.launches.get key).nextG c i).u := rfl

theorem placedGroup_th (key c i : Nat) (s : State) :
    (placedGroup key c i s).th = (groupInit (s.launches.get key) key (s.launches.get key).nextG c i).th := by
  unfold placedGroup
  generalize groupInit _ key _ c i = g
  rfl

theorem placedGroup_thread (key c i : Nat) (s : State) {j : Nat} (hj : j < 32) :
    (placedGroup key c i s).thread j = (s.launches.get key).thread j := by
  rw [Group.thread, placedGroup_th, ← Group.thread, groupInit_thread _ key _ c i hj]

theorem placeGroup_eq {c p i : Nat} (hp : s.phys c = some p) (hi : freeSlot s c = some i) : placeGroup key c s =
    ((resplit p (s.launches.get key).split s).onGroups fun t => t.put (gKey c i) (placedGroup key c i s)).onLaunch key fun l =>
      { l with nextG := l.nextG + 1, waitAt := (resplit p (s.launches.get key).split s).now, roomAt := (resplit p (s.launches.get key).split s).now
               ran := if l.ran.contains c then l.ran else l.ran ++ [c] } := by
  rw [placeGroup, hp, hi]
  rfl

theorem placeGroup_leaves {c p i : Nat} (hp : s.phys c = some p) (hi : freeSlot s c = some i) :
    ((placeGroup key c s).launches.get key).nextG = (s.launches.get key).nextG + 1 ∧
      ((placeGroup key c s).core p).split = (s.launches.get key).split ∧ (placeGroup key c s).group (gKey c i) = placedGroup key c i s := by
  rw [placeGroup_eq hp hi]
  refine ⟨?_, resplit_split p _ s, Tbl.get_put_same ..⟩
  rw [launch_onLaunch_same]
  exact congrArg (· + 1) (resplit_nextOf key s p _)

/-! ### Start, completion and deferral (R240 R297 R303 R322) -/

theorem exec_groupStart {core slot p : Nat} {u : State} (hp : s.phys core = some p) (hslot : slot < 48)
    (hg : (s.group (gKey core slot)).stage = .starting) (hc : s.coreRuns p = true) (he : earlierStarts s (s.group (gKey core slot)) = false)
    (hu : u = (if (s.launches.get (s.group (gKey core slot)).launch).prepared.contains core then s
      else (l1Invalidate p (l1Flush p s)).onLaunch (s.group (gKey core slot)).launch fun l => { l with prepared := l.prepared ++ [core] })) :
    exec (.groupStart core slot) s = .next (u.onGroup (gKey core slot) fun g => { g with stage := .running, started := u.now }) := by
  show execGroupStart core slot s = _
  simp only [execGroupStart, hp, Nat.not_le.mpr hslot, hg, hc, he, bne_self_eq_false, Bool.not_true, decide_false, Bool.or_self,
    Bool.false_eq_true, if_false, ← hu]

/-- A launch without work on its way and whose groups have all started. -/
theorem exec_launchComplete_ended (hl : (s.launches.get key).live = true) (he : engineRuns s (s.launches.get key).die = true)
    (hb : launchBusy s key = false) (hst : launchStuck s (s.launches.get key) = none) (hn : (s.launches.get key).groups ≤ (s.launches.get key).nextG) :
    exec (.launchComplete key) s = .next (launchDone key stOk (launchFlush key s)) := by
  show execLaunchComplete key s = _
  simp only [execLaunchComplete, hl, he, hb, hst, hn, Bool.not_true, Bool.or_self, Bool.false_eq_true, if_false, if_true]

/-- A launch that something keeps from starting a further group. -/
theorem exec_launchComplete_stuck {st : Nat} (hl : (s.launches.get key).live = true) (he : engineRuns s (s.launches.get key).die = true)
    (hb : launchBusy s key = false) (hst : launchStuck s (s.launches.get key) = some st) :
    exec (.launchComplete key) s = .next (launchDone key st (launchFlush key s)) := by
  show execLaunchComplete key s = _
  simp only [execLaunchComplete, hl, he, hb, hst, Bool.not_true, Bool.or_self, Bool.false_eq_true, if_false]

theorem launchStuck_of_all_started {l : Launch} (h : l.groups ≤ l.nextG) : launchStuck s l = none := if_pos h

theorem exec_launchDeferralTick (hw : (s.launches.get key).wants s = true) (ht : (s.launches.get key).roomAt + 100000 < s.now)
    (hd : (s.launches.get key).deferG ≠ (s.launches.get key).nextG + 1)
    (hf : (s.launches.get key).cores_.find? (fitsOn s (s.launches.get key) key) = none) (hh : roomHeld s (s.launches.get key) key = true) :
    exec (.launchDeferralTick key) s = .next (acctAdd (s.launches.get key).ctx aDeferrals 1
      ((s.onLaunch key fun l => { l with deferG := l.nextG + 1 }).onQueue (s.launches.get key).queue fun q =>
        { q with pkts := q.pkts.map fun x => if x.launch = key then { x with deferrals := min (x.deferrals + 1) 0xFFFF } else x })) := by
  show execLaunchDeferralTick key s = _
  simp only [execLaunchDeferralTick, hw, ht, bne_iff_ne.mpr hd, hf, hh, Option.isNone_none, decide_true, Bool.and_self, if_true]

end Launches

/-- Settles O27, command by command: what a launch waits for room from, and what counts as room that others hold, are deduced
(notes/assumptions/50.md). -/
theorem placementCompletes : Obligations.PlacementCompletes := by
  intro s
  refine ⟨fun key c p i he hf hw hc hp hi => ?place, fun key hl hn he hf => exec_groupPlace_fixedLost hl hn he hf,
    fun core slot p hp hslot hg hc he u hu => exec_groupStart hp hslot hg hc he hu, fun key hl he hb =>
      ⟨fun hn => exec_launchComplete_ended hl he hb (launchStuck_of_all_started hn) hn, fun st hst => exec_launchComplete_stuck hl he hb hst⟩,
    fun key hw ht hd hf hh => exec_launchDeferralTick hw ht hd hf hh⟩
  case place =>
    obtain ⟨hnext, hsplit, hgroup⟩ := placeGroup_leaves (key := key) hp hi
    refine ⟨_, exec_groupPlace he hf hw hc, hnext, hsplit, ?_⟩
    simp only [hgroup, placedGroup_u]
    obtain ⟨h0, h1, h2, h3, h4, h5⟩ := groupInit_u (s.launches.get key) key (s.launches.get key).nextG c i
    refine ⟨rfl, rfl, rfl, rfl, rfl, h0, h1, h2, h3, h4, h5, fun j hj => ?_⟩
    rw [placedGroup_thread key c i s hj]
    exact launchThread_registers _ j

end Sys2Proof.Machine

/-! Counters, fence tables, queues, parks and mailboxes over the management interface (O32): one equation per request that is taken and that
nothing refuses, with what an answer leaves. -/
namespace Sys2Proof.Machine
open Sys2Proof

/-! ### What an answer leaves of the other objects -/

namespace OnlyResponds
variable {s t : State}

theorem sync (h : OnlyResponds s t) : t.sync = s.sync := (congrArg State.sync h.state :)
theorem ctxs (h : OnlyResponds s t) : t.ctxs = s.ctxs := (congrArg State.ctxs h.state :)

end OnlyResponds

theorem ctx_onCtx_same (s : State) (c : Nat) (g : Ctx → Ctx) : (s.onCtx c g).ctx c = g (s.ctx c) := Tbl.get_upd_same ..

/-- The mailbox slots of a function. -/
def State.mailOf (f : Nat) (s : State) : Tbl (Option (Nat × Nat × Nat)) := (s.fn f).mail

theorem onFn_mailOf {g : Fn → Fn} (hg : ∀ x, (g x).mail = x.mail) (f n : Nat) (s : State) : (s.onFn n g).mailOf f = s.mailOf f := by
  rw [State.mailOf, fn_onFn]
  split
  · next h => rw [hg, h]; rfl
  · rfl

theorem msixRaise_mailOf (f fn vec : Nat) (s : State) : (msixRaise fn vec s).mailOf f = s.mailOf f := by
  unfold msixRaise
  split
  · rfl
  · refine onFn_mailOf (fun x => ?_) ..
    rfl

theorem rspPut_mailOf (f : Nat) (s : State) (r : PmiRsp) : (rspPut s r).mailOf f = s.mailOf f := by
  have hwrites (a : Nat) (l : List Byte) (t : State) : (((t.hostWr a l).onFn r.fn fun x => { x with rspTail := x.rspTail + 1 }).onMgmt
      fun m => { m with responses := m.responses ++ [r] }).mailOf f = t.mailOf f :=
    onFn_mailOf (g := fun x => { x with rspTail := x.rspTail + 1 }) (fun _ => rfl) f r.fn (t.hostWr a l)
  unfold rspPut
  dsimp only
  rw [apply_ite (State.mailOf f), msixRaise_mailOf, ite_self, hwrites]
  split <;> rfl

theorem rspFlush_mailOf (f : Nat) (s : State) : (rspFlush s).mailOf f = s.mailOf f := by
  unfold rspFlush
  refine foldl_keeps (State.mailOf f) (fun s r => ?_) _ _
  split
  · exact rspPut_mailOf f s r
  · rfl

theorem pmiOk_mailOf (f : Nat) (h : Hdr) (code : Nat) (s : State) : (pmiOk h code s).mailOf f = s.mailOf f := by
  unfold pmiOk pmiAnswer pmiAnswerAt
  split
  · rfl
  · exact rspFlush_mailOf f _

/-- A request taken moves the head of its function's request ring and nothing else of a function. -/
theorem taken_fn (h : Hdr) (s : State) (f : Nat) : ∃ n, (taken h s).fn f = { s.fn f with reqHead := n } := by
  rw [taken, fn_onFn]
  split
  · next hf => exact ⟨(s.fn f).reqHead + 1, by rw [hf]⟩
  · exact ⟨(s.fn f).reqHead, rfl⟩

/-! ### Counters (R271 R277 R278) -/

/-- A counter written whole. -/
theorem foldl_onCtr_ctrs (c : Ctr) (ls : List Nat) (s : State) (i : Nat) :
    (forAll ls (fun i s => s.onCtr i fun _ => c) s).sync.ctrs.get i = if i ∈ ls then c else s.sync.ctrs.get i := by
  have h : (forAll ls (fun i s => s.onCtr i fun _ => c) s).sync.ctrs = ls.foldl (fun t i => Tbl.put t i c) s.sync.ctrs := by
    unfold forAll
    induction ls generalizing s with
    | nil => rfl
    | cons l ls ih => exact ih (s.onCtr l fun _ => c)
  rw [h]
  exact Tbl.get_foldl_put (k := fun i => i) Function.injective_id (fun _ => c) ls i _

theorem forAll_onCtr_waits (c : Ctr) (ls : List Nat) (s : State) :
    (forAll ls (fun i s => s.onCtr i fun _ => c) s).sync.waits = s.sync.waits :=
  foldl_keeps (fun s : State => s.sync.waits) (f := fun s i => s.onCtr i fun _ => c) (fun _ _ => rfl) ls s

theorem mem_ctrGroup {first i : Nat} : i ∈ ctrGroup first ↔ first ≤ i ∧ i < first + 16 := by
  simp only [ctrGroup, List.mem_map, List.mem_range]
  exact ⟨fun ⟨a, ha, h⟩ => by omega, fun ⟨h1, h2⟩ => ⟨i - first, by omega, by omega⟩⟩

section Requests
variable {s : State} {h : Hdr}

theorem exec_counterAlloc (hr : ctxReady h s = true) {first : Nat} {sset : Option Nat} {owned : Bool} (hm : first % 16 = 0) (hf : first < 131072)
    (hs : sset.getD 0 < 256) (hq : overQuota (taken h s) h.ctx 16 (ctrsOf (taken h s)) (s.ctx h.ctx).qCtrs (s.fn (s.ctx h.ctx).fn).qCtrs = false)
    (hfree : ∀ i, first ≤ i → i < first + 16 → (s.sync.ctrs.get i).alloc = false) : exec (.counterAlloc h first sset owned) s =
      .next (pmiOk h 0x0020 (forAll (ctrGroup first) (fun i s => s.onCtr i fun _ =>
        { alloc := true, owner := h.ctx, sset := sset, owned := owned, value := if owned then 1 else 0 }) (taken h s))) := by
  obtain ⟨n, hn⟩ := taken_fn h s (s.ctx h.ctx).fn
  have hq' : overQuota (taken h s) h.ctx 16 (ctrsOf (taken h s)) ((taken h s).ctx h.ctx).qCtrs ((taken h s).fn ((taken h s).ctx h.ctx).fn).qCtrs = false := by
    rw [show (taken h s).ctx h.ctx = s.ctx h.ctx from rfl, hn]
    exact hq
  have hany : (ctrGroup first).any (fun i => ((taken h s).sync.ctrs.get i).alloc) = false := by
    rw [List.any_eq_false]
    intro i hi
    obtain ⟨h1, h2⟩ := mem_ctrGroup.mp hi
    exact Bool.not_eq_true _ ▸ hfree i h1 h2
  show execCounterAlloc h first sset owned s = _
  simp only [execCounterAlloc, pmiCtx_go hr, hm, Nat.not_le.mpr hf, Nat.not_le.mpr hs, hq', hany, bne_self_eq_false, decide_false, Bool.or_self,
    Bool.false_eq_true, if_false]

theorem exec_counterFree (hr : ctxReady h s = true) {first : Nat} (hm : first % 16 = 0) (hf : first < 131072)
    (hst : ∀ i, first ≤ i → i < first + 16 → ctrStatus s h i = none) :
    exec (.counterFree h first) s = .next (pmiOk h 0x0021 (forAll (ctrGroup first) ctrFree (taken h s))) := by
  have hnone : (ctrGroup first).findSome? (ctrStatus (taken h s) h) = none := by
    rw [List.findSome?_eq_none_iff]
    intro i hi
    obtain ⟨h1, h2⟩ := mem_ctrGroup.mp hi
    exact hst i h1 h2
  show execCounterFree h first s = _
  simp only [execCounterFree, pmiCtx_go hr, hm, Nat.not_le.mpr hf, hnone, bne_self_eq_false, decide_false, Bool.or_self, Bool.false_eq_true, if_false]

theorem exec_counterConfigure (hr : ctxReady h s = true) {id : Nat} {v : DWord} (hid : id < 131072) (hst : ctrStatus s h id = none) :
    exec (.counterConfigure h id v) s = .next (pmiOk h 0x0022 (ctrSettle id (s.sync.waits.length * 33 + 1)
      ((taken h s).onCtr id fun c => { c with abandoned := false, value := v, holder := none }))) := by
  have hst' : ctrStatus (taken h s) h id = none := hst
  show execCounterConfigure h id v s = _
  simp only [execCounterConfigure, pmiCtx_go hr, Nat.not_le.mpr hid, hst', if_false]
  rfl

theorem exec_counterQuery (hr : ctxReady h s = true) {id : Nat} (hid : id < 131072) (hst : ctrStatus s h id = none) :
    exec (.counterQuery h id) s = .next (pmiAnswer h 0x0023 pOk 0 (ctrReport (s.sync.ctrs.get id)) (taken h s)) := by
  have hst' : ctrStatus (taken h s) h id = none := hst
  show execCounterQuery h id s = _
  simp only [execCounterQuery, pmiCtx_go hr, Nat.not_le.mpr hid, hst', if_false]
  rfl

/-! ### Fence tables, queues, parks and mailboxes (R181 R283 R288 R306) -/

theorem fenceTable_leaves (hr : ctxReady h s = true) {a : Nat} {sset : Option Nat} (ha : a + 2 ^ 20 ≤ 2 ^ 64) (hs : sset.getD 0 < 256) :
    ∃ t, exec (.fenceTableRegister h a sset) s = .next t ∧ (t.ctx h.ctx).fenceTab = some (a, sset) ∧
      (∀ i < 65536, t.sync.fences.get (65536 * h.ctx + i) = {}) ∧ t.sync.ctrs = s.sync.ctrs := by
  show ∃ t, execFenceTableRegister h a sset s = .next t ∧ _
  rw [execFenceTableRegister, pmiCtx_go hr, pmiValid_of_ok (by simp only [ha, hs, decide_true, Bool.and_self])]
  refine ⟨_, rfl, ?tab, fun i hi => ?fence, ?ctrs⟩
  case tab =>
    rw [State.ctx, (pmiOk_onlyResponds ..).ctxs, ← State.ctx, ctx_onCtx_same]
  case fence =>
    rw [(pmiOk_onlyResponds ..).sync]
    refine (Tbl.get_filter_key _ (fun k => !decide (k / 65536 = h.ctx)) _).trans ?_
    rw [show (65536 * h.ctx + i) / 65536 = h.ctx by omega]
    simp
    rfl
  case ctrs => rw [(pmiOk_onlyResponds ..).sync]; rfl

/-- The queue that QUEUE_CREATE makes. -/
def createdQueue (c : QueueCfg) (h : Hdr) (n : Nat) : Queue :=
  { live := true, kind := c.kind, inst := c.inst, num := n, ctx := h.ctx, fn := h.fn, lc := !c.be, s := c.s, c := c.c, f := c.f
    vector := c.vector, ring := c.ring, cring := c.cring, ctail := c.ctail, headAddr := c.head, fail := c.fail }

theorem exec_queueCreate (hr : ctxReady h s = true) {c : QueueCfg} {n : Nat} (hok : queueOk c = true) (he : engNamed s c.kind c.inst = true)
    (hq : overQuota (taken h s) h.ctx 1 (queuesOf (taken h s)) (s.ctx h.ctx).qQueues (s.fn (s.ctx h.ctx).fn).qQueues = false)
    (hn : freeQueue s (engOf c.kind c.inst) = some n) : exec (.queueCreate h c) s =
      .next (pmiAnswer h 0x0030 pOk n [] ((taken h s).onQs fun t => t.put (queueKey (engOf c.kind c.inst) n) (createdQueue c h n))) := by
  obtain ⟨m, hm⟩ := taken_fn h s (s.ctx h.ctx).fn
  have hq' : overQuota (taken h s) h.ctx 1 (queuesOf (taken h s)) ((taken h s).ctx h.ctx).qQueues ((taken h s).fn ((taken h s).ctx h.ctx).fn).qQueues = false := by
    rw [show (taken h s).ctx h.ctx = s.ctx h.ctx from rfl, hm]
    exact hq
  have he' : engNamed (taken h s) c.kind c.inst = true := he
  have hn' : freeQueue (taken h s) (engOf c.kind c.inst) = some n := hn
  show execQueueCreate h c s = _
  simp only [execQueueCreate, pmiCtx_go hr, hok, he', hq', hn', Bool.not_true, Bool.false_eq_true, if_false]
  rfl

theorem exec_queueDestroy (hr : ctxReady h s = true) {eng q : Nat} (drain : Bool) (hd : (s.queue (queueKey eng q)).drain = false) (hq : q < 1024)
    (he : eng < 32) (hl : (s.queue (queueKey eng q)).live = true) (hc : (s.queue (queueKey eng q)).ctx = h.ctx) :
    exec (.queueDestroy h eng q drain) s = .next (drainCheck (queueKey eng q)
      ((if drain then (dropQueueStalls (queueKey eng q) (taken h s)).onQueue (queueKey eng q) fun y => { y with stalled := false, stallWhy := 0 }
        else queueCancel (queueKey eng q) (failGroups (fun g => ((taken h s).launches.get g.launch).queue = queueKey eng q) stCancelled
          (queueUnwait (queueKey eng q) (taken h s)))).onQueue (queueKey eng q) fun y => { y with drain := true, drainReq := some h })) := by
  have hq' : (taken h s).queue (queueKey eng q) = s.queue (queueKey eng q) := rfl
  show execQueueDestroy h eng q drain s = _
  simp only [execQueueDestroy, pmiCtx_go hr, hd, hq', hl, hc, Nat.not_le.mpr hq, Nat.not_le.mpr he, bne_self_eq_false, Bool.not_true, decide_false,
    Bool.or_self, Bool.false_eq_true, if_false]

section Park
variable {core slot : Nat}

theorem unpark_of_decidable {s : State} {k c : Nat} (hd : decidable_ c core slot (s.group k) = true) :
    unpark k s = s.onGroup k fun g => { g with stage := .running, park := none } := by
  simp only [decidable_, Bool.and_eq_true, decide_eq_true_eq] at hd
  exact onGroup_congr (by rw [if_pos (by simp only [hd])])

theorem exec_parkDecide (hr : ctxReady h s = true) (abandon : Bool) (hc : core < 1024) (hs : slot < 48)
    (hd : decidable_ h.ctx core slot (s.group (gKey core slot)) = true) : exec (.parkDecide h core slot abandon) s =
      .next (pmiOk h 0x0033 (if abandon then groupEnd (gKey core slot) stFault (taken h s)
        else (taken h s).onGroup (gKey core slot) fun g => { g with stage := .running, park := none })) := by
  have hd' : decidable_ h.ctx core slot ((taken h s).group (gKey core slot)) = true := hd
  show execParkDecide h core slot abandon s = _
  simp only [execParkDecide, pmiCtx_go hr, Nat.not_le.mpr hc, Nat.not_le.mpr hs, hd', unpark_of_decidable hd', decide_false, Bool.or_self,
    Bool.false_eq_true, if_false, if_true]

theorem exec_parkDecide_saved (hr : ctxReady h s = true) {abandon : Bool} {g : Group} (hc : core < 1024) (hs : slot < 48)
    (hd : decidable_ h.ctx core slot (s.group (gKey core slot)) = false) (hg : s.saved.find? (decidable_ h.ctx core slot) = some g) :
    exec (.parkDecide h core slot abandon) s = .next (pmiOk h 0x0033 ((taken h s).onIdent g.ident (Group.ruled abandon))) := by
  have hd' : decidable_ h.ctx core slot ((taken h s).group (gKey core slot)) = false := hd
  have hg' : (taken h s).saved.find? (decidable_ h.ctx core slot) = some g := hg
  show execParkDecide h core slot abandon s = _
  simp only [execParkDecide, pmiCtx_go hr, Nat.not_le.mpr hc, Nat.not_le.mpr hs, hd', hg', decide_false, Bool.or_self, Bool.false_eq_true, if_false]

end Park

theorem mailboxConfig_leaves (hr : ctxReady h s = true) {first n dest ctr : Nat} (h1 : 1 ≤ n) (hn : first + n ≤ 256) (hd : dest % 64 = 0)
    (hva : vaOk (dest + 64 * n - 1) = true) (hc : counterId ctr = true) : ∃ t, exec (.mailboxConfig h first n dest ctr) s = .next t ∧
      ∀ i < n, (t.fn h.fn).mail.get (first + i) = some (h.ctx, dest + 64 * i, ctr) := by
  show ∃ t, execMailboxConfig h first n dest ctr s = .next t ∧ _
  rw [execMailboxConfig, pmiCtx_go hr, pmiValid_of_ok (by simp only [h1, hn, hd, hva, hc, decide_true, Bool.and_self])]
  refine ⟨_, rfl, fun i hi => ?_⟩
  rw [show ((pmiOk h 0x0034 _).fn h.fn).mail = (pmiOk h 0x0034 _).mailOf h.fn from rfl, pmiOk_mailOf]
  rw [State.mailOf, fn_onFn, if_pos rfl]
  exact (Tbl.get_foldl_put (fun _ _ h => Nat.add_left_cancel h) (fun i => some (h.ctx, dest + 64 * i, ctr)) _ i _).trans
    (if_pos (List.mem_range.mpr hi))

end Requests

/-- Settles O32, request by request. -/
theorem objectRequestsComplete : Obligations.ObjectRequestsComplete := by
  intro s h hr
  refine ⟨fun first sset owned hm hf hs hq hfree => ⟨_, exec_counterAlloc hr hm hf hs hq hfree, fun i => ?ctr, ?waits⟩,
    fun first hm hf hst => exec_counterFree hr hm hf hst,
    fun id v hid hst => ⟨exec_counterConfigure hr hid hst, exec_counterQuery hr hid hst⟩,
    fun a sset ha hs => fenceTable_leaves hr ha hs,
    fun c n hok he hq hn => ⟨_, exec_queueCreate hr hok he hq hn, fun k => ?queue⟩,
    fun eng q hd hq he hl hc => ⟨exec_queueDestroy hr true hd hq he hl hc, exec_queueDestroy hr false hd hq he hl hc⟩,
    fun core slot hc hs => ⟨fun hd => ⟨exec_parkDecide hr false hc hs hd, exec_parkDecide hr true hc hs hd⟩,
      fun g ab hd hg => exec_parkDecide_saved hr hc hs hd hg⟩,
    fun first n dest ctr h1 hn hd hva hc => mailboxConfig_leaves hr h1 hn hd hva hc⟩
  case ctr => simp only [(pmiOk_onlyResponds ..).sync, foldl_onCtr_ctrs, mem_ctrGroup]; rfl
  case waits => rw [(pmiOk_onlyResponds ..).sync, forAll_onCtr_waits]; rfl
  case queue =>
    rw [State.queue, (pmiAnswer_onlyResponds ..).qs]
    exact Tbl.get_put ..

end Sys2Proof.Machine

/-! Ring configurations, ring registers, mailboxes and dailies (O33): one equation per command and case. -/
namespace Sys2Proof.Machine
open Sys2Proof

section Rings
variable {s : State} {h : Hdr} {r : RingCfg}

theorem exec_dailiesPeriodic {ms : Nat} (hg : pmiGo s h = true) (hr : ringOk r = true) (h1 : 10 ≤ ms) (h2 : ms ≤ 3600000) :
    exec (.dailiesPeriodic h r ms) s =
      .next (pmiOk h 0x0041 (ringConfig h.fn .snap r ((taken h s).onFn h.fn fun x => { x with snapPer := ms, snapAt := s.now }))) := by
  show execDailiesPeriodic h r ms s = _
  rw [execDailiesPeriodic, pmi_go hg (.inl rfl), pmiValid_of_ok (by simp only [hr, h1, h2, decide_true, Bool.and_self])]
  rfl

theorem ringReq_go (code : Nat) (i : RingId) (hg : pmiGo s h = true) (hr : ringOk r = true) :
    ringReq h code i r s = .next (pmiOk h code (ringConfig h.fn i r (taken h s))) := by
  rw [ringReq, pmi_go hg (.inl rfl), pmiValid_of_ok hr]

theorem ring_setRing (x : Fn) (i : RingId) (r : Ring) : (x.setRing i r).ring i = r := by cases i <;> rfl

theorem ring_onRing (s : State) (f : Nat) (i : RingId) (g : Ring → Ring) : ((s.onRing f i g).fn f).ring i = g (((s.fn f).ring i)) := by
  rw [State.onRing, fn_onFn, if_pos rfl, ring_setRing]

/-- A flush of a ring that holds no record back. -/
theorem ringFlush_of_none_held {f : Nat} {i : RingId} (hh : ((s.fn f).ring i).held = []) :
    ringFlush f i s = s.onRing f i fun r => { r with held := [] } := by
  rw [ringFlush, hh]
  rfl

theorem ringConfig_ring (f : Nat) (i : RingId) (hh : ((s.fn f).ring i).held = []) : ((ringConfig f i r s).fn f).ring i =
    { on := true, addr := r.addr, size := r.size, tailAddr := r.tailAddr, vector := r.vector, head := 0, tail := 0, held := [], irqAt := none } := by
  rw [ringConfig, ringFlush_of_none_held (by rw [ring_onRing]; exact hh), ring_onRing, ring_onRing]

end Rings

/-! ### The registers of the management rings (R309) -/

section Registers
variable {s : State} {f : Nat} (hf : f < 64)
include hf

theorem exec_pmiRingBaseWrite (rsp : Bool) (v : DWord) : exec (.pmiRingBaseWrite f rsp v) s = .next (pmiBaseWrite (.fn f) f rsp v s) := by
  show execPmiRingBaseWrite f rsp v s = _
  rw [execPmiRingBaseWrite, if_neg (Nat.not_le.mpr hf)]

theorem exec_pmiRspHeadWrite (v : Word) : exec (.pmiRspHeadWrite f v) s = .next
    (if headOk (s.fn f).rspHead v (s.fn f).rspTail then rspFlush (s.onFn f fun x => { x with rspHead := v }) else writeRefused (.fn f) (pmiPa f + 0x14) s) := by
  show execPmiRspHeadWrite f v s = _
  rw [execPmiRspHeadWrite, if_neg (Nat.not_le.mpr hf)]
  rfl

theorem exec_mailboxWrite {off c dest ctr : Nat} {data : List Byte} (hlo : 0x4000 ≤ off) (hhi : off < 0x8000) (ha : off % 64 = 0)
    (hm : (s.fn f).mail.get ((off - 0x4000) / 64) = some (c, dest, ctr)) (hl : data.length = 64) (hr : (s.ctx c).inReset = false)
    (hb : bulkCheck s (hostBulk s c) dest 64 needW = none) : exec (.mailboxWrite f off data) s =
      .next (syncOp 0x01 (agentWait (bulkWr (hostBulk s c) none dest data [] s).1 c hostSrc ctr 1) 0 (bulkWr (hostBulk s c) none dest data [] s).1).1 := by
  have hlo' : mailBase ≤ off := hlo
  have hhi' : off < mailBase + 0x4000 := hhi
  have hm' : (s.fn f).mail.get ((off - mailBase) / 64) = some (c, dest, ctr) := hm
  show execMailboxWrite f off data s = _
  simp only [execMailboxWrite, Nat.not_le.mpr hf, Nat.not_lt.mpr hlo', Nat.not_le.mpr hhi', decide_false, hm', hl, ha, hr, hb, bne_self_eq_false, Bool.or_self, Bool.false_eq_true, if_false]

end Registers

/-! ### Dailies and share groups (R319 R335 R336) -/

section Accounts
variable {s : State} {h : Hdr}

theorem exec_dailiesQuery {ctxs : List Nat} (hg : pmiGo s h = true) (hne : ctxs ≠ [])
    (hc : ∀ c ∈ ctxs, c < 4096 ∧ (s.ctx c).live = true ∧ (s.ctx c).fn = h.fn ∧ (s.ctx c).orphanedAt = none) : exec (.dailiesQuery h ctxs) s =
      .next (pmiAnswer h 0x0040 pOk 0 (ctxs.flatMap fun c => dailies (taken h s) c false false) (taken h s)) := by
  have hctx (c : Nat) : (taken h s).ctx c = s.ctx c := rfl
  have hfound : ctxs.any (fun c => 4096 ≤ c || !((taken h s).ctx c).live) = false :=
    List.any_eq_false.mpr fun c hm => by obtain ⟨h1, h2, -⟩ := hc c hm; simp [hctx, h1, h2]
  have hown : ctxs.any (fun c => ((taken h s).ctx c).fn != h.fn) = false :=
    List.any_eq_false.mpr fun c hm => by obtain ⟨-, -, h3, -⟩ := hc c hm; simp [hctx, h3]
  have hkept : ctxs.any (fun c => ((taken h s).ctx c).orphanedAt.isSome) = false :=
    List.any_eq_false.mpr fun c hm => by obtain ⟨-, -, -, h4⟩ := hc c hm; simp [hctx, h4]
  show execDailiesQuery h ctxs s = _
  simp only [execDailiesQuery, pmi_go hg (.inl rfl), List.isEmpty_eq_false_iff.mpr hne, hfound, hown, hkept, Bool.false_eq_true, if_false]

/-- The share groups other than this one. -/
def otherShares (n : Nat) (s : State) : List (Nat × Option (Nat × List Nat)) := (shareDefs s).filter fun (k, _) => k != n

/-- The percentage that a share group takes. -/
def sharePercent : Option (Nat × List Nat) → Nat
  | some (g, _) => g
  | none => 0

theorem exec_shareGroupSet {n f : Nat} {members : List Nat} (hg : pmiGo s h = true) (h0 : h.fn = 0) (hn : n < 16) (hf : 1 ≤ f)
    (hsum : ((otherShares n s).map fun x => sharePercent x.2).sum + f ≤ 90)
    (hfree : ∀ k g l, (k, some (g, l)) ∈ shareDefs s → k ≠ n → ∀ c ∈ members, c ∉ l) (hc : ∀ c ∈ members, c < 4096 ∧ (s.ctx c).live = true) :
    exec (.shareGroupSet h n f members) s =
      .next (pmiOk h 0x0042 ((taken h s).onMgmt fun m => { m with newGroupsG := some ((shareDefs s).put n (some (f, members))) })) := by
  show execShareGroupSet h n f members s = _
  rw [execShareGroupSet, pmi_go hg (.inr h0)]
  refine congrArg Host.Outcome.next ((if_neg ?legal).trans (if_neg ?found))
  case found =>
    rw [Bool.not_eq_true, List.any_eq_false]
    intro c hm
    obtain ⟨hlt, hlive⟩ := hc c hm
    simp [show (taken h s).ctx c = s.ctx c from rfl, hlt, hlive]
  case legal =>
    simp only [Bool.or_eq_true, decide_eq_true_eq, not_or]
    refine ⟨⟨⟨⟨by omega, by omega⟩, by omega⟩, Nat.not_lt.mpr hsum⟩, ?_⟩
    rw [Bool.not_eq_true, List.any_eq_false]
    rintro ⟨k, x⟩ hx
    obtain ⟨hmem, hk⟩ := List.mem_filter.mp hx
    cases x with
    | none => exact Bool.false_ne_true
    | some x =>
      obtain ⟨g, l⟩ := x
      have hdisjoint := hfree k g l hmem (bne_iff_ne.mp hk)
      simpa using hdisjoint

end Accounts

/-- Settles O33, command by command. -/
theorem ringAndMailboxRequestsComplete : Obligations.RingAndMailboxRequestsComplete := by
  intro s h
  refine ⟨fun r hg hr => ⟨ringReq_go 0x0015 .fault hg hr, ringReq_go 0x0016 .notify hg hr, ringReq_go 0x0032 .park hg hr,
      fun ms h1 h2 => exec_dailiesPeriodic hg hr h1 h2⟩,
    fun r i f hh => ringConfig_ring f i hh, fun f rsp v hf => ⟨fun hv => ?base, fun hv => ?baseRefused⟩,
    fun f v hf => ⟨fun hv => ?head, fun hv => ?headRefused⟩,
    fun f off data c dest ctr hf hlo hhi ha hm hl hr hb u hu => hu ▸ exec_mailboxWrite hf hlo hhi ha hm hl hr hb,
    fun ctxs hg hne hc => exec_dailiesQuery hg hne hc,
    fun n f members hg h0 hn hf hsum hfree hc => exec_shareGroupSet hg h0 hn hf hsum hfree hc⟩
  case base => rw [exec_pmiRingBaseWrite hf, pmiBaseWrite, if_neg (Nat.not_lt.mpr hv)]
  case baseRefused => rw [exec_pmiRingBaseWrite hf, pmiBaseWrite, if_pos hv]
  case head => rw [exec_pmiRspHeadWrite hf, if_pos ((headOk_iff ..).mpr hv)]
  case headRefused =>
    rw [exec_pmiRspHeadWrite hf, if_neg]
    rw [headOk_iff]
    omega

end Sys2Proof.Machine

/-! Parks and the store buffer (O26): what a park leaves of its group, and where the bytes of a drained entry go. -/
namespace Sys2Proof.Machine
open Sys2Proof

/-! ### A group parks (R164 R178 to R181) -/

theorem ringFlush_groups (f : Nat) (i : RingId) (s : State) : (ringFlush f i s).groups = s.groups := by
  unfold ringFlush
  refine foldl_keeps State.groups (fun s x => ?_) _ _
  dsimp only
  split <;> rfl

theorem ringPush_group (f : Nat) (i : RingId) (c : Nat) (irq : Bool) (b : List Byte) (s : State) (k : Nat) :
    (ringPush f i c irq b s).group k = s.group k := congrArg (Tbl.get · k) (ringFlush_groups f i _)

theorem dropReservations_group (p slot k : Nat) (s : State) : (dropRsvs k (dropRcache p slot s)).group k =
    { s.group k with th := (s.group k).th.mapAll fun t => { t with resv := none } } :=
  group_onGroup_same (dropRcache p slot s) k fun g => { g with th := g.th.mapAll fun t => { t with resv := none } }

/-- A group that parks: it keeps its slot and registers and loses its reservations. -/
def Group.parked (pk : Park) (g : Group) : Group :=
  { g with stage := .parked, park := some (g.park.getD pk), faults := g.faults.erase pk, th := g.th.mapAll fun t => { t with resv := none } }

theorem parked_thread (pk : Park) (g : Group) (l : Nat) : (g.parked pk).thread l = { g.thread l with resv := none } :=
  Tbl.get_mapAll g.th (fun t : Thread => { t with resv := none }) rfl l

/-- A park without faulting pages: the group parks, and under ABANDON it then ends. -/
theorem parkNow_parks {s : State} {k : Nat} {pk : Park} (hp : parkable (s.group k) = some pk) (hpages : pk.pages = []) :
    ∃ u : State, u.group k = (s.group k).parked pk ∧ parkNow k s = if pk.policy = 1 then groupEnd k stFault u else u := by
  rw [parkNow, hp]
  dsimp only
  rw [hpages]
  refine ⟨_, ?_, rfl⟩
  rw [ringPush_group, List.foldl_nil, dropReservations_group, group_onGroup_same]
  rfl

/-! ### The slice that a write passes through changes the tier alone -/

/-- A state without its memory tier. -/
def State.sansTier (s : State) : State := { s with tier := {} }

@[simp] theorem onSlice_sansTier (s : State) (k : Nat) (g : Slice → Slice) : (s.onSlice k g).sansTier = s.sansTier := rfl
@[simp] theorem hbmWriteBack_sansTier (line : Nat) (po : BitVec 16) (s : State) : (hbmWriteBack line po s).sansTier = s.sansTier := rfl
@[simp] theorem dropVictim_sansTier (k line : Nat) (s : State) : (dropVictim k line s).sansTier = s.sansTier := rfl
@[simp] theorem putLine_sansTier (k line way : Nat) (dirty : Bool) (po : BitVec 16) (s : State) :
    (putLine k line way dirty po s).sansTier = s.sansTier := rfl
@[simp] theorem tierDrop_sansTier (k line : Nat) (s : State) : (tierDrop k line s).sansTier = s.sansTier := rfl
@[simp] theorem tierDropLine_sansTier (k line : Nat) (s : State) : (tierDropLine k line s).sansTier = s.sansTier := rfl

@[simp] theorem toVictims_sansTier (k : Nat) (v : TLine) (s : State) : (toVictims k v s).sansTier = s.sansTier := by
  rw [toVictims, onSlice_sansTier]
  split
  · rfl
  · split <;> rfl

@[simp] theorem tierInstall_sansTier (k line : Nat) (dirty : Bool) (po : BitVec 16) (s : State) :
    (tierInstall k line dirty po s).sansTier = s.sansTier := by
  unfold tierInstall
  split
  · rfl
  · rw [putLine_sansTier, toVictims_sansTier, tierDropLine_sansTier]
  · split <;> rfl

@[simp] theorem bankNow_sansTier (k bank : Nat) (s : State) : (bankNow k bank s).sansTier = s.sansTier := by
  unfold bankNow
  split
  · rw [tierInstall_sansTier, onSlice_sansTier]
  · unfold bankFill
    split
    · dsimp only
      split <;> rfl
    · rfl

theorem tierTouch_sansTier (line : Nat) (wr full : Bool) (s : State) : (tierTouch line wr full s).sansTier = s.sansTier := by
  unfold tierTouch
  split
  · dsimp only
    -- a hit, an entry of the victim buffer or HBM, in a converting way or not
    repeat' split
    all_goals simp
  · rfl

/-! ### A write at a home that meets no poison (R208) -/

/-- Bytes of a line put to memory. -/
def putCells (line : Nat) (s : State) (w : List (Nat × Byte)) : State := w.foldl (fun s x => s.onMem fun t => t.put (line + x.1) x.2) s

theorem putCells_sansMem (line : Nat) (s : State) (w : List (Nat × Byte)) : { putCells line s w with mem := [] } = { s with mem := [] } :=
  foldl_keeps (fun s : State => { s with mem := [] }) (f := fun s (x : Nat × Byte) => s.onMem fun t => t.put (line + x.1) x.2) (fun _ _ => rfl) w s

theorem putCells_poisonAt (line : Nat) (s : State) (w : List (Nat × Byte)) (a : Nat) : poisonAt (putCells line s w) a = poisonAt s a :=
  (congrArg (fun s => poisonAt s a) (putCells_sansMem line s w) :)

/-- A byte of memory once bytes of a line have been put: `f` is what they hold by their offset. -/
theorem putCells_mem_get (line : Nat) (f : Nat → Byte) (a : Nat) {w : List (Nat × Byte)} (hw : ∀ x ∈ w, x.2 = f x.1) : ∀ s : State,
    (putCells line s w).mem.get a = if line ≤ a ∧ a - line ∈ w.map (·.1) then f (a - line) else s.mem.get a := by
  induction w with
  | nil => intro s; simp [putCells]
  | cons x w ih =>
    intro s
    have hput : (s.onMem fun t => t.put (line + x.1) x.2).mem.get a = if a = line + x.1 then x.2 else s.mem.get a := Tbl.get_put ..
    rw [show putCells line s (x :: w) = putCells line (s.onMem fun t => t.put (line + x.1) x.2) w from rfl,
      ih fun y hy => hw y (List.mem_cons_of_mem x hy), hput, hw x List.mem_cons_self]
    by_cases hx : a = line + x.1
    · subst hx; simp
    · have hne : line ≤ a → a - line ≠ x.1 := by omega
      by_cases hl : line ≤ a
      · simp [hl, hx, hne hl]
      · simp [hl, hx]

theorem granOf_eq (s : State) (a : Nat) : granOf s a = 8 ∨ granOf s a = 64 := by
  unfold granOf
  split
  · split
    · exact .inl rfl
    · exact .inr rfl
  · exact .inl rfl

/-- A fold whose steps leave the second component alone, while `P` holds. -/
theorem foldl_fst {σ : Type} {P : σ → Prop} {f : σ × Bool → Nat → σ × Bool} {g : σ → Nat → σ} {l : List Nat} {b : Bool} (hP : ∀ s i, P s → P (g s i))
    (hf : ∀ s, P s → ∀ i ∈ l, f (s, b) i = (g s i, b)) : ∀ s, P s → l.foldl f (s, b) = (l.foldl g s, b) := by
  induction l with
  | nil => exact fun _ _ => rfl
  | cons i l ih =>
    intro s hs
    rw [List.foldl_cons, hf s hs i List.mem_cons_self, ih (fun s hs j hj => hf s hs j (List.mem_cons_of_mem i hj)) _ (hP s i hs), List.foldl_cons]

section HomeWrite
variable {line : Nat} {bs : List (Nat × Byte)} {s : State}

/-- The granules of a line, each with its written bytes. -/
def cellsByGran (g : Nat) (bs : List (Nat × Byte)) : List (Nat × Byte) := (List.range (128 / g)).flatMap (inGran bs g)

theorem homeWrite_of_sound (hp : ∀ o < 128, poisonAt (tierTouch line true (bs.length = 128) s) (line + o) = false) : homeWrite line bs [] s =
    (putCells line (tierTouch line true (bs.length = 128) s) (cellsByGran (granOf (tierTouch line true (bs.length = 128) s) line) bs), false) := by
  unfold homeWrite
  dsimp only
  generalize tierTouch line true (bs.length = 128) s = t at hp ⊢
  obtain ⟨g, hg⟩ : ∃ g, granOf t line = g := ⟨_, rfl⟩
  rw [hg, putCells, cellsByGran, List.foldl_flatMap]
  refine foldl_fst (P := fun u => ∀ o < 128, poisonAt u (line + o) = false)
    (fun u i hu o ho => (putCells_poisonAt line u (inGran bs g i) _).trans (hu o ho)) (fun u hu i hi => ?_) t hp
  have hoff : g * i < 128 := by
    have hi' : i < 128 / g := List.mem_range.mp hi
    rcases granOf_eq t line with h | h <;> rw [← hg, h] at hi' ⊢ <;> omega
  have hnone : (inGran bs g i).any (fun x => ([] : List Nat).contains x.1) = false := List.any_eq_false.mpr fun _ _ => by simp
  -- no byte of the granule is written, all are, or some
  dsimp only
  simp only [hu _ hoff, hnone, Bool.false_eq_true, if_false, ite_self]
  split
  · next he => rw [List.isEmpty_iff.mp he]; rfl
  · rfl

theorem mem_cellsByGran {g : Nat} (hg : g = 8 ∨ g = 64) (hlt : ∀ x ∈ bs, x.1 < 128) (x : Nat × Byte) : x ∈ cellsByGran g bs ↔ x ∈ bs := by
  simp only [cellsByGran, inGran, List.mem_flatMap, List.mem_range, List.mem_filter, decide_eq_true_eq]
  refine ⟨fun ⟨_, _, hx, _⟩ => hx, fun hx => ⟨x.1 / g, ?_, hx, rfl⟩⟩
  have hlt := hlt x hx
  rcases hg with rfl | rfl <;> omega

/-- Memory after a write at a home that meets no poison: `f` is what the bytes hold by their offset. -/
theorem homeWrite_mem_get (f : Nat → Byte) (hlt : ∀ x ∈ bs, x.1 < 128) (hf : ∀ x ∈ bs, x.2 = f x.1)
    (hp : ∀ o < 128, poisonAt (tierTouch line true (bs.length = 128) s) (line + o) = false) (a : Nat) : (homeWrite line bs [] s).1.mem.get a =
      if line ≤ a ∧ a < line + 128 ∧ a - line ∈ bs.map (·.1) then f (a - line) else s.mem.get a := by
  have hmem : (tierTouch line true (bs.length = 128) s).mem = s.mem := (congrArg State.mem (tierTouch_sansTier line true (bs.length = 128) s) :)
  have hcells := mem_cellsByGran (granOf_eq (tierTouch line true (bs.length = 128) s) line) hlt
  have hoffs : (line ≤ a ∧ a - line ∈ (cellsByGran (granOf (tierTouch line true (bs.length = 128) s) line) bs).map (·.1)) ↔
      line ≤ a ∧ a < line + 128 ∧ a - line ∈ bs.map (·.1) := by
    simp only [List.mem_map, hcells]
    refine ⟨fun ⟨h1, x, hx, h2⟩ => ⟨h1, ?_, x, hx, h2⟩, fun ⟨h1, _, h2⟩ => ⟨h1, h2⟩⟩
    have hlt := hlt x hx
    omega
  rw [homeWrite_of_sound hp, putCells_mem_get line f a (fun x hx => hf x ((hcells x).mp hx)), hmem]
  simp only [hoffs]

end HomeWrite

/-! ### A drained entry (R220 R221) -/

section Drain
variable {e : SbEntry}

theorem mem_cellsOf {x : Nat × Byte} (hx : x ∈ e.cellsOf) : x.1 < 128 ∧ x.2 = e.bytes.get x.1 := by
  obtain ⟨o, ho, rfl⟩ := List.mem_map.mp hx
  exact ⟨List.mem_range.mp (List.mem_filter.mp ho).1, rfl⟩

theorem cellsOf_of_mask_nil (h : e.mask = []) : e.cellsOf = [] := by simp [SbEntry.cellsOf, h]

/-- A list without its repetitions has the same members. -/
theorem mem_foldl_unrepeated {α : Type} [BEq α] [LawfulBEq α] (x : α) (l : List α) : ∀ acc : List α,
    x ∈ l.foldl (fun l x => if l.contains x then l else l ++ [x]) acc ↔ x ∈ acc ∨ x ∈ l := by
  induction l with
  | nil => simp
  | cons y l ih =>
    intro acc
    rw [List.foldl_cons, ih]
    by_cases hy : y ∈ acc
    · by_cases hx : x = y <;> simp [hy, hx]
    · simp [hy, or_assoc]

theorem tagAt_mem_tags {o : Nat} (ho : o ∈ e.mask) : e.tagAt o ∈ e.tags :=
  (mem_foldl_unrepeated (e.tagAt o) (e.mask.map e.tagAt) []).mpr (.inr (List.mem_map_of_mem ho))

/-- With all its contexts and generations an entry keeps all its bytes. -/
theorem only_tags (e : SbEntry) : ∃ org owners, e.only e.tags = { e with org := org, owners := owners } := by
  have hmask : e.mask.filter (fun o => e.tags.contains (e.tagAt o)) = e.mask :=
    List.filter_eq_self.mpr fun o ho => List.contains_iff_mem.mpr (tagAt_mem_tags ho)
  rw [SbEntry.only, hmask]
  exact ⟨_, _, rfl⟩

theorem killRsv_keeps (line : Nat) (home l1 : Bool) (keep : Option (Nat × Nat)) (s : State) :
    (killRsv line home l1 keep s).mem = s.mem ∧ (killRsv line home l1 keep s).cores = s.cores := by
  unfold killRsv
  dsimp only
  split <;> exact ⟨rfl, rfl⟩

theorem storeKills_keeps (line : Nat) (thr : List (Nat × Nat)) (s : State) :
    (storeKills line thr s).mem = s.mem ∧ (storeKills line thr s).cores = s.cores := by
  unfold storeKills
  split <;> exact killRsv_keeps ..

variable {s : State} {p : Nat}

/-- An entry whose bytes are stored, where no L1 holds the line and its slice lets it through. -/
theorem sbPerform_home (hm : e.mask ≠ []) (hf : fencedAt s (paLocal e.line) = false) (hr : e.region ≠ .normal ∨ homeDie (paLocal e.line) ≠ pDie p)
    (hh : holdersOf s (paLocal e.line) = []) (ht : tierBegin (paLocal e.line) true (decide (e.mask.length = 128)) s = none) :
    sbPerform p e s = .done (storeKills (paLocal e.line) e.thr (storeEnd e.owners (homeWrite (paLocal e.line) e.cellsOf [] s))) := by
  have hown : (e.region = .normal && homeDie (paLocal e.line) = pDie p && !(s.core p).fenced) = false := by
    rcases hr with h | h <;> simp [h]
  have hrecall : l1Recall (paLocal e.line) true true (decide (e.mask.length = 128)) s = .done s := by
    simp only [l1Recall, carrierOf, hh, List.find?_nil, List.foldl_nil, ht, if_true]
  simp only [sbPerform, List.isEmpty_eq_false_iff.mpr hm, hf, hown, hrecall, Bool.false_eq_true, if_false]

/-- The oldest entry, for the device's own memory and with all its contexts and generations let in, is performed. -/
theorem sbDrain_performs {rest : List SbEntry} {t : State} (he : (s.core p).sb = e :: rest) (hd : paDev e.line = s.devId)
    (hz : (∃ d, zoneOf (paLocal e.line) = .hbm d) ∨ ∃ d, zoneOf (paLocal e.line) = .pinned d)
    (hmay : ∀ t ∈ e.tags, mayEnter (s.onCore p fun c => { c with sb := rest }) t.1 t.2 false (paLocal e.line) = .ok)
    (ht : sbPerform p (e.only e.tags) (s.onCore p fun c => { c with sb := rest }) = .done t) : sbDrain p s = (t, true) := by
  have hok : sbMay (s.onCore p fun c => { c with sb := rest }) e .ok = e.tags := List.filter_eq_self.mpr fun t h => decide_eq_true (hmay t h)
  have hno (v : Admit) (hv : Admit.ok ≠ v) : sbMay (s.onCore p fun c => { c with sb := rest }) e v = [] :=
    List.filter_eq_nil_iff.mpr fun t h => by rw [hmay t h]; simpa using hv
  have hdev : (paDev e.line != (s.onCore p fun c => { c with sb := rest }).devId) = false := bne_eq_false_iff_eq.mpr hd
  have hdeny : sbDeny e [] t = t := rfl
  rcases hz with ⟨d, hz⟩ | ⟨d, hz⟩ <;>
    simp only [sbDrain, he, hdev, hz, hno .retry (by decide), hno .denied (by decide), hok, ht, hdeny, List.isEmpty_nil, Bool.not_true,
      Bool.false_eq_true, if_false]

end Drain

/-- The drained entry of the statement leaves its bytes at their home and the rest of the buffer behind. -/
theorem drain_leaves {s : State} {p : Nat} {e : SbEntry} {rest : List SbEntry} {full : Bool} {u : State} (hu : u = s.onCore p fun c => { c with sb := rest })
    (hfull : full = decide (e.cellsOf.length = 128)) (hf : fencedAt u (paLocal e.line) = false)
    (hr : e.region ≠ .normal ∨ homeDie (paLocal e.line) ≠ pDie p) (hh : holdersOf u (paLocal e.line) = [])
    (ht : tierBegin (paLocal e.line) true (decide (e.mask.length = 128)) u = none)
    (hp : ∀ o < 128, poisonAt (tierTouch (paLocal e.line) true full u) (paLocal e.line + o) = false) :
    ∃ t, sbPerform p (e.only e.tags) u = .done t ∧ (t.core p).sb = rest ∧
      ∀ x, t.mem.get x = if paLocal e.line ≤ x ∧ x < paLocal e.line + 128 ∧ x - paLocal e.line ∈ e.cellsOf.map (·.1)
        then e.bytes.get (x - paLocal e.line) else s.mem.get x := by
  have hsb : (u.core p).sb = rest := by rw [hu, core_onCore_same]
  have hmem : u.mem = s.mem := by rw [hu]; rfl
  obtain ⟨org, owners, honly⟩ := only_tags e
  rw [honly]
  by_cases hm : e.mask = []
  · refine ⟨u, by simp [sbPerform, hm], hsb, fun x => ?_⟩
    simp [cellsOf_of_mask_nil hm, hmem]
  · subst hfull
    have hmet : (homeWrite (paLocal e.line) e.cellsOf [] u).2 = false := by rw [homeWrite_of_sound hp]
    have hcores : (homeWrite (paLocal e.line) e.cellsOf [] u).1.cores = u.cores :=
      (congrArg State.cores (homeWrite_sansMemory (paLocal e.line) e.cellsOf [] u) :)
    obtain ⟨hkmem, hkcores⟩ := storeKills_keeps (paLocal e.line) e.thr (homeWrite (paLocal e.line) e.cellsOf [] u).1
    refine ⟨storeKills (paLocal e.line) e.thr (homeWrite (paLocal e.line) e.cellsOf [] u).1, ?_, ?_, fun x => ?_⟩
    · rw [sbPerform_home (e := { e with org := org, owners := owners }) hm hf hr hh ht]
      refine congrArg (fun t => L1Ans.done (storeKills _ _ t)) (if_neg ?_)
      exact fun hmet' => Bool.false_ne_true (hmet.symm.trans hmet')
    · rw [State.core, hkcores, hcores, ← State.core, hsb]
    · rw [hkmem, homeWrite_mem_get e.bytes.get (fun x hx => (mem_cellsOf hx).1) (fun x hx => (mem_cellsOf hx).2) hp, hmem]

/-- Settles O26: parks without faulting pages, and drains to a home that no L1 and no poison stands before. -/
theorem parksAndStoreDrainsComplete : Obligations.ParksAndStoreDrainsComplete := by
  intro s
  refine ⟨fun core slot pk hc hp hpages => ?park, fun p e rest full u hu hq hpwr he hd hfull hz hmay hf hr hh ht hp => ?drain⟩
  case park =>
    obtain ⟨u, hu, hpark⟩ := parkNow_parks hp hpages
    have hexec : exec (.groupPark core slot) s = .next (parkNow (gKey core slot) s) := congrArg Host.Outcome.next (if_pos hc)
    rw [hexec, hpark]
    refine ⟨_, rfl, fun hpol => ?_, fun hpol => ?_⟩
    · rw [if_neg hpol, hu]
      exact ⟨rfl, rfl, rfl, fun l => by rw [parked_thread], rfl, rfl⟩
    · rw [if_pos hpol]
      obtain ⟨hempty, hstatus⟩ := groupEnd_slot (s := u) (k := gKey core slot) stFault (by rw [hu]; exact GStage.noConfusion)
      rw [hu] at hstatus
      exact ⟨hempty, hstatus⟩
  case drain =>
    obtain ⟨t, hperf, hsb, hmem⟩ := drain_leaves hu hfull hf hr hh ht hp
    refine ⟨t, ?_, hsb, hmem⟩
    subst hu
    show execStoreBufferDrain p s = _
    rw [execStoreBufferDrain, if_pos (by simp [hq, hpwr]), sbDrain_performs he hd hz hmay hperf]

end Sys2Proof.Machine

/-! Walks, fault rings and decisions (O19): one equation per command, with what a walk that ends installs. -/
namespace Sys2Proof.Machine
open Sys2Proof

/-! ### Walks of the tables do not read the translation caches -/

section Cached
variable (s : State) (g : Xlat → Xlat)

theorem tabEntry_onXl (a : Nat) : tabEntry (s.onXl g) a = tabEntry s a := rfl

theorem tabWalk_onXl (va l a : Nat) : tabWalk (s.onXl g) va l a = tabWalk s va l a := by
  induction l generalizing a with
  | zero => rw [tabWalk, tabWalk, tabEntry_onXl]
  | succ l ih => rw [tabWalk, tabWalk, tabEntry_onXl, ih]

theorem tabRoot_onXl (d c : Nat) : tabRoot (s.onXl g) d c = tabRoot s d c := by
  rw [tabRoot, tabRoot, tabBase, tabBase]
  rfl

theorem walkLeaf_onXl (die c va : Nat) : walkLeaf (s.onXl g) die c va = walkLeaf s die c va := by
  rw [walkLeaf, walkLeaf, dieWalk, dieWalk, tabWalk_onXl, tabRoot_onXl]

end Cached

theorem tlbPut_mem (size free : Nat) (e : TlbE) (l : List TlbE) : e ∈ tlbPut size free e l := List.mem_cons_self ..

/-- A page that no TLB of the stream's die holds and no pending walk of the stream covers: a walk waits in the die's walk order. -/
theorem exec_tlbMissWalkStart {s : State} {stream ctx va need die : Nat} (hd : die = strmDie s.variant (strmOf stream)) (hst : strmOf stream ≠ .none_)
    (hl : (s.ctx ctx).live = true) (hp : s.pwr.state ≠ .fatal) (hm : ((s.xl.micro.get stream).any (·.covers ctx (s.ctx ctx).gen va)) = false)
    (hw : walkPends s stream ctx va = false) (hn : ((s.xl.die.get die).find? (·.covers ctx (s.ctx ctx).gen va)) = none) {w : Walk}
    (he : w = { stream := stream, ctx := ctx, gen := (s.ctx ctx).gen, va := va, need := need }) : exec (.tlbMissWalkStart stream ctx va need) s =
      .next (s.onXl fun y => { y with walks := y.walks.put die (walksGo (s.xl.walks.get die ++ [w])) }) := by
  subst hd he
  show execTlbMissWalkStart stream ctx va need s = _
  unfold execTlbMissWalkStart
  dsimp only
  rw [if_neg (by simp only [hst, hl, hp, hm, hw, decide_false, Bool.not_true, Bool.or_self, Bool.false_eq_true, not_false_eq_true]), hn]
  rfl

/-- A walk that ends leaves the walk order of its die, and the die's walk cache knows its way. -/
def walkEnded (die : Nat) (w : Walk) (s : State) : State :=
  let u := s.onXl fun y => { y with walks := y.walks.put die (walksGo ((s.xl.walks.get die).erase w)) }
  u.onXl fun y => { y with wcache := y.wcache.put die (walkCached u die w (y.wcache.get die)) }

/-- The translation that a walk which ends at a leaf installs. -/
def Walk.entry (w : Walk) (l : Leaf) : TlbE := { ctx := w.ctx, gen := w.gen, va := l.va, size := l.size, entry := l.entry }

section WalkEnd
variable {s : State} {stream die : Nat} {w : Walk} {l : Leaf}

theorem exec_pageWalkComplete (hd : die = strmDie s.variant (strmOf stream)) (hp : s.pwr.state ≠ .fatal)
    (hw : (s.xl.walks.get die).find? (fun w => w.stream = stream && w.busy) = some w) (hg : genOk s w.ctx w.gen = true)
    (hl : walkLeaf s die w.ctx w.va = some l) (hm : leafMalformed s l = false) (hn : l.entry.toNat &&& w.need = w.need) :
    exec (.pageWalkComplete stream) s = .next (dieFill die (w.entry l) (microFill stream (w.entry l) (walkEnded die w s))) := by
  have hl' (g₁ g₂ : Xlat → Xlat) : walkLeaf ((s.onXl g₁).onXl g₂) die w.ctx w.va = some l := by rw [walkLeaf_onXl, walkLeaf_onXl, hl]
  have hm' (g₁ g₂ : Xlat → Xlat) : leafMalformed ((s.onXl g₁).onXl g₂) l = false := hm
  have hg' (g : Xlat → Xlat) : (!genOk (s.onXl g) w.ctx w.gen) = false := congrArg not hg
  have hn' : (l.entry.toNat &&& w.need != w.need) = false := by rw [hn, bne_self_eq_false]
  subst hd
  show execPageWalkComplete stream s = _
  unfold execPageWalkComplete
  rw [if_neg hp, hw]
  dsimp only
  simp only [hg', hl', hm', hn', Bool.false_eq_true, if_false]
  rfl

end WalkEnd

theorem mem_microFill (n : Nat) (e : TlbE) (s : State) : e ∈ (microFill n e s).xl.micro.get n := by
  show e ∈ (Tbl.upd s.xl.micro n (tlbPut (microSize (strmOf n)) s.draw.toNat e)).get n
  rw [Tbl.get_upd_same]
  exact tlbPut_mem ..

theorem mem_dieFill (die : Nat) (e : TlbE) (s : State) : e ∈ (dieFill die e s).xl.die.get die := by
  show e ∈ (Tbl.upd s.xl.die die fun l => tlbPut dieWays s.draw.toNat e (l.filter (·.set = e.set)) ++ l.filter (·.set != e.set)).get die
  rw [Tbl.get_upd_same]
  exact List.mem_append_left _ (tlbPut_mem ..)

/-- A state without its translations and its count of free values. -/
def State.sansXlat (s : State) : State := { s with xl := {}, freeN := 0 }

theorem microFill_sansXlat (n : Nat) (e : TlbE) (s : State) : (microFill n e s).sansXlat = s.sansXlat := rfl
theorem dieFill_sansXlat (die : Nat) (e : TlbE) (s : State) : (dieFill die e s).sansXlat = s.sansXlat := rfl
theorem walkEnded_sansXlat (die : Nat) (w : Walk) (s : State) : (walkEnded die w s).sansXlat = s.sansXlat := rfl

theorem eq_of_sansXlat {s t : State} (h : t.sansXlat = s.sansXlat) : { t with xl := s.xl, freeN := s.freeN } = s :=
  (congrArg (fun u : State => { u with xl := s.xl, freeN := s.freeN }) h :)

/-! ### Decisions on stalled streams (R263) -/

/-- A decision under another generation than the context's takes effect on no stream. -/
theorem faultDecide_old {f c : Nat} {gen : BitVec 8} {s : State} (seq : Word) (upto abandon : Bool) (hg : genOk s c gen = false) :
    faultDecide f c gen seq upto abandon s = s := if_pos (congrArg not hg)

theorem exec_faultReplay (f c : Nat) (gen : BitVec 8) (seq : Word) (upto : Bool) (s : State) :
    exec (.faultReplay f c gen seq upto) s = .next (faultDecide f c gen seq upto false s) := rfl

theorem exec_faultAbandon (f c : Nat) (gen : BitVec 8) (seq : Word) (upto : Bool) (s : State) :
    exec (.faultAbandon f c gen seq upto) s = .next (faultDecide f c gen seq upto true s) := rfl

/-- The stall that a decision names, where it names one alone, is decided. -/
theorem faultDecide_one {f c : Nat} {gen : BitVec 8} {seq : Word} {t : Stall} {s : State} (abandon : Bool) (hg : genOk s c gen = true)
    (ht : s.xl.stalls.filter (fun t => t.fn = f && t.ctx = c && t.gen == gen && BitVec.ofNat 32 t.seq == seq) = [t]) :
    faultDecide f c gen seq false abandon s = stallDecide t abandon s := by
  have hmem : t ∈ s.xl.stalls := (List.mem_filter.mp (ht ▸ List.mem_singleton_self t)).1
  unfold faultDecide
  rw [if_neg (by rw [hg]; decide)]
  simp only [Bool.false_eq_true, if_false, ht, List.foldl_cons, List.foldl_nil]
  exact if_pos (List.contains_iff_mem.mpr hmem)

/-! ### Changes of mappings (R256 R259) -/

theorem exec_mappingChangeComplete {s : State} {id : Nat} {m : MapChange} (hm : s.xl.changes.find? (·.id = id) = some m) (hp : pinned s m = false)
    (ho : oldAccess s m = false) (hr : s.mgmt.ready = true) : exec (.mappingChangeComplete id) s =
      .next (pmiAnswer m.h m.code pOk m.detail.toNat m.payload (granRelease m.old (s.onXl fun y => { y with changes := y.changes.erase m }))) := by
  show execMappingChangeComplete id s = _
  unfold execMappingChangeComplete
  rw [hm]
  exact if_neg (by rw [hp, ho, hr]; decide)

/-! ### The fault ring (R262) -/

theorem exec_errFaultHeadWrite {f : Nat} (v : Word) (s : State) (hf : f < 64) :
    exec (.errFaultHeadWrite f v) s = .next (ringHead f .fault v s) := congrArg Host.Outcome.next (if_neg (Nat.not_le.mpr hf))

/-- Settles O19, command by command. -/
theorem translationEventsComplete : Obligations.TranslationEventsComplete := by
  intro s
  refine ⟨fun stream ctx va need die hd hst hl hp hm hw hn => exec_tlbMissWalkStart hd hst hl hp hm hw hn rfl,
    fun stream die w l hd hp hw hg hl hm hn => ⟨_, exec_pageWalkComplete hd hp hw hg hl hm hn, ?micro, ?die, ?leaves, ?stalls, ?rest⟩,
    fun f v hf hv => ?head, fun f v hf hv => ?headRefused, fun f c gen seq upto hg => ?old, fun f c gen seq t hg ht => ?one,
    fun id m hm hp ho hr => exec_mappingChangeComplete hm hp ho hr⟩
  case micro => exact mem_microFill stream (w.entry l) (walkEnded die w s)
  case die => exact mem_dieFill die (w.entry l) _
  case leaves => rfl
  case stalls => rfl
  case rest => exact eq_of_sansXlat (by rw [dieFill_sansXlat, microFill_sansXlat, walkEnded_sansXlat])
  case head => rw [exec_errFaultHeadWrite v s hf, ringHead]; exact congrArg Host.Outcome.next (if_pos hv)
  case headRefused =>
    rw [exec_errFaultHeadWrite v s hf, ringHead]
    exact congrArg Host.Outcome.next (if_neg fun h => Bool.false_ne_true (hv.symm.trans h))
  case old => rw [exec_faultReplay, exec_faultAbandon, faultDecide_old seq upto _ hg, faultDecide_old seq upto _ hg]; exact ⟨rfl, rfl⟩
  case one => rw [exec_faultReplay, exec_faultAbandon, faultDecide_one _ hg ht, faultDecide_one _ hg ht]; exact ⟨rfl, rfl⟩

end Sys2Proof.Machine

/-! Old translations (O55): what the raise of a generation leaves of the caches, and walks of another generation. -/
namespace Sys2Proof.Machine
open Sys2Proof

theorem OnlyResponds.xl {s t : State} (h : OnlyResponds s t) : t.xl = s.xl := (congrArg State.xl h.state :)

/-! ### The end of a reset (R257 R268 R390) -/

section Raise
variable (c : Nat) (s : State)

theorem raiseGen_ctx : (raiseGen c s).ctx c = { s.ctx c with gen := (s.ctx c).gen + 1, inReset := false } :=
  ctx_onCtx_same (dropOld c s) c fun x => { x with gen := x.gen + 1, inReset := false }

theorem raiseGen_micro (n : Nat) : (raiseGen c s).xl.micro.get n = (s.xl.micro.get n).filter (·.ctx != c) :=
  Tbl.get_mapAll s.xl.micro (List.filter (·.ctx != c)) rfl n

theorem raiseGen_die (d : Nat) : (raiseGen c s).xl.die.get d = (s.xl.die.get d).filter (·.ctx != c) :=
  Tbl.get_mapAll s.xl.die (List.filter (·.ctx != c)) rfl d

theorem raiseGen_wcache (d : Nat) : (raiseGen c s).xl.wcache.get d = (s.xl.wcache.get d).filter (·.ctx != c) :=
  Tbl.get_mapAll s.xl.wcache (List.filter (·.ctx != c)) rfl d

/-- Beyond the raise of the generation, the end of a reset forgets the request that it answers. -/
theorem ctxResetEnd_onlyResponds : OnlyResponds ((raiseGen c s).onCtx c fun x => { x with resetReq := none }) (ctxResetEnd c s) := by
  unfold ctxResetEnd
  dsimp only
  split
  · exact .refl _
  · exact pmiAnswer_onlyResponds ..

theorem ctxResetEnd_ctx : (ctxResetEnd c s).ctx c = { s.ctx c with gen := (s.ctx c).gen + 1, inReset := false, resetReq := none } := by
  rw [State.ctx, (ctxResetEnd_onlyResponds c s).ctxs, ← State.ctx, ctx_onCtx_same, raiseGen_ctx]

theorem ctxResetEnd_xl : (ctxResetEnd c s).xl = (raiseGen c s).xl := (ctxResetEnd_onlyResponds c s).xl

theorem ctxResetEnd_micro {n : Nat} {e : TlbE} (he : e ∈ (ctxResetEnd c s).xl.micro.get n) : e.ctx ≠ c := by
  rw [ctxResetEnd_xl, raiseGen_micro] at he
  exact bne_iff_ne.mp (List.mem_filter.mp he).2

theorem ctxResetEnd_die {d : Nat} {e : TlbE} (he : e ∈ (ctxResetEnd c s).xl.die.get d) : e.ctx ≠ c := by
  rw [ctxResetEnd_xl, raiseGen_die] at he
  exact bne_iff_ne.mp (List.mem_filter.mp he).2

theorem ctxResetEnd_wcache {d : Nat} {e : WalkE} (he : e ∈ (ctxResetEnd c s).xl.wcache.get d) : e.ctx ≠ c := by
  rw [ctxResetEnd_xl, raiseGen_wcache] at he
  exact bne_iff_ne.mp (List.mem_filter.mp he).2

theorem exec_generationRaise {c : Nat} {s : State} (h : (s.ctx c).inReset = true) : exec (.generationRaise c) s = .next (ctxResetEnd c s) :=
  congrArg Host.Outcome.next (if_pos h)

end Raise

/-- A walk whose generation is over gives up its walker and installs nothing (R257). -/
theorem pageWalkComplete_old {stream : Nat} {s : State} {w : Walk}
    (hw : (s.xl.walks.get (strmDie s.variant (strmOf stream))).find? (fun w => w.stream = stream && w.busy) = some w)
    (hg : (s.ctx w.ctx).gen ≠ w.gen) : ∃ t, exec (.pageWalkComplete stream) s = .next t ∧
      ∃ ws, t = s.onXl fun y => { y with walks := ws } := by
  have hold : genOk s w.ctx w.gen = false := by simp [genOk, hg]
  show ∃ t, execPageWalkComplete stream s = .next t ∧ _
  unfold execPageWalkComplete
  by_cases hp : s.pwr.state = .fatal
  · exact ⟨s, if_pos hp, s.xl.walks, rfl⟩
  · rw [if_neg hp, hw]
    dsimp only
    rw [if_pos (by rw [Bool.not_eq_true']; exact hold)]
    exact ⟨_, rfl, _, rfl⟩

/-- Settles O55: the raise filters the three caches by context, and an old walk changes the walk order alone. -/
theorem oldTranslationsAreDropped : Obligations.OldTranslationsAreDropped := by
  intro s
  refine ⟨fun c h => ⟨_, exec_generationRaise h, ?gen, fun k e he => .inl (ctxResetEnd_micro c s he), fun d e he => .inl (ctxResetEnd_die c s he),
    fun d e he => .inl (ctxResetEnd_wcache c s he)⟩, fun stream w hw hg => ?old⟩
  case gen => rw [ctxResetEnd_ctx]
  case old =>
    obtain ⟨t, ht, ws, rfl⟩ := pageWalkComplete_old hw hg
    exact ⟨_, ht, rfl, rfl, rfl⟩

end Sys2Proof.Machine

/-! FATAL, the dump and the error ring (O37): one equation per command, with what a record and a warm restart leave. -/
namespace Sys2Proof.Machine
open Sys2Proof

/-! ### FATAL (R396 R398 R401) -/

theorem errAdd_ctxs (r : ErrRec) (s : State) : (errAdd r s).ctxs = s.ctxs := (congrArg State.ctxs (errAdd_onlyRecords r s).state :)
theorem errAdd_pwr (r : ErrRec) (s : State) : (errAdd r s).pwr = s.pwr := (congrArg State.pwr (errAdd_onlyRecords r s).state :)

/-- What identifies the next record and the dump: the sequence number, and whether there is an unreleased dump. -/
def ErrUnit.marks (e : ErrUnit) : Nat × Bool := (e.seq, e.valid)

theorem errPut_marks (s : State) (r : ErrRec) : (errPut s r).err.marks = s.err.marks := by
  simp only [errPut, ErrUnit.marks, State.hostWr, State.wr, State.onErr_frame, State.onMem_frame]

theorem errFlush_marks (s : State) : (errFlush s).err.marks = s.err.marks := by
  unfold errFlush
  refine (foldl_keeps (fun s : State => s.err.marks) (fun s r => ?_) _ _).trans ?_
  · split
    · exact errPut_marks ..
    · simp only [ErrUnit.marks, State.onErr_frame]
  · simp only [ErrUnit.marks, State.onErr_frame]

theorem errHold_marks_of_fatal {r : ErrRec} (s : State) (h : r.sev = sevFatal) :
    (errHold s r).err.marks = ((s.err.seq + 1) % 2 ^ 32, s.err.valid) := by
  unfold errHold
  rw [if_pos (by rw [h]; rfl)]
  rfl

theorem full_sev (s : State) (r : ErrRec) : (r.full s).sev = r.sev := by
  unfold ErrRec.full
  split <;> rfl

/-- A FATAL record is never merged: it takes the next sequence number. -/
theorem errAdd_marks_of_fatal {r : ErrRec} (s : State) (h : r.sev = sevFatal) :
    (errAdd r s).err.marks = ((s.err.seq + 1) % 2 ^ 32, s.err.valid) := by
  unfold errAdd
  rw [errFlush_marks]
  exact errHold_marks_of_fatal s ((full_sev s r).trans h)

theorem onErr_congr {s : State} {f g : ErrUnit → ErrUnit} (h : f s.err = g s.err) : s.onErr f = s.onErr g :=
  congrArg (fun e => { s with err := e }) h

/-- A copy that starts is a mark of the error unit alone. -/
theorem dumpStart_eq (s : State) : ∃ b, dumpStart s = s.onErr fun e => { e with copying := b } := by
  unfold dumpStart
  dsimp only
  by_cases h : (decide (s.pwr.state = .fatal) && s.err.valid && !s.err.copied && s.err.dumpAddr != 0 && ((s.pcie.get 0).up || (s.pcie.get 1).up)) = true
  · exact ⟨true, onErr_congr (if_pos h)⟩
  · exact ⟨s.err.copying, onErr_congr (if_neg h)⟩

/-- The device is FATAL, and its record is made. -/
def fatalRecorded (r : ErrRec) (s : State) : State :=
  errAdd { r with sev := sevFatal } (s.onPwr fun p => { p with state := .fatal, faultN := true })

section Fatal
variable (r : ErrRec) (s : State)

theorem fatalRecorded_pwr : (fatalRecorded r s).pwr = { s.pwr with state := .fatal, faultN := true } := errAdd_pwr ..

theorem fatalRecorded_ctxs : (fatalRecorded r s).ctxs = s.ctxs := errAdd_ctxs ..

theorem fatalRecorded_marks : (fatalRecorded r s).err.marks = ((s.err.seq + 1) % 2 ^ 32, s.err.valid) := by
  rw [fatalRecorded, errAdd_marks_of_fatal _ rfl]
  simp only [State.onPwr_frame]

theorem fatalRecorded_seq : (fatalRecorded r s).err.seq = (s.err.seq + 1) % 2 ^ 32 := congrArg Prod.fst (fatalRecorded_marks r s)
theorem fatalRecorded_valid : (fatalRecorded r s).err.valid = s.err.valid := congrArg Prod.snd (fatalRecorded_marks r s)

/-- The dump is taken under the sequence number of the record. -/
theorem fatalEnter_eq : fatalEnter r s = if (fatalRecorded r s).err.valid then fatalRecorded r s
    else dumpStart ((dumpWrite (fatalRecorded r s)).onErr fun e =>
      { e with valid := true, copied := false, copying := false, dumpSeq := BitVec.ofNat 32 s.err.seq }) := rfl

theorem dumpWrite_keeps : (dumpWrite s).pwr = s.pwr ∧ (dumpWrite s).err = s.err ∧ (dumpWrite s).ctxs = s.ctxs := by
  simp only [dumpWrite, State.wr, State.onFreeN_frame, State.onMem_frame, and_self]

theorem fatalEnter_leaves : (fatalEnter r s).pwr.state = .fatal ∧ (fatalEnter r s).pwr.faultN = true ∧
    (fatalEnter r s).err.seq = (s.err.seq + 1) % 2 ^ 32 ∧ (fatalEnter r s).err.valid = true ∧
    (s.err.valid = false → (fatalEnter r s).err.dumpSeq = BitVec.ofNat 32 s.err.seq ∧ (fatalEnter r s).err.copied = false) ∧
    (fatalEnter r s).ctxs = s.ctxs := by
  rw [fatalEnter_eq, fatalRecorded_valid]
  cases h : s.err.valid with
  | true =>
    rw [if_pos rfl, fatalRecorded_pwr, fatalRecorded_seq, fatalRecorded_valid, fatalRecorded_ctxs]
    exact ⟨rfl, rfl, rfl, h, Bool.noConfusion, rfl⟩
  | false =>
    rw [if_neg Bool.false_ne_true]
    obtain ⟨b, hb⟩ := dumpStart_eq ((dumpWrite (fatalRecorded r s)).onErr fun e =>
      { e with valid := true, copied := false, copying := false, dumpSeq := BitVec.ofNat 32 s.err.seq })
    obtain ⟨hp, he, hc⟩ := dumpWrite_keeps (fatalRecorded r s)
    rw [hb]
    simp only [State.onErr_frame, hp, he, hc, fatalRecorded_pwr, fatalRecorded_seq, fatalRecorded_ctxs, implies_true, and_self]

end Fatal

theorem exec_fatalEnter {s : State} (ev : Nat) (hm : s.mgmt.running = true) (hp : s.pwr.state ≠ .fatal) : exec (.fatalEnter ev) s =
    .next (fatalEnter (if ev = 0 then plowinRec s clMgmt sevFatal else { source := srcPower, cls := clPower, sev := sevFatal, die := 0x20 }) s) := by
  show execFatalEnter ev s = _
  unfold execFatalEnter
  rw [if_neg (by simp [hm, hp])]
  split <;> rfl

/-! ### The dump and the warm restart (R396 R397) -/

/-- The error unit once the dump's bytes lie in the host's buffer. -/
def ErrUnit.dumpCopied (e : ErrUnit) : ErrUnit := { e with copying := false, copied := true }

theorem exec_dumpCopyComplete {s : State} (hc : s.err.copying = true) (hl : anyLink s = true) {u : State}
    (hu : u = (s.hostWr (4096 * s.err.dumpAddr) (s.rd (dumpBase s) dumpLen)).onErr ErrUnit.dumpCopied) :
    exec .dumpCopyComplete s = .next (if s.err.auto then warmRestart u else u) := by
  have ha : u.err.auto = s.err.auto := by
    simp only [hu, ErrUnit.dumpCopied, State.hostWr, State.wr, State.onErr_frame, State.onMem_frame]
  have hexec : exec .dumpCopyComplete s = .next (if u.err.auto then warmRestart u else u) := by
    rw [hu]
    exact if_neg (by rw [hc, hl]; decide)
  rw [hexec, ha]

section Restart
variable {s : State}

theorem warmRestart_of_fatal (h : s.pwr.state = .fatal) :
    warmRestart s = (islandsUp (islandsReset true s)).onPwr fun p => { p with afterStop := true } := if_pos h

theorem warmRestart_leaves (h : s.pwr.state = .fatal) : (warmRestart s).pwr.state = .starting ∧ (warmRestart s).pwr.steps = 4 ∧
    (warmRestart s).groups = [] ∧ (warmRestart s).saved = [] ∧ (warmRestart s).qs = [] ∧ (warmRestart s).xl = {} ∧ (warmRestart s).sync = {} ∧
    (warmRestart s).err = s.err ∧ (warmRestart s).tsc.time = s.tsc.time := by
  rw [warmRestart_of_fatal h]
  exact ⟨rfl, rfl, rfl, rfl, rfl, rfl, rfl, rfl, rfl⟩

theorem warmRestart_ctx (h : s.pwr.state = .fatal) (c : Nat) : (warmRestart s).ctx c = (s.ctx c).kept := by
  rw [warmRestart_of_fatal h]
  exact Tbl.get_mapAll s.ctxs Ctx.kept rfl c

theorem warmRestart_core (h : s.pwr.state = .fatal) (p : Nat) : (warmRestart s).core p = (s.core p).kept := by
  rw [warmRestart_of_fatal h]
  exact Tbl.get_mapAll s.cores Core.kept rfl p

theorem warmRestart_mem_get (h : s.pwr.state = .fatal) {a : Nat} (ha : hostBase ≤ a ∨ dumpBase s ≤ a ∧ a < dumpBase s + dumpLen) :
    (warmRestart s).mem.get a = s.mem.get a := by
  rw [warmRestart_of_fatal h]
  refine (Tbl.get_filter_key s.mem (fun x => decide (hostBase ≤ x) || true && decide (dumpBase s ≤ x) && decide (x < dumpBase s + dumpLen)) a).trans (if_pos ?_)
  simpa using ha

end Restart

/-! ### Registers of the error unit (R397 R401) -/

section Registers
variable {s : State} (hr : regsMay s = true)
include hr

theorem exec_warmRestart : exec .warmRestart s = .next (warmRestart s) := congrArg Host.Outcome.next (if_pos hr)
theorem exec_release : exec .release s = .next (dumpRelease s) := congrArg Host.Outcome.next (if_pos hr)
theorem exec_errDumpCtlWrite (v : DWord) : exec (.errDumpCtlWrite v) s = .next (dumpCtlWrite v true true s) := congrArg Host.Outcome.next (if_pos hr)
theorem exec_errEringBaseWrite (v : DWord) : exec (.errEringBaseWrite v) s = .next (eringBaseWrite (.fn 0) v s) := congrArg Host.Outcome.next (if_pos hr)
theorem exec_errEringHeadWrite (v : Word) : exec (.errEringHeadWrite v) s = .next (eringHeadWrite (.fn 0) v s) := congrArg Host.Outcome.next (if_pos hr)

end Registers

/-- A write of both halves of ERR_DUMP_CTL takes AUTO_RESTART and ADDR, then RELEASE and WARM_RESTART act. -/
theorem dumpCtlWrite_whole (v : DWord) (s : State) {u w : State}
    (hu : u = dumpStart (s.onErr fun e => { e with auto := decide (v.toNat % 2 = 1), dumpAddr := v.toNat / 2 ^ 12 }))
    (hw : w = if v.toNat / 4 % 2 = 1 then dumpRelease u else u) :
    dumpCtlWrite v true true s = if v.toNat / 2 % 2 = 1 then warmRestart w else w := by
  have hv : v.toNat % 2 ^ 32 + v.toNat / 2 ^ 32 * 2 ^ 32 = v.toNat := Nat.mod_add_div' ..
  unfold dumpCtlWrite
  simp only [if_true, hv, Bool.true_and, decide_eq_true_eq, ← hu, ← hw]

/-- Settles O37, command by command. -/
theorem fatalAndErrorRingComplete : Obligations.FatalAndErrorRingComplete := by
  intro s
  refine ⟨fun ev hm hp => ⟨_, exec_fatalEnter ev hm hp, rfl, fatalEnter_leaves ..⟩, fun hc hl u hu => exec_dumpCopyComplete hc hl hu,
    fun hr hp => ⟨_, exec_warmRestart hr, rfl, ?restart⟩, fun hr => exec_release hr,
    fun v hr u hu w hw => by rw [exec_errDumpCtlWrite hr, dumpCtlWrite_whole v s hu hw], fun v hr => ⟨fun hv moved hm => ?base, fun hv => ?baseRefused⟩,
    fun v hr => ?head⟩
  case restart =>
    obtain ⟨hstate, hsteps, hgroups, hsaved, hqs, hxl, hsync, herr, htime⟩ := warmRestart_leaves hp
    simp only [warmRestart_ctx hp, warmRestart_core hp]
    exact ⟨hstate, hsteps, hgroups, hsaved, hqs, hxl, hsync, fun c => ⟨rfl, rfl⟩, fun p => ⟨rfl, rfl, rfl⟩, herr, htime,
      fun a ha => warmRestart_mem_get hp ha⟩
  case base =>
    have hmoved : (s.err.base.toNat / 2 ^ 12 != v.toNat / 2 ^ 12) = moved := by rw [hm, Bool.eq_iff_iff, bne_iff_ne, decide_eq_true_eq]
    rw [exec_errEringBaseWrite hr, eringBaseWrite, if_neg (Nat.not_lt.mpr hv)]
    dsimp only
    rw [hmoved]
  case baseRefused => rw [exec_errEringBaseWrite hr, eringBaseWrite, if_pos hv]
  case head =>
    rw [exec_errEringHeadWrite hr, eringHeadWrite]
    simp only [headOk_iff]

end Sys2Proof.Machine

/-! Contexts over the management interface (O30): one equation per request that nothing refuses. No work that a context gives up when it is
destroyed changes a generation, so the one raise at its end is all. -/
namespace Sys2Proof.Machine
open Sys2Proof

/-! ### Generations -/

/-- The generation of a context ID. -/
def State.genOf (c : Nat) (s : State) : BitVec 8 := (s.ctx c).gen

section Gen
variable (c : Nat)

theorem onCtx_genOf {g : Ctx → Ctx} (hg : ∀ x, (g x).gen = x.gen) (d : Nat) (s : State) : (s.onCtx d g).genOf c = s.genOf c := by
  show (Tbl.get (Tbl.upd s.ctxs d g) c).gen = _
  rw [Tbl.get_upd]
  split
  · next h => rw [hg, h]; rfl
  · rfl

/-! #### Updates of the other fields -/

section Updates
variable (s : State) (k : Nat)

@[simp] theorem onCores_genOf (g : _ → _) : (s.onCores g).genOf c = s.genOf c := rfl
@[simp] theorem onGroups_genOf (g : _ → _) : (s.onGroups g).genOf c = s.genOf c := rfl
@[simp] theorem onSaved_genOf (g : _ → _) : (s.onSaved g).genOf c = s.genOf c := rfl
@[simp] theorem onMem_genOf (g : _ → _) : (s.onMem g).genOf c = s.genOf c := rfl
@[simp] theorem onTier_genOf (g : _ → _) : (s.onTier g).genOf c = s.genOf c := rfl
@[simp] theorem onXl_genOf (g : _ → _) : (s.onXl g).genOf c = s.genOf c := rfl
@[simp] theorem onSync_genOf (g : _ → _) : (s.onSync g).genOf c = s.genOf c := rfl
@[simp] theorem onQs_genOf (g : _ → _) : (s.onQs g).genOf c = s.genOf c := rfl
@[simp] theorem onLaunches_genOf (g : _ → _) : (s.onLaunches g).genOf c = s.genOf c := rfl
@[simp] theorem onFab_genOf (g : _ → _) : (s.onFab g).genOf c = s.genOf c := rfl
@[simp] theorem onMsix_genOf (g : _ → _) : (s.onMsix g).genOf c = s.genOf c := rfl
@[simp] theorem onCore_genOf (g : _ → _) : (s.onCore k g).genOf c = s.genOf c := rfl
@[simp] theorem onGroup_genOf (g : _ → _) : (s.onGroup k g).genOf c = s.genOf c := rfl
@[simp] theorem onCtr_genOf (g : _ → _) : (s.onCtr k g).genOf c = s.genOf c := rfl
@[simp] theorem onFence_genOf (g : _ → _) : (s.onFence k g).genOf c = s.genOf c := rfl
@[simp] theorem onQueue_genOf (g : _ → _) : (s.onQueue k g).genOf c = s.genOf c := rfl
@[simp] theorem onEngine_genOf (g : _ → _) : (s.onEngine k g).genOf c = s.genOf c := rfl
@[simp] theorem onFn_genOf (g : _ → _) : (s.onFn k g).genOf c = s.genOf c := rfl
@[simp] theorem onLaunch_genOf (g : _ → _) : (s.onLaunch k g).genOf c = s.genOf c := rfl
@[simp] theorem onIdent_genOf (g : _ → _) : (s.onIdent k g).genOf c = s.genOf c := rfl
@[simp] theorem onRing_genOf (i : RingId) (g : Ring → Ring) : (s.onRing k i g).genOf c = s.genOf c := rfl
@[simp] theorem onSyncDie_genOf (g : _ → _) : (s.onSyncDie k g).genOf c = s.genOf c := rfl
@[simp] theorem hostWr_genOf (l : List Byte) : (s.hostWr k l).genOf c = s.genOf c := rfl
@[simp] theorem wr_genOf (l : List Byte) : (s.wr k l).genOf c = s.genOf c := rfl
@[simp] theorem drawn_genOf : s.drawn.genOf c = s.genOf c := rfl

end Updates

theorem forAll_genOf {α : Type} {f : α → State → State} (hf : ∀ x s, (f x s).genOf c = s.genOf c) (l : List α) (s : State) :
    (forAll l f s).genOf c = s.genOf c := foldl_keeps (State.genOf c) (fun s x => hf x s) l s

theorem foldl_genOf {α : Type} {f : State → α → State} (hf : ∀ s x, (f s x).genOf c = s.genOf c) (l : List α) (s : State) :
    (l.foldl f s).genOf c = s.genOf c := foldl_keeps (State.genOf c) hf l s

@[simp] theorem acctAdd_genOf (d off n : Nat) (s : State) : (acctAdd d off n s).genOf c = s.genOf c :=
  onCtx_genOf c (g := fun x => { x with acct := x.acct.upd off (· + n) }) (fun _ => rfl) d s

theorem genOf_of_sansMemory {s t : State} (h : t.sansMemory = s.sansMemory) : t.genOf c = s.genOf c := (congrArg (State.genOf c) h :)

@[simp] theorem errAdd_genOf (r : ErrRec) (s : State) : (errAdd r s).genOf c = s.genOf c := genOf_of_sansMemory c (errAdd_sansMemory r s)

/-! #### Records and interrupts -/

@[simp] theorem msixRaise_genOf (f vec : Nat) (s : State) : (msixRaise f vec s).genOf c = s.genOf c := by
  unfold msixRaise
  split <;> simp

@[simp] theorem ringPut_genOf (f : Nat) (i : RingId) (irq : Bool) (b : List Byte) (s : State) : (ringPut f i irq b s).genOf c = s.genOf c := by
  simp [ringPut]

@[simp] theorem ringFlush_genOf (f : Nat) (i : RingId) (s : State) : (ringFlush f i s).genOf c = s.genOf c := by
  unfold ringFlush
  rw [foldl_genOf c fun s x => ?_, onRing_genOf]
  dsimp only
  split <;> simp

@[simp] theorem ringPush_genOf (f : Nat) (i : RingId) (d : Nat) (irq : Bool) (b : List Byte) (s : State) :
    (ringPush f i d irq b s).genOf c = s.genOf c := by simp [ringPush]

@[simp] theorem faultAdd_genOf (st : Stall) (type reason access slot unit queue : Nat) (s : State) :
    (faultAdd st type reason access slot unit queue s).genOf c = s.genOf c := by
  unfold faultAdd
  dsimp only
  split <;> simp

/-! #### Waits and fences -/

@[simp] theorem notifyPush_genOf (w : Wait) (code : Nat) (v : DWord) (s : State) : (notifyPush w code v s).genOf c = s.genOf c := by
  simp [notifyPush]

@[simp] theorem waitValue_genOf (w : Wait) (code : Nat) (v : DWord) (s : State) : (waitValue w code v s).2.genOf c = s.genOf c := by
  unfold waitValue
  split <;> simp

@[simp] theorem latchLane_genOf (id lane code : Nat) (v : DWord) (s : State) : (latchLane id lane code v s).genOf c = s.genOf c := by
  simp [latchLane]

@[simp] theorem waitPktEnd_genOf (k code : Nat) (v : DWord) (s : State) : (waitPktEnd k code v s).genOf c = s.genOf c := by
  simp [waitPktEnd]

@[simp] theorem releaseLanes_genOf (w : Wait) (lanes : List Nat) (code : Nat) (v : DWord) (s : State) :
    (releaseLanes w lanes code v s).genOf c = s.genOf c := by
  unfold releaseLanes
  dsimp only
  split
  · rw [foldl_genOf c fun s i => latchLane_genOf .., waitValue_genOf]
  · simp
  · simp
  · simp [fabOut]

@[simp] theorem release_genOf (w : Wait) (code : Nat) (v : DWord) (s : State) : (release w code v s).genOf c = s.genOf c := by
  simp [release, dropWait]

/-- Waits on a counter that ends are released. -/
@[simp] theorem foldl_release_genOf (code : Nat) (v : DWord) (ws : List Wait) (s : State) :
    (ws.foldl (fun s w => release w code v (s.onSync fun y => { y with queued := y.queued.erase w })) s).genOf c = s.genOf c :=
  foldl_genOf c (fun s w => by simp) ws s

@[simp] theorem fenceSlots_genOf (k : Nat) (s : State) : (fenceSlots k s).genOf c = s.genOf c := by simp [fenceSlots]

@[simp] theorem fencesFree_genOf (ws : List Wait) (s : State) : (fencesFree ws s).genOf c = s.genOf c :=
  foldl_genOf c (fun s w => by split <;> simp) ws s

@[simp] theorem fenceFire_genOf (k : Nat) (s : State) : (fenceFire k s).genOf c = s.genOf c := by
  unfold fenceFire
  dsimp only
  split
  · split <;> simp
  · rfl

@[simp] theorem dropWaits_genOf (who : WaitWho) (id : Nat) (s : State) : (dropWaits who id s).genOf c = s.genOf c := by simp [dropWaits]

@[simp] theorem abandonCtrs_genOf (d : Nat) (s : State) : (abandonCtrs d s).genOf c = s.genOf c := by
  refine foldl_genOf c (fun s x => ?_) _ s
  dsimp only
  split
  · split <;> simp
  · rfl

@[simp] theorem abandonFences_genOf (d : Nat) (s : State) : (abandonFences d s).genOf c = s.genOf c := by
  unfold abandonFences
  split
  · rfl
  · dsimp only
    rw [onMem_genOf, onSync_genOf, foldl_genOf c fun s x => fenceFire_genOf .., foldl_genOf c fun s w => release_genOf ..]

@[simp] theorem removeWaits_genOf (d : Nat) (s : State) : (removeWaits d s).genOf c = s.genOf c := by
  unfold removeWaits
  dsimp only
  rw [foldl_genOf c fun s w => ?_, fencesFree_genOf, onSync_genOf]
  split <;> simp

@[simp] theorem ctrFree_genOf (i : Nat) (s : State) : (ctrFree i s).genOf c = s.genOf c := by simp [ctrFree]

@[simp] theorem freeCtrs_genOf (d : Nat) (s : State) : (freeCtrs d s).genOf c = s.genOf c := forAll_genOf c (ctrFree_genOf c) _ s

/-! #### Requests to other devices, packets and queues -/

@[simp] theorem fabSend_genOf (k : FPkt) (s : State) : (fabSend k s).genOf c = s.genOf c := by simp [fabSend, fabOut]

@[simp] theorem reqSend_genOf (r : Rreq) (s : State) : (reqSend r s).genOf c = s.genOf c := by
  unfold reqSend
  dsimp only
  split <;> simp

@[simp] theorem reqRelease_genOf (e n : Nat) (s : State) : (reqRelease e n s).genOf c = s.genOf c := by
  induction n generalizing s with
  | zero => rfl
  | succ n ih =>
    unfold reqRelease
    split
    · rfl
    · split
      · rfl
      · simp [ih]

@[simp] theorem dropReqs_genOf (k : Nat) (s : State) : (dropReqs k s).genOf c = s.genOf c := by
  unfold dropReqs
  dsimp only
  split <;> simp

@[simp] theorem freeRuns_genOf (e : Nat) (l : List Pkt) (s : State) : (freeRuns e l s).genOf c = s.genOf c := by simp [freeRuns]

@[simp] theorem stopPkts_genOf (k st : Nat) (s : State) : (stopPkts k st s).genOf c = s.genOf c := by
  unfold stopPkts
  dsimp only
  rw [foldl_genOf c fun s p => ?_]
  · simp
  · split <;> simp

@[simp] theorem queueCancel_genOf (k : Nat) (s : State) : (queueCancel k s).genOf c = s.genOf c := by
  simp [queueCancel, dropQueueStalls]

/-! #### Groups -/

@[simp] theorem slotAdd_genOf (g : Group) (s : State) : (slotAdd g s).genOf c = s.genOf c := by
  unfold slotAdd
  split <;> simp

@[simp] theorem groupEnd_genOf (k status : Nat) (s : State) : (groupEnd k status s).genOf c = s.genOf c := by
  unfold groupEnd
  dsimp only
  split
  · rfl
  · simp only [roomWaits, dropStalls, dropRsvs, removeGroupWaits, onLaunches_genOf, onGroups_genOf, slotAdd_genOf, onLaunch_genOf, onXl_genOf,
      onTier_genOf, onGroup_genOf, dropWaits_genOf]
    split
    · split <;> simp [dropRcache, arrRelease, lmSend]
    · rfl

@[simp] theorem removeGroup_genOf (k : Nat) (s : State) : (removeGroup k s).genOf c = s.genOf c := by
  unfold removeGroup
  dsimp only
  split
  · split <;> simp
  · simp

@[simp] theorem savedEnd_genOf (id status : Nat) (s : State) : (savedEnd id status s).genOf c = s.genOf c := by
  unfold savedEnd
  split
  · rfl
  · simp [dropStalls, saveFree, removeGroupWaits, onCtx_genOf]

@[simp] theorem removeWork_genOf (d : Nat) (s : State) : (removeWork d s).genOf c = s.genOf c := by
  unfold removeWork
  dsimp only
  split <;> simp [forAll_genOf, removeGroup_genOf, savedEnd_genOf, queueCancel_genOf]

@[simp] theorem dropOld_genOf (d : Nat) (s : State) : (dropOld d s).genOf c = s.genOf c := by simp [dropOld]

/-! #### Writes of completion records -/

@[simp] theorem killRsv_genOf (line : Nat) (home l1 : Bool) (keep : Option (Nat × Nat)) (s : State) :
    (killRsv line home l1 keep s).genOf c = s.genOf c := by
  unfold killRsv
  dsimp only
  split <;> simp

@[simp] theorem homeWrite_genOf (line : Nat) (bs : List (Nat × Byte)) (pois : List Nat) (s : State) :
    (homeWrite line bs pois s).1.genOf c = s.genOf c := genOf_of_sansMemory c (homeWrite_sansMemory ..)

@[simp] theorem fencedRec_genOf (a : Nat) (s : State) : (fencedRec a s).genOf c = s.genOf c := genOf_of_sansMemory c (fencedRec_sansMemory ..)

@[simp] theorem bulkWriteLine_genOf (line : Nat) (bs : List (Nat × Byte)) (pois : List Nat) (s : State) :
    (bulkWriteLine line bs pois s).1.genOf c = s.genOf c := by simp [bulkWriteLine]

@[simp] theorem bulkWrite_genOf (a : Nat) (l : List Byte) (pois : List Nat) (s : State) : (bulkWrite a l pois s).1.genOf c = s.genOf c := by
  unfold bulkWrite
  split
  · simp
  · refine foldl_keeps (fun x : State × Bool => x.1.genOf c) (fun x y => ?_) _ (s, false)
    obtain ⟨t, met⟩ := x
    exact bulkWriteLine_genOf ..

@[simp] theorem bulkWr_genOf (b : Bulk) (grp : Option Nat) (va : Nat) (l : List Byte) (pois : List Nat) (s : State) :
    (bulkWr b grp va l pois s).1.genOf c = s.genOf c := by
  refine foldl_keeps (fun x : State × Bool => x.1.genOf c) (fun x y => ?_) _ (s, false)
  dsimp only
  split
  · rfl
  · split
    · exact foldl_genOf c (fun s k => reqSend_genOf ..) _ _
    · split <;> simp

@[simp] theorem queueStall_genOf (k va need reason why : Nat) (s : State) : (queueStall k va need reason why s).genOf c = s.genOf c := by
  simp [queueStall]

@[simp] theorem writeDenied_genOf (k va : Nat) (s : State) : (writeDenied k va s).genOf c = s.genOf c := by simp [writeDenied]

@[simp] theorem bulkDeny_genOf (b : Bulk) (va need : Nat) (s : State) : (bulkDeny b va need s).genOf c = s.genOf c := by
  unfold bulkDeny
  split <;> simp [denyRec]

/-- The state in which writes of a queue leave the device; without one, that before them. -/
def QWrite.state (s : State) : QWrite → State
  | .ok t => t
  | .stall t => t
  | .wait => s
  | .absent => s

theorem queueWrites_genOf (k : Nat) (ws : List (Nat × List Byte)) (s : State) : ((queueWrites k ws s).state s).genOf c = s.genOf c := by
  unfold queueWrites
  dsimp only
  split
  · exact queueStall_genOf ..
  · simp [QWrite.state]
  · exact writeDenied_genOf ..
  · rfl
  · rfl
  · rfl
  · exact foldl_genOf c (fun s x => bulkWr_genOf ..) ws s

@[simp] theorem pktRetire_genOf (k : Nat) (p : Pkt) (s : State) : (pktRetire k p s).genOf c = s.genOf c := by
  simp [pktRetire, apply_ite (State.genOf c)]

@[simp] theorem recordWrite_genOf (k : Nat) (p : Pkt) (s : State) : (recordWrite k p s).genOf c = s.genOf c := by
  unfold recordWrite
  dsimp only
  split
  · simp
  · next pos _ =>
    have hw := queueWrites_genOf c k (recordBytes s (s.queue k) p pos) s
    split
    · next t ht =>
      rw [ht] at hw
      replace hw : t.genOf c = s.genOf c := hw
      split <;> simpa using hw
    · next t ht =>
      rw [ht] at hw
      exact hw
    · rfl
    · rfl

@[simp] theorem recordHold_genOf (k : Nat) (s : State) : (recordHold k s).genOf c = s.genOf c := by
  unfold recordHold
  dsimp only
  split
  · rfl
  · split <;> simp

@[simp] theorem recordOne_genOf (k : Nat) (s : State) : (recordOne k s).genOf c = s.genOf c := by
  unfold recordOne
  dsimp only
  split
  · rfl
  · simp [apply_ite (State.genOf c)]

@[simp] theorem recordAll_genOf (k n : Nat) (s : State) : (recordAll k n s).genOf c = s.genOf c := by
  induction n generalizing s with
  | zero => rfl
  | succ n ih => rw [recordAll, ih, recordOne_genOf]

/-! #### The end of a context -/

@[simp] theorem tabDrop_genOf (d : Nat) (s : State) : (tabDrop d s).genOf c = s.genOf c := by
  unfold tabDrop
  rw [foldl_genOf c fun s d => onMem_genOf .., onXl_genOf]

@[simp] theorem ctxDrop_genOf (d : Nat) (s : State) : (ctxDrop d s).genOf c = s.genOf c := by
  unfold ctxDrop
  rw [onFn_genOf, onSync_genOf, onTier_genOf, tabDrop_genOf, onXl_genOf, onLaunches_genOf, freeCtrs_genOf, forAll_genOf]
  intro k s
  rw [onQs_genOf, freeRuns_genOf, recordAll_genOf]

end Gen

theorem tabDrop_xl (c : Nat) (s : State) : (tabDrop c s).xl = { s.xl with blocks := s.xl.blocks.filter (·.2.1 != c) } := by
  unfold tabDrop
  rw [foldl_keeps State.xl fun s d => ?_]
  · simp only [State.onXl_frame]
  · simp only [State.onMem_frame]

/-- A context that ends has no mapping left. -/
theorem ctxDrop_mappings (c : Nat) (s : State) : (∀ l ∈ (ctxDrop c s).xl.leaves, l.ctx ≠ c) ∧ ∀ m ∈ (ctxDrop c s).xl.maps, m.ctx ≠ c := by
  unfold ctxDrop
  simp only [State.onFn, State.onFns_frame, State.onSync_frame, State.onTier_frame, tabDrop_xl, State.onXl_frame, List.mem_filter, bne_iff_ne]
  exact ⟨fun l hl => hl.2, fun m hm => hm.2⟩

theorem raiseGen_mappings (c : Nat) (s : State) : (raiseGen c s).xl.leaves = s.xl.leaves ∧ (raiseGen c s).xl.maps = s.xl.maps := ⟨rfl, rfl⟩

theorem ctx_onCtxs_put (s : State) (c d : Nat) (x : Ctx) : (s.onCtxs fun t => t.put c x).ctx d = if d = c then x else s.ctx d := Tbl.get_put ..

section Requests
variable {s : State} {h : Hdr}

/-! ### Contexts begin and end (R268 R314 R371) -/

theorem exec_contextCreate {flags : BitVec 8} {ot c : Nat} (hg : pmiGo s h = true) (hf : flags.toNat < 32) (ho : flags.toNat / 8 % 4 ≠ 3)
    (ht : ot < 2 ^ 32) (hv : h.fn = 0 ∨ (s.fn h.fn).vf = true) (hcfg : cfgMissing s = false)
    (hq : under ((liveCtxs s).filter fun c => (s.ctx c).fn = h.fn).length (s.fn h.fn).qCtxs = true) (hc : freeCtx s = some c) :
    exec (.contextCreate h flags ot false) s = .next (ctxNew h flags ot c (taken h s)) := by
  obtain ⟨n, hn⟩ := taken_fn h s h.fn
  have hform : (false || decide (32 ≤ flags.toNat) || decide (flags.toNat / 8 % 4 = 3) || decide (2 ^ 32 ≤ ot)) = false := by
    simp only [Nat.not_le.mpr hf, ho, Nat.not_le.mpr ht, decide_false, Bool.or_self]
  have hvf : (h.fn != 0 && !((taken h s).fn h.fn).vf) = false := by rcases hv with hv | hv <;> simp [hn, hv]
  have hcfg' : cfgMissing (taken h s) = false := hcfg
  have hq' : under ((liveCtxs (taken h s)).filter fun c => ((taken h s).ctx c).fn = h.fn).length ((taken h s).fn h.fn).qCtxs = true := by
    rw [hn]
    exact hq
  have hc' : freeCtx (taken h s) = some c := hc
  show execContextCreate h flags ot false s = _
  simp only [execContextCreate, pmi_go hg (.inl rfl), hform, hvf, hcfg', hq', hc', Bool.not_true, Bool.false_eq_true, if_false]

theorem ctxNew_ctx {flags : BitVec 8} {ot c : Nat} (d : Nat) : (ctxNew h flags ot c (taken h s)).ctx d = if d = c then
    { live := true, fn := h.fn, gen := (s.ctx c).gen, lendHeld := flags.getLsbD 0, poisonAb := flags.getLsbD 1, deniedAb := flags.getLsbD 2
      orphan := flags.toNat / 8 % 4, orphanTime := ot, token := Config.token s.freeN } else s.ctx d := by
  rw [ctxNew, State.ctx, (pmiAnswer_onlyResponds ..).ctxs, ← State.ctx, ctx_onCtxs_put]
  rfl

/-- What is left of a context once its work is removed and its last dailies are reported. -/
def workRemoved (h : Hdr) (s : State) : State :=
  let u := removeWork h.ctx (taken h s)
  if (u.fn h.fn).snapR.on then ringPush h.fn .snap h.ctx true (dailies u h.ctx false true) u else u

theorem workRemoved_genOf (c : Nat) : (workRemoved h s).genOf c = s.genOf c := by
  unfold workRemoved
  dsimp only
  split <;> simp [taken]

/-- The context is gone: its ID keeps the raised generation. -/
def ctxGone (h : Hdr) (s : State) : State :=
  let u := raiseGen h.ctx (ctxDrop h.ctx (workRemoved h s))
  u.onCtxs fun t => t.put h.ctx { gen := (u.ctx h.ctx).gen }

theorem exec_contextDestroy (hr : ctxReady h s = true) : exec (.contextDestroy h) s =
    .next (pmiAnswer h 0x0002 pOk 0 (dailies (removeWork h.ctx (taken h s)) h.ctx false true) (ctxGone h s)) := by
  show execContextDestroy h s = _
  rw [execContextDestroy, pmiCtx_go hr]
  rfl

theorem ctxGone_ctx : (ctxGone h s).ctx h.ctx = { gen := (s.ctx h.ctx).gen + 1 } := by
  have hgen : ((ctxDrop h.ctx (workRemoved h s)).ctx h.ctx).gen = (s.ctx h.ctx).gen := (ctxDrop_genOf ..).trans (workRemoved_genOf _)
  rw [ctxGone, ctx_onCtxs_put, if_pos rfl, raiseGen_ctx, hgen]

theorem ctxGone_mappings : (∀ l ∈ (ctxGone h s).xl.leaves, l.ctx ≠ h.ctx) ∧ ∀ m ∈ (ctxGone h s).xl.maps, m.ctx ≠ h.ctx := by
  have hxl : (ctxGone h s).xl = (raiseGen h.ctx (ctxDrop h.ctx (workRemoved h s))).xl := by simp only [ctxGone, State.onCtxs_frame]
  obtain ⟨hleaves, hmaps⟩ := raiseGen_mappings h.ctx (ctxDrop h.ctx (workRemoved h s))
  rw [hxl, hleaves, hmaps]
  exact ctxDrop_mappings h.ctx (workRemoved h s)

/-! ### Resets (R390) -/

theorem exec_contextReset {a n : Nat} (hr : ctxReady h s = true) (ha : a % 4096 = 0) (ha' : a < 2 ^ 64) (hn : n < 2 ^ 32)
    (hw : resetWaits s h.ctx 0 (snapBuf a n) = false) :
    exec (.contextReset h a n) s = .next (ctxReset h.ctx 0 (snapBuf a n) (some h) (taken h s)) := by
  show execContextReset h a n s = _
  rw [execContextReset, if_neg (by rw [hw]; decide), pmiCtx_go hr, pmiValid_of_ok (by simp only [ha, ha', hn, decide_true, Bool.and_self])]

theorem exec_snapshotArm {a n : Nat} (hr : ctxReady h s = true) (ha : a % 4096 = 0) (ha' : a < 2 ^ 64) (hn : n < 2 ^ 32) :
    exec (.snapshotArm h a n) s = .next (pmiOk h 0x0003 ((taken h s).onCtx h.ctx fun x => { x with snap := snapBuf a n })) := by
  show execSnapshotArm h a n s = _
  rw [execSnapshotArm, pmiCtx_go hr, pmiValid_of_ok (by simp only [ha, ha', hn, decide_true, Bool.and_self])]

/-! ### Attaching (R373 R377 R378) -/

/-- A CLAIM that is taken, names a live context of its function and falls into no blocked second is decided by the token. -/
theorem exec_claim {token : DWord} {del : Bool} (hg : pmiGo s h = true) (hr : (s.ctx h.ctx).inReset = false) (hc : h.ctx < 4096)
    (hl : (s.ctx h.ctx).live = true) (hf : (s.ctx h.ctx).fn = h.fn) (hgen : (s.ctx h.ctx).gen = h.gen)
    (hb : ∀ t0, (s.ctx h.ctx).badClaim = some t0 → t0 + 1000000000 ≤ s.now) : exec (.claim h token del) s =
      .next (if (s.ctx h.ctx).token = token then claimed h del (taken h s)
        else pmiRefuse h 0x0071 pAuth ((taken h s).onCtx h.ctx fun x => { x with badClaim := some s.now })) := by
  have hctx : (taken h s).ctx h.ctx = s.ctx h.ctx := rfl
  have hnow : (taken h s).now = s.now := rfl
  show execClaim h token del s = _
  rw [execClaim, if_neg (by rw [hr]; decide), pmi_go hg (.inl rfl)]
  simp only [hctx, hnow, hl, hf, hgen, Nat.not_le.mpr hc, bne_self_eq_false, Bool.not_true, decide_false, Bool.or_self, Bool.false_eq_true,
    if_false, bne_iff_ne, ne_eq, ite_not]
  refine congrArg Host.Outcome.next (if_neg ?_)
  cases hx : (s.ctx h.ctx).badClaim with
  | none => exact Bool.false_ne_true
  | some t0 => exact fun hlt => Nat.not_lt.mpr (hb t0 hx) (of_decide_eq_true hlt)

theorem exec_heartbeat (hg : pmiGo s h = true) : exec (.heartbeat h) s =
    .next (pmiOk h 0x0072 ((taken h s).onFn h.fn fun x => { x with beat := some s.now, orphan := false })) := by
  show execHeartbeat h s = _
  rw [execHeartbeat, pmi_go hg (.inl rfl)]
  rfl

theorem exec_attachRead {a : Nat} (hg : pmiGo s h = true) (h0 : a ≠ 0) (ha : a < 2 ^ 64) : exec (.attachRead h a) s =
    .next (pmiAnswerAt true { h with payAddr := a } 0x0070 pOk 0 (attachRecord (taken h s) h.fn) (taken h s)) := by
  show execAttachRead h a s = _
  rw [execAttachRead, pmi_go hg (.inl rfl), pmiValid_of_ok (by rw [Bool.and_eq_true, bne_iff_ne, decide_eq_true_eq]; exact ⟨h0, ha⟩)]

end Requests

/-- Settles O30, request by request. -/
theorem contextRequestsComplete : Obligations.ContextRequestsComplete := by
  intro s h
  refine ⟨fun flags ot c hg hf ho ht hv hcfg hq hc => ⟨_, exec_contextCreate hg hf ho ht hv hcfg hq hc, ?new, fun d hd => ?others, ?groups, ?queues, ?xl⟩,
    fun hr => ⟨_, exec_contextDestroy hr, ?gone, ?leaves, ?maps⟩,
    fun a n hr ha ha' hn => ⟨exec_contextReset hr ha ha' hn, exec_snapshotArm hr ha ha' hn⟩,
    fun c hc => ⟨_, exec_generationRaise hc, ?gen, ?reset, fun n e he => ctxResetEnd_micro c s he,
      fun n e he => ctxResetEnd_die c s he, ?stand⟩,
    fun token del hg hr hc hl hf hgen hb => ⟨fun ht => ?right, fun ht => ?wrong⟩, exec_heartbeat, fun a => exec_attachRead⟩
  case new => rw [ctxNew_ctx, if_pos rfl]
  case others => rw [ctxNew_ctx, if_neg hd]
  case groups => rw [ctxNew, (pmiAnswer_onlyResponds ..).groups]; rfl
  case queues => rw [ctxNew, (pmiAnswer_onlyResponds ..).qs]; rfl
  case xl => rw [ctxNew, (pmiAnswer_onlyResponds ..).xl]; rfl
  case gone => rw [State.ctx, (pmiAnswer_onlyResponds ..).ctxs, ← State.ctx, ctxGone_ctx]
  case leaves => rw [(pmiAnswer_onlyResponds ..).xl]; exact ctxGone_mappings.1
  case maps => rw [(pmiAnswer_onlyResponds ..).xl]; exact ctxGone_mappings.2
  case gen => rw [ctxResetEnd_ctx]
  case reset => rw [ctxResetEnd_ctx]
  case stand => rw [ctxResetEnd_xl, (raiseGen_mappings c s).1]
  case right => rw [exec_claim hg hr hc hl hf hgen hb, if_pos ht]
  case wrong => rw [exec_claim hg hr hc hl hf hgen hb, if_neg ht]

end Sys2Proof.Machine

/-! Reset (O52) and the flags that hardware sets (O53). -/
namespace Sys2Proof.Machine
open Sys2Proof

/-- Settles O52: every table of the reset state is empty. -/
theorem resetHoldsTheInvariants : Obligations.ResetHoldsTheInvariants :=
  ⟨rfl, fun _ _ => ⟨rfl, rfl, rfl, rfl, rfl, rfl, rfl⟩, rfl, rfl, fun _ => rfl, rfl, rfl⟩

/-! ### RW1C flags (R402) -/

/-- An RW1C flag after the handshake in which software writes `w` and hardware sets the flags of `hw`. -/
def Flag.handshake (v : DWord) (hw : BitVec 8) (x : Flag) (n : Nat) : Flag :=
  if hw.getLsbD n then { on := true, count := x.count + 1 } else if v.getLsbD n then { x with on := false } else x

/-- The flags of a register lie in its low half, which a write of either size at its address covers. -/
theorem flagWrite_eq_handshake {m v : DWord} {n : Nat} (x : Flag) (hw : BitVec 8) (hm : m.getLsbD n = true) :
    flagWrite x (v &&& m) hw n = x.handshake v hw n := by
  unfold flagWrite Flag.write Flag.handshake
  rw [BitVec.getLsbD_and, hm, Bool.and_true]
  cases hw.getLsbD n with
  | true => rfl
  | false => cases hv : v.getLsbD n <;> simp

theorem writeMask_low {a size n : Nat} (hs : size = 4 ∨ size = 8) (ha : a % 8 = 0) (hn : n < 4) : (writeMask a size).getLsbD n = true := by
  rcases hs with rfl | rfl
  · rw [writeMask, if_neg (by decide), if_pos ha]
    interval_cases n <;> decide
  · rw [writeMask, if_pos rfl]
    interval_cases n <;> decide

theorem writeBits_aligned {a : Nat} (size : Nat) (v : DWord) (ha : a % 8 = 0) : writeBits a size v = v := by simp [writeBits, ha]

/-- An aligned write of a register has its action, whose flags see the value written. -/
theorem exec_registerWrite_aligned {a : RegAcc} {r : Reg} {s : State} (v : DWord) (hw : BitVec 8) (hm : accMay s a = true) (hx : a.msix = none)
    (hs : a.size = 4 ∨ a.size = 8) (ha : a.pa % 8 = 0) (hr : regAt s a.pa = some r) (ho : ∀ f, a.fn = some f → ownReg s f r = true) :
    ∃ m, (∀ n < 4, m.getLsbD n = true) ∧ exec (.registerWrite a v hw) s = .next (regAction (accWho a) r v m hw none s) := by
  have hd : a.pa / 8 * 8 = a.pa := Nat.div_mul_cancel (Nat.dvd_of_mod_eq_zero ha)
  have hz : regSized a.pa a.size = true := (regSized_iff _ _).mpr (by omega)
  refine ⟨writeMask a.pa a.size, fun n hn => writeMask_low hs ha hn, ?_⟩
  rw [exec_registerWrite_legal v hw hm hx (by rw [hd]; exact hr) ho hz, writeBits_aligned _ _ ha]

/-- Settles O53, register by register. -/
theorem eventFlagsSetWins : Obligations.EventFlagsSetWins := by
  refine ⟨fun _ => rfl, fun a r v hw s hm hx hs ha hr ho => ?_⟩
  obtain ⟨m, hlow, he⟩ := exec_registerWrite_aligned v hw hm hx hs ha hr ho
  have hf : ∀ (x : Flag) n, n < 4 → flagWrite x (v &&& m) hw n = x.handshake v hw n := fun x n hn => flagWrite_eq_handshake x hw (hlow n hn)
  refine ⟨?_, ?_, ?_, ?_, ?_, ?_⟩
  · rintro k rfl
    rw [he]; simp only [regAction, hf _ 0 (by decide), hf _ 1 (by decide), hf _ 2 (by decide), hf _ 3 (by decide)]; rfl
  · rintro k rfl
    rw [he]; simp only [regAction, hf _ 0 (by decide), hf _ 1 (by decide), hf _ 2 (by decide)]; rfl
  · rintro k rfl
    rw [he]; simp only [regAction, hf _ 0 (by decide), hf _ 1 (by decide), hf _ 2 (by decide)]; rfl
  · rintro k rfl
    rw [he]; simp only [regAction, hf _ 0 (by decide), hf _ 1 (by decide), hf _ 2 (by decide), hf _ 3 (by decide)]; rfl
  · rintro k rfl
    rw [he]; simp only [regAction, hf _ 0 (by decide), hf _ 1 (by decide), hf _ 2 (by decide)]; rfl
  · rintro rfl
    rw [he]; simp only [regAction, hf _ 0 (by decide), hf _ 1 (by decide), hf _ 2 (by decide), hf _ 3 (by decide)]; rfl

/-! Results of counter operations of a set (O10). -/

/-- A write of one thread. -/
def Thread.put1 (t : Thread) (w : Nat × Word) : Thread :=
  if w.1 = 255 then t else if w.1 = 256 then { t with p := w.2.setWidth 8 }
  else if w.1 = 257 then { t with arrive := w.2.toNat } else { t with v := t.v.put w.1 w.2 }

theorem put1_thread_eq (g : Group) (lane l : Nat) (w : Nat × Word) :
    (g.put1 lane w).thread l = if l = lane then (g.thread l).put1 w else g.thread l := by
  by_cases hl : l = lane
  · subst hl
    rw [if_pos rfl]
    unfold Group.put1 Thread.put1
    split
    · rfl
    split
    · simp [Group.thread_onThread]
    split <;> simp [Group.thread_onThread]
  · rw [if_neg hl]
    unfold Group.put1
    split
    · rfl
    split
    · simp [Group.thread_onThread, hl]
    split <;> simp [Group.thread_onThread, hl]

theorem foldl_put1_thread (w : Writes) (lane l : Nat) : ∀ g : Group,
    (w.foldl (fun g x => g.put1 lane x) g).thread l = if l = lane then w.foldl Thread.put1 (g.thread l) else g.thread l := by
  induction w with
  | nil => exact fun g => (ite_self _).symm
  | cons x w ih =>
    intro g
    rw [List.foldl_cons, ih, put1_thread_eq]
    by_cases hl : l = lane <;> simp [hl]

/-- Writes of vector registers alone. -/
theorem foldl_put1_vector (w : Writes) (hw : ∀ x ∈ w, x.1 ≤ 255) : ∀ t : Thread, w.foldl Thread.put1 t = { t with v := putsV w t.v } := by
  induction w with
  | nil => exact fun _ => rfl
  | cons x w ih =>
    intro t
    have hx : x.1 ≤ 255 := hw x List.mem_cons_self
    have h1 : t.put1 x = { t with v := if x.1 < 255 then t.v.put x.1 x.2 else t.v } := by
      unfold Thread.put1
      by_cases h : x.1 = 255
      · simp [h]
      · rw [if_neg h, if_neg (by omega), if_neg (by omega), if_pos (by omega)]
    rw [List.foldl_cons, h1, ih fun y hy => hw y (List.mem_cons_of_mem x hy)]
    rfl

/-- What a finished operation writes. -/
def SyncOp.writes (o : SyncOp) : Writes := (o.dst, BitVec.ofNat 32 o.code) :: wpair o.rd o.value

theorem SyncOp.writes_le {o : SyncOp} (hd : o.dst ≤ 255) (hr : o.rd ≤ 255) : ∀ x ∈ o.writes, x.1 ≤ 255 := by
  intro x hx
  rcases List.mem_cons.mp hx with rfl | hx
  · exact hd
  · unfold wpair at hx
    split at hx
    · cases hx
    · next h => rcases List.mem_pair.mp hx with rfl | rfl <;> simp only <;> omega

/-- A thread once it has received the result of its operation. -/
def Thread.received (t : Thread) : Thread :=
  match t.sync with
  | none => t
  | some o => { o.writes.foldl Thread.put1 t with sync := none }

theorem syncReceive_thread (g : Group) (lane l : Nat) :
    (syncReceive lane g).thread l = if l = lane then (g.thread l).received else g.thread l := by
  unfold syncReceive Thread.received
  by_cases hl : l = lane
  · subst hl
    rw [if_pos rfl]
    cases (g.thread l).sync with
    | none => rfl
    | some o => rw [Group.thread_onThread, if_pos rfl, foldl_put1_thread, if_pos rfl]; rfl
  · rw [if_neg hl]
    cases (g.thread lane).sync with
    | none => rfl
    | some o => rw [Group.thread_onThread, if_neg hl, foldl_put1_thread, if_neg hl]

theorem foldl_put1_sansThreads (lane : Nat) (w : Writes) (g : Group) :
    { w.foldl (fun g x => g.put1 lane x) g with th := [] } = { g with th := [] } := by
  refine foldl_keeps (fun g : Group => { g with th := [] }) (fun g x => ?_) w g
  unfold Group.put1
  repeat' split
  all_goals rfl

/-- Receiving changes the threads of the group alone. -/
theorem syncReceive_sansThreads (lane : Nat) (g : Group) : { syncReceive lane g with th := [] } = { g with th := [] } := by
  unfold syncReceive
  split
  · rfl
  · exact foldl_put1_sansThreads lane _ g

/-- The group once each of these threads has received its result. -/
def syncReturned (ls : List Nat) (g : Group) : Group := ls.foldl (fun g l => syncReceive l g) g

theorem syncReturned_thread {ls : List Nat} (hl : ls.Nodup) (g : Group) (l : Nat) :
    (syncReturned ls g).thread l = if l ∈ ls then (g.thread l).received else g.thread l := by
  split
  · next h =>
    exact foldl_at (fun g : Group => g.thread l) Thread.received (f := fun g i => syncReceive i g) hl h
      (fun g => by rw [syncReceive_thread, if_pos rfl]) (fun g i _ hi => by rw [syncReceive_thread, if_neg (Ne.symm hi)]) g
  · next h =>
    exact foldl_keeps_mem (fun g : Group => g.thread l) (f := fun g i => syncReceive i g)
      (fun g i hi => by rw [syncReceive_thread, if_neg (show l ≠ i from fun e => h (e ▸ hi))]) g

theorem syncReturned_keeps (ls : List Nat) (g : Group) : { syncReturned ls g with th := g.th } = g :=
  congrArg (fun x : Group => { x with th := g.th })
    (foldl_keeps (fun g : Group => { g with th := [] }) (f := fun g l => syncReceive l g) (fun g l => syncReceive_sansThreads l g) ls g)

/-- What a thread receives. -/
theorem received_of_sync {t : Thread} {o : SyncOp} (ht : t.sync = some o) (hd : o.dst ≤ 255) (hr : o.rd ≤ 255) :
    t.received = { t with v := putsV o.writes t.v, sync := none } := by
  unfold Thread.received
  rw [ht]
  dsimp only
  rw [foldl_put1_vector _ (SyncOp.writes_le hd hr)]

theorem exec_syncResultReturn {core slot pc : Nat} {s : State} (hc : s.idRuns core = true) (hr : (s.group (gKey core slot)).stage = .running)
    (hf : ∀ l ∈ syncSet (s.group (gKey core slot)) pc, ∀ o, ((s.group (gKey core slot)).thread l).sync = some o → o.fin = true) :
    exec (.syncResultReturn core slot pc) s =
      .next (s.onGroup (gKey core slot) (syncReturned (syncSet (s.group (gKey core slot)) pc))) := by
  show execSyncResultReturn core slot pc s = _
  unfold execSyncResultReturn
  refine if_pos ?_
  simp only [hc, hr, decide_true, Bool.true_and, List.all_eq_true]
  intro l hl
  cases ho : ((s.group (gKey core slot)).thread l).sync with
  | none => rfl
  | some o => exact hf l hl o ho

/-- Settles O10: only the threads of the set receive, each in the registers that its operation named. -/
theorem syncResultsReturn : Obligations.SyncResultsReturn := by
  intro core slot pc s k g hc hr ho
  have hn : (syncSet g pc).Nodup := (setOfPc_nodup g pc).filter _
  have hg : (s.onGroup k (syncReturned (syncSet g pc))).group k = syncReturned (syncSet g pc) g := group_onGroup_same s k _
  refine ⟨_, exec_syncResultReturn hc hr fun l hl o h => (ho l hl o h).1, fun l hl o h => ?_, fun l hl => ?_, ?_,
    fun j hj => group_onGroup_other s _ hj, rfl⟩
  · obtain ⟨-, hd, hrd⟩ := ho l hl o h
    rw [hg, syncReturned_thread hn, if_pos hl, received_of_sync h hd hrd]
    refine ⟨rfl, fun n hn => ?_⟩
    rw [get_putsV, if_pos hn]
    rfl
  · rw [hg, syncReturned_thread hn, if_neg hl]
  · rw [hg, syncReturned_keeps]

end Sys2Proof.Machine

/-! Counter operations of an agent and of the host (O20): with nobody waiting, an operation that its unit admits changes the counter alone. -/
namespace Sys2Proof.Machine
open Sys2Proof

/-! ### Nobody waits (R274) -/

/-- With no waits registered an operation releases none. -/
theorem ctrSettle_of_no_waits {s : State} (id n : Nat) (hw : s.sync.waits = []) : ctrSettle id n s = s := by
  cases n with
  | zero => rfl
  | succ n => simp [ctrSettle, hw]

/-- An operation that its unit admits is performed on the counter (R272). -/
theorem syncOp_counter {s : State} {w : Wait} (op timeout : Nat) (hg : genOk s w.ctx w.gen = true) (hf : w.fence = false)
    (ha : ctrAllowed s (s.sync.ctrs.get w.id) w.ctx = true) : syncOp op w timeout s = ctrDo op w timeout s := by
  simp [syncOp, hg, hf, ha]

theorem onCtr_congr {s : State} {i : Nat} {f g : Ctr → Ctr} (h : f (s.sync.ctrs.get i) = g (s.sync.ctrs.get i)) : s.onCtr i f = s.onCtr i g :=
  congrArg (fun x => s.onSync fun y => { y with ctrs := y.ctrs.put i x }) h

@[simp] theorem onCtr_waits (s : State) (i : Nat) (g : Ctr → Ctr) : (s.onCtr i g).sync.waits = s.sync.waits := rfl

section Shared
variable {s : State} {w : Wait} (ho : (s.sync.ctrs.get w.id).owned = false) (hb : (s.sync.ctrs.get w.id).abandoned = false) (hw : s.sync.waits = [])
include ho hb hw

/-! ### A SHARED counter (R273 R274) -/

theorem ctrDo_add (timeout : Nat) :
    ctrDo 0x01 w timeout s = (s.onCtr w.id fun c => { c with value := c.value + w.value }, .fin rOk (s.sync.ctrs.get w.id).value) := by
  simp [ctrDo, ho, hb, hw, ctrSettle_of_no_waits]
  exact onCtr_congr rfl

theorem ctrDo_sub (timeout : Nat) :
    ctrDo 0x02 w timeout s = (s.onCtr w.id fun c => { c with value := c.value - w.value }, .fin rOk (s.sync.ctrs.get w.id).value) := by
  simp [ctrDo, ho, hb, hw, ctrSettle_of_no_waits]
  exact onCtr_congr rfl

theorem ctrDo_set (timeout : Nat) :
    ctrDo 0x03 w timeout s = (s.onCtr w.id fun c => { c with value := w.value }, .fin rOk (s.sync.ctrs.get w.id).value) := by
  simp [ctrDo, ho, hb, hw, ctrSettle_of_no_waits]

theorem ctrDo_trydec {timeout : Nat} (hv : w.value.toNat ≤ (s.sync.ctrs.get w.id).value.toNat) :
    ctrDo 0x04 w timeout s = (s.onCtr w.id fun c => { c with value := c.value - w.value }, .fin rOk (s.sync.ctrs.get w.id).value) := by
  simp [ctrDo, ho, hb, hw, hv, ctrSettle_of_no_waits]
  exact onCtr_congr (by simp [ho])

end Shared

/-- A wait that the value satisfies leaves the counter (R274). -/
theorem ctrDo_wait_satisfied {s : State} {w : Wait} {op timeout : Nat} (hop : op = 0x10 ∨ op = 0x11 ∨ op = 0x12)
    (hb : (s.sync.ctrs.get w.id).abandoned = false) (hv : syncCond op (s.sync.ctrs.get w.id).value w.value = true) :
    ctrDo op w timeout s = (s, .fin rOk (s.sync.ctrs.get w.id).value) := by
  unfold ctrDo
  rw [if_neg (by simp [hb])]
  rcases hop with rfl | rfl | rfl <;> exact if_pos hv

/-! ### The commands -/

/-- The wait that describes an agent's operation. -/
def opWait (s : State) (o : CtrOp) : Wait := { agentWait s o.ctx o.src o.id o.v with gen := o.gen }

theorem exec_counterOp {s : State} {o : CtrOp} (hop : ctrOps.contains o.op = true) (hi : idOk o.id = true) (hf : isFenceId o.id = false)
    (ht : o.thr = none) (hg : genOk s o.ctx o.gen = true) (ha : ctrAllowed s (s.sync.ctrs.get o.id) o.ctx = true) :
    exec (.counterOp o) s = .next (ctrDo o.op (opWait s o) (if o.op < 0x04 then 0 else o.timeout) s).1 := by
  show execCounterOp o s = _
  unfold execCounterOp
  rw [if_neg (by rw [hop, hi, hf]; exact Bool.false_ne_true), ht]
  dsimp only
  rw [show ({ agentWait s o.ctx o.src o.id o.v with gen := o.gen } : Wait) = opWait s o from rfl, syncOp_counter _ _ hg hf ha]

theorem doorbell_go {s : State} {fn ctx : Nat} {d : Door} {kind : Nat → Bool} {run : State → State} (hp : pageOwned s fn ctx = true)
    (hs : d.sized = true) (hl : d.listed = true) (hi : idOk d.id.toNat = true) (hk : kind d.id.toNat = true) :
    doorbell fn ctx d kind run s = .next (run s) := by
  unfold doorbell
  rw [if_neg (by simp [hp]), if_neg (by simp [hs, hl, hi, hk])]

/-- The operation of a context whose page a function owns is one of its present generation. -/
theorem genOk_of_pageOwned {s : State} {fn ctx : Nat} (hp : pageOwned s fn ctx = true) : genOk s ctx (s.ctx ctx).gen = true := by
  simp only [pageOwned, Bool.and_eq_true] at hp
  simp [genOk, hp.1.2]

theorem doorCtr_go {s : State} {fn ctx op : Nat} {d : Door} (hp : pageOwned s fn ctx = true) (hs : d.sized = true) (hl : d.listed = true)
    (hi : idOk d.id.toNat = true) (hf : isFenceId d.id.toNat = false) (ha : ctrAllowed s (s.sync.ctrs.get d.id.toNat) ctx = true) :
    doorCtr op fn ctx d s = .next (ctrDo op (agentWait s ctx hostSrc d.id.toNat d.value) 0 s).1 := by
  unfold doorCtr
  rw [doorbell_go hp hs hl hi (by simp [onCounter, hf]), syncOp_counter op 0 (genOk_of_pageOwned hp) hf ha]

/-- Settles O20, operation by operation. -/
theorem counterOperationsComplete : Obligations.CounterOperationsComplete := by
  rintro s id c rfl hf hi ho hb hw
  refine ⟨fun o hid ht hg ha => ?_, fun fn ctx d hid hs hl hp ha => ?_⟩
  · subst hid
    have he := fun hop => exec_counterOp (o := o) hop hi hf ht hg ha
    have hs : ∀ op, op = 0x10 ∨ op = 0x11 ∨ op = 0x12 → o.op = op → syncCond op (s.sync.ctrs.get o.id).value o.v = true →
        exec (.counterOp o) s = .next s := by
      rintro op hop rfl hv
      rw [he (by rcases hop with h | h | h <;> rw [h] <;> decide), ctrDo_wait_satisfied hop hb hv]
    refine ⟨fun h => ?_, fun h => ?_, fun h => ?_, fun h hv => ?_, fun h hv => hs _ (.inl rfl) h (decide_eq_true hv),
      fun h hv => hs _ (.inr (.inl rfl)) h (beq_iff_eq.mpr hv), fun h hv => hs _ (.inr (.inr rfl)) h (bne_iff_ne.mpr hv)⟩
    all_goals rw [he (by rw [h]; decide), h]
    · rw [ctrDo_add (w := opWait s o) ho hb hw]; rfl
    · rw [ctrDo_sub (w := opWait s o) ho hb hw]; rfl
    · rw [ctrDo_set (w := opWait s o) ho hb hw]; rfl
    · rw [ctrDo_trydec (w := opWait s o) ho hb hw hv]; rfl
  · subst hid
    have he := fun op => doorCtr_go (op := op) hp hs hl hi hf ha
    refine ⟨(he 0x01).trans ?_, (he 0x02).trans ?_, (he 0x03).trans ?_⟩
    · rw [ctrDo_add (w := agentWait s ctx hostSrc d.id.toNat d.value) ho hb hw]; rfl
    · rw [ctrDo_sub (w := agentWait s ctx hostSrc d.id.toNat d.value) ho hb hw]; rfl
    · rw [ctrDo_set (w := agentWait s ctx hostSrc d.id.toNat d.value) ho hb hw]; rfl

end Sys2Proof.Machine

/-! Waits in the table, and watches and fences of the host (O21): one equation per command and outcome. -/
namespace Sys2Proof.Machine
open Sys2Proof

/-! ### Waits in the table (R274 R275) -/

theorem exec_waitTimeout {s : State} {n t0 : Nat} {w : Wait} (hn : (s.sync.waits ++ s.sync.queued)[n]? = some w) (hd : w.deadline = some t0)
    (ht : t0 ≤ s.now) (hf : w.fence = false) :
    exec (.waitTimeout n) s = .next (release w rTimeout 0 (s.onSync fun y => { y with queued := y.queued.erase w })) := by
  show execWaitTimeout n s = _
  unfold execWaitTimeout
  rw [hn]
  dsimp only
  rw [hd]
  dsimp only
  rw [if_neg (Nat.not_lt.mpr ht), if_neg (by simp [hf])]

/-- Where one element of a list has a property, what implies it and that element has selects that element alone. -/
theorem filter_of_filter_singleton {α : Type} {p q : α → Bool} {l : List α} {w : α} (hl : l.filter p = [w]) (hq : ∀ x, q x = true → p x = true)
    (hw : q w = true) : l.filter q = [w] := by
  have h : l.filter q = (l.filter p).filter q := by
    rw [List.filter_filter]
    exact List.filter_congr fun x _ => by cases hx : q x <;> simp [hq x, hx]
  rw [h, hl, List.filter_cons_of_pos hw, List.filter_nil]

theorem filter_not_eq_erase {α : Type} [DecidableEq α] {q : α → Bool} {w : α} : ∀ {l : List α}, l.filter q = [w] → l.filter (!q ·) = l.erase w
  | [], h => nomatch h
  | x :: l, h => by
    cases hx : q x with
    | true =>
      rw [List.filter_cons_of_pos hx, List.cons.injEq] at h
      obtain ⟨rfl, hn⟩ := h
      rw [List.filter_cons_of_neg (by simp [hx]), List.erase_cons_head]
      exact List.filter_eq_self.mpr fun y hy => by simpa using List.filter_eq_nil_iff.mp hn y hy
    | false =>
      rw [List.filter_cons_of_neg (by simp [hx])] at h
      have hne : x ≠ w := fun e => by
        have hw : w ∈ l.filter q := by rw [h]; exact List.mem_singleton_self w
        rw [e, (List.mem_filter.mp hw).2] at hx
        exact Bool.noConfusion hx
      rw [List.filter_cons_of_pos (by simp [hx]), List.erase_cons_tail (by simpa using hne), filter_not_eq_erase h]

theorem sharesEntry_id {a b : Wait} (h : sharesEntry a b = true) : b.id = a.id := by
  simp only [sharesEntry, Bool.and_eq_true, decide_eq_true_eq] at h
  exact (congrArg Wait.id h.2).symm

/-- A counter whose only wait its value does not satisfy settles at once. -/
theorem ctrSettle_of_unsatisfied {s : State} {w : Wait} (n : Nat) (hm : (s.sync.waits.filter fun x => !x.fence && x.id = w.id) = [w])
    (hc : syncCond w.cond (s.sync.ctrs.get w.id).value w.value = false) : ctrSettle w.id n s = s := by
  cases n with
  | zero => rfl
  | succ n =>
    have h13 : (w.cond = 0x13 && syncCond 0x13 (s.sync.ctrs.get w.id).value w.value) = false := by
      by_cases h : w.cond = 0x13
      · rw [h] at hc; simp [hc]
      · simp [h]
    unfold ctrSettle
    dsimp only
    rw [hm, List.filter_cons_of_neg (by simp [hc]), List.filter_nil, List.find?_cons_of_neg (by simp [h13]), List.find?_nil]
    rfl

theorem exec_waitRegisterDeferred {s : State} {die : Nat} {w : Wait} (hq : s.sync.queued.filter (fun w => ctrDie w.id = die) = [w])
    (hr : entryCount (tableWaits s die) < 8192) (hn : (s.sync.waits.filter fun x => !x.fence && x.id = w.id) = [])
    (hb : (s.sync.ctrs.get w.id).abandoned = false) (hf : w.fence = false) (hc : syncCond w.cond (s.sync.ctrs.get w.id).value w.value = false) :
    exec (.waitRegisterDeferred die) s = .next (s.onSync fun y => { y with queued := y.queued.erase w, waits := y.waits ++ [w] }) := by
  show Host.Outcome.next (waitPromote die s) = _
  have hdie : ctrDie w.id = die := by
    have : w ∈ s.sync.queued.filter (fun w => ctrDie w.id = die) := by rw [hq]; exact List.mem_singleton_self w
    simpa using (List.mem_filter.mp this).2
  have hfind : s.sync.queued.find? (fun w => ctrDie w.id = die) = some w := by rw [← List.head?_filter, hq]; rfl
  have hroom : waitRoom s w = true := by
    unfold waitRoom
    rw [hdie]
    simp [waitsMax, hr]
  have hmine : s.sync.queued.filter (fun x => decide (x = w) || sharesEntry w x) = [w] := by
    refine filter_of_filter_singleton hq (fun x hx => ?_) (by simp)
    rcases Bool.or_eq_true_iff.mp hx with h | h
    · rw [decide_eq_true_eq] at h; simp [h, hdie]
    · simp [sharesEntry_id h, hdie]
  have herase : s.sync.queued.filter (fun x => !(decide (x = w) || sharesEntry w x)) = s.sync.queued.erase w := filter_not_eq_erase hmine
  unfold waitPromote
  rw [hfind]
  dsimp only
  rw [if_neg (by simp [hroom]), hmine]
  simp only [State.onSync, herase, hb, Bool.false_eq_true, if_false]
  refine congrArg Host.Outcome.next (ctrSettle_of_unsatisfied _ ?_ hc)
  rw [List.filter_append, hn]
  simp [hf]

/-! ### Watches (R281 R282) -/

/-- The watch of a counter that a host's doorbell asks for. -/
def watchOf (s : State) (op fn ctx : Nat) (d : Door) : Wait :=
  { who := .watch, grp := fn, lanes := 1, fence := false, id := d.id.toNat, cond := op, value := if op = 0x12 then 0 else d.value, ctx := ctx
    gen := (s.ctx ctx).gen, src := hostSrc, tag := d.tag.toNat, irq := d.flags.getLsbD 0 }

/-- A wait that the value does not satisfy is registered, where its die's table has an entry and no other wait is queued for it. -/
theorem ctrDo_wait_registered {s : State} {w : Wait} {op : Nat} (hop : op = 0x10 ∨ op = 0x11 ∨ op = 0x12) (hb : (s.sync.ctrs.get w.id).abandoned = false)
    (hv : syncCond op (s.sync.ctrs.get w.id).value w.value = false) (hr : entryCount (tableWaits s (ctrDie w.id)) < 8192)
    (hq : queuedWaits s (ctrDie w.id) = []) :
    ctrDo op w 0xFFFFFFFF s = (s.onSync fun y => { y with waits := y.waits ++ [{ w with cond := op, deadline := none }] }, .waits) := by
  have hadd : waitAdd { w with cond := op } 0xFFFFFFFF s =
      (s.onSync fun y => { y with waits := y.waits ++ [{ w with cond := op, deadline := none }] }, .waits) := by
    unfold waitAdd
    rw [if_neg (by decide)]
    dsimp only
    rw [if_pos rfl, if_pos (by simp [waitRoom, hr, hq, waitsMax])]
  unfold ctrDo
  rw [if_neg (by simp [hb])]
  rcases hop with rfl | rfl | rfl <;> exact (if_neg (by simp [hv])).trans hadd

section Watches
variable {s : State} {fn ctx op : Nat} {d : Door} (hf : isFenceId d.id.toNat = false) (hp : pageOwned s fn ctx = true)
  (ha : ctrAllowed s (s.sync.ctrs.get d.id.toNat) ctx = true) (hm : armedWatches s fn < 4096)
include hf hp ha hm

/-- A watch below its function's limit is a wait without a timeout; one that is satisfied at once writes its record. -/
theorem watchAdd_fin {t : State} {code : Nat} {v : DWord} (hd : ctrDo op (watchOf s op fn ctx d) 0xFFFFFFFF s = (t, .fin code v)) :
    watchAdd op fn ctx d s = notifyPush (watchOf s op fn ctx d) code v t := by
  unfold watchAdd
  dsimp only
  rw [if_neg (show ¬ watchMax ≤ armedWatches s fn from Nat.not_le.mpr hm), hf, ← watchOf, syncOp_counter (w := watchOf s op fn ctx d) op _ (genOk_of_pageOwned hp) rfl ha, hd]

theorem watchAdd_waits {t : State} (hd : ctrDo op (watchOf s op fn ctx d) 0xFFFFFFFF s = (t, .waits)) : watchAdd op fn ctx d s = t := by
  unfold watchAdd
  dsimp only
  rw [if_neg (show ¬ watchMax ≤ armedWatches s fn from Nat.not_le.mpr hm), hf, ← watchOf, syncOp_counter (w := watchOf s op fn ctx d) op _ (genOk_of_pageOwned hp) rfl ha, hd]

end Watches

theorem exec_watch {s : State} {fn ctx op : Nat} {d : Door} {cmd : Instr}
    (hc : op = 0x10 ∧ cmd = .watchGe fn ctx d ∨ op = 0x11 ∧ cmd = .watchEq fn ctx d ∨ op = 0x12 ∧ cmd = .watchNz fn ctx d)
    (hf : isFenceId d.id.toNat = false) (hi : idOk d.id.toNat = true) (hs : d.sized = true) (hl : d.listed = true) (hp : pageOwned s fn ctx = true) :
    exec cmd s = .next (watchAdd op fn ctx d s) := by
  have hk : onCounter d.id.toNat = true := by simp [onCounter, hf]
  rcases hc with ⟨rfl, rfl⟩ | ⟨rfl, rfl⟩ | ⟨rfl, rfl⟩
  · exact doorbell_go hp hs hl hi hk
  · exact doorbell_go hp hs hl hi hk
  · exact doorbell_go (kind := fun _ => true) hp hs hl hi rfl

/-! ### Fences of the host (R283 R284) -/

section Fences
variable {s : State} {fn ctx : Nat} {d : Door} (hf : isFenceId d.id.toNat = true) (hi : idOk d.id.toNat = true) (hs : d.sized = true)
  (hl : d.listed = true) (hp : pageOwned s fn ctx = true) (ha : fenceAllowed s d.id.toNat ctx = true)
include hf hi hs hl hp ha

theorem doorFence_go (f : Nat → State → State) : doorFence fn ctx d f s = .next (f (fenceKey d.id.toNat) s) := by
  unfold doorFence
  rw [doorbell_go hp hs hl hi hf, if_pos ha]

theorem exec_doorbellFenceSignal : exec (.doorbellFenceSignal fn ctx d) s = .next (fenceSignal (fenceKey d.id.toNat) hostSrc s).1 :=
  doorFence_go hf hi hs hl hp ha fun k s => (fenceSignal k hostSrc s).1

theorem exec_fenceClear : exec (.fenceClear fn ctx d) s = .next (fenceClear (fenceKey d.id.toNat) hostSrc s) :=
  doorFence_go hf hi hs hl hp ha fun k s => fenceClear k hostSrc s

theorem exec_fenceArm : exec (.fenceArm fn ctx d) s = .next (fenceArm (fenceKey d.id.toNat) (d.value.toNat % 2048) s) :=
  doorFence_go hf hi hs hl hp ha fun k s => fenceArm k (d.value.toNat % 2048) s

end Fences

theorem fenceSignal_unsignalled {s : State} {k : Nat} (src : Nat) (h : (s.sync.fences.get k).st = .unsignalled) :
    fenceSignal k src s = (fenceMove k .signalled src s, rOk) := by
  rw [fenceSignal, h]

theorem fenceSignal_signalled {s : State} {k : Nat} (src : Nat) (h : (s.sync.fences.get k).st = .signalled) : fenceSignal k src s = (s, rOk) := by
  rw [fenceSignal, h]

/-- Arming an UNSIGNALLED fence raises nothing yet. -/
theorem fenceArm_unsignalled {s : State} {k : Nat} (vec : Nat) (h : (s.sync.fences.get k).st = .unsignalled) :
    fenceArm k vec s = fenceSlots k (fenceStore k (s.onFence k fun f => { f with armed := true, vector := vec })) := by
  have hst : ((s.onFence k fun f => { f with armed := true, vector := vec }).sync.fences.get k).st = .unsignalled := by
    rw [State.onFence, State.onSync]
    dsimp only
    rw [Tbl.get_upd_same]
    exact h
  unfold fenceArm
  dsimp only
  rw [if_pos hst]

/-- Settles O21, command by command. -/
theorem waitsWatchesFencesComplete : Obligations.WaitsWatchesFencesComplete := by
  intro s
  refine ⟨fun n w t0 => exec_waitTimeout, fun die w => exec_waitRegisterDeferred, ?watches, ?fences⟩
  case watches =>
    rintro fn ctx d op cmd hc hf hi hs hl hp ha hb hm w rfl
    have hop : op = 0x10 ∨ op = 0x11 ∨ op = 0x12 := hc.imp And.left (Or.imp And.left And.left)
    rw [exec_watch hc hf hi hs hl hp]
    exact ⟨fun hv => congrArg _ (watchAdd_fin hf hp ha hm (ctrDo_wait_satisfied hop hb hv)),
      fun hv hr hq => congrArg _ (watchAdd_waits hf hp ha hm (ctrDo_wait_registered hop hb hv hr hq))⟩
  case fences =>
    rintro fn ctx d k hf hi hs hl hp ha rfl
    rw [exec_doorbellFenceSignal hf hi hs hl hp ha, exec_fenceClear hf hi hs hl hp ha, exec_fenceArm hf hi hs hl hp ha]
    refine ⟨fun h => ?_, fun h => ⟨?_, ?_⟩, fun h => ?_⟩
    · rw [fenceSignal_unsignalled _ h]; rfl
    · rw [fenceSignal_signalled _ h]
    · rw [fenceClear, if_pos h]; rfl
    · rw [fenceArm_unsignalled _ h]

end Sys2Proof.Machine

/-! Queues (O22): one equation per command and outcome. -/
namespace Sys2Proof.Machine
open Sys2Proof

/-! ### Doorbells of queues (R289 R301 R364) -/

section Doorbells
variable {s : State} {fn eng q : Nat}

theorem onOwnQueue_own (f : Nat → State → State) (hq : q < 1024) (he : eng < 32) (hl : (s.queue (queueKey eng q)).live = true)
    (hf : (s.queue (queueKey eng q)).fn = fn) : onOwnQueue fn eng q f s = .next (f (queueKey eng q) s) := by
  unfold onOwnQueue
  exact if_pos (by simp [hq, he, hl, hf])

/-- A queue that is not there or is another function's takes no doorbell. -/
theorem onOwnQueue_foreign (f : Nat → State → State) (h : (s.queue (queueKey eng q)).live = false ∨ (s.queue (queueKey eng q)).fn ≠ fn) :
    onOwnQueue fn eng q f s = .next (bar0Refused fn (qdoorOff eng q) s) := by
  unfold onOwnQueue
  refine if_neg ?_
  rcases h with h | h <;> simp [h]

theorem exec_qdoorTail (v : Word) (s : State) : exec (.qdoorTail fn eng q v) s = onOwnQueue fn eng q (fun k s => qTail (.fn fn) k v s) s := rfl
theorem exec_qdoorChead (v : Word) (s : State) : exec (.qdoorChead fn eng q v) s = onOwnQueue fn eng q (fun k s => qChead (.fn fn) k v s) s := rfl

end Doorbells

/-- A tail less than 2^31 past the present one and at most the ring's size past the head is taken. -/
theorem qTail_taken {s : State} {k : Nat} {v : Word} (w : Who) (ht : (v - (s.queue k).tail).toNat < 2 ^ 31)
    (hh : (v - (s.queue k).head).toNat ≤ 2 ^ (s.queue k).s) : qTail w k v s = s.onQueue k fun y => { y with
      tail := v, pendAt := if y.resident || v = y.head then y.pendAt else some (y.pendAt.getD s.now),
      crowd := y.crowd || (!y.resident && v != y.head && slotsFull s (k / 1024)) } := by
  unfold qTail
  exact if_pos (by simp only [ht, hh, decide_true, Bool.and_self])

theorem qTail_refused {s : State} {k : Nat} {v : Word} (w : Who)
    (h : 2 ^ 31 ≤ (v - (s.queue k).tail).toNat ∨ 2 ^ (s.queue k).s < (v - (s.queue k).head).toNat) :
    qTail w k v s = errAdd (regRefused s w (qdoorPa k)) s := by
  unfold qTail
  refine if_neg fun hc => ?_
  simp only [Bool.and_eq_true, decide_eq_true_eq] at hc
  rcases h with h | h
  · exact Nat.not_lt.mpr h hc.1
  · exact Nat.not_le.mpr h hc.2

theorem qChead_taken {s : State} {k : Nat} {v : Word} (w : Who) (h1 : (v - (s.queue k).chead).toNat < 2 ^ 31)
    (h2 : ((s.queue k).ct - v).toNat < 2 ^ 31) : qChead w k v s = s.onQueue k fun y => { y with
      chead := v, fspans := y.fspans.filter fun (n, _) => decide (2 ^ 31 ≤ (v - 1 - BitVec.ofNat 32 n).toNat) } := by
  unfold qChead
  exact if_pos ((headOk_iff _ _ _).mpr ⟨h1, h2⟩)

theorem qChead_refused {s : State} {k : Nat} {v : Word} (w : Who)
    (h : 2 ^ 31 ≤ (v - (s.queue k).chead).toNat ∨ 2 ^ 31 ≤ ((s.queue k).ct - v).toNat) :
    qChead w k v s = errAdd (regRefused s w (qdoorPa k + 4)) s := by
  unfold qChead
  refine if_neg fun hc => ?_
  obtain ⟨h1, h2⟩ := (headOk_iff _ _ _).mp hc
  rcases h with h | h
  · exact Nat.not_lt.mpr h h1
  · exact Nat.not_lt.mpr h h2

/-! ### Entries and their count (R289 R321) -/

section Queues
variable {s u : State} {eng q : Nat} (hq : q < 1024)
include hq

theorem exec_ringEntryFetch {b : List Byte} (hr : queueReady s eng (queueKey eng q) = true)
    (hw : ((s.queue (queueKey eng q)).pkts.any (·.st = .waiting)) = false) (hl : (s.queue (queueKey eng q)).listOn = false)
    (he : (s.queue (queueKey eng q)).ent ≠ (s.queue (queueKey eng q)).tail)
    (hb : queueRead (queueKey eng q) ((s.queue (queueKey eng q)).ring + 16 * ((s.queue (queueKey eng q)).ent.toNat % 2 ^ (s.queue (queueKey eng q)).s)) 16 s = .ok b u)
    (ho : entryOk b = true) : exec (.ringEntryFetch eng q) s = .next (u.onQueue (queueKey eng q) fun y => { y with
      ent := y.ent + 1, listOn := true, listAt := fieldN b 0 8, listLen := fieldN b 8 4, listOff := 0, stopOnFail := (fieldN b 12 4).testBit 0, got := [], bad := [] }) := by
  show execRingEntryFetch eng q s = _
  unfold execRingEntryFetch
  dsimp only
  rw [if_neg (by simp only [hr, hw, Nat.not_le.mpr hq]; decide), if_neg (by simp [hl]), if_neg he]
  unfold entryRead
  dsimp only
  rw [hb]
  dsimp only
  rw [if_pos ho]

theorem exec_submissionHeadWrite (hl : (s.queue (queueKey eng q)).live = true) (he : engineRuns s eng = true) (hs : (s.queue (queueKey eng q)).stalled = false)
    (hn : (s.queue (queueKey eng q)).finished ≠ (s.queue (queueKey eng q)).head)
    (ha : ((s.queue (queueKey eng q)).finished - (s.queue (queueKey eng q)).head).toNat < 2 ^ 31)
    (hw : queueWrites (queueKey eng q) [((s.queue (queueKey eng q)).headAddr, leBytes 4 (s.queue (queueKey eng q)).finished.toNat)] s = .ok u) :
    exec (.submissionHeadWrite eng q) s = .next (drainCheck (queueKey eng q) (u.onQueue (queueKey eng q) fun y => { y with
      head := (s.queue (queueKey eng q)).finished, resident := y.resident && (s.queue (queueKey eng q)).finished != y.tail,
      pendAt := if (s.queue (queueKey eng q)).finished = y.tail then none else y.pendAt })) := by
  show execSubmissionHeadWrite eng q s = _
  unfold execSubmissionHeadWrite
  dsimp only
  rw [if_neg (by simp only [hl, he, hs, hn, Nat.not_le.mpr hq, Nat.not_le.mpr ha]; decide), hw]

/-! ### Completions (R292 R301 to R304) -/

theorem exec_packetComplete (hl : (s.queue (queueKey eng q)).live = true) (he : (s.engines.get eng).out = false) :
    exec (.packetComplete eng q) s = .next (drainCheck (queueKey eng q) (recordOne (queueKey eng q) s)) := by
  show execPacketComplete eng q s = _
  unfold execPacketComplete
  exact if_neg (by simp [hl, he, hq])

end Queues

section Record
variable {s u : State} {k : Nat} {p : Pkt} {rest : List Pkt} (hp : (s.queue k).pkts = p :: rest) (hs : (s.queue k).stalled = false)
  (hf : s.pwr.state ≠ .fatal) (hd : p.st = .done)
include hp hs hf hd

/-- A finished packet without a record leaves the queue. -/
theorem recordOne_unrecorded (hr : p.records = false) : recordOne k s = pktRetire k p s := by
  unfold recordOne
  dsimp only
  rw [hp]
  dsimp only
  rw [if_neg (by simp [hs, hf]), if_pos (by simp [hd, hr])]

/-- One with a record that can be written leaves it after its record is written. -/
theorem recordOne_recorded {pos : Nat} (hr : p.records = true) (hh : recordsHeld s (s.queue k) = false) (hfull : (s.queue k).full = false)
    (hpos : (s.queue k).place (reportBytes p (s.queue k).f) = some pos) (hw : queueWrites k (recordBytes s (s.queue k) p pos) s = .ok u) :
    recordOne k s = pktRetire k p (if p.irq then
        msixRaise (s.queue k).fn (s.queue k).vector (u.onQueue k fun y => y.recorded (reportBytes p (s.queue k).f) pos)
      else u.onQueue k fun y => y.recorded (reportBytes p (s.queue k).f) pos) := by
  have hrec : recordWrite k p s = pktRetire k p (if p.irq then
        msixRaise (s.queue k).fn (s.queue k).vector (u.onQueue k fun y => y.recorded (reportBytes p (s.queue k).f) pos)
      else u.onQueue k fun y => y.recorded (reportBytes p (s.queue k).f) pos) := by
    unfold recordWrite
    dsimp only
    rw [hpos]
    dsimp only
    rw [hw]
  unfold recordOne
  dsimp only
  rw [hp]
  dsimp only
  rw [if_neg (by simp [hs, hf]), if_neg (by simp [hr]), if_neg (by simp [hh]), if_neg (by simp [hd, hfull]), hrec]

end Record

/-- Settles O22, command by command. -/
theorem queueCommandsComplete : Obligations.QueueCommandsComplete := by
  intro eng q s hq he k x
  refine ⟨fun fn v hl hf ht hh => ?_, fun fn v hl hf h1 h2 => ?_, fun fn v hl hf => ⟨fun h => ?_, fun h => ?_⟩, fun fn v h => ⟨?_, ?_⟩,
    fun b u hr hw hl hne hb ho => exec_ringEntryFetch hq hr hw hl hne hb ho,
    fun u hl her hs hn ha hw => exec_submissionHeadWrite hq hl her hs hn ha hw,
    fun p rest hl ho hp hs hf hd => ⟨fun hr => ?_, fun pos u hr hh hfull hpos hw => ?_⟩⟩
  · rw [exec_qdoorTail, onOwnQueue_own _ hq he hl hf, qTail_taken _ ht hh]
  · rw [exec_qdoorChead, onOwnQueue_own _ hq he hl hf, qChead_taken _ h1 h2]
  · rw [exec_qdoorTail, onOwnQueue_own _ hq he hl hf, qTail_refused _ h]
  · rw [exec_qdoorChead, onOwnQueue_own _ hq he hl hf, qChead_refused _ h]
  · rw [exec_qdoorTail, onOwnQueue_foreign _ h]
  · rw [exec_qdoorChead, onOwnQueue_foreign _ h]
  · rw [exec_packetComplete hq hl ho, recordOne_unrecorded hp hs hf hd hr]
  · rw [exec_packetComplete hq hl ho, recordOne_recorded hp hs hf hd hr hh hfull hpos hw]

end Sys2Proof.Machine

/-! Control packets (O23): a packet that starts is run on the state that its taking leaves. -/
namespace Sys2Proof.Machine
open Sys2Proof

theorem packet_go {eng q op : Nat} {p : Pkt} {s u : State} (run : Nat → Pkt → State → Out) (h : pktTake eng q op s = .go p u) :
    packet eng q op run s = run (queueKey eng q) p u := by
  rw [packet, h]

section Packets
variable {eng q : Nat} {p : Pkt} {s u v : State}

theorem exec_nop (h : pktTake eng q 0x00 s = .go p u) : exec (.nop eng q) s = .next (pktDone (queueKey eng q) p stOk u) := by
  show execNop eng q s = _
  rw [execNop, packet_go _ h]

theorem exec_jump (h : pktTake eng q 0x01 s = .go p u) (h8 : p.f 8 8 % 8 = 0) (hv : vaOk (p.f 8 8) = true) (ha : p.arg % 8 = 0) (hlo : 8 ≤ p.arg)
    (hhi : p.arg ≤ 2 ^ 24) : exec (.jump eng q) s = .next ((pktDone (queueKey eng q) p stOk u).onQueue (queueKey eng q) fun x =>
      { x with listOn := true, listAt := p.f 8 8, listLen := p.arg, listOff := 0 }) := by
  show execJump eng q s = _
  rw [execJump, packet_go _ h]
  exact if_pos (by simpa [h8, hv, ha, hlo] using hhi)

theorem exec_marker (h : pktTake eng q 0x02 s = .go p u) : exec (.marker eng q) s =
    .next (pktDone (queueKey eng q) { p with value := BitVec.ofNat 64 (p.f 8 8) } stOk u) := by
  show execMarker eng q s = _
  rw [execMarker, packet_go _ h]

/-! ### TIMESTAMP (R294) -/

theorem exec_timestamp_record (h : pktTake eng q 0x03 s = .go p u) (h0 : p.f 8 8 = 0) : exec (.timestamp eng q) s =
    .next (pktDone (queueKey eng q) { p with value := u.tsc.time } stOk u) := by
  show execTimestamp eng q s = _
  rw [execTimestamp, packet_go _ h]
  exact (if_neg (by rw [h0]; decide)).trans (if_pos h0)

theorem exec_timestamp_write {met : Bool} (h : pktTake eng q 0x03 s = .go p u) (h0 : p.f 8 8 ≠ 0) (h8 : p.f 8 8 % 8 = 0) (hv : vaOk (p.f 8 8) = true)
    (hb : bulkCheck u (queueBulk u (u.queue (queueKey eng q))) (p.f 8 8) 8 needW = none)
    (hw : bulkWr (queueBulk u (u.queue (queueKey eng q))) none (p.f 8 8) (leBytes 8 u.now) [] u = (v, met)) : exec (.timestamp eng q) s =
    .next (pktDone (queueKey eng q) { p with value := u.tsc.time } (if met then stPoison else stOk) v) := by
  show execTimestamp eng q s = _
  rw [execTimestamp, packet_go _ h]
  dsimp only
  rw [if_neg (by simp [h8, hv]), if_neg h0, hb]
  dsimp only
  rw [hw]

/-! ### SIGNAL, WAIT and FENCE_SIGNAL (R295) -/

theorem exec_signal {code : Nat} {x : DWord} (h : pktTake eng q 0x04 s = .go p u) (hop : p.f 16 1 = 1 ∨ p.f 16 1 = 2 ∨ p.f 16 1 = 3) (hz : p.f 17 7 = 0)
    (hi : counterId p.arg = true)
    (hr : syncOp (p.f 16 1) (engWait u (queueKey eng q) (u.queue (queueKey eng q)) p.arg (BitVec.ofNat 64 (p.f 8 8))) 0 u = (v, .fin code x)) :
    exec (.signal eng q) s = .next (pktSync (queueKey eng q) p code 0 false v) := by
  show execSignal eng q s = _
  rw [execSignal, packet_go _ h]
  dsimp only
  have hop' : (decide (p.f 16 1 = 1) || decide (p.f 16 1 = 2) || decide (p.f 16 1 = 3)) = true := by
    rcases hop with e | e | e <;> rw [e] <;> decide
  rw [if_neg (by simp [hop', bodyZero, hz, hi]), hr]

theorem wait_legal (hc : condOk (p.f 16 1) = true) (hz : p.f 17 3 = 0) (hi : idOk p.arg = true)
    (hf : isFenceId p.arg = true → p.f 16 1 = 0x12) :
    (!condOk (p.f 16 1) || !bodyZero p 17 3 || !idOk p.arg || (isFenceId p.arg && p.f 16 1 != 0x12)) = false := by
  have hk : (isFenceId p.arg && p.f 16 1 != 0x12) = false := by
    cases hb : isFenceId p.arg with
    | false => rfl
    | true => rw [hf hb]; decide
  simp [hc, bodyZero, hz, hi, hk]

section Wait
variable (h : pktTake eng q 0x05 s = .go p u) (hc : condOk (p.f 16 1) = true) (hz : p.f 17 3 = 0) (hi : idOk p.arg = true)
  (hf : isFenceId p.arg = true → p.f 16 1 = 0x12)
include h hc hz hi hf

theorem exec_wait_fin {code : Nat} {x : DWord} (hr : syncOp (p.f 16 1) (engWait u (queueKey eng q) (u.queue (queueKey eng q)) p.arg
      (if p.f 16 1 = 0x12 then 0 else BitVec.ofNat 64 (p.f 8 8))) (p.f 20 4) u = (v, .fin code x)) :
    exec (.wait eng q) s = .next (pktSync (queueKey eng q) p code x true v) := by
  show execWait eng q s = _
  rw [execWait, packet_go _ h]
  dsimp only
  rw [wait_legal hc hz hi hf, if_neg Bool.false_ne_true, hr]

theorem exec_wait_waits (hr : syncOp (p.f 16 1) (engWait u (queueKey eng q) (u.queue (queueKey eng q)) p.arg
      (if p.f 16 1 = 0x12 then 0 else BitVec.ofNat 64 (p.f 8 8))) (p.f 20 4) u = (v, .waits)) :
    exec (.wait eng q) s = .next (pktPush (queueKey eng q) { p with st := .running } false v) := by
  show execWait eng q s = _
  rw [execWait, packet_go _ h]
  dsimp only
  rw [wait_legal hc hz hi hf, if_neg Bool.false_ne_true, hr]

end Wait

theorem exec_fenceSignal {code : Nat} (h : pktTake eng q 0x06 s = .go p u) (hi : idOk p.arg = true) (hf : isFenceId p.arg = true)
    (ha : fenceAllowed u p.arg (u.queue (queueKey eng q)).ctx = true) (hr : fenceSignal (fenceKey p.arg) (engSrc eng) u = (v, code)) :
    exec (.fenceSignal eng q) s = .next (pktSync (queueKey eng q) p code 0 false v) := by
  show execFenceSignal eng q s = _
  rw [execFenceSignal, packet_go _ h]
  dsimp only
  rw [if_neg (by simp [hi, hf]), if_neg (by simp [ha]), hr]

end Packets

/-- Settles O23, packet by packet. -/
theorem controlPacketsComplete : Obligations.ControlPacketsComplete := by
  intro eng q p s u k
  refine ⟨exec_nop, exec_jump, exec_marker, exec_timestamp_record, fun v met => exec_timestamp_write, fun v code x => exec_signal,
    fun r h hc hz hi hf hr => ?_, fun v code => exec_fenceSignal⟩
  exact ⟨fun v code x e => exec_wait_fin h hc hz hi hf (hr.symm.trans e), fun v e => exec_wait_waits h hc hz hi hf (hr.symm.trans e)⟩

end Sys2Proof.Machine

/-! Launches, copies and remote packets (O24): what a packet's run does once its fields are legal and its rows translate. -/
namespace Sys2Proof.Machine
open Sys2Proof

section Transfers
variable {eng q k : Nat} {p : Pkt} {s u : State}

/-! ### LAUNCH (R296) -/

theorem exec_launch_running {l : Launch} (hl : l = launchOf u eng (queueKey eng q) { p with items := p.arg }) (h : pktTake eng q 0x10 s = .go p u)
    (hb : launchBad p = none) (hm : l.mask.any (fun i => (u.phys (lOf eng i)).isSome) = true) (hq : groupQuota u (u.queue (queueKey eng q)).ctx ≠ some 0) :
    exec (.launch eng q) s = .next (pktPush (queueKey eng q) { p with items := p.arg, st := .running, launch := launchKey eng l.seq } false
      ((u.onEngine eng fun e => { e with launchSeq := (e.launchSeq + 1) % 2 ^ 32 }).onLaunches fun t => t.put (launchKey eng l.seq) l)) := by
  have hl' : launchOf u eng (queueKey eng q) p = l := hl.symm
  show execLaunch eng q s = _
  rw [execLaunch, packet_go _ h]
  dsimp only
  rw [hb, hl']
  exact (if_neg (by rw [hm]; decide)).trans (if_neg hq)

/-! ### The rows of a command that goes on (R258 R298) -/

/-- No row lies at a device without a route or must wait, and the run store has room. -/
structure RowsGo (k : Nat) (xs : List XRow) (u : State) : Prop where
  way : noWay u k xs = false
  waits : xs.any (rowWaits u (queueBulk u (u.queue k))) = false
  room : (u.engines.get (k / 1024)).runsUsed + runsOf xs ≤ runStore

/-- Of the three ways in which rows can end a command early, rows that go on take none. -/
theorem RowsGo.goesOn {α : Type} {xs : List XRow} (h : RowsGo k xs u) (x y z w : α) :
    (if noWay u k xs = true then x else if (xs.any (rowWaits u (queueBulk u (u.queue k)))) = true then y
      else if runStore < (u.engines.get (k / 1024)).runsUsed + runsOf xs then z else w) = w := by
  rw [h.way, h.waits, if_neg Bool.false_ne_true, if_neg Bool.false_ne_true, if_neg (Nat.not_lt.2 h.room)]

/-! ### Copies (R298 R299) -/

theorem copyRun_goes {rows : List Row} {pat : Option Nat} {rej : List Nat} {xs : List XRow} (hx : physRows u (u.queue k).ctx rows = .ok xs)
    (hg : RowsGo k xs u) {v : State × List RowOut}
    (hv : v = rowsGo (queueBulk u (u.queue k)) k { p with items := rows.length } pat rej xs
      (pktPush k { p with items := rows.length, st := .running, pins := pinsOf rows, runs := runsOf xs } false
        (u.onEngine (k / 1024) fun e => { e with runsUsed := e.runsUsed + runsOf xs }))) :
    copyRun rows pat rej k p u = .next (rowsDone k p.id v.2 (v.1.onFreeN (· + if pat.isNone && overlaps xs then (xs.map fun x => x.row.len).sum else 0))) := by
  subst hv
  unfold copyRun
  dsimp only
  rw [hx]
  exact hg.goesOn _ _ _ _

theorem copyPacket_legal {addrs : List Nat} {rows : Pkt → List Row} {bad5 : Pkt → Bool} {pat : Pkt → Option Nat} {rej : List Nat}
    (hr : rowsOk (rows p) = true) (ha : (addrs.all fun i => vaOk (p.f i 8)) = true) (hb : bad5 p = false) :
    copyPacket addrs rows bad5 pat rej k p u = copyRun (rows p) (pat p) rej k p u :=
  (if_neg (by rw [hr, ha]; decide)).trans (if_neg (by rw [hb]; decide))

variable {rejected : List Nat}

theorem exec_copy_legal (h : pktTake eng q 0x20 s = .go p u) (hr : rowsOk (cutRows (some (p.f 8 8)) (p.f 16 8) (p.f 24 8)) = true)
    (hs : vaOk (p.f 8 8) = true) (hd : vaOk (p.f 16 8) = true) : exec (.copy eng q rejected) s =
      copyRun (cutRows (some (p.f 8 8)) (p.f 16 8) (p.f 24 8)) none rejected (queueKey eng q) p u := by
  show execCopy eng q rejected s = _
  rw [execCopy, packet_go _ h]
  exact copyPacket_legal hr (by simp [hs, hd]) rfl

theorem exec_copy2d_legal (h : pktTake eng q 0x21 s = .go p u) (hr : rowsOk (rows2 p 1 0 0) = true)
    (hs : vaOk (p.f 8 8) = true) (hd : vaOk (p.f 16 8) = true) : exec (.copy2d eng q rejected) s =
      copyRun (rows2 p 1 0 0) none rejected (queueKey eng q) p u := by
  show execCopy2d eng q rejected s = _
  rw [execCopy2d, packet_go _ h]
  exact copyPacket_legal hr (by simp [hs, hd]) rfl

theorem exec_copy3d_legal (h : pktTake eng q 0x22 s = .go p u) (hr : rowsOk (rows2 p (p.f 48 4) (p.f 56 8) (p.f 64 8)) = true)
    (hs : vaOk (p.f 8 8) = true) (hd : vaOk (p.f 16 8) = true) (hz : p.f 52 4 = 0) : exec (.copy3d eng q rejected) s =
      copyRun (rows2 p (p.f 48 4) (p.f 56 8) (p.f 64 8)) none rejected (queueKey eng q) p u := by
  show execCopy3d eng q rejected s = _
  rw [execCopy3d, packet_go _ h]
  exact copyPacket_legal hr (by simp [hs, hd]) (by simp [bodyZero, hz])

theorem exec_fill_legal (h : pktTake eng q 0x23 s = .go p u) (hr : rowsOk (cutRows none (p.f 8 8) (p.f 16 8)) = true)
    (hd : vaOk (p.f 8 8) = true) : exec (.fill eng q) s =
      copyRun (cutRows none (p.f 8 8) (p.f 16 8)) (some (p.f 24 8)) [] (queueKey eng q) p u := by
  show execFill eng q s = _
  rw [execFill, packet_go _ h]
  exact copyPacket_legal hr (by simp [hd]) rfl

/-- A copy command whose fields are legal runs its rows. -/
theorem exec_copies_legal {c : Instr} {op : Nat} {rows : List Row} {pat : Option Nat} {rej : List Nat} (h : pktTake eng q op s = .go p u)
    (hc : op = 0x20 ∧ c = .copy eng q rejected ∧ rej = rejected ∧ rows = cutRows (some (p.f 8 8)) (p.f 16 8) (p.f 24 8) ∧ pat = none ∨
      op = 0x21 ∧ c = .copy2d eng q rejected ∧ rej = rejected ∧ rows = rows2 p 1 0 0 ∧ pat = none ∨
      op = 0x22 ∧ c = .copy3d eng q rejected ∧ rej = rejected ∧ rows = rows2 p (p.f 48 4) (p.f 56 8) (p.f 64 8) ∧ p.f 52 4 = 0 ∧ pat = none ∨
      op = 0x23 ∧ c = .fill eng q ∧ rej = [] ∧ rows = cutRows none (p.f 8 8) (p.f 16 8) ∧ pat = some (p.f 24 8))
    (hr : rowsOk rows = true) (hs : vaOk (p.f 8 8) = true) (hd : op = 0x23 ∨ vaOk (p.f 16 8) = true) :
    exec c s = copyRun rows pat rej (queueKey eng q) p u := by
  obtain ⟨rfl, rfl, rfl, rfl, rfl⟩ | ⟨rfl, rfl, rfl, rfl, rfl⟩ | ⟨rfl, rfl, rfl, rfl, hz, rfl⟩ | ⟨rfl, rfl, rfl, rfl, rfl⟩ := hc
  · exact exec_copy_legal h hr hs (hd.resolve_left (by decide))
  · exact exec_copy2d_legal h hr hs (hd.resolve_left (by decide))
  · exact exec_copy3d_legal h hr hs (hd.resolve_left (by decide)) hz
  · exact exec_fill_legal h hr hs

/-! ### REMOTE_PUT and REMOTE_GET (R300 R347) -/

/-- A transfer within the device whose near side translates and whose rows go on. -/
theorem moveHome_goes {get : Bool} {rows : List Row} {ns : List (List (Nat × Nat))} {ys : List (Option XRow)} {xs : List XRow} {r : Pkt}
    {v : State × List RowOut} (hn : nearRanges u (u.queue k).ctx get rows = .ok ns) (hy : ys = homeRows u get { p with items := rows.length } rows ns)
    (hx : xs = ys.filterMap id) (hg : RowsGo k xs u)
    (hr : r = { p with items := rows.length, st := .running, runs := runsOf xs, pins := rows.map fun r => (if get then r.dst else r.src.getD 0, r.len) })
    (hv : v = homeGo (queueBulk u (u.queue k)) k r ys (pktPush k r false (u.onEngine (k / 1024) fun e => { e with runsUsed := e.runsUsed + runsOf xs }))) :
    moveHome get rows k p u = .next (rowsDone k r.id v.2 v.1) := by
  subst hv hr hx hy
  unfold moveHome
  dsimp only
  rw [hn]
  exact hg.goesOn _ _ _ _

/-- A transfer with another device whose local side translates and whose rows go on. -/
theorem moveFar_goes {rej : List Nat} {side rows : List Row} {go : Bulk → Nat → Pkt → Nat → XRow → State → State} {ls xs : List XRow} {r : Pkt}
    {v : State × Pkt} (hl : physRows u (u.queue k).ctx side = .ok ls) (hx : xs = farRows rows ls) (hg : RowsGo k xs u)
    (hr : r = { p with items := rows.length, st := .running, runs := runsOf xs, pins := farPins xs })
    (hv : v = remoteItems (queueBulk u (u.queue k)) rej r (go (queueBulk u (u.queue k)) k r) xs
      (u.onEngine (k / 1024) fun e => { e with runsUsed := e.runsUsed + runsOf xs })) :
    moveFar rej side rows go k p u = .next (pktSettle k v.2.id (pktPush k v.2 false v.1)) := by
  subst hv hr hx
  unfold moveFar
  dsimp only
  rw [hl]
  exact hg.goesOn _ _ _ _

section Remote
variable {rows : List Row} (hrows : rows = cutRows (some (p.f 8 8)) (p.f 16 8) (p.f 24 8))
  (hb : remoteBad u eng rows (moveVa p) (moveOk p) (p.f 32 2) (p.f 36 1) = none)
include hrows hb

theorem exec_remotePut_home (h : pktTake eng q 0x30 s = .go p u) (hd : p.f 32 2 = u.devId) :
    exec (.remotePut eng q rejected) s = moveHome false rows (queueKey eng q) p u := by
  subst hrows
  show execRemotePut eng q rejected s = _
  rw [execRemotePut, packet_go _ h]
  dsimp only
  rw [hb]
  exact if_pos hd

theorem exec_remotePut_far (h : pktTake eng q 0x30 s = .go p u) (hd : p.f 32 2 ≠ u.devId) :
    exec (.remotePut eng q rejected) s = moveFar rejected (rows.map fun r => { r with dst := 0 }) rows putItem (queueKey eng q) p u := by
  subst hrows
  show execRemotePut eng q rejected s = _
  rw [execRemotePut, packet_go _ h]
  dsimp only
  rw [hb]
  exact if_neg hd

theorem exec_remoteGet_home (h : pktTake eng q 0x31 s = .go p u) (hd : p.f 32 2 = u.devId) :
    exec (.remoteGet eng q) s = moveHome true rows (queueKey eng q) p u := by
  subst hrows
  show execRemoteGet eng q s = _
  rw [execRemoteGet, packet_go _ h]
  dsimp only
  rw [hb]
  exact if_pos hd

theorem exec_remoteGet_far (h : pktTake eng q 0x31 s = .go p u) (hd : p.f 32 2 ≠ u.devId) :
    exec (.remoteGet eng q) s = moveFar [] (rows.map fun r => { r with src := none }) rows getItem (queueKey eng q) p u := by
  subst hrows
  show execRemoteGet eng q s = _
  rw [execRemoteGet, packet_go _ h]
  dsimp only
  rw [hb]
  exact if_neg hd

theorem exec_move_home {c : Instr} {op : Nat} {get : Bool} (h : pktTake eng q op s = .go p u)
    (hc : op = 0x30 ∧ c = .remotePut eng q rejected ∧ get = false ∨ op = 0x31 ∧ c = .remoteGet eng q ∧ get = true) (hd : p.f 32 2 = u.devId) :
    exec c s = moveHome get rows (queueKey eng q) p u := by
  obtain ⟨rfl, rfl, rfl⟩ | ⟨rfl, rfl, rfl⟩ := hc
  · exact exec_remotePut_home hrows hb h hd
  · exact exec_remoteGet_home hrows hb h hd

theorem exec_move_far {c : Instr} {op : Nat} {rej : List Nat} {side : List Row} {item : Bulk → Nat → Pkt → Nat → XRow → State → State}
    (h : pktTake eng q op s = .go p u)
    (hc : op = 0x30 ∧ c = .remotePut eng q rejected ∧ rej = rejected ∧ side = rows.map (fun r => { r with dst := 0 }) ∧ item = putItem ∨
      op = 0x31 ∧ c = .remoteGet eng q ∧ rej = [] ∧ side = rows.map (fun r => { r with src := none }) ∧ item = getItem) (hd : p.f 32 2 ≠ u.devId) :
    exec c s = moveFar rej side rows item (queueKey eng q) p u := by
  obtain ⟨rfl, rfl, rfl, rfl, rfl⟩ | ⟨rfl, rfl, rfl, rfl, rfl⟩ := hc
  · exact exec_remotePut_far hrows hb h hd
  · exact exec_remoteGet_far hrows hb h hd

end Remote

/-! ### REMOTE_WAIT (R300) -/

section RemoteWait
variable (h : pktTake eng q 0x32 s = .go p u)
  (hb : remoteBad u eng [] true (condOk (p.f 20 1) && bodyZero p 22 2 && bodyZero p 28 4 && counterId p.arg) (p.f 16 2) (p.f 21 1) = none)
include h hb

theorem exec_remoteWait_far (hd : p.f 16 2 ≠ u.devId) : exec (.remoteWait eng q) s = .next (engSend (queueKey eng q)
    { pkt := { type := 5, dst := p.f 16 2, sctx := (u.queue (queueKey eng q)).ctx, sgen := p.gen, dctx := p.f 18 2, len := p.f 20 1
               counter := BitVec.ofNat 32 p.arg, value := BitVec.ofNat 64 (p.f 8 8) }
      pktId := p.id, port := p.f 21 1 } (remoteTimeout u (p.f 24 4)) (pktPush (queueKey eng q) { p with st := .running } false u)) := by
  show execRemoteWait eng q s = _
  rw [execRemoteWait, packet_go _ h]
  dsimp only
  rw [hb]
  exact if_neg hd

theorem exec_remoteWait_home (hd : p.f 16 2 = u.devId) : exec (.remoteWait eng q) s = waitHome (queueKey eng q) p u := by
  show execRemoteWait eng q s = _
  rw [execRemoteWait, packet_go _ h]
  dsimp only
  rw [hb]
  exact if_pos hd

end RemoteWait

section WaitHome
variable {r : State × SyncRes} (hr : r = syncOp (p.f 20 1) (engWait u k (u.queue k) p.arg (if p.f 20 1 = 0x12 then 0 else BitVec.ofNat 64 (p.f 8 8)))
  (if p.f 24 4 = 0 then coreTimeout u / 1000 else p.f 24 4) u)
include hr

theorem waitHome_fin {v : State} {code : Nat} {x : DWord} (e : r = (v, .fin code x)) : waitHome k p u = .next (pktSync k p code x true v) := by
  unfold waitHome
  dsimp only
  rw [← hr, e]

theorem waitHome_waits {v : State} (e : r = (v, .waits)) : waitHome k p u = .next (pktPush k { p with st := .running } false v) := by
  unfold waitHome
  dsimp only
  rw [← hr, e]

end WaitHome
end Transfers

/-- Settles O24, packet by packet. -/
theorem transferPacketsComplete : Obligations.TransferPacketsComplete := by
  intro eng q rejected p s u k b room goes use
  refine ⟨exec_launch_running rfl, ?copies, ?home, ?far, fun h hb => ⟨exec_remoteWait_far h hb, fun r hd hr => ⟨fun v code x e => ?fin, fun v e => ?waits⟩⟩⟩
  case copies =>
    intro c op rows pat rej xs h hc hr hs hd hx ⟨hw, hh, hm⟩ v n hv hn
    rw [exec_copies_legal h hc hr hs hd, hn]
    exact copyRun_goes hx ⟨hw, hh, hm⟩ hv
  case home =>
    intro c op get rows ns h hc hrows hb hd hn ys xs r v hy hx ⟨hw, hh, hm⟩ hr hv
    rw [exec_move_home hrows hb h hc hd]
    exact moveHome_goes hn hy hx ⟨hw, hh, hm⟩ hr hv
  case far =>
    intro c op rej rows side item ls h hc hrows hb hd hl xs r v hx ⟨hw, hh, hm⟩ hr hv
    rw [exec_move_far hrows hb h hc hd]
    exact moveFar_goes hl hx ⟨hw, hh, hm⟩ hr hv
  case fin => rw [exec_remoteWait_home h hb hd, waitHome_fin hr e]
  case waits => rw [exec_remoteWait_home h hb hd, waitHome_waits hr e]

end Sys2Proof.Machine

/-! Requests that wait (O58). A CONTEXT_RESET stays in its ring while a swap moves a group of the context it names (R390, `resetWaits`), and
it does so before its header is looked at: one that names a context under another generation is not answered either. -/
namespace Sys2Proof.Machine
open Sys2Proof

/-- Management is ready and the physical function has handed over a request; a checked swap of logical core 0 has saved the group of
context 1 that stood there. -/
def moving : State :=
  { State.reset with
    pcie := [(0, { up := true, serving := true })]
    mgmt := { State.reset.mgmt with ready := true }
    fns := [(0, { reqBase := 1, reqTail := 1 })]
    ctxs := [(1, { live := true })]
    saved := [{ ctx := 1 }]
    mesh := { State.reset.mesh with swaps := [(0, some (128, true, 0))] } }

/-- The header of a request that names context 1 under a generation that is not the present one. -/
def staleHdr : Hdr := { ctx := 1, gen := 1 }

theorem moving_takes_staleHdr : pmiGo moving staleHdr = true ∧ (moving.ctx staleHdr.ctx).inReset = false ∧ ctxStatus moving staleHdr = some pStale := by
  decide +kernel

theorem resetWaits_moving : resetWaits moving staleHdr.ctx 0 (snapBuf 0 0) = true := by decide +kernel

theorem exec_contextReset_moving : exec (.contextReset staleHdr 0 0) moving = .next moving := by
  show execContextReset staleHdr 0 0 moving = _
  rw [execContextReset]
  exact if_pos resetWaits_moving

/-- A refusal takes the request out of its ring. -/
theorem pmiRefuse_moving_reqHead :
    ((pmiRefuse staleHdr 0x0003 pStale (taken staleHdr moving)).fn 0).reqHead = 1 ∧ (moving.fn 0).reqHead = 0 := by decide +kernel

/-- Refutes O58: a CONTEXT_RESET under a generation that is not the context's is not answered while a swap moves a group of that context. -/
theorem not_requestsWaitOrAreRefused : ¬ Obligations.RequestsWaitOrAreRefused := by
  intro h
  obtain ⟨hgo, hreset, hstale⟩ := moving_takes_staleHdr
  obtain ⟨-, -, hrefused, -⟩ := h (.contextReset staleHdr 0 0) staleHdr moving
  have hsame : moving = pmiRefuse staleHdr 0x0003 pStale (taken staleHdr moving) := Host.Outcome.next.inj
    (exec_contextReset_moving.symm.trans (hrefused 0x0003 pStale rfl (fun e q d hc => by cases hc) hgo hreset hstale))
  obtain ⟨hafter, hbefore⟩ := pmiRefuse_moving_reqHead
  rw [← hsame, hbefore] at hafter
  exact absurd hafter (by decide)

end Sys2Proof.Machine

/-! Answers at their source (O46): what each answer, retry and timeout does to the request that it names. -/
namespace Sys2Proof.Machine
open Sys2Proof

section Answers
variable {port : Nat} {k : FPkt} {s u : State} {r : Rreq}

/-! ### Answers that name a request, and answers to nothing (R350) -/

theorem exec_putAck_unnamed (ha : arrive 2 port true k s = .mine u) (hn : answered u k = none) : exec (.putAck port true k) s = .next u := by
  show execPutAck port true k s = _
  rw [execPutAck, ha]
  dsimp only
  rw [hn]

theorem exec_putAck_named (ha : arrive 2 port true k s = .mine u) (hr : answered u k = some r) (ht : r.pkt.type = 1) :
    exec (.putAck port true k) s = .next (if k.status = 1 then retryLater r u else putEnd r (itemStatus k.status) u) := by
  show execPutAck port true k s = _
  rw [execPutAck, ha]
  dsimp only
  rw [hr]
  exact congrArg _ (if_neg (by simp [ht]))

theorem exec_getData_unnamed (ha : arrive 4 port true k s = .mine u) (hn : answered u k = none) : exec (.getData port true k) s = .next u := by
  show execGetData port true k s = _
  rw [execGetData, ha]
  dsimp only
  rw [hn]

theorem exec_getData_later (ha : arrive 4 port true k s = .mine u) (hr : answered u k = some r) (ht : r.pkt.type = 3) (h1 : k.status = 1) :
    exec (.getData port true k) s = .next (retryLater r u) := by
  show execGetData port true k s = _
  rw [execGetData, ha]
  dsimp only
  rw [hr]
  exact (if_neg (by simp [ht, h1])).trans (if_pos h1)

section Data
variable (ha : arrive 4 port true k s = .mine u) (hr : answered u k = some r) (ht : r.pkt.type = 3)
  (hl : k.status = 0 ∨ k.status = 2 → k.len = r.pkt.len) (h1 : k.status ≠ 1)

/-- The bytes are as many as were asked for, where the answer has any. -/
theorem getData_fits (ht : r.pkt.type = 3) (hl : k.status = 0 ∨ k.status = 2 → k.len = r.pkt.len) :
    (r.pkt.type != 3 || (k.len != r.pkt.len && (k.status = 0 || k.status = 2))) = false := by
  by_cases hs : k.status = 0 ∨ k.status = 2
  · simp [ht, hl hs]
  · simp [ht, not_or.mp hs]

include ha hr ht hl h1

theorem exec_getData_engine {q : Nat} (hq : r.queue = some q) (hp : r.pktId ≠ 0) (hw : getWaits (acctAdd r.pkt.sctx aFabRx k.len u) r q = false) :
    exec (.getData port true k) s = .next (getEnd r q k (acctAdd r.pkt.sctx aFabRx k.len u)) := by
  show execGetData port true k s = _
  rw [execGetData, ha]
  dsimp only
  rw [hr]
  dsimp only
  rw [getData_fits ht hl, if_neg Bool.false_ne_true, if_neg h1, hq]
  exact (if_neg hp).trans (if_neg (by rw [hw]; decide))

theorem exec_getData_packet {q : Nat} (hq : r.queue = some q) (hp : r.pktId = 0) :
    exec (.getData port true k) s = .next (lineGot r k.data k.status (reqEnd r (acctAdd r.pkt.sctx aFabRx k.len u))) := by
  show execGetData port true k s = _
  rw [execGetData, ha]
  dsimp only
  rw [hr]
  dsimp only
  rw [getData_fits ht hl, if_neg Bool.false_ne_true, if_neg h1, hq]
  exact if_pos hp

theorem exec_getData_load (hq : r.queue = none) :
    exec (.getData port true k) s = .next (lineGot r k.data k.status (latchLoad r 1 (reqEnd r (acctAdd r.pkt.sctx aFabRx k.len u)))) := by
  show execGetData port true k s = _
  rw [execGetData, ha]
  dsimp only
  rw [hr]
  dsimp only
  rw [getData_fits ht hl, if_neg Bool.false_ne_true, if_neg h1, hq]

end Data

theorem exec_waitDone_unnamed (ha : arrive 6 port true k s = .mine u) (hn : answered u k = none) : exec (.waitDone port true k) s = .next u := by
  show execWaitDone port true k s = _
  rw [execWaitDone, ha]
  dsimp only
  rw [hn]

theorem exec_waitDone_named {q : Nat} (ha : arrive 6 port true k s = .mine u) (hr : answered u k = some r) (hq : r.queue = some q) (ht : r.pkt.type = 5) :
    exec (.waitDone port true k) s = .next (if k.status = 1 then retryLater r u else
      waitPktEnd q (if k.status = 0 then rOk else if k.status = 4 then rAbandoned else rRemoteDenied) k.value (reqEnd r u)) := by
  show execWaitDone port true k s = _
  rw [execWaitDone, ha]
  dsimp only
  rw [hr]
  dsimp only
  rw [hq]
  exact (if_neg (by simp [ht])).trans (apply_ite _ _ _ _).symm

/-- Commands that bring an answer, with the type of its packet, and the request that each can answer. -/
def Answers (port : Nat) (k : FPkt) (r : Rreq) (c : Instr) (ty : Nat) : Prop :=
  c = .putAck port true k ∧ ty = 2 ∧ r.pkt.type = 1 ∨ c = .getData port true k ∧ ty = 4 ∧ r.pkt.type = 3 ∨
    c = .waitDone port true k ∧ ty = 6 ∧ r.pkt.type = 5 ∧ r.queue.isSome

theorem Answers.exec_unnamed {c : Instr} {ty : Nat} (hc : Answers port k r c ty) (ha : arrive ty port true k s = .mine u) (hn : answered u k = none) :
    exec c s = .next u := by
  obtain ⟨rfl, rfl, -⟩ | ⟨rfl, rfl, -⟩ | ⟨rfl, rfl, -, -⟩ := hc
  · exact exec_putAck_unnamed ha hn
  · exact exec_getData_unnamed ha hn
  · exact exec_waitDone_unnamed ha hn

theorem Answers.exec_later {c : Instr} {ty : Nat} (hc : Answers port k r c ty) (ha : arrive ty port true k s = .mine u) (hr : answered u k = some r)
    (h1 : k.status = 1) : exec c s = .next (retryLater r u) := by
  obtain ⟨rfl, rfl, ht⟩ | ⟨rfl, rfl, ht⟩ | ⟨rfl, rfl, ht, hq⟩ := hc
  · rw [exec_putAck_named ha hr ht, if_pos h1]
  · exact exec_getData_later ha hr ht h1
  · obtain ⟨q, hq⟩ := Option.isSome_iff_exists.mp hq
    rw [exec_waitDone_named ha hr hq ht, if_pos h1]

/-! ### Retries and timeouts (R350) -/

theorem exec_remoteRetry_due {txn t0 : Nat} (hr : reqNamed s txn = some r) (h0 : r.retryAt = some t0) (ht : t0 ≤ s.now) (hd : s.now < r.deadline) :
    exec (.remoteRetry txn) s =
      .next (fabOut r.pkt (s.onFab fun f => { f with reqs := f.reqs.map fun y => if y = r then { y with retryAt := none } else y })) := by
  show execRemoteRetry txn s = _
  rw [execRemoteRetry, hr]
  dsimp only
  rw [h0]
  exact if_neg (by simp only [Bool.or_eq_true, decide_eq_true_eq]; omega)

section Timeout
variable {txn : Nat} (hr : reqNamed s txn = some r) (hd : r.deadline ≤ s.now)
include hr hd

theorem exec_remoteRequestTimeout_put (ht : r.pkt.type = 1) : exec (.remoteRequestTimeout txn) s = .next (putEnd r stTimeoutRemote s) := by
  show execRemoteRequestTimeout txn s = _
  rw [execRemoteRequestTimeout, hr]
  dsimp only
  rw [if_neg (Nat.not_lt.2 hd), ht]
  cases r.queue <;> rfl

theorem exec_remoteRequestTimeout_get (ht : r.pkt.type = 3) (hq : r.queue.isSome = true) (hp : r.pktId ≠ 0) :
    exec (.remoteRequestTimeout txn) s = .next (itemAnswer r stTimeoutRemote (reqEnd r s)) := by
  obtain ⟨q, hq⟩ := Option.isSome_iff_exists.mp hq
  show execRemoteRequestTimeout txn s = _
  rw [execRemoteRequestTimeout, hr]
  dsimp only
  rw [if_neg (Nat.not_lt.2 hd), ht, hq]
  exact if_neg hp

theorem exec_remoteRequestTimeout_load (ht : r.pkt.type = 3) (hq : r.queue = none) :
    exec (.remoteRequestTimeout txn) s = .next (lineGot r [] 2 (latchLoad r 2 (reqEnd r s))) := by
  show execRemoteRequestTimeout txn s = _
  rw [execRemoteRequestTimeout, hr]
  dsimp only
  simp only [if_neg (Nat.not_lt.2 hd), ht, hq]

theorem exec_remoteRequestTimeout_wait {q : Nat} (ht : r.pkt.type = 5) (hq : r.queue = some q) : exec (.remoteRequestTimeout txn) s =
    .next (waitPktEnd q rTimeout s.draw (fabOut { r.pkt with type := 7, len := 0, value := 0, counter := 0 } (reqEnd r s.drawn))) := by
  show execRemoteRequestTimeout txn s = _
  rw [execRemoteRequestTimeout, hr]
  dsimp only
  simp only [if_neg (Nat.not_lt.2 hd), ht, hq]

end Timeout
end Answers

/-- Settles O46, answer by answer. -/
theorem remoteAnswersComplete : Obligations.RemoteAnswersComplete := by
  intro port k s u r
  refine ⟨fun c ty hc ha => ?named, fun ha hr ht h1 => ?put, fun ha hr ht hl h1 v hv => ?data, fun q ha hr hq ht h1 => ?wait,
    ⟨rfl, rfl, rfl, rfl⟩, fun txn t0 hr h0 ht hd => exec_remoteRetry_due hr h0 ht hd, fun txn hr hd => ?timeout⟩
  case named =>
    have hc' : Answers port k r c ty := hc
    refine ⟨hc'.exec_unnamed ha, fun hr h1 b hb => ?_⟩
    subst hb
    exact hc'.exec_later ha hr h1
  case put => rw [exec_putAck_named ha hr ht, if_neg h1]
  case data =>
    subst hv
    exact ⟨fun q hq hp hw => exec_getData_engine ha hr ht hl h1 hq hp hw, fun q hq hp => exec_getData_packet ha hr ht hl h1 hq hp,
      exec_getData_load ha hr ht hl h1⟩
  case wait => rw [exec_waitDone_named ha hr hq ht, if_neg h1]
  case timeout =>
    exact ⟨exec_remoteRequestTimeout_put hr hd, exec_remoteRequestTimeout_get hr hd, exec_remoteRequestTimeout_load hr hd,
      fun q ht hq => exec_remoteRequestTimeout_wait hr hd ht hq⟩

end Sys2Proof.Machine

/-! Slots of queues, shares and accounts (O28): the first of a list by an order, one context's sample, and the fold of the samples. -/
namespace Sys2Proof.Machine
open Sys2Proof

variable {s : State}

/-! ### Slots of queues (R321 R322) -/

section Slots
variable {eng q : Nat}

/-- A queue waits for a slot of an engine that works. -/
theorem waits_for_slot (hq : q < 1024) (he : engineRuns s eng = true) (hp : (s.queue (queueKey eng q)).pending = true) :
    ¬ (1024 ≤ q || !(s.queue (queueKey eng q)).pending || !engineRuns s eng) = true := by
  simp [he, hp, hq]

theorem exec_slotGrant_free (hq : q < 1024) (he : engineRuns s eng = true) (hp : (s.queue (queueKey eng q)).pending = true)
    (hb : bestPending s eng = some (queueKey eng q)) (hn : (residentQs s eng).length < 64) :
    exec (.slotGrant eng q) s = .next (takeSlot (queueKey eng q) s) :=
  (if_neg (waits_for_slot hq he hp)).trans ((if_neg (by simp [hb])).trans (if_pos hn))

theorem exec_slotGrant_taken {v : Nat} (hq : q < 1024) (he : engineRuns s eng = true) (hp : (s.queue (queueKey eng q)).pending = true)
    (hb : bestPending s eng = some (queueKey eng q)) (hn : ¬ (residentQs s eng).length < 64)
    (hv : loserFor s eng (queuePrec s (queueKey eng q)) = some v) :
    exec (.slotGrant eng q) s = .next (takeSlot (queueKey eng q) (loseSlot v s)) := by
  show execSlotGrant eng q s = _
  unfold execSlotGrant
  dsimp only
  rw [if_neg (waits_for_slot hq he hp), if_neg (by simp [hb]), if_neg (show ¬ _ < slotsMax from hn), hv]

theorem exec_slotGrant_deferred (hq : q < 1024) (he : engineRuns s eng = true) (hp : (s.queue (queueKey eng q)).pending = true)
    (hb : bestPending s eng ≠ some (queueKey eng q)) (hn : ¬ (residentQs s eng).length < 64) :
    exec (.slotGrant eng q) s = .next (deferNext (queueKey eng q) s) :=
  (if_neg (waits_for_slot hq he hp)).trans ((if_pos (by simpa using hb)).trans (congrArg _ (if_pos (Nat.not_lt.mp hn))))

/-- The element of a list that precedes every other one is its first. -/
theorem firstBy_eq_some {before : Nat → Nat → Bool} {l : List Nat} {v : Nat} (hv : v ∈ l) (hfirst : ∀ w ∈ l, w ≠ v → before v w = true)
    (hnone : ∀ w ∈ l, before w v = false) : firstBy before l = some v := by
  have hgood : (!(l.any fun b => before b v)) = true := by simpa using hnone
  cases hf : firstBy before l with
  | none => exact absurd hgood (by simpa using List.find?_eq_none.mp hf v hv)
  | some w =>
    by_cases hw : w = v
    · rw [hw]
    · have hmem : w ∈ l := List.mem_of_find?_eq_some hf
      have hbad : l.any (fun b => before b w) = true := List.any_eq_true.mpr ⟨v, hv, hfirst w hmem hw⟩
      have hsome := List.find?_some hf
      simp [hbad] at hsome

/-- The queue of a level that has been resident longest. -/
theorem longest_resident {k v : Nat} (hv : v ∈ residentQs s eng) (hk : queuePrec s v = queuePrec s k)
    (hl : ∀ w ∈ residentQs s eng, w ≠ v → queuePrec s w = queuePrec s k → (s.queue v).resAt < (s.queue w).resAt) :
    firstBy (fun a b => decide ((s.queue a).resAt < (s.queue b).resAt)) ((residentQs s eng).filter fun r => queuePrec s r = queuePrec s k) = some v := by
  have hw : ∀ w ∈ (residentQs s eng).filter (fun r => queuePrec s r = queuePrec s k), w ≠ v → (s.queue v).resAt < (s.queue w).resAt := by
    intro w hw hne
    obtain ⟨hmem, hp⟩ := List.mem_filter.mp hw
    exact hl w hmem hne (of_decide_eq_true hp)
  refine firstBy_eq_some (List.mem_filter.mpr ⟨hv, decide_eq_true hk⟩) (fun w h hne => decide_eq_true (hw w h hne)) fun w h => ?_
  by_cases hne : w = v
  · subst hne; exact decide_eq_false (Nat.lt_irrefl _)
  · exact decide_eq_false (Nat.lt_asymm (hw w h hne))

theorem exec_residencyRotate {v : Nat} (hq : q < 1024) (he : engineRuns s eng = true) (hp : (s.queue (queueKey eng q)).pending = true)
    (hb : bestPending s eng = some (queueKey eng q)) (hn : ¬ (residentQs s eng).length < 64) (hw : waitedSince s (queueKey eng q) + 2000000 ≤ s.now)
    (hv : v ∈ residentQs s eng) (hk : queuePrec s v = queuePrec s (queueKey eng q)) (hr : (s.queue v).resAt + 2000000 ≤ s.now)
    (hl : ∀ w ∈ residentQs s eng, w ≠ v → queuePrec s w = queuePrec s (queueKey eng q) → (s.queue v).resAt < (s.queue w).resAt) :
    exec (.residencyRotate eng q) s = .next (takeSlot (queueKey eng q) (loseSlot v s)) := by
  have hwaits : ¬ (1024 ≤ q || !(s.queue (queueKey eng q)).pending || !engineRuns s eng || bestPending s eng != some (queueKey eng q) ||
      s.now < waitedSince s (queueKey eng q) + rotateNs || (residentQs s eng).length < slotsMax) = true := by
    simp [he, hp, hq, hb, show slotsMax ≤ _ from Nat.not_lt.mp hn, show waitedSince s (queueKey eng q) + rotateNs ≤ s.now from hw]
  show execResidencyRotate eng q s = _
  unfold execResidencyRotate
  dsimp only
  rw [if_neg hwaits, longest_resident hv hk hl]
  exact if_neg (Nat.not_lt.mpr hr)

end Slots

/-! ### Share groups (R319 R320) -/

section Shares
variable {kind die n : Nat}

/-- The share groups that an engine finds below their guarantee. -/
def sharesBelow (s : State) (eng : Nat) : List Nat :=
  (List.range 16).filter fun n => match s.mgmt.groupsG.get n with | some (f, _) => shareBelow s eng n f | none => false

theorem mem_sharesBelow {eng : Nat} (ht : shareTotal s eng ≠ 0) (hn : n < 16) : n ∈ sharesBelow s eng ↔
    ∃ f l, s.mgmt.groupsG.get n = some (f, l) ∧ shareWaits s eng n = true ∧ shareWork s eng n * 100 < f * shareTotal s eng := by
  unfold sharesBelow
  cases h : s.mgmt.groupsG.get n with
  | none => simp [h]
  | some x =>
    obtain ⟨f, l⟩ := x
    simp [h, hn, shareBelow, ht]

theorem exec_shareEval (hk : kind < 3) (hd : die < 8) (he : engineRuns s (engOn s.variant kind die n) = true)
    (hn : (s.engines.get (engOn s.variant kind die n)).evalAt + 1000000 ≤ s.now) (hg : s.mgmt.newGroupsG = none)
    (ht : shareTotal s (engOn s.variant kind die n) ≠ 0) :
    exec (.shareEval kind die n) s = .next (s.onEngine (engOn s.variant kind die n) fun e =>
      { e with
        belowG := sharesBelow s (engOn s.variant kind die n)
        past := (s.now, engWork s (engOn s.variant kind die n)) :: pastKept s.now e.past
        evalAt := s.now }) := by
  have happly : shareApply s = s := by rw [shareApply, hg]
  have hgo : ¬ (2 < kind || 8 ≤ die || !engineRuns s (engOn s.variant kind die n) ||
      decide (s.now < (s.engines.get (engOn s.variant kind die n)).evalAt + evalNs)) = true := by
    simp [he, hd, Nat.le_of_lt_succ hk, show _ + evalNs ≤ s.now from hn]
  show execShareEval kind die n s = _
  unfold execShareEval
  dsimp only
  rw [if_neg hgo, happly, if_neg ht]
  rfl

end Shares

/-! ### Samples of the contexts (R333 to R335) -/

/-- The account of a context after a sample: its tier and HBM granules, and its energy. -/
def sampledAcct (mj t h : Nat) (a : Tbl Nat) : Tbl Nat :=
  ((((a.upd aTierGms (· + t)).upd aHbmGms (· + h)).upd aEnergy (· + mj)).upd aTierPeak (max t)).upd aHbmPeak (max h)

theorem get_sampledAcct (mj t h : Nat) (a : Tbl Nat) (n : Nat) : (sampledAcct mj t h a).get n =
    if n = aHbmGms then a.get n + h else if n = aTierGms then a.get n + t else if n = aEnergy then a.get n + mj
    else if n = aTierPeak then max t (a.get n) else if n = aHbmPeak then max h (a.get n) else a.get n := by
  simp only [sampledAcct, Tbl.get_upd, aTierGms, aHbmGms, aEnergy, aTierPeak, aHbmPeak]
  split_ifs <;> simp_all

theorem sampleCtx_ctx_same (mj c : Nat) (s : State) :
    (sampleCtx mj c s).ctx c = { s.ctx c with acct := sampledAcct mj (tierNow s c) (hbmNow s c) (s.ctx c).acct } := by
  simp only [sampleCtx, acctAdd, ctx_onCtx_same]
  rfl

theorem ctx_onCtx_other (s : State) {c d : Nat} (g : Ctx → Ctx) (h : d ≠ c) : (s.onCtx c g).ctx d = s.ctx d := Tbl.get_upd_other _ _ h

theorem sampleCtx_ctx_other (mj : Nat) {c d : Nat} (s : State) (h : d ≠ c) : (sampleCtx mj c s).ctx d = s.ctx d := by
  simp only [sampleCtx, acctAdd, ctx_onCtx_other _ _ h]

theorem sampleCtx_tierNow (mj c d : Nat) (s : State) : tierNow (sampleCtx mj c s) d = tierNow s d := rfl

theorem sampleCtx_saveGran (mj c d : Nat) (s : State) : ((sampleCtx mj c s).ctx d).saveGran = (s.ctx d).saveGran := by
  by_cases h : d = c
  · subst h; rw [sampleCtx_ctx_same]
  · rw [sampleCtx_ctx_other mj s h]

theorem sampleCtx_hbmNow (mj c d : Nat) (s : State) : hbmNow (sampleCtx mj c s) d = hbmNow s d := by
  unfold hbmNow
  rw [sampleCtx_saveGran]
  rfl

/-- A context with what a sample of it adds. -/
def sampleView (c : Nat) (s : State) : Ctx × Nat × Nat := (s.ctx c, tierNow s c, hbmNow s c)

/-- The state after the samples of a list of contexts, each with its energy. -/
def sampleAll (mj : Nat → Nat) (l : List Nat) (s : State) : State := forAll l (fun c t => sampleCtx (mj c) c t) s

theorem sampleAll_ctx_listed (mj : Nat → Nat) {l : List Nat} (hl : l.Nodup) {c : Nat} (hc : c ∈ l) (s : State) :
    (sampleAll mj l s).ctx c = { s.ctx c with acct := sampledAcct (mj c) (tierNow s c) (hbmNow s c) (s.ctx c).acct } := by
  have hview := foldl_at (sampleView c) (fun x => ({ x.1 with acct := sampledAcct (mj c) x.2.1 x.2.2 x.1.acct }, x.2)) (f := fun t d => sampleCtx (mj d) d t) hl hc
    (fun t => by simp only [sampleView, sampleCtx_ctx_same, sampleCtx_tierNow, sampleCtx_hbmNow])
    (fun t d _ hd => by simp only [sampleView, sampleCtx_ctx_other _ t (Ne.symm hd), sampleCtx_tierNow, sampleCtx_hbmNow]) s
  exact congrArg Prod.fst hview

theorem sampleAll_ctx_unlisted (mj : Nat → Nat) {l : List Nat} {c : Nat} (hc : c ∉ l) (s : State) : (sampleAll mj l s).ctx c = s.ctx c :=
  foldl_keeps_mem (State.ctx · c) (fun t _ hd => sampleCtx_ctx_other _ t fun e => hc (e ▸ hd)) s

/-- A state without its contexts. -/
def State.sansCtxs (s : State) : State := { s with ctxs := [] }

theorem onCtx_sansCtxs (s : State) (c : Nat) (g : Ctx → Ctx) : (s.onCtx c g).sansCtxs = s.sansCtxs := rfl

theorem sampleAll_sansCtxs (mj : Nat → Nat) (l : List Nat) (s : State) : (sampleAll mj l s).sansCtxs = s.sansCtxs :=
  foldl_keeps State.sansCtxs (fun t c => by simp only [sampleCtx, acctAdd, onCtx_sansCtxs]) l s

theorem exec_occupancySample {meters : List Meter} (hr : s.mgmt.ready = true) (hn : s.mgmt.sampleAt + 1000000 ≤ s.now) :
    exec (.occupancySample meters) s = .next (((sampleAll (energyOf s meters) (liveCtxs s) s).onCores fun y =>
        y.mapAll fun c => { c with workAt := c.work }).onMgmt fun m =>
      { m with sampleAt := s.now, overheadMj := m.overheadMj + ((meters.map (·.mj)).sum - ((liveCtxs s).map (energyOf s meters)).sum) }) := by
  have hdue : ¬ (!s.mgmt.ready || decide (s.now < s.mgmt.sampleAt + evalNs)) = true := by simp [hr, show _ + evalNs ≤ s.now from hn]
  show execOccupancySample meters s = _
  unfold execOccupancySample
  rw [if_neg hdue, sampleAll]

/-! ### Snapshots of a period (R336) -/

theorem exec_dailiesPeriodicWrite {f : Nat} (hf : f < 64) (ho : (s.fn f).snapR.on = true) (hp : (s.fn f).snapPer ≠ 0)
    (hn : (s.fn f).snapAt + 1000000 * (s.fn f).snapPer ≤ s.now) (hr : s.mgmt.ready = true) {u : State}
    (hu : u = s.onFn f fun x => { x with snapAt := x.snapAt + 1000000 * x.snapPer }) : exec (.dailiesPeriodicWrite f) s =
      .next (forAll ((liveCtxs u).filter fun c => (u.ctx c).fn = f) (fun c v => ringPush f .snap c true (dailies v c true false) v) u) := by
  subst hu
  exact if_neg (by simp [hf, ho, hp, hn, hr])

/-- Settles O28, command by command. -/
theorem residencyAndAccountingComplete : Obligations.ResidencyAndAccountingComplete := by
  intro s
  refine ⟨?grant, ?rotate, ?shares, ?samples, ?periodic⟩
  case grant =>
    intro eng q k hq he hp
    exact ⟨exec_slotGrant_free hq he hp, fun v => exec_slotGrant_taken hq he hp, exec_slotGrant_deferred hq he hp⟩
  case rotate =>
    intro eng q v k
    exact exec_residencyRotate
  case periodic =>
    intro f x hf ho hp hn hr u hu
    exact exec_dailiesPeriodicWrite hf ho hp hn hr hu
  case shares =>
    intro kind die n eng hk hd he hr hn hg ht
    subst he
    refine ⟨_, exec_shareEval hk hd hr hn hg ht, ?_, fun m hm => ?_, rfl⟩
    · rw [State.onEngine, State.onEngines, Tbl.get_upd_same]
    · rw [State.onEngine, State.onEngines, Tbl.get_upd_same]
      exact mem_sharesBelow ht hm
  case samples =>
    intro meters hr hn hl
    have hframe := sampleAll_sansCtxs (energyOf s meters) (liveCtxs s) s
    refine ⟨_, exec_occupancySample hr hn, fun c => ?_, ?_, ?_⟩
    · by_cases hc : c ∈ liveCtxs s
      · have hctx := sampleAll_ctx_listed (energyOf s meters) hl hc s
        refine ⟨congrArg (fun x : Ctx => { x with acct := (s.ctx c).acct }) hctx, fun n => ?_⟩
        rw [if_neg (not_not_intro hc)]
        exact (congrArg (fun x : Ctx => x.acct.get n) hctx).trans (get_sampledAcct ..)
      · have hctx := sampleAll_ctx_unlisted (energyOf s meters) hc s
        exact ⟨congrArg (fun x : Ctx => { x with acct := (s.ctx c).acct }) hctx, fun n =>
          (congrArg (fun x : Ctx => x.acct.get n) hctx).trans (if_pos hc).symm⟩
    · have hmgmt : (sampleAll (energyOf s meters) (liveCtxs s) s).mgmt = s.mgmt := (congrArg State.mgmt hframe : (sampleAll _ _ s).sansCtxs.mgmt = s.sansCtxs.mgmt)
      exact congrArg (fun m : Mgmt => { m with
        sampleAt := s.now
        overheadMj := m.overheadMj + ((meters.map Meter.mj).sum - ((liveCtxs s).map (energyOf s meters)).sum) }) hmgmt
    · exact congrArg (fun u : State => { u with ctxs := s.ctxs, cores := s.cores, mgmt := s.mgmt }) hframe

end Sys2Proof.Machine

/-! Loss of the host and of a link (O35). The contexts of a function are those that the table lists as live, which an orphaned context stays; a
context listed more than once is orphaned by its first turn, and by the others not again (`foldl_once`). -/
namespace Sys2Proof.Tbl

theorem mem_drop {α : Type} {t : Tbl α} {n : Nat} {x : Nat × α} (h : x ∈ Tbl.drop t n) : x ∈ t := by
  induction t with
  | nil => exact h
  | cons y t ih =>
    obtain ⟨k, v⟩ := y
    by_cases hk : k = n
    · exact List.mem_cons_of_mem _ (ih (by simpa [Tbl.drop, hk] using h))
    · rcases List.mem_cons.mp (show x ∈ (k, v) :: Tbl.drop t n by simpa [Tbl.drop, hk] using h) with rfl | h
      · exact List.mem_cons_self
      · exact List.mem_cons_of_mem _ (ih h)

variable {α : Type} [Inhabited α] [DecidableEq α]

theorem mem_cons_of {t : Tbl α} {n : Nat} {v : α} {x : Nat × α} (h : x ∈ Tbl.cons n v t) : x = (n, v) ∨ x ∈ t := by
  unfold Tbl.cons at h
  split at h
  · exact .inr h
  · exact List.mem_cons.mp h

/-- A write adds no entry but its own. -/
theorem mem_put {t : Tbl α} {n : Nat} {v : α} {x : Nat × α} (h : x ∈ Tbl.put t n v) : x = (n, v) ∨ x ∈ t := by
  induction t with
  | nil => exact mem_cons_of (t := []) h
  | cons y t ih =>
    obtain ⟨k, w⟩ := y
    by_cases hk : k < n
    · rcases List.mem_cons.mp (show x ∈ (k, w) :: Tbl.put t n v by simpa [Tbl.put, hk] using h) with rfl | h
      · exact .inr List.mem_cons_self
      · exact (ih h).imp_right (List.mem_cons_of_mem _)
    · exact (mem_cons_of (by simpa only [Tbl.put, hk, if_false] using h)).imp_right mem_drop

theorem mem_of_mem_upd {t : Tbl α} {n : Nat} {f : α → α} {x : Nat × α} (h : x ∈ Tbl.upd t n f) (hx : x.1 ≠ n) : x ∈ t :=
  (mem_put h).resolve_left fun e => hx (congrArg Prod.fst e)

end Sys2Proof.Tbl

namespace Sys2Proof.Machine
open Sys2Proof

variable {s : State}

/-! ### A change that a second time changes nothing -/

/-- Of a list, only the turns of `x` change the view, and the second as the first: after the list it is as after one turn. -/
theorem foldl_once {σ α β : Type} (v : σ → β) (g : β → β) (P : β → Prop) {f : σ → α → σ} {x : α} (hP : ∀ b, P b → P (g b))
    (hg : ∀ b, P b → g (g b) = g b) (hs : ∀ s, P (v s) → v (f s x) = g (v s)) (ho : ∀ s, P (v s) → ∀ y, y ≠ x → v (f s y) = v s) {l : List α} (hx : x ∈ l)
    (s : σ) (h : P (v s)) : v (l.foldl f s) = g (v s) := by
  have hend : ∀ (l : List α) s, P (v s) → g (v s) = v s → v (l.foldl f s) = v s := by
    intro l
    induction l with
    | nil => exact fun _ _ _ => rfl
    | cons y l ih =>
      intro s h hfix
      have hy : v (f s y) = v s := by
        by_cases e : y = x
        · rw [e, hs s h, hfix]
        · exact ho s h y e
      exact (ih (f s y) (hy ▸ h) (by rw [hy, hfix])).trans hy
  induction l generalizing s with
  | nil => simp at hx
  | cons y l ih =>
    by_cases e : y = x
    · have hy : v (f s y) = g (v s) := by rw [e, hs s h]
      exact (hend l (f s y) (hy ▸ hP _ h) (by rw [hy, hg _ h])).trans hy
    · have hy : v (f s y) = v s := ho s h y e
      have hl : x ∈ l := (List.mem_cons.mp hx).resolve_left fun e' => e e'.symm
      exact (ih hl (f s y) (hy ▸ h)).trans (congrArg g hy)

/-! ### An orphaned context (R373 R374) -/

/-- A context that is orphaned from now on, unless it was before. -/
def Ctx.orphaned (now : Nat) (x : Ctx) : Ctx :=
  if x.orphanedAt.isSome then x else { x with orphanedAt := some now, resetAt := 0, paused := x.orphan = 1 }

theorem Ctx.orphaned_live (now : Nat) (x : Ctx) : (x.orphaned now).live = x.live := by
  unfold Ctx.orphaned
  split <;> rfl

theorem Ctx.orphaned_fn (now : Nat) (x : Ctx) : (x.orphaned now).fn = x.fn := by
  unfold Ctx.orphaned
  split <;> rfl

theorem Ctx.orphaned_orphanedAt (now : Nat) (x : Ctx) : (x.orphaned now).orphanedAt = some (x.orphanedAt.getD now) := by
  unfold Ctx.orphaned
  cases h : x.orphanedAt <;> simp [h]

theorem Ctx.orphaned_paused {now : Nat} {x : Ctx} (h : x.orphanedAt = none) : (x.orphaned now).paused = decide (x.orphan = 1) := by
  simp [Ctx.orphaned, h]

theorem Ctx.orphaned_twice (now : Nat) (x : Ctx) : (x.orphaned now).orphaned now = x.orphaned now := by
  rw [Ctx.orphaned, Ctx.orphaned_orphanedAt]
  rfl

/-- A state without its contexts and groups. -/
def State.sansCtxGroups (s : State) : State := { s with ctxs := [], groups := [] }

theorem requestStops_ctxs (l : List Nat) (s : State) : (forAll l (fun k => requestStop k .orphan) s).ctxs = s.ctxs :=
  foldl_keeps State.ctxs (f := fun t k => requestStop k .orphan t) (fun _ _ => rfl) l s

theorem requestStops_sansCtxGroups (l : List Nat) (s : State) : (forAll l (fun k => requestStop k .orphan) s).sansCtxGroups = s.sansCtxGroups :=
  foldl_keeps State.sansCtxGroups (f := fun t k => requestStop k .orphan t) (fun _ _ => rfl) l s

theorem ctxOrphan_of_some {c : Nat} (h : (s.ctx c).orphanedAt.isSome = true) : ctxOrphan c s = s := if_pos h

theorem ctxOrphan_ctxs_of_none {c : Nat} (h : ¬ (s.ctx c).orphanedAt.isSome = true) : (ctxOrphan c s).ctxs = s.ctxs.upd c (Ctx.orphaned s.now) := by
  have hupd : s.ctxs.upd c (fun x => { x with orphanedAt := some s.now, resetAt := 0, paused := x.orphan = 1 }) = s.ctxs.upd c (Ctx.orphaned s.now) :=
    congrArg (s.ctxs.put c) (if_neg h).symm
  unfold ctxOrphan
  dsimp only
  rw [if_neg h, ← hupd]
  split
  · exact requestStops_ctxs ..
  · rfl

theorem ctxOrphan_sansCtxGroups (c : Nat) (s : State) : (ctxOrphan c s).sansCtxGroups = s.sansCtxGroups := by
  unfold ctxOrphan
  dsimp only
  split
  · rfl
  · split
    · exact requestStops_sansCtxGroups ..
    · rfl

theorem ctxOrphan_ctx_same (c : Nat) (s : State) : (ctxOrphan c s).ctx c = (s.ctx c).orphaned s.now := by
  by_cases h : (s.ctx c).orphanedAt.isSome = true
  · rw [ctxOrphan_of_some h, Ctx.orphaned, if_pos h]
  · rw [State.ctx, ctxOrphan_ctxs_of_none h, Tbl.get_upd_same]
    rfl

theorem ctxOrphan_ctx_other {c d : Nat} (hd : d ≠ c) (s : State) : (ctxOrphan c s).ctx d = s.ctx d := by
  by_cases h : (s.ctx c).orphanedAt.isSome = true
  · rw [ctxOrphan_of_some h]
  · rw [State.ctx, ctxOrphan_ctxs_of_none h, Tbl.get_upd_other _ _ hd]
    rfl

theorem mem_of_mem_ctxOrphan {c : Nat} {x : Nat × Ctx} (hx : x ∈ (ctxOrphan c s).ctxs) (hc : x.1 ≠ c) : x ∈ s.ctxs := by
  by_cases h : (s.ctx c).orphanedAt.isSome = true
  · rwa [ctxOrphan_of_some h] at hx
  · exact Tbl.mem_of_mem_upd (by rwa [ctxOrphan_ctxs_of_none h] at hx) hc

theorem now_of_sansCtxGroups {s t : State} (h : t.sansCtxGroups = s.sansCtxGroups) : t.now = s.now :=
  (congrArg State.now h : t.sansCtxGroups.now = s.sansCtxGroups.now)

theorem ctxOrphan_now (c : Nat) (s : State) : (ctxOrphan c s).now = s.now := now_of_sansCtxGroups (ctxOrphan_sansCtxGroups c s)

/-! ### The contexts of a function -/

theorem mem_liveCtxs_of_live {c : Nat} (h : (s.ctx c).live = true) : c ∈ liveCtxs s := by
  rcases Tbl.get_eq_default_or_mem s.ctxs c with hd | hm
  · have hdead : (s.ctx c).live = false := congrArg Ctx.live hd
    rw [hdead] at h
    exact absurd h Bool.false_ne_true
  · exact List.mem_map.mpr ⟨_, List.mem_filter.mpr ⟨hm, h⟩, rfl⟩

theorem mem_fnCtxs_of_live {c : Nat} (h : (s.ctx c).live = true) : c ∈ fnCtxs s (s.ctx c).fn :=
  List.mem_filter.mpr ⟨mem_liveCtxs_of_live h, decide_eq_true rfl⟩

theorem of_mem_fnCtxs {c f : Nat} (h : c ∈ fnCtxs s f) : (∃ x ∈ s.ctxs, x.1 = c ∧ x.2.live = true) ∧ (s.ctx c).fn = f := by
  obtain ⟨hl, hf⟩ := List.mem_filter.mp h
  obtain ⟨x, hx, hc⟩ := List.mem_map.mp hl
  obtain ⟨hmem, hlive⟩ := List.mem_filter.mp hx
  exact ⟨⟨x, hmem, hc, hlive⟩, of_decide_eq_true hf⟩

/-! ### An orphaned function -/

/-- What the orphaning of functions goes by of one context. -/
def orphanView (c : Nat) (s : State) : Ctx × Nat := (s.ctx c, s.now)

theorem fnOrphan_view_own {c : Nat} (h : (s.ctx c).live = true) :
    orphanView c (fnOrphan (s.ctx c).fn s) = ((s.ctx c).orphaned s.now, s.now) :=
  foldl_once (orphanView c) (fun b => (b.1.orphaned b.2, b.2)) (fun _ => True) (f := fun t d => ctxOrphan d t) (fun _ _ => trivial)
    (fun b _ => by rw [Ctx.orphaned_twice]) (fun t _ => by rw [orphanView, ctxOrphan_ctx_same, ctxOrphan_now]; rfl)
    (fun t _ d hd => by rw [orphanView, ctxOrphan_ctx_other hd.symm, ctxOrphan_now]; rfl)
    (x := c) (s := s.onFn (s.ctx c).fn fun x => { x with orphan := true }) (mem_fnCtxs_of_live h) trivial

theorem fnOrphan_view_other {c f : Nat} (h : (s.ctx c).fn ≠ f) : orphanView c (fnOrphan f s) = orphanView c s :=
  foldl_keeps_mem (orphanView c) (l := fnCtxs s f) (f := fun t d => ctxOrphan d t)
    (fun t d hd => by
      have hne : c ≠ d := fun e => h (e ▸ (of_mem_fnCtxs hd).2)
      rw [orphanView, ctxOrphan_ctx_other hne, ctxOrphan_now]
      rfl)
    (s.onFn f fun x => { x with orphan := true })

/-- A live context of a function that is orphaned. -/
theorem orphans_ctx {l : List Nat} {c : Nat} (hc : (s.ctx c).live = true) (hf : (s.ctx c).fn ∈ l) :
    (forAll l fnOrphan s).ctx c = (s.ctx c).orphaned s.now := by
  have hview := foldl_once (orphanView c) (fun b => (b.1.orphaned b.2, b.2)) (fun b => b.1.live = true ∧ b.1.fn = (s.ctx c).fn)
    (f := fun t f => fnOrphan f t) (fun b hb => by rwa [Ctx.orphaned_live, Ctx.orphaned_fn]) (fun b _ => by rw [Ctx.orphaned_twice])
    (fun t ⟨hl, hfn⟩ => by
      have hfn' : (t.ctx c).fn = (s.ctx c).fn := hfn
      rw [← hfn', fnOrphan_view_own hl]
      rfl)
    (fun t ⟨hl, hfn⟩ g hg => fnOrphan_view_other fun e => hg (e.symm.trans hfn)) hf s ⟨hc, rfl⟩
  exact congrArg Prod.fst hview

/-- A context is as it was, and the table lists it with no entry that it did not list. -/
def CtxStands (c : Nat) (s t : State) : Prop := t.ctx c = s.ctx c ∧ ∀ x ∈ t.ctxs, x.1 = c → x ∈ s.ctxs

theorem CtxStands.ctxOrphan {c d : Nat} {t : State} (h : CtxStands c s t) (hd : c ≠ d) : CtxStands c s (ctxOrphan d t) := by
  obtain ⟨hctx, hmem⟩ := h
  refine ⟨(ctxOrphan_ctx_other hd t).trans hctx, fun x hx hc => ?_⟩
  exact hmem x (mem_of_mem_ctxOrphan hx (hc ▸ hd)) hc

theorem CtxStands.fnOrphan {c f : Nat} {t : State} (h : CtxStands c s t) (hc : ¬ ((s.ctx c).live = true ∧ (s.ctx c).fn = f))
    (hu : (s.ctxs.any fun x => x.1 = c && x.2.live && x.2 != s.ctx c) = false) : CtxStands c s (fnOrphan f t) := by
  refine List.foldlRecOn (fnCtxs (t.onFn f fun x => { x with orphan := true }) f) _ (show CtxStands c s (t.onFn f _) from h) fun u hu' d hd => hu'.ctxOrphan ?_
  rintro rfl
  obtain ⟨⟨x, hx, hxc, hlive⟩, hfn⟩ := of_mem_fnCtxs hd
  obtain ⟨hctx, hmem⟩ := h
  have heq : x.2 = s.ctx c := by
    have hall := List.any_eq_false.mp hu x (hmem x hx hxc)
    simpa [hxc, hlive] using hall
  exact hc ⟨heq ▸ hlive, hctx ▸ hfn⟩

theorem orphans_ctx_stands {l : List Nat} {c : Nat} (hc : ¬ ((s.ctx c).live = true ∧ (s.ctx c).fn ∈ l))
    (hu : (s.ctxs.any fun x => x.1 = c && x.2.live && x.2 != s.ctx c) = false) : (forAll l fnOrphan s).ctx c = s.ctx c := by
  have hstands : CtxStands c s (forAll l fnOrphan s) :=
    List.foldlRecOn l (fun t f => fnOrphan f t) ⟨rfl, fun x hx _ => hx⟩ fun t ht f hf => ht.fnOrphan (fun ⟨hl, hfn⟩ => hc ⟨hl, hfn ▸ hf⟩) hu
  exact hstands.1

theorem fnOrphan_sansCtxGroups (f : Nat) (s : State) :
    (fnOrphan f s).sansCtxGroups = (s.onFn f fun x => { x with orphan := true }).sansCtxGroups :=
  foldl_keeps State.sansCtxGroups (fun t d => ctxOrphan_sansCtxGroups d t) _ _

theorem fnOrphan_fn (f g : Nat) (s : State) : (fnOrphan f s).fn g = if g = f then { s.fn f with orphan := true } else s.fn g := by
  have hfn : (fnOrphan f s).fn g = (s.onFn f fun x => { x with orphan := true }).fn g :=
    (congrArg (fun u : State => u.fn g) (fnOrphan_sansCtxGroups f s) :)
  rw [hfn, fn_onFn]

theorem orphans_fn {l : List Nat} (f : Nat) (s : State) : ((forAll l fnOrphan s).fn f).orphan = true ↔ f ∈ l ∨ (s.fn f).orphan = true := by
  by_cases hf : f ∈ l
  · have hview := foldl_once (fun t : State => (t.fn f).orphan) (fun _ => true) (fun _ => True) (f := fun t g => fnOrphan g t) (fun _ _ => trivial)
      (fun _ _ => rfl) (fun t _ => by rw [fnOrphan_fn, if_pos rfl]) (fun t _ g hg => by rw [fnOrphan_fn, if_neg hg.symm]) hf s trivial
    exact iff_of_true hview (.inl hf)
  · have hview := foldl_keeps_mem (fun t : State => (t.fn f).orphan) (f := fun t g => fnOrphan g t) (l := l)
      (fun t g hg => by rw [fnOrphan_fn, if_neg (ne_of_mem_of_not_mem hg hf).symm]) s
    rw [forAll, hview]
    exact (or_iff_right hf).symm

theorem orphans_mem (l : List Nat) (s : State) : (forAll l fnOrphan s).mem = s.mem :=
  foldl_keeps State.mem (f := fun t f => fnOrphan f t) (fun t f => (congrArg State.mem (fnOrphan_sansCtxGroups f t) :)) l s

theorem exec_orphanLinkTimeout (h : bothGone s = true) : exec .orphanLinkTimeout s = .next (forAll (List.range 64) fnOrphan s) :=
  congrArg Host.Outcome.next (if_pos h)

theorem exec_orphanHeartbeatTimeout {f : Nat} (hf : f < 64) (h : beatLost s f = true) :
    exec (.orphanHeartbeatTimeout f) s = .next (forAll [f] fnOrphan s) :=
  congrArg Host.Outcome.next (if_pos (by simp [hf, h]))

/-! ### The reset of an orphaned context (R374 R390) -/

theorem exec_orphanTimeExpire {c t0 : Nat} (ho : (s.ctx c).orphanedAt = some t0) (hl : (s.ctx c).live = true) (hp : (s.ctx c).orphan = 2)
    (hr : (s.ctx c).resetAt = 0) (hi : (s.ctx c).inReset = false) (hm : s.mgmt.ready = true) (ht : t0 + 1000000000 * (s.ctx c).orphanTime ≤ s.now)
    (hw : resetWaits s c 2 (s.ctx c).snap = false) :
    exec (.orphanTimeExpire c) s = .next ((ctxReset c 2 (s.ctx c).snap none s).onCtx c fun x => { x with resetAt := s.now }) := by
  show execOrphanTimeExpire c s = _
  unfold execOrphanTimeExpire
  dsimp only
  rw [ho]
  exact if_neg (by simp [hl, hp, hr, hi, hm, hw, show t0 + secNs * (s.ctx c).orphanTime ≤ s.now from ht])

/-! ### Links (R360 R361 R370) -/

theorem pci_onPci_same (s : State) (p : Nat) (g : _ → _) : (s.onPci p g).pcie.get p = g (s.pcie.get p) := Tbl.get_upd_same ..
theorem pci_onPci_other (s : State) {p o : Nat} (g : _ → _) (h : o ≠ p) : (s.onPci p g).pcie.get o = s.pcie.get o := Tbl.get_upd_other _ _ h

theorem pcieDown_of_up {p o : Nat} (hpo : p + o = 1) (hu : (s.pcie.get p).up = true) {v : State}
    (hv : v = s.onPci p fun x => { x with up := false, downAt := some s.now, linkDown := x.linkDown.raise, serving := false }) :
    pcieDown p s = if (s.pcie.get o).up then errAdd { source := srcPcie p, cls := clPcie, sev := sevDegraded, unit := p, die := 0x10 + p }
      (v.onPci o fun x => { x with failover := x.failover.raise, serving := true }) else v := by
  have ho : 1 - p = o := by omega
  subst hv
  unfold pcieDown
  dsimp only
  rw [if_neg (by simp [hu]), ho, pci_onPci_other s _ (by omega)]

theorem exec_pcieLinkDown {p : Nat} (hp : p < 2) : exec (.pcieLinkDown p) s = .next (pcieDown p s) := congrArg Host.Outcome.next (if_pos hp)

theorem exec_pcieLinkReset {p : Nat} (hp : p < 2) (perst : Bool) : exec (.pcieLinkReset p perst) s =
    .next (pcieDown p (if perst then s.onPwr fun w => { w with perst := w.perst.put p false } else s)) := if_neg (Nat.not_le.2 hp)

theorem exec_pciePortReturn {p : Nat} (hp : p < 2) (hu : (s.pcie.get p).up = true) (hs : (s.pcie.get p).serving = false)
    (ht : (s.pcie.get p).upAt + 1000000000 ≤ s.now) : exec (.pciePortReturn p) s = .next (s.onPci p fun x => { x with serving := true }) :=
  congrArg Host.Outcome.next (if_pos (by simp [hp, hu, hs, show _ + secNs ≤ s.now from ht]))

/-! ### What is written once a link is back -/

/-- A state without memory, functions, messages, management and records, and the functions that are orphaned. -/
def attachedView (s : State) : State × (Nat → Bool) :=
  ({ s with mem := [], fns := [], msix := [], mgmt := {}, err := {} }, fun f => (s.fn f).orphan)

theorem onFn_attachedView {f : Nat} {g : Fn → Fn} (hg : (g (s.fn f)).orphan = (s.fn f).orphan) : attachedView (s.onFn f g) = attachedView s := by
  refine Prod.ext rfl (funext fun k => ?_)
  show ((s.onFn f g).fn k).orphan = (s.fn k).orphan
  rw [fn_onFn]
  by_cases hk : k = f
  · rw [if_pos hk, hg, hk]
  · rw [if_neg hk]

theorem onRing_attachedView (f : Nat) (i : RingId) (g : Ring → Ring) : attachedView (s.onRing f i g) = attachedView s :=
  onFn_attachedView (by cases i <;> rfl)

theorem msixRaise_attachedView (f vec : Nat) (s : State) : attachedView (msixRaise f vec s) = attachedView s := by
  unfold msixRaise
  split
  · rfl
  · exact onFn_attachedView rfl

theorem hostWr_attachedView (s : State) (a : Nat) (l : List Byte) : attachedView (s.hostWr a l) = attachedView s := rfl
theorem onErr_attachedView (s : State) (g : _ → _) : attachedView (s.onErr g) = attachedView s := rfl
theorem onMgmt_attachedView (s : State) (g : _ → _) : attachedView (s.onMgmt g) = attachedView s := rfl

theorem ringPut_attachedView (f : Nat) (i : RingId) (irq : Bool) (b : List Byte) (s : State) : attachedView (ringPut f i irq b s) = attachedView s := by
  unfold ringPut
  dsimp only
  rw [hostWr_attachedView, onRing_attachedView, hostWr_attachedView]

theorem ringFlush_attachedView (f : Nat) (i : RingId) (s : State) : attachedView (ringFlush f i s) = attachedView s := by
  unfold ringFlush
  refine (foldl_keeps attachedView (fun t x => ?_) _ _).trans (onRing_attachedView ..)
  dsimp only
  split
  · exact ringPut_attachedView ..
  · exact onRing_attachedView ..

theorem errFlush_attachedView (s : State) : attachedView (errFlush s) = attachedView s := by
  unfold errFlush
  refine (foldl_keeps attachedView (fun t r => ?_) _ _).trans (onErr_attachedView ..)
  split
  · rw [errPut, onErr_attachedView, hostWr_attachedView]
  · exact onErr_attachedView ..

theorem rspPut_attachedView (s : State) (r : PmiRsp) : attachedView (rspPut s r) = attachedView s := by
  have hput : attachedView (if (decide (r.payload.length ≤ 96) && !r.ext) = true then s else s.hostWr r.addr r.payload) = attachedView s := by
    split
    · rfl
    · exact hostWr_attachedView ..
  unfold rspPut
  dsimp only
  rw [apply_ite attachedView, msixRaise_attachedView, ite_self, onMgmt_attachedView, onFn_attachedView (by rfl), hostWr_attachedView, hput]

theorem rspFlush_attachedView (s : State) : attachedView (rspFlush s) = attachedView s := by
  unfold rspFlush
  refine (foldl_keeps attachedView (fun t r => ?_) _ _).trans (onMgmt_attachedView ..)
  split
  · exact rspPut_attachedView ..
  · exact onMgmt_attachedView ..

theorem dumpStart_attachedView (s : State) : attachedView (dumpStart s) = attachedView s := rfl

theorem raisePending_attachedView (f : Nat) (s : State) : attachedView (raisePending f s) = attachedView s :=
  (foldl_keeps attachedView (fun t v => msixRaise_attachedView f v t) _ _).trans (onFn_attachedView rfl)

theorem hostBack_attachedView (s : State) : attachedView (hostBack s) = attachedView s := by
  unfold hostBack
  refine (foldl_keeps attachedView (fun t f => ?_) _ _).trans ?_
  · dsimp only
    split
    · rfl
    · have hrings : attachedView ([RingId.fault, .park, .notify, .snap].foldl (fun s i => ringFlush f i s) t) = attachedView t :=
        foldl_keeps attachedView (fun u i => ringFlush_attachedView f i u) _ t
      split
      · exact hrings
      · exact (raisePending_attachedView ..).trans hrings
  · rw [dumpStart_attachedView, rspFlush_attachedView, errFlush_attachedView]

theorem attachedView_state {s t : State} (h : attachedView t = attachedView s) :
    { t with mem := [], fns := [], msix := [], mgmt := {}, err := {} } = { s with mem := [], fns := [], msix := [], mgmt := {}, err := {} } :=
  congrArg Prod.fst h

theorem attachedView_orphan {s t : State} (h : attachedView t = attachedView s) (f : Nat) : (t.fn f).orphan = (s.fn f).orphan :=
  congrFun (congrArg Prod.snd h) f

/-! ### A link that comes up (R360 R373) -/

theorem attachedView_pcie {s t : State} (h : attachedView t = attachedView s) : t.pcie = s.pcie := (congrArg State.pcie (attachedView_state h) :)
theorem attachedView_ctxs {s t : State} (h : attachedView t = attachedView s) : t.ctxs = s.ctxs := (congrArg State.ctxs (attachedView_state h) :)
theorem attachedView_xl {s t : State} (h : attachedView t = attachedView s) : t.xl = s.xl := (congrArg State.xl (attachedView_state h) :)
theorem attachedView_groups {s t : State} (h : attachedView t = attachedView s) : t.groups = s.groups := (congrArg State.groups (attachedView_state h) :)

/-- A function whose heartbeat is not lost is attached again. -/
def reattach (s : State) (t : Tbl Fn) : Tbl Fn :=
  (List.range 64).foldl (fun t f => if (t.get f).orphan && !beatLost s f then t.upd f fun x => { x with orphan := false } else t) t

theorem get_reattach_orphan {f : Nat} (hf : f < 64) (t : Tbl Fn) : ((reattach s t).get f).orphan = ((t.get f).orphan && beatLost s f) := by
  refine foldl_at (fun t : Tbl Fn => (t.get f).orphan) (· && beatLost s f) List.nodup_range (List.mem_range.mpr hf) (fun t => ?_) (fun t g _ hg => ?_) t
  · cases ho : (t.get f).orphan <;> cases hb : beatLost s f <;> simp [ho]
  · split
    · exact congrArg Fn.orphan (Tbl.get_upd_other _ _ hg.symm)
    · rfl

/-- A port whose link has come up. -/
def linkUp (s : State) (p : Nat) : State :=
  s.onPci p fun x => { x with up := true, upAt := s.now, downAt := none, serving := !(s.pcie.get (1 - p)).up || x.downAt.isNone }

theorem linkUp_pcie_same (s : State) (p : Nat) (g : Tbl Fn → Tbl Fn) : ((linkUp s p).onFns g).pcie.get p =
    { s.pcie.get p with up := true, upAt := s.now, downAt := none, serving := !(s.pcie.get (1 - p)).up || (s.pcie.get p).downAt.isNone } := by
  simp only [linkUp, State.onFns_frame, pci_onPci_same]

theorem linkUp_ctxs (s : State) (p : Nat) (g : Tbl Fn → Tbl Fn) : ((linkUp s p).onFns g).ctxs = s.ctxs := rfl
theorem linkUp_fn (s : State) (p f : Nat) (g : Tbl Fn → Tbl Fn) : ((linkUp s p).onFns g).fn f = (g s.fns).get f := rfl
theorem linkUp_xl (s : State) (p : Nat) (g : Tbl Fn → Tbl Fn) : ((linkUp s p).onFns g).xl = s.xl := rfl
theorem linkUp_groups (s : State) (p : Nat) (g : Tbl Fn → Tbl Fn) : ((linkUp s p).onFns g).groups = s.groups := rfl

theorem exec_pcieLinkUp {p : Nat} (hp : p < 2) (hu : (s.pcie.get p).up = false) (hr : s.pwr.perst.get p = true) (hs : 6 ≤ s.pwr.steps)
    (hi : s.pwr.islands = true) (ht : s.tsc.ref = true) (hf : (s.tier.dies.get (ioOwner s.variant p)).fenced = false) :
    exec (.pcieLinkUp p) s = .next (hostBack ((linkUp s p).onFns (reattach s))) := by
  show execPcieLinkUp p s = _
  unfold execPcieLinkUp
  dsimp only
  rw [if_neg (by simp [hp, hu, hr, hs, hi, ht, hf])]
  rfl

/-- Settles O35, event by event. -/
theorem hostLossComplete : Obligations.HostLossComplete := by
  intro s
  refine ⟨?orphans, ?expire, ?down, fun p => exec_pciePortReturn, ?up⟩
  case orphans =>
    intro fns cmd hcmd
    obtain ⟨l, hl, hexec⟩ : ∃ l, (∀ f, fns f ↔ f ∈ l) ∧ exec cmd s = .next (forAll l fnOrphan s) := by
      obtain ⟨hf, rfl, hb⟩ | ⟨f, hf, hg, rfl, hb⟩ := hcmd
      · exact ⟨List.range 64, fun f => (hf f).trans List.mem_range.symm, exec_orphanLinkTimeout hb⟩
      · exact ⟨[f], fun g => (hg g).trans List.mem_singleton.symm, exec_orphanHeartbeatTimeout hf hb⟩
    refine ⟨_, hexec, fun f => (orphans_fn f s).trans (or_congr_left (hl f).symm), fun c hc hf => ?_, fun c hc => ?_, orphans_mem l s⟩
    · rw [orphans_ctx hc ((hl _).mp hf)]
      exact ⟨Ctx.orphaned_orphanedAt .., Ctx.orphaned_paused⟩
    · exact orphans_ctx_stands fun ⟨hlive, hf⟩ => hc ⟨hlive, (hl _).mpr hf⟩
  case expire =>
    intro c t0 x ho hl hp hr hi hm ht hw
    exact exec_orphanTimeExpire ho hl hp hr hi hm ht hw
  case down =>
    intro p o perst cmd u hpo hcmd hu v hv
    have hp : p < 2 := by omega
    obtain ⟨rfl, rfl⟩ | ⟨rfl, rfl⟩ := hcmd
    · rw [exec_pcieLinkDown hp, pcieDown_of_up hpo hu hv]
    · rw [exec_pcieLinkReset hp]
      cases perst with
      | false => rw [if_neg Bool.false_ne_true, pcieDown_of_up hpo hu hv]
      | true => exact congrArg Host.Outcome.next (pcieDown_of_up (s := s.onPwr fun w => { w with perst := w.perst.put p false }) hpo hu hv)
  case up =>
    intro p hp hu hr hs hi ht hf
    have hback := hostBack_attachedView ((linkUp s p).onFns (reattach s))
    have hpci := linkUp_pcie_same s p (reattach s)
    rw [← attachedView_pcie hback] at hpci
    refine ⟨_, exec_pcieLinkUp hp hu hr hs hi ht hf, congrArg Pcie.up hpci, congrArg Pcie.upAt hpci, congrArg Pcie.downAt hpci, fun h => ?_, fun f hf => ?_,
      (attachedView_ctxs hback).trans (linkUp_ctxs ..), (attachedView_xl hback).trans (linkUp_xl ..), (attachedView_groups hback).trans (linkUp_groups ..)⟩
    · refine (congrArg Pcie.serving hpci).trans ?_
      rcases h with h | h <;> simp [h]
    · rw [attachedView_orphan hback f, linkUp_fn]
      exact get_reattach_orphan hf s.fns

end Sys2Proof.Machine

/-! Sideband, clocks and regulators (O40): a port that goes down or trains changes no other port, and no I/O die. -/
namespace Sys2Proof.Machine
open Sys2Proof

variable {s : State}

/-! ### Ports that go down or train -/

/-- The election of a time master changes no port and no I/O die. -/
theorem timeElect_ports_ios (s : State) : (timeElect s).fab.ports = s.fab.ports ∧ (timeElect s).fab.ios = s.fab.ios := by
  unfold timeElect
  dsimp only
  split
  · exact ⟨rfl, rfl⟩
  · cases bestMaster s with
    | none => exact ⟨rfl, rfl⟩
    | some b => cases h : tParent s b <;> simp only [h] <;> exact ⟨rfl, rfl⟩

theorem timeElect_port (s : State) (j : Nat) : (timeElect s).port j = s.port j := congrArg (Tbl.get · j) (timeElect_ports_ios s).1
theorem timeElect_ios (s : State) : (timeElect s).fab.ios = s.fab.ios := (timeElect_ports_ios s).2

theorem port_onPort_same (s : State) (i : Nat) (g : FPort → FPort) : (s.onPort i g).port i = g (s.port i) := Tbl.get_upd_same ..
theorem port_onPort_other (s : State) {i j : Nat} (g : FPort → FPort) (h : j ≠ i) : (s.onPort i g).port j = s.port j := Tbl.get_upd_other _ _ h

theorem portDown_st_same (i : Nat) (s : State) : ((portDown i s).port i).st = .down := by
  unfold portDown
  split
  · assumption
  · rw [timeElect_port, port_onPort_same]

theorem portDown_port_other {i j : Nat} (h : j ≠ i) (s : State) : (portDown i s).port j = s.port j := by
  unfold portDown
  split
  · rfl
  · rw [timeElect_port, port_onPort_other _ _ h]

theorem portDown_ios (i : Nat) (s : State) : (portDown i s).fab.ios = s.fab.ios := by
  unfold portDown
  split
  · rfl
  · exact timeElect_ios _

theorem portTrain_port_other {i j : Nat} (h : j ≠ i) (s : State) : (portTrain i s).port j = s.port j := by
  unfold portTrain
  dsimp only
  split
  · exact port_onPort_other _ _ h
  · rfl

theorem portTrain_ios (i : Nat) (s : State) : (portTrain i s).fab.ios = s.fab.ios := by
  unfold portTrain
  dsimp only
  split <;> rfl

theorem portTrain_pwr (i : Nat) (s : State) : (portTrain i s).pwr = s.pwr := by
  unfold portTrain
  dsimp only
  split <;> rfl

/-- A port may train: it is enabled, and its I/O die has its reference clock, its data path and power. -/
def mayTrain (s : State) (i : Nat) : Prop :=
  (s.port i).enable = true ∧ (s.fab.ios.get (i / 8)).refclk = true ∧ (s.fab.ios.get (i / 8)).out = false ∧ s.pwr.islands = true

theorem portTrain_of_mayTrain {i : Nat} (h : mayTrain s i) : portTrain i s = s.onPort i fun t => { t with st := .training, lanes := 0 } := by
  obtain ⟨he, hr, ho, hi⟩ := h
  exact if_pos (by simp [he, hr, ho, hi])

theorem portTrain_st_same {i : Nat} (h : mayTrain s i) : ((portTrain i s).port i).st = .training := by
  rw [portTrain_of_mayTrain h, port_onPort_same]

/-! ### The ports of an I/O die without and with its clock (R416) -/

theorem mem_portsOf {io i : Nat} (hi : i < 8) : 8 * io + i ∈ portsOf io := List.mem_map_of_mem (List.mem_range.mpr hi)

theorem div_of_mem_portsOf {io j : Nat} (h : j ∈ portsOf io) : j / 8 = io := by
  obtain ⟨i, hi, rfl⟩ := List.mem_map.mp h
  have hi' := List.mem_range.mp hi
  omega

theorem portsDown_st {l : List Nat} {j : Nat} (h : j ∈ l) (s : State) : ((forAll l portDown s).port j).st = .down :=
  foldl_once (fun t : State => (t.port j).st) (fun _ => .down) (fun _ => True) (f := fun t i => portDown i t) (fun _ _ => trivial) (fun _ _ => rfl)
    (fun t _ => portDown_st_same j t) (fun t _ _ hi => congrArg FPort.st (portDown_port_other hi.symm t)) h s trivial

theorem portsDown_port_other {l : List Nat} {j : Nat} (h : j ∉ l) (s : State) : (forAll l portDown s).port j = s.port j :=
  foldl_keeps_mem (fun t : State => t.port j) (f := fun t i => portDown i t) (fun t _ hi => portDown_port_other (ne_of_mem_of_not_mem hi h).symm t) s

theorem portsDown_ios (l : List Nat) (s : State) : (forAll l portDown s).fab.ios = s.fab.ios :=
  foldl_keeps (fun t : State => t.fab.ios) (f := fun t i => portDown i t) (fun t i => portDown_ios i t) l s

theorem exec_fabricRefclkLoss {io : Nat} (h : io < nIo s.variant) :
    exec (.fabricRefclkLoss io) s = .next (forAll (portsOf io) portDown (s.onIo io fun x => { x with refclk := false })) := if_neg (Nat.not_le.2 h)

/-- A port that is down trains, another goes on. -/
def trainDown (i : Nat) (s : State) : State := if (s.port i).st = .down then portTrain i s else s

theorem trainDown_port_other {i j : Nat} (h : j ≠ i) (s : State) : (trainDown i s).port j = s.port j := by
  unfold trainDown
  split
  · exact portTrain_port_other h s
  · rfl

theorem trainDown_ios (i : Nat) (s : State) : (trainDown i s).fab.ios = s.fab.ios := by
  unfold trainDown
  split
  · exact portTrain_ios i s
  · rfl

theorem trainDown_pwr (i : Nat) (s : State) : (trainDown i s).pwr = s.pwr := by
  unfold trainDown
  split
  · exact portTrain_pwr i s
  · rfl

/-- What a port's training goes by. -/
def trainView (j : Nat) (s : State) : FPort × Tbl IoDie × Bool := (s.port j, s.fab.ios, s.pwr.islands)
/-- A port that was down is in training. -/
def trained (b : FPort × Tbl IoDie × Bool) : FPort × Tbl IoDie × Bool :=
  (if b.1.st = .down then { b.1 with st := .training, lanes := 0 } else b.1, b.2)

theorem trainDown_view_same {i : Nat} (h : mayTrain s i) : trainView i (trainDown i s) = trained (trainView i s) := by
  unfold trainView
  rw [trainDown_ios, trainDown_pwr]
  refine Prod.ext ?_ rfl
  show (trainDown i s).port i = if (s.port i).st = .down then { s.port i with st := .training, lanes := 0 } else s.port i
  unfold trainDown
  split
  · rw [portTrain_of_mayTrain h, port_onPort_same]
  · rfl

theorem trainDowns_st {l : List Nat} {j : Nat} (hj : j ∈ l) (hd : (s.port j).st = .down) (h : mayTrain s j) :
    ((forAll l trainDown s).port j).st = .training := by
  have hview := foldl_once (trainView j) trained
    (fun b => b.1.enable = true ∧ (b.2.1.get (j / 8)).refclk = true ∧ (b.2.1.get (j / 8)).out = false ∧ b.2.2 = true) (f := fun t i => trainDown i t)
    (fun b hb => by
      unfold trained
      split <;> exact hb)
    (fun b _ => by
      unfold trained
      by_cases hb : b.1.st = .down <;> simp [hb])
    (fun t ht => trainDown_view_same (s := t) ht)
    (fun t _ i hi => by rw [trainView, trainDown_port_other hi.symm, trainDown_ios, trainDown_pwr]; rfl) hj s h
  refine (congrArg (fun b => b.1.st) hview).trans ?_
  unfold trained trainView
  dsimp only
  rw [if_pos hd]

theorem trainDowns_ios (l : List Nat) (s : State) : (forAll l trainDown s).fab.ios = s.fab.ios :=
  foldl_keeps (fun t : State => t.fab.ios) (f := fun t i => trainDown i t) (fun t i => trainDown_ios i t) l s

theorem exec_fabricRefclkReturn {io : Nat} (h : io < nIo s.variant) (hr : (s.fab.ios.get io).refclk = false) (hs : 6 ≤ s.pwr.steps) :
    exec (.fabricRefclkReturn io) s = .next (forAll (portsOf io) trainDown (s.onIo io fun x => { x with refclk := true })) := by
  have hlit : ¬ (s.onIo io fun x => { x with refclk := true }).pwr.steps < 6 := Nat.not_lt.2 hs
  show execFabricRefclkReturn io s = _
  unfold execFabricRefclkReturn
  dsimp only
  rw [if_neg (by simp [hr, h]), if_neg hlit]
  rfl

/-! ### Regulators (R382) -/

theorem exec_vrPhaseFailure_spare {rail : Nat} (carry : Nat) (h : s.pwr.vrSpare.get rail = false) :
    exec (.vrPhaseFailure rail carry) s = .next (s.onPwr fun p => { p with vrSpare := p.vrSpare.put rail true }) := if_pos (by rw [h]; rfl)

theorem exec_vrPhaseFailure_further {rail : Nat} (carry : Nat) (h : s.pwr.vrSpare.get rail = true) : exec (.vrPhaseFailure rail carry) s =
    .next (errAdd { source := srcPower, cls := clPower, sev := sevDegraded, die := 0x20 }
      (capFix (s.onPwr fun p => { p with vrCap := some (min carry (p.vrCap.getD carry)) }))) := if_neg (by rw [h]; decide)

/-! ### Sideband (R405 to R407) -/

theorem exec_boardCapWSet_legal {w : Nat} (ha : s.pwr.aux = true) (hl : minCap ≤ w) (hu : w ≤ tdp s.variant) :
    exec (.boardCapWSet w) s = .next (s.onPwr fun p => { p with boardCap := w, cap := min (min p.reqCap w) (p.vrCap.getD w) }) :=
  congrArg Host.Outcome.next (if_pos (by simp [ha, hl, hu]))

theorem exec_boardCapWSet_refused {w : Nat} (h : w < minCap ∨ tdp s.variant < w) : exec (.boardCapWSet w) s = .next s :=
  congrArg Host.Outcome.next (if_neg (by
    simp only [Bool.and_eq_true, decide_eq_true_eq]
    omega))

theorem exec_pldmFirmwareUpdate (ha : s.pwr.aux = true) (hb : s.pwr.state = .boot) (h : s.mgmt.bothBad = true) :
    exec .pldmFirmwareUpdate s = .next (s.onMgmt fun m => { m with bothBad := false, slotOk := [] }) :=
  congrArg Host.Outcome.next (if_pos (by simp [ha, hb, h]))

theorem tapCode_closed (t : Tap) : tapCode false t = if t = .idcode then tapCode true .idcode else tapCode true .bypass := by cases t <;> rfl

/-- Settles O40, event by event. -/
theorem sidebandAndClocksComplete : Obligations.SidebandAndClocksComplete := by
  intro s
  refine ⟨fun w => exec_boardCapWSet_legal, fun w => exec_boardCapWSet_refused, exec_pldmFirmwareUpdate, fun t => rfl, tapCode_closed,
    fun io h => ?loss, fun io h hr hs hi ho => ?back, fun rail carry => exec_vrPhaseFailure_spare carry, fun rail carry => exec_vrPhaseFailure_further carry⟩
  case loss =>
    refine ⟨_, exec_fabricRefclkLoss h, ?_, fun i hi => portsDown_st (mem_portsOf hi) _, fun i hi => ?_⟩
    · rw [portsDown_ios]
      exact congrArg IoDie.refclk (io_onIo_same ..)
    · exact congrArg FPort.st (portsDown_port_other (mt div_of_mem_portsOf hi) _)
  case back =>
    refine ⟨_, exec_fabricRefclkReturn h hr hs, ?_, fun i hi8 hd he => trainDowns_st (mem_portsOf hi8) hd ?_⟩
    · rw [trainDowns_ios]
      exact congrArg IoDie.refclk (io_onIo_same ..)
    · have hdiv : (8 * io + i) / 8 = io := by omega
      have hio : ((s.onIo io fun x => { x with refclk := true }).fab.ios.get io) = { s.fab.ios.get io with refclk := true } := io_onIo_same ..
      exact ⟨he, by rw [hdiv, hio], by rw [hdiv, hio]; exact ho, hi⟩

end Sys2Proof.Machine

/-! Watchdogs and units that restart (O42). Of all that the stop of a die's domain ends, only the end of a saved group takes one from the saved
groups, and nothing adds one (`savedView`); so no group of the die is saved once its saved groups have ended. -/
namespace Sys2Proof.Machine
open Sys2Proof

variable {s t : State}

/-! ### The domains and the saved groups -/

/-- By what a saved group is found: its identity and its logical core. -/
def Group.place (g : Group) : Nat × Nat := (g.ident, g.lcore)
/-- The variant with its coherent domains, and what is saved. -/
def savedView (s : State) : (Variant × Tbl DieDom) × List (Nat × Nat) := ((s.variant, s.tier.dies), s.saved.map Group.place)

section View

section Updates
variable (s : State) (k : Nat)

@[simp] theorem onCore_savedView (g : _ → _) : savedView (s.onCore k g) = savedView s := rfl
@[simp] theorem onGroups_savedView (g : _ → _) : savedView (s.onGroups g) = savedView s := rfl
@[simp] theorem onGroup_savedView (g : _ → _) : savedView (s.onGroup k g) = savedView s := rfl
@[simp] theorem onXl_savedView (g : _ → _) : savedView (s.onXl g) = savedView s := rfl
@[simp] theorem onSync_savedView (g : _ → _) : savedView (s.onSync g) = savedView s := rfl
@[simp] theorem onSyncDie_savedView (g : _ → _) : savedView (s.onSyncDie k g) = savedView s := rfl
@[simp] theorem onCtr_savedView (g : _ → _) : savedView (s.onCtr k g) = savedView s := rfl
@[simp] theorem onQueue_savedView (g : _ → _) : savedView (s.onQueue k g) = savedView s := rfl
@[simp] theorem onEngine_savedView (g : _ → _) : savedView (s.onEngine k g) = savedView s := rfl
@[simp] theorem onLaunches_savedView (g : _ → _) : savedView (s.onLaunches g) = savedView s := rfl
@[simp] theorem onLaunch_savedView (g : _ → _) : savedView (s.onLaunch k g) = savedView s := rfl
@[simp] theorem onCtx_savedView (g : _ → _) : savedView (s.onCtx k g) = savedView s := rfl
@[simp] theorem onFn_savedView (g : _ → _) : savedView (s.onFn k g) = savedView s := rfl
@[simp] theorem onRing_savedView (i : RingId) (g : Ring → Ring) : savedView (s.onRing k i g) = savedView s := rfl
@[simp] theorem onFab_savedView (g : _ → _) : savedView (s.onFab g) = savedView s := rfl
@[simp] theorem hostWr_savedView (l : List Byte) : savedView (s.hostWr k l) = savedView s := rfl
@[simp] theorem drawn_savedView : savedView s.drawn = savedView s := rfl
@[simp] theorem acctAdd_savedView (off n : Nat) : savedView (acctAdd k off n s) = savedView s := rfl
@[simp] theorem fabOut_savedView (p : FPkt) : savedView (fabOut p s) = savedView s := rfl
@[simp] theorem dropRsvs_savedView : savedView (dropRsvs k s) = savedView s := rfl

end Updates

theorem forAll_savedView {α : Type} {f : α → State → State} (hf : ∀ x s, savedView (f x s) = savedView s) (l : List α) (s : State) :
    savedView (forAll l f s) = savedView s := foldl_keeps savedView (fun s x => hf x s) l s

theorem foldl_savedView {α : Type} {f : State → α → State} (hf : ∀ s x, savedView (f s x) = savedView s) (l : List α) (s : State) :
    savedView (l.foldl f s) = savedView s := foldl_keeps savedView hf l s

theorem errAdd_savedView (r : ErrRec) (s : State) : savedView (errAdd r s) = savedView s :=
  (congrArg savedView (errAdd_onlyRecords r s).state :)

/-! #### Waits that end -/

theorem onIdent_savedView {f : Group → Group} (hf : ∀ g, (f g).place = g.place) (id : Nat) (s : State) : savedView (s.onIdent id f) = savedView s := by
  refine Prod.ext rfl ?_
  show (s.saved.map _).map Group.place = s.saved.map Group.place
  rw [List.map_map]
  refine List.map_congr_left fun g _ => ?_
  dsimp only [Function.comp]
  split
  · exact hf g
  · rfl

@[simp] theorem latchLane_savedView (id lane code : Nat) (v : DWord) (s : State) : savedView (latchLane id lane code v s) = savedView s :=
  onIdent_savedView (f := fun g => { g with th := g.th.upd lane _ }) (fun _ => rfl) id s

@[simp] theorem msixRaise_savedView (f vec : Nat) (s : State) : savedView (msixRaise f vec s) = savedView s := by
  unfold msixRaise
  split <;> rfl

@[simp] theorem ringPut_savedView (f : Nat) (i : RingId) (irq : Bool) (b : List Byte) (s : State) : savedView (ringPut f i irq b s) = savedView s := by
  simp [ringPut]

@[simp] theorem ringFlush_savedView (f : Nat) (i : RingId) (s : State) : savedView (ringFlush f i s) = savedView s := by
  unfold ringFlush
  rw [foldl_savedView fun s x => ?_, onRing_savedView]
  dsimp only
  split <;> simp

@[simp] theorem notifyPush_savedView (w : Wait) (code : Nat) (v : DWord) (s : State) : savedView (notifyPush w code v s) = savedView s := by
  simp [notifyPush, ringPush]

@[simp] theorem waitValue_savedView (w : Wait) (code : Nat) (v : DWord) (s : State) : savedView (waitValue w code v s).2 = savedView s := by
  unfold waitValue
  split <;> simp

@[simp] theorem releaseLanes_savedView (w : Wait) (lanes : List Nat) (code : Nat) (v : DWord) (s : State) :
    savedView (releaseLanes w lanes code v s) = savedView s := by
  unfold releaseLanes
  dsimp only
  split
  · rw [foldl_savedView fun s i => latchLane_savedView .., waitValue_savedView]
  · simp [waitPktEnd]
  · simp
  · simp

@[simp] theorem release_savedView (w : Wait) (code : Nat) (v : DWord) (s : State) : savedView (release w code v s) = savedView s := by
  simp [release, dropWait]

@[simp] theorem fencesFree_savedView (ws : List Wait) (s : State) : savedView (fencesFree ws s) = savedView s :=
  foldl_savedView (fun s w => by split <;> simp [fenceSlots]) ws s

@[simp] theorem dropWaits_savedView (who : WaitWho) (id : Nat) (s : State) : savedView (dropWaits who id s) = savedView s := by simp [dropWaits]

/-! #### Operations on counters -/

theorem ctrSettle_savedView (id n : Nat) (s : State) : savedView (ctrSettle id n s) = savedView s := by
  induction n generalizing s with
  | zero => rfl
  | succ n ih =>
    unfold ctrSettle
    dsimp only
    split
    · exact foldl_savedView (fun s w => release_savedView ..) ..
    · split
      · exact foldl_savedView (fun s w => release_savedView ..) ..
      · rw [ih, onSync_savedView, releaseLanes_savedView, onCtr_savedView]
        exact foldl_savedView (fun s w => release_savedView ..) ..

theorem waitAdd_savedView (w : Wait) (timeout : Nat) (s : State) : savedView (waitAdd w timeout s).1 = savedView s := by
  simp only [waitAdd, apply_ite Prod.fst, apply_ite savedView, onSync_savedView, onSyncDie_savedView, drawn_savedView, ite_self]

/-- An operation on a counter changes no domain and no saved group. -/
theorem ctrDo_savedView (op : Nat) (w : Wait) (timeout : Nat) (s : State) : savedView (ctrDo op w timeout s).1 = savedView s := by
  have hset (g : Ctr → Ctr) (n : Nat) : savedView (ctrSettle w.id n (s.onCtr w.id g)) = savedView s := ctrSettle_savedView ..
  unfold ctrDo
  dsimp only
  split
  · rfl
  · split
    · split
      · exact hset ..
      · split
        · rfl
        · split
          · split
            · exact hset ..
            · rfl
          · rfl
    · split
      · rfl
      · exact hset ..
    · split
      · rfl
      · exact hset ..
    · split
      · rfl
      · split
        · exact hset ..
        · exact waitAdd_savedView ..
    · split
      · rfl
      · exact waitAdd_savedView ..

theorem syncOp_savedView {w : Wait} (hw : w.fence = false) (op timeout : Nat) (s : State) : savedView (syncOp op w timeout s).1 = savedView s := by
  unfold syncOp
  rw [hw]
  split
  · rfl
  · split
    · contradiction
    · split
      · exact ctrDo_savedView ..
      · simp [syncDeny, hw, errAdd_savedView]

/-! #### Bins, packets and requests -/

@[simp] theorem lmMerge_savedView (p : Nat) (s : State) : savedView (lmMerge p s) = savedView s := by
  unfold lmMerge
  split <;> rfl

@[simp] theorem clipAdd_savedView (p : Nat) (s : State) : savedView (clipAdd p s) = savedView s := by
  unfold clipAdd
  split
  · rfl
  · dsimp only
    split
    · exact syncOp_savedView rfl ..
    · rfl

@[simp] theorem lmMergeAll_savedView (ls : List Nat) (s : State) : savedView (lmMergeAll ls s) = savedView s :=
  forAll_savedView (fun p s => by
    rw [foldl_savedView fun s _ => clipAdd_savedView p s, foldl_savedView fun s _ => lmMerge_savedView p s]) _ s

@[simp] theorem reqRelease_savedView (e n : Nat) (s : State) : savedView (reqRelease e n s) = savedView s := by
  induction n generalizing s with
  | zero => rfl
  | succ n ih =>
    unfold reqRelease
    split
    · rfl
    · split
      · rfl
      · simp [ih, fabSend]

@[simp] theorem stopPkts_savedView (k st : Nat) (s : State) : savedView (stopPkts k st s) = savedView s := by
  have hreqs (s : State) : savedView (dropReqs k s) = savedView s := by
    unfold dropReqs
    dsimp only
    split <;> simp
  unfold stopPkts
  dsimp only
  rw [foldl_savedView fun s p => ?_, onQueue_savedView, hreqs, freeRuns, onEngine_savedView]
  split <;> simp

/-! #### Groups that end -/

@[simp] theorem slotAdd_savedView (g : Group) (s : State) : savedView (slotAdd g s) = savedView s := by
  unfold slotAdd
  split <;> simp

@[simp] theorem groupEnd_savedView (k status : Nat) (s : State) : savedView (groupEnd k status s) = savedView s := by
  unfold groupEnd
  dsimp only
  split
  · rfl
  · simp only [roomWaits, dropStalls, removeGroupWaits, onLaunches_savedView, onGroups_savedView, slotAdd_savedView, onLaunch_savedView,
      onXl_savedView, dropRsvs_savedView, dropWaits_savedView]
    split
    · split <;> simp [dropRcache, arrRelease, lmSend]
    · rfl

end View

/-! ### The end of a saved group -/

/-- Of what is saved, what has another identity. -/
def others (id : Nat) (l : List (Nat × Nat)) : List (Nat × Nat) := l.filter (·.1 != id)

theorem map_place_filter (id : Nat) (l : List Group) : (l.filter (·.ident != id)).map Group.place = others id (l.map Group.place) := by
  rw [others, List.filter_map]
  rfl

theorem savedEnd_savedView (id st : Nat) (s : State) : savedView (savedEnd id st s) = ((savedView s).1, others id (savedView s).2) := by
  unfold savedEnd
  split
  · next h =>
    refine Prod.ext rfl (List.filter_eq_self.mpr fun x hx => ?_).symm
    obtain ⟨g, hg, rfl⟩ := List.mem_map.mp hx
    simpa [Group.place] using List.find?_eq_none.mp h g hg
  · next g _ =>
    have hview (u : State) (hu : savedView u = savedView s) :
        savedView (u.onSaved fun l => l.filter (·.ident != id)) = ((savedView s).1, others id (savedView s).2) := by
      rw [← hu]
      exact Prod.ext rfl (map_place_filter id u.saved)
    exact hview _ (by simp [dropStalls, saveFree, removeGroupWaits])

theorem savedEnds_savedView (ids : List Nat) (st : Nat) (s : State) :
    savedView (forAll ids (fun id => savedEnd id st) s) = ((savedView s).1, (savedView s).2.filter fun x => !ids.contains x.1) := by
  induction ids generalizing s with
  | nil => exact Prod.ext rfl (List.filter_eq_self.mpr fun _ _ => rfl).symm
  | cons id ids ih =>
    refine (ih (savedEnd id st s)).trans ?_
    rw [savedEnd_savedView, others, List.filter_filter]
    refine Prod.ext rfl (List.filter_congr fun x _ => ?_)
    by_cases h : x.1 = id <;> simp [h]

/-! ### A die whose domain stops (R236 R392) -/

/-- The domains stand, and no group is saved that was not. -/
def FewerSaved (s t : State) : Prop := (savedView t).1 = (savedView s).1 ∧ (savedView t).2 ⊆ (savedView s).2

theorem FewerSaved.trans {u : State} (h1 : FewerSaved s t) (h2 : FewerSaved t u) : FewerSaved s u := ⟨h2.1.trans h1.1, fun _ hx => h1.2 (h2.2 hx)⟩

theorem FewerSaved.dies (h : FewerSaved s t) : t.tier.dies = s.tier.dies := congrArg Prod.snd h.1
theorem FewerSaved.variant (h : FewerSaved s t) : t.variant = s.variant := congrArg Prod.fst h.1
theorem FewerSaved.mem (h : FewerSaved s t) {g : Group} (hg : g ∈ t.saved) : g.place ∈ (savedView s).2 := h.2 (List.mem_map_of_mem hg)

theorem FewerSaved.forAll {α : Type} {f : α → State → State} (hf : ∀ x s, FewerSaved s (f x s)) (l : List α) (s : State) : FewerSaved s (forAll l f s) := by
  induction l generalizing s with
  | nil => exact ⟨rfl, fun _ hx => hx⟩
  | cons x l ih => exact (hf x s).trans (ih _)

theorem failGroups_savedView (sel : Group → Bool) (st : Nat) (s : State) : ∃ u : State, savedView u = savedView s ∧
    savedView (failGroups sel st s) = ((savedView u).1, (savedView u).2.filter fun x => !((u.saved.filter sel).map Group.ident).contains x.1) :=
  ⟨_, forAll_savedView (fun k s => groupEnd_savedView k st s) _ s, savedEnds_savedView ..⟩

theorem failGroups_fewerSaved (sel : Group → Bool) (st : Nat) (s : State) : FewerSaved s (failGroups sel st s) := by
  obtain ⟨u, hu, hview⟩ := failGroups_savedView sel st s
  rw [FewerSaved, hview, hu]
  exact ⟨rfl, fun _ hx => List.mem_of_mem_filter hx⟩

/-- No group at a core that is chosen is saved any more. -/
theorem failGroups_saved (at_ : Nat → Bool) (st : Nat) (s : State) : ∀ x ∈ (savedView (failGroups (fun g => at_ g.lcore) st s)).2, at_ x.2 = false := by
  intro x hx
  obtain ⟨u, -, hview⟩ := failGroups_savedView (fun g => at_ g.lcore) st s
  rw [hview] at hx
  obtain ⟨hmem, hnot⟩ := List.mem_filter.mp hx
  obtain ⟨g, hg, rfl⟩ := List.mem_map.mp hmem
  refine Bool.eq_false_iff.mpr fun hat => ?_
  have hlisted : ((u.saved.filter fun g => at_ g.lcore).map Group.ident).contains g.place.1 = true :=
    List.contains_iff_mem.mpr (List.mem_map_of_mem (List.mem_filter.mpr ⟨hg, hat⟩))
  rw [hlisted] at hnot
  exact absurd hnot (by decide)

theorem engineFail_fewerSaved (e : Nat) (s : State) : FewerSaved s (engineFail e s) := by
  refine FewerSaved.forAll (fun k s => ?_) _ s
  have hfail := failGroups_fewerSaved (fun g => (((s.queue k).pkts.filter fun p => p.op = 0x10 && p.st = .running).map (·.launch)).contains g.launch) stFault s
  unfold queueFault
  dsimp only
  rw [FewerSaved, stopPkts_savedView, lmMergeAll_savedView]
  exact hfail

theorem dieFail_fewerSaved (d : Nat) (s : State) : FewerSaved (failGroups (fun g => lDie g.lcore = d) stFault s) (dieFail d s) :=
  ((engineFail_fewerSaved ..).trans (engineFail_fewerSaved ..)).trans (engineFail_fewerSaved ..)

theorem dieFail_dies (d : Nat) (s : State) : (dieFail d s).tier.dies = s.tier.dies := ((failGroups_fewerSaved _ _ s).trans (dieFail_fewerSaved d s)).dies

theorem dieFail_saved (d : Nat) (s : State) : ∀ g ∈ (dieFail d s).saved, lDie g.lcore ≠ d :=
  fun _ hg => of_decide_eq_false (failGroups_saved (fun c => lDie c = d) stFault s _ ((dieFail_fewerSaved d s).mem hg))

theorem dom_onDom_same (s : State) (d : Nat) (g : DieDom → DieDom) : (s.onDom d g).tier.dies.get d = g (s.tier.dies.get d) := Tbl.get_upd_same ..

theorem domainStop_stopped (d : Nat) (s : State) : ((domainStop d s).tier.dies.get d).stopped = true := by
  rw [domainStop, dieFail_dies, dom_onDom_same]

theorem domainStop_saved (d : Nat) (s : State) : ∀ g ∈ (domainStop d s).saved, lDie g.lcore ≠ d := fun g hg => dieFail_saved d _ g hg

/-! ### Watchdogs (R381 R392 R394) -/

section Core
variable {d : Nat} (hd : d < 8) (hf : (s.tier.dies.get d).fenced = false) (hs : (s.tier.dies.get d).stopped = false) (hp : s.pwr.state ≠ .fatal)
include hd hf hs hp

theorem watched : ¬ (8 ≤ d || (s.tier.dies.get d).fenced || (s.tier.dies.get d).stopped || s.pwr.state = .fatal) = true := by
  simp [hf, hs, hp, hd]

theorem exec_coreWatchdogTimeout_core {p : Nat} (hc : pDie p = d) (hn : (s.core p).fenced = false) :
    exec (.coreWatchdogTimeout d (some p)) s = .next (coreFault p true (errAdd (coreRec s p clCore sevContained) s)) :=
  (if_neg (watched hd hf hs hp)).trans (congrArg Host.Outcome.next (if_neg (by simp [hc, hn])))

theorem exec_coreWatchdogTimeout_die : exec (.coreWatchdogTimeout d none) s = .next (domainStop d s) := if_neg (watched hd hf hs hp)

end Core

section Mgmt
variable {m : Nat}

theorem fatalEnter_mgmt (r : ErrRec) (s : State) : (fatalEnter r s).mgmt = s.mgmt := by
  have hrec : (fatalRecorded r s).mgmt = s.mgmt := (congrArg State.mgmt (errAdd_onlyRecords _ _).state :)
  rw [fatalEnter_eq]
  split
  · exact hrec
  · obtain ⟨b, hb⟩ := dumpStart_eq ((dumpWrite (fatalRecorded r s)).onErr fun e =>
      { e with valid := true, copied := false, copying := false, dumpSeq := BitVec.ofNat 32 s.err.seq })
    have hwrite : (dumpWrite (fatalRecorded r s)).mgmt = s.mgmt := by
      simp only [dumpWrite, State.wr, State.onFreeN_frame, State.onMem_frame, hrec]
    rw [hb]
    simp only [State.onErr_frame, hwrite]

/-- A management core is out of service. -/
def mgmtLost (m : Nat) (s : State) : State :=
  s.onMgmt fun y => { y with cores := y.cores.upd m fun c => { c with ok := false, newFw := false }, staged := y.staged && y.target != m }

theorem mgmtLost_ok (m i : Nat) (s : State) : ((mgmtLost m s).mgmt.cores.get i).ok = if i = m then false else (s.mgmt.cores.get i).ok := by
  show ((s.mgmt.cores.upd m fun c => { c with ok := false, newFw := false }).get i).ok = _
  rw [Tbl.get_upd]
  split <;> rfl

theorem mem_mgmtIn {i : Nat} : i ∈ mgmtIn s ↔ i < 3 ∧ (s.mgmt.cores.get i).ok = true := by simp [mgmtIn]

theorem mgmtIn_mgmtLost (h : ∀ i < 3, i ≠ m → (s.mgmt.cores.get i).ok = false) : mgmtIn (mgmtLost m s) = [] := by
  refine List.eq_nil_iff_forall_not_mem.mpr fun i hi => ?_
  obtain ⟨h3, hok⟩ := mem_mgmtIn.mp hi
  rw [mgmtLost_ok] at hok
  split at hok
  · contradiction
  · next hne => rw [h i h3 hne] at hok; contradiction

/-- The core that is active after a management core is lost: the active one, or the one that follows it. -/
def successor (m : Nat) (s : State) (b : Nat) : Nat :=
  if m != s.mgmt.active then s.mgmt.active
  else match (if m = s.mgmt.active && s.mgmt.commitAt.isSome then s.mgmt.formerActive else none) with
    | some f => if ((mgmtLost m s).mgmt.cores.get f).ok then f else b
    | none => if ((mgmtLost m s).mgmt.cores.get s.mgmt.standby).ok then s.mgmt.standby else b

theorem successor_eq {a b : Nat} (ha : m ≠ s.mgmt.active ∧ a = s.mgmt.active ∨ m = s.mgmt.active ∧ s.mgmt.commitAt = none ∧ a = s.mgmt.standby ∨
      m = s.mgmt.active ∧ s.mgmt.commitAt.isSome ∧ s.mgmt.formerActive = some a) (hne : a ≠ m) (hok : (s.mgmt.cores.get a).ok = true) :
    successor m s b = a := by
  have hok' : ((mgmtLost m s).mgmt.cores.get a).ok = true := by rw [mgmtLost_ok, if_neg hne, hok]
  unfold successor
  obtain ⟨hm, rfl⟩ | ⟨rfl, hc, rfl⟩ | ⟨rfl, hc, hf⟩ := ha
  · simp [hm]
  · simp [hc, hok']
  · simp [hc, hf, hok']

/-- The roles of the management cores, and the end of a live update, once a core is lost. -/
def rolesAfter (m a : Nat) (s : State) : State :=
  (rolesFor a (mgmtLost m s)).onMgmt fun y =>
    { y with
      commitAt := if m = s.mgmt.active && s.mgmt.commitAt.isSome then none else y.commitAt
      formerActive := if (m = s.mgmt.active && s.mgmt.commitAt.isSome) || y.formerActive = some m then none else y.formerActive
      staged := y.staged && !(m = s.mgmt.active && s.mgmt.commitAt.isSome) }

section Exec
variable (hm : m < 3) (hok : (s.mgmt.cores.get m).ok = true) (hr : s.mgmt.running = true) (hp : s.pwr.state ≠ .fatal)
include hm hok hr hp

theorem exec_mgmtWatchdogTimeout_last (hnone : mgmtIn (mgmtLost m s) = []) : exec (.mgmtWatchdogTimeout m) s =
    .next (fatalEnter { source := srcMgmt m, cls := clMgmt, sev := sevFatal, unit := m, die := 0x20 } (mgmtLost m s)) := by
  unfold mgmtLost at hnone
  show execMgmtWatchdogTimeout m s = _
  unfold execMgmtWatchdogTimeout
  dsimp only
  rw [if_neg (by simp [hm, hok, hr, hp]), hnone]
  rfl

theorem exec_mgmtWatchdogTimeout_left {b : Nat} {l : List Nat} (hleft : mgmtIn (mgmtLost m s) = b :: l) : exec (.mgmtWatchdogTimeout m) s =
    .next (errAdd { source := srcMgmt (successor m s b), cls := clMgmt, sev := if l.isEmpty then sevDegraded else sevContained, unit := m, die := 0x20 }
      (rolesAfter m (successor m s b) s)) := by
  unfold mgmtLost at hleft
  show execMgmtWatchdogTimeout m s = _
  unfold execMgmtWatchdogTimeout
  dsimp only
  rw [if_neg (by simp [hm, hok, hr, hp]), hleft]
  rfl

end Exec

/-! #### What the roles leave -/

/-- Roles alone change: the active core, the standby and the update target. -/
theorem rolesFor_eq (a : Nat) (s : State) : ∃ b c, rolesFor a s = s.onMgmt fun m => { m with active := a, standby := b, target := c } := by
  unfold rolesFor
  split
  · exact ⟨s.mgmt.standby, s.mgmt.target, rfl⟩
  · exact ⟨_, _, rfl⟩

/-- The management cores in service, after the roles have changed, are those that were left. -/
theorem rolesAfter_eq (m a : Nat) (s : State) : ∃ b c, rolesAfter m a s = (mgmtLost m s).onMgmt fun y =>
    { y with
      active := a
      standby := b
      target := c
      commitAt := if m = s.mgmt.active && s.mgmt.commitAt.isSome then none else y.commitAt
      formerActive := if (m = s.mgmt.active && s.mgmt.commitAt.isSome) || y.formerActive = some m then none else y.formerActive
      staged := y.staged && !(m = s.mgmt.active && s.mgmt.commitAt.isSome) } := by
  obtain ⟨b, c, h⟩ := rolesFor_eq a (mgmtLost m s)
  exact ⟨b, c, by rw [rolesAfter, h]; rfl⟩

theorem mgmtCores_eq_length (s : State) : mgmtCores s = (mgmtIn s).length := rfl

theorem isEmpty_iff_one {b : Nat} {l : List Nat} (h : mgmtIn s = b :: l) : l.isEmpty = true ↔ mgmtCores s = 1 := by
  rw [mgmtCores_eq_length, h]
  simp

/-- The record of a lost management core: DEGRADED where one is left. -/
theorem exec_mgmtWatchdogTimeout_successor (hm : m < 3) (hok : (s.mgmt.cores.get m).ok = true) (hr : s.mgmt.running = true) (hp : s.pwr.state ≠ .fatal)
    {a : Nat} (ha : m ≠ s.mgmt.active ∧ a = s.mgmt.active ∨ m = s.mgmt.active ∧ s.mgmt.commitAt = none ∧ a = s.mgmt.standby ∨
      m = s.mgmt.active ∧ s.mgmt.commitAt.isSome ∧ s.mgmt.formerActive = some a) (hne : a ≠ m) (h3 : a < 3) (hak : (s.mgmt.cores.get a).ok = true) :
    exec (.mgmtWatchdogTimeout m) s = .next (errAdd
      { source := srcMgmt a, cls := clMgmt, sev := if mgmtCores (rolesAfter m a s) = 1 then sevDegraded else sevContained, unit := m, die := 0x20 }
      (rolesAfter m a s)) := by
  obtain ⟨x, y, hroles⟩ := rolesAfter_eq m a s
  have hcores : mgmtIn (rolesAfter m a s) = mgmtIn (mgmtLost m s) := by rw [hroles]; rfl
  cases hl : mgmtIn (mgmtLost m s) with
  | nil =>
    have hin : a ∈ mgmtIn (mgmtLost m s) := mem_mgmtIn.mpr ⟨h3, by rw [mgmtLost_ok, if_neg hne, hak]⟩
    rw [hl] at hin
    exact absurd hin List.not_mem_nil
  | cons b l =>
    rw [exec_mgmtWatchdogTimeout_left hm hok hr hp hl, successor_eq ha hne hak]
    simp only [isEmpty_iff_one (hcores.trans hl)]

end Mgmt

/-! ### Units that restart (R388 R391) -/

theorem exec_engineInternalError_engine {e : Nat} (he : e < 32) (h : engineRuns s e = true) : exec (.engineInternalError e) s =
    .next (errAdd { source := engSrc e, cls := clEngine, sev := sevContained, unit := e, die := if e < 24 then engDie s.variant e else 0x10 + (e - 24) }
      ((engineFail e s).onEngine e fun x => { x with out := true })) := by
  show execEngineInternalError e s = _
  have hv : ((engineFail e s).onEngine e fun x => { x with out := true }).variant = s.variant := (engineFail_fewerSaved e s).variant
  unfold execEngineInternalError
  dsimp only
  rw [if_pos he, if_neg (by simp [h]), hv]

theorem exec_engineInternalError_ioDie {x : Nat} (hx : x < nIo s.variant) (ho : (s.fab.ios.get x).out = false) (hp : s.pwr.state ≠ .fatal) :
    exec (.engineInternalError (32 + x)) s =
      .next (errAdd { source := srcLeng x, cls := clFabric, sev := sevContained, unit := x, die := 0x10 + x } (s.onIo x fun i => { i with out := true })) := by
  show execEngineInternalError (32 + x) s = _
  unfold execEngineInternalError
  dsimp only
  rw [if_neg (by omega), Nat.add_sub_cancel_left, if_neg (by simp [hx, ho, hp])]

theorem exec_hbmRetrain {h : Nat} (hh : h < nStacks s.variant) (ht : (s.tier.hbms.get h).trained = true) :
    exec (.hbmRetrain h) s = .next (s.onStack h fun x => { x with out := true }) := congrArg Host.Outcome.next (if_neg (by simp [hh, ht]))

theorem exec_unitRestartComplete_engine {e : Nat} (he : e < 32) (ho : (s.engines.get e).out = true) (hu : ucPause s e = false)
    (hf : (s.tier.dies.get (engDie s.variant e)).fenced = false) :
    exec (.unitRestartComplete (.engine e)) s = .next (s.onEngine e fun x => { x with out := false, ugen := x.ugen + 1 }) :=
  if_neg (by simp [he, ho, hu, hf])

theorem exec_unitRestartComplete_hbm {h : Nat} (ho : (s.tier.hbms.get h).out = true) :
    exec (.unitRestartComplete (.hbm h)) s = .next (s.onStack h fun x => { x with out := false, ugen := x.ugen + 1 }) :=
  congrArg Host.Outcome.next (if_pos ho)

theorem exec_unitRestartComplete_ioDie {x : Nat} (hx : x < nIo s.variant) (ho : (s.fab.ios.get x).out = true)
    (hf : (s.tier.dies.get (ioOwner s.variant x)).fenced = false) : exec (.unitRestartComplete (.ioDie x)) s =
      .next ((s.onIo x fun i => { i with out := false, ugen := i.ugen + 1 }).onEngine (24 + x) fun e => { e with out := false, ugen := e.ugen + 1 }) :=
  if_neg (by simp [hx, ho, hf])

/-- Settles O42, unit by unit. -/
theorem watchdogsAndRestartsComplete : Obligations.WatchdogsAndRestartsComplete := by
  intro s
  refine ⟨fun d hd hf hs hp => ⟨fun p hc hn => exec_coreWatchdogTimeout_core hd hf hs hp hc hn, _, exec_coreWatchdogTimeout_die hd hf hs hp, rfl,
      domainStop_stopped d s, domainStop_saved d s⟩, fun m hm hok hr hp => ⟨fun hnone => ?last, fun a ha hne h3 hak => ?left⟩,
    fun e => exec_engineInternalError_engine, fun x => exec_engineInternalError_ioDie, fun h => exec_hbmRetrain, fun e => exec_unitRestartComplete_engine,
    fun h => exec_unitRestartComplete_hbm, fun x => exec_unitRestartComplete_ioDie⟩
  case last =>
    obtain ⟨hstate, hfault, -⟩ := fatalEnter_leaves { source := srcMgmt m, cls := clMgmt, sev := sevFatal, unit := m, die := 0x20 } (mgmtLost m s)
    refine ⟨_, exec_mgmtWatchdogTimeout_last hm hok hr hp (mgmtIn_mgmtLost hnone), ?_⟩
    exact ⟨hstate, hfault, (congrArg (fun y : Mgmt => (y.cores.get m).ok) (fatalEnter_mgmt ..)).trans ((mgmtLost_ok m m s).trans (if_pos rfl))⟩
  case left =>
    obtain ⟨b, c, hroles⟩ := rolesAfter_eq m a s
    refine ⟨rolesAfter m a s, exec_mgmtWatchdogTimeout_successor hm hok hr hp ha hne h3 hak, ?_⟩
    rw [hroles]
    refine ⟨rfl, (mgmtLost_ok m m s).trans (if_pos rfl), rfl, fun hma => ?_, rfl, rfl, rfl⟩
    show (if m = s.mgmt.active && s.mgmt.commitAt.isSome then none else s.mgmt.commitAt) = none
    cases hc : s.mgmt.commitAt <;> simp [hma]

end Sys2Proof.Machine

/-! Ports and lanes (O43): what the link layer keeps of its port where the devices elect anew. -/
namespace Sys2Proof.Machine
open Sys2Proof

variable {s : State} {i : Nat}

/-! ### The credits of a port -/

theorem mem_vcs {v : Nat} (h : v < 4) : v ∈ [0, 1, 2, 3] := by
  interval_cases v <;> simp

/-- A value written for each VC. -/
theorem get_foldl_vcs {α : Type} [DecidableEq α] [Inhabited α] (g : Nat → α) (c : Tbl α) {v : Nat} (h : v < 4) :
    ([0, 1, 2, 3].foldl (fun c v => c.put v (g v)) c).get v = g v :=
  (Tbl.get_foldl_put (k := fun i => i) Function.injective_id g _ v c).trans (if_pos (mem_vcs h))

/-! ### Training (R339) -/

/-- What training makes of a port: UP on eight lanes, the packets of its replay buffer sent again under their credits. -/
def trainedPort (t : FPort) : FPort :=
  resend { t with st := .up, lanes := 8, spare := t.badLanes.isEmpty, moving := false, lossAt := none, failsN := 0, nak := false
                  credits := [0, 1, 2, 3].foldl (fun c v => c.put v (flitsOf (t.replay.filter fun k => k.vc = v))) [], freed := [], peerFreed := [], tRecv := none, tMaster := none }

theorem trainedPort_credits (t : FPort) {v : Nat} (h : v < 4) :
    (trainedPort t).credits.get v = flitsOf (t.replay.filter fun k => k.vc = v) :=
  get_foldl_vcs (fun v => flitsOf (t.replay.filter fun k => k.vc = v)) [] h

section Training
variable {peer : BitVec 16} {pp : BitVec 6} (hi : i < nPorts s.variant) (ht : trains s i = true) (hb : (s.port i).badLanes.length ≤ 1)
include hi ht hb

theorem exec_portTrainingComplete_other (h : peer ≠ s.fab.devId) : ∃ t, exec (.portTrainingComplete i peer pp) s = .next t ∧
    t.port i = trainedPort { s.port i with peer := peer, peerPort := pp } := by
  refine ⟨timeElect ((s.onPort i fun t => { t with st := .training, peer := peer, peerPort := pp }).onPort i fun t =>
    resend { t with st := .up, lanes := 8, spare := t.badLanes.isEmpty, moving := false, lossAt := none, failsN := 0, nak := false
                    credits := [0, 1, 2, 3].foldl (fun c v => c.put v (flitsOf ((s.port i).replay.filter fun k => k.vc = v))) [], freed := [], peerFreed := [], tRecv := none, tMaster := none }), ?_, ?_⟩
  · show execPortTrainingComplete i peer pp s = _
    unfold execPortTrainingComplete
    dsimp only
    rw [if_neg (by simp [ht]; omega)]
    exact if_neg h
  · rw [timeElect_port, port_onPort_same, port_onPort_same]
    rfl

theorem exec_portTrainingComplete_own (h : peer = s.fab.devId) : exec (.portTrainingComplete i peer pp) s =
    .next (errAdd (laneRec i sevDegraded) (s.onPort i fun t => { t with st := .training, peer := peer, peerPort := pp })) := by
  show execPortTrainingComplete i peer pp s = _
  unfold execPortTrainingComplete
  dsimp only
  rw [if_neg (by simp [ht]; omega)]
  exact if_pos h

end Training

/-! ### LINK packets (R342 R343) -/

/-- What is left of the replay buffer after a LINK packet, and the failures of its first packet. -/
def unacked (k : LinkPkt) (t : FPort) : List FPkt := t.replay.filter fun x => !acked k.ack x
def failsOf (k : LinkPkt) (t : FPort) : Nat :=
  if !k.nak then (if (unacked k t).length < t.replay.length then 0 else t.failsN) else if (unacked k t).length < t.replay.length then 1 else t.failsN + 1
/-- A port that has taken a LINK packet. -/
def linkTaken (k : LinkPkt) (p t : FPort) : FPort :=
  { t with replay := unacked k p, failsN := failsOf k p, peer := k.device, peerPort := k.port
           credits := [0, 1, 2, 3].foldl (fun c v => c.put v (t.credits.get v - (k.credit.getD v 0 - p.peerFreed.get v).toNat)) t.credits
           peerFreed := [0, 1, 2, 3].foldl (fun c v => c.put v (k.credit.getD v 0)) t.peerFreed }

theorem linkTaken_credits (k : LinkPkt) (p t : FPort) {v : Nat} (h : v < 4) :
    (linkTaken k p t).credits.get v = t.credits.get v - (k.credit.getD v 0 - p.peerFreed.get v).toNat :=
  get_foldl_vcs (fun v => t.credits.get v - (k.credit.getD v 0 - p.peerFreed.get v).toNat) t.credits h

theorem linkTaken_peerFreed (k : LinkPkt) (p t : FPort) {v : Nat} (h : v < 4) : (linkTaken k p t).peerFreed.get v = k.credit.getD v 0 :=
  get_foldl_vcs (fun v => k.credit.getD v 0) t.peerFreed h

section Link
variable {k : LinkPkt} (hi : i < nPorts s.variant) (hu : (s.port i).isUp = true) (hc : k.credit.length = 4)
include hi hu hc

theorem exec_linkPacket : exec (.linkPacket i true false k) s = .next (
    if !k.nak then s.onPort i (linkTaken k (s.port i))
    else if 16 ≤ failsOf k (s.port i) then portRetrain i (s.onPort i (linkTaken k (s.port i)))
    else (s.onPort i (linkTaken k (s.port i))).onPort i resend) := by
  show execLinkPacket i true false k s = _
  unfold execLinkPacket
  dsimp only
  rw [if_neg (by simp [hu, hc]; omega), if_neg (by simp), apply_ite Host.Outcome.next, apply_ite Host.Outcome.next]
  rfl

theorem linkPacket_taken (hn : k.nak = false) : ∃ t, exec (.linkPacket i true false k) s = .next t ∧ t.port i = linkTaken k (s.port i) (s.port i) := by
  refine ⟨_, exec_linkPacket hi hu hc, ?_⟩
  rw [if_pos (by simp [hn]), port_onPort_same]

theorem linkPacket_again (hn : k.nak = true) (hf : failsOf k (s.port i) < 16) :
    ∃ t, exec (.linkPacket i true false k) s = .next t ∧ t.port i = resend (linkTaken k (s.port i) (s.port i)) := by
  refine ⟨_, exec_linkPacket hi hu hc, ?_⟩
  rw [if_neg (by simp [hn]), if_neg (by omega), port_onPort_same, port_onPort_same]

theorem linkPacket_retrains (hn : k.nak = true) (hf : 16 ≤ failsOf k (s.port i)) :
    ∃ t, exec (.linkPacket i true false k) s = .next t ∧ (t.port i).st = .training ∧ (t.port i).replay = unacked k (s.port i) ∧
      (t.port i).retrained = (s.port i).retrained.raise := by
  refine ⟨_, exec_linkPacket hi hu hc, ?_⟩
  rw [if_neg (by simp [hn]), if_pos hf]
  unfold portRetrain
  rw [timeElect_port, port_onPort_same, port_onPort_same]
  exact ⟨rfl, rfl, rfl⟩

end Link

theorem failsOf_of_nak {k : LinkPkt} (hn : k.nak = true) (t : FPort) :
    failsOf k t = if (unacked k t).length < t.replay.length then 1 else t.failsN + 1 := if_neg (by simp [hn])

theorem exec_linkPacketSend (hu : (s.port i).isUp = true) : exec (.linkPacketSend i) s =
    .next (s.onPort i fun t => { t with linkTx := t.linkTx + 1, linkOut := some (linkPktOf s i), nak := false }) := if_neg (by simp [hu])

/-! ### Losses of the link and of lanes (R343 R353 R354) -/

theorem portDown_of_training (h : (s.port i).st = .training) :
    ((portDown i s).port i).st = .down ∧ ((portDown i s).port i).replay = [] ∧ ((portDown i s).port i).downF = (s.port i).downF.raise := by
  unfold portDown
  rw [if_neg (by simp [h]), timeElect_port, port_onPort_same]
  exact ⟨rfl, rfl, rfl⟩

theorem exec_portDownTimeout {t0 : Nat} (hl : (s.port i).lossAt = some t0) (ht : (s.port i).st = .training) (h : t0 + 100000000 ≤ s.now) :
    exec (.portDownTimeout i) s = .next (portDown i s) := by
  show execPortDownTimeout i s = _
  unfold execPortDownTimeout
  simp only [hl, ht, h, decide_true, Bool.and_self, if_true]

theorem exec_laneLockLoss {lane : Nat} (hu : (s.port i).isUp = true) (hl : lane < 9) (hb : (s.port i).badLanes.contains lane = false) :
    exec (.laneLockLoss i lane) s = .next (
      if (s.port i).badLanes.length < 2 then s.onPort i fun t => { t with badLanes := t.badLanes ++ [lane], moving := true }
      else portDown i (s.onPort i fun t => { t with badLanes := t.badLanes ++ [lane], moving := true })) := by
  show execLaneLockLoss i lane s = _
  unfold execLaneLockLoss
  dsimp only
  rw [if_neg (by simp only [hu, hb]; simp; omega), port_onPort_same]
  simp only [List.length_append, List.length_singleton]
  by_cases h2 : (s.port i).badLanes.length < 2
  · rw [if_neg (by omega), if_pos h2]
  · rw [if_pos (by omega), if_neg h2]

theorem exec_laneSpareResume (hu : (s.port i).isUp = true) (hm : (s.port i).moving = true) {v : State}
    (hv : v = if (s.port i).spare then laneSpared i (s.onPort i fun t => resend { t with moving := false }) else s.onPort i fun t => resend { t with moving := false }) :
    exec (.laneSpareResume i) s = .next (if 1 < (s.port i).badLanes.length ∧ (s.port i).st ≠ .upDegraded then laneDegraded i v else v) := by
  show execLaneSpareResume i s = _
  unfold execLaneSpareResume
  dsimp only
  rw [if_neg (by simp [hu, hm]), ← hv]
  simp

theorem exec_laneRetrainTick {lane : Nat} (hm : (s.port i).moving = false) (hb : (s.port i).badLanes.contains lane = true) :
    exec (.laneRetrainTick i lane true) s = .next (
      if (s.port i).isUp = false then s.onPort i fun t => { t with badLanes := t.badLanes.erase lane }
      else if (s.port i).st = .upDegraded then timeElect (s.onPort i fun t => { t with badLanes := t.badLanes.erase lane, st := .up, lanes := 8 })
      else s.onPort i fun t => { t with badLanes := t.badLanes.erase lane, spare := true }) := by
  show execLaneRetrainTick i lane true s = _
  unfold execLaneRetrainTick
  dsimp only
  rw [if_neg (by simp only [hm, hb]; simp)]
  simp only [Bool.not_eq_true']

theorem exec_spareLaneRotation (hu : (s.port i).isUp = true) (hs : (s.port i).spare = true) (hm : (s.port i).moving = false) :
    exec (.spareLaneRotation i) s = .next (s.onPort i fun t => { t with rotLane := (t.rotLane + 1) % 8 }) :=
  congrArg Host.Outcome.next (if_pos (by simp [hu, hs, hm]))

/-- Settles O43: what each event leaves at its port; the election of a time master changes no port. -/
theorem portsAndLanesComplete : Obligations.PortsAndLanesComplete := by
  intro s i
  refine ⟨fun peer pp hi ht hb => ⟨fun h => ?training, exec_portTrainingComplete_own hi ht hb⟩, exec_linkPacketSend, fun k hi hu hc hn => ?taken,
    ?nak, fun t0 hl ht h => ⟨_, exec_portDownTimeout hl ht h, portDown_of_training ht⟩, ?loss, ?resume,
    fun lane => exec_laneRetrainTick, exec_spareLaneRotation⟩
  case training =>
    obtain ⟨t, ht, hp⟩ := exec_portTrainingComplete_other hi ht hb h (pp := pp)
    refine ⟨t, ht, ?_⟩
    rw [hp]
    exact ⟨rfl, rfl, rfl, rfl, rfl, rfl, rfl, fun v hv => trainedPort_credits _ hv⟩
  case taken =>
    obtain ⟨t, ht, hp⟩ := linkPacket_taken hi hu hc hn
    refine ⟨t, ht, ?_⟩
    rw [hp]
    exact ⟨rfl, rfl, rfl, rfl, rfl, fun v hv => ⟨linkTaken_credits k _ _ hv, linkTaken_peerFreed k _ _ hv⟩⟩
  case nak =>
    rintro k _ n hi hu hc hn rfl hf
    have hfails : failsOf k (s.port i) = n := (failsOf_of_nak hn _).trans hf.symm
    refine ⟨fun hlt => ?_, fun hge => linkPacket_retrains hi hu hc hn (by omega)⟩
    obtain ⟨t, ht, hp⟩ := linkPacket_again hi hu hc hn (by omega)
    exact ⟨t, ht, by rw [hp]; exact hfails, by rw [hp]; rfl, by rw [hp]; rfl, by rw [hp]; rfl⟩
  case loss =>
    rintro lane hu hl hb _ rfl
    exact exec_laneLockLoss hu hl hb
  case resume =>
    rintro hu hm _ rfl _ hv
    exact exec_laneSpareResume hu hm hv

end Sys2Proof.Machine

/-! Power-up, power-down and protection (O39): what a supply step leaves, by the operation it ends with. -/
namespace Sys2Proof.Machine
open Sys2Proof

variable {s : State}

/-! ### From 12 V to the switch (R404 R410) -/

/-- What is kept of a memory whose range `p` alone survives. -/
theorem mem_kept (m : Tbl Byte) (p : Nat → Bool) {a : Nat} (h : p a = true) : Tbl.get (m.filter fun x => p x.1) a = m.get a :=
  (Tbl.get_filter_key m p a).trans (if_pos h)

theorem mem_lost (m : Tbl Byte) (p : Nat → Bool) {a : Nat} (h : p a = false) : Tbl.get (m.filter fun x => p x.1) a = 0 :=
  (Tbl.get_filter_key m p a).trans (if_neg (by simp [h]))

theorem powerOn_mem (mpos : BitVec 16) (smb : BitVec 2) (s : State) {a : Nat} (h : hostBase ≤ a) : (powerOn mpos smb s).mem.get a = s.mem.get a :=
  mem_kept s.mem (fun a => decide (hostBase ≤ a)) (decide_eq_true h)

theorem exec_power12vApply (mpos : BitVec 16) (smb : BitVec 2) (h : s.pwr.aux = false) :
    exec (.power12vApply mpos smb) s = .next (powerOn mpos smb s) := congrArg Host.Outcome.next (if_neg (by simp [h]))

/-! ### The boot image (R411) -/

/-- The boot ROM has verified both images. -/
def slotsVerified (okA okB : Bool) (s : State) : State :=
  s.onMgmt fun m => { m with slotOk := Tbl.put (Tbl.put ([] : Tbl Bool) 0 (!okA)) 1 (!okB) }
/-- A good image has been taken. -/
def imageTaken (okA okB : Bool) (s : State) : State :=
  ((slotsVerified okA okB s).onPwr fun p => { p with state := .standby, steps := 2 }).onTsc fun t => { t with locked := t.ref }

section Boot
variable {okA okB : Bool} (ha : s.pwr.aux = true) (hb : s.pwr.state = .boot) (h1 : s.pwr.steps = 1) (hg : s.mgmt.bothBad = false)
include ha hb h1 hg

theorem exec_bootImageVerified_none (hA : okA = false) (hB : okB = false) : exec (.bootImageVerified okA okB) s =
    .next (((slotsVerified okA okB s).onMgmt fun m => { m with bothBad := true }).onPwr fun p => { p with faultN := true }) := by
  show execBootImageVerified okA okB s = _
  unfold execBootImageVerified
  dsimp only
  rw [if_neg (by simp [ha, hb, h1, hg])]
  exact if_pos (by simp [hA, hB])

theorem exec_bootImageVerified_some (h : okA = true ∨ okB = true) {a : Nat} {rest : List Nat} (hm : mgmtIn s = a :: rest) :
    exec (.bootImageVerified okA okB) s = .next ((rolesFor a (imageTaken okA okB s)).onMgmt fun m => { m with running := true }) := by
  have hm' : mgmtIn (imageTaken okA okB s) = a :: rest := hm
  show execBootImageVerified okA okB s = _
  unfold execBootImageVerified
  dsimp only
  rw [if_neg (by simp [ha, hb, h1, hg]), if_neg (by rcases h with h | h <;> simp [h])]
  unfold imageTaken slotsVerified at hm' ⊢
  rw [hm']

end Boot

/-! ### The islands (R410) -/

theorem get_range_foldl_put {α : Type} [Inhabited α] [DecidableEq α] (x : α) {n q : Nat} (hq : q < n) :
    Tbl.get ((List.range n).foldl (fun t k => Tbl.put t k x) []) q = x := by
  rw [Tbl.get_foldl_put (k := fun i => i) Function.injective_id (fun _ => x), if_pos (List.mem_range.mpr hq)]

theorem mainUp_quad (s : State) {q : Nat} (hq : q < 288) : (mainUp s).pwr.quads.get q = { mode := .operating, mv := 550 } := by
  simp only [mainUp, islandsUp, State.onPwr_frame]
  exact get_range_foldl_put _ hq

theorem mainUp_leaves (s : State) : (mainUp s).pwr.sw = true ∧ (mainUp s).pwr.islands = true ∧ (mainUp s).pwr.state = .starting ∧ (mainUp s).pwr.steps = 4 ∧
    ∀ q < 288, ((mainUp s).pwr.quads.get q).mode = .operating ∧ ((mainUp s).pwr.quads.get q).mv = 550 :=
  ⟨rfl, rfl, rfl, rfl, fun _ hq => by simp only [mainUp_quad s hq, and_self]⟩

theorem exec_mainSwitchClose (hr : s.mgmt.running = true) (hs : s.pwr.state = .standby) (h2 : s.pwr.steps = 2) (hm : s.pwr.mainOn = true) :
    exec .mainSwitchClose s = .next (mainUp s) := congrArg Host.Outcome.next (if_pos (by simp [hr, hs, h2, hm]))

theorem exec_mainPowerOn (hr : s.mgmt.running = true) (hv : s.pwr.v48 = true) (hs : s.pwr.state = .standby ∨ s.pwr.state = .protect) :
    exec .mainPowerOn s = .next (mainUp (s.onPwr fun p => { p with mainOn := true })) :=
  congrArg Host.Outcome.next ((if_pos (by rcases hs with hs | hs <;> simp [hr, hs])).trans (if_pos hv))

theorem exec_input48vReturn (hs : s.pwr.state = .protect) (hl : ∀ t0, s.pwr.v48lost = some t0 → t0 + 1000000000 ≤ s.now) :
    exec .input48vReturn s = .next (mainUp s) := by
  show execInput48vReturn s = _
  unfold execInput48vReturn
  dsimp only
  cases h : s.pwr.v48lost with
  | none => exact if_neg (by simp [hs])
  | some t0 => exact if_neg (by simp [hs, hl t0 h])

/-! ### Stacks and ports (R411 to R413) -/

/-- A stack trains, or has failed twice. -/
def stackTrain (ok : List Nat) (h : Nat) (s : State) : State :=
  if ok.contains h then s.onStack h fun x => { x with trained := true }
  else errAdd { (stackRec s.variant h clHbm sevDegraded 0) with flags := 0 } (s.onStack h fun x => { x with trained := false, failed := true })

theorem errAdd_tier (r : ErrRec) (s : State) : (errAdd r s).tier = s.tier := (congrArg State.tier (errAdd_onlyRecords r s).state :)

theorem stackTrain_tier (ok : List Nat) (h : Nat) (s : State) : (stackTrain ok h s).tier.hbms =
    s.tier.hbms.upd h fun x => { x with trained := ok.contains h, failed := x.failed || !ok.contains h } := by
  unfold stackTrain
  cases hok : ok.contains h with
  | true => simp [State.onStack]
  | false => simp [errAdd_tier, State.onStack]

theorem stackTrains_get (ok : List Nat) {n h : Nat} (hn : h < n) (s : State) : ((forAll (List.range n) (stackTrain ok) s).tier.hbms.get h) =
    { s.tier.hbms.get h with trained := ok.contains h, failed := (s.tier.hbms.get h).failed || !ok.contains h } :=
  foldl_at (fun s : State => s.tier.hbms.get h) (fun x => { x with trained := ok.contains h, failed := x.failed || !ok.contains h }) (f := fun t i => stackTrain ok i t)
    List.nodup_range (List.mem_range.mpr hn) (fun t => by simp only [stackTrain_tier, Tbl.get_upd_same])
    (fun t i _ hi => by simp only [stackTrain_tier, Tbl.get_upd_other _ _ hi.symm]) s

theorem stackTrains_err {ok : List Nat} {n : Nat} (h : ∀ i < n, ok.contains i = true) (s : State) :
    (forAll (List.range n) (stackTrain ok) s).err = s.err := by
  refine foldl_keeps_mem State.err (fun t i hi => ?_) s
  unfold stackTrain
  rw [if_pos (h i (List.mem_range.mp hi))]
  rfl

theorem exec_hbmTrainingDone (ok : List Nat) (hs : s.pwr.state = .starting) (h4 : s.pwr.steps = 4) : exec (.hbmTrainingDone ok) s =
    .next ((forAll (List.range (nStacks s.variant)) (stackTrain ok) s).onPwr fun p => { p with steps := 5 }) := by
  show execHbmTrainingDone ok s = _
  unfold execHbmTrainingDone
  exact if_neg (by simp [hs, h4])

/-- What training makes of a port and of what it goes by. -/
def portTrained (i : Nat) (b : FPort × Tbl IoDie × Bool) : FPort × Tbl IoDie × Bool :=
  (if b.1.enable && (b.2.1.get (i / 8)).refclk && !(b.2.1.get (i / 8)).out && b.2.2 then { b.1 with st := .training, lanes := 0 } else b.1, b.2)

theorem portTrain_view_same (i : Nat) (s : State) : trainView i (portTrain i s) = portTrained i (trainView i s) := by
  unfold trainView
  rw [portTrain_ios, portTrain_pwr]
  refine Prod.ext ?_ rfl
  unfold portTrain portTrained
  dsimp only
  split
  · exact port_onPort_same ..
  · rfl

theorem portTrain_view_other {i j : Nat} (h : j ≠ i) (s : State) : trainView j (portTrain i s) = trainView j s := by
  unfold trainView
  rw [portTrain_port_other h, portTrain_ios, portTrain_pwr]

theorem portTrains_st {n i : Nat} (hi : i < n) (h : mayTrain s i) : ((forAll (List.range n) portTrain s).port i).st = .training := by
  have hview := foldl_at (trainView i) (portTrained i) (f := fun t j => portTrain j t) List.nodup_range (List.mem_range.mpr hi)
    (portTrain_view_same i) (fun t j _ hj => portTrain_view_other hj.symm t) s
  obtain ⟨he, hr, ho, hp⟩ := h
  refine (congrArg (fun b => b.1.st) hview).trans ?_
  unfold portTrained trainView
  rw [if_pos (by simp [he, hr, ho, hp])]

theorem portTrains_pwr (l : List Nat) (s : State) : (forAll l portTrain s).pwr = s.pwr :=
  foldl_keeps State.pwr (fun t i => portTrain_pwr i t) l s

theorem exec_tierSelfTestDone (hs : s.pwr.state = .starting) (h5 : s.pwr.steps = 5) : exec .tierSelfTestDone s =
    .next (forAll (List.range (nPorts s.variant)) portTrain (s.onPwr fun p => { p with steps := 6 })) := by
  show execTierSelfTestDone s = _
  unfold execTierSelfTestDone
  exact if_neg (by simp [hs, h5])

/-! ### READY (R411) -/

/-- Plowin takes requests; the records and responses that were held have not gone yet. -/
def readyTaken (s : State) : State :=
  ((s.onPwr fun p =>
    { p with state := .ready, steps := 7, faultN := false, thermStop := false, thermN := (List.range 8).any fun d => (s.pwr.gov.get d).thermal
             wakeN := if p.afterStop then p.wakeN + 1 else p.wakeN, afterStop := false }).onTsc fun t => { t with stepped := true }).onMgmt fun m => { m with ready := true }

theorem exec_ready (hs : s.pwr.state = .starting) (h6 : s.pwr.steps = 6) (hr : s.mgmt.running = true) :
    exec .ready s = .next (rspFlush (errFlush (readyTaken s))) := by
  show execReady s = _
  unfold execReady
  exact if_neg (by simp [hs, h6, hr])

theorem OnlyResponds.pwr {s t : State} (h : OnlyResponds s t) : t.pwr = s.pwr := (congrArg State.pwr h.state :)
theorem OnlyResponds.ready {s t : State} (h : OnlyResponds s t) : t.mgmt.ready = s.mgmt.ready := (congrArg Mgmt.ready h.mgmt :)
theorem OnlyRecords.pwr {s t : State} (h : OnlyRecords s t) : t.pwr = s.pwr := (congrArg State.pwr h.state :)
theorem OnlyRecords.mgmt {s t : State} (h : OnlyRecords s t) : t.mgmt = s.mgmt := (congrArg State.mgmt h.state :)
theorem OnlyRecords.tsc {s t : State} (h : OnlyRecords s t) : t.tsc = s.tsc := (congrArg State.tsc h.state :)

theorem flushed_pwr (s : State) : (rspFlush (errFlush s)).pwr = s.pwr :=
  (rspFlush_onlyResponds _).pwr.trans (errFlush_onlyRecords s).pwr
theorem flushed_ready (s : State) : (rspFlush (errFlush s)).mgmt.ready = s.mgmt.ready :=
  (rspFlush_onlyResponds _).ready.trans (congrArg Mgmt.ready (errFlush_onlyRecords s).mgmt)

/-! ### Out of its place a step changes nothing -/

theorem not_in_place {st st' : ModSt} {n n' : Nat} (h : st ≠ st' ∨ n ≠ n') : (st != st' || n != n') = true := by
  simpa using h

theorem exec_outOfPlace (s : State) :
    (s.pwr.state ≠ .starting ∨ s.pwr.steps ≠ 4 → ∀ ok, exec (.hbmTrainingDone ok) s = .next s) ∧
    (s.pwr.state ≠ .starting ∨ s.pwr.steps ≠ 5 → exec .tierSelfTestDone s = .next s) ∧
    (s.pwr.state ≠ .starting ∨ s.pwr.steps ≠ 6 → exec .ready s = .next s) ∧
    (s.pwr.state ≠ .standby ∨ s.pwr.steps ≠ 2 → exec .mainSwitchClose s = .next s) ∧
    (s.pwr.state ≠ .boot ∨ s.pwr.steps ≠ 1 → ∀ okA okB, exec (.bootImageVerified okA okB) s = .next s) := by
  refine ⟨fun h ok => if_pos (not_in_place h), fun h => if_pos (not_in_place h), fun h => if_pos (by simp [not_in_place h]), fun h => ?_, fun h okA okB => ?_⟩
  · refine congrArg Host.Outcome.next (if_neg fun hc => ?_)
    simp only [Bool.and_eq_true, decide_eq_true_eq] at hc
    obtain ⟨⟨⟨-, hs⟩, h2⟩, -⟩ := hc
    exact h.elim (absurd hs) (absurd h2)
  · exact if_pos (by rw [Bool.or_assoc (!s.pwr.aux), not_in_place h, Bool.or_true, Bool.true_or])

/-! ### Power taken from the islands (R414 R415 R418 to R420) -/

theorem islandsReset_mem (s : State) : (islandsReset false s).mem = s.mem.filter fun x => decide (hostBase ≤ x.1) := by
  unfold islandsReset
  simp only [Bool.false_and, Bool.or_false]

theorem powerOff_mem_host (st : ModSt) (s : State) {a : Nat} (h : hostBase ≤ a) : (powerOff st s).mem.get a = s.mem.get a :=
  (congrArg (Tbl.get · a) (islandsReset_mem s)).trans (mem_kept s.mem (fun a => decide (hostBase ≤ a)) (decide_eq_true h))

theorem powerOff_mem_device (st : ModSt) (s : State) {a : Nat} (h : a < hostBase) : (powerOff st s).mem.get a = 0 :=
  (congrArg (Tbl.get · a) (islandsReset_mem s)).trans (mem_lost s.mem (fun a => decide (hostBase ≤ a)) (decide_eq_false (by omega)))

theorem powerOff_not_live (st : ModSt) (s : State) (c : Nat) : ((powerOff st s).ctx c).live = false :=
  congrArg Ctx.live (Tbl.get_mapAll s.ctxs Ctx.kept rfl c)

theorem exec_mainPowerOff (hr : s.mgmt.running = true) (hw : s.pwr.sw = true) :
    exec .mainPowerOff s = .next (powerOff .standby (s.onPwr fun p => { p with mainOn := false })) := by
  show execMainPowerOff s = _
  unfold execMainPowerOff
  dsimp only
  rw [if_neg (by simp [hr])]
  exact congrArg Host.Outcome.next (if_pos hw)

/-- The record of a protection stop. -/
def protectRec (ev : Nat) : ErrRec := { source := srcPower, cls := clPower, sev := sevFatal, die := 0x20, event := ev }

/-- The islands of a device whose protection stop is recorded are turned off. -/
def stopped (ev : Nat) (s : State) : State :=
  ((powerOff .protect s).onPwr fun p =>
    { p with faultN := true, thermStop := p.thermStop || ev = 1, thermN := p.thermStop || ev = 1
             v48 := p.v48 && ev != 3 && ev != 4, v48lost := if ev = 3 then some s.now else none }).onErr fun e => { e with log := e.last.reverse }

theorem protect_eq (ev : Nat) (s : State) : protect ev s = stopped ev (errAdd (protectRec ev) s) := rfl

theorem stopped_leaves (ev : Nat) (s : State) : (stopped ev s).pwr.state = .protect ∧ (stopped ev s).pwr.sw = false ∧ (stopped ev s).pwr.islands = false ∧
    (stopped ev s).pwr.faultN = true ∧ (stopped ev s).err.seq = s.err.seq ∧ (stopped ev s).groups = [] ∧ (∀ c, ((stopped ev s).ctx c).live = false) ∧
    (stopped ev s).err.valid = false ∧ (stopped ev s).tsc.time = s.tsc.time :=
  ⟨rfl, rfl, rfl, rfl, rfl, rfl, powerOff_not_live .protect s, rfl, rfl⟩

theorem protect_leaves (ev : Nat) (s : State) : (protect ev s).pwr.state = .protect ∧ (protect ev s).pwr.sw = false ∧ (protect ev s).pwr.islands = false ∧
    (protect ev s).pwr.faultN = true ∧ (protect ev s).err.seq = (s.err.seq + 1) % 2 ^ 32 ∧ (protect ev s).groups = [] ∧ (∀ c, ((protect ev s).ctx c).live = false) ∧
    (protect ev s).err.valid = false ∧ (protect ev s).tsc.time = s.tsc.time := by
  have hseq : (errAdd (protectRec ev) s).err.seq = (s.err.seq + 1) % 2 ^ 32 := congrArg Prod.fst (errAdd_marks_of_fatal s rfl)
  rw [protect_eq, ← hseq, ← (errAdd_onlyRecords (protectRec ev) s).tsc]
  exact stopped_leaves ev _

theorem exec_protectionStop {ev : Nat} (h1 : 1 ≤ ev) (h4 : ev ≤ 4) (hw : s.pwr.sw = true) (ha : s.pwr.aux = true) :
    exec (.protectionStop ev) s = .next (protect ev s) := congrArg Host.Outcome.next (if_pos (by simp [h1, h4, hw, ha]))

/-- 12 V is gone. -/
def auxLost (s : State) : State :=
  (((powerOff .boot s).onPwr fun p => { p with aux := false, steps := 0, faultN := false, thermN := false, thermStop := false, smbAlert := false }).onMgmt fun m =>
    { m with running := false, ready := false }).onTsc fun t => { t with locked := false }

theorem exec_auxSupplyLoss (ha : s.pwr.aux = true) : exec .auxSupplyLoss s = .next (auxLost s) := if_neg (by simp [ha])

/-- Settles O39: each step ends with one operation on the supplies, whose effects are those stated. -/
theorem supplySequenceCompletes : Obligations.SupplySequenceCompletes := by
  intro s
  refine ⟨fun mpos smb h => ⟨_, exec_power12vApply mpos smb h, rfl, rfl, rfl, rfl, rfl, rfl, rfl, rfl, rfl, rfl, fun _ => powerOn_mem mpos smb s⟩,
    fun okA okB ha hb h1 hg => ⟨fun hA hB => ⟨_, exec_bootImageVerified_none ha hb h1 hg hA hB, rfl, rfl, hb, rfl⟩, ?boot⟩, ?up,
    fun ok hs h4 => ⟨_, exec_hbmTrainingDone ok hs h4, rfl, fun h hh => ?stack, stackTrains_err (s := s)⟩,
    fun hs h5 => ⟨_, exec_tierSelfTestDone hs h5, ?steps, fun i hi he hr ho hp => portTrains_st hi ⟨he, hr, ho, hp⟩⟩,
    fun p hp ha => congrArg Host.Outcome.next (if_pos (by simp [hp, ha])), ?ready, exec_outOfPlace s,
    fun hr hw => ⟨_, exec_mainPowerOff hr hw, rfl, rfl, rfl, rfl, rfl, hr, rfl, rfl, rfl, fun _ => powerOff_mem_device .standby _, fun _ => powerOff_mem_host .standby _⟩,
    fun ev h1 h4 hw ha => ⟨_, exec_protectionStop h1 h4 hw ha, rfl, protect_leaves ev s⟩,
    fun ha => ⟨_, exec_auxSupplyLoss ha, rfl, rfl, rfl, rfl, rfl, rfl, rfl⟩⟩
  case boot =>
    intro h a rest hm
    obtain ⟨b, c, hroles⟩ := rolesFor_eq a (imageTaken okA okB s)
    exact ⟨_, exec_bootImageVerified_some ha hb h1 hg h hm, by rw [hroles]; rfl, by rw [hroles]; rfl, rfl, by rw [hroles]; rfl⟩
  case up =>
    rintro cmd (⟨rfl, hr, hs, h2, hm⟩ | ⟨rfl, hr, hv, hs⟩ | ⟨rfl, hs, hl⟩)
    · exact ⟨_, exec_mainSwitchClose hr hs h2 hm, mainUp_leaves _⟩
    · exact ⟨_, exec_mainPowerOn hr hv hs, mainUp_leaves _⟩
    · exact ⟨_, exec_input48vReturn hs hl, mainUp_leaves _⟩
  case stack =>
    show Stack.trained (Tbl.get (State.tier (forAll _ _ s)).hbms h) = _ ∧ (_ → Stack.failed (Tbl.get (State.tier (forAll _ _ s)).hbms h) = true)
    rw [stackTrains_get ok hh]
    exact ⟨rfl, fun hok => by simp only [hok, Bool.not_false, Bool.or_true]⟩
  case steps => rw [portTrains_pwr]; rfl
  case ready =>
    intro hs h6 hr
    refine ⟨_, exec_ready hs h6 hr, ?_⟩
    rw [flushed_pwr, flushed_ready]
    exact ⟨rfl, rfl, rfl, rfl, rfl⟩

end Sys2Proof.Machine

/-! Stops, saves and restores (O29): one equation per command and outcome, and what a restored group keeps. -/
namespace Sys2Proof.Machine
open Sys2Proof

variable {s : State} {core slot : Nat}

/-! ### Stops (R329 R330) -/

section Save
variable {x : Stop} (h48 : slot < 48) (hstop : (s.group (gKey core slot)).stop = some x) (hid : s.idRuns core = true)
include h48 hstop hid

theorem exec_groupSave_parked (hs : (s.group (gKey core slot)).stage = .parked) :
    exec (.groupSave core slot) s = .next (stopGroup (gKey core slot) none s) := by
  show execGroupSave core slot s = _
  unfold execGroupSave
  dsimp only
  rw [if_neg (by simp [hstop, hid, hs]; omega)]
  exact if_pos hs

theorem exec_groupSave_full (hs : (s.group (gKey core slot)).stage = .running) (hl : liveAt s (s.group (gKey core slot)) = none)
    (h : cutWithout s (s.group (gKey core slot)) = true ∨ (s.group (gKey core slot)).alive.all (laneStopped s (s.group (gKey core slot))) = true) :
    exec (.groupSave core slot) s = .next (stopGroup (gKey core slot) none s) := by
  show execGroupSave core slot s = _
  unfold execGroupSave
  dsimp only
  rw [if_neg (by simp [hstop, hid, hs]; omega), if_neg (by simp [hs]), hl]
  exact if_pos (Bool.or_eq_true_iff.mpr h)

theorem exec_groupSave_live {m : LiveMask} (hs : (s.group (gKey core slot)).stage = .running) (hw : (s.group (gKey core slot)).win = [])
    (hf : (s.group (gKey core slot)).faults = []) (hi : inFlight s (s.group (gKey core slot)) = false) (hl : liveAt s (s.group (gKey core slot)) = some m) :
    exec (.groupSave core slot) s = .next (stopGroup (gKey core slot) (some m) s) := by
  show execGroupSave core slot s = _
  unfold execGroupSave
  dsimp only
  rw [if_neg (by simp [hstop, hid, hs]; omega), if_neg (by simp [hs]), hl]
  exact congrArg Host.Outcome.next (if_pos (by simp [hw, hf, hi]))

theorem exec_stopBoundExpire (hs : (s.group (gKey core slot)).stage = .running ∨ (s.group (gKey core slot)).stage = .parked) (ht : x.since + 50000 ≤ s.now) :
    exec (.stopBoundExpire core slot) s = .next (stopGroup (gKey core slot) none s) := by
  have ht' : x.since + stopNs ≤ s.now := ht
  show execStopBoundExpire core slot s = _
  unfold execStopBoundExpire
  dsimp only
  rw [hstop]
  exact if_neg (by rcases hs with hs | hs <;> simp [hs, hid] <;> omega)

end Save

theorem exec_hangDeclare {x : Stop} (h48 : slot < 48) (hstop : (s.group (gKey core slot)).stop = some x) (hs : (s.group (gKey core slot)).stage ≠ .empty)
    (ht : x.since + 1000000 ≤ s.now) (hr : (s.ctx (s.group (gKey core slot)).ctx).inReset = false) (hm : s.mgmt.ready = true)
    (hw : resetWaits s (s.group (gKey core slot)).ctx 1 (s.ctx (s.group (gKey core slot)).ctx).snap = false) {c : Nat} (hc : c = (s.group (gKey core slot)).ctx) {u : State}
    (hu : u = errAdd { (plowinRec s clCtx sevContained) with ctx := c, gen := (s.ctx c).gen } s) :
    exec (.hangDeclare core slot) s = .next (acctAdd c aHang 1 (ctxReset c 1 (u.ctx c).snap none u)) := by
  have ht' : x.since + hangNs ≤ s.now := ht
  subst hc hu
  show execHangDeclare core slot s = _
  unfold execHangDeclare
  dsimp only
  rw [hstop]
  exact if_neg (by simp [hs, hr, hm, hw]; omega)

/-- A group without a stop is asked to stop. -/
theorem requestStop_eq {k : Nat} (why : StopWhy) (hs : (s.group k).stage = .running) (hn : (s.group k).stop = none) :
    requestStop k why s = s.onGroup k fun x => { x with stop := some { why := why, since := s.now } } := by
  refine onGroup_congr ?_
  rw [if_neg (by simp [hs]), hn]

theorem exec_arrayBlockTimeout {p h t0 : Nat} (hp : s.phys core = some p) (hb : (s.group (gKey core slot)).arrBlock = some t0) (hh : (s.core p).holder = some h)
    (h48 : slot < 48) (hs : (s.group (gKey core slot)).stage = .running) (hne : h ≠ slot) (ht : t0 + 10000 < s.now) (h1 : 1 ≤ groupPrec s (s.group (gKey core slot)))
    (hlt : groupPrec s (s.group (gKey core h)) < groupPrec s (s.group (gKey core slot))) (hroom : saveRoom s (lDie core) [s.group (gKey core h)] = true) :
    exec (.arrayBlockTimeout core slot) s = .next (requestStop (gKey core h) .displaced s) := by
  show execArrayBlockTimeout core slot s = _
  unfold execArrayBlockTimeout
  dsimp only
  rw [hp, hb]
  dsimp only
  rw [hh]
  exact if_pos (by simp [h48, hs, hne, ht, h1, hlt, hroom])

/-! ### Restores (R332) -/

/-- The group that takes the slot. -/
def restored (slot now : Nat) (z : Group) : Group :=
  { afterArray z with slot := slot, arr := none, rwait := none, stop := none, savedAt := 0, saveN := 0, saveAt := [], started := now }

theorem afterArray_keeps (z : Group) : (afterArray z).th = z.th ∧ (afterArray z).u = z.u ∧ (afterArray z).ls = z.ls ∧ (afterArray z).ident = z.ident ∧
    (afterArray z).decided = z.decided := by
  unfold afterArray
  cases z.park with
  | none => exact ⟨rfl, rfl, rfl, rfl, rfl⟩
  | some k =>
    dsimp only
    split <;> exact ⟨rfl, rfl, rfl, rfl, rfl⟩

theorem loadLate_of_not_late {k : Nat} {rw : Option RWait} (h : ∀ r, rw = some r → r.state ≠ 2) : loadLate_ k rw s = s := by
  unfold loadLate_
  cases rw with
  | none => rfl
  | some r => exact if_neg (by simp [h r rfl])

theorem decidedNow_of_none {k : Nat} (h : (s.group k).decided = none) : decidedNow k s = s := by
  unfold decidedNow
  rw [h]

theorem resplit_of_eq {p split : Nat} (h : (s.core p).split = split) : resplit p split s = s := if_pos h

theorem exec_groupRestore {n p : Nat} {z : Group} (hz : s.saved[n]? = some z) (hp : s.phys core = some p) (hc : z.lcore = core) (h48 : slot < 48)
    (he : (s.group (gKey core slot)).stage = .empty) (hr : s.coreRuns p = true) (hx : ctxRuns s z.ctx = true)
    (hfit : fitsOn s (s.launches.get z.launch) z.launch core = true) (ha : z.arr = none) (hd : z.decided = none) (hw : ∀ r, z.rwait = some r → r.state ≠ 2)
    (hs : (s.core p).split = (s.launches.get z.launch).split)
    (ho : outranked s core (groupPrec s z) z.savedAt (fun _ => false) (fun x => x.ident = z.ident) = false) :
    exec (.groupRestore core slot n) s =
      .next (((saveFree z s).onSaved fun l => l.eraseIdx n).onGroups fun t => t.put (gKey core slot) (restored slot s.now z)) := by
  have hsplit : resplit p (s.launches.get z.launch).split (saveFree z s) = saveFree z s := resplit_of_eq hs
  show execGroupRestore core slot n s = _
  unfold execGroupRestore
  rw [hz, hp]
  dsimp only
  rw [if_neg (by simp [hc, h48, he, hr, hx, hfit, ha, ho]), hsplit, ha]
  dsimp only
  rw [loadLate_of_not_late hw, decidedNow_of_none]
  · rfl
  · obtain ⟨-, -, -, -, hdec⟩ := afterArray_keeps z
    exact (congrArg Group.decided (Tbl.get_put_same ..)).trans (hdec.trans hd)

theorem restored_keeps (slot now : Nat) (z : Group) : (restored slot now z).th = z.th ∧ (restored slot now z).u = z.u ∧ (restored slot now z).ls = z.ls ∧
    (restored slot now z).slot = slot ∧ (restored slot now z).started = now ∧ (restored slot now z).stop = none ∧ (restored slot now z).ident = z.ident := by
  obtain ⟨hth, hu, hls, hident, -⟩ := afterArray_keeps z
  exact ⟨hth, hu, hls, rfl, rfl, rfl, hident⟩

/-- Settles O29: the cases of each command; a restore writes no memory, since the core's split is the launch's already. -/
theorem stopsAndSavesComplete : Obligations.StopsAndSavesComplete := by
  intro s core slot
  refine ⟨fun x m h48 hstop hs hid hw hf hi hl => exec_groupSave_live h48 hstop hid hs hw hf hi hl, fun x h48 hstop hid h => ?full,
    fun x h48 hstop hs hid ht => exec_stopBoundExpire h48 hstop hid hs ht, fun x h48 hstop hs ht hr hm hw u hu => exec_hangDeclare h48 hstop hs ht hr hm hw rfl hu,
    fun n z p hz hp hc h48 he hr hx hfit ha hd hw hs ho => ⟨_, exec_groupRestore hz hp hc h48 he hr hx hfit ha hd hw hs ho, rfl, ?kept, rfl⟩, ?displaced⟩
  case full =>
    obtain hs | ⟨hs, hl, h⟩ := h
    · exact exec_groupSave_parked h48 hstop hid hs
    · exact exec_groupSave_full h48 hstop hid hs hl h
  case kept =>
    have hget : State.group (((saveFree z s).onSaved fun l => l.eraseIdx n).onGroups fun t => t.put (gKey core slot) (restored slot s.now z)) (gKey core slot) =
        restored slot s.now z := Tbl.get_put_same ..
    dsimp only
    rw [hget]
    exact restored_keeps slot s.now z
  case displaced =>
    intro p h t0 hp hb hh h48 hs hne ht h1 hlt hroom hrun hnone
    rw [← requestStop_eq .displaced hrun hnone]
    exact exec_arrayBlockTimeout hp hb hh h48 hs hne ht h1 hlt hroom

end Sys2Proof.Machine
